-- ==== Sys2Proof/Word.lean ====
section
/-!
DEFINITION. The word types of the ZVX9-A0 and the plainest field arithmetic on them.
-/
namespace Sys2Proof

/-- A byte of memory. -/
abbrev Byte := BitVec 8

/-- A vector register (R45), a 32-bit word of an instruction (R201). -/
abbrev Word32 := BitVec 32

/-- A uniform register, an address, a literal (R45, R51, R206). -/
abbrev Word64 := BitVec 64

/-- `fld x hi lo`: bits hi:lo of x (R4), as a number. -/
def fld {w : Nat} (x : BitVec w) (hi lo : Nat) : Nat := (x.toNat / 2 ^ lo) % 2 ^ (hi + 1 - lo)

/-- Bit `i` of `x`. -/
def bit {w : Nat} (x : BitVec w) (i : Nat) : Bool := x.getLsbD i

end Sys2Proof
end

