-- ==== Sys2Proof/Machine/Float.lean ====
section
/-!
DEFINITION. Floating point: the element formats of R86, exact values, rounding once under the five modes (R89 to R92),
NaNs (R95 to R97), and the arithmetic of R253 to R258 on exact values.
-/
namespace Sys2Proof.Machine

/-- The rounding modes (R89), coded as RMODE codes them (R47). -/
inductive Mode where
  | rne | rtz | rup | rdn | rna
  deriving DecidableEq, Repr

/-- A floating-point element format: exponent bits, mantissa bits, bias, whether it has infinities (R86). -/
structure Fmt where
  eb : Nat
  mb : Nat
  bias : Nat
  inf : Bool
  deriving DecidableEq, Repr

def fE4M3 : Fmt := ⟨4, 3, 7, false⟩
def fE5M2 : Fmt := ⟨5, 2, 15, true⟩
def fF16 : Fmt := ⟨5, 10, 15, true⟩
def fBF16 : Fmt := ⟨8, 7, 127, true⟩
def fF32 : Fmt := ⟨8, 23, 127, true⟩
def fF64 : Fmt := ⟨11, 52, 1023, true⟩

/-- The bits of FPFLAGS (R47, R94). -/
abbrev Flags := BitVec 5
def flInv : Flags := 16
def flDz : Flags := 8
def flOv : Flags := 4
def flUf : Flags := 2
def flNx : Flags := 1

/-- An exact value: a NaN with sign, quiet bit, payload below the quiet bit, the payload's width; an infinity; or
(−1)^neg × m × 2^e. -/
inductive FV where
  | nan (neg quiet : Bool) (pay pb : Nat)
  | inf (neg : Bool)
  | num (neg : Bool) (m : Nat) (e : Int)
  deriving DecidableEq, Repr

def bitLen (m : Nat) : Nat := if m = 0 then 0 else Nat.log2 m + 1

def Fmt.width (f : Fmt) : Nat := 1 + f.eb + f.mb
def Fmt.emin (f : Fmt) : Int := 1 - (f.bias : Int)
def Fmt.signBit (f : Fmt) (neg : Bool) : Nat := if neg then 2 ^ (f.eb + f.mb) else 0
def Fmt.expAll (f : Fmt) : Nat := (2 ^ f.eb - 1) * 2 ^ f.mb

/-- Largest finite magnitude as (m, e) (R86): E4M3 spends its last code on NaN. -/
def Fmt.maxFin (f : Fmt) : Nat × Int :=
  if f.inf then (2 ^ (f.mb + 1) - 1, (2 ^ f.eb - 2 : Nat) - (f.bias : Int) - f.mb)
  else (2 ^ (f.mb + 1) - 2, (2 ^ f.eb - 1 : Nat) - (f.bias : Int) - f.mb)

def Fmt.maxBits (f : Fmt) (neg : Bool) : Nat := f.signBit neg + (if f.inf then f.expAll - 1 else f.expAll + 2 ^ f.mb - 2)
def Fmt.nanBits (f : Fmt) (neg : Bool) : Nat :=
  f.signBit neg + f.expAll + (if f.inf then 2 ^ (f.mb - 1) else 2 ^ f.mb - 1)
/-- Infinity, and in E4M3 the NaN with the result's sign (R91). -/
def Fmt.infBits (f : Fmt) (neg : Bool) : Nat := if f.inf then f.signBit neg + f.expAll else f.nanBits neg
/-- The default NaN (R95). -/
def Fmt.defNan (f : Fmt) : Nat := f.nanBits false

/-- The exact value of a code of a format (R86). -/
def Fmt.decode (f : Fmt) (x : Nat) : FV :=
  let mant := x % 2 ^ f.mb
  let ex := x / 2 ^ f.mb % 2 ^ f.eb
  let neg := x / 2 ^ (f.eb + f.mb) % 2 = 1
  if f.inf then
    if ex = 2 ^ f.eb - 1 then
      if mant = 0 then .inf neg
      else .nan neg (mant / 2 ^ (f.mb - 1) = 1) (mant % 2 ^ (f.mb - 1)) (f.mb - 1)
    else if ex = 0 then .num neg mant (f.emin - f.mb)
    else .num neg (2 ^ f.mb + mant) ((ex : Int) - f.bias - f.mb)
  else if ex = 2 ^ f.eb - 1 && mant = 2 ^ f.mb - 1 then .nan neg true 0 0
  else if ex = 0 then .num neg mant (f.emin - f.mb)
  else .num neg (2 ^ f.mb + mant) ((ex : Int) - f.bias - f.mb)

/-- A subnormal operand, read as a zero of its sign under DMODE (R93). -/
def Fmt.read (f : Fmt) (flush : Bool) (x : Nat) : FV :=
  match f.decode x with
  | .num neg m e => if flush && decide (m < 2 ^ f.mb) then .num neg 0 e else .num neg m e
  | v => v

/-- `m × 2^e` compared with `n × 2^g`. -/
def cmpDy (m : Nat) (e : Int) (n : Nat) (g : Int) : Ordering :=
  if g ≤ e then compare (m * 2 ^ (e - g).toNat) n else compare m (n * 2 ^ (g - e).toNat)

/-- Rounds m × 2^e (plus something below 2^e when `st`) to a multiple of 2^q, q ≥ e when `st`: the multiple and whether
it is inexact (R89). -/
def roundAt (mode : Mode) (neg : Bool) (m : Nat) (e : Int) (st : Bool) (q : Int) : Nat × Bool :=
  if q ≤ e then (m * 2 ^ (e - q).toNat, st)
  else
    let s := (q - e).toNat
    let fl := m / 2 ^ s
    let r2 := 2 * (m % 2 ^ s)
    let inex := st || r2 ≠ 0
    let tie := r2 = 2 ^ s && !st
    let above := decide (r2 > 2 ^ s) || (r2 = 2 ^ s && st)
    let up := match mode with
      | .rne => above || (tie && fl % 2 = 1)
      | .rtz => false
      | .rup => inex && !neg
      | .rdn => inex && neg
      | .rna => above || tie
    (if up then fl + 1 else fl, inex)

/-- Widens m × 2^e with enough low bits that a sticky remainder stays below every rounding point. -/
def widen (m : Nat) (e : Int) (p : Nat) : Nat × Int :=
  let k := p + 4 - min (p + 4) (bitLen m)
  (m * 2 ^ k, e - k)

/-- The result of an overflow (R91). -/
def Fmt.overflow (f : Fmt) (mode : Mode) (sat neg : Bool) : Nat :=
  let toInf := match mode with
    | .rne => true
    | .rna => true
    | .rtz => false
    | .rup => !neg
    | .rdn => neg
  if !sat && toInf then f.infBits neg else f.maxBits neg

/-- RoundF (R89 to R92): rounds ±(m × 2^e), with a sticky remainder, once to the format; `flush` is DMODE bit 0. -/
def Fmt.round (f : Fmt) (mode : Mode) (sat flush neg : Bool) (m0 : Nat) (e0 : Int) (st : Bool) : Nat × Flags :=
  if m0 = 0 && !st then (f.signBit neg, 0)
  else
    let (m, e) := if st then widen m0 e0 (f.mb + 1) else (m0, e0)
    let q := (bitLen m : Int) + e - (f.mb + 1)
    let (u, ux) := roundAt mode neg m e st q
    let (mm, me) := f.maxFin
    if cmpDy u q mm me = .gt then (f.overflow mode sat neg, flOv ||| flNx)
    else if cmpDy u q 1 f.emin = .lt then
      if flush then (f.signBit neg, flUf ||| flNx)
      else
        let (s, sx) := roundAt mode neg m e st (max q (f.emin - f.mb))
        let s := s * 2 ^ (max q (f.emin - f.mb) - (f.emin - f.mb)).toNat
        (f.signBit neg + s, if sx then flUf ||| flNx else 0)
    else
      let (u, q) := if u = 2 ^ (f.mb + 1) then (2 ^ f.mb, q + 1) else (u, q)
      (f.signBit neg + (q + f.mb + f.bias).toNat * 2 ^ f.mb + (u - 2 ^ f.mb), if ux then flNx else 0)

/-- A cause NaN's cause: a quiet NaN of F32, F64, F16 or BF16 whose payload is 1 to 4 (R96). -/
def causeOf (quiet : Bool) (pay pb : Nat) : Option Nat :=
  if quiet && decide (pb ≥ 6) && decide (1 ≤ pay) && decide (pay ≤ 4) then some pay else none

/-- A NaN delivered in a format (R95, R97): quiet, with its sign, the payload left-aligned, a cause NaN with its cause. -/
def Fmt.nanFrom (f : Fmt) (neg quiet : Bool) (pay pb : Nat) : Nat :=
  if !f.inf then f.nanBits neg
  else
    let pb' := f.mb - 1
    match causeOf quiet pay pb with
    | some c => if pb' ≥ 6 then f.nanBits neg + c else f.nanBits neg
    | none => f.nanBits neg + (if pb ≤ pb' then pay * 2 ^ (pb' - pb) else pay / 2 ^ (pb - pb'))

/-- Whether an operand is a signalling NaN. -/
def FV.snan : FV → Bool
  | .nan _ q _ _ => !q
  | _ => false

def FV.isNan : FV → Bool
  | .nan .. => true
  | _ => false

def FV.isInf : FV → Bool
  | .inf _ => true
  | _ => false

def FV.isZero : FV → Bool
  | .num _ 0 _ => true
  | _ => false

def FV.neg : FV → Bool
  | .nan n _ _ _ => n
  | .inf n => n
  | .num n _ _ => n

def FV.flip : FV → FV
  | .nan n q p b => .nan n q p b
  | .inf n => .inf (!n)
  | .num n m e => .num (!n) m e

/-- An infinite result that does not come from overflow (R91): E4M3 has none. -/
def Fmt.deliverInf (f : Fmt) (sat neg : Bool) : Nat × Flags :=
  if f.inf then (f.infBits neg, 0)
  else if sat then (f.maxBits neg, flOv ||| flNx)
  else (f.nanBits neg, flInv)

/-- Delivers an exact value in a format: RoundF for a number, R91 for an infinity, R97 for a NaN. -/
def Fmt.deliver (f : Fmt) (mode : Mode) (sat flush : Bool) : FV → Nat × Flags
  | .nan n q p b => (f.nanFrom n q p b, if q then 0 else flInv)
  | .inf n => f.deliverInf sat n
  | .num n m e => f.round mode sat flush n m e false

/-- The exact sum of two numbers, with the sign of an exact zero as R253 gives. -/
def addDy (mode : Mode) (n1 : Bool) (m1 : Nat) (e1 : Int) (n2 : Bool) (m2 : Nat) (e2 : Int) : FV :=
  let e := min e1 e2
  let a : Int := (m1 * 2 ^ (e1 - e).toNat : Nat)
  let b : Int := (m2 * 2 ^ (e2 - e).toNat : Nat)
  let s := (if n1 then -a else a) + (if n2 then -b else b)
  if s = 0 then .num (if n1 = n2 then n1 else mode = .rdn) 0 e
  else .num (decide (s < 0)) s.natAbs e

/-- The first NaN in operand order, quieted, and the invalid flag of a signalling operand (R95); none without a NaN. -/
def nanFirst (f : Fmt) (xs : List FV) : Option (Nat × Flags) :=
  let fl : Flags := if xs.any FV.snan then flInv else 0
  match xs.find? FV.isNan with
  | some (.nan n q p b) => some (f.nanFrom n q p b, fl)
  | _ => none

/-- An invalid case (R253). -/
def Fmt.invalid (f : Fmt) : Nat × Flags := (f.defNan, flInv)

/-- x + y on values that are not NaN. -/
def addV (mode : Mode) : FV → FV → Option FV
  | .inf a, .inf b => if a = b then some (.inf a) else none
  | .inf a, _ => some (.inf a)
  | _, .inf b => some (.inf b)
  | .num a m e, .num b n g => some (addDy mode a m e b n g)
  | _, _ => none

/-- x × y on values that are not NaN; none for 0 × ∞. -/
def mulV : FV → FV → Option FV
  | .inf a, y => if y.isZero then none else some (.inf (a != y.neg))
  | x, .inf b => if x.isZero then none else some (.inf (x.neg != b))
  | .num a m e, .num b n g => some (.num (a != b) (m * n) (e + g))
  | _, _ => none

/-- FADD (R253). -/
def fAdd (f : Fmt) (mode : Mode) (sat fl : Bool) (x y : FV) : Nat × Flags :=
  match nanFirst f [x, y] with
  | some r => r
  | none => match addV mode x y with
    | some v => f.deliver mode sat fl v
    | none => f.invalid

/-- FSUB: the sum x + (−y) (R253); a NaN keeps its sign. -/
def fSub (f : Fmt) (mode : Mode) (sat fl : Bool) (x y : FV) : Nat × Flags := fAdd f mode sat fl x y.flip

/-- FMUL (R253). -/
def fMul (f : Fmt) (mode : Mode) (sat fl : Bool) (x y : FV) : Nat × Flags :=
  match nanFirst f [x, y] with
  | some r => r
  | none => match mulV x y with
    | some v => f.deliver mode sat fl v
    | none => f.invalid

/-- FFMA (R253): 0 × ∞ is invalid even when z is a quiet NaN, and the result is then z. -/
def fFma (f : Fmt) (mode : Mode) (sat fl : Bool) (x y z : FV) : Nat × Flags :=
  let zi : Flags := if (x.isZero && y.isInf) || (x.isInf && y.isZero) then flInv else 0
  match nanFirst f [x, y, z] with
  | some (r, g) => (r, g ||| zi)
  | none => match mulV x y with
    | none => f.invalid
    | some p => match addV mode p z with
      | some v => f.deliver mode sat fl v
      | none => f.invalid

/-- The quotient of two positive numbers with at least p + 4 bits, and its sticky remainder. -/
def divDy (p m : Nat) (e : Int) (n : Nat) (g : Int) : Nat × Int × Bool :=
  let k := p + 5 + bitLen n - min (p + 5 + bitLen n) (bitLen m)
  (m * 2 ^ k / n, e - g - k, m * 2 ^ k % n ≠ 0)

/-- FDIV (R253, R94). -/
def fDiv (f : Fmt) (mode : Mode) (sat fl : Bool) (x y : FV) : Nat × Flags :=
  match nanFirst f [x, y] with
  | some r => r
  | none =>
    let s := x.neg != y.neg
    match x, y with
    | .inf _, .inf _ => f.invalid
    | .inf _, _ => f.deliverInf sat s
    | _, .inf _ => (f.signBit s, 0)
    | .num _ m e, .num _ n g =>
      if n = 0 then if m = 0 then f.invalid else
        let (r, h) := f.deliverInf sat s
        (r, h ||| flDz)
      else if m = 0 then (f.signBit s, 0)
      else
        let (q, qe, st) := divDy (f.mb + 1) m e n g
        f.round mode sat fl s q qe st
    | _, _ => f.invalid

/-- Integer square root by bits, from bit `k` down. -/
def isqrtGo (n : Nat) : Nat → Nat → Nat
  | 0, r => r
  | k + 1, r => isqrtGo n k (if (r + 2 ^ k) * (r + 2 ^ k) ≤ n then r + 2 ^ k else r)

def isqrt (n : Nat) : Nat := isqrtGo n (bitLen n / 2 + 1) 0

/-- Square root of m × 2^e with at least p + 4 bits. -/
def sqrtDy (p m : Nat) (e : Int) : Nat × Int × Bool :=
  let k0 := 2 * (p + 5)
  let k := if (e - k0) % 2 = 0 then k0 else k0 + 1
  let n := m * 2 ^ k
  let r := isqrt n
  (r, (e - k) / 2, r * r ≠ n)

/-- FSQRT (R253, R94): √−0 is −0. -/
def fSqrt (f : Fmt) (mode : Mode) (sat fl : Bool) (x : FV) : Nat × Flags :=
  match nanFirst f [x] with
  | some r => r
  | none => match x with
    | .inf neg => if neg then f.invalid else f.deliverInf sat false
    | .num neg m e =>
      if m = 0 then (f.signBit neg, 0)
      else if neg then f.invalid
      else
        let (r, re, st) := sqrtDy (f.mb + 1) m e
        f.round mode sat fl false r re st
    | _ => f.invalid

/-- FSCALE: x × 2^y for an integer y (R253). -/
def fScale (f : Fmt) (mode : Mode) (sat fl : Bool) (x : FV) (y : Int) : Nat × Flags :=
  match nanFirst f [x] with
  | some r => r
  | none => match x with
    | .num neg m e =>
      -- beyond ±5,000 the exponent only decides overflow or a total underflow, which the clamp keeps
      f.deliver mode sat fl (.num neg m (e + max (-5000) (min 5000 y)))
    | v => f.deliver mode sat fl v

/-- Order of two values that are not NaN; +0 equals −0. -/
def cmpV : FV → FV → Ordering
  | .inf a, .inf b => if a = b then .eq else if a then .lt else .gt
  | .inf a, _ => if a then .lt else .gt
  | _, .inf b => if b then .gt else .lt
  | .num a m e, .num b n g =>
    if m = 0 && n = 0 then .eq
    else if m = 0 then (if b then .gt else .lt)
    else if n = 0 then (if a then .lt else .gt)
    else if a && !b then .lt
    else if !a && b then .gt
    else if a then cmpDy n g m e
    else cmpDy m e n g
  | _, _ => .eq

/-- FMIN or FMAX (R254): the operand returned, as its code `bx` or `by'`, with −0 below +0. -/
def fMinMax (f : Fmt) (isMax : Bool) (fl : Bool) (x y : FV) : Nat × Flags :=
  let g : Flags := if x.snan || y.snan then flInv else 0
  let out (v : FV) : Nat := (f.deliver .rne false fl v).1
  if x.isNan && y.isNan then (out x, g)
  else if x.isNan then (out y, g)
  else if y.isNan then (out x, g)
  else
    let xLess := match cmpV x y with
      | .lt => true
      | .gt => false
      | .eq => x.neg && !y.neg
    (if xLess != isMax then out x else out y, g)

/-- Floating-point conditions of FCMP, by SUB (R252, R255). -/
def fCmp (cc : Nat) (x y : FV) : Bool × Flags :=
  let nan := x.isNan || y.isNan
  let sig : Flags := if x.snan || y.snan then flInv else 0
  let o := cmpV x y
  match cc with
  | 0 => (!nan && o = .eq, sig)
  | 1 => (nan || o ≠ .eq, sig)
  | 2 => (!nan && o = .lt, if nan then flInv else 0)
  | 3 => (!nan && o ≠ .gt, if nan then flInv else 0)
  | 4 => (!nan && o = .gt, if nan then flInv else 0)
  | 5 => (!nan && o ≠ .lt, if nan then flInv else 0)
  | 6 => (!nan, sig)
  | _ => (nan, sig)

/-- FRND (R256): to an integral value of the format; no inexact flag. -/
def fRnd (f : Fmt) (mode : Mode) (x : FV) : Nat × Flags :=
  match nanFirst f [x] with
  | some r => r
  | none => match x with
    | .num neg m e =>
      if m = 0 then (f.signBit neg, 0)
      else
        let (r, _) := roundAt mode neg m e false (max e 0)
        ((f.round .rne false false neg r (max e 0) false).1, 0)
    | v => f.deliver mode false false v

/-- FCLASS (R256), of the code itself: DMODE does not apply. -/
def fClass (f : Fmt) (x : Nat) : Nat :=
  match f.decode x with
  | .inf n => if n then 1 else 128
  | .nan _ q _ _ => if q then 512 else 256
  | .num n m _ =>
    if m = 0 then (if n then 8 else 16)
    else if m < 2 ^ f.mb then (if n then 4 else 32)
    else (if n then 2 else 64)

/-- FDOT2 (R258): c + a0 × b0 + a1 × b1 in F32, rounded once; NaNs in the order a0, a1, b0, b1, c. -/
def fDot2 (mode : Mode) (sat fl : Bool) (a0 a1 b0 b1 c : FV) : Nat × Flags :=
  match nanFirst fF32 [a0, a1, b0, b1, c] with
  | some (r, g) =>
    let zi : Flags := if (a0.isZero && b0.isInf) || (a0.isInf && b0.isZero) || (a1.isZero && b1.isInf) || (a1.isInf && b1.isZero) then flInv else 0
    (r, g ||| zi)
  | none => match mulV a0 b0, mulV a1 b1 with
    | some p, some q =>
      match addV mode p q with
      | none => fF32.invalid
      | some s => match addV mode s c with
        | none => fF32.invalid
        | some v =>
          -- an exact zero sum of three addends of one sign keeps it; otherwise R253's rule
          match v, p, q, c with
          | .num _ 0 e, .num n1 0 _, .num n2 0 _, .num n3 0 _ =>
            fF32.deliver mode sat fl (.num (if n1 = n2 && n2 = n3 then n1 else mode = .rdn) 0 e)
          | .num _ 0 e, _, _, _ => fF32.deliver mode sat fl (.num (mode = .rdn) 0 e)
          | v, _, _, _ => fF32.deliver mode sat fl v
    | _, _ => fF32.invalid

/-- Rounds an exact value to an integer under a mode (R97, float to integer). -/
def toInt (mode : Mode) (neg : Bool) (m : Nat) (e : Int) : Int × Bool :=
  let (r, x) := roundAt mode neg m e false (max e 0)
  let v : Int := (r * 2 ^ (max e 0).toNat : Nat)
  (if neg then -v else v, x)

end Sys2Proof.Machine
end

