-- ==== Sys2Proof/Machine/Formats.lean ====
section
/-!
DEFINITION. Operand types (R211, R88), the N4 family and block formats (R81 to R87), conversions (R97, R260) and block
quantisation (R98, R99).
-/
namespace Sys2Proof.Machine

/-- The types of R211. -/
inductive Ty where
  | s32 | n32 | s64 | n64 | s16 | n16 | s8 | n8 | f32 | f16 | bf16 | f64 | e4m3 | e5m2 | e2m1 | b32 | b64
  | f16x2 | bf16x2 | blk
  deriving DecidableEq, Repr

/-- The type of a code of R211; codes 0x14 to 0x1F are reserved. -/
def Ty.ofCode : Nat → Option Ty
  | 0x00 => some .s32 | 0x01 => some .n32 | 0x02 => some .s64 | 0x03 => some .n64
  | 0x04 => some .s16 | 0x05 => some .n16 | 0x06 => some .s8 | 0x07 => some .n8
  | 0x08 => some .f32 | 0x09 => some .f16 | 0x0A => some .bf16 | 0x0B => some .f64
  | 0x0C => some .e4m3 | 0x0D => some .e5m2 | 0x0E => some .e2m1 | 0x0F => some .b32
  | 0x10 => some .b64 | 0x11 => some .f16x2 | 0x12 => some .bf16x2 | 0x13 => some .blk
  | _ => none

/-- Width in bits of an operand of the type (R88). -/
def Ty.bits : Ty → Nat
  | .s64 | .n64 | .f64 | .b64 => 64
  | .s16 | .n16 | .f16 | .bf16 => 16
  | .s8 | .n8 | .e4m3 | .e5m2 => 8
  | .e2m1 => 4
  | _ => 32

/-- Bytes in memory of an element of the type. -/
def Ty.bytes (t : Ty) : Nat := (t.bits + 7) / 8

def Ty.signed : Ty → Bool
  | .s32 | .s64 | .s16 | .s8 => true
  | _ => false

def Ty.isInt : Ty → Bool
  | .s32 | .n32 | .s64 | .n64 | .s16 | .n16 | .s8 | .n8 => true
  | _ => false

/-- The element format of a floating-point type. -/
def Ty.fmt? : Ty → Option Fmt
  | .f32 => some fF32
  | .f16 => some fF16
  | .f16x2 => some fF16
  | .bf16 => some fBF16
  | .bf16x2 => some fBF16
  | .f64 => some fF64
  | .e4m3 => some fE4M3
  | .e5m2 => some fE5M2
  | _ => none

def Ty.fmt (t : Ty) : Fmt := t.fmt?.getD fF32

def Ty.packed : Ty → Bool
  | .f16x2 | .bf16x2 => true
  | _ => false

/-- The integer a w-bit code stands for. -/
def intOf (signed : Bool) (w x : Nat) : Int :=
  let v := x % 2 ^ w
  if signed && decide (v ≥ 2 ^ (w - 1)) then (v : Int) - (2 ^ w : Nat) else v

/-- The w low bits of an integer. -/
def toBits (w : Nat) (v : Int) : Nat := (v % (2 ^ w : Nat)).toNat

def Ty.minInt (t : Ty) : Int := if t.signed then -(2 ^ (t.bits - 1) : Nat) else 0
def Ty.maxInt (t : Ty) : Int := if t.signed then (2 ^ (t.bits - 1) : Nat) - 1 else (2 ^ t.bits : Nat) - 1

/-- Sat (R219). -/
def satTy (t : Ty) (v : Int) : Int := max t.minInt (min t.maxInt v)

/-! ## The four-bit sets (R83, R84, R89) -/

/-- The value of a four-bit code of an N4 TYPE: 0 uniform integer, 1 E2M1, 2 power of two, 3 hybrid (R84). -/
def n4Value (ty code : Nat) : FV :=
  let neg := decide (code ≥ 8)
  let k := code % 8
  match ty with
  | 0 => if code ≥ 8 then .num true (16 - code) 0 else .num false code 0
  | 1 => .num neg ([0, 1, 2, 3, 4, 6, 8, 12].getD k 0) (-1)
  | 2 => if k = 0 then .num neg 0 0 else .num neg 1 ((k : Int) - 4)
  | _ => .num neg ([0, 1, 2, 3, 4, 6, 8, 12].getD k 0) 0

/-- Magnitudes of a set in units of 1/8, with the magnitude beyond the last code that R91's unbounded range would
give next. -/
def n4Mags : Nat → List Nat
  | 0 => [0, 8, 16, 24, 32, 40, 48, 56, 64]
  | 2 => [0, 1, 2, 4, 8, 16, 32, 64, 128]
  | _ => [0, 8, 16, 24, 32, 48, 64, 96, 128]

/-- The index of a magnitude m × 2^e in eighths in a list from index `i`: lower neighbour and inexactness, rounded by the
mode (R89). A tie goes to the even index, whose code has bit 0 zero. -/
def n4Pick (mode : Mode) (neg : Bool) (m : Nat) (e : Int) : List Nat → Nat → Nat × Bool
  | lo :: hi :: rest, i =>
    if cmpDy m e hi (-3) ≠ .lt then n4Pick mode neg m e (hi :: rest) (i + 1)
    else if cmpDy m e lo (-3) = .eq then (i, false)
    else
      let c := cmpDy m e (lo + hi) (-4)
      let up : Bool := match mode with
        | .rne => c = .gt || (c = .eq && i % 2 = 1)
        | .rtz => false
        | .rup => !neg
        | .rdn => neg
        | .rna => c ≠ .lt
      (if up then i + 1 else i, true)
  | _, i => (i, true)

/-- E2M1 under the rules of R89 to R92: code and flags. A value beyond the largest code that rounds to it is in range (DEDUCED, log entry 72). -/
def e2m1Round (mode : Mode) (flush neg : Bool) (m : Nat) (e : Int) : Nat × Flags :=
  let s := if neg then 8 else 0
  if m = 0 then (s, 0)
  else
    let q := (bitLen m : Int) + e - 2
    let (u, ux) := roundAt mode neg m e false q
    if cmpDy u q 3 1 = .gt then (s + 7, flOv ||| flNx)
    else if cmpDy u q 1 0 = .lt then
      if flush then (s, flUf ||| flNx)
      else
        let q' := max q (-1)
        let (t, tx) := roundAt mode neg m e false q'
        (s + t * 2 ^ (q' + 1).toNat, if tx then flUf ||| flNx else 0)
    else
      let (u, q) := if u = 4 then (2, q + 1) else (u, q)
      (s + (q + 2).toNat * 2 + (u - 2), if ux then flNx else 0)

/-- A finite value rounded to a four-bit set: code and flags (R89, R97). -/
def n4Round (ty : Nat) (mode : Mode) (flush neg : Bool) (m : Nat) (e : Int) : Nat × Flags :=
  if ty = 1 then e2m1Round mode flush neg m e
  else
    let (i, nx) := n4Pick mode neg m e (n4Mags ty) 0
    let ov := decide (i ≥ 8)
    let k := min i 7
    (if ty = 0 then (if neg then (16 - k) % 16 else k) else (if neg then 8 + k else k),
      if ov then flOv ||| flNx else if nx then flNx else 0)

/-- CVT to E2M1 (R97, R94): NaN gives +0 and invalid; a value out of range gives the end of the range. -/
def cvtE2m1 (mode : Mode) (flush : Bool) : FV → Nat × Flags
  | .nan .. => (0, flInv)
  | .inf n => (if n then 15 else 7, flInv ||| flOv ||| flNx)
  | .num n m e =>
    let (c, f) := e2m1Round mode flush n m e
    (c, if f &&& flOv = 0 then f else f ||| flInv)

/-- An E2M1 code as an operand: ±0.5 is subnormal (R92, R93). -/
def readE2m1 (flush : Bool) (code : Nat) : FV :=
  match n4Value 1 (code % 16) with
  | .num n m e => if flush && decide (m = 1) then .num n 0 e else .num n m e
  | v => v

/-! ## Conversion (R97, R260) -/

/-- A numeric operand as CVT reads it: an integer is an exact number. -/
def cvtRead (src : Ty) (flush : Bool) (x : Nat) : FV :=
  match src.fmt? with
  | some f => f.read flush (x % 2 ^ f.width)
  | none =>
    if src = .e2m1 then readE2m1 flush x
    else
      let v := intOf src.signed src.bits x
      .num (decide (v < 0)) v.natAbs 0

/-- Float to integer (R97): NaN gives 0 and a value out of range the nearest end, with invalid alone (DEDUCED, log entry 72). -/
def cvtToInt (dst : Ty) (mode : Mode) : FV → Nat × Flags
  | .nan .. => (0, flInv)
  | .inf n => (toBits dst.bits (if n then dst.minInt else dst.maxInt), flInv)
  | .num n m e =>
    -- beyond 2^200 the value is out of range of every integer type
    if cmpDy m e 1 200 = .gt then (toBits dst.bits (if n then dst.minInt else dst.maxInt), flInv)
    else
      let (v, nx) := toInt mode n m e
      if v < dst.minInt || v > dst.maxInt then (toBits dst.bits (satTy dst v), flInv)
      else (toBits dst.bits v, if nx then flNx else 0)

/-- CVT (R97, R260). -/
def cvt (src dst : Ty) (mode : Mode) (sat flush : Bool) (x : Nat) : Nat × Flags :=
  if src.isInt && dst.isInt then
    let v := intOf src.signed src.bits x
    (toBits dst.bits (if sat then satTy dst v else v), 0)
  else
    let v := cvtRead src flush x
    match dst.fmt? with
    | some f => f.deliver mode sat flush v
    | none => if dst = .e2m1 then cvtE2m1 mode flush v else cvtToInt dst mode v

/-! ## Blocks (R81, R82, R85, R87) -/

/-- Bits per element of a format byte; none for RAW and reserved codes (R81). -/
def blkBits : Nat → Option Nat
  | 0x01 => some 32 | 0x02 => some 16 | 0x03 => some 16 | 0x05 => some 8 | 0x06 => some 8
  | 0x07 => some 8 | 0x08 => some 4 | 0x0A => some 32
  | _ => none

/-- Elements per block (R81). -/
def blkElems (fmt : Nat) : Nat := 512 / (blkBits fmt).getD 512

/-- The floating-point format of a format byte. -/
def blkFmt : Nat → Option Fmt
  | 0x01 => some fF32 | 0x02 => some fF16 | 0x03 => some fBF16 | 0x05 => some fE4M3 | 0x06 => some fE5M2
  | _ => none

/-- Whether LDB may read a block under this descriptor (R78, R81). -/
def descReadable (d : BitVec 16) : Bool :=
  match fld d 15 8 with
  | 0x01 | 0x02 | 0x03 | 0x05 | 0x06 | 0x08 => true
  | 0x07 | 0x0A => fld d 7 0 = 0x7F
  | _ => false

/-- x × 2^k. -/
def FV.scaleBy (k : Int) : FV → FV
  | .num n m e => .num n m (e + k)
  | v => v

/-- The N4 exponent of a scale byte (R83); none for the NaN scale. -/
def n4Exp (scale : Nat) : Option Int :=
  if scale % 64 = 32 then none else some (intOf true 6 scale)

/-- The value of an element code under a format byte and scale byte (R83 to R87), for an operand read with subnormal
codes flushed when `flush`: the code before its scale (R93; DEDUCED, log entry 72). A NaN scale gives the NaN of sign 0 without payload. -/
def elemValue (flush : Bool) (fmt scale code : Nat) : FV :=
  match blkFmt fmt with
  | some f => if scale = 0xFF then .nan false true 0 0 else (f.read flush code).scaleBy ((scale : Int) - 127)
  | none =>
    if fmt = 0x08 then
      match n4Exp scale with
      | none => .nan false true 0 0
      | some e => (if scale / 64 % 4 = 1 then readE2m1 flush code else n4Value (scale / 64 % 4) (code % 16)).scaleBy e
    else
      let v := intOf true (if fmt = 0x07 then 8 else 32) code
      .num (decide (v < 0)) v.natAbs 0

/-- Element code i of a block whose bytes `f` gives (R82). -/
def elemCode (bits i : Nat) (f : Nat → Byte) : Nat :=
  if bits = 4 then (f (i / 2)).toNat / (if i % 2 = 0 then 1 else 16) % 16
  else (List.range (bits / 8)).foldr (fun j acc => (f (i * (bits / 8) + j)).toNat + 256 * acc) 0

/-- The bytes of a block from its element codes (R82). -/
def packCodes (bits : Nat) (codes : List Nat) : List Byte :=
  (List.range 64).map fun b =>
    if bits = 4 then BitVec.ofNat 8 (codes.getD (2 * b) 0 + 16 * codes.getD (2 * b + 1) 0)
    else BitVec.ofNat 8 (codes.getD (b / (bits / 8)) 0 / 2 ^ (8 * (b % (bits / 8))))

/-! ## Block quantisation (R98, R99) -/

/-- Fmax of a target (R98): format byte and N4 TYPE. -/
def quantMax (fmt ty : Nat) : Nat × Int :=
  match blkFmt fmt with
  | some f => f.maxFin
  | none => ([7, 6, 8, 12].getD ty 0, 0)

/-- The largest finite magnitude of a list (R98). -/
def quantAmax : List FV → Nat × Int
  | [] => (0, 0)
  | x :: xs =>
    let (m, e) := quantAmax xs
    match x with
    | .num _ n g => if cmpDy n g m e = .gt then (n, g) else (m, e)
    | _ => (m, e)

/-- The scale exponent of R98. -/
def quantExp (fmt ty : Nat) (xs : List FV) : Int :=
  let (m, e) := quantAmax xs
  let (fm, fe) := quantMax fmt ty
  if m = 0 then 0
  else
    let lo : Int := if fmt = 0x08 then -31 else -127
    let n := if fmt = 0x08 then 63 else 255
    match (List.range n).find? (fun (i : Nat) => cmpDy m (e - (lo + i)) fm fe != .gt) with
    | some i => lo + i
    | none => if fmt = 0x08 then 31 else 127

/-- The scale byte (R83, R85, R98, R99). -/
def quantScale (fmt ty : Nat) (xs : List FV) : Nat :=
  if fmt = 0x08 then
    if xs.any FV.isNan then ty * 64 + 32 else ty * 64 + toBits 6 (quantExp fmt ty xs)
  else (quantExp fmt ty xs + 127).toNat

/-- One element of a quantised block: code and flags (R99). -/
def quantElem (fmt ty : Nat) (mode : Mode) (sat flush : Bool) (e : Int) (x : FV) : Nat × Flags :=
  match blkFmt fmt with
  | some f =>
    match x with
    | .nan n q _ _ => (f.nanBits n, if q then 0 else flInv)
    | .inf n => if f.inf && !sat then (f.infBits n, 0) else (f.maxBits n, flOv ||| flNx)
    | .num n m g => f.round mode true flush n m (g - e) false
  | none =>
    match x with
    | .nan .. => (0, flInv)
    | .inf n => ((n4Round ty .rtz false n (quantMax fmt ty).1 0).1, flOv ||| flNx)
    | .num n m g => n4Round ty mode flush n m (g - e)

/-- A quantised block: scale byte, element codes, flags of each element (R98, R99). In an N4 block with a NaN only the NaNs set a flag
(DEDUCED, log entry 72). -/
def quantBlock (fmt ty : Nat) (mode : Mode) (sat flush : Bool) (xs : List FV) : Nat × List (Nat × Flags) :=
  let sc := quantScale fmt ty xs
  if fmt = 0x08 && xs.any FV.isNan then (sc, xs.map fun x => (0, if x.isNan then flInv else 0))
  else
    let e := quantExp fmt ty xs
    (sc, xs.map (quantElem fmt ty mode sat flush e))

end Sys2Proof.Machine
end

