-- ==== Sys2Proof/Syntax.lean ====
section
/-!
DEFINITION. The instructions and events of the ZVX9-A0: one constructor per row of spec/opcode_table.json.

A program instruction carries `Enc`, the fields of its words (R201-R206); what a field names is fixed by the
instruction's entry (R207) and read by the operations of Machine/Operands.lean. An event of an engine, of HUB, of the
fabric, of a guest or of the host (spec/95) carries what names it: a cluster, a command, a packet, a register value.
-/
namespace Sys2Proof

/-- The four forms of an instruction, by LEN (R201). -/
inductive Form where
  | base | ext | baseLit | extLit
  deriving DecidableEq, Repr

/-- Word 2 of an extended form (R204). -/
structure Word2 where
  ga : BitVec 5
  gb : BitVec 5
  gop : Bool
  look : BitVec 4
  hint : BitVec 3
  ch : BitVec 4
  scope : BitVec 3
  ord : BitVec 2
  gse : Bool
  gs : BitVec 4
  deriving DecidableEq, Repr

/-- The fields of one instruction's words beside OP (R202 to R206). In a base form the fields the words do not hold
stand at the values of R205. -/
structure Enc where
  form : Form
  d : BitVec 8
  a : BitVec 8
  sub : BitVec 6
  b : BitVec 8
  c : BitVec 8
  e : BitVec 8
  mod : BitVec 8
  w2 : Word2
  lit : Word64
  deriving DecidableEq, Repr

/-- A pair of the fabric ingress: source accelerator, group, channel, fabric lane (R456). -/
structure PairKey where
  src : Nat
  gid : Nat
  ch : Nat
  lane : Nat
  deriving DecidableEq, Repr

/-- What a request from the fabric asks for (R448, R460); a byte a write leaves out is none. -/
inductive FabKind where
  | read (len : Nat)
  | write (data : List (Option Byte))
  | atomic (op ty : Nat) (c e : BitVec 64)
  deriving DecidableEq, Repr

/-- A request that arrives from the fabric (R455, R456): source accelerator, address, what it asks for, and the
channel tag, absent when the requester is not an X9. -/
structure FabPacket where
  src : Nat
  xaddr : Nat
  kind : FabKind
  tag : Option (BitVec 64)
  deriving DecidableEq, Repr

/-- Loss of light: a laser input, or wavelengths of a port's receive side seen by the far detector (R452). -/
inductive LightLoss where
  | laser (input : Nat)
  | lambda (port : Nat) (tx : Bool) (mask : BitVec 32)
  deriving DecidableEq, Repr

/-- A guest's CXL.cache request (R479). -/
inductive GuestAcc where
  | read (len : Nat)
  | write (data : List Byte)
  deriving DecidableEq, Repr

/-- The answer to one access of a request to another accelerator (R458, R460): its data, a refusal, or none yet. Data of an LDB holds
the element's code in its low bits and the block's descriptor in bits 127:112; of a DGET and of a copied block the descriptor there. -/
inductive FabAnswer where
  | value (v : BitVec 128)
  | refused
  | waiting
  deriving DecidableEq, Repr

/-- Where an uncorrectable error lies (R490). -/
inductive ErrPlace where
  | memory (block : Nat)
  | scratch (gid block : Nat)
  | dirtyLine (cl block : Nat)
  | register (gid : Nat)
  deriving DecidableEq, Repr

/-- The ONE inductive of instructions and events. -/
inductive Instr where
  /-- NOP (R239): Does nothing. -/
  | nop (x : Enc)
  /-- BRA (R235): Sends each thread of P to PC plus offset; the other threads of the path go on. -/
  | bra (x : Enc)
  /-- BRX (R236): Sends each thread of P to a 64-bit target read from a register. -/
  | brx (x : Enc)
  /-- CALL (R235): Writes the return address to v0:v1 and branches in each thread of P. -/
  | call (x : Enc)
  /-- RET (R236): Returns each thread of P to a register target, as BRX with a fetch hint. -/
  | ret (x : Enc)
  /-- EXIT (R237): Ends each thread of P, releases waiters and, for the group's last warp, waits for its engine commands before the task completes. -/
  | exit (x : Enc)
  /-- REFORM (R238): Files each thread of P into an ore bin under its next PC and key. -/
  | reform (x : Enc)
  /-- YIELD (R239): Switches the warp to its longest-waiting path and passes the lane on. -/
  | yield (x : Enc)
  /-- TRAP (R240): Raises TRAP with an immediate and parks the group. -/
  | trap (x : Enc)
  /-- BKPT (R240): Raises BKPT with an immediate and parks the group. -/
  | bkpt (x : Enc)
  /-- SYSCALL (R241): Sends a service request to the K runtime and stalls the warp for the answer. -/
  | syscall (x : Enc)
  /-- WSYNC (R242): Makes each thread of P wait until every named slot reaches the same WSYNC. -/
  | wsync (x : Enc)
  /-- SREAD (R243): Reads a status register into a register. -/
  | sread (x : Enc)
  /-- SWRITE (R49): Writes a writable status register within its limits. -/
  | swrite (x : Enc)
  /-- CLOCK (R244): Reads package time or the die's core-cycle count. -/
  | clock (x : Enc)
  /-- IADD (R246): Integer addition, wrapping or saturating. -/
  | iadd (x : Enc)
  /-- ISUB (R246): Integer subtraction. -/
  | isub (x : Enc)
  /-- IMUL (R246): Integer multiplication, low part. -/
  | imul (x : Enc)
  /-- IMULH (R246): Integer multiplication, high part. -/
  | imulh (x : Enc)
  /-- IMAD (R246): Integer multiply-add. -/
  | imad (x : Enc)
  /-- IMADW (R246): Widening integer multiply-add to 64 bits. -/
  | imadw (x : Enc)
  /-- IDIV (R247): Integer division toward zero with defined edge cases. -/
  | idiv (x : Enc)
  /-- IREM (R247): Integer remainder with the sign of the dividend. -/
  | irem (x : Enc)
  /-- INEG (R246): Integer negation. -/
  | ineg (x : Enc)
  /-- IABS (R246): Integer absolute value. -/
  | iabs (x : Enc)
  /-- IMIN (R246): Integer minimum. -/
  | imin (x : Enc)
  /-- IMAX (R246): Integer maximum. -/
  | imax (x : Enc)
  /-- ICMP (R248): Integer comparison into a predicate. -/
  | icmp (x : Enc)
  /-- ISEL (R248): Selects one of two values by a predicate. -/
  | isel (x : Enc)
  /-- IADDC (R248): Addition with carry in and carry out predicates. -/
  | iaddc (x : Enc)
  /-- LEA (R248): Computes a 64-bit address from a base and a shifted index. -/
  | lea (x : Enc)
  /-- AND (R250): Bitwise AND. -/
  | andI (x : Enc)
  /-- OR (R250): Bitwise OR. -/
  | orI (x : Enc)
  /-- XOR (R250): Bitwise XOR. -/
  | xorI (x : Enc)
  /-- ANDN (R250): Bitwise AND with the complement of b. -/
  | andn (x : Enc)
  /-- NOT (R250): Bitwise complement. -/
  | notI (x : Enc)
  /-- SHL (R250): Shift left. -/
  | shl (x : Enc)
  /-- SHR (R250): Logical shift right. -/
  | shr (x : Enc)
  /-- SAR (R250): Arithmetic shift right. -/
  | sar (x : Enc)
  /-- ROT (R250): Rotate left. -/
  | rot (x : Enc)
  /-- BFX (R251): Extracts a bit field, unsigned or signed. -/
  | bfx (x : Enc)
  /-- BFI (R251): Inserts a bit field. -/
  | bfi (x : Enc)
  /-- POPC (R250): Counts the one bits. -/
  | popc (x : Enc)
  /-- CLZ (R250): Counts leading zero bits. -/
  | clz (x : Enc)
  /-- CTZ (R250): Counts trailing zero bits. -/
  | ctz (x : Enc)
  /-- BREV (R250): Reverses the bit order. -/
  | brev (x : Enc)
  /-- MOV (R250): Copies b to d. -/
  | mov (x : Enc)
  /-- FADD (R253): Floating-point addition, rounded once. -/
  | fadd (x : Enc)
  /-- FSUB (R253): Floating-point subtraction. -/
  | fsub (x : Enc)
  /-- FMUL (R253): Floating-point multiplication. -/
  | fmul (x : Enc)
  /-- FFMA (R253): Fused multiply-add, rounded once. -/
  | ffma (x : Enc)
  /-- FMIN (R254): Floating-point minimum. -/
  | fmin (x : Enc)
  /-- FMAX (R254): Floating-point maximum. -/
  | fmax (x : Enc)
  /-- FABS (R256): Clears the sign bit. -/
  | fabs (x : Enc)
  /-- FNEG (R256): Inverts the sign bit. -/
  | fneg (x : Enc)
  /-- FCMP (R255): Floating-point comparison into a predicate. -/
  | fcmp (x : Enc)
  /-- FRND (R256): Rounds to an integral value of the same format. -/
  | frnd (x : Enc)
  /-- FCLASS (R256): Classifies a floating-point value. -/
  | fclass (x : Enc)
  /-- FDIV (R253): Floating-point division. -/
  | fdiv (x : Enc)
  /-- FSQRT (R253): Floating-point square root. -/
  | fsqrt (x : Enc)
  /-- FRCP (R257): Reciprocal, rounded once under RNE. -/
  | frcp (x : Enc)
  /-- FRSQ (R257): Reciprocal square root. -/
  | frsq (x : Enc)
  /-- FEXP2 (R257): Base-2 exponential. -/
  | fexp2 (x : Enc)
  /-- FLOG2 (R257): Base-2 logarithm. -/
  | flog2 (x : Enc)
  /-- FSIN (R257): Sine in radians. -/
  | fsin (x : Enc)
  /-- FCOS (R257): Cosine in radians. -/
  | fcos (x : Enc)
  /-- FTANH (R257): Hyperbolic tangent. -/
  | ftanh (x : Enc)
  /-- FSIGM (R257): Logistic sigmoid. -/
  | fsigm (x : Enc)
  /-- FDOT2 (R258): Two-element dot product added to F32, rounded once. -/
  | fdot2 (x : Enc)
  /-- FSCALE (R253): Multiplies by a power of two. -/
  | fscale (x : Enc)
  /-- CVT (R260): Converts between numeric types. -/
  | cvt (x : Enc)
  /-- QPACK (R261): Quantises warp values into whole 64-byte blocks with descriptors. -/
  | qpack (x : Enc)
  /-- QUNPK (R262): Decodes an element code under a scale byte. -/
  | qunpk (x : Enc)
  /-- QSCALE (R263): Computes the descriptor that QPACK would choose. -/
  | qscale (x : Enc)
  /-- SHFL (R265): Each thread reads a value from its partner slot. -/
  | shfl (x : Enc)
  /-- PUSHX (R265): Each thread sends its value to its partner slot. -/
  | pushx (x : Enc)
  /-- REDX (R266): Reduces the values of P in a fixed tree. -/
  | redx (x : Enc)
  /-- SCANX (R266): Inclusive or exclusive scan over P in a fixed tree. -/
  | scanx (x : Enc)
  /-- BALLOT (R267): Gathers a predicate of P into a mask. -/
  | ballot (x : Enc)
  /-- VOTE (R267): Computes a vote over a predicate of P. -/
  | vote (x : Enc)
  /-- MATCH (R267): Finds the slots of P holding equal values. -/
  | matchI (x : Enc)
  /-- PSET (R268): Sets a predicate from a non-zero test. -/
  | pset (x : Enc)
  /-- PLOP (R268): Combines two predicates by a truth table. -/
  | plop (x : Enc)
  /-- PMOV_GET (R268): Copies p14-p0 into a vector register. -/
  | pmovGet (x : Enc)
  /-- PMOV_PUT (R268): Sets p0-p14 from a register. -/
  | pmovPut (x : Enc)
  /-- LD (R276): Loads from global memory. -/
  | ld (x : Enc)
  /-- LDW (R276): Wide 8- or 16-byte load from global memory. -/
  | ldw (x : Enc)
  /-- LDS (R276): Loads from scratch. -/
  | lds (x : Enc)
  /-- LDK (R276): Loads from the launch constant block. -/
  | ldk (x : Enc)
  /-- ST (R277): Stores to global memory or scratch-typed address as a channel operation. -/
  | st (x : Enc)
  /-- STW (R277): Wide store to global memory. -/
  | stw (x : Enc)
  /-- STS (R277): Stores to scratch. -/
  | sts (x : Enc)
  /-- STM (R278): Multicasts a store to the scratch of masked gang members. -/
  | stm (x : Enc)
  /-- ATOM (R280): Atomic read-modify-write on global memory. -/
  | atom (x : Enc)
  /-- ATOMS (R281): Atomic read-modify-write on scratch. -/
  | atoms (x : Enc)
  /-- ATOMP (R282): Scratch bit test-and-set, test-and-clear or compare-and-swap into a predicate. -/
  | atomp (x : Enc)
  /-- LR (R283): Loads and sets the thread's reservation on the block. -/
  | lr (x : Enc)
  /-- SC (R283): Stores only if the thread still holds its reservation. -/
  | sc (x : Enc)
  /-- PREF (R287): Prefetches a line into L1 or L2. -/
  | pref (x : Enc)
  /-- CFLUSH (R288): Writes back masked bytes of a line and optionally invalidates it. -/
  | cflush (x : Enc)
  /-- CINV_LINE (R289): Invalidates one unclaimed L1 line. -/
  | cinvLine (x : Enc)
  /-- CINV_ALL (R289): Invalidates every unclaimed L1 line of the core. -/
  | cinvAll (x : Enc)
  /-- DGET (R290): Reads a block's descriptor. -/
  | dget (x : Enc)
  /-- DSET (R291): Writes a block's descriptor without changing its data. -/
  | dset (x : Enc)
  /-- LDB (R292): Loads and decodes one element of a formatted block. -/
  | ldb (x : Enc)
  /-- FENCE (R294): Orders the thread's accesses at a scope. -/
  | fence (x : Enc)
  /-- CHJOIN (R123): Orders later operations on one channel after earlier ones on another. -/
  | chjoin (x : Enc)
  /-- CHDRAIN (R123): Stalls until the group's earlier operations on a channel are acknowledged. -/
  | chdrain (x : Enc)
  /-- CHSTAT (R296): Snapshots the group's state of one channel. -/
  | chstat (x : Enc)
  /-- BAR (R298): Arrives at the group barrier and waits for its completion. -/
  | bar (x : Enc)
  /-- GBAR (R298): Arrives at the gang barrier and waits for its completion. -/
  | gbar (x : Enc)
  /-- TBINIT (R299): Initialises a transaction barrier. -/
  | tbinit (x : Enc)
  /-- TBEXP (R299): Adds expected bytes to a transaction barrier. -/
  | tbexp (x : Enc)
  /-- TBARV (R300): Arrives at a transaction barrier, returning its phase. -/
  | tbarv (x : Enc)
  /-- TBWAIT (R300): Waits until a transaction barrier's phase changes. -/
  | tbwait (x : Enc)
  /-- RSTAT (R301): Reads and clears the thread's RFAIL bit. -/
  | rstat (x : Enc)
  /-- RSTAT_PEEK (R301): Reads RFAIL without clearing it. -/
  | rstatPeek (x : Enc)
  /-- TMAKE (R303): Creates a tile handle from a region record. -/
  | tmake (x : Enc)
  /-- TFREE (R159): Frees a handle, dropping its claims and re-forming fragments. -/
  | tfree (x : Enc)
  /-- TCLAIM_RD (R146): Takes a read claim with a lease on every fragment of a handle. -/
  | tclaimRd (x : Enc)
  /-- TCLAIM_WR (R149): Takes a write claim on every fragment of a handle. -/
  | tclaimWr (x : Enc)
  /-- TDROP (R304): Drops this cluster's claims on a handle's fragments. -/
  | tdrop (x : Enc)
  /-- TSPLIT (R306): Creates a handle over a sub-box of a handle. -/
  | tsplit (x : Enc)
  /-- TINFO (R307): Returns a view of a handle from the directory. -/
  | tinfo (x : Enc)
  /-- WSET (R310): Sets a watchpoint over a handle and stalls until it is in force. -/
  | wset (x : Enc)
  /-- WCLR (R311): Clears a watchpoint. -/
  | wclr (x : Enc)
  /-- WSTAT (R311): Reads a watchpoint's state. -/
  | wstat (x : Enc)
  /-- CPY (R322): Posts a box copy between global memory and scratch. -/
  | cpy (x : Enc)
  /-- CPYL (R323): Posts a linear copy. -/
  | cpyl (x : Enc)
  /-- CPYM (R326): Posts a global-to-scratch copy that may bind to the next MMA. -/
  | cpym (x : Enc)
  /-- GSLOT_T (R327): Sets a guard slot true, releasing held commands. -/
  | gslotT (x : Enc)
  /-- GSLOT_F (R327): Sets a guard slot false, discarding held commands. -/
  | gslotF (x : Enc)
  /-- GSLOT_U (R327): Sets a guard slot unresolved. -/
  | gslotU (x : Enc)
  /-- GSLOT_P (R327): Sets a guard slot from the leader's predicate. -/
  | gslotP (x : Enc)
  /-- MMA (R330): Posts a matrix pass into a ring slot. -/
  | mma (x : Enc)
  /-- ARING_OPEN (R331): Moves a FREE slot to FILLING. -/
  | aringOpen (x : Enc)
  /-- ARING_SEAL (R331): Seals a FILLING slot, at once or after its last pass. -/
  | aringSeal (x : Enc)
  /-- ARING_DROP (R331): Returns a slot to FREE, losing its contents. -/
  | aringDrop (x : Enc)
  /-- EPI (R332): Posts an epilogue that drains the tail slot to memory. -/
  | epi (x : Enc)
  /-- APEEK (R336): Reads four accumulator cells per thread. -/
  | apeek (x : Enc)
  /-- APATCH (R336): Writes four accumulator cells per thread. -/
  | apatch (x : Enc)
  /-- MSTAT_SLOT (R339): Snapshots the state of one ring slot. -/
  | mstatSlot (x : Enc)
  /-- MSTAT_TAB (R339): Snapshots the reservation table. -/
  | mstatTab (x : Enc)
  /-- TENQ (R341): Enqueues task records at their seams, all or none. -/
  | tenq (x : Enc)
  /-- TDONE (R342): Completes the task early. -/
  | tdone (x : Enc)
  /-- GPOST (R344): Sends a queue packet to a guest site. -/
  | gpost (x : Enc)
  /-- EVPOST (R345): Posts an event record to the cluster's foreman. -/
  | evpost (x : Enc)
  /-- EVREAD (R346): Foreman removes the oldest event record, waiting if empty. -/
  | evread (x : Enc)
  /-- EVREAD_NB (R346): Foreman removes the oldest event record, or returns zeros. -/
  | evreadNb (x : Enc)
  /-- TREL (R347): Foreman releases HELD records with a tag. -/
  | trel (x : Enc)
  /-- AINV_ALL (R192): Purges all assay entries of the context. -/
  | ainvAll (x : Enc)
  /-- AINV_MEAS (R192): Purges assay entries of one measurement. -/
  | ainvMeas (x : Enc)
  /-- GRESUME (R349): Resumes a parked group from its frame. -/
  | gresume (x : Enc)
  /-- GKILL (R199): Ends a parked group. -/
  | gkill (x : Enc)
  /-- PRDS (R373): Reads a system register. -/
  | prds (x : Enc)
  /-- PWRS (R373): Writes a system register without a row of its own. -/
  | pwrs (x : Enc)
  /-- PWRS_KSVCRD (R375): Advances the service ring read index, freeing entries. -/
  | pwrsKsvcrd (x : Enc)
  /-- PWRS_KSVCARM (R377): Arms the service task, enqueuing it at once if entries wait. -/
  | pwrsKsvcarm (x : Enc)
  /-- CTXCREATE (R381): Creates a context from a descriptor image. -/
  | ctxcreate (x : Enc)
  /-- CTXUPDATE (R381): Updates a context's mutable fields and retries held frames. -/
  | ctxupdate (x : Enc)
  /-- CTXREAD (R381): Returns a context descriptor image. -/
  | ctxread (x : Enc)
  /-- CTXDESTROY (R381): Destroys an idle context and its handles, watches, entries and key. -/
  | ctxdestroy (x : Enc)
  /-- PARTCREATE (R383): Creates a halted partition and its K context. -/
  | partcreate (x : Enc)
  /-- PARTUPDATE (R383): Updates a partition's service task, spill size or clusters. -/
  | partupdate (x : Enc)
  /-- PARTREAD (R383): Returns a partition descriptor image. -/
  | partread (x : Enc)
  /-- PARTDESTROY (R383): Destroys an empty partition and erases its regions. -/
  | partdestroy (x : Enc)
  /-- IRET (R378): Answers a SYSCALL named by a ring entry. -/
  | iret (x : Enc)
  /-- PARK (R386): Parks another group of the partition without delivering a fault. -/
  | park (x : Enc)
  /-- UNPARK_R (R387): Resumes a parked group or foreman as GRESUME. -/
  | unparkR (x : Enc)
  /-- UNPARK_K (R387): Ends a parked group as GKILL. -/
  | unparkK (x : Enc)
  /-- VSAVE (R390): Saves a halted partition to the vaults. -/
  | vsave (x : Enc)
  /-- VLOAD (R390): Restores a partition from the vaults, halted. -/
  | vload (x : Enc)
  /-- TLBLS_VA (R391): Drops every translation of one page of a context. -/
  | tlblsVa (x : Enc)
  /-- TLBLS_CTX (R391): Drops every translation of a context. -/
  | tlblsCtx (x : Enc)
  /-- TLBLS_ALL (R391): Drops every translation of the module. -/
  | tlblsAll (x : Enc)
  /-- HALT_S (R389): Stops a partition's cores and waits for work in progress. -/
  | haltS (x : Enc)
  /-- HALT_C (R389): Restarts a halted partition. -/
  | haltC (x : Enc)
  /-- PMCFG_CTR (R505): Configures a counter and zeroes it. -/
  | pmcfgCtr (x : Enc)
  /-- PMCFG_SMP (R510): Starts or stops the sampling unit. -/
  | pmcfgSmp (x : Enc)
  /-- PMRD (R392): Reads a counter. -/
  | pmrd (x : Enc)
  /-- PMRD_CLR (R392): Reads and zeroes a counter in one step. -/
  | pmrdClr (x : Enc)
  /-- MEMORY_RESPONSE (R209): A long-latency instruction's result arrives and writes its destination. -/
  | memoryResponse (n : Nat) (data : List FabAnswer)
  /-- FAIRNESS_SWITCH (R22): The fairness timer reaches 4,096 and forces a path switch. -/
  | fairnessSwitch (gid wid : Nat)
  /-- LANE_IDLE_CYCLE (R409): A lane with no eligible warp idles and makes every non-empty bin ready. -/
  | laneIdleCycle (core lane : Nat)
  /-- BIN_READY (R29): A bin becomes ready 2,048 cycles after its first filing. -/
  | binReady (core bin : Nat)
  /-- BIN_DRAW (R30): A group with a free warp slot draws a warp from a ready bin. -/
  | binDraw (gid : Nat)
  /-- RESERVATION_TIMEOUT (R284): An LR reservation is lost 4,096 cycles after the LR. -/
  | reservationTimeout (gid tid : Nat)
  /-- SELFTICK (R144): A cluster's pts advances by 1 every SELFTICK core cycles. -/
  | selftick (cl : Nat)
  /-- PTS_LAG_ADVANCE (R154): HUB advances a cluster or guest whose pts lags by 2^21 or more. -/
  | ptsLagAdvance (who : Nat)
  /-- FRAGMENT_REBASE (R155): The directory rebases a fragment whose rts lags Pmin by 2^22. -/
  | fragmentRebase (f : Nat)
  /-- WRITEBACK_DONE (R149): The holder's dirty bytes reach the home and the waiting request is granted. -/
  | writebackDone (f : Nat)
  /-- COPY_START (R166): The copy engine starts the earliest eligible posted command. -/
  | copyStart (cl : Nat)
  /-- COPY_BLOCK (R166): A copy performs one 64-byte destination block, with its checks and barrier credit. -/
  | copyBlock (cl id : Nat)
  /-- COPY_END (R167): A copy ends and writes its status word. -/
  | copyEnd (cl id : Nat)
  /-- MMA_ENTRY_ENTER (R173): A bound MMA enters the table once its CPYM's last block has landed. -/
  | mmaEntryEnter (cl id : Nat)
  /-- MMA_GRANT (R174): The arbiter grants the eligible entry of highest effective priority. -/
  | mmaGrant (cl : Nat)
  /-- MMA_PASS_COMPLETE (R172): A pass completes, frees its entry and may make a sealing slot READY. -/
  | mmaPassComplete (cl : Nat)
  /-- EPI_TAKE_SLOT (R333): A queued EPI takes its group's tail slot and makes its checks. -/
  | epiTakeSlot (cl : Nat)
  /-- EPI_DRAIN_COMPLETE (R176): The last epilogue store is performed and the slot becomes FREE. -/
  | epiDrainComplete (cl : Nat)
  /-- RING_PARITY_ERROR (R177): A parity error marks a ring slot poisoned. -/
  | ringParityError (cl slot : Nat)
  /-- TASK_COMPLETE (R37): A task completes and decrements its join cell, enqueueing any successor. -/
  | taskComplete (gid : Nat)
  /-- WAITING_ENQUEUE_ENTER (R182): A device enqueue waiting at HUB enters its seam once a place frees. -/
  | waitingEnqueueEnter (part : Nat)
  /-- AGING_PROMOTION (R402): A record that has waited AGING ticks moves up one level. -/
  | agingPromotion (seam id : Nat)
  /-- PLACEMENT_PASS (R405): The scheduler places or reserves for the head tasks of a die's seams. -/
  | placementPass (die part : Nat)
  /-- STEP_START (R400): A launch's next step starts and its die set is fixed. -/
  | stepStart (launch : Nat)
  /-- WATCHDOG_HANG (R408): A group's watchdog count reaches WDOG and it parks with HANG. -/
  | watchdogHang (gid : Nat)
  /-- FAULT_PARK (R194): A fault parks the whole group. -/
  | faultPark (gid : Nat)
  /-- PARK_FRAME_WRITE (R432): The park frame is written once a run of the park area fits, and the fault is delivered. -/
  | parkFrameWrite (gid : Nat)
  /-- SERVICE_ENTRY_WRITE (R377): A service entry is written into the ring when room exists, and the service task may be enqueued. -/
  | serviceEntryWrite (part : Nat)
  /-- FOREMAN_FAULT (R435): A faulting foreman stops and its record is written. -/
  | foremanFault (cl : Nat)
  /-- PACKET_ARRIVAL (R125): A channel packet arrives at a destination port and is performed, held, NACKed or discarded. -/
  | packetArrival (id : Nat)
  /-- PACKET_ACK (R125): An acknowledgement returns to the source and frees retention and pair entries. -/
  | packetAck (id : Nat)
  /-- PACKET_NACK (R125): A NACK makes the source retransmit from its retention buffer. -/
  | packetNack (id : Nat)
  /-- PLANE_RELEASE_DELIVER (R125): A hub plane delivers a held release once the other planes report their counts. -/
  | planeReleaseDeliver (id : Nat)
  /-- FABRIC_INGRESS_ARRIVAL (R456): A tagged fabric packet arrives at the ingress and is sequenced. -/
  | fabricIngressArrival (p : FabPacket)
  /-- PAIR_FREE (R456): A pair-free message makes the destination drop the pair's state. -/
  | pairFree (k : PairKey)
  /-- INGRESS_PAIR_EXPIRE (R456): An idle remote pair entry is dropped after 2^41 ticks. -/
  | ingressPairExpire (k : PairKey)
  /-- CHSYNC (R457): A pair is resynchronised after a replay, port loss or resync NACK. -/
  | chsync (gid ch accel lane : Nat)
  /-- SYNC (R457): A SYNC arrives at the destination and is answered with E. -/
  | sync (k : PairKey) (run low : Nat)
  /-- SYNC_REPLY (R457): The source acknowledges packets below E and resends the rest. -/
  | syncReply (gid ch accel lane expected : Nat)
  /-- REMOTE_TIMEOUT (R461): A fabric request passes RTIMEOUT and fails. -/
  | remoteTimeout (id : Nat)
  /-- WAVELENGTH_LOSS (R452): Loss of light on a wavelength or laser input is detected. -/
  | wavelengthLoss (loss : LightLoss)
  /-- STRIPE_MARKER (R452): The transmitter sends a stripe marker naming the new active list. -/
  | stripeMarker (port : Nat) (tx : Bool)
  /-- LASER_RESTORED (R452): A laser input keeps light for 1,000,000 ticks and its wavelengths rejoin. -/
  | laserRestored (input : Nat)
  /-- FLIT_REPLAY (R453): A CRC or tag failure or restripe replays unacknowledged flits. -/
  | flitReplay (port : Nat)
  /-- FLIT_ACK (R453): The far data link acknowledges flits, freeing the replay buffer. -/
  | flitAck (port n : Nat)
  /-- REPLAY_TIMEOUT (R453): A replay that cannot start within 10,000 ticks takes the direction down. -/
  | replayTimeout (port : Nat) (tx : Bool)
  /-- PORT_DOWN (R454): A port goes down and its replay buffer is abandoned. -/
  | portDown (port : Nat)
  /-- PORT_UP (R454): A port comes back up when both directions are striped and keyed. -/
  | portUp (port : Nat)
  /-- REKEY_START (R462): The invocation counter reaches 2^48 - 2^40 and a rekey starts. -/
  | rekeyStart (port : Nat)
  /-- REKEY_STOP (R462): A direction reaching 2^48 - 2^32 without a new key stops. -/
  | rekeyStop (port : Nat)
  /-- HEVBASE (R465): A host write sets the event ring and resets its indices, or is ignored. -/
  | hevbase (v : BitVec 64)
  /-- LADDR (R394): A host doorbell write enqueues a launch record. -/
  | laddr (part : Nat) (v : BitVec 64)
  /-- LAUNCH_ACCEPT (R396): The head of a partition's launch queue is checked and accepted. -/
  | launchAccept (part : Nat)
  /-- LAUNCH_END (R397): A launch ends and its completion cell is written. -/
  | launchEnd (launch : Nat)
  /-- HOST_DATA_WRITE (R130): A host write through the data aperture, setting RAW descriptors. -/
  | hostDataWrite (pa : Nat) (data : List Byte)
  /-- HOST_DATA_READ (R130): A host read through the data aperture. -/
  | hostDataRead (pa n : Nat)
  /-- HOST_DESCRIPTOR_WRITE (R79): A host write through BAR4 changes only descriptors. -/
  | hostDescriptorWrite (off : Nat) (data : List Byte)
  /-- MIGRATE (R421): Starts moving a page to a new physical address. -/
  | migrate (size : Nat) (src dst : BitVec 48)
  /-- MIGRATE_CHUNK (R421): One 64 KiB chunk is blocked, copied and replayed, then forwarded. -/
  | migrateChunk
  /-- RETIRE (R423): Ends forwarding of a migrated page. -/
  | retire (size : Nat) (src : BitVec 48)
  /-- REGION (R425): Rewrites a region entry by mirror and switch. -/
  | region (region : Nat) (entry : BitVec 16)
  /-- REGION_SWITCH (R425): HUB switches every die to the new generation once mirroring is complete. -/
  | regionSwitch
  /-- GENERATION_NACK (R426): A request of the old generation reaching an old home is NACKed and resent. -/
  | generationNack (id : Nat)
  /-- KEYID (R493): A host write changing a region's key starts its erase. -/
  | keyid (region : Nat) (v : BitVec 16)
  /-- REGION_ERASE_DONE (R493): A region's erase ends, BUSY clears and waiting accesses proceed. -/
  | regionEraseDone (region : Nat)
  /-- LOADDB (R497): Submits a load request that verifies, relocates and tags code segments. -/
  | loaddb (addr : BitVec 64)
  /-- RECGO (R500): Verifies the recovery image and writes it to flash. -/
  | recgo (image : List Byte)
  /-- RESET (R487): Resets and retrains a fenced Swephor site. -/
  | resetI (site : Nat)
  /-- SITE_RESET_HOLD_END (R487): After 10,000 ticks in reset the guest is released to training. -/
  | siteResetHoldEnd (site : Nat)
  /-- SITE_TRAINING_DONE (R487): The guest completes training and the site returns to up or stays fenced. -/
  | siteTrainingDone (site : Nat) (ident : BitVec 64)
  /-- SITE_TRAINING_TIMEOUT (R487): Training not done within 100,000,000 ticks returns the site to fenced. -/
  | siteTrainingTimeout (site : Nat)
  /-- REGISTER_WRITE (R5): A host write to a register that has no row of its own. -/
  | registerWrite (off : Nat) (data : List Byte)
  /-- GUEST_REQUEST (R479): A guest CXL.cache request is checked against grants and watches and performed. -/
  | guestRequest (site ctx : Nat) (pa : Nat) (acc : GuestAcc)
  /-- COMPLETE (R477): A guest COMPLETE ends the matching command with CODE 0. -/
  | complete (site : Nat) (pkt : BitVec 512)
  /-- ERROR (R477): A guest ERROR ends the matching command with CODE 6. -/
  | errorI (site : Nat) (pkt : BitVec 512)
  /-- GUEST_FAULT (R477): A guest fault packet ends or suspends the command and parks the group. -/
  | guestFault (site : Nat) (pkt : BitVec 512)
  /-- SAVED (R485): The guest reports a pre-empted command saved with a token. -/
  | saved (site : Nat) (pkt : BitVec 512)
  /-- DISCARDED (R485): The guest reports a pre-empted command discarded. -/
  | discarded (site : Nat) (pkt : BitVec 512)
  /-- XLATE_REQ (R484): The device walks for the guest and answers with a grant. -/
  | xlateReq (site : Nat) (pkt : BitVec 512)
  /-- INV_ACK (R484): The guest acknowledges an invalidation, removing grants. -/
  | invAck (site : Nat) (pkt : BitVec 512)
  /-- CLAIM_REQ (R482): A guest claim request is handled by the directory. -/
  | claimReq (site : Nat) (pkt : BitVec 512)
  /-- RECALL_DONE (R482): The guest reports a recalled claim dropped. -/
  | recallDone (site : Nat) (pkt : BitVec 512)
  /-- GUEST_DEADLINE (R486): A guest misses an INV_ACK, RECALL_DONE or PREEMPT deadline and the site is fenced. -/
  | guestDeadline (site : Nat)
  /-- GRANT_EXPIRE (R480): A grant-filter entry leaves at its expiry. -/
  | grantExpire (site : Nat)
  /-- PLANE_LINK_SILENT (R436): No valid flit for 10,000 ticks on all plane links of a die. -/
  | planeLinkSilent (die : Nat)
  /-- DIE_FAULT (R436): A die reports an uncorrectable control fault or trips power or thermal. -/
  | dieFault (die : Nat)
  /-- UNCORRECTABLE_ERROR (R490): An uncorrectable ECC error poisons a block or ends a group. -/
  | uncorrectableError (place : ErrPlace)
  /-- PATROL_SCRUB (R490): Patrol reads and corrects stack blocks within each 2^46 ticks. -/
  | patrolScrub (die n : Nat)
  /-- MGMT_CORE_FAULT (R501): A management-core fault resets that core. -/
  | mgmtCoreFault
  /-- DEVICE_RESET (R502): Power-on or host reset runs bring-up to READY. -/
  | deviceReset
  /-- POWER_THROTTLE (R504): Measured draw near the limit lowers core clocks die by die. -/
  | powerThrottle (die period : Nat)
  /-- SAMPLE_POINT (R512): The sampling unit takes or drops one sample every PERIOD cycles. -/
  | samplePoint (cl : Nat)
  /-- WRITE_CLAIM_HOLD_EXPIRY (R153): 256 cycles after a write claim is granted with no access under it, a waiting recall may proceed. -/
  | writeClaimHoldExpiry (f : Nat)
  /-- KEY_INSTALL (R462): M firmware installs a new link key over SPDM, taking a port direction out of rekey or stopped state. -/
  | keyInstall (port : Nat)
  /-- ATOMIC_RESULT_ACK (R458): The source's acknowledgement of a remote atomic's response reaches the destination, which frees the kept result. -/
  | atomicResultAck (k : PairKey) (seq : Nat)
  /-- PROTOCOL_ERROR (R475): A guest packet with an unlisted control opcode, a work opcode, non-zero reserved bytes or an unknown CTX is discarded and counted in PROTERR. -/
  | protocolError (site : Nat) (pkt : BitVec 512)
  /-- VENDOR_DEFINED_REQUEST (R498): An SPDM VENDOR_DEFINED_REQUEST with a CTXID and nonce returns a signed copy of the attestation record. -/
  | vendorDefinedRequest (ctx : Nat) (nonce : BitVec 256)
  /-- CLUSTER_FAILURE (R3): A cluster that fails in service is fenced, and its counters and sampling unit are disabled and zeroed. -/
  | clusterFailure (cl : Nat)
  deriving DecidableEq, Repr

end Sys2Proof
end

