-- ==== Sys2Proof/Machine/Entry.lean ====
section
/-!
DEFINITION. The entry of each opcode (forms, SUB, types, MOD, operand classes, word 2, literal) and the checks of R216 that
depend on an instruction's words alone. Orders 2 and 3 (mode and agent) and the part of order 7 that needs the warp's
register counts (R46) are made at issue (Machine/Ops.lean), from the same entries.
-/
namespace Sys2Proof
open Machine (Ty)

/-- Word 2 of a base form (R205): guards `pt`, AND, LOOK 0, HINT 0, ch0, GROUP, RLX, no guard slot. -/
def Word2.base : Word2 := ⟨15, 15, false, 0, 0, 0, 1, 0, false, 0⟩

def Form.hasLit : Form → Bool
  | .baseLit | .extLit => true
  | _ => false

def Form.isBase : Form → Bool
  | .base | .baseLit => true
  | _ => false

/-- Words of a form (R201). -/
def Form.words : Form → Nat
  | .base => 1
  | .ext => 3
  | .baseLit => 3
  | .extLit => 5

/-! ## The opcode map (R214, R215) -/

/-- Whether R214 assigns the opcode. -/
def opAssigned (op : Nat) : Bool :=
  decide (op ≤ 0x0E) || decide (0x10 ≤ op ∧ op ≤ 0x46) || decide (0x50 ≤ op ∧ op ≤ 0x53) ||
  decide (0x58 ≤ op ∧ op ≤ 0x5E) || decide (0x60 ≤ op ∧ op ≤ 0x62) || decide (0x70 ≤ op ∧ op ≤ 0x82) ||
  decide (0x90 ≤ op ∧ op ≤ 0x9A) || decide (0xA0 ≤ op ∧ op ≤ 0xA5) || decide (0xA8 ≤ op ∧ op ≤ 0xAA) ||
  decide (0xB0 ≤ op ∧ op ≤ 0xB3) || decide (0xC0 ≤ op ∧ op ≤ 0xC5) || decide (0xD0 ≤ op ∧ op ≤ 0xD8) ||
  decide (0xE0 ≤ op ∧ op ≤ 0xEA)

/-- Privileged opcodes (R215). -/
def opPriv (op : Nat) : Bool := decide (0xE0 ≤ op ∧ op ≤ 0xEA)

/-- Foreman-only opcodes (R215). -/
def opForemanOnly (op : Nat) : Bool := op == 0xD4 || op == 0xD5

/-- The foreman's set (R215). -/
def opForeman (op : Nat) : Bool :=
  decide (op ≤ 0x05) || decide (0x07 ≤ op ∧ op ≤ 0x0A) || decide (0x0C ≤ op ∧ op ≤ 0x0E) ||
  decide (0x10 ≤ op ∧ op ≤ 0x2F) || decide (0x60 ≤ op ∧ op ≤ 0x62) || op == 0x70 || op == 0x74 || op == 0x78 ||
  decide (0x90 ≤ op ∧ op ≤ 0x93) || op == 0xD0 || decide (0xD3 ≤ op ∧ op ≤ 0xD5)

/-- Opcodes and forms that raise PRIV in K mode (R371). -/
def opMOnly (op sub : Nat) : Bool := op == 0xE5 || op == 0xE6 || op == 0xE8 || (op == 0xE7 && sub == 2)

/-- BRA and CALL, whose offset fields are no operands (R213). -/
def opBranch (op : Nat) : Bool := op == 0x01 || op == 0x03

/-- Instructions with a memory operand in A and B (R212). -/
def opMemOff (op : Nat) : Bool :=
  decide (0x70 ≤ op ∧ op ≤ 0x82) || op == 0xA0 || op == 0xD0 || op == 0x51

/-! ## Order 4: forms -/

/-- The forms an entry allows (R234, R245, R249, R252, R259, R264, R268, R274, R279, R286, R293, R297, R302, R308, R321
to R348, R373 to R392). -/
def formOk (op sub : Nat) (f : Form) : Bool :=
  match op with
  -- base and extended, each with or without a literal
  | 0x01 | 0x02 | 0x03 | 0x0D | 0x10 | 0x11 | 0x12 | 0x13 | 0x16 | 0x17 | 0x1A | 0x1B | 0x20 | 0x21 | 0x22 | 0x23
  | 0x25 | 0x26 | 0x27 | 0x28 | 0x2F | 0x30 | 0x31 | 0x32 | 0x34 | 0x35 | 0x3B | 0x46 | 0x70 | 0x71 | 0x72 | 0x73
  | 0x74 | 0x75 | 0x76 | 0x7B | 0x7D | 0x7E | 0x80 | 0x81 | 0xA0 | 0xD0 => true
  | 0x7F => sub == 0 || f == .ext
  -- extended, with or without a literal
  | 0x14 | 0x15 | 0x1C | 0x1D | 0x1E | 0x1F | 0x29 | 0x2A | 0x33 | 0x38 | 0x45 | 0x51 | 0x52 | 0x77 | 0x78 | 0x79 | 0x7A
  | 0x7C | 0x82 | 0xE2 | 0xE5 | 0xE6 | 0xE9 => f == .ext || f == .extLit
  | 0x58 | 0x59 => f == .ext || (f == .extLit && decide (sub < 5))
  | 0xA2 => f == .ext || (f == .extLit && sub == 0)
  | 0xE7 => f == .ext || (f == .extLit && sub == 0)
  -- extended or base with literal
  | 0x0B | 0x96 | 0x97 | 0xA8 | 0xE1 => f != .base
  -- extended only
  | 0x0A | 0x50 | 0x53 | 0x5A | 0x5B | 0x5D | 0x5E | 0x61 | 0x62 | 0x90 | 0xA4 | 0xB0 | 0xB1 | 0xB2 | 0xC0 | 0xC2 | 0xC3
  | 0xC4 | 0xD2 | 0xEA => f == .ext
  -- base or extended, no literal
  | _ => f == .base || f == .ext

/-! ## Order 5: SUB -/

/-- The format codes of R259: SUB of QUNPK, and without 0x07 and 0x0A those of QPACK, QSCALE and EPI. -/
def quantCode (s : Nat) : Bool := [0x01, 0x02, 0x03, 0x05, 0x06, 0x08, 0x18, 0x28, 0x38].contains s

/-- The sub-operations an entry defines. -/
def subOk (op sub : Nat) : Bool :=
  match op with
  | 0x1C => decide (sub ≤ 5)
  | 0x29 => decide (sub ≤ 1)
  | 0x38 => decide (sub ≤ 7)
  | 0x50 => decide (sub ≤ 0x0E)
  | 0x51 | 0x53 => quantCode sub
  | 0x52 => quantCode sub || sub == 0x07 || sub == 0x0A
  | 0x58 | 0x59 => decide (sub ≤ 7) && sub != 4
  | 0x5A => decide (sub ≤ 5)
  | 0x5B => decide (sub ≤ 5) || decide (8 ≤ sub ∧ sub ≤ 13)
  | 0x5D => decide (sub ≤ 4)
  | 0x5E | 0x62 => decide (sub ≤ 1)
  | 0x61 => decide (sub ≤ 15)
  | 0x71 | 0x75 => decide (sub ≤ 1)
  | 0x72 | 0x76 | 0x77 => decide (sub ≤ 2)
  | 0x78 | 0x79 => decide (sub ≤ 9) || decide (32 ≤ sub ∧ sub ≤ 41)
  | 0x7A => decide (sub ≤ 2)
  | 0x7D | 0x7E | 0x7F | 0x80 | 0x81 | 0x82 => decide (sub ≤ 1)
  | 0x9A => decide (sub ≤ 1)
  | 0xA2 => decide (sub ≤ 1)
  | 0xA5 => decide (sub ≤ 5)
  | 0xB0 | 0xB1 => decide (sub ≤ 7)
  | 0xB2 => sub == 0 || sub == 4
  | 0xB3 => decide (sub ≤ 3)
  | 0xC0 => sub % 8 != 7 && sub / 8 != 7
  | 0xC1 => decide (sub ≤ 2)
  | 0xC2 => decide (sub ≤ 7)
  | 0xC3 | 0xC4 | 0xC5 => decide (sub ≤ 1)
  | 0xD2 | 0xD4 | 0xD6 => decide (sub ≤ 1)
  | 0xE4 | 0xE8 | 0xE9 | 0xEA => decide (sub ≤ 1)
  | 0xE7 => decide (sub ≤ 2)
  | _ => sub == 0

/-! ## Order 6: MOD -/

def intTys : List Ty := [.s32, .n32, .s64, .n64, .s16, .n16]
def int4 : List Ty := [.s32, .n32, .s64, .n64]
def fpTys : List Ty := [.f32, .f16, .bf16, .f64, .f16x2, .bf16x2]
def fp4 : List Ty := [.f32, .f16, .bf16, .f64]
def bitTys : List Ty := [.b32, .b64]
def ldTys : List Ty :=
  [.b32, .s8, .n8, .s16, .n16, .f16, .bf16, .s32, .n32, .f32, .f16x2, .bf16x2, .b64, .s64, .n64, .f64]
def cvtTys : List Ty :=
  [.s32, .n32, .s64, .n64, .s16, .n16, .s8, .n8, .f32, .f16, .bf16, .f64, .e4m3, .e5m2, .e2m1]

/-- Types of an atomic op (R280). -/
def atomTys (o : Nat) : List Ty :=
  match o with
  | 0 => int4 ++ [.f32, .f64, .f16x2, .bf16x2]
  | 1 | 2 => int4 ++ [.f32, .f64]
  | 8 | 9 => [.n32, .n64]
  | _ => bitTys

/-- The types an entry accepts in MOD[4:0], the base MOD's first; empty where it has none (R211). -/
def opTys (op sub : Nat) : List Ty :=
  match op with
  | 0x10 | 0x11 | 0x12 | 0x14 | 0x1A | 0x1B | 0x1C => intTys
  | 0x13 | 0x16 | 0x17 => int4
  | 0x15 | 0x1F => [.s32, .n32]
  | 0x18 | 0x19 => [.s32, .s64, .s16]
  | 0x1D => bitTys
  | 0x1E => [.n32, .n64]
  | 0x20 | 0x21 | 0x22 | 0x23 | 0x24 | 0x25 | 0x26 | 0x27 | 0x28 | 0x29 | 0x2A | 0x2B | 0x2C | 0x2D | 0x2E | 0x2F => bitTys
  | 0x30 | 0x31 | 0x32 | 0x33 | 0x34 | 0x35 | 0x36 | 0x37 => fpTys
  | 0x38 | 0x39 | 0x3A | 0x3B | 0x3C | 0x46 => fp4
  | 0x3D | 0x3E | 0x3F | 0x40 | 0x41 | 0x42 | 0x43 | 0x44 => [.f32, .f16, .bf16]
  | 0x45 => [.f16x2, .bf16x2]
  | 0x50 => cvtTys
  | 0x51 | 0x53 => [.blk]
  | 0x52 => [.f32, .f16, .bf16]
  | 0x58 | 0x59 | 0x5E | 0x60 => bitTys
  | 0x5A | 0x5B => if sub % 8 ≤ 2 then int4 ++ fp4 else bitTys
  | 0x70 | 0x73 | 0x74 => ldTys
  | 0x71 | 0x75 => [.b32]
  | 0x72 | 0x76 | 0x77 => if sub = 0 then ldTys else [.b32]
  | 0x78 | 0x79 => atomTys (sub % 32)
  | 0x7A | 0x7B | 0x7C => bitTys
  | 0x82 => fp4
  | 0xC2 => [.f32, .f16, .bf16, .e4m3, .e5m2, .blk]
  | _ => []

/-- The base MOD (R205): the default type with MOD[7:5] = 000. -/
def baseMod (op : Nat) : BitVec 8 :=
  match op with
  | 0x20 | 0x21 | 0x22 | 0x23 | 0x24 | 0x25 | 0x26 | 0x27 | 0x28 | 0x2B | 0x2C | 0x2D | 0x2E | 0x2F | 0x60 => 0x0F
  | 0x30 | 0x31 | 0x32 | 0x34 | 0x35 | 0x36 | 0x37 | 0x39 | 0x3A | 0x3B | 0x3C | 0x3D | 0x3E | 0x3F | 0x40 | 0x41
  | 0x42 | 0x43 | 0x44 | 0x46 => 0x08
  | 0x70 | 0x71 | 0x72 | 0x73 | 0x74 | 0x75 | 0x76 | 0x7B => 0x0F
  | _ => 0x00

/-- MOD[7:5] that an entry accepts (R90, R245, R252, R259, R266, R332). -/
def modHiOk (op sub : Nat) (ty : Ty) (hi : Nat) : Bool :=
  match op with
  | 0x10 | 0x11 | 0x12 | 0x14 | 0x16 | 0x18 | 0x19 => hi == 0 || hi == 6
  | 0x30 | 0x31 | 0x32 | 0x33 | 0x3B | 0x3C | 0x45 | 0x46 | 0x50 | 0x51 | 0x52 | 0x82 | 0xC2 => true
  | 0x39 => decide (hi ≤ 5)
  | 0x5A | 0x5B => hi == 0 || (sub % 8 == 0 && (!ty.isInt || hi == 6))
  | _ => hi == 0

/-- Order 6: MOD[4:0] and MOD[7:5], or MOD as CPY, CPYL, CPYM (R321) and MMA (R328) lay it out. -/
def modOk (op sub : Nat) (mod : BitVec 8) : Bool :=
  match op with
  | 0xB0 | 0xB1 | 0xB2 => bit mod 6 || fld mod 5 0 == 0
  | 0xC0 => fld mod 7 6 == 0 && (bit mod 2 == (sub % 8 == 0)) && (bit mod 3 == (sub / 8 == 0))
  | _ =>
    if (opTys op sub).isEmpty then mod == 0
    else match Ty.ofCode (fld mod 4 0) with
      | some t => (opTys op sub).contains t && modHiOk op sub t (fld mod 7 5)
      | none => false

/-! ## Order 7: operand fields -/

/-- The class of an operand field (R207). `regs n` are n vector registers or one uniform register, `even n` the same
from an even vector register (a pair), `wide` LDW's four vector registers or an even uniform pair, `vec n` vector
registers only, `vpair` an even vector pair, `uni n` n uniform registers (n = 2: from an even one), `lim n` a predicate,
guard slot, barrier, watchpoint, designator or channel below n. -/
inductive Cls where
  | unused
  | imm
  | regs (n : Nat)
  | even
  | wide
  | vec (n : Nat)
  | vpair
  | uni (n : Nat)
  | lim (n : Nat)
  deriving DecidableEq, Repr

/-- A register operand of a type's width. -/
def Cls.ofBits (bits : Nat) : Cls := if bits = 64 then .even else .regs 1

def Enc.ty (x : Enc) : Ty := (Ty.ofCode (fld x.mod 4 0)).getD .b32
def Enc.bits (x : Enc) : Nat := x.ty.bits
def Enc.cls (x : Enc) : Cls := Cls.ofBits x.bits
def Enc.subN (x : Enc) : Nat := x.sub.toNat

/-- Data registers of a load or store (R275): SUB 0 typed, `.x2`, `.x4`. -/
def dataCls (x : Enc) (wide : Nat) : Cls := if wide = 2 then .regs 2 else if wide = 4 then .wide else x.cls

/-- Elements of LDW, STW (SUB 0 `.x4`, 1 `.x2`) and of LDS, STS, STM (SUB 1 `.x2`, 2 `.x4`), R274; 1 when typed. -/
def wideOf (op sub : Nat) : Nat :=
  match op with
  | 0x71 | 0x75 => if sub = 0 then 4 else 2
  | 0x72 | 0x76 | 0x77 => if sub = 0 then 1 else 2 * sub
  | _ => 1

/-- The classes of D, A, B, C, E of an instruction whose earlier checks passed. B of a literal form is checked as R206
says, and B of a base form's memory operand is an offset (R212). -/
def fieldCls (op : Nat) (x : Enc) : Cls × Cls × Cls × Cls × Cls :=
  let s := x.subN
  let c := x.cls
  let pr := Cls.lim 16
  let b1 : Cls := if x.form.hasLit then .imm else .regs 1
  let bc : Cls := if x.form.hasLit then .imm else c
  let bu : Cls := if x.form.hasLit then .imm else .uni 1
  let off : Cls := if x.form = .ext then .regs 1 else .imm
  let u := Cls.uni 1
  match op with
  | 0x01 | 0x03 =>
    match x.form with
    | .base => (.imm, .imm, .imm, .unused, .unused)
    | .ext => (.unused, .unused, .imm, .imm, .imm)
    | .baseLit => (.unused, .unused, .imm, .unused, .unused)
    | .extLit => (.unused, .unused, .unused, .unused, .unused)
  | 0x02 => (.unused, .even, if x.form.hasLit then .imm else .unused, .unused, .unused)
  | 0x04 => (.unused, .even, .unused, .unused, .unused)
  | 0x06 => (.imm, .regs 1, .unused, .unused, .unused)
  | 0x08 | 0x09 => (.imm, .unused, .unused, .unused, .unused)
  | 0x0A => (u, u, .unused, .imm, .unused)
  | 0x0B => (.unused, .unused, bu, .unused, .unused)
  | 0x0C => (if x.a == 0x07 || x.a == 0x0A then .even else .regs 1, .imm, .unused, .unused, .unused)
  | 0x0D => (.imm, .unused, if x.d == 0x12 then b1 else bu, .unused, .unused)
  | 0x0E => (u, .imm, .unused, .unused, .unused)
  | 0x10 | 0x11 | 0x12 | 0x13 | 0x16 | 0x17 | 0x1A | 0x1B | 0x20 | 0x21 | 0x22 | 0x23 | 0x30 | 0x31 | 0x32 | 0x34 | 0x35
  | 0x3B => (c, c, bc, .unused, .unused)
  | 0x14 | 0x33 => (c, c, bc, c, .unused)
  | 0x15 => (.even, .regs 1, b1, .even, .unused)
  | 0x18 | 0x19 | 0x24 | 0x2E | 0x36 | 0x37 | 0x39 | 0x3C | 0x3D | 0x3E | 0x3F | 0x40 | 0x41 | 0x42 | 0x43 | 0x44 =>
    (c, c, .unused, .unused, .unused)
  | 0x1C | 0x38 => (pr, c, bc, .unused, .unused)
  | 0x1D => (c, c, bc, pr, .unused)
  | 0x1E => (c, c, bc, pr, pr)
  | 0x1F => (.even, .even, b1, .imm, .unused)
  | 0x25 | 0x26 | 0x27 | 0x28 | 0x46 => (c, c, b1, .unused, .unused)
  | 0x29 => (c, c, b1, .regs 1, .unused)
  | 0x2A => (c, c, bc, .regs 1, .regs 1)
  | 0x2B | 0x2C | 0x2D | 0x3A => (.regs 1, c, .unused, .unused, .unused)
  | 0x2F => (c, .unused, bc, .unused, .unused)
  | 0x45 => (.regs 1, .regs 1, b1, .regs 1, .unused)
  | 0x50 => (c, Cls.ofBits ((Ty.ofCode s).getD .b32).bits, .unused, .unused, .unused)
  | 0x51 => (.vec (if x.c == 2 || x.c == 4 || x.c == 8 then x.c.toNat else 1), .even, off, .imm, .unused)
  | 0x52 => (.regs 1, .regs 1, b1, .unused, .unused)
  | 0x53 => (u, .regs 1, .unused, .unused, .unused)
  | 0x58 | 0x59 =>
    let v : Cls := if x.bits = 64 then .vpair else .vec 1
    if s ≥ 5 then (v, v, .unused, .lim 8, .unused) else (v, v, b1, .unused, .unused)
  | 0x5A => (c, c, .unused, .unused, .unused)
  | 0x5B => (if x.bits = 64 then .vpair else .vec 1, c, .unused, .unused, .unused)
  | 0x5C => (u, pr, .unused, .unused, .unused)
  | 0x5D => (pr, pr, .unused, .unused, .unused)
  | 0x5E => (.vec 1, c, .unused, .unused, .unused)
  | 0x60 => (pr, c, .unused, .unused, .unused)
  | 0x61 => (pr, pr, pr, .unused, .unused)
  | 0x62 => if s = 0 then (.vec 1, .unused, .unused, .unused, .unused) else (.unused, .regs 1, .unused, .unused, .unused)
  | 0x70 | 0x74 => (c, .even, off, .unused, .unused)
  | 0x71 | 0x75 => (dataCls x (wideOf op s), .even, off, .unused, .unused)
  | 0x72 | 0x76 => (dataCls x (wideOf op s), .regs 1, off, .unused, .unused)
  | 0x73 => (c, .regs 1, off, .unused, .unused)
  | 0x77 => (dataCls x (wideOf op s), .regs 1, off, u, .unused)
  | 0x78 | 0x79 =>
    (if s ≥ 32 then .unused else c, if op = 0x78 then .even else .regs 1, off, c, if s % 32 = 7 then c else .unused)
  | 0x7A => (pr, .regs 1, off, if s = 2 then c else .regs 1, if s = 2 then c else .unused)
  | 0x7B => (c, .even, off, .unused, .unused)
  | 0x7C => (pr, .even, off, c, .unused)
  | 0x7D | 0x7E => (.unused, .even, off, .unused, .unused)
  | 0x7F => if s = 1 then (.unused, .unused, .unused, .unused, .unused) else (.unused, .even, off, .unused, .unused)
  | 0x80 | 0x81 => (.regs 1, if s = 1 then .regs 1 else .even, off, .unused, .unused)
  | 0x82 => (c, if s = 1 then .regs 1 else .even, off, .regs 1, .unused)
  | 0x91 => (.lim 16, .unused, .unused, .unused, .unused)
  | 0x93 => (u, .unused, .unused, .unused, .unused)
  | 0x96 | 0x97 => (.lim 64, .unused, bu, .unused, .unused)
  | 0x98 => (pr, .lim 64, .unused, .unused, .unused)
  | 0x99 => (.lim 64, pr, .unused, .unused, .unused)
  | 0x9A => (pr, .unused, .unused, .unused, .unused)
  | 0xA0 => (u, u, if x.form = .ext then u else .imm, .unused, .unused)
  | 0xA1 | 0xA3 => (.unused, u, .unused, .unused, .unused)
  | 0xA2 => (u, u, if s = 0 then bu else .unused, .unused, .unused)
  | 0xA4 => (u, u, u, .unused, .unused)
  | 0xA5 => (u, u, .unused, .unused, .unused)
  | 0xA8 => (.lim 8, u, bu, .unused, .unused)
  | 0xA9 => (.lim 8, .unused, .unused, .unused, .unused)
  | 0xAA => (u, .lim 8, .unused, .unused, .unused)
  | 0xB0 | 0xB2 => (u, u, u, u, u)
  | 0xB1 => (u, u, u, u, .unused)
  | 0xB3 => (.lim 16, if s = 3 then pr else .unused, .unused, .unused, .unused)
  | 0xC0 =>
    let n := 64 * (fld x.mod 1 0 + 1)
    (.lim 16, if bit x.mod 2 then u else .vec n, if bit x.mod 3 then u else .vec n,
      if bit x.mod 2 then u else .unused, if bit x.mod 3 then u else .unused)
  | 0xC1 => (.lim 16, .unused, .unused, .unused, .unused)
  | 0xC2 => (u, u, u, u, if x.ty = .blk then .imm else .unused)
  | 0xC3 | 0xC4 => (.vec 4, .lim 16, .vec 1, .unused, if s = 1 then u else .unused)
  | 0xC5 => (u, if s = 0 then .lim 16 else .unused, .unused, .unused, .unused)
  | 0xD0 => (.unused, .even, if x.form = .ext then u else .imm, .unused, .unused)
  | 0xD2 => (u, u, .unused, .unused, .unused)
  | 0xD3 => (.unused, u, .unused, .unused, .unused)
  | 0xD4 => (.uni 2, .unused, .unused, .unused, .unused)
  | 0xD5 | 0xD7 | 0xD8 => (u, u, .unused, .unused, .unused)
  | 0xD6 => (.unused, if s = 1 then u else .unused, .unused, .unused, .unused)
  | 0xE0 => (u, .imm, .unused, .unused, .unused)
  | 0xE1 => (.imm, .unused, bu, .unused, .unused)
  | 0xE2 | 0xE5 | 0xE6 => (u, u, bu, .unused, .unused)
  | 0xE3 | 0xE4 => (u, u, .unused, .unused, .unused)
  | 0xE7 => (.unused, if s = 2 then .unused else u, if s = 0 then bu else .unused, .unused, .unused)
  | 0xE8 => (.unused, u, .unused, .unused, .unused)
  | 0xE9 => (.imm, u, bu, .unused, .unused)
  | 0xEA => (u, u, .unused, .imm, .unused)
  | _ => (.unused, .unused, .unused, .unused, .unused)

/-- A field within its class (R207); the evenness of R46 included. -/
def Cls.ok (k : Cls) (v : BitVec 8) : Bool :=
  let n := v.toNat
  match k with
  | .unused => n == 0
  | .imm => true
  | .regs _ => true
  | .even => decide (n ≥ 0xC0) || n % 2 == 0
  | .wide => decide (n < 0xC0) || n % 2 == 0
  | .vec _ => decide (n < 0xC0)
  | .vpair => decide (n < 0xC0) && n % 2 == 0
  | .uni m => decide (n ≥ 0xC0) && (m == 1 || n % 2 == 0)
  | .lim m => decide (n < m)

/-- A field that names a vector register. -/
def Cls.isVec (k : Cls) (v : BitVec 8) : Bool :=
  match k with
  | .regs _ | .even | .wide | .vec _ | .vpair => decide (v.toNat < 0xC0)
  | _ => false

/-- A field that names a register exists in a warp of `vregs` and `sregs` registers (R46). -/
def Cls.exists? (k : Cls) (v : BitVec 8) (vregs sregs : Nat) : Bool :=
  let n := v.toNat
  let span (nv nu : Nat) : Bool := if n < 0xC0 then decide (n + nv ≤ vregs) else decide (n - 0xC0 + nu ≤ sregs)
  match k with
  | .regs m => span m 1
  | .even => span 2 1
  | .wide => span 4 2
  | .vec m => span m 1
  | .vpair => span 2 1
  | .uni m => span 1 m
  | _ => true

def fieldList (op : Nat) (x : Enc) : List (Cls × BitVec 8) :=
  let (d, a, b, c, e) := fieldCls op x
  [(d, x.d), (a, x.a), (b, x.b), (c, x.c), (e, x.e)]

/-- Instructions whose vector sources a uniform D does not exclude (R230). -/
def gathers (op : Nat) : Bool := op == 0x5A || op == 0x5C || op == 0x53

/-- Whether D is a destination, for the class rule of R230. Stores read D; DSET and APATCH too. -/
def dIsDest (op : Nat) : Bool :=
  !(decide (0x74 ≤ op ∧ op ≤ 0x77) || op == 0x81 || op == 0xC4)

/-- An s-class instruction reads uniform registers only (R230, R269). -/
def sClassOk (op : Nat) (x : Enc) : Bool :=
  let (d, a, b, c, e) := fieldCls op x
  let uniD := match d with
    | .regs _ | .even | .wide | .uni _ => decide (x.d.toNat ≥ 0xC0)
    | _ => false
  !(uniD && dIsDest op && !gathers op) ||
    !(a.isVec x.a || b.isVec x.b || c.isVec x.c || e.isVec x.e)

def operandsOk (op : Nat) (x : Enc) : Bool :=
  (fieldList op x).all (fun p => p.1.ok p.2) && sClassOk op x

/-! ## Orders 8 to 13: word 2 and the literal -/

/-- Stores and atomics, on which RO is illegal (R74). -/
def opStore (op : Nat) : Bool :=
  op == 0x51 || decide (0x74 ≤ op ∧ op ≤ 0x7A) || op == 0x7C || op == 0x81

/-- HINT (R74, R76, R286, R302, R316). -/
def hintOk (op hint : Nat) : Bool :=
  hint == 0 || match op with
  | 0xB0 | 0xB1 | 0xB2 | 0xC2 => hint == 2 || hint == 5
  | _ => decide (hint ≤ 5) && (op == 0x51 || decide (0x70 ≤ op ∧ op ≤ 0x7D) || decide (0x80 ≤ op ∧ op ≤ 0x82)) &&
      !(hint == 1 && opStore op)

/-- Entries that give SCOPE a meaning (R107, R210). -/
def opScope (op : Nat) : Bool :=
  op == 0x51 || (decide (0x70 ≤ op ∧ op ≤ 0x7C) && op != 0x73) || decide (0x80 ≤ op ∧ op ≤ 0x82) || op == 0x90 ||
  decide (0xB0 ≤ op ∧ op ≤ 0xB2) || op == 0xC0 || op == 0xC2 || op == 0xD2

def scopeOk (op scope : Nat) : Bool := decide (scope ≤ 5) && (opScope op || scope == 1)

/-- ORD (R108). -/
def ordOk (op ord : Nat) : Bool :=
  match op with
  | 0x70 | 0x71 | 0x72 | 0x7B | 0x80 | 0x82 => decide (ord ≤ 1)
  | 0x74 | 0x75 | 0x76 | 0x77 | 0x7C => ord == 0 || ord == 2
  | 0x78 | 0x79 | 0x7A => true
  | 0x90 => decide (1 ≤ ord)
  | 0xB0 | 0xB1 | 0xB2 | 0xC0 | 0xC2 | 0xD2 => true
  | _ => ord == 0

/-- CH (R119, R286, R316, R324). -/
def chOk (op sub ch : Nat) : Bool :=
  ch == 0 || match op with
  | 0x51 | 0x70 | 0x71 | 0x74 | 0x75 | 0x78 | 0x7B | 0x7C | 0x7D | 0x7E | 0x7F | 0x91 | 0x92 | 0x93 | 0xC2 | 0xD2 => true
  | 0x80 | 0x81 | 0x82 => sub == 0
  | 0xB0 => sub % 4 == 1 || sub % 4 == 2
  | 0xB1 => sub % 4 == 0 || sub % 4 == 2
  | _ => false

/-- Engine commands that may carry a guard slot (R210). -/
def opGse (op : Nat) : Bool :=
  op == 0xB0 || op == 0xB1 || op == 0xB2 || op == 0xC0 || op == 0xC2 || op == 0xD2

def gseOk (op : Nat) (gse : Bool) (gs : Nat) : Bool := if gse then opGse op else gs == 0

/-- An immediate read as a type: an integer type's bits above the width are zero or its top bit; other types' are zero
(R206). -/
def immOk (t : Ty) (l : Word64) : Bool :=
  let hi := l.toNat / 2 ^ t.bits
  t.bits == 64 || hi == 0 || (t.isInt && hi == 2 ^ (64 - t.bits) - 1 && bit l (t.bits - 1))

/-- The type a literal B is read as; none for offsets and 64-bit values. -/
def litTy (op : Nat) (x : Enc) : Option Ty :=
  match op with
  | 0x46 => some .s32
  | 0x58 | 0x59 => some .n32
  | 0x52 => some .b32
  | _ => if opMemOff op || (opTys op x.subN).isEmpty then none else some x.ty

/-- Order 13 (R206). -/
def litOk (op : Nat) (x : Enc) : Bool :=
  !x.form.hasLit ||
    (x.b == 0 && (if opBranch op then fld x.lit 1 0 == 0 else match litTy op x with
      | some t => immOk t x.lit
      | none => true))

/-- The first check of R216 that the words alone fail, with orders 2 and 3 left out; 0 when all pass. -/
def checkWords (op : Nat) (x : Enc) : Nat :=
  let s := x.subN
  if !opAssigned op then 1
  else if !formOk op s x.form then 4
  else if !subOk op s then 5
  else if !modOk op s x.mod then 6
  else if !operandsOk op x then 7
  else if !hintOk op x.w2.hint.toNat then 8
  else if !scopeOk op x.w2.scope.toNat then 9
  else if !ordOk op x.w2.ord.toNat then 10
  else if !chOk op s x.w2.ch.toNat then 11
  else if !gseOk op x.w2.gse x.w2.gs.toNat then 12
  else if !litOk op x then 13
  else 0

/-- Order 7 as far as the agent decides it: register existence (R46), and on a foreman or the management core uniform
registers only (R215, R370). -/
def regsOk (op : Nat) (x : Enc) (vregs sregs : Nat) (uniform : Bool) : Bool :=
  (fieldList op x).all fun p => p.1.exists? p.2 vregs sregs && !(uniform && p.1.isVec p.2)

/-- Fields the words of the form do not hold stand at the values of R205. -/
def Enc.canon (op : Nat) (x : Enc) : Bool :=
  (x.form.hasLit || x.lit == 0) &&
  (!x.form.isBase || (x.sub == 0 && decide (x.b.toNat < 64) && x.c == 0 && x.e == 0 && x.mod == baseMod op &&
    x.w2 == Word2.base))

/-! ## Constructors and opcodes -/

/-- OP and the fields of a program instruction; none for an event. CTXCREATE to PARTDESTROY are PWRS of SYSCMD (R379). -/
def Instr.parts : Instr → Option (BitVec 8 × Enc)
  | .nop x => some (0x00, x)
  | .bra x => some (0x01, x)
  | .brx x => some (0x02, x)
  | .call x => some (0x03, x)
  | .ret x => some (0x04, x)
  | .exit x => some (0x05, x)
  | .reform x => some (0x06, x)
  | .yield x => some (0x07, x)
  | .trap x => some (0x08, x)
  | .bkpt x => some (0x09, x)
  | .syscall x => some (0x0A, x)
  | .wsync x => some (0x0B, x)
  | .sread x => some (0x0C, x)
  | .swrite x => some (0x0D, x)
  | .clock x => some (0x0E, x)
  | .iadd x => some (0x10, x)
  | .isub x => some (0x11, x)
  | .imul x => some (0x12, x)
  | .imulh x => some (0x13, x)
  | .imad x => some (0x14, x)
  | .imadw x => some (0x15, x)
  | .idiv x => some (0x16, x)
  | .irem x => some (0x17, x)
  | .ineg x => some (0x18, x)
  | .iabs x => some (0x19, x)
  | .imin x => some (0x1A, x)
  | .imax x => some (0x1B, x)
  | .icmp x => some (0x1C, x)
  | .isel x => some (0x1D, x)
  | .iaddc x => some (0x1E, x)
  | .lea x => some (0x1F, x)
  | .andI x => some (0x20, x)
  | .orI x => some (0x21, x)
  | .xorI x => some (0x22, x)
  | .andn x => some (0x23, x)
  | .notI x => some (0x24, x)
  | .shl x => some (0x25, x)
  | .shr x => some (0x26, x)
  | .sar x => some (0x27, x)
  | .rot x => some (0x28, x)
  | .bfx x => some (0x29, x)
  | .bfi x => some (0x2A, x)
  | .popc x => some (0x2B, x)
  | .clz x => some (0x2C, x)
  | .ctz x => some (0x2D, x)
  | .brev x => some (0x2E, x)
  | .mov x => some (0x2F, x)
  | .fadd x => some (0x30, x)
  | .fsub x => some (0x31, x)
  | .fmul x => some (0x32, x)
  | .ffma x => some (0x33, x)
  | .fmin x => some (0x34, x)
  | .fmax x => some (0x35, x)
  | .fabs x => some (0x36, x)
  | .fneg x => some (0x37, x)
  | .fcmp x => some (0x38, x)
  | .frnd x => some (0x39, x)
  | .fclass x => some (0x3A, x)
  | .fdiv x => some (0x3B, x)
  | .fsqrt x => some (0x3C, x)
  | .frcp x => some (0x3D, x)
  | .frsq x => some (0x3E, x)
  | .fexp2 x => some (0x3F, x)
  | .flog2 x => some (0x40, x)
  | .fsin x => some (0x41, x)
  | .fcos x => some (0x42, x)
  | .ftanh x => some (0x43, x)
  | .fsigm x => some (0x44, x)
  | .fdot2 x => some (0x45, x)
  | .fscale x => some (0x46, x)
  | .cvt x => some (0x50, x)
  | .qpack x => some (0x51, x)
  | .qunpk x => some (0x52, x)
  | .qscale x => some (0x53, x)
  | .shfl x => some (0x58, x)
  | .pushx x => some (0x59, x)
  | .redx x => some (0x5A, x)
  | .scanx x => some (0x5B, x)
  | .ballot x => some (0x5C, x)
  | .vote x => some (0x5D, x)
  | .matchI x => some (0x5E, x)
  | .pset x => some (0x60, x)
  | .plop x => some (0x61, x)
  | .pmovGet x => some (0x62, x)
  | .pmovPut x => some (0x62, x)
  | .ld x => some (0x70, x)
  | .ldw x => some (0x71, x)
  | .lds x => some (0x72, x)
  | .ldk x => some (0x73, x)
  | .st x => some (0x74, x)
  | .stw x => some (0x75, x)
  | .sts x => some (0x76, x)
  | .stm x => some (0x77, x)
  | .atom x => some (0x78, x)
  | .atoms x => some (0x79, x)
  | .atomp x => some (0x7A, x)
  | .lr x => some (0x7B, x)
  | .sc x => some (0x7C, x)
  | .pref x => some (0x7D, x)
  | .cflush x => some (0x7E, x)
  | .cinvLine x => some (0x7F, x)
  | .cinvAll x => some (0x7F, x)
  | .dget x => some (0x80, x)
  | .dset x => some (0x81, x)
  | .ldb x => some (0x82, x)
  | .fence x => some (0x90, x)
  | .chjoin x => some (0x91, x)
  | .chdrain x => some (0x92, x)
  | .chstat x => some (0x93, x)
  | .bar x => some (0x94, x)
  | .gbar x => some (0x95, x)
  | .tbinit x => some (0x96, x)
  | .tbexp x => some (0x97, x)
  | .tbarv x => some (0x98, x)
  | .tbwait x => some (0x99, x)
  | .rstat x => some (0x9A, x)
  | .rstatPeek x => some (0x9A, x)
  | .tmake x => some (0xA0, x)
  | .tfree x => some (0xA1, x)
  | .tclaimRd x => some (0xA2, x)
  | .tclaimWr x => some (0xA2, x)
  | .tdrop x => some (0xA3, x)
  | .tsplit x => some (0xA4, x)
  | .tinfo x => some (0xA5, x)
  | .wset x => some (0xA8, x)
  | .wclr x => some (0xA9, x)
  | .wstat x => some (0xAA, x)
  | .cpy x => some (0xB0, x)
  | .cpyl x => some (0xB1, x)
  | .cpym x => some (0xB2, x)
  | .gslotT x => some (0xB3, x)
  | .gslotF x => some (0xB3, x)
  | .gslotU x => some (0xB3, x)
  | .gslotP x => some (0xB3, x)
  | .mma x => some (0xC0, x)
  | .aringOpen x => some (0xC1, x)
  | .aringSeal x => some (0xC1, x)
  | .aringDrop x => some (0xC1, x)
  | .epi x => some (0xC2, x)
  | .apeek x => some (0xC3, x)
  | .apatch x => some (0xC4, x)
  | .mstatSlot x => some (0xC5, x)
  | .mstatTab x => some (0xC5, x)
  | .tenq x => some (0xD0, x)
  | .tdone x => some (0xD1, x)
  | .gpost x => some (0xD2, x)
  | .evpost x => some (0xD3, x)
  | .evread x => some (0xD4, x)
  | .evreadNb x => some (0xD4, x)
  | .trel x => some (0xD5, x)
  | .ainvAll x => some (0xD6, x)
  | .ainvMeas x => some (0xD6, x)
  | .gresume x => some (0xD7, x)
  | .gkill x => some (0xD8, x)
  | .prds x => some (0xE0, x)
  | .pwrs x => some (0xE1, x)
  | .pwrsKsvcrd x => some (0xE1, x)
  | .pwrsKsvcarm x => some (0xE1, x)
  | .ctxcreate x => some (0xE1, x)
  | .ctxupdate x => some (0xE1, x)
  | .ctxread x => some (0xE1, x)
  | .ctxdestroy x => some (0xE1, x)
  | .partcreate x => some (0xE1, x)
  | .partupdate x => some (0xE1, x)
  | .partread x => some (0xE1, x)
  | .partdestroy x => some (0xE1, x)
  | .iret x => some (0xE2, x)
  | .park x => some (0xE3, x)
  | .unparkR x => some (0xE4, x)
  | .unparkK x => some (0xE4, x)
  | .vsave x => some (0xE5, x)
  | .vload x => some (0xE6, x)
  | .tlblsVa x => some (0xE7, x)
  | .tlblsCtx x => some (0xE7, x)
  | .tlblsAll x => some (0xE7, x)
  | .haltS x => some (0xE8, x)
  | .haltC x => some (0xE8, x)
  | .pmcfgCtr x => some (0xE9, x)
  | .pmcfgSmp x => some (0xE9, x)
  | .pmrd x => some (0xEA, x)
  | .pmrdClr x => some (0xEA, x)
  | .memoryResponse _ _ => none
  | .fairnessSwitch _ _ => none
  | .laneIdleCycle _ _ => none
  | .binReady _ _ => none
  | .binDraw _ => none
  | .reservationTimeout _ _ => none
  | .selftick _ => none
  | .ptsLagAdvance _ => none
  | .fragmentRebase _ => none
  | .writebackDone _ => none
  | .copyStart _ => none
  | .copyBlock _ _ => none
  | .copyEnd _ _ => none
  | .mmaEntryEnter _ _ => none
  | .mmaGrant _ => none
  | .mmaPassComplete _ => none
  | .epiTakeSlot _ => none
  | .epiDrainComplete _ => none
  | .ringParityError _ _ => none
  | .taskComplete _ => none
  | .waitingEnqueueEnter _ => none
  | .agingPromotion _ _ => none
  | .placementPass _ _ => none
  | .stepStart _ => none
  | .watchdogHang _ => none
  | .faultPark _ => none
  | .parkFrameWrite _ => none
  | .serviceEntryWrite _ => none
  | .foremanFault _ => none
  | .packetArrival _ => none
  | .packetAck _ => none
  | .packetNack _ => none
  | .planeReleaseDeliver _ => none
  | .fabricIngressArrival _ => none
  | .pairFree _ => none
  | .ingressPairExpire _ => none
  | .chsync _ _ _ _ => none
  | .sync _ _ _ => none
  | .syncReply _ _ _ _ _ => none
  | .remoteTimeout _ => none
  | .wavelengthLoss _ => none
  | .stripeMarker _ _ => none
  | .laserRestored _ => none
  | .flitReplay _ => none
  | .flitAck _ _ => none
  | .replayTimeout _ _ => none
  | .portDown _ => none
  | .portUp _ => none
  | .rekeyStart _ => none
  | .rekeyStop _ => none
  | .hevbase _ => none
  | .laddr _ _ => none
  | .launchAccept _ => none
  | .launchEnd _ => none
  | .hostDataWrite _ _ => none
  | .hostDataRead _ _ => none
  | .hostDescriptorWrite _ _ => none
  | .migrate _ _ _ => none
  | .migrateChunk => none
  | .retire _ _ => none
  | .region _ _ => none
  | .regionSwitch => none
  | .generationNack _ => none
  | .keyid _ _ => none
  | .regionEraseDone _ => none
  | .loaddb _ => none
  | .recgo _ => none
  | .resetI _ => none
  | .siteResetHoldEnd _ => none
  | .siteTrainingDone _ _ => none
  | .siteTrainingTimeout _ => none
  | .registerWrite _ _ => none
  | .guestRequest _ _ _ _ => none
  | .complete _ _ => none
  | .errorI _ _ => none
  | .guestFault _ _ => none
  | .saved _ _ => none
  | .discarded _ _ => none
  | .xlateReq _ _ => none
  | .invAck _ _ => none
  | .claimReq _ _ => none
  | .recallDone _ _ => none
  | .guestDeadline _ => none
  | .grantExpire _ => none
  | .planeLinkSilent _ => none
  | .dieFault _ => none
  | .uncorrectableError _ => none
  | .patrolScrub _ _ => none
  | .mgmtCoreFault => none
  | .deviceReset => none
  | .powerThrottle _ _ => none
  | .samplePoint _ => none
  | .writeClaimHoldExpiry _ => none
  | .keyInstall _ => none
  | .atomicResultAck _ _ => none
  | .protocolError _ _ => none
  | .vendorDefinedRequest _ _ => none
  | .clusterFailure _ => none

/-- The instruction that OP and its fields name (R214): SUB tells apart the rows of one opcode, and D the rows of PWRS. -/
def Instr.ofOp (op : Nat) (x : Enc) : Option Instr :=
  match op with
  | 0x00 => some (.nop x)
  | 0x01 => some (.bra x)
  | 0x02 => some (.brx x)
  | 0x03 => some (.call x)
  | 0x04 => some (.ret x)
  | 0x05 => some (.exit x)
  | 0x06 => some (.reform x)
  | 0x07 => some (.yield x)
  | 0x08 => some (.trap x)
  | 0x09 => some (.bkpt x)
  | 0x0A => some (.syscall x)
  | 0x0B => some (.wsync x)
  | 0x0C => some (.sread x)
  | 0x0D => some (.swrite x)
  | 0x0E => some (.clock x)
  | 0x10 => some (.iadd x)
  | 0x11 => some (.isub x)
  | 0x12 => some (.imul x)
  | 0x13 => some (.imulh x)
  | 0x14 => some (.imad x)
  | 0x15 => some (.imadw x)
  | 0x16 => some (.idiv x)
  | 0x17 => some (.irem x)
  | 0x18 => some (.ineg x)
  | 0x19 => some (.iabs x)
  | 0x1A => some (.imin x)
  | 0x1B => some (.imax x)
  | 0x1C => some (.icmp x)
  | 0x1D => some (.isel x)
  | 0x1E => some (.iaddc x)
  | 0x1F => some (.lea x)
  | 0x20 => some (.andI x)
  | 0x21 => some (.orI x)
  | 0x22 => some (.xorI x)
  | 0x23 => some (.andn x)
  | 0x24 => some (.notI x)
  | 0x25 => some (.shl x)
  | 0x26 => some (.shr x)
  | 0x27 => some (.sar x)
  | 0x28 => some (.rot x)
  | 0x29 => some (.bfx x)
  | 0x2A => some (.bfi x)
  | 0x2B => some (.popc x)
  | 0x2C => some (.clz x)
  | 0x2D => some (.ctz x)
  | 0x2E => some (.brev x)
  | 0x2F => some (.mov x)
  | 0x30 => some (.fadd x)
  | 0x31 => some (.fsub x)
  | 0x32 => some (.fmul x)
  | 0x33 => some (.ffma x)
  | 0x34 => some (.fmin x)
  | 0x35 => some (.fmax x)
  | 0x36 => some (.fabs x)
  | 0x37 => some (.fneg x)
  | 0x38 => some (.fcmp x)
  | 0x39 => some (.frnd x)
  | 0x3A => some (.fclass x)
  | 0x3B => some (.fdiv x)
  | 0x3C => some (.fsqrt x)
  | 0x3D => some (.frcp x)
  | 0x3E => some (.frsq x)
  | 0x3F => some (.fexp2 x)
  | 0x40 => some (.flog2 x)
  | 0x41 => some (.fsin x)
  | 0x42 => some (.fcos x)
  | 0x43 => some (.ftanh x)
  | 0x44 => some (.fsigm x)
  | 0x45 => some (.fdot2 x)
  | 0x46 => some (.fscale x)
  | 0x50 => some (.cvt x)
  | 0x51 => some (.qpack x)
  | 0x52 => some (.qunpk x)
  | 0x53 => some (.qscale x)
  | 0x58 => some (.shfl x)
  | 0x59 => some (.pushx x)
  | 0x5A => some (.redx x)
  | 0x5B => some (.scanx x)
  | 0x5C => some (.ballot x)
  | 0x5D => some (.vote x)
  | 0x5E => some (.matchI x)
  | 0x60 => some (.pset x)
  | 0x61 => some (.plop x)
  | 0x62 => if x.sub = 0 then some (.pmovGet x) else if x.sub = 1 then some (.pmovPut x) else none
  | 0x70 => some (.ld x)
  | 0x71 => some (.ldw x)
  | 0x72 => some (.lds x)
  | 0x73 => some (.ldk x)
  | 0x74 => some (.st x)
  | 0x75 => some (.stw x)
  | 0x76 => some (.sts x)
  | 0x77 => some (.stm x)
  | 0x78 => some (.atom x)
  | 0x79 => some (.atoms x)
  | 0x7A => some (.atomp x)
  | 0x7B => some (.lr x)
  | 0x7C => some (.sc x)
  | 0x7D => some (.pref x)
  | 0x7E => some (.cflush x)
  | 0x7F => if x.sub = 0 then some (.cinvLine x) else if x.sub = 1 then some (.cinvAll x) else none
  | 0x80 => some (.dget x)
  | 0x81 => some (.dset x)
  | 0x82 => some (.ldb x)
  | 0x90 => some (.fence x)
  | 0x91 => some (.chjoin x)
  | 0x92 => some (.chdrain x)
  | 0x93 => some (.chstat x)
  | 0x94 => some (.bar x)
  | 0x95 => some (.gbar x)
  | 0x96 => some (.tbinit x)
  | 0x97 => some (.tbexp x)
  | 0x98 => some (.tbarv x)
  | 0x99 => some (.tbwait x)
  | 0x9A => if x.sub = 0 then some (.rstat x) else if x.sub = 1 then some (.rstatPeek x) else none
  | 0xA0 => some (.tmake x)
  | 0xA1 => some (.tfree x)
  | 0xA2 => if x.sub = 0 then some (.tclaimRd x) else if x.sub = 1 then some (.tclaimWr x) else none
  | 0xA3 => some (.tdrop x)
  | 0xA4 => some (.tsplit x)
  | 0xA5 => some (.tinfo x)
  | 0xA8 => some (.wset x)
  | 0xA9 => some (.wclr x)
  | 0xAA => some (.wstat x)
  | 0xB0 => some (.cpy x)
  | 0xB1 => some (.cpyl x)
  | 0xB2 => some (.cpym x)
  | 0xB3 => if x.sub = 0 then some (.gslotT x) else if x.sub = 1 then some (.gslotF x) else if x.sub = 2 then some (.gslotU x) else if x.sub = 3 then some (.gslotP x) else none
  | 0xC0 => some (.mma x)
  | 0xC1 => if x.sub = 0 then some (.aringOpen x) else if x.sub = 1 then some (.aringSeal x) else if x.sub = 2 then some (.aringDrop x) else none
  | 0xC2 => some (.epi x)
  | 0xC3 => some (.apeek x)
  | 0xC4 => some (.apatch x)
  | 0xC5 => if x.sub = 0 then some (.mstatSlot x) else if x.sub = 1 then some (.mstatTab x) else none
  | 0xD0 => some (.tenq x)
  | 0xD1 => some (.tdone x)
  | 0xD2 => some (.gpost x)
  | 0xD3 => some (.evpost x)
  | 0xD4 => if x.sub = 0 then some (.evread x) else if x.sub = 1 then some (.evreadNb x) else none
  | 0xD5 => some (.trel x)
  | 0xD6 => if x.sub = 0 then some (.ainvAll x) else if x.sub = 1 then some (.ainvMeas x) else none
  | 0xD7 => some (.gresume x)
  | 0xD8 => some (.gkill x)
  | 0xE0 => some (.prds x)
  | 0xE1 => if x.d = 0x05 then some (.pwrsKsvcrd x) else if x.d = 0x07 then some (.pwrsKsvcarm x) else some (.pwrs x)
  | 0xE2 => some (.iret x)
  | 0xE3 => some (.park x)
  | 0xE4 => if x.sub = 0 then some (.unparkR x) else if x.sub = 1 then some (.unparkK x) else none
  | 0xE5 => some (.vsave x)
  | 0xE6 => some (.vload x)
  | 0xE7 => if x.sub = 0 then some (.tlblsVa x) else if x.sub = 1 then some (.tlblsCtx x) else if x.sub = 2 then some (.tlblsAll x) else none
  | 0xE8 => if x.sub = 0 then some (.haltS x) else if x.sub = 1 then some (.haltC x) else none
  | 0xE9 => if x.sub = 0 then some (.pmcfgCtr x) else if x.sub = 1 then some (.pmcfgSmp x) else none
  | 0xEA => if x.sub = 0 then some (.pmrd x) else if x.sub = 1 then some (.pmrdClr x) else none
  | _ => none

end Sys2Proof
end

