-- ==== Sys2Proof/WellFormed.lean ====
section
/-!
DEFINITION. Well-formed instructions: those whose words pass every check of R216 that the words decide. The entries are in
Machine/Entry.lean.
-/
namespace Sys2Proof

/-- A program instruction whose words pass every check of R216 that the words decide, whose base-form fields stand at the
values of R205, and whose constructor is the one its OP, SUB and D name. -/
def Instr.wf (i : Instr) : Bool :=
  match i.parts with
  | some (op, x) => x.canon op.toNat && checkWords op.toNat x == 0 && Instr.ofOp op.toNat x == some i
  | none => false

end Sys2Proof
end

