-- ==== Sys2Proof/Decode.lean ====
section
/-!
DEFINITION. Framing (R201), the decoder, which is total on bytes and names the check of R216 that fails, and the encoder,
from the same layouts (R202 to R206).
-/
namespace Sys2Proof

/-- Why a sequence of bytes is no instruction: it ends inside the instruction, or the check of R216 with this order fails;
the opcode and fields that were read are kept for the fault record. -/
inductive Reject where
  | short
  | illegal (order : Nat) (op : BitVec 8) (x : Enc)
  deriving DecidableEq, Repr

/-- A little-endian word (R201). -/
def wordOf (a b c d : Byte) : Word32 := (d ++ c ++ b ++ a : BitVec 32)

def bytesOf (w : Word32) : List Byte :=
  [w.extractLsb' 0 8, w.extractLsb' 8 8, w.extractLsb' 16 8, w.extractLsb' 24 8]

/-- The form LEN names (R201). -/
def formOf (w : Word32) : Form :=
  match (w.extractLsb' 30 2).toNat with
  | 0 => .base
  | 1 => .ext
  | 2 => .baseLit
  | _ => .extLit

def lenOf : Form → BitVec 2
  | .base => 0
  | .ext => 1
  | .baseLit => 2
  | .extLit => 3

/-- Word 2 (R204). -/
def word2Of (w : Word32) : Word2 :=
  ⟨w.extractLsb' 27 5, w.extractLsb' 22 5, (w.extractLsb' 21 1 == 1), w.extractLsb' 17 4, w.extractLsb' 14 3, w.extractLsb' 10 4,
    w.extractLsb' 7 3, w.extractLsb' 5 2, (w.extractLsb' 4 1 == 1), w.extractLsb' 0 4⟩

def Word2.word (x : Word2) : Word32 :=
  (x.ga ++ x.gb ++ BitVec.ofBool x.gop ++ x.look ++ x.hint ++ x.ch ++ x.scope ++ x.ord ++ BitVec.ofBool x.gse ++ x.gs : BitVec 32)

/-- OP of word 0. -/
def opOf (w : Word32) : BitVec 8 := w.extractLsb' 22 8

/-- The fields of a base form (R202, R205). -/
def encBase (f : Form) (w0 : Word32) (lit : Word64) : Enc :=
  { form := f, d := w0.extractLsb' 14 8, a := w0.extractLsb' 6 8, sub := 0, b := (w0.extractLsb' 0 6).zeroExtend 8, c := 0, e := 0,
    mod := baseMod (opOf w0).toNat, w2 := Word2.base, lit := lit }

/-- The fields of an extended form (R202 to R204). -/
def encExt (f : Form) (w0 w1 w2 : Word32) (lit : Word64) : Enc :=
  { form := f, d := w0.extractLsb' 14 8, a := w0.extractLsb' 6 8, sub := w0.extractLsb' 0 6, b := w1.extractLsb' 24 8,
    c := w1.extractLsb' 16 8, e := w1.extractLsb' 8 8, mod := w1.extractLsb' 0 8, w2 := word2Of w2, lit := lit }

/-- The opcode and fields of the words of one instruction, by its form (R201). -/
def fieldsOf : List Word32 → Option (BitVec 8 × Enc)
  | [w0] => if formOf w0 = .base then some (opOf w0, encBase .base w0 0) else none
  | [w0, w1, w2] =>
    match formOf w0 with
    | .ext => some (opOf w0, encExt .ext w0 w1 w2 0)
    | .baseLit => some (opOf w0, encBase .baseLit w0 (w2 ++ w1 : BitVec 64))
    | _ => none
  | [w0, w1, w2, w3, w4] =>
    if formOf w0 = .extLit then some (opOf w0, encExt .extLit w0 w1 w2 (w4 ++ w3 : BitVec 64)) else none
  | _ => none

/-- The first `n` words of a sequence of bytes. -/
def takeWords : Nat → List Byte → Option (List Word32)
  | 0, _ => some []
  | n + 1, a :: b :: c :: d :: rest =>
    match takeWords n rest with
    | some ws => some (wordOf a b c d :: ws)
    | none => none
  | _ + 1, _ => none

/-- Bytes of the instruction that starts with this word. -/
def lengthOf (w0 : Word32) : Nat := 4 * (formOf w0).words

/-- Framing: the opcode and fields of the instruction at the head of the bytes. -/
def frame (bs : List Byte) : Option (BitVec 8 × Enc) :=
  match takeWords 1 bs with
  | some [w0] =>
    match takeWords (formOf w0).words bs with
    | some ws => fieldsOf ws
    | none => none
  | _ => none

/-- The decoder: the instruction at the head of the bytes and the bytes after it, or the check that fails. -/
def decode (bs : List Byte) : Except Reject (Instr × List Byte) :=
  match frame bs with
  | none => .error .short
  | some (op, x) =>
    let order := checkWords op.toNat x
    if order ≠ 0 then .error (.illegal order op x)
    else match Instr.ofOp op.toNat x with
      | some i => .ok (i, bs.drop (4 * x.form.words))
      | none => .error (.illegal 5 op x)

/-- The words of an opcode and its fields (R201 to R206). -/
def encodeWords (op : BitVec 8) (x : Enc) : List Word32 :=
  let w0 (b6 : BitVec 6) : Word32 := (lenOf x.form ++ op ++ x.d ++ x.a ++ b6 : BitVec 32)
  let w1 : Word32 := (x.b ++ x.c ++ x.e ++ x.mod : BitVec 32)
  let lit : List Word32 := [x.lit.extractLsb' 0 32, x.lit.extractLsb' 32 32]
  match x.form with
  | .base => [w0 (x.b.extractLsb' 0 6)]
  | .ext => [w0 x.sub, w1, x.w2.word]
  | .baseLit => w0 (x.b.extractLsb' 0 6) :: lit
  | .extLit => w0 x.sub :: w1 :: x.w2.word :: lit

/-- The encoder: the words of a program instruction; none of an event. -/
def encode (i : Instr) : List Word32 :=
  match i.parts with
  | some (op, x) => encodeWords op x
  | none => []

/-- The bytes of words as memory holds them. -/
def wordBytes (ws : List Word32) : List Byte := ws.flatMap bytesOf

/-- `n` bytes of a number, the least significant first. -/
def numBytes : Nat → Nat → List Byte
  | 0, _ => []
  | n + 1, w => BitVec.ofNat 8 w :: numBytes n (w / 256)

/-- The instruction the decoder reads from an instruction whose bits are `w`, numbered from bit 0 of the first word, the bits
at and above `nbits` zero. -/
def decodeTableWord (nbits w : Nat) : Option Instr :=
  match decode (numBytes 20 (w % 2 ^ nbits)) with
  | .ok (i, _) => some i
  | .error _ => none

end Sys2Proof
end

