-- ==== Sys2Proof/Config.lean ====
section
/-!
DEFINITION. What the implementation fixes (R1, R2, R384) and the free values: opaque constants with no body, so that
nothing can be proved of the value they give. A free value is applied to the counter `State.free` or to the operands
it depends on.
-/
namespace Sys2Proof.Config

/-- Warp width W of the ZVX9-A0 (R2, R47). -/
def warpW : Nat := 32

/-- Lanes per core (R47, R384). -/
def lanes : Nat := 32

/-- Dies, clusters per die, cores per cluster (R1). -/
def dies : Nat := 8
def clustersPerDie : Nat := 24
def coresPerCluster : Nat := 4

/-- Bytes of vector register storage of a lane (R20). -/
def laneBytes : Nat := 24576

/-- Bytes of a cluster's scratchpad (R57). -/
def scratchBytes : Nat := 2097152

/-- Free value: a random draw of HUB, 256 bits (R381, R492). -/
opaque random : Nat → BitVec 256

/-- Free value: what the address of a group's task record copy, TASKREC, is made from (R47: "placement"). -/
opaque taskRecAddr : Nat → BitVec 64

/-- Free value: bytes of the sections of a park frame whose layout R196 leaves to the device (CHAN, CMD, RING, BINS),
and bytes that a host read of no memory or of poison gives (R130 states none), by counter and byte offset. -/
opaque frameByte : Nat → Nat → Byte

/-- Free value: a value that racing writers leave undetermined (R64, R75). -/
opaque freeWord : Nat → BitVec 64

/-- Free value: a cell of a ring slot whose contents ARING.drop has lost (R331), by counter and cell. -/
opaque freeCell : Nat → Nat → BitVec 32

/-- Free value: a choice among what the manual allows (R121, R454, R461). -/
opaque choice : Nat → Bool

/-- Free value: whether the switch of a port reports an ACCELID as already taken (R449): a fact of the fabric. -/
opaque idTaken : BitVec 10 → Nat → Bool

/-- Free value: the hash of a destination address by which a source spreads requests over usable ports (R454). -/
opaque spray : Nat → Nat

/-- Free value: the fields of a K context's descriptor that PARTCREATE names no value for (R383). -/
opaque kctxImage : Nat → BitVec 512

/-- Free value: the key record of a context that PARTCREATE made (R383, R494). -/
opaque kctxKeys : Nat → BitVec 2048

/-- Free value: bytes of a die's vault image beyond its fixed part (R444 gives no sizes for the rest). -/
opaque vaultExtra : Nat → Nat

/-- Free value: the package ticks a vault move takes, within the bound of R446. -/
opaque vaultTicks : Nat → Nat

/-- What the loader reads in a PSV container: the segments' headers, images, relocation tables (offset of each 64-bit
word to be based) and signatures. R229 and R495 name these parts and give no byte layout: an uninterpreted function of
the container's bytes. Each segment is (is code, offset, header, image, relocation table, relocated offsets, ECDSA, LMS). -/
opaque psvParse : List Byte → Option (List (Bool × Nat × List Byte × List Byte × List Byte × List Nat × List Byte × List Byte))

/-- ECDSA P-384 verification of a signature over M under a key record (R494, R495). -/
opaque ecdsaOk : BitVec 2048 → BitVec 384 → List Byte → Bool

/-- LMS verification of a signature over M under a key record (R494, R495). -/
opaque lmsOk : BitVec 2048 → BitVec 384 → List Byte → Bool

/-- The P-384 point of a key record lies on the curve, and its LMS parameter set is the one of R494. -/
opaque keyRecordOk : BitVec 2048 → Bool

/-- Verification of a recovery image under Zovieno's keys, with the security version it carries (R499, R500). -/
opaque firmwareOk : List Byte → Option (BitVec 32)

/-- The device's signature over an attestation response (R498). -/
opaque spdmSign : List Byte → List Byte

end Sys2Proof.Config
end

