-- ==== Sys2Proof/Machine/Store.lean ====
section
/-!
DEFINITION. Finite maps keyed by numbers, in one canonical form: keys strictly rising. With a default value, no entry
equals the default, so equal maps are equal data. Memory is such a map of bytes.
-/
namespace Sys2Proof.Machine

/-- A finite map as a list of key and value pairs. -/
abbrev SMap (α : Type) := List (Nat × α)

/-- The value listed at `i`. -/
def SMap.find? {α : Type} : SMap α → Nat → Option α
  | [], _ => none
  | (k, v) :: m, i => if k = i then some v else SMap.find? m i

/-- Lists `v` at `i`, in order. -/
def SMap.insert {α : Type} : SMap α → Nat → α → SMap α
  | [], i, v => [(i, v)]
  | (k, w) :: m, i, v =>
    if i < k then (i, v) :: (k, w) :: m
    else if i = k then (i, v) :: m
    else (k, w) :: SMap.insert m i v

/-- Lists nothing at `i`. -/
def SMap.erase {α : Type} : SMap α → Nat → SMap α
  | [], _ => []
  | (k, w) :: m, i => if i = k then m else (k, w) :: SMap.erase m i

/-- The value at `i`, `d` where nothing is listed. -/
def SMap.getD {α : Type} (d : α) (m : SMap α) (i : Nat) : α := (m.find? i).getD d

/-- Sets the value at `i`; a value equal to the default `d` is not listed. -/
def SMap.setD {α : Type} [DecidableEq α] (d : α) (m : SMap α) (i : Nat) (v : α) : SMap α :=
  if v = d then m.erase i else m.insert i v

/-- Keys strictly rise. -/
def SMap.rising {α : Type} : SMap α → Bool
  | [] => true
  | [_] => true
  | (k, _) :: (l, w) :: m => decide (k < l) && SMap.rising ((l, w) :: m)

/-- The canonical form: keys strictly rise and nothing listed equals the default. -/
def SMap.wf {α : Type} [DecidableEq α] (d : α) (m : SMap α) : Bool :=
  m.rising && m.all (fun p => decide (p.2 ≠ d))

/-- Updates the first element that satisfies `p`. -/
def updFirst {α : Type} (p : α → Bool) (f : α → α) : List α → List α
  | [] => []
  | x :: xs => if p x then f x :: xs else x :: updFirst p f xs

/-- Removes the first element that satisfies `p`. -/
def dropFirst {α : Type} (p : α → Bool) : List α → List α
  | [] => []
  | x :: xs => if p x then xs else x :: dropFirst p xs

end Sys2Proof.Machine
end

