-- ==== Sys2Proof/Machine/State.lean ====
section
/-!
DEFINITION. The state of the ZVX9-A0, as plain data: threads, warps and groups, the clusters with their engines, the
directory, memory, channels, the scheduler, contexts and partitions, the fabric, the guest sites and the host's
registers. Each field's comment names the rule that gives it; INVENTORY.md lists all with their reset values.
-/
namespace Sys2Proof.Machine

/-- Memory by byte address; an unlisted address reads as zero (R502). -/
abbrev Memory := List Host.Cell

/-- The canonical form of memory: addresses strictly rise and no listed byte is zero. -/
def Memory.wf (m : Memory) : Bool := SMap.wf (0 : Byte) m

/-- The RAW descriptor: format 0x00 in bits 15:8, scale 0x7F in bits 7:0 (R57, R81, R290). -/
def rawDesc : BitVec 16 := 0x007F

/-! ## Faults -/

/-- The content of a fault record but for the fields the device fills in at parking (R429, R430); `cmd` is the suspended command the
record names by its index. -/
structure FaultRec where
  code : BitVec 8
  info : BitVec 32 := 0
  aux : BitVec 64 := 0
  addr : BitVec 64 := 0
  pc : BitVec 64 := 0
  acc : BitVec 3 := 0
  agent : BitVec 4 := 0
  cmd : Option Nat := none
  wid : Nat := 0
  tid : Nat := 0
  slot : Nat := 0
  time : Nat := 0
  more : Nat := 0
  deriving DecidableEq, Repr

/-! ## Threads, warps, groups -/

/-- What a thread is doing: on a path; exited; filed in a bin; waiting in WSYNC under a slot mask, at a BAR (or a GBAR of a
group outside a gang, with GANG scope), at a GBAR, or in TBWAIT on a barrier for a phase other than the one named (R21, R24, R26,
R196 STATE, R298, R300). A waiting thread's PC stays at its instruction; `next` is where it goes on. -/
inductive Run where
  | path | exited | filed
  | wsync (mask : BitVec 128) (next : BitVec 64)
  | bar (next : BitVec 64) (gang : Bool)
  | gbar (next : BitVec 64)
  | tbwait (b : Nat) (phase : Bool) (next : BitVec 64)
  deriving DecidableEq, Repr

/-- A thread (R14, R45, R47): TID, slot, warp, PC, predicates p0-p14, vector registers, FPFLAGS, RFAIL, the LR
reservation (block, cycle of the LR; R283), the instructions its path has issued since an LR it executed while that suppresses forced
switches (R23), the stamp of its path's last issue (R22), the latest pts that a release-written
location it has read carries, and the pts its last release FENCE carries (R113). -/
structure Thread where
  tid : Nat
  slot : Nat
  wid : Nat
  pc : BitVec 64
  run : Run := .path
  preds : BitVec 15 := 0
  v : List Word32
  fpflags : BitVec 5 := 0
  rfail : Bool := false
  resv : Option (Nat × Nat) := none
  lr : Option Nat := none
  lastIssue : Nat := 0
  seenPts : Option (BitVec 24) := none
  relPts : Option (BitVec 24) := none
  deriving DecidableEq, Repr

/-- A SYSCALL that waits for its answer: destination, threads that wait, the PC after it (R241). -/
structure SysWait where
  d : BitVec 8
  tids : List Nat
  next : BitVec 64
  deriving DecidableEq, Repr

/-- A warp (R16, R45, R47): lane and warp slot, uniform registers, RMODE, DMODE, LEASE, SYSCALL request number (R241),
fairness timer (R22), a path chosen by a forced switch (R22, R239), time of the last issue, each path's CPYM just
issued, if any: its threads and, when it posted, its command (0 when that ended badly), layout record and coordinates (R326), and the pending status registers with their commands (R167), the CHDRAINs it is stalled in: threads, PC, and the number before which the
operations they wait for were issued (R123), and records that came from another
accelerator for the instruction that reads them: thread, address, value (R314), and the PC of a privileged instruction under way (R372). For sampling (R513): the PC of the last instruction that
occupied the lane, from when until when, and whether the warp's last attempt to issue stalled. -/
structure Warp where
  wid : Nat
  lane : Nat
  wslot : Nat
  s : List Word64
  rmode : BitVec 3 := 0
  dmode : Bool := false
  lease : BitVec 8 := 10
  reqno : BitVec 32 := 0
  sys : Option SysWait := none
  fair : Nat := 0
  forced : Option (BitVec 64) := none
  stamp : Nat := 0
  cpym : List (List Nat × Option (Nat × BitVec 512 × List Int)) := []
  drains : List (List Nat × BitVec 64 × Nat) := []
  pend : List (Nat × Nat) := []
  fetched : List (Nat × BitVec 64 × Nat) := []
  issued : Option (BitVec 64 × Nat × Nat) := none
  held : Bool := false
  busy : Option (BitVec 64) := none
  deriving DecidableEq, Repr

/-- Destination of a channel operation (R120). -/
inductive Dest where
  | die (n : Nat)
  | host
  | site (n : Nat)
  | fab (accel lane : Nat)
  deriving DecidableEq, Repr

/-- An entry of a group's pair table (R125, R126): next number, the number the port expects, run, whether its first number has been
taken, and whether CHSYNC holds it. -/
structure Pair where
  ch : Nat
  dest : Dest
  next : BitVec 16 := 0
  expect : BitVec 16 := 0
  run : BitVec 8 := 0
  opened : Bool := false
  resync : Bool := false
  deriving DecidableEq, Repr

/-- A transaction barrier (R170). -/
structure TBar where
  init : Bool := false
  phase : Bool := false
  want : Nat := 0
  arrived : Nat := 0
  txbal : BitVec 41 := 0
  deriving DecidableEq, Repr

/-- A scratch allocation (R57, R61): physical offset, size, bytes, descriptors, poisoned blocks, inbound counter. -/
structure Scratch where
  base : Nat
  size : Nat
  bytes : Memory := []
  desc : SMap (BitVec 16) := []
  poison : List Nat := []
  inbound : Nat := 0
  deriving DecidableEq, Repr

/-- A parked group's frame (R195, R196, R432): the fault, the cycle count of its die at the parking (R32), the frame's context address, the physical address of each
of its 64 KiB units and its size once written, whether K was told of a held frame, and whether the device is to try to write it. -/
structure Park where
  fault : FaultRec
  since : Nat := 0
  frame : Option (BitVec 64 × List Nat × Nat) := none
  held : Bool := false
  retry : Bool := true
  deriving DecidableEq, Repr

/-- Life of a group: issuing; stopping after a fault until what it issued has completed (R194, R272); parked. -/
inductive Life where
  | running
  | stopping (f : FaultRec) (asked : Bool)
  | parked (p : Park)
  deriving DecidableEq, Repr

/-- What a pure task declared (R186, R187): inputs and outputs (handle, version read at dispatch), digest, whether it has parked with PURITY or
its entry is not to be written (R190), and bytes 0-7 of the code measurement. -/
structure Pure where
  ins : List (Nat × BitVec 64)
  outs : List Nat
  digest : BitVec 128
  spoiled : Bool := false
  meas : BitVec 64
  deriving DecidableEq, Repr

/-- A resident group (R10, R33, R45, R47, R194). `slots` are the warp slots it owns, as (lane, warp slot) (R28, R30); `chWait` names channels of which an operation waits for
a pair-table entry or for the window (R296). -/
structure Group where
  gid : Nat
  ctx : Nat
  part : Nat
  vregs : Nat
  sregs : Nat
  threads : List Thread
  warps : List Warp
  slots : List (Nat × Nat) := []
  guards : List (Option Bool) := List.replicate 16 none
  pairs : List Pair := []
  joins : List (Nat × Nat × List Nat) := []
  tbars : List TBar := []
  ring : List Nat := []
  scr : Scratch
  gang : Option (Nat × Nat) := none
  gsize : Nat := 1
  task : BitVec 512 := 0
  taskrec : BitVec 64 := 0
  cbase : BitVec 64 := 0
  clen : Nat := 0
  launch : Option Nat := none
  prio : Nat := 0
  entered : Nat := 0
  life : Life := .running
  handler : Bool := false
  service : Bool := false
  tdone : Bool := false
  completed : Bool := false
  pure : Option Pure := none
  suppress : List (Nat × Nat × Nat) := []
  wdogAt : Nat := 0
  wdogLim : Nat := 0x40000000
  acquired : Bool := true
  chWait : List Nat := []
  deriving DecidableEq, Repr

/-- A gang (R13, R34): its members by GANGIDX, the members that have ended, whether one was killed (R199) and whether one that has ended
parked with PURITY (R190). -/
structure Gang where
  id : Nat
  size : Nat
  members : List (Nat × Nat)
  ended : List Nat := []
  killed : Bool := false
  spoiled : Bool := false
  deriving DecidableEq, Repr

/-- A filed thread with the warp values it carries (R26, R30). -/
structure Filed where
  th : Thread
  s : List Word64
  rmode : BitVec 3
  dmode : Bool
  lease : BitVec 8
  reqno : BitVec 32
  deriving DecidableEq, Repr

/-- An ore bin (R26 to R32): group, key (next PC, low key), kept registers n, first filing's cycle, ready mark, threads. -/
structure Bin where
  gid : Nat
  pc : BitVec 64
  key : BitVec 8
  n : Nat
  born : Nat
  ready : Bool := false
  filed : List Filed
  deriving DecidableEq, Repr

/-! ## Engines -/

/-- How an engine command holds what it captured at post (R314): modes, channel, scope, ordering, hint, guard slot. -/
structure Capt where
  rmode : BitVec 3
  dmode : Bool
  ch : Nat
  scope : BitVec 3
  ord : BitVec 2
  hint : BitVec 3
  gs : Option Nat
  prio : Nat
  pc : BitVec 64
  tid : Nat
  wid : Nat
  deriving DecidableEq, Repr

/-- The three copy instructions and their directions (R321). -/
inductive CopyKind where
  | g2s | s2g | g2g | s2s
  deriving DecidableEq, Repr

/-- Progress of an engine command (R166, R168, R317). -/
inductive CmdSt where
  | queued | running | suspended | ending (code : Nat) (disc : Bool)
  deriving DecidableEq, Repr

/-- A copy command (R164 to R168, R318 to R326). `linear` distinguishes CPYL. `done` counts blocks performed, `bytes` the
half-bytes of the destination covered; `crcS`, `crcD` are the running CRCs; `wait` a remote read under way and `data` the 16-byte units it brought, by address / 16;
`shared` a shared queue entry; `into` another group whose scratch it writes; `width` the scratch side's width; `passWatch` and `passMatrix`
that its next check of class COPY or MATRIX is made with watches suppressed (R312). -/
structure CopyCmd where
  id : Nat
  gid : Nat
  dreg : Nat
  kind : CopyKind
  linear : Bool
  isM : Bool := false
  bound : Bool := false
  layout : BitVec 512 := 0
  coord : List Int := []
  src : BitVec 64 := 0
  dst : BitVec 64 := 0
  len : Nat := 0
  crc : Bool := false
  ev : Bool := false
  bar : Option Nat := none
  cap : Capt
  st : CmdSt := .queued
  done : Nat := 0
  bytes : Nat := 0
  crcS : BitVec 32 := 0xFFFFFFFF
  crcD : BitVec 32 := 0xFFFFFFFF
  data : SMap (BitVec 128) := []
  wait : Option Nat := none
  shared : Bool := true
  into : Option Nat := none
  width : Nat := 0
  passWatch : Bool := false
  passMatrix : Bool := false
  deriving DecidableEq, Repr

/-- An operand of a matrix pass (R328, R329): its captured lines, each as 16-byte chunks with their descriptors (register operands from the
post on, scratch operands from the grant on), or a place in scratch. -/
inductive MOperand where
  | lines (ls : List (List (BitVec 128 × BitVec 16)))
  | scratch (base rp tp rot : Nat)
  deriving DecidableEq, Repr

/-- An entry of a reservation table, or a bound MMA that waits for its CPYM (R173, R174, R326): `src` is the CPYM's layout record and
coordinates, whose source region is checked again at the grant. -/
structure MmaEntry where
  id : Nat
  gid : Nat
  slot : Nat
  desig : Nat
  a : MOperand
  b : MOperand
  k : Nat
  zero : Bool
  cap : Capt
  enter : Nat := 0
  waitCopy : Option Nat := none
  src : Option (BitVec 512 × List Int) := none
  running : Bool := false
  passWatch : Bool := false
  deriving DecidableEq, Repr

/-- State of a ring slot (R175). -/
inductive RingSt where
  | free | filling | ready | draining
  deriving DecidableEq, Repr

/-- A ring slot (R175, R177, R331, R338): owner group and designator, state, sealing, poison, quads patched since, seal
time, cells, and the number of the free values that stand for contents lost by ARING.drop. -/
structure RingSlot where
  owner : Option (Nat × Nat) := none
  st : RingSt := .free
  sealing : Bool := false
  poison : Bool := false
  patched : List Nat := []
  sealT : Nat := 0
  cells : SMap Word32 := []
  lost : Option Nat := none
  deriving DecidableEq, Repr

/-- An epilogue command (R332, R333). `mod` is MOD[7:5]. -/
structure EpiCmd where
  id : Nat
  gid : Nat
  dreg : Nat
  out : BitVec 64
  pitch : Nat
  scale : BitVec 32
  biasOff : Option Nat
  act : BitVec 2
  ty : Nat
  fmt : BitVec 6
  mod : BitVec 3
  cap : Capt
  slot : Option Nat := none
  suspended : Bool := false
  passWatch : Bool := false
  deriving DecidableEq, Repr

/-- A foreman (R184, R215, R435): whether it issues, its uniform registers and modes and its one thread (PC, predicates), as
a warp of one thread; channel state held as one group; and a fault: its record, whether it is written, and whether the
foreman waits for a restart of its partition. -/
structure Foreman where
  run : Bool := false
  w : Warp := { wid := 0, lane := 0, wslot := 0, s := List.replicate 64 0 }
  th : Thread := { tid := 0, slot := 0, wid := 0, pc := 0, v := [] }
  pairs : List Pair := []
  joins : List (Nat × Nat × List Nat) := []
  faulted : Option (FaultRec × Bool × Bool) := none
  deriving DecidableEq, Repr

/-- An event of R506 on its way to the counters of this step: code, core (4 × cluster for an event of a cluster, 96 × die for one of a die),
how often, and the context it belongs to. -/
structure Ev where
  code : Nat
  core : Nat
  n : Nat
  owner : Option Nat := none
  deriving DecidableEq, Repr

/-- A counter (R505): configuration, count, and the partition it was configured from K for (R392). -/
structure Counter where
  cfg : BitVec 64 := 0
  cnt : BitVec 64 := 0
  part : Option Nat := none
  deriving DecidableEq, Repr

/-- A running sampling unit (R510 to R514): descriptor address, image read at start, context whose addresses it uses
(none: physical), partition filter, slot pointer, WR, DROPS, cycle of the next sample point. -/
structure Sampler where
  addr : BitVec 64
  img : BitVec 512
  ctx : Option Nat
  part : Option Nat
  ptr : Nat := 0
  wr : BitVec 16
  drops : BitVec 32 := 0
  nextAt : Nat
  deriving DecidableEq, Repr

/-- A sector of an L1 (R68): context that filled it (R443), block number, data, descriptor, read-only mark (R75). -/
structure L1Sec where
  ctx : Nat
  blk : Nat
  data : BitVec 512
  desc : BitVec 16
  ro : Bool := false
  deriving DecidableEq, Repr

/-- What a cluster holds of a block under its own write claim (R69): data and byte mask, descriptor if it is dirty. -/
structure Held where
  blk : Nat
  data : BitVec 512 := 0
  mask : BitVec 64 := 0
  desc : Option (BitVec 16) := none
  deriving DecidableEq, Repr

/-- A claim of a cluster for a context on a fragment (R146, R149, R160). -/
structure Claim where
  frag : Nat
  ctx : Nat
  write : Bool
  ownRts : BitVec 24
  ver : BitVec 64
  lease : Nat
  used : Nat
  deriving DecidableEq, Repr

/-- A core: its L1, ore bins, lane round-robin pointers (R26, R68, R409), and when each lane last issued. -/
structure Core where
  l1 : List L1Sec := []
  bins : List Bin := []
  rr : SMap Nat := []
  turns : SMap Nat := []
  deriving DecidableEq, Repr

/-- A unit of 16 bytes that a TDROP writes back: the group that dropped the claim, the unit by physical address / 16, what stands at the home
before and after (R363). -/
structure PastUnit where
  gid : Nat
  unit : Nat
  old : BitVec 128
  new : BitVec 128
  deriving DecidableEq, Repr

/-- A cluster (R1, R47, R144, R160, R164, R173, R175, R176, R184, R505); `past` holds units whose write-back other groups may not have seen; `konst` is its read-only cache of constant blocks: launch,
physical address / 16, unit (R63). -/
structure Cluster where
  pts : BitVec 24 := 0
  selftick : Nat := 256
  tickAt : Nat := 0
  tickLen : Nat := 256
  fused : Bool := false
  cores : List Core := List.replicate 4 {}
  copyQ : List CopyCmd := []
  mma : List MmaEntry := []
  epiQ : List EpiCmd := []
  ring : List RingSlot := List.replicate 16 {}
  evq : List (BitVec 128) := []
  evLost : Nat := 0
  fore : Foreman := {}
  ctrs : List Counter := List.replicate 16 {}
  smp : Option Sampler := none
  claims : List Claim := []
  held : List Held := []
  konst : List (Nat × Nat × BitVec 128) := []
  past : List PastUnit := []
  zombies : List (Nat × Scratch) := []
  deriving DecidableEq, Repr

/-! ## The directory -/

/-- A live handle (R137, R138): context, ID, region record, its claim set as physical blocks in ascending order. -/
structure Handle where
  ctx : Nat
  id : Nat
  region : BitVec 512
  blocks : List Nat
  deriving DecidableEq, Repr

/-- Who may hold a claim: a cluster, or the guest of a site (R142, R482). -/
inductive Holder where
  | cluster (n : Nat)
  | guest (site : Nat)
  deriving DecidableEq, Repr

/-- A fragment (R141, R142): its blocks, the timestamps, VER, the write holder and its context, the cycle of the grant on the
clock of `holdDie`, and whether the holder has used the claim or 256 cycles have passed (R153), and whether a recall is asked for. -/
structure Frag where
  id : Nat
  blocks : List Nat
  wts : BitVec 24
  rts : BitVec 24
  ver : BitVec 64
  holder : Option (Holder × Nat) := none
  grantAt : Nat := 0
  used : Bool := true
  recalled : Bool := false
  deriving DecidableEq, Repr

/-! ## Memory traffic -/

/-- What a performed write does to a block's descriptor (R77). -/
inductive DescAct where
  | raw
  | put (d : BitVec 16)
  | keep
  deriving DecidableEq, Repr

/-- What a channel packet does at its home (R125): a write of bytes of one block, whose address is `place`, with the
descriptor action; an atomic with op, type and operands; an SC; or a guest packet. -/
inductive Pay where
  | write (place : Nat) (cells : List (Nat × Byte)) (desc : DescAct)
  | atom (pa : Nat) (op : Nat) (ty : Nat) (c e : BitVec 64)
  | sc (pa : Nat) (size : Nat) (x : BitVec 64)
  | guest (site : Nat) (pkt : BitVec 512)
  deriving DecidableEq, Repr

/-- Where a channel packet is (R122, R125): withheld at the source, on its way, held in a hub plane, held in the
resequencing buffer of the port, performed and not yet acknowledged. -/
inductive PktSt where
  | source | flying | plane | port | done
  deriving DecidableEq, Repr

/-- A channel packet (R119 to R126, R455); one withheld at its source has no number yet. `deps` are the packets that must be performed and
the engine commands that must have sent theirs first (R121 to R123); `also` names the other threads whose bytes it carries (R271);
`core` and `ctx` say
who issued it, for the claim and reservation rules; `load` is the outstanding load it answers, `cmd` the engine command it
belongs to, `vpage`, `ppage` and `psize` the bases and size of the page it goes through (R417), `pts` what it carries beside the pts at
its performing (R113), `port` the fabric port it was last sent on, `gen` the region table generation it was sent under (R425). -/
structure Packet where
  id : Nat
  gid : Nat
  core : Nat
  ctx : Nat
  tid : Nat
  also : List Nat := []
  ch : Nat
  dest : Dest
  seq : BitVec 16
  run : BitVec 8
  rs : Bool
  rel : Bool
  scope : BitVec 3
  st : PktSt
  deps : List Nat
  pay : Pay
  vpage : Nat
  ppage : Nat
  psize : Nat := 0
  sent : Nat
  load : Option Nat := none
  cmd : Option Nat := none
  refused : Bool := false
  limit : Nat := 0
  pts : Option (BitVec 24) := none
  port : Option Nat := none
  gen : BitVec 16 := 0
  deriving DecidableEq, Repr

/-- What one thread's access of an outstanding load awaits: thread, address named, where it reads, LDB's element index, value
once known, whether it failed, and what the location carried (R113); virtual and physical base and size of the page it reads through
(R417); the channel tag that its request to the fabric carries (R448, R455) and the port that it was last sent on (R458). -/
inductive LoadAt where
  | mem (pa : Nat)
  | fabric (accel xaddr : Nat)
  deriving DecidableEq, Repr

structure LoadPart where
  tid : Nat
  slot : Nat
  addr : BitVec 64
  place : LoadAt
  idx : Nat := 0
  vpage : Nat := 0
  ppage : Nat := 0
  psize : Nat := 0
  value : Option (BitVec 128) := none
  failed : Bool := false
  seen : Option (BitVec 24) := none
  tag : BitVec 64 := 0
  port : Option Nat := none
  deriving DecidableEq, Repr

/-- What an outstanding access does with the values that return. -/
inductive LoadKind where
  | load | dget | ldb | atomic | record | copy
  deriving DecidableEq, Repr

/-- A long-latency access whose result has not been written (R209, R273, R461): warp, fields of its instruction and the modes it issued
under, bytes it writes, the accesses, time, PC and path of issue, whether a failure raises REMOTE, and how many instructions may still issue before it completes. -/
structure OutLoad where
  id : Nat
  gid : Nat
  wid : Nat
  core : Nat
  ctx : Nat
  kind : LoadKind
  enc : Enc
  rmode : BitVec 3
  dmode : Bool
  d : BitVec 8
  size : Nat
  uni : Bool
  noret : Bool := false
  limit : Nat := 0
  parts : List LoadPart
  ord : BitVec 2
  scope : BitVec 3
  sent : Nat
  pc : BitVec 64
  path : List Nat := []
  remote : Bool := false
  look : Nat := 0
  deriving DecidableEq, Repr

/-- A cached translation (R415, R416): where it is cached (0-767 cores, 768-959 engine TLBs, 960-967 dies, 968-975 the
walk caches of the dies), context, virtual page base and size it covers, the entry, its level, its expiry in package
ticks, and, of one that a walk has just read, where the walk read it. -/
structure TlbEntry where
  owner : Nat
  ctx : Nat
  vpage : Nat
  psize : Nat
  leaf : BitVec 64
  level : Nat
  expiry : Nat
  src : Option Nat := none
  deriving DecidableEq, Repr

/-- An access of another agent than a core or an engine that waits at its homes, for a blocked chunk, an erase or a recall (R422, R493, R151): a
channel packet by its number, a request from the fabric, an access of a guest, its claim or translation request, or a host access. -/
inductive Queued where
  | packet (id : Nat)
  | request (p : FabPacket)
  | guest (site ctx pa : Nat) (acc : GuestAcc)
  | claimReq (site : Nat) (pkt : BitVec 512)
  | xlateReq (site : Nat) (pkt : BitVec 512)
  | hostWrite (pa : Nat) (data : List Byte)
  | hostRead (pa n : Nat)
  | hostDesc (off : Nat) (data : List Byte)
  deriving DecidableEq, Repr

/-! ## Tasks and scheduling -/

/-- Why a record is queued (R183, R195, R377). -/
inductive TaskKind where
  | normal
  | handler (gid : Nat)
  | service
  deriving DecidableEq, Repr

/-- A task record in a seam, in spill or waiting at HUB (R181, R182, R401, R402): `entered` is its FIFO entry time, `since` where its
wait for aging is measured from and `aging` the AGING it is measured under (R375, R402). The records of one FIFO stand in its order. -/
structure QRec where
  id : Nat
  seam : Nat
  record : BitVec 512
  ctx : Nat
  part : Nat
  launch : Option Nat
  kind : TaskKind
  level : Nat
  entered : Nat
  since : Nat := 0
  aging : Nat := 0
  held : Bool
  spilled : Bool
  waiting : Bool
  pts : BitVec 24 := 0
  deriving DecidableEq, Repr

/-- A launch (R39, R395, R398, R400): record, records not yet routed, current step, its die set, open tasks of the step,
counts, the 16-byte units of its constant block as they stood at launch, by physical address / 16 (R64), and the status once it ends. -/
structure Launch where
  id : Nat
  part : Nat
  ctx : Nat
  record : BitVec 512
  todo : List (BitVec 512)
  started : Bool := false
  step : Nat := 0
  dset : List Nat := []
  opened : Nat := 0
  done : Nat := 0
  killed : Nat := 0
  steps : Nat := 0
  pts : BitVec 24 := 0
  konst : SMap (BitVec 128) := []
  status : Option (Nat × Nat) := none
  deriving DecidableEq, Repr

/-- What a group holds of a core and its cluster (R33, R403): core, lanes, bytes on each lane, barriers, scratch run, ring slots, L1 mode. -/
structure Occ where
  core : Nat
  lanes : List Nat
  bytes : Nat
  tbar : Nat
  scrBase : Nat
  scrSize : Nat
  ring : Nat
  fuse : Bool
  prio : Nat
  entered : Nat
  deriving DecidableEq, Repr

/-- A reservation of a seam for a partition (R406): the record, its priority and FIFO entry time, and the target places by GANGIDX. -/
structure Reserve where
  seam : Nat
  part : Nat
  qrec : Nat
  prio : Nat
  entered : Nat
  places : List Occ
  deriving DecidableEq, Repr

/-- A placement pass that goes on at a later package tick (R405): its partition, the candidates left, that tick. -/
structure PassOn where
  part : Nat
  rest : List Nat
  next : Nat
  deriving DecidableEq, Repr

/-- An assay entry (R185, R188): outputs by handle and version at completion, none for a handle that was not live then. -/
structure Assay where
  seam : Nat
  set : Nat
  tag : BitVec 115
  ctx : Nat
  meas : BitVec 64
  outs : List (Nat × Option (BitVec 64))
  lru : Nat
  deriving DecidableEq, Repr

/-- A code segment the loader has tagged (R187, R495): context, virtual address, size, its measurement, first byte first. -/
structure Seg where
  ctx : Nat
  va : Nat
  size : Nat
  meas : List Byte
  deriving DecidableEq, Repr

/-! ## Contexts and partitions -/

/-- A watchpoint (R308 to R311): handle, mode, hits; handle 0 when clear. -/
structure Watch where
  handle : Nat := 0
  mode : BitVec 7 := 0
  hits : BitVec 16 := 0
  deriving DecidableEq, Repr

/-- State of a context (R380). -/
inductive CtxSt where
  | free | active | swapped | dying
  deriving DecidableEq, Repr

/-- A context (R45, R380, R381, R494, R498): state, descriptor image, assay key, touched dies, watchpoints, IDs that await
retirement, key record, attestation COUNT, LAST and EXT. -/
structure Ctx where
  st : CtxSt := .free
  img : BitVec 512 := 0
  key : BitVec 256 := 0
  touched : BitVec 8 := 0
  watches : List Watch := List.replicate 8 {}
  keyrec : BitVec 2048 := 0
  attCount : BitVec 32 := 0
  attLast : BitVec 384 := 0
  attExt : BitVec 384 := 0
  deriving DecidableEq, Repr

/-- State of a partition (R382, R441). -/
inductive PartSt where
  | free | running | halted | swapped
  deriving DecidableEq, Repr

/-- A service entry that waits to be written (R376, R377, R434). -/
structure SvcEntry where
  kind : Nat
  arg : BitVec 64
  frame : BitVec 64
  reqno : BitVec 32
  service : BitVec 8
  ctx : Nat
  gid : Nat
  wid : Nat
  deriving DecidableEq, Repr

/-- A partition (R374, R382, R394): state, descriptor image, system registers, the package time it was halted at, entries waiting for the service ring,
launch queue, DROPS, NOCELL, and the pts that the last service entry's write carried (R113). -/
structure Part where
  st : PartSt := .free
  img : BitVec 512 := 0
  ksvcrd : BitVec 32 := 0
  ksvcwr : BitVec 32 := 0
  ksvcarm : Bool := true
  aging : Nat := 0
  wdog : Nat := 0x40000000
  haltAt : Nat := 0
  svc : List SvcEntry := []
  lq : List (BitVec 64) := []
  drops : Nat := 0
  nocell : Nat := 0
  wrPts : Option (BitVec 24) := none
  deriving DecidableEq, Repr

/-- A vault image (R444): partition, offset, bytes on each die, groups and clusters as saved; ages of bins and pauses stand in place of
their start cycles. -/
structure VaultImg where
  part : Nat
  off : Nat
  dies : List (Nat × Nat)
  groups : List Group
  clusters : List (Nat × Cluster)
  deriving DecidableEq, Repr

/-! ## Moves, fabric, guests -/

/-- The move engine (R419 to R425): STATE, RESULT, OP, SIZE, source, destination, chunks done, region and its new entry,
and whether the next chunk is blocked. -/
structure Move where
  state : Nat := 0
  result : Nat := 0
  op : Nat := 0
  size : Nat := 0
  src : Nat := 0
  dst : Nat := 0
  chunks : Nat := 0
  region : Nat := 0
  entry : BitVec 16 := 0
  blocked : Bool := false
  deriving DecidableEq, Repr

/-- A fabric port (R449 to R454, R462, R463): wavelengths with light and active lists of both directions, whether each direction is up and
the port restripes, data link replays, flits not acknowledged, invocation counter, key index, KSTATE, when a replay must have
started, and the corrected symbols counted (R450). -/
structure Port where
  txLit : BitVec 32 := 0
  rxLit : BitVec 32 := 0
  txAct : BitVec 32 := 0
  rxAct : BitVec 32 := 0
  txUp : Bool := false
  rxUp : Bool := false
  restripe : Bool := false
  replays : BitVec 32 := 0
  unacked : Nat := 0
  ctr : Nat := 0
  keyIdx : Nat := 0
  kstate : BitVec 2 := 3
  replayAt : Option Nat := none
  corrected : Nat := 0
  deriving DecidableEq, Repr

/-- A remote pair at the fabric ingress (R456): run, expected number, held packets, time of the last arrival. -/
structure RPair where
  key : PairKey
  run : BitVec 8
  expect : BitVec 16
  held : List FabPacket
  seen : Nat
  deriving DecidableEq, Repr

/-- What one accelerator sends another beside requests (R455 to R458): an answer with data and, for a whole block, its descriptor; an
acknowledgement; a refusal; a NACK, with or without resync; the number a pair expects; SYNC; the freeing of a pair. -/
inductive FabBody where
  | data (bytes : List Byte) (desc : Option (BitVec 16))
  | done
  | refused
  | nack (resync : Bool)
  | expect (run : BitVec 8) (e : BitVec 16)
  | sync (run : BitVec 8) (low : BitVec 16)
  | pairFree
  deriving DecidableEq, Repr

/-- A message to an accelerator: the pair it concerns and, of an answer, the tag of its request. -/
structure FabMsg where
  dst : Nat
  key : PairKey
  tag : Option (BitVec 64) := none
  body : FabBody
  deriving DecidableEq, Repr

/-- A fabric incident under recovery (R466): the ports it affects, those still being striped again, the pairs still to resynchronise, and
what its record counts. -/
structure Incident where
  kind : Nat
  site : Nat
  start : Nat
  ports : List Nat := []
  striping : List Nat := []
  pending : List (Nat × Nat × Dest) := []
  replay : Nat := 0
  pairs : Nat := 0
  resent : Nat := 0
  deriving DecidableEq, Repr

/-- A GPOST command at a site (R344, R476, R477, R485). -/
inductive GuestSt where
  | queued | outstanding | suspended | saved (token : BitVec 384) | discarded
  deriving DecidableEq, Repr

/-- `arrived`: its packet has reached the guest; `hit`: the block whose refused access suspended it (R483). -/
structure GuestCmd where
  id : Nat
  gid : Nat
  dreg : Nat
  pkt : BitVec 512
  cap : Capt
  st : GuestSt := .queued
  arrived : Bool := false
  hit : Option Nat := none
  deriving DecidableEq, Repr

/-- A grant of a site (R480): context, page, size, permissions R, W, expiry. -/
structure Grant where
  ctx : Nat
  va : Nat
  pa : Nat
  size : Nat
  r : Bool
  w : Bool
  expiry : Nat
  deriving DecidableEq, Repr

/-- A duty of a guest with a deadline (R484 to R486): an invalidation by number with what it covers, a recall of a handle (of a WSET:
R483), a PREEMPT of a command. -/
inductive Duty where
  | inv (num : BitVec 64) (scope : Nat) (ctx va size : Nat)
  | recall (ctx handle : Nat) (watch : Bool)
  | preempt (cmd : Nat)
  deriving DecidableEq, Repr

/-- A Swephor site (R474 to R488): STATE (0 empty, 1 training, 2 up, 3 fenced, 4 resetting), LASTREF, VIOL, PROTERR, FENCES,
commands, grant filter, guest pts, guest claims, duties with their deadlines, packets sent, the last answer to a read (none: CXL poison),
accesses whose watch check is suppressed as (context, block), and WATCHED refusals as (context, watch, handle, address, access kind) (R483). -/
structure Site where
  st : Nat := 0
  since : Nat := 0
  locked : Bool := false
  lastRef : BitVec 48 := 0
  viol : BitVec 16 := 0
  proterr : BitVec 16 := 0
  fences : BitVec 8 := 0
  cmds : List GuestCmd := []
  grants : List Grant := []
  pts : BitVec 24 := 0
  claims : List Claim := []
  duties : List (Duty × Nat) := []
  invNo : BitVec 64 := 0
  sent : List (BitVec 512) := []
  answer : Option (List Byte) := none
  pass : List (Nat × Nat) := []
  watched : List (Nat × Nat × Nat × Nat × Nat) := []
  deriving DecidableEq, Repr

/-- The management core (R370, R501): its SELFTICK register (R49; log entry 31), its uniform registers and modes and its one thread (PC, predicates), as a warp of one
thread, its channel state and its SRAM, which its fetches read. -/
structure Mgmt where
  w : Warp := { wid := 0, lane := 0, wslot := 0, s := List.replicate 64 0 }
  th : Thread := { tid := 0, slot := 0, wid := 0, pc := 0, v := [] }
  pairs : List Pair := []
  joins : List (Nat × Nat × List Nat) := []
  sram : Memory := []
  selftick : Nat := 256
  fault : Option FaultRec := none
  deriving DecidableEq, Repr

/-- What the capability list reports of this module, fixed at bring-up (R9, R384, R385). -/
structure Caps where
  ports : List Nat := []
  sites : List (Nat × BitVec 64) := []
  fenced : List Nat := []
  accel : BitVec 10 := 0
  deriving DecidableEq, Repr

/-! ## Who issues -/

/-- The agent that executes instructions (R369, R370, R409). -/
inductive Agent where
  | none
  | warp (gid wid : Nat)
  | foreman (cl : Nat)
  | mgmt
  deriving DecidableEq, Repr

/-- The issue under way: agent, the path's PC, its threads in ascending slot order, whether a load of it is deferred
(its result comes by MEMORY_RESPONSE, and its stores travel as packets), and, once it has ended, whether it stalled. The model's own record of which agent's instruction `exec` executes. -/
structure Cur where
  agent : Agent := .none
  pc : BitVec 64 := 0
  path : List Nat := []
  defer : Bool := false
  stalled : Bool := false
  deriving DecidableEq, Repr

/-- What moves next: an issue of a lane, a foreman or the management core, an event, the passing of core cycles, or the
replacement of a cached translation or L1 sector for space (R416, R70). -/
inductive Turn where
  | issue (core lane : Nat) (defer : Bool)
  | foreman (cl : Nat)
  | mgmt
  | event (i : Instr)
  | tick (cycles : Nat)
  | dropTlb (n : Nat)
  | dropL1 (core n : Nat)
  deriving DecidableEq, Repr

/-- The machine. -/
structure State where
  /-- agenda: the model's own (log entry 1): what moves next, oldest first; reset DESIGN CHOICE empty [1] -/
  agenda : List Turn := []
  /-- evs: the model's own (log entry 8): events of the step under way that counters count; reset DESIGN CHOICE empty [8] -/
  evs : List Ev := []
  /-- cur: the model's own (log entry 1): the issue under way; reset DESIGN CHOICE none [1] -/
  cur : Cur := {}
  /-- free: the model's own (log entry 2): counter of free values drawn; reset DESIGN CHOICE 0 [2] -/
  free : Nat := 0
  /-- nextId: the model's own (log entry 1): next number for commands, packets, records; reset DESIGN CHOICE 1 [1] -/
  nextId : Nat := 1
  /-- now: time since device reset in quarters of a package tick; package time (64 bits) is a quarter of it; R6, R244
  (00, 08); reset DESIGN CHOICE 0 [3] -/
  now : Nat := 0
  /-- clocks: for a die whose core clock has been changed, its core cycles and the time at that change, and the quarter
  ticks of one core cycle since; R6, R504 (00, 22); reset 0 cycles, nominal clock (R244) -/
  clocks : SMap (Nat × Nat × Nat) := []
  /-- memory: bytes by physical address; R410 (17); reset zero (R502) -/
  mem : Memory := []
  /-- block descriptors: 16 bits per 64-byte block; R77, R78 (02); reset RAW (R502) -/
  desc : SMap (BitVec 16) := []
  /-- poisoned blocks of memory: one mark per 64-byte block; R490, R519 (22); reset none -/
  poison : List Nat := []
  /-- execute tags: valid bit and 10-bit CTXID per 64 KiB chunk; R496 (22); reset not valid -/
  tags : SMap Nat := []
  /-- region table: 16 bits per region; R65, R420 (02, 17); reset DESIGN CHOICE 0, INTLV [4] -/
  region : SMap (BitVec 16) := []
  /-- region table generation GEN: 16 bits; R425 (17); reset 0 -/
  gen : BitVec 16 := 0
  /-- key table: KEYID 7 bits per region; R492 (22); reset 64 -/
  keyid : SMap (BitVec 7) := []
  /-- regions being erased (BUSY); R492, R493 (22); reset 0 -/
  busy : List Nat := []
  /-- move engine: MOVECMD, MOVESTAT; R419 (17); reset 0 -/
  move : Move := {}
  /-- accesses queued at their homes, oldest first; R422, R427, R493 (17, 22); reset none -/
  queued : List Queued := []
  /-- pages under forwarding: chunk to destination chunk; R423 (17); reset none -/
  forward : SMap Nat := []
  /-- TLBs of cores, engines and dies: 64, 128 and 2,048 entries; R415 (17); reset none -/
  tlb : List TlbEntry := []
  /-- clusters; R1 (00) and Cluster's fields; reset each field as Cluster's -/
  clusters : SMap Cluster := []
  /-- resident groups; R33 (01); reset none -/
  groups : SMap Group := []
  /-- gangs; R34 (01); reset none -/
  gangs : List Gang := []
  /-- live handles; R137 (05); reset none -/
  handles : List Handle := []
  /-- fragments; R141, R142 (05); reset none -/
  frags : List Frag := []
  /-- last VER issued: 64 bits; R157 (05); reset none issued -/
  lastVer : Option (BitVec 64) := none
  /-- channel packets not yet acknowledged: retention buffers, planes, ports; R125 (04); reset none -/
  packets : List Packet := []
  /-- carry: the pts that the last release write of a 16-byte unit carries; R113 (04); reset none -/
  carry : SMap (BitVec 24) := []
  /-- windows onto scratch that GRESUME or GKILL has ended: context, address, size; R196 (06); reset none -/
  deadWin : List (Nat × BitVec 64 × Nat) := []
  /-- outstanding loads and atomics; R209, R461 (07, 19); reset none -/
  loads : List OutLoad := []
  /-- task records queued at seams, in spill and at HUB; R181, R182 (06); reset none -/
  queue : List QRec := []
  /-- reservations; R406 (16); reset none -/
  reserves : List Reserve := []
  /-- placement passes asked for and not yet run, by 64 × die + partition; R405 (16); reset none -/
  passes : SMap Nat := []
  /-- the placement pass under way on each die; R405 (16); reset none -/
  passOn : SMap PassOn := []
  /-- latest timestamp of the host's writes: 24 bits; the model's own (log entry 60), R130, R151 (04, 05); reset DESIGN CHOICE 0 [60] -/
  hostPts : BitVec 24 := 0
  /-- launches accepted and not ended; R396 (16); reset none -/
  launches : List Launch := []
  /-- assay entries; R185 (06); reset none -/
  assay : List Assay := []
  /-- loader measurements of tagged code segments; R187, R495 (06, 22); reset none -/
  segs : List Seg := []
  /-- contexts 0-1,023; R380 (15); reset free -/
  ctxs : SMap Ctx := []
  /-- partitions 0-63; R382, R441 (15, 18); reset free -/
  parts : SMap Part := []
  /-- vault images; R390, R444 (15, 18); reset none -/
  vault : List VaultImg := []
  /-- ACCELID: 10 bits; R374 (15); reset 0 -/
  accelId : BitVec 10 := 0
  /-- RTIMEOUT: 64 bits; R374 (15); reset 0x0000_0000_001E_8480 -/
  rtimeout : BitVec 64 := 0x1E8480
  /-- fabric ports 0-95: status registers and data link state; R463 (19); reset STATE 0, KSTATE 3, others 0 -/
  ports : SMap Port := []
  /-- LASERSTAT PRESENT: 16 bits; R464 (19); reset DESIGN CHOICE 0 [5] -/
  light : BitVec 16 := 0
  /-- LASERSTAT LOST: 16 bits; R464 (19); reset 0 -/
  lost : BitVec 16 := 0
  /-- fabric incidents under recovery; R466 (19); reset none -/
  incidents : List Incident := []
  /-- fabric ingress pair table; R456 (19); reset none -/
  rpairs : List RPair := []
  /-- kept results of remote atomics, by pair, number, value and home die; R458 (19); reset none -/
  kept : List (PairKey × BitVec 16 × List Byte × Nat) := []
  /-- messages sent to other accelerators, oldest first (an output); R455 to R458 (19); reset none -/
  fabOut : List FabMsg := []
  /-- runs of pairs freed at the source, by (group, channel, destination), so that RUN advances; R455 (19); reset none -/
  runs : List (Nat × Nat × Dest × BitVec 8) := []
  /-- export table: 4,096 entries of 256 bits; R459 (19); reset 0 -/
  exports : SMap (BitVec 256) := []
  /-- EXPREFUSE COUNT: 32 bits; R460 (19); reset 0 -/
  expCount : BitVec 32 := 0
  /-- EXPREFUSE LASTSRC: 10 bits; R460 (19); reset 0 -/
  expSrc : BitVec 10 := 0
  /-- HEVBASE: 64 bits; R465 (19); reset 0 -/
  hevBase : BitVec 64 := 0
  /-- HEVPTR WR: 16 bits; R465 (19); reset 0 -/
  hevWr : BitVec 16 := 0
  /-- HEVPTR RD: 16 bits; R465 (19); reset 0 -/
  hevRd : BitVec 16 := 0
  /-- HEVPTR DROPS: 16 bits; R465 (19); reset 0 -/
  hevDrops : BitVec 16 := 0
  /-- host event SEQ: 16 bits; R466 (19); reset 0 -/
  hevSeq : BitVec 16 := 0
  /-- Swephor sites 0 and 1: status registers and site state; R488 (21); reset STATE 0 empty, others 0 -/
  sites : SMap Site := []
  /-- MOVECMD: 256 bits; R419 (17); reset DESIGN CHOICE 0 [48] -/
  moveCmd : BitVec 256 := 0
  /-- DIESTAT lost-die mask: 8 bits; R436 (18); reset 0 -/
  diestat : BitVec 8 := 0
  /-- fenced clusters; R3, R385 (00, 15); reset DESIGN CHOICE none [5] -/
  fenced : List Nat := []
  /-- capability list contents; R384, R385 (15); reset DESIGN CHOICE full module, no lit port, no guest [5] -/
  caps : Caps := {}
  /-- DEVSTAT FWSVN: 32 bits; R501 (22); reset DESIGN CHOICE 0 [3] -/
  fwsvn : BitVec 32 := 0
  /-- DEVSTAT MCRESETS: 16 bits; R501 (22); reset 0 -/
  mcresets : BitVec 16 := 0
  /-- DEVSTAT RECOVERY: 1 bit; R501 (22); reset 0 -/
  recovery : Bool := false
  /-- DEVSTAT PHASE: 4 bits; R501, R502 (22); reset 15, READY (R502) -/
  phase : BitVec 4 := 15
  /-- fuse counter of security versions and module flash image: R499, R500 (22); reset DESIGN CHOICE 0 and empty [3] -/
  fuses : BitVec 64 := 0
  /-- module flash image; R499, R500 (22); reset DESIGN CHOICE empty [3] -/
  flash : List Byte := []
  /-- management core; R370 (15); reset DESIGN CHOICE PC 0, registers 0, SRAM zero [6] -/
  mgmt : Mgmt := {}
  /-- MSI-X vectors raised, oldest first (an output); R503 (22); reset none -/
  msix : List Nat := []
  /-- last answer to a host read or SPDM request (an output); R130, R498 (04, 22); reset none -/
  hostOut : List Byte := []
  deriving DecidableEq, Repr

/-- The machine right after reset, READY (R502). -/
def State.reset : State := {}

/-! ## How a step can stop -/

/-- The machine stops. Raised only where the state names no agent to execute for, which no run reaches: safe. -/
inductive Fault where
  /-- `exec` of a program instruction in a state whose issuing agent does not exist or has no thread on its path
  (raised by Ops.issue): safe, no hardware state corresponds. -/
  | noAgent
  deriving DecidableEq, Repr

/-- An instruction with no meaning. -/
inductive Refusal where
  /-- An instruction not yet modelled, by its mnemonic (raised by exec's arm): safe. -/
  | notModelled (mnemonic : String)
  deriving DecidableEq, Repr

end Sys2Proof.Machine
end

