-- ==== Sys2Proof/Machine/Ops.lean ====
section
/-!
DEFINITION. The named operations over the state: time, the agents and their registers, the issue of an instruction (checks of
R216, stalls, retirement), and the ONE operation that takes a fault (R194, R435, R501), with the return from it beside it.
-/
namespace Sys2Proof.Machine
open Sys2Proof

abbrev Out := Host.Outcome State Fault Refusal

/-! ## Time (R6) -/

/-- Package time: four quarter ticks a package tick. -/
def State.ptime (s : State) : Nat := s.now / 4

/-- Quarter ticks of one core cycle of a die (R6, R504). -/
def State.cycleLen (s : State) (die : Nat) : Nat :=
  match s.clocks.find? die with
  | some (_, _, per) => per
  | none => 1

/-- Core cycles a die has executed since device reset (R244). -/
def State.cyclesOf (s : State) (die : Nat) : Nat :=
  match s.clocks.find? die with
  | some (base, since, per) => base + (s.now - since) / per
  | none => s.now

/-- `n` core cycles of a die pass. -/
def State.pass (s : State) (die n : Nat) : State := { s with now := s.now + n * s.cycleLen die }

/-! ## Numbers of groups, cores, clusters (R47) -/

def gidDie (g : Nat) : Nat := g / 16384 % 8
def gidCl (g : Nat) : Nat := g / 16384 % 8 * 24 + g / 512 % 32
def gidCore (g : Nat) : Nat := gidCl g * 4 + g / 128 % 4
/-- GROUPID of group number `n` on core `c` (0–767). -/
def gidOf (c n : Nat) : Nat := c / 96 * 16384 + c % 96 / 4 * 512 + c % 4 * 128 + n

/-- Channel state of a foreman and of the management core is held under numbers above every GROUPID (R293). -/
def foreGid (cl : Nat) : Nat := 131072 + cl
def mgmtGid : Nat := 131072 + 192

/-! ## Lookups and updates -/

def State.cluster (s : State) (c : Nat) : Cluster := s.clusters.getD {} c
def State.updCluster (s : State) (c : Nat) (f : Cluster → Cluster) : State :=
  { s with clusters := s.clusters.insert c (f (s.cluster c)) }

def State.group? (s : State) (g : Nat) : Option Group := s.groups.find? g
def State.updGroup (s : State) (g : Nat) (f : Group → Group) : State :=
  { s with groups := match s.groups.find? g with
      | some x => s.groups.insert g (f x)
      | none => s.groups }

/-- Changes every thread of a group. -/
def State.mapThreads (s : State) (g : Nat) (f : Thread → Thread) : State :=
  s.updGroup g fun x => { x with threads := x.threads.map f }

def State.part (s : State) (p : Nat) : Part := s.parts.getD {} p
def State.updPart (s : State) (p : Nat) (f : Part → Part) : State :=
  { s with parts := s.parts.insert p (f (s.part p)) }

def State.context (s : State) (c : Nat) : Ctx := s.ctxs.getD {} c
def State.updCtx (s : State) (c : Nat) (f : Ctx → Ctx) : State :=
  { s with ctxs := s.ctxs.insert c (f (s.context c)) }

def Cluster.core (c : Cluster) (n : Nat) : Core := c.cores.getD n {}
def Cluster.updCore (c : Cluster) (n : Nat) (f : Core → Core) : Cluster :=
  { c with cores := c.cores.set n (f (c.core n)) }
/-- Updates core 0–767. -/
def State.updCore (s : State) (core : Nat) (f : Core → Core) : State :=
  s.updCluster (core / 4) fun c => c.updCore (core % 4) f
def State.core (s : State) (core : Nat) : Core := (s.cluster (core / 4)).core (core % 4)

def Group.warp? (g : Group) (w : Nat) : Option Warp := g.warps.find? (fun x => x.wid == w)
def Group.updWarp (g : Group) (w : Nat) (f : Warp → Warp) : Group :=
  { g with warps := updFirst (fun x => x.wid == w) f g.warps }
def Group.thread? (g : Group) (t : Nat) : Option Thread := g.threads.find? (fun x => x.tid == t)
def Group.updThread (g : Group) (t : Nat) (f : Thread → Thread) : Group :=
  { g with threads := updFirst (fun x => x.tid == t) f g.threads }

/-- The threads of a warp that are on a path. -/
def Group.onPath (g : Group) (wid : Nat) : List Thread := g.threads.filter fun t => t.wid == wid && t.run == .path

/-- The level of a context (R369, R380): 0 U, 1 K. -/
def Ctx.level (c : Ctx) : Nat := fld c.img 109 108

/-- The partition that holds a cluster and is not swapped out (R382, R442); 64 when none does. -/
def State.partOfCluster (s : State) (cl : Nat) : Nat :=
  match List.find? (fun (p : Nat × Part) => p.2.st != .free && p.2.st != .swapped && bit p.2.img (320 + cl)) s.parts with
  | some (p, _) => p
  | none => 64

/-- A partition's K context (R382). -/
def Part.kctx (p : Part) : Nat := fld p.img 63 54

/-- A fresh number for a command, packet or record. -/
def State.fresh (s : State) : Nat × State := (s.nextId, { s with nextId := s.nextId + 1 })

/-- A fresh free value's number. -/
def State.draw (s : State) : Nat × State := (s.free, { s with free := s.free + 1 })

/-- Raises an MSI-X vector (R503). -/
def State.raiseMsi (s : State) (v : Nat) : State := { s with msix := s.msix ++ [v] }

/-- An event that counters count (R506). -/
def State.note (s : State) (code core n : Nat) (owner : Option Nat) : State :=
  if n = 0 then s else { s with evs := s.evs ++ [{ code := code, core := core, n := n, owner := owner }] }

/-! ## Registers (R45, R219) -/

def Warp.rdS (w : Warp) (i : Nat) : Word64 := if i = 0 then 0 else w.s.getD i 0
def Warp.wrS (w : Warp) (i : Nat) (v : Word64) : Warp := if i = 0 then w else { w with s := w.s.set i v }
def Thread.rdV (t : Thread) (n : Nat) : Word32 := t.v.getD n 0
def Thread.wrV (t : Thread) (n : Nat) (v : Word32) : Thread := { t with v := t.v.set n v }
/-- ReadP: predicate 15 is `pt`. -/
def Thread.rdP (t : Thread) (n : Nat) : Bool := n == 15 || t.preds.getLsbD n
/-- WriteP: writes to `pt` are discarded. -/
def Thread.wrP (t : Thread) (n : Nat) (b : Bool) : Thread :=
  if n ≥ 15 then t
  else { t with preds := if b then t.preds ||| (1#15 <<< n) else t.preds &&& ~~~(1#15 <<< n) }
/-- SetFlag. -/
def Thread.setFlag (t : Thread) (f : Flags) : Thread := { t with fpflags := t.fpflags ||| f }

/-- GuardTrue (R208). -/
def guardTrue (w : Word2) (t : Thread) : Bool :=
  let a := t.rdP (fld w.ga 3 0) != bit w.ga 4
  let b := t.rdP (fld w.gb 3 0) != bit w.gb 4
  if w.gop then a || b else a && b

/-! ## The issuing agent -/

/-- What an issue acts on: the warp's registers and modes and the threads of the issuing path in ascending slot order; on
a foreman and on the management core its one thread (R215, R219, R370). -/
structure View where
  warp : Warp
  ths : List Thread
  deriving DecidableEq, Repr

/-- Who issues: cluster, core 0–767, context, partition, channel and group number, warp, level, and whether its global
addresses are physical (the management core). -/
structure Who where
  cl : Nat
  core : Nat
  ctx : Nat
  part : Nat
  gid : Nat
  wid : Nat
  level : Nat
  phys : Bool
  deriving DecidableEq, Repr

/-- The issuing agent's registers and path. -/
def view (s : State) : Option View :=
  match s.cur.agent with
  | .none => none
  | .warp g w =>
    match s.group? g with
    | none => none
    | some gr =>
      match gr.warp? w with
      | none => none
      | some wp =>
        let ths := s.cur.path.filterMap gr.thread?
        if ths.isEmpty then none else some ⟨wp, ths⟩
  | .foreman c => some ⟨(s.cluster c).fore.w, [(s.cluster c).fore.th]⟩
  | .mgmt => some ⟨s.mgmt.w, [s.mgmt.th]⟩

/-- Writes the path's threads back. -/
def Group.putThreads (g : Group) (ts : List Thread) : Group :=
  { g with threads := g.threads.map fun t => (ts.find? (fun u => u.tid == t.tid)).getD t }

/-- Writes an agent's registers and path back. -/
def putView (s : State) (v : View) : State :=
  match s.cur.agent with
  | .none => s
  | .warp g w => s.updGroup g fun gr => (gr.putThreads v.ths).updWarp w fun _ => v.warp
  | .foreman c => s.updCluster c fun cl => { cl with fore := { cl.fore with w := v.warp, th := v.ths.headD cl.fore.th } }
  | .mgmt => { s with mgmt := { s.mgmt with w := v.warp, th := v.ths.headD s.mgmt.th } }

/-- A partition's level for its groups, and who the issuing agent is. A foreman uses its partition's K context, at U
(R369; the context is log entry 7). -/
def who (s : State) : Who :=
  match s.cur.agent with
  | .warp g w =>
    match s.group? g with
    | some gr => ⟨gidCl g, gidCore g, gr.ctx, gr.part, g, w, (s.context gr.ctx).level, false⟩
    | none => ⟨gidCl g, gidCore g, 0, 64, g, w, 0, false⟩
  | .foreman c => ⟨c, c * 4, (s.part (s.partOfCluster c)).kctx, s.partOfCluster c, foreGid c, 0, 0, false⟩
  | _ => ⟨192, 768, 0, 0xFF, mgmtGid, 0, 2, true⟩

def Agent.isWarp : Agent → Bool
  | .warp _ _ => true
  | _ => false

/-- An event of a core, caused by the issuing warp where there is one (R507). -/
def State.noteL1 (s : State) (code core n : Nat) : State := s.note code core n (if s.cur.agent.isWarp then some (who s).ctx else none)

/-- The die whose clock an agent runs on. -/
def Who.die (w : Who) : Nat := if w.phys then 8 else w.cl / 24

/-! ## Faults (R193, R194, R429 to R431) -/

def cIll : BitVec 8 := 0x01
def cPriv : BitVec 8 := 0x02
def cAlign : BitVec 8 := 0x03
def cXlate : BitVec 8 := 0x04
def cPerm : BitVec 8 := 0x05
def cWatch : BitVec 8 := 0x06
def cBkpt : BitVec 8 := 0x07
def cTrap : BitVec 8 := 0x08
def cPurity : BitVec 8 := 0x09
def cHandle : BitVec 8 := 0x0A
def cFormat : BitVec 8 := 0x0B
def cRing : BitVec 8 := 0x0C
def cHang : BitVec 8 := 0x0D
def cPoison : BitVec 8 := 0x0E
def cDieloss : BitVec 8 := 0x0F
def cGuest : BitVec 8 := 0x10
def cRemote : BitVec 8 := 0x11
def cQuota : BitVec 8 := 0x12

/-- What a failed check gives a fault record: code, INFO, AUX, ADDR, ACC (R430). -/
structure Flt where
  code : BitVec 8
  info : Nat := 0
  aux : BitVec 64 := 0
  addr : BitVec 64 := 0
  acc : Nat := 0
  deriving DecidableEq, Repr

/-- The first fault stays; a further one while the group parks counts in MORE (R194, R429). A parked group's record does
not change. -/
def Group.stop (g : Group) (f : FaultRec) : Group :=
  let g := if f.code = cPurity then { g with pure := g.pure.map fun p => { p with spoiled := true } } else g
  match g.life with
  | .running => { g with life := .stopping f false }
  | .stopping f0 a => { g with life := .stopping { f0 with more := min 255 (f0.more + 1) } a }
  | .parked _ => g

/-- Stops a group with a fault (R194): its warps issue nothing more; FAULT_PARK parks it. -/
def groupFault (g : Nat) (f : FaultRec) (s : State) : State :=
  s.updGroup g fun gr => gr.stop { f with time := s.ptime }

/-- Takes a fault of the issuing agent, for the thread given: the group stops (R194), the foreman stops (R435), or the
management core waits for its reset (R501). The saved PC is that of the instruction's word 0 (R429). -/
def takeFaultAt (tid slot : Nat) (f : Flt) (s : State) : State :=
  let r : FaultRec :=
    { code := f.code, info := BitVec.ofNat 32 f.info, aux := f.aux, addr := f.addr, pc := s.cur.pc, acc := BitVec.ofNat 3 f.acc, agent := 0,
      wid := (who s).wid, tid := tid, slot := slot, time := s.ptime }
  let t := match s.cur.agent with
    | .warp g w => s.updGroup g fun gr => (gr.stop r).updWarp w fun k => { k with busy := none }
    | .foreman c => s.updCluster c fun cl =>
        { cl with fore := { cl.fore with run := false, faulted := some ({ r with agent := 6 }, false, false), w := { cl.fore.w with busy := none } } }
    | .mgmt => { s with mgmt := { s.mgmt with fault := some r } }
    | .none => s
  { t with cur := {} }

/-- Takes a fault that names no thread: the lowest slot of the path (R431). -/
def takeFault (f : Flt) (s : State) : State :=
  match view s with
  | some v => match v.ths with
    | t :: _ => takeFaultAt t.tid t.slot f s
    | [] => takeFaultAt 0 0 f s
  | none => takeFaultAt 0 0 f s

/-- The return from a fault (R198, R349, R25): a parked group issues again, its fairness timers at zero, the watchdog
restarted, and the access its fault named unwatched once. What the handler changed in the frame is reloaded before
(Machine/Park.lean). -/
def resumeGroup (g : Nat) (sup : List (Nat × Nat × Nat)) (s : State) : State :=
  s.updGroup g fun gr =>
    { gr with life := .running, wdogAt := s.ptime, wdogLim := (s.part gr.part).wdog, suppress := gr.suppress ++ sup, warps := gr.warps.map fun w => { w with fair := 0 } }

/-! ## Checks at issue (R216, R217) -/

/-- AUX of an ILL record: word 1 of an extended form, word 0 of a base form (R430). -/
def illAux (op : BitVec 8) (x : Enc) : BitVec 64 :=
  let ws := encodeWords op x
  (if x.form.isBase then ws.headD 0 else ws.getD 1 0).zeroExtend 64

/-- The first check of R216 that fails for an agent at a level, with `vregs` and `sregs` registers: 0 when none does. -/
def issueOrder (agent : Agent) (level : Nat) (op : Nat) (x : Enc) (vregs sregs : Nat) : Nat :=
  let c := checkWords op x
  let uniform := !agent.isWarp
  if c = 1 then 1
  else if opPriv op && (level = 0 || (level = 1 && opMOnly op x.subN)) then 2
  else if (match agent with
    | .warp _ _ => opForemanOnly op
    | .mgmt => !(opForeman op || opPriv op)
    | _ => !opForeman op) then 3
  else if 0 < c && c < 7 then c
  else if !regsOk op x vregs sregs uniform then 7
  else c

/-- Register counts of the issuing agent (R33, R46). -/
def regCounts (s : State) : Nat × Nat :=
  match s.cur.agent with
  | .warp g _ => match s.group? g with
    | some gr => (gr.vregs, gr.sregs)
    | none => (0, 0)
  | _ => (0, 64)

/-- The fault of an instruction that fails a check of R216. -/
def orderFault (order : Nat) (op : BitVec 8) (x : Enc) : Flt :=
  if order = 2 then { code := cPriv } else { code := cIll, info := order, aux := illAux op x }

/-- An entry's own operand check (R216, R430: INFO 0). -/
def ownIll (op : Nat) (x : Enc) : Flt := { code := cIll, aux := illAux (BitVec.ofNat 8 op) x }

/-! ## Stalls -/

/-- The registers a field names: vector or uniform, first, count. -/
def clsSpan (k : Cls) (v : BitVec 8) : Option (Bool × Nat × Nat) :=
  let n := v.toNat
  let mk (nv nu : Nat) : Option (Bool × Nat × Nat) := if n < 0xC0 then some (true, n, nv) else some (false, n - 0xC0, nu)
  match k with
  | .regs m => mk m 1
  | .even => mk 2 1
  | .wide => mk 4 2
  | .vec m => mk m 1
  | .vpair => mk 2 1
  | .uni m => mk 1 m
  | _ => none

/-- Every register an instruction's fields name; CALL also v0 and v1, and a copy with `.crc` also s(D+1). -/
def regSpans (op : Nat) (x : Enc) : List (Bool × Nat × Nat) :=
  (fieldList op x).filterMap (fun p => clsSpan p.1 p.2) ++
  (if op = 0x03 then [(true, 0, 2)] else []) ++
  (if 0xB0 ≤ op && op ≤ 0xB2 && bit x.sub 2 then [(false, x.d.toNat - 0xC0 + 1, 1)] else [])

def spansMeet (a b : Bool × Nat × Nat) : Bool :=
  a.1 == b.1 && decide (a.2.1 < b.2.1 + b.2.2) && decide (b.2.1 < a.2.1 + a.2.2)

/-- Registers an outstanding access writes. -/
def OutLoad.span (l : OutLoad) : Bool × Nat × Nat :=
  if l.uni then (false, l.d.toNat - 0xC0, if l.size = 16 then 2 else 1) else (true, l.d.toNat, (l.size + 3) / 4)

/-- Instructions that end a LOOK window: branches, CALL, RET, EXIT, REFORM, WSYNC, BAR, GBAR, and any acquire or release
(R209, R134), which the completion of a barrier's phase is for TBARV and TBWAIT (R300). -/
def endsWindow (op : Nat) (x : Enc) : Bool :=
  decide (1 ≤ op ∧ op ≤ 6) || op == 0x0B || op == 0x94 || op == 0x95 || op == 0x98 || op == 0x99 || x.w2.ord != 0

/-- Whether a part has no answer yet. -/
def LoadPart.waits (p : LoadPart) : Bool := p.value.isNone && !p.failed

/-- A part of an outstanding access that reads the fabric. -/
def LoadPart.fabric (p : LoadPart) : Bool := match p.place with
  | .fabric .. => true
  | .mem _ => false

/-- An instruction waits for a pending status register (R167), and for an access of its warp that has not written its
registers, unless a LOOK window lets it pass (R209); RSTAT reads what a load of the fabric may still set (R273, R301). -/
def stalled (op : Nat) (x : Enc) (s : State) (v : View) : Bool :=
  let spans := regSpans op x
  v.warp.pend.any (fun p => spans.any (spansMeet (false, p.1, 1))) ||
  s.loads.any fun l =>
    l.gid == (who s).gid && l.wid == (who s).wid && (l.look == 0 || endsWindow op x || (op == 0x9A && l.parts.any LoadPart.fabric) || (!l.noret && spans.any (spansMeet l.span)))

/-- The lane's pointer moves to the slot after the one that issued (R409). -/
def moveLane (s : State) : State :=
  match s.cur.agent with
  | .warp g w => match (s.group? g).bind (fun gr => gr.warp? w) with
    | some wp => s.updCore (gidCore g) fun c =>
        { c with rr := c.rr.insert wp.lane ((wp.wslot + 1) % 4), turns := c.turns.insert wp.lane (s.now + 1) }
    | none => s
  | _ => s

/-- An instruction that cannot go on yet: its PC stays and it issues again. Its warp is not eligible (R19): the attempt takes no cycle and
moves no pointer; `turn` gives the cycle to another warp or leaves the lane idle. -/
def stall (s : State) : State :=
  let s := match s.cur.agent with
    | .warp g w => s.updGroup g fun gr => gr.updWarp w fun k => { k with held := true }
    | _ => s
  { s with cur := { stalled := true } }

/-- An instruction of R372 that stalls is under way: it completes before a frame or an image of its group is taken. -/
def underWay (s t : State) : State :=
  if t.cur.stalled then match s.cur.agent with
    | .warp g w => t.updGroup g fun gr => gr.updWarp w fun k => { k with busy := some s.cur.pc }
    | .foreman c => t.updCluster c fun cl => { cl with fore := { cl.fore with w := { cl.fore.w with busy := some s.cur.pc } } }
    | _ => t
  else t

/-! ## Retirement -/

/-- The next PC in sequence (R201). -/
def nextPc (x : Enc) (s : State) : BitVec 64 := s.cur.pc + BitVec.ofNat 64 (4 * x.form.words)

/-- What an issue does to its warp beside its effect: fairness timer (R22), the mark of its path's CPYM (R326). -/
def retireWarp (s : State) (v : View) (cost : Nat) : Warp :=
  let w := v.warp
  let same := v.ths.any (fun t => t.lastIssue == w.stamp)
  let tids := v.ths.map Thread.tid
  { w with
    issued := some (s.cur.pc, s.now, s.now + cost * s.cycleLen (who s).die)
    held := false
    busy := none
    fair := if same then w.fair + cost else cost
    stamp := s.now + 1
    forced := none
    fetched := []
    cpym := w.cpym.filter fun p => !p.1.any tids.contains
    drains := w.drains.filter fun p => !p.1.any tids.contains }

/-- Counts an issue (R506). -/
def noteIssue (cost : Nat) (s : State) : State :=
  if s.cur.agent.isWarp then (s.note 0x02 (who s).core 1 (some (who s).ctx)).note 0x03 (who s).core cost (some (who s).ctx) else s

/-- A group's watchdog restarts (R408). -/
def State.rewatch (s : State) (gid : Nat) : State := s.updGroup gid fun g => { g with wdogAt := s.ptime, wdogLim := (s.part g.part).wdog }

/-- The LOOK windows of a warp shrink by an instruction. -/
def State.shrinkLooks (s : State) (gid wid : Nat) : State :=
  { s with loads := s.loads.map fun l => if l.gid == gid && l.wid == wid then { l with look := l.look - 1 } else l }

/-- The end of an issue: time passes, the lane's pointer moves (R409), the watchdog restarts (R408), LOOK windows shrink. -/
def endIssue (cost : Nat) (s : State) : State :=
  { (((moveLane (noteIssue cost s)).pass (who s).die cost).rewatch (who s).gid).shrinkLooks (who s).gid (who s).wid with cur := {} }

/-- The issue follows a switch that the fairness timer forced (R22): the path that issued before stands still. -/
def forcedBefore (s : State) (v : View) : Bool :=
  let tids := v.ths.map Thread.tid
  decide (v.warp.fair ≥ 4096) && v.warp.forced.isNone &&
    (s.group? (who s).gid).any fun g => (g.onPath v.warp.wid).any fun t => t.lastIssue == v.warp.stamp && v.warp.stamp != 0 && !tids.contains t.tid

/-- Counts a forced switch (R506). -/
def noteForced (v : View) (s : State) : State := if forcedBefore s v then s.noteL1 0x24 (who s).core 1 else s

/-- Accesses of these threads at an instruction that were left unwatched for it are watched again (R312). -/
def State.watchAgain (s : State) (gid pc : Nat) (tids : List Nat) : State :=
  s.updGroup gid fun g => { g with suppress := g.suppress.filter fun e => !(e.2.1 == pc && tids.contains e.1) }

/-- An LR's suppression of forced switches lasts until its path has issued 64 instructions since (R23). -/
def Thread.countLr (t : Thread) : Option Nat := t.lr.bind fun n => if n ≥ 64 then none else some (n + 1)

/-- The threads of a path stand at a PC, and have issued at a time. -/
def goOn (pc : BitVec 64) (now : Nat) (ths : List Thread) : List Thread := ths.map fun t => { t with pc := pc, lr := t.countLr, lastIssue := now + 1 }

/-- The instruction completes: every thread of the path goes on at the next PC, after `cost` cycles. -/
def retire (x : Enc) (cost : Nat) (s : State) : State :=
  match view s with
  | none => s
  | some v =>
    let t := putView (noteForced v s) ⟨retireWarp s v cost, goOn (nextPc x s) s.now v.ths⟩
    endIssue cost (t.watchAgain (who s).gid s.cur.pc.toNat (v.ths.map Thread.tid))

/-- The issue of an instruction: the agent must exist; then the checks of R216, then stalls, then the effect. -/
def issue (op : BitVec 8) (x : Enc) (s : State) (body : View → State) : Out :=
  match view s with
  | none => .fault .noAgent
  | some v =>
    let o := issueOrder s.cur.agent (who s).level op.toNat x (regCounts s).1 (regCounts s).2
    if o ≠ 0 then .next (takeFault (orderFault o op x) s)
    else if stalled op.toNat x s v then .next (stall s)
    else .next (body v)

/-- The participating set P (R231). -/
def View.P (v : View) (x : Enc) : List Thread := v.ths.filter (guardTrue x.w2)

/-- Applies `f` to the threads of P. -/
def View.mapP (v : View) (x : Enc) (f : Thread → Thread) : View :=
  ⟨v.warp, v.ths.map fun t => if guardTrue x.w2 t then f t else t⟩

/-- Cycles of a vector-class issue (R17). -/
def vcost (x : Enc) (v : View) : Nat := max 1 (v.P x).length

end Sys2Proof.Machine
end

