-- ==== Sys2Proof/Machine/Operands.lean ====
section
/-!
DEFINITION. Operand forms: ReadOp, WriteOp, the literal (R206, R207, R219), memory operands (R212), branch offsets (R213), and the
two ways an instruction acts: once for the warp (s-class) or in each thread of P (R230, R231).
-/
namespace Sys2Proof.Machine
open Sys2Proof

/-- Whether an operand field names a uniform register (R207). -/
def isUni (f : BitVec 8) : Bool := decide (0xC0 ≤ f.toNat)

/-- ReadOp of a register field, as a number of `bits` bits (R88, R207, R219). -/
def rdOp (w : Warp) (t : Thread) (f : BitVec 8) (bits : Nat) : Nat :=
  let n := f.toNat
  if isUni f then (w.rdS (n - 0xC0)).toNat % 2 ^ bits
  else if bits = 64 then (t.rdV (n + 1)).toNat * 2 ^ 32 + (t.rdV n).toNat
  else (t.rdV n).toNat % 2 ^ bits

/-- ReadOp of B: the literal where the form has one (R206). -/
def rdB (x : Enc) (w : Warp) (t : Thread) (bits : Nat) : Nat :=
  if x.form.hasLit then x.lit.toNat % 2 ^ bits else rdOp w t x.b bits

/-- WriteOp to a vector register or an even pair, zeros in the unused high bits. -/
def Thread.wrOp (t : Thread) (f : BitVec 8) (bits r : Nat) : Thread :=
  let n := f.toNat
  if bits = 64 then (t.wrV n (BitVec.ofNat 32 r)).wrV (n + 1) (BitVec.ofNat 32 (r / 2 ^ 32))
  else t.wrV n (BitVec.ofNat 32 (r % 2 ^ bits))

/-- WriteOp to a uniform register, zeros in the unused high bits. -/
def Warp.wrOp (w : Warp) (f : BitVec 8) (bits r : Nat) : Warp :=
  w.wrS (f.toNat - 0xC0) (BitVec.ofNat 64 (r % 2 ^ bits))

/-- ReadP and WriteP of an operand field. -/
def Thread.rdPf (t : Thread) (f : BitVec 8) : Bool := t.rdP f.toNat
def Thread.wrPf (t : Thread) (f : BitVec 8) (b : Bool) : Thread := t.wrP f.toNat b

/-- A field read as a 64-bit uniform register. -/
def rdU (w : Warp) (f : BitVec 8) : Word64 := w.rdS (f.toNat - 0xC0)
def wrU (w : Warp) (f : BitVec 8) (v : Word64) : Warp := w.wrS (f.toNat - 0xC0) v

/-- B as a 64-bit uniform register or the literal. -/
def bU (x : Enc) (w : Warp) : Word64 := if x.form.hasLit then x.lit else rdU w x.b

/-! ## The two classes (R230, R231) -/

/-- The thread of P at a slot. -/
def View.atSlot (v : View) (x : Enc) (slot : Nat) : Option Thread := (v.P x).find? (fun t => t.slot == slot)

/-- What an instruction writes: a result of `bits` bits into D, and flags. With a uniform D it acts once when P is not empty, on the
values its first thread reads, and sets the flags in every thread of P. -/
def View.write (v : View) (x : Enc) (bits : Nat) (f : Warp → Thread → Nat × Flags) : View :=
  if isUni x.d then
    match v.P x with
    | [] => v
    | t :: _ =>
      let (r, fl) := f v.warp t
      let v' := v.mapP x (fun u => u.setFlag fl)
      ⟨v.warp.wrOp x.d bits r, v'.ths⟩
  else v.mapP x fun t =>
    let (r, fl) := f v.warp t
    (t.wrOp x.d bits r).setFlag fl

/-- Cycles of an instruction with destination D: one when D is uniform (R18), else one per thread of P (R17). -/
def dcost (x : Enc) (v : View) : Nat := if isUni x.d then 1 else vcost x v

/-- The instruction ends with these registers. -/
def finish (x : Enc) (cost : Nat) (s : State) (v : View) : State := retire x cost (putView s v)

/-- Changes the threads of the issuing path, or the warp, in place. -/
def mapPath (s : State) (f : Thread → Thread) : State :=
  match view s with
  | some v => putView s ⟨v.warp, v.ths.map f⟩
  | none => s

def mapWarp (s : State) (f : Warp → Warp) : State :=
  match view s with
  | some v => putView s ⟨f v.warp, v.ths⟩
  | none => s

/-- An instruction that reads registers and writes D. -/
def compute (op : BitVec 8) (x : Enc) (s : State) (bits : Nat) (f : Warp → Thread → Nat × Flags) : Out :=
  issue op x s fun v => finish x (dcost x v) s (v.write x bits f)

/-- An instruction that writes predicate D in each thread of P. -/
def computeP (op : BitVec 8) (x : Enc) (s : State) (f : Warp → Thread → Bool × Flags) : Out :=
  issue op x s fun v => finish x (vcost x v) s (v.mapP x fun t =>
    let (b, fl) := f v.warp t
    (t.wrPf x.d b).setFlag fl)

/-- An s-class instruction without operands in vector registers acts once, when P is not empty. -/
def issueS (op : BitVec 8) (x : Enc) (s : State) (body : View → State) : Out :=
  issue op x s fun v => if (v.P x).isEmpty then finish x 1 s v else body v

/-! ## Memory operands (R212, R51) -/

/-- The offset of a memory operand in bytes, `size` the bytes of one element. -/
def memOffset (x : Enc) (w : Warp) (t : Thread) (size : Nat) : Int :=
  match x.form with
  | .base => (x.b.toNat * size : Nat)
  | .ext =>
    if isUni x.b then x.b.toNat |> fun n => (w.rdS (n - 0xC0)).toInt
    else (t.rdV x.b.toNat).toInt
  | _ => x.lit.toInt

/-- A global address: base plus offset modulo 2^64 (R51). -/
def memAddr (x : Enc) (w : Warp) (t : Thread) (size : Nat) : BitVec 64 :=
  BitVec.ofInt 64 ((rdOp w t x.a 64 : Nat) + memOffset x w t size)

/-- A scratch or constant offset: a 32-bit base plus the low 32 bits of the offset, modulo 2^32 (R51, R212). -/
def memAddr32 (x : Enc) (w : Warp) (t : Thread) (size : Nat) : Nat :=
  (BitVec.ofInt 32 ((rdOp w t x.a 32 : Nat) + memOffset x w t size)).toNat

/-! ## Branch offsets (R213) -/

/-- The byte offset of BRA and CALL from their word 0. -/
def branchOff (x : Enc) : BitVec 64 :=
  match x.form with
  | .base => ((x.d ++ x.a ++ x.b.extractLsb' 0 6 : BitVec 22).signExtend 64) <<< 2
  | .ext => ((x.b ++ x.c ++ x.e : BitVec 24).signExtend 64) <<< 2
  | _ => x.lit

end Sys2Proof.Machine
end

