-- ==== Sys2Proof/Machine/Special.lean ====
section
/-!
DEFINITION. The eight special functions of R257: the exact value of the function, taken to 400 fractional bits and
rounded once under RNE. An irrational value carries a sticky remainder, so inexact is set (R257).
-/
namespace Sys2Proof.Machine

/-- Fractional bits of the fixed-point work. -/
def spB : Nat := 400

/-- π × 2^400 and ln 2 × 2^400, rounded down. -/
def spPi : Nat := 0x3243f6a8885a308d313198a2e03707344a4093822299f31d0082efa98ec4e6c89452821e638d01377be5466cf34e90c6cc0ac
def spLn2 : Nat := 0xb17217f7d1cf79abc9e3b39803f2f6af40f343267298b62d8a0d175b8baafa2be7b876206debac98559552fb4afa1b10ed2e

/-- exp(x) − Σ of the terms before `n`, for x in fixed point: the series from term `t` = x^n/n!. -/
def spExpGo (x : Nat) : Nat → Nat → Nat → Nat → Nat
  | 0, _, _, acc => acc
  | f + 1, n, t, acc => if t = 0 then acc else spExpGo x f (n + 1) (t * x / 2 ^ spB / (n + 1)) (acc + t)

/-- e^x for 0 ≤ x < 1 in fixed point. -/
def spExp (x : Nat) : Nat := spExpGo x 120 0 (2 ^ spB) 0

/-- Alternating series x − x³/3! + … (from n = 1) or 1 − x²/2! + … (from n = 0). -/
def spTrigGo (x2 : Nat) : Nat → Nat → Nat → Bool → Int → Int
  | 0, _, _, _, acc => acc
  | f + 1, n, t, neg, acc =>
    if t = 0 then acc
    else spTrigGo x2 f (n + 2) (t * x2 / 2 ^ spB / ((n + 1) * (n + 2))) (!neg) (if neg then acc - t else acc + t)

def spSin (x : Nat) : Int := spTrigGo (x * x / 2 ^ spB) 80 1 x false 0
def spCos (x : Nat) : Int := spTrigGo (x * x / 2 ^ spB) 80 0 (2 ^ spB) false 0

/-- Σ z^(2i+1)/(2i+1). -/
def spAtanhGo (z2 : Nat) : Nat → Nat → Nat → Nat → Nat
  | 0, _, _, acc => acc
  | f + 1, n, p, acc => if p = 0 then acc else spAtanhGo z2 f (n + 2) (p * z2 / 2 ^ spB) (acc + p / n)

/-- ln y for y = num/den, 1/2 ≤ y < 2, as magnitude and sign. -/
def spLn (num den : Nat) : Bool × Nat :=
  let (neg, d) := if num < den then (true, den - num) else (false, num - den)
  let z := d * 2 ^ spB / (num + den)
  (neg, 2 * spAtanhGo (z * z / 2 ^ spB) 200 1 z 0)

/-- m × 2^e in fixed point, rounded down. -/
def spFix (m : Nat) (e : Int) : Nat :=
  if e + spB ≥ 0 then m * 2 ^ (e + spB).toNat else m / 2 ^ (-(e + spB)).toNat

/-- e^(m × 2^e) as (E, n): E × 2^(n − 400) with 1 ≤ E/2^400 < 2; exponents beyond 2,000 are clamped there. -/
def spExpScaled (m : Nat) (e : Int) : Nat × Nat :=
  let x := if cmpDy m e 2000 0 = .gt then 2000 * 2 ^ spB else spFix m e
  let n := x / spLn2
  (spExp (x % spLn2), n)

/-- A value just below or just above m × 2^e in magnitude, as an inexact number. -/
def justBelow (m : Nat) (e : Int) : Nat × Int := (m * 2 ^ 64 - 1, e - 64)
def justAbove (m : Nat) (e : Int) : Nat × Int := (m * 2 ^ 64, e - 64)

/-- The special functions (R257), in opcode order. -/
inductive SpecFn where
  | rcp | rsq | exp2 | log2 | sin | cos | tanh | sigm
  deriving DecidableEq, Repr

/-- RNE rounding of an irrational value ±(m × 2^e + something below 2^e). -/
def Fmt.roundIrr (f : Fmt) (fl neg : Bool) (p : Nat × Int) : Nat × Flags := f.round .rne false fl neg p.1 p.2 true

def Fmt.one (f : Fmt) (fl neg : Bool) (e : Int) : Nat × Flags := f.round .rne false fl neg 1 e false

/-- 1/√(m × 2^e), m > 0. -/
def spRsq (f : Fmt) (fl : Bool) (m : Nat) (e : Int) : Nat × Flags :=
  let k0 := 2 * (f.mb + 8) + bitLen m
  let k : Nat := if (e + k0) % 2 = 0 then k0 else k0 + 1
  let r := isqrt (2 ^ k / m)
  f.round .rne false fl false r (-(e + k) / 2) (r * r * m ≠ 2 ^ k)

/-- 2^±(m × 2^e). -/
def spExp2 (f : Fmt) (fl neg : Bool) (m : Nat) (e : Int) : Nat × Flags :=
  if cmpDy m e 5000 0 = .gt then f.roundIrr fl false (1, if neg then -5000 else 5000)
  else
    let x := spFix m e
    let n := x / 2 ^ spB
    let fr := x % 2 ^ spB
    if fr = 0 then f.one fl false (if neg then -n else n)
    else if neg then f.roundIrr fl false (spExp ((2 ^ spB - fr) * spLn2 / 2 ^ spB), -(n : Int) - 1 - spB)
    else f.roundIrr fl false (spExp (fr * spLn2 / 2 ^ spB), (n : Int) - spB)

/-- log₂(m × 2^e), m > 0. -/
def spLog2 (f : Fmt) (fl : Bool) (m : Nat) (e : Int) : Nat × Flags :=
  let k : Int := e + bitLen m - 1
  let p := 2 ^ (bitLen m - 1)
  if m = p then f.round .rne false fl (decide (k < 0)) k.natAbs 0 false
  else
    -- y = m/p in (1, 2); above 4/3 the value is taken from 2 downwards, so that no cancellation occurs
    let (y, d, k) := if 3 * m > 4 * p then (m, 2 * p, k + 1) else (m, p, k)
    let (ln, l) := spLn y d
    let v : Int := k * (2 ^ spB : Nat) + (if ln then -((l * 2 ^ spB / spLn2 : Nat) : Int) else ((l * 2 ^ spB / spLn2 : Nat) : Int))
    f.roundIrr fl (decide (v < 0)) (v.natAbs, -(spB : Int))

/-- sin or cos of ±(m × 2^e), m > 0. -/
def spTrig (f : Fmt) (fl isCos neg : Bool) (m : Nat) (e : Int) : Nat × Flags :=
  if cmpDy m e 1 (-20) = .lt then
    if isCos then f.roundIrr fl false (justBelow 1 0) else f.roundIrr fl neg (justBelow m e)
  else
    let x := spFix m e
    let q := 2 * x / spPi
    let r := x - q * spPi / 2
    let s := if isCos then q + 1 else q
    let v : Int := if s % 2 = 0 then spSin r else spCos r
    let v : Int := if s % 4 ≥ 2 then -v else v
    f.roundIrr fl ((decide (v < 0)) != (neg && !isCos)) (v.natAbs, -(spB : Int))

/-- tanh of ±(m × 2^e), m > 0. -/
def spTanh (f : Fmt) (fl neg : Bool) (m : Nat) (e : Int) : Nat × Flags :=
  if cmpDy m e 1 (-20) = .lt then f.roundIrr fl neg (justBelow m e)
  else if cmpDy m e 200 0 = .gt then f.roundIrr fl neg (justBelow 1 0)
  else
    let (y, n) := spExpScaled m (e + 1)
    let num := y * 2 ^ n - 2 ^ spB
    let den := y * 2 ^ n + 2 ^ spB
    f.roundIrr fl neg (num * 2 ^ spB / den, -(spB : Int))

/-- 1/(1 + e^−x) of x = ±(m × 2^e), m > 0. -/
def spSigm (f : Fmt) (fl neg : Bool) (m : Nat) (e : Int) : Nat × Flags :=
  if cmpDy m e 1 (-40) = .lt then
    if neg then f.roundIrr fl false (justBelow 1 (-1)) else f.roundIrr fl false (justAbove 1 (-1))
  else if neg then
    if cmpDy m e 2000 0 = .gt then f.roundIrr fl false (1, -5000)
    else
      let (y, n) := spExpScaled m e
      f.roundIrr fl false (2 ^ (2 * spB + n) / (y * 2 ^ n + 2 ^ spB), -((spB + n : Nat) : Int))
  else if cmpDy m e 200 0 = .gt then f.roundIrr fl false (justBelow 1 0)
  else
    let (y, n) := spExpScaled m e
    f.roundIrr fl false (y * 2 ^ n * 2 ^ spB / (y * 2 ^ n + 2 ^ spB), -(spB : Int))

/-- A special function of a value read under R93, with the special values of R257. -/
def specFn (f : Fmt) (fl : Bool) (fn : SpecFn) (x : FV) : Nat × Flags :=
  match nanFirst f [x] with
  | some r => r
  | none => match fn, x with
    | .rcp, .inf n => (f.signBit n, 0)
    | .rcp, .num n m e =>
      if m = 0 then (f.infBits n, flDz)
      else
        let (q, qe, st) := divDy (f.mb + 1) 1 0 m e
        f.round .rne false fl n q qe st
    | .rsq, .inf n => if n then f.invalid else (0, 0)
    | .rsq, .num n m e => if m = 0 then (f.infBits n, flDz) else if n then f.invalid else spRsq f fl m e
    | .exp2, .inf n => if n then (0, 0) else (f.infBits false, 0)
    | .exp2, .num n m e => if m = 0 then f.one fl false 0 else spExp2 f fl n m e
    | .log2, .inf n => if n then f.invalid else (f.infBits false, 0)
    | .log2, .num n m e => if m = 0 then (f.infBits true, flDz) else if n then f.invalid else spLog2 f fl m e
    | .sin, .num n m e => if m = 0 then (f.signBit n, 0) else spTrig f fl false n m e
    | .cos, .num n m e => if m = 0 then f.one fl false 0 else spTrig f fl true n m e
    | .tanh, .inf n => f.one fl n 0
    | .tanh, .num n m e => if m = 0 then (f.signBit n, 0) else spTanh f fl n m e
    | .sigm, .inf n => if n then (0, 0) else f.one fl false 0
    | .sigm, .num n m e => if m = 0 then f.one fl false (-1) else spSigm f fl n m e
    | _, _ => f.invalid

end Sys2Proof.Machine
end

