-- ==== Sys2Proof/Machine/Flags.lean ====
section
/-!
DEFINITION. Every flag computation: Mode() (R90), the values of floating-point operands under DMODE (R93), the packed halves
(R88), and the integer and bit results, which set no flag (R246, R250).
-/
namespace Sys2Proof.Machine
open Sys2Proof

/-- The mode RMODE codes (R47). -/
def modeOfCode : Nat → Mode
  | 1 => .rtz
  | 2 => .rup
  | 3 => .rdn
  | 4 => .rna
  | _ => .rne

/-- Mode() (R90) of a MOD[7:5] field under an RMODE: the rounding mode and whether it saturates. -/
def modeHi (hi : Nat) (rmode : BitVec 3) : Mode × Bool :=
  match hi with
  | 1 => (.rne, false)
  | 2 => (.rtz, false)
  | 3 => (.rup, false)
  | 4 => (.rdn, false)
  | 5 => (.rna, false)
  | 6 => (modeOfCode rmode.toNat, true)
  | 7 => (.rne, true)
  | _ => (modeOfCode rmode.toNat, false)

/-- Mode() of an instruction issued by a warp. -/
def modeOf (x : Enc) (w : Warp) : Mode × Bool := modeHi (fld x.mod 7 5) w.rmode

/-- `.sat` of an integer instruction: MOD[7:5] 110 (R245). -/
def isSat (x : Enc) : Bool := fld x.mod 7 5 == 6

/-! ## Integers (R246, R247) -/

/-- An integer result: r mod 2^w, or Sat. -/
def intResult (ty : Ty) (sat : Bool) (r : Int) : Nat := toBits ty.bits (if sat then satTy ty r else r)

/-- An operand as an exact integer of the type. -/
def intVal (ty : Ty) (raw : Nat) : Int := intOf ty.signed ty.bits raw

/-- IDIV (R247). -/
def intDiv (ty : Ty) (sat : Bool) (a b : Int) : Nat :=
  if b = 0 then 2 ^ ty.bits - 1 else intResult ty sat (a.tdiv b)

/-- IREM (R247). -/
def intRem (ty : Ty) (a b : Int) : Nat := if b = 0 then toBits ty.bits a else toBits ty.bits (a.tmod b)

/-- Conditions of ICMP, by SUB (R245). -/
def intCmp (cc : Nat) (a b : Int) : Bool :=
  match cc with
  | 0 => decide (a = b)
  | 1 => decide (a ≠ b)
  | 2 => decide (a < b)
  | 3 => decide (a ≤ b)
  | 4 => decide (a > b)
  | _ => decide (a ≥ b)

/-! ## Bits (R250, R251) -/

def shlBits (w a n : Nat) : Nat := if n ≥ w then 0 else a * 2 ^ n % 2 ^ w
def shrBits (w a n : Nat) : Nat := if n ≥ w then 0 else a / 2 ^ n
def sarBits (w a n : Nat) : Nat := toBits w (intOf true w a / (2 ^ (min n w) : Nat))
def rotBits (w a n : Nat) : Nat := let k := n % w; (a * 2 ^ k + a / 2 ^ (w - k)) % 2 ^ w
def popBits (w a : Nat) : Nat := ((List.range w).filter a.testBit).length
def clzBits (w a : Nat) : Nat := w - bitLen a
/-- Trailing zero bits of a below bit w; w when a = 0. -/
def ctzBits : Nat → Nat → Nat
  | 0, _ => 0
  | n + 1, a => if a % 2 = 1 then 0 else 1 + ctzBits n (a / 2)
def brevBits : Nat → Nat → Nat
  | 0, _ => 0
  | n + 1, a => a % 2 * 2 ^ n + brevBits n (a / 2)

/-- BFX (R251). -/
def bfxBits (w : Nat) (signed : Bool) (a pos len : Nat) : Nat :=
  let f := a / 2 ^ pos % 2 ^ len
  if len = 0 then 0 else toBits w (intOf signed len f)

/-- BFI (R251). -/
def bfiBits (w a b pos len : Nat) : Nat :=
  (b % 2 ^ pos + a % 2 ^ len * 2 ^ pos + b / 2 ^ (pos + len) * 2 ^ (pos + len)) % 2 ^ w

/-! ## Floating point -/

/-- Applies an operation on element codes to a value of a type: to each half of a packed value (R88), flags joined. -/
def lift1 (ty : Ty) (f : Nat → Nat × Flags) (a : Nat) : Nat × Flags :=
  if ty.packed then
    let (l, p) := f (a % 2 ^ 16)
    let (h, q) := f (a / 2 ^ 16 % 2 ^ 16)
    (l + h * 2 ^ 16, p ||| q)
  else f a

def lift2 (ty : Ty) (f : Nat → Nat → Nat × Flags) (a b : Nat) : Nat × Flags :=
  if ty.packed then
    let (l, p) := f (a % 2 ^ 16) (b % 2 ^ 16)
    let (h, q) := f (a / 2 ^ 16 % 2 ^ 16) (b / 2 ^ 16 % 2 ^ 16)
    (l + h * 2 ^ 16, p ||| q)
  else f a b

def lift3 (ty : Ty) (f : Nat → Nat → Nat → Nat × Flags) (a b c : Nat) : Nat × Flags :=
  if ty.packed then
    let (l, p) := f (a % 2 ^ 16) (b % 2 ^ 16) (c % 2 ^ 16)
    let (h, q) := f (a / 2 ^ 16 % 2 ^ 16) (b / 2 ^ 16 % 2 ^ 16) (c / 2 ^ 16 % 2 ^ 16)
    (l + h * 2 ^ 16, p ||| q)
  else f a b c

/-- An operand code as a value under DMODE (R93). -/
def fpVal (ty : Ty) (w : Warp) (code : Nat) : FV := ty.fmt.read w.dmode code

/-- A rounding operation of a type on codes. -/
abbrev FOp := Fmt → Mode → Bool → Bool → FV → Nat × Flags
abbrev FOp2 := Fmt → Mode → Bool → Bool → FV → FV → Nat × Flags
abbrev FOp3 := Fmt → Mode → Bool → Bool → FV → FV → FV → Nat × Flags

/-- One, two or three operands under Mode() and DMODE (R253). -/
def fp1 (x : Enc) (w : Warp) (g : FOp) (a : Nat) : Nat × Flags :=
  let ty := x.ty
  let (m, sat) := modeOf x w
  lift1 ty (fun a => g ty.fmt m sat w.dmode (fpVal ty w a)) a

def fp2 (x : Enc) (w : Warp) (g : FOp2) (a b : Nat) : Nat × Flags :=
  let ty := x.ty
  let (m, sat) := modeOf x w
  lift2 ty (fun a b => g ty.fmt m sat w.dmode (fpVal ty w a) (fpVal ty w b)) a b

def fp3 (x : Enc) (w : Warp) (g : FOp3) (a b c : Nat) : Nat × Flags :=
  let ty := x.ty
  let (m, sat) := modeOf x w
  lift3 ty (fun a b c => g ty.fmt m sat w.dmode (fpVal ty w a) (fpVal ty w b) (fpVal ty w c)) a b c

/-- FMIN and FMAX of codes (R254). -/
def minMaxCode (ty : Ty) (w : Warp) (isMax : Bool) (a b : Nat) : Nat × Flags :=
  lift2 ty (fun a b => fMinMax ty.fmt isMax w.dmode (fpVal ty w a) (fpVal ty w b)) a b

end Sys2Proof.Machine
end

