-- ==== Sys2Proof/Machine/Mem.lean ====
section
/-!
DEFINITION. Physical memory at its homes: the physical map (R410), homes (R65, R66), forwarding and blocked chunks (R422, R423),
descriptors (R77), poison (R519), execute tags (R496), reservations (R284), and the bytes of values (R82 order).
-/
namespace Sys2Proof.Machine
open Sys2Proof

/-! ## The physical map (R410) -/

inductive Target where
  | flistad | nothing | site (n : Nat) | host
  deriving DecidableEq, Repr

def targetOf (pa : Nat) : Target :=
  if pa < 0x018000000000 then .flistad
  else if pa < 0x020000000000 then .nothing
  else if pa < 0x040000000000 then .site 0
  else if pa < 0x060000000000 then .site 1
  else if pa < 0x800000000000 then .nothing
  else .host

def isFlistad (pa : Nat) : Bool := targetOf pa == .flistad

/-- Entry of the region table that holds an address (R420). -/
def State.regionOf (s : State) (pa : Nat) : BitVec 16 := s.region.getD 0 (pa / 2 ^ 30)

/-- The home die (R65). -/
def State.homeDie (s : State) (pa : Nat) : Nat :=
  let e := s.regionOf pa
  if fld e 1 0 = 0 then (pa / 4096 % 8) ^^^ (pa / 2 ^ 30 % 8) else fld e 4 2

/-- The home stack, 0 to 15 (R65). -/
def State.homeStack (s : State) (pa : Nat) : Nat :=
  let e := s.regionOf pa
  2 * s.homeDie pa + (match fld e 1 0 with
    | 0 => pa / 2 ^ 15 % 2
    | 1 => fld e 5 5
    | _ => pa / 4096 % 2)

/-- The home L2 slice on that die (R66). -/
def homeSlice (pa : Nat) : Nat := (pa / 256 % 16) ^^^ (pa / 65536 % 16)

/-- Where an access to an address is performed while its chunk is under forwarding (R423). -/
def State.fwd (s : State) (pa : Nat) : Nat :=
  match s.forward.find? (pa / 65536) with
  | some c => c * 65536 + pa % 65536
  | none => pa

/-- The block that holds an address, after forwarding. -/
def State.blk (s : State) (pa : Nat) : Nat := s.fwd pa / 64

def State.dieLost (s : State) (die : Nat) : Bool := bit s.diestat die

/-- A guest site is populated when its STATE is not 0 (R410, R488). -/
def State.siteUp (s : State) (n : Nat) : Bool := (s.sites.getD {} n).st != 0

/-- An access waits at a blocked chunk (R422) and at a region that is being erased (R493). -/
def State.waitsAt (s : State) (pa : Nat) : Bool :=
  (s.move.blocked && pa / 65536 == s.move.src / 65536 + s.move.chunks) || (isFlistad pa && s.busy.contains (pa / 2 ^ 30))

/-- A block is poisoned, or homed on a lost die (R439). -/
def State.poisonedAt (s : State) (pa : Nat) : Bool :=
  isFlistad pa && (s.poison.contains (s.blk pa) || s.dieLost (s.homeDie (s.fwd pa)))

/-! ## Bytes -/

/-- The number whose little-endian bytes are listed. -/
def leNat : List Byte → Nat
  | [] => 0
  | b :: bs => b.toNat + 256 * leNat bs

/-- One byte of memory. -/
def State.rdByte (s : State) (pa : Nat) : Byte := SMap.getD (0 : Byte) s.mem (s.fwd pa)

/-- `n` bytes from `pa` on. -/
def State.rdBytes (s : State) (pa n : Nat) : List Byte := (List.range n).map fun i => s.rdByte (pa + i)

/-- `n` bytes as a number. -/
def State.rdNat (s : State) (pa n : Nat) : Nat := leNat (s.rdBytes pa n)

def State.wrByte (s : State) (pa : Nat) (b : Byte) : State := { s with mem := SMap.setD (0 : Byte) s.mem (s.fwd pa) b }

def State.wrCells (s : State) (cs : List (Nat × Byte)) : State := cs.foldl (fun s c => s.wrByte c.1 c.2) s

/-- Cells of a number's bytes at an address. -/
def cellsOf (pa n v : Nat) : List (Nat × Byte) := (List.range n).map fun i => (pa + i, BitVec.ofNat 8 (v / 256 ^ i))

/-- The descriptor of the block at an address; memory outside Flistad carries none and reads as RAW (R410). -/
def State.descOf (s : State) (pa : Nat) : BitVec 16 := if isFlistad pa then s.desc.getD rawDesc (s.blk pa) else rawDesc

def State.setDesc (s : State) (pa : Nat) (d : BitVec 16) : State :=
  if isFlistad pa then { s with desc := s.desc.setD rawDesc (s.blk pa) d } else s

/-! ## Marks of a block -/

/-- A context has touched the die where an address is performed (R437). -/
def State.touch (s : State) (ctx pa : Nat) : State :=
  match s.ctxs.find? ctx with
  | some c =>
    let die := s.homeDie (s.fwd pa)
    if !isFlistad pa || bit c.touched die then s
    else { s with ctxs := s.ctxs.insert ctx { c with touched := c.touched ||| (1#8 <<< die) } }
  | none => s

/-- Ends every reservation on a block (R284). -/
def State.loseResv (s : State) (blk : Nat) : State :=
  if s.groups.any (fun p => p.2.threads.any (fun t => t.resv.any (fun r => r.1 == blk))) then
    { s with groups := s.groups.map fun p =>
        (p.1, { p.2 with threads := p.2.threads.map fun t => if t.resv.any (fun r => r.1 == blk) then { t with resv := none } else t }) }
  else s

/-- Clears the execute tag of the chunk that holds an address (R496). -/
def State.clearTag (s : State) (pa : Nat) : State := { s with tags := s.tags.erase (s.fwd pa / 65536) }

def State.clearPoison (s : State) (pa : Nat) : State := { s with poison := s.poison.filter (· != s.blk pa) }
def State.setPoison (s : State) (blk : Nat) : State := if s.poison.contains blk then s else { s with poison := s.poison ++ [blk] }

/-- Sets what the last release write of the 16-byte units of some cells carries (R113). -/
def State.setCarry (s : State) (cs : List (Nat × Byte)) (p : Option (BitVec 24)) : State :=
  { s with carry := cs.foldl (fun m c => match p with
      | some v => m.insert (s.fwd c.1 / 16) v
      | none => m.erase (s.fwd c.1 / 16)) s.carry }

/-- Cells cover a whole block. -/
def coversBlock (cs : List (Nat × Byte)) : Bool := (List.range 64).all fun i => cs.any fun c => c.1 % 64 == i

/-! ## Park frames and their scratch windows (R196, R62) -/

/-- Writes bytes of one block of an allocation, with the descriptor action; a whole-block write clears poison (R519). -/
def Scratch.put (c : Scratch) (blk : Nat) (cs : List (Nat × Byte)) (da : DescAct) : Scratch :=
  { c with
    bytes := cs.foldl (fun m p => SMap.setD (0 : Byte) m p.1 p.2) c.bytes
    desc := match da with
      | .raw => c.desc.setD rawDesc blk rawDesc
      | .put d => c.desc.setD rawDesc blk d
      | .keep => c.desc
    poison := if coversBlock cs then c.poison.filter (· != blk) else c.poison }

/-- The written frame of a parked group: context address, physical address of each 64 KiB unit, size. -/
def Group.frameRun (g : Group) : Option (BitVec 64 × List Nat × Nat) :=
  match g.life with
  | .parked p => p.frame
  | _ => none

/-- Physical address of a byte of a frame. -/
def frameByteAt (units : List Nat) (o : Nat) : Nat := units.getD (o / 65536) 0 + o % 65536

/-- The group whose written frame holds a physical address, with the offset in it and the frame's size. -/
def State.frameOff (s : State) (pa : Nat) : Option (Group × Nat × Nat) :=
  let a := s.fwd pa
  s.groups.findSome? fun p => match p.2.frameRun with
    | some (_, us, size) => (us.findIdx? fun u => decide (u ≤ a ∧ a < u + 65536)).bind fun i =>
        let o := i * 65536 + (a - us.getD i 0)
        if o < size then some (p.2, o, size) else none
    | none => none

/-- A write of one block of a frame's scratch window reaches the allocation (R62, R196). -/
def State.winPut (s : State) (place : Nat) (cs : List (Nat × Byte)) (da : DescAct) : State :=
  match s.frameOff place with
  | some (g, o, size) =>
    let win := size - g.scr.size
    if win ≤ o then
      let b := (o - win) / 64
      s.updGroup g.gid fun g => { g with scr := g.scr.put b (cs.map fun c => (b * 64 + c.1 % 64, c.2)) da }
    else s
  | none => s

/-- Writes bytes of one block of a group's scratch; a parked group's window shows them. -/
def State.putScr (s : State) (gid blk : Nat) (cs : List (Nat × Byte)) (da : DescAct) : State :=
  let s1 := s.updGroup gid fun g => { g with scr := g.scr.put blk cs da }
  match (s.group? gid).bind fun g => g.frameRun.map fun r => (r.2.1, r.2.2 - g.scr.size) with
  | some (us, win) =>
    let base := frameByteAt us (win + blk * 64)
    let s2 := s1.wrCells (cs.map fun c => (base + c.1 % 64, c.2))
    let s3 := if coversBlock cs then s2.clearPoison base else s2
    match da with
    | .raw => s3.setDesc base rawDesc
    | .put d => s3.setDesc base d
    | .keep => s3
  | none => s1

/-- Bytes and descriptor of one block reach its home: the execute tag is cleared first, a poisoned block takes only a write that
covers it (R519), and the descriptor changes as R77 gives. -/
def State.homePut (s : State) (place : Nat) (cs : List (Nat × Byte)) (da : DescAct) : State :=
  if s.poisonedAt place && !(coversBlock cs && !s.dieLost (s.homeDie (s.fwd place))) then s
  else
    let s := if cs.isEmpty then s else s.clearTag place
    let s := if coversBlock cs then s.clearPoison place else s
    let s := (s.winPut place cs da).wrCells cs
    match da with
    | .raw => s.setDesc place rawDesc
    | .put d => s.setDesc place d
    | .keep => s

/-- A write of bytes of one block performed at its home: it also ends reservations on the block (R284) and sets what its locations
carry (R113). -/
def State.homeWrite (s : State) (place : Nat) (cs : List (Nat × Byte)) (da : DescAct) (pts : Option (BitVec 24)) : State :=
  if s.poisonedAt place && !(coversBlock cs && !s.dieLost (s.homeDie (s.fwd place))) then s
  else (if cs.isEmpty then s else (s.loseResv (s.blk place)).setCarry cs pts).homePut place cs da

end Sys2Proof.Machine
end

