-- ==== Sys2Proof/Machine/Claims.lean ====
section
/-!
DEFINITION. The directory and the L1s: logical time (R144, R145, R154), versions (R157, R158), fragments (R141 to R143), recalls
and write-back (R149, R153), plain accesses (R151), L1 sectors (R68 to R75, R105), and loads under claims (R146, R147, R150).
-/
namespace Sys2Proof.Machine
open Sys2Proof

/-! ## Logical time -/

/-- `a` is later than `b` (R145). -/
def tsLater (a b : BitVec 24) : Bool :=
  let d := (a - b).toNat
  decide (1 ≤ d ∧ d ≤ 2 ^ 23 - 1)

/-- max(a, b) (R145). -/
def tsMax (a b : BitVec 24) : BitVec 24 := if tsLater a b then a else b

/-- The later of two timestamps that may be absent. -/
def tsJoin : Option (BitVec 24) → Option (BitVec 24) → Option (BitVec 24)
  | some a, some b => some (tsMax a b)
  | a, none => a
  | none, b => b

def tsMin (a b : BitVec 24) : BitVec 24 := if tsLater a b then b else a

/-- A cluster is present: neither fenced nor on a lost die (R144). -/
def State.present (s : State) (cl : Nat) : Bool := !s.fenced.contains cl && !s.dieLost (cl / 24)

/-- The clocks that count in Pmin: the present clusters' and the guests' (R154, R481). -/
def State.clocksOfPmin (s : State) : List (BitVec 24) :=
  ((List.range 192).filter s.present).map (fun c => (s.cluster c).pts) ++
    (s.sites.filter (fun p => p.2.st == 2)).map (fun p => p.2.pts)

/-- Pmin (R154). -/
def State.pmin (s : State) : BitVec 24 :=
  match s.clocksOfPmin with
  | [] => 0
  | p :: ps => ps.foldl tsMin p

/-- The latest pts (R154). -/
def State.pmax (s : State) : BitVec 24 :=
  match s.clocksOfPmin with
  | [] => 0
  | p :: ps => ps.foldl tsMax p

/-- Issue(t) (R157): the first VER since reset may be 0. -/
def State.issueVer (s : State) (t : BitVec 24) : BitVec 64 × State :=
  let v : Nat := match s.lastVer with
    | none => t.toNat
    | some l =>
      let cand := l.toNat / 2 ^ 24 * 2 ^ 24 + t.toNat
      if cand > l.toNat then cand else cand + 2 ^ 24
  (BitVec.ofNat 64 v, { s with lastVer := some (BitVec.ofNat 64 v) })

/-! ## Fragments -/

def State.frag? (s : State) (pa : Nat) : Option Frag :=
  if isFlistad pa then s.frags.find? (fun f => f.blocks.contains (s.blk pa)) else none

def State.updFrag (s : State) (id : Nat) (f : Frag → Frag) : State :=
  { s with frags := updFirst (fun x => x.id == id) f s.frags }

/-- A cluster's claim for a context on a fragment. -/
def Cluster.claim? (c : Cluster) (frag ctx : Nat) : Option Claim := c.claims.find? (fun x => x.frag == frag && x.ctx == ctx)

/-- Marks a claim used now. -/
def State.useClaim (s : State) (cl frag ctx : Nat) : State :=
  (s.updCluster cl fun c => { c with claims := updFirst (fun x => x.frag == frag && x.ctx == ctx) (fun x => { x with used := s.now }) c.claims }).updFrag
    frag fun f => if f.holder == some (.cluster cl, ctx) then { f with used := true } else f

/-- The version of a handle (R158). -/
def State.handleVer (s : State) (h : Handle) : BitVec 64 :=
  (s.frags.filter (fun f => f.blocks.any h.blocks.contains)).foldl (fun v f => if v.toNat < f.ver.toNat then f.ver else v) 0

/-! ## L1 (R68, R72) -/

/-- The core whose L1 holds a line: in a fused cluster core PA[9:8] (R72). -/
def State.l1Core (s : State) (core pa : Nat) : Nat :=
  if (s.cluster (core / 4)).fused then core / 4 * 4 + pa / 256 % 4 else core

/-- A context's sector of a block: no instruction reads or invalidates another's (R443). -/
def State.l1Find (s : State) (core ctx pa : Nat) : Option L1Sec :=
  (s.core (s.l1Core core pa)).l1.find? (fun x => x.ctx == ctx && x.blk == s.blk pa)

/-- Drops a context's sector. -/
def State.l1Drop (s : State) (core ctx pa : Nat) : State :=
  let b := s.blk pa
  if (s.l1Find core ctx pa).isNone then s
  else s.updCore (s.l1Core core pa) fun c => { c with l1 := c.l1.filter (fun x => !(x.ctx == ctx && x.blk == b)) }

/-- Fills a sector; the L1 holds 4,096 of them, and the oldest leaves for space. -/
def State.l1Fill (s : State) (core pa : Nat) (sec : L1Sec) : State :=
  (s.noteL1 0x21 (s.l1Core core pa) 1).updCore (s.l1Core core pa) fun c => { c with l1 := (sec :: c.l1.filter (fun x => !(x.ctx == sec.ctx && x.blk == sec.blk))).take 4096 }

/-- Bytes of a block with some cells replaced. -/
def blkPut (data : BitVec 512) (cs : List (Nat × Byte)) : BitVec 512 :=
  cs.foldl (fun (d : BitVec 512) (c : Nat × Byte) =>
    let k := 8 * (c.1 % 64)
    (d &&& ~~~((0xFF#512) <<< k)) ||| ((c.2.zeroExtend 512) <<< k)) data

/-- A byte of a block. -/
def blkByte (data : BitVec 512) (i : Nat) : Byte := data.extractLsb' (8 * i) 8

/-- `n` bytes of a block from `i` on, as a number. -/
def blkNat (data : BitVec 512) (i n : Nat) : Nat := data.toNat / 256 ^ i % 256 ^ n

/-- Whether a cluster holds a claim for a context on the block of a sector. -/
def State.claimed (s : State) (cl ctx : Nat) (blk : Nat) : Bool :=
  match s.frags.find? (fun f => f.blocks.contains blk) with
  | some f => (s.cluster cl).claims.any (fun c => c.frag == f.id && c.ctx == ctx)
  | none => false

/-- A store's effect on the storing core's copies (R69, R74): updated, or with HINT NOL1 or NOALLOC invalidated; on data under a claim a
hint has no effect (R76). -/
def State.l1Store (s : State) (core ctx pa : Nat) (cs : List (Nat × Byte)) (d : BitVec 16) (hint : Nat) : State :=
  let b := s.blk pa
  if (hint = 4 || hint = 5) && !s.claimed (core / 4) ctx b then s.l1Drop core ctx pa
  else if (s.core (s.l1Core core pa)).l1.any (fun x => x.blk == b) then
    s.updCore (s.l1Core core pa) fun c => { c with l1 := c.l1.map fun x => if x.blk == b then { x with data := blkPut x.data cs, desc := d } else x }
  else s

/-- Cores whose L1s an operation on a core's L1 covers (R72). -/
def State.l1Cores (s : State) (core : Nat) : List Nat :=
  if (s.cluster (core / 4)).fused then (List.range 4).map (core / 4 * 4 + ·) else [core]

/-- Invalidates a context's unclaimed sectors of a core's L1 that satisfy `p`. -/
def State.l1Inval (s : State) (core ctx : Nat) (p : L1Sec → Bool) : State :=
  (s.l1Cores core).foldl (fun s' c => s'.updCore c fun k => { k with l1 := k.l1.filter fun x => !(x.ctx == ctx && p x && !s.claimed (core / 4) ctx x.blk) }) s

/-- The acquire's invalidation (R70, R75, R443): nothing at WARP and GROUP scope; RO lines stay at GANG and DEVICE scope. What the cluster has
written back is seen from then on. -/
def State.l1Acquire (s : State) (core ctx scope : Nat) : State :=
  let p (x : L1Sec) : Bool := x.ctx == ctx && !(x.ro && scope < 4)
  let lines := ((s.l1Cores core).flatMap fun c => ((s.core c).l1.filter fun x => p x && !s.claimed (core / 4) ctx x.blk).map fun x => x.blk / 4).eraseDups
  if scope < 2 then s else ((s.l1Inval core ctx p).noteL1 0x22 core lines.length).updCluster (core / 4) fun c => { c with past := [] }

/-! ## Write-back and recall -/

/-- Cells of the masked bytes of a held block. -/
def Held.cells (h : Held) : List (Nat × Byte) :=
  ((List.range 64).filter (fun i => bit h.mask i)).map fun i => (h.blk * 64 + i, blkByte h.data i)

/-- Writes back what a cluster holds dirty of some blocks, by masks and descriptors (R69, R149), and drops its cores' copies. -/
def State.writeBack (s : State) (cl : Nat) (blocks : List Nat) : State :=
  let hs := (s.cluster cl).held.filter fun h => blocks.contains h.blk
  let s := hs.foldl (fun s h => s.homePut (h.blk * 64) h.cells (match h.desc with
    | some d => .put d
    | none => .keep)) s
  s.updCluster cl fun c =>
    { c with
      held := c.held.filter fun h => !blocks.contains h.blk
      cores := c.cores.map fun k => { k with l1 := k.l1.filter fun x => !blocks.contains x.blk } }

/-- The 16-byte units of a held block that are dirty, with what stands at the home and what the write-back brings. -/
def Held.past (s : State) (gid : Nat) (h : Held) : List PastUnit :=
  let home := BitVec.ofNat 512 (s.rdNat (h.blk * 64) 64)
  let full := blkPut home h.cells
  ((List.range 4).filter fun i => fld h.mask (16 * i + 15) (16 * i) != 0).map fun i =>
    { gid := gid, unit := s.fwd (h.blk * 64) / 16 + i, old := home.extractLsb' (128 * i) 128, new := full.extractLsb' (128 * i) 128 }

/-- A TDROP writes dirty blocks back as a set of 16-byte units: until the cluster acquires, a plain load of another of its groups may be
performed before a unit's (R103, R363). -/
def State.dropPast (s : State) (cl gid : Nat) (blocks : List Nat) : State :=
  let hs := (s.cluster cl).held.filter fun h => blocks.contains h.blk
  s.updCluster cl fun c => { c with past := c.past ++ hs.flatMap (Held.past s gid) }

/-- Ends a holder's write claim on a fragment, its dirty bytes written back. -/
def State.endHolder (s : State) (fid : Nat) : State :=
  match s.frags.find? (fun f => f.id == fid) with
  | some f =>
    let s := match f.holder with
      | some (.cluster cl, ctx) =>
        (s.writeBack cl f.blocks).updCluster cl fun c =>
          { c with claims := c.claims.filter fun x => !(x.frag == fid && x.ctx == ctx) }
      | some (.guest n, ctx) =>
        { s with sites := match s.sites.find? n with
            | some x => s.sites.insert n { x with claims := x.claims.filter fun y => !(y.frag == fid && y.ctx == ctx) }
            | none => s.sites }
      | none => s
    s.updFrag fid fun f => { f with holder := none, recalled := false }
  | none => s

/-- The claim on a fragment is recalled, or its claim-table entry replaced: reservations on its blocks are lost too (R284). -/
def State.recallHolder (s : State) (fid : Nat) : State :=
  match s.frags.find? (fun f => f.id == fid) with
  | some f => f.blocks.foldl State.loseResv (s.endHolder fid)
  | none => s

/-- The die whose core cycles time a holder's protection (R153): the holding cluster's; a guest has no core clock, and the home die of the
fragment's first block counts for it (DESIGN CHOICE, log entry 61). -/
def State.holdDie (s : State) (h : Holder) (blocks : List Nat) : Nat :=
  match h with
  | .cluster cl => cl / 24
  | .guest _ => s.homeDie (blocks.headD 0 * 64)

/-- A write claim may be recalled once its holder has used it or 256 cycles have passed (R153). -/
def State.holdOver (s : State) (f : Frag) : Bool :=
  f.used || (match f.holder with
    | some (h, _) => decide (s.cyclesOf (s.holdDie h f.blocks) ≥ f.grantAt + 256)
    | none => true)

/-- The fragment an access must see recalled first: one with a write holder other than the accessor (R151). -/
def State.recallFor (s : State) (holder : Option (Holder × Nat)) (pa : Nat) : Option Nat :=
  match s.frag? pa with
  | some f => if f.holder.isSome && f.holder != holder then some f.id else none
  | none => none

/-- Asks for the recall of a fragment; WRITEBACK_DONE ends it. -/
def State.askRecall (s : State) (fid : Nat) : State := s.updFrag fid fun f => { f with recalled := true }

/-! ## Rebase (R155) -/

/-- A fragment whose rts lags Pmin by 2^22 or more, on the circle of R145 taken whole: nothing else keeps pairs comparable (R156). -/
def State.rebaseDue (s : State) (f : Frag) : Bool :=
  let d := (s.pmin - f.rts).toNat
  decide (2 ^ 22 ≤ d ∧ d < 2 ^ 24 - 2 ^ 22)

/-- Rebases a fragment when it is due: a visit of the directory. -/
def State.visit (s : State) (fid : Nat) : State :=
  match s.frags.find? fun x => x.id == fid with
  | some f =>
    if s.rebaseDue f then
      let t := s.pmin - 1
      let (v, s) := s.issueVer t
      s.updFrag fid fun x => { x with wts := t, rts := t, ver := v }
    else s
  | none => s

/-- The directory looks at the fragment that a request for an address touches. -/
def State.visitAt (s : State) (pa : Nat) : State :=
  match s.frag? pa with
  | some f => s.visit f.id
  | none => s

/-- The directory visits every fragment. -/
def State.visitAll (s : State) : State := s.frags.foldl (fun s f => s.visit f.id) s

/-! ## Plain accesses (R151) -/

/-- Whose clock an access moves: a cluster's pts, a guest's, or the directory's own, Pmin. -/
inductive Clock where
  | cluster (cl : Nat) | guest (site : Nat) | dir
  deriving DecidableEq, Repr

def State.clock (s : State) : Clock → BitVec 24
  | .cluster cl => (s.cluster cl).pts
  | .guest n => (s.sites.getD {} n).pts
  | .dir => s.pmin

def State.setClock (s : State) (c : Clock) (t : BitVec 24) : State :=
  match c with
  | .cluster cl => s.updCluster cl fun c => { c with pts := t }
  | .guest n => { s with sites := s.sites.insert n { s.sites.getD {} n with pts := t } }
  | .dir => s

/-- A plain load of a block: the clock moves to wts. -/
def State.plainLoad (s : State) (c : Clock) (pa : Nat) : State :=
  let s := s.visitAt pa
  match s.frag? pa with
  | some f => s.setClock c (tsMax (s.clock c) f.wts)
  | none => s

/-- A plain store or atomic to a block: a one-shot write claim. -/
def State.plainStore (s : State) (c : Clock) (pa : Nat) : State :=
  let s := s.visitAt pa
  match s.frag? pa with
  | some f =>
    let t := tsMax (s.clock c) (f.rts + 1)
    let (v, s) := (s.setClock c t).issueVer t
    s.updFrag f.id fun f => { f with wts := t, rts := t, ver := v }
  | none => s

/-! ## Loads of a cluster -/

/-- A block as a load sees it: data and descriptor. -/
structure Sec where
  data : BitVec 512
  desc : BitVec 16
  deriving DecidableEq, Repr

/-- The block at its home. -/
def State.homeSec (s : State) (pa : Nat) : Sec :=
  ⟨BitVec.ofNat 512 (s.rdNat (pa / 64 * 64) 64), s.descOf pa⟩

/-- What a cluster holds dirty laid over a block. -/
def Held.over (h : Held) (x : Sec) : Sec :=
  ⟨blkPut x.data h.cells, h.desc.getD x.desc⟩

/-- The block as the cluster sees it under its own write claim (R69, R150). -/
def State.ownSec (s : State) (cl pa : Nat) : Sec :=
  match (s.cluster cl).held.find? (fun h => h.blk == s.blk pa) with
  | some h => h.over (s.homeSec pa)
  | none => s.homeSec pa

/-- A home read fills, replaces or invalidates the reading core's copy (R74, R75, R105). -/
def State.fillAfter (s : State) (core ctx pa hint : Nat) (x : Sec) : State :=
  if hint = 4 || hint = 5 then
    if s.claimed (core / 4) ctx (s.blk pa) then s else s.l1Drop core ctx pa
  else s.l1Fill core pa ⟨ctx, s.blk pa, x.data, x.desc, hint == 1⟩

/-- Result of a load of one block: its value and the state after it, or a wait for a recall or a blocked chunk. -/
inductive LoadRes where
  | sec (x : Sec) (s : State)
  | recall (frag : Nat)
  | blocked

/-- A read claim of one fragment by a cluster whose pts has already been moved (R146): grants it on `f`. -/
def State.grantRead (s : State) (cl ctx : Nat) (f : Frag) (lease : Nat) : State :=
  let own := (s.cluster cl).pts + BitVec.ofNat 24 lease
  let s := s.updFrag f.id fun f => { f with rts := tsMax f.rts own }
  let c : Claim := { frag := f.id, ctx := ctx, write := false, ownRts := own, ver := f.ver, lease := lease, used := s.now }
  s.updCluster cl fun k => { k with claims := c :: k.claims.filter fun x => !(x.frag == f.id && x.ctx == ctx) }

/-- Drops a context's sectors of a fragment from every L1 of a cluster. -/
def State.dropSectors (s : State) (cl ctx : Nat) (blocks : List Nat) : State :=
  s.updCluster cl fun c => { c with cores := c.cores.map fun k => { k with l1 := k.l1.filter fun x => !(x.ctx == ctx && blocks.contains x.blk) } }

/-- A load by a core for a context of the block at `pa` (R70, R104, R105, R147, R150, R151). `useL1` is false for an access that
never reads an L1 (an engine's, a walk's). -/
def State.loadBlock (s : State) (core ctx pa scope hint : Nat) (useL1 : Bool) : LoadRes :=
  let cl := core / 4
  if s.waitsAt pa then .blocked
  else if !isFlistad pa then .sec (s.homeSec pa) s
  else
    let s := (s.touch ctx pa).visitAt pa
    let fromHome (s : State) : LoadRes := let x := s.homeSec pa; .sec x (if useL1 then s.fillAfter core ctx pa hint x else s)
    match s.frag? pa with
    | none =>
      match (if useL1 then s.l1Find core ctx pa else none) with
      | some l => if (scope < 2 || l.ro) && hint != 4 && hint != 5 then .sec ⟨l.data, l.desc⟩ (s.noteL1 0x20 (s.l1Core core pa) 1) else fromHome s
      | none => fromHome s
    | some f =>
      match (s.cluster cl).claim? f.id ctx with
      | none =>
        -- an L1 read never reaches the directory (R104, R363)
        match (if useL1 && scope < 2 && hint != 4 && hint != 5 then s.l1Find core ctx pa else none) with
        | some l => .sec ⟨l.data, l.desc⟩ (s.noteL1 0x20 (s.l1Core core pa) 1)
        | none => if f.holder.isSome then .recall f.id else fromHome (s.plainLoad (.cluster cl) pa)
      | some c =>
        let s := s.useClaim cl f.id ctx
        if c.write then .sec (s.ownSec cl pa) s
        else
          let hit (s : State) : Option LoadRes :=
            (if useL1 then s.l1Find core ctx pa else none).map fun l => .sec ⟨l.data, l.desc⟩ (s.noteL1 0x20 (s.l1Core core pa) 1)
          let renew (s : State) : State := s.note 0x50 (4 * cl) 1 (some ctx)
          let keep (s : State) : LoadRes := (hit s).getD (let x := s.homeSec pa; .sec x (if useL1 then s.l1Fill core pa ⟨ctx, s.blk pa, x.data, x.desc, false⟩ else s))
          -- a renewal whose VER has moved is a new read claim
          let renewNew : LoadRes :=
            if f.holder.isSome then .recall f.id
            else
              let s := (s.setClock (.cluster cl) (tsMax (s.clock (.cluster cl)) f.wts)).grantRead cl ctx f c.lease
              keep (renew (s.dropSectors cl ctx f.blocks))
          if !tsLater (s.cluster cl).pts c.ownRts then
            if f.ver = c.ver then keep s else (hit s).getD renewNew
          else if f.ver = c.ver then keep (renew (s.grantRead cl ctx f c.lease))
          else renewNew

end Sys2Proof.Machine
end

