-- ==== Sys2Proof/Machine/Translate.lean ====
section
/-!
DEFINITION. Translation: the walk of the page tables (R411 to R414), cached translations and their leases (R415, R416), and
Translate with its faults (R53, R219, R413).
-/
namespace Sys2Proof.Machine
open Sys2Proof

/-- Address bits below the index of a level; the page size of a leaf there is 2^that (R411). -/
def lvlShift (l : Nat) : Nat := if l = 1 then 39 else if l = 2 then 30 else if l = 3 then 21 else 16
def lvlBits (l : Nat) : Nat := if l = 1 then 13 else if l = 4 then 5 else 9

def pteV (e : BitVec 64) : Bool := bit e 0
def pteLeaf (e : BitVec 64) : Bool := bit e 1
def pteR (e : BitVec 64) : Bool := bit e 2
def pteW (e : BitVec 64) : Bool := bit e 3
def pteX (e : BitVec 64) : Bool := bit e 4
def pteCC (e : BitVec 64) : Bool := bit e 7
def pteAddr (e : BitVec 64) : Nat := fld e 47 8 * 256
def pteLsh (e : BitVec 64) : Nat := fld e 55 53

/-- A malformed entry (R412). -/
def pteMalformed (e : BitVec 64) (l : Nat) : Bool :=
  fld e 63 56 != 0 || fld e 52 48 != 0 || fld e 6 5 != 0 ||
  (if pteLeaf e then
    l == 1 || decide (pteLsh e ≥ 5) || (pteW e && !pteR e) || pteAddr e % 2 ^ lvlShift l != 0 ||
      (pteCC e && !isFlistad (pteAddr e))
  else
    l == 4 || pteLsh e != 0 || pteR e || pteW e || pteX e || pteCC e ||
      pteAddr e % (if l = 3 then 256 else 4096) != 0 || !isFlistad (pteAddr e))

/-- A walk's end: a leaf with its level and the entries read (level, address, entry), a failure with level, cause and last entry (R430), or a wait. -/
inductive WalkRes where
  | leaf (e : BitVec 64) (level : Nat) (read : List (Nat × Nat × BitVec 64))
  | fail (level cause : Nat) (e : BitVec 64)
  | recall (frag : Nat)
  | blocked

/-- Owners of cached translations (State): engine TLBs, die TLBs, walk caches. -/
def tlbEngine (cl : Nat) : Nat := 768 + cl
def tlbDie (die : Nat) : Nat := 960 + die
def tlbWalk (die : Nat) : Nat := 968 + die

/-- A cached translation of an owner whose lease is running (R416). -/
def State.tlbFind (s : State) (owner ctx va : Nat) (p : TlbEntry → Bool) : Option TlbEntry :=
  s.tlb.find? fun t => t.owner == owner && t.ctx == ctx && va / t.psize == t.vpage && decide (s.ptime < t.expiry) && p t

/-- Reads one entry of the walk: from the walk cache when `cached`, else at its home (R414). -/
def walkEntry (s : State) (cached : Bool) (die ctx va l t : Nat) : WalkRes :=
  match (if cached then s.tlbFind (tlbWalk die) ctx va (fun x => x.level == l) else none) with
  | some x => .leaf x.leaf l []
  | none =>
    let pa := t + 8 * (va / 2 ^ lvlShift l % 2 ^ lvlBits l)
    if fld (s.regionOf pa) 1 0 = 3 then .fail l 3 0
    else if s.waitsAt pa then .blocked
    else if s.poisonedAt pa then .fail l 6 0
    else match s.recallFor none pa with
      | some f => .recall f
      | none => let e := BitVec.ofNat 64 (s.rdNat pa 8); .leaf e l [(l, pa, e)]

/-- The walk of R413 from level `l` and table `t` down; `n` levels remain. -/
def walkGo (s : State) (cached : Bool) (die ctx va : Nat) : Nat → Nat → Nat → List (Nat × Nat × BitVec 64) → WalkRes
  | 0, l, _, _ => .fail l 1 0
  | n + 1, l, t, acc =>
    match walkEntry s cached die ctx va l t with
    | .leaf e _ r =>
      if !pteV e then .fail l 0 e
      else if pteMalformed e l then .fail l 1 e
      else if pteLeaf e then .leaf e l (acc ++ r)
      else walkGo s cached die ctx va n (l + 1) (pteAddr e) (acc ++ r)
    | w => w

def State.ptroot (s : State) (ctx : Nat) : Nat := fld (s.context ctx).img 511 448

def walk (s : State) (cached : Bool) (die ctx va : Nat) : WalkRes := walkGo s cached die ctx va 4 1 (s.ptroot ctx) []

/-- The permission an access kind needs: 0 none, 1 read, 2 write, 3 read-modify-write, 4 execute (R413, R429). -/
def pteAllows (e : BitVec 64) (acc : Nat) : Bool :=
  match acc with
  | 0 => true
  | 1 => pteR e
  | 2 => pteW e
  | 3 => pteR e && pteW e
  | _ => pteX e

/-- A translated access: physical address, virtual and physical base and size of the page, leaf, cached entries to keep. -/
structure Xlated where
  pa : Nat
  vpage : Nat
  ppage : Nat
  psize : Nat
  leaf : BitVec 64
  fills : List TlbEntry

inductive XlateRes where
  | ok (x : Xlated)
  | fail (f : Flt)
  | recall (frag : Nat)
  | blocked

/-- XLATE's record: cause, level and entry (R430). -/
def xlateFlt (va : BitVec 64) (acc level cause : Nat) (e : BitVec 64) : Flt :=
  { code := cXlate, info := level + cause * 16, aux := e, addr := va, acc := acc }

def permFlt (va : BitVec 64) (acc cause : Nat) (e : BitVec 64) : Flt :=
  { code := cPerm, info := cause, aux := e, addr := va, acc := acc }

def alignFlt (va : BitVec 64) (acc size : Nat) : Flt := { code := cAlign, info := size, addr := va, acc := acc }

/-- What follows a leaf: the physical address, the ranges of R65 and R410, and the permission. -/
def checkLeaf (s : State) (va : BitVec 64) (acc : Nat) (e : BitVec 64) (l : Nat) (fills : List TlbEntry) : XlateRes :=
  let sz := 2 ^ lvlShift l
  let pa := pteAddr e + va.toNat % sz
  if isFlistad pa && fld (s.regionOf pa) 1 0 = 3 then .fail (xlateFlt va acc l 3 e)
  else if (match targetOf pa with
    | .nothing => true
    | .site n => !s.siteUp n
    | _ => false) then .fail (xlateFlt va acc l 4 e)
  else if !pteAllows e acc then .fail (permFlt va acc 1 e)
  else .ok ⟨pa, va.toNat / sz * sz, pteAddr e, sz, e, fills⟩

/-- Entries kept after a walk: the leaf at the owner and at its die, non-leaf entries in the walk cache (R415, R416). -/
def walkFills (s : State) (owner die ctx : Nat) (va : Nat) (read : List (Nat × Nat × BitVec 64)) : List TlbEntry :=
  read.flatMap fun r =>
    let sz := 2 ^ lvlShift r.1
    let t (o : Nat) (life : Nat) : TlbEntry :=
      { owner := o, ctx := ctx, vpage := va / sz, psize := sz, leaf := r.2.2, level := r.1, expiry := s.ptime + life, src := some r.2.1 }
    if pteLeaf r.2.2 then let life := 2 ^ (16 + pteLsh r.2.2); [t owner life, t (tlbDie die) life]
    else [t (tlbWalk die) (2 ^ 16)]

/-- A walk that ends in a physical address or a fault. -/
def walkXlate (s : State) (cached : Bool) (owner die ctx : Nat) (va : BitVec 64) (acc : Nat) : XlateRes :=
  match walk s cached die ctx va.toNat with
  | .leaf e l r => checkLeaf s va acc e l (walkFills s owner die ctx va.toNat r)
  | .fail l c e => .fail (xlateFlt va acc l c e)
  | .recall f => .recall f
  | .blocked => .blocked

/-! ### Copies of task records (R47) -/

/-- Where the model keeps the read-only copy of a group's task record: at a place of its own that no page table entry can name. -/
def recPlace (gid : Nat) : Nat := 2 ^ 52 + 64 * gid

/-- The place of an address in the copy of the task record of a resident group of the context. -/
def State.recCopy (s : State) (ctx : Nat) (va : BitVec 64) : Option Nat :=
  (List.find? (fun (p : Nat × Group) => p.2.ctx == ctx && p.2.taskrec.toNat / 64 == va.toNat / 64) s.groups).map fun p => recPlace p.1 + va.toNat % 64

/-- Translation by cached entries, the owner's and then its die's, else by a walk; a failure of a cached translation is decided by a walk from
memory (R413). -/
def translateMem (s : State) (owner die ctx : Nat) (va : BitVec 64) (acc : Nat) : XlateRes :=
  let isLeaf (t : TlbEntry) : Bool := pteLeaf t.leaf
  let first :=
    match s.tlbFind owner ctx va.toNat isLeaf with
    | some t => checkLeaf s va acc t.leaf t.level []
    | none => match s.tlbFind (tlbDie die) ctx va.toNat isLeaf with
      | some t => checkLeaf s va acc t.leaf t.level [{ t with owner := owner }]
      | none => walkXlate s true owner die ctx va acc
  match first with
  | .fail _ => walkXlate s false owner die ctx va acc
  | r => r

/-- Translate (R219) for a local virtual address. A copy of a task record is read-only (R47). -/
def translate (s : State) (owner die ctx : Nat) (va : BitVec 64) (acc : Nat) : XlateRes :=
  if fld va 62 52 ≠ 0 then .fail (xlateFlt va acc 0 2 0)
  else match s.recCopy ctx va with
    | some pa => if acc ≤ 1 then .ok ⟨pa, va.toNat / 64 * 64, pa / 64 * 64, 64, 0, []⟩ else .fail (permFlt va acc 1 0)
    | none => translateMem s owner die ctx va acc

/-- Places of a cache: core TLB 64, engine TLB 128, die TLB 2,048, walk cache 256 (R415). -/
def tlbCap (owner : Nat) : Nat := if owner < 768 then 64 else if owner < 960 then 128 else if owner < 968 then 2048 else 256

/-- What a walk's reads of page table entries do (R414, R437): each is a home read with an acquire at DEVICE scope for the core, or the engines,
that the leaf is cached for, and touches the entry's home. -/
def State.walkAcquire (s : State) (fs : List TlbEntry) : State :=
  let reads := fs.filterMap fun f => f.src.map fun pa => (f.ctx, pa)
  let s := reads.foldl (fun s r => (s.touch r.1 r.2).visitAt r.2) s
  match fs.find? fun f => f.src.isSome && decide (f.owner < 960) with
  | none => s
  | some f =>
    let cl := if f.owner < 768 then f.owner / 4 else f.owner - 768
    let seen := reads.foldl (fun t r => tsJoin (tsJoin t (s.carry.find? (s.fwd r.2 / 16))) ((s.frag? r.2).map Frag.wts)) none
    let s := if f.owner < 768 then s.l1Acquire f.owner f.ctx 3 else s
    match seen with
    | some p => s.setClock (.cluster cl) (tsMax (s.cluster cl).pts p)
    | none => s

/-- Keeps cached translations; the oldest of a full cache leaves for space. -/
def State.tlbFill (s : State) (fs : List TlbEntry) : State :=
  fs.foldl (fun s f =>
    let f := { f with src := none }
    let same (t : TlbEntry) : Bool := t.owner == f.owner && t.ctx == f.ctx && t.level == f.level && t.vpage == f.vpage
    let rest := s.tlb.filter fun t => !same t
    let mine := (rest.filter (fun t => t.owner == f.owner)).take (tlbCap f.owner - 1)
    { s with tlb := f :: mine ++ rest.filter (fun t => t.owner != f.owner) }) (s.walkAcquire fs)

/-- A fabric address (R54). -/
def isFabric (va : BitVec 64) : Bool := bit va 63
def fabAccel (va : BitVec 64) : Nat := fld va 62 53
def fabXaddr (va : BitVec 64) : Nat := fld va 52 0
/-- The fabric lane (R55). -/
def fabLane (x : Nat) : Nat := (x / 4096 % 8) ^^^ (x / 2 ^ 30 % 8)

/-- Translation of the management core's addresses: physical (R370, R387). -/
def physXlate (s : State) (va : BitVec 64) (acc : Nat) : XlateRes :=
  let pa := va.toNat
  if fld va 63 48 ≠ 0 then .fail (xlateFlt va acc 0 4 0)
  else if isFlistad pa && fld (s.regionOf pa) 1 0 = 3 then .fail (xlateFlt va acc 0 3 0)
  else if (match targetOf pa with
    | .nothing => true
    | .site n => !s.siteUp n
    | _ => false) then .fail (xlateFlt va acc 0 4 0)
  else .ok ⟨pa, pa / 65536 * 65536, pa / 65536 * 65536, 65536, 0, []⟩

end Sys2Proof.Machine
end

