-- ==== Sys2Proof/Machine/Access.lean ====
section
/-!
DEFINITION. The checks an access of a thread passes before any access of its instruction is performed (R270): alignment, range and
translation, purity, watchpoints, poison. A failed check leaves everything unchanged and the fault is precise.
-/
namespace Sys2Proof.Machine
open Sys2Proof

/-- What a thread means to access: thread, address as named, bytes, access kind (1 read, 2 write, 3 read-modify-write), the alignment
required, and whether a read. -/
structure Want where
  tid : Nat
  slot : Nat
  va : BitVec 64
  size : Nat
  acc : Nat
  align : Nat

/-- An access that passed the checks of address and translation. `fab` is a fabric address's (ACCEL, XADDR); `also` the other threads whose
bytes go with it (R271). -/
structure Acc where
  tid : Nat
  slot : Nat
  va : BitVec 64
  size : Nat
  pa : Nat
  fab : Option (Nat × Nat) := none
  vpage : Nat := 0
  ppage : Nat := 0
  psize : Nat := 0
  leaf : BitVec 64 := 0
  also : List Nat := []
  fills : List TlbEntry := []

/-- The end of one access's checks: passed; a fault of an order of R270; or a wait. -/
inductive AccRes where
  | ok (a : Acc)
  | bad (order : Nat) (f : Flt)
  | recall (frag : Nat)
  | blocked

/-- The direction bits of WSET's mode an access kind falls under: R bit 0, W bit 1 (R309, R310). -/
def accDirs (acc : Nat) : BitVec 7 := if acc = 1 then 1 else if acc = 2 then 2 else 3

/-- The lowest-numbered watch of a context, of an agent class, that covers a block in a direction (R197, R310, R312). -/
def State.watchHit (s : State) (ctx : Nat) (cls : BitVec 7) (dirs : BitVec 7) (blk : Nat) : Option (Nat × Nat) :=
  let ws := (s.context ctx).watches
  ((List.range 8).find? fun i =>
    let w := ws.getD i {}
    w.handle != 0 && w.mode &&& cls != 0 && w.mode &&& dirs != 0 &&
      s.handles.any (fun h => h.ctx == ctx && h.id == w.handle && h.blocks.contains blk)).map fun i => (i, (ws.getD i {}).handle)

def watchFlt (i handle : Nat) (va : BitVec 64) (acc : Nat) : Flt :=
  { code := cWatch, info := i, aux := BitVec.ofNat 64 handle, addr := va, acc := acc }

/-- A reported hit adds 1 to HITS (R312). -/
def State.countHit (s : State) (ctx i : Nat) : State :=
  s.updCtx ctx fun c => { c with watches := c.watches.mapIdx fun j w =>
    if j == i then { w with hits := if w.hits = 0xFFFF then w.hits else w.hits + 1 } else w }

/-- A pure task's accesses stay inside what it declared (R191): code, the argument block, reads in the inputs, reads and
writes in the outputs. -/
def pureOk (s : State) (g : Group) (p : Pure) (a : Acc) (acc : Nat) : Bool :=
  let inSet (ids : List Nat) : Bool := s.handles.any fun h => h.ctx == g.ctx && ids.contains h.id && h.blocks.contains (s.blk a.pa)
  let arg := (fld g.task 127 64)
  inSet p.outs ||
  (acc == 1 && (inSet (p.ins.map (·.1)) || s.tags.find? (s.fwd a.pa / 65536) == some g.ctx ||
    (decide (arg ≤ a.va.toNat) && decide (a.va.toNat + a.size ≤ arg + 64))))

/-- Offsets of the sections of a group's frame whose size the group's registers give (R196): THR, VREG, UREG, CHAN. -/
def Group.frameSecs (g : Group) : Nat × Nat × Nat × Nat :=
  let up (n : Nat) : Nat := (n + 63) / 64 * 64
  let nt := g.threads.length
  let vreg := up (256 + 16 * nt)
  let ureg := up (vreg + 4 * g.vregs * nt)
  (256, vreg, ureg, up (ureg + (16 + 8 * g.sregs) * g.warps.length))

/-- Read-only parts of a written park frame (R196): a store must lie in THR, in VREG, in UREG, or in the scratch window. What a store changes
of STATE, SLOT, WARPID or RFAIL in THR is refused by GRESUME's check. -/
def frameRo (s : State) (ctx pa size : Nat) : Bool :=
  match s.frameOff pa with
  | some (g, o, fsize) =>
    let (thr, vreg, _, chan) := g.frameSecs
    let nt := g.threads.length
    g.ctx == ctx &&
      !((decide (thr ≤ o) && decide (o + size ≤ thr + 16 * nt)) ||
        (decide (vreg ≤ o) && decide (o + size ≤ chan)) || decide (fsize - g.scr.size ≤ o))
  | none => false

/-- An address in a window that GRESUME or GKILL has ended (R196). -/
def State.inDeadWin (s : State) (ctx : Nat) (va : BitVec 64) : Bool :=
  s.deadWin.any fun d => d.1 == ctx && decide (d.2.1.toNat ≤ va.toNat) && decide (va.toNat < d.2.1.toNat + d.2.2)

/-- The parked group a frame address names for an agent (R349): through its translation, by the physical address. -/
inductive NamedFrame where
  | group (g : Group)
  | none
  | recall (frag : Nat)
  | blocked

def namedFrame (s : State) (w : Who) (owner : Nat) (va : BitVec 64) : NamedFrame :=
  if !w.phys && isFabric va then .none
  else match (if w.phys then physXlate s va 0 else translate s owner (w.die % 8) w.ctx va 0) with
    | .fail _ => .none
    | .recall f => .recall f
    | .blocked => .blocked
    | .ok r => match s.frameOff r.pa with
      | some (g, 0, _) => .group g
      | _ => .none

/-- The checks of one global access (R270): alignment, then R53 and translation, then purity, then watchpoints. -/
def checkGlobal (s : State) (w : Who) (owner : Nat) (x : Want) : AccRes :=
  let die := w.die % 8
  if x.va.toNat % x.align ≠ 0 then .bad 1 (alignFlt x.va x.acc x.align)
  else
    let g := s.group? w.gid
    if !w.phys && isFabric x.va then
      match g.bind Group.pure with
      | some _ => .bad 3 { code := cPurity, info := 3, addr := x.va, acc := x.acc }
      | none => .ok { tid := x.tid, slot := x.slot, va := x.va, size := x.size, pa := 0, fab := some (fabAccel x.va, fabXaddr x.va) }
    else if !w.phys && s.inDeadWin w.ctx x.va then .bad 2 (xlateFlt x.va x.acc 0 0 0)
    else match (if w.phys then physXlate s x.va x.acc else translate s owner die w.ctx x.va x.acc) with
      | .fail f => .bad 2 f
      | .recall f => .recall f
      | .blocked => .blocked
      | .ok r =>
        let a : Acc := { tid := x.tid, slot := x.slot, va := x.va, size := x.size, pa := r.pa, vpage := r.vpage, ppage := r.ppage, psize := r.psize, leaf := r.leaf, fills := r.fills }
        if x.acc ≠ 1 && frameRo s w.ctx (s.fwd r.pa) x.size then .bad 2 (permFlt x.va x.acc 6 0)
        else if (g.any fun gr => gr.pure.any fun p => !pureOk s gr p a x.acc) then .bad 3 { code := cPurity, info := 1, addr := x.va, acc := x.acc }
        else if w.phys || (g.any fun gr => gr.suppress.contains (x.tid, s.cur.pc.toNat, s.blk r.pa)) then .ok a
        else match s.watchHit w.ctx 4 (accDirs x.acc) (s.blk r.pa) with
          | some (i, h) => .bad 4 (watchFlt i h x.va x.acc)
          | none => .ok a

/-- The checks of an atomic, LR or SC (R135, R191, R270, R283): LR and SC refuse fabric addresses; host memory supports what `hostOk`
says; a pure task may do none of them. -/
def checkRmw (s : State) (w : Who) (owner : Nat) (lrSc hostOk : Bool) (x : Want) : AccRes :=
  let r := checkGlobal s w owner x
  let pure := ((s.group? w.gid).bind Group.pure).isSome
  if !w.phys && lrSc && isFabric x.va && x.va.toNat % x.align == 0 then .bad 2 (permFlt x.va x.acc 7 0)
  else match r with
    | .bad 1 f => .bad 1 f
    | .bad 2 f => .bad 2 f
    | .recall f => .recall f
    | .blocked => .blocked
    | .ok a =>
      if a.fab.isNone && targetOf a.pa == .host && !hostOk then .bad 2 (permFlt x.va x.acc 9 a.leaf)
      else if pure then .bad 3 { code := cPurity, info := 2, addr := x.va, acc := x.acc }
      else .ok a
    | .bad o f => if pure then .bad 3 { code := cPurity, info := 2, addr := x.va, acc := x.acc } else .bad o f

/-! ## Scratch (R57 to R61) -/

/-- Where a scratch offset leads: an allocation of a group, or an allocation of a member that has ended. -/
inductive ScrRes where
  | at (gid off : Nat)
  | ended
  | perm (cause : Nat)
  deriving DecidableEq, Repr

/-- Decodes a scratch offset of a group (R58 to R60). -/
def scrDecode (s : State) (g : Group) (off : Nat) : ScrRes :=
  if off / 2 ^ 31 % 2 = 0 then if off < g.scr.size then .at g.gid off else .perm 2
  else
    let idx := off / 2 ^ 27 % 16
    let o := off % 2 ^ 21
    if off / 2 ^ 21 % 64 ≠ 0 || idx ≥ g.gsize then .perm 3
    else
      let self := match g.gang with
        | some (_, i) => i
        | none => 0
      if idx = self then if o < g.scr.size then .at g.gid o else .perm 2
      else match g.gang with
        | none => .perm 3
        | some (gi, _) =>
          match s.gangs.find? (fun x => x.id == gi) with
          | none => .ended
          | some gn =>
            if gn.ended.contains idx then .ended
            else match (gn.members.find? (fun m => m.1 == idx)).bind (fun m => s.group? m.2) with
              | some t => if o < t.scr.size then .at t.gid o else .perm 2
              | none => .ended

/-- Checks of one scratch access of `size` bytes: alignment, range; loads and atomics at an ended member raise PERM (R60). -/
inductive ScrAcc where
  | ok (gid off : Nat)
  | drop
  | bad (order : Nat) (f : Flt)

def checkScratch (s : State) (g : Group) (off size acc align : Nat) : ScrAcc :=
  let va := BitVec.ofNat 64 off
  if off % align ≠ 0 then .bad 1 (alignFlt va acc align)
  else match scrDecode s g off with
    | .at t o => if o + size ≤ ((s.group? t).map (fun x => x.scr.size)).getD 0 then .ok t o else .bad 2 (permFlt va acc 2 0)
    | .ended => if acc = 2 then .drop else .bad 2 (permFlt va acc 3 0)
    | .perm c => .bad 2 (permFlt va acc c 0)

/-! ## All accesses of an instruction (R270) -/

/-- The end of an instruction's checks: all passed; the fault of the earliest order, of the lowest slot that meets it; or a wait. -/
inductive ChkRes (α : Type) where
  | ok (l : List α)
  | fault (tid slot : Nat) (f : Flt)
  | recall (frag : Nat)
  | blocked

/-- A failed check of a thread: order, thread, slot, fault. -/
abbrev Failure := Nat × Nat × Nat × Flt

/-- The fault to raise: the earliest order; the list is in slot order. -/
def firstFailure : List Failure → Option Failure
  | [] => none
  | x :: xs => match firstFailure xs with
    | some y => if y.1 < x.1 then some y else some x
    | none => some x

/-- Collects the checks of global accesses. An alignment fault comes before any wait. -/
def collect : List (Want × AccRes) → ChkRes Acc
  | l =>
    let fails : List Failure := l.filterMap fun p => match p.2 with
      | .bad o f => some (o, p.1.tid, p.1.slot, f)
      | _ => none
    let waits := l.find? fun p => match p.2 with
      | .recall _ => true
      | .blocked => true
      | _ => false
    match firstFailure fails, waits with
    | some (1, t, sl, f), _ => .fault t sl f
    | _, some (_, .recall fr) => .recall fr
    | _, some _ => .blocked
    | some (_, t, sl, f), none => .fault t sl f
    | none, none => .ok (l.filterMap fun p => match p.2 with
        | .ok a => some a
        | _ => none)

/-- The checks of all global accesses of an instruction. -/
def checkAll (s : State) (w : Who) (owner : Nat) (ws : List Want) : ChkRes Acc :=
  collect (ws.map fun x => (x, checkGlobal s w owner x))

/-- POISON of a memory block (R430). -/
def poisonFlt (va : BitVec 64) (acc place : Nat) : Flt := { code := cPoison, info := place, addr := va, acc := acc }

/-- Raises the fault of a failed check; a WATCH counts a hit. -/
def raise (tid slot : Nat) (f : Flt) (s : State) : State :=
  let s' := if f.code = cWatch then s.countHit (who s).ctx f.info else s
  takeFaultAt tid slot f s'

/-- A wait: the recall is asked for, the instruction issues again. -/
def stallRecall (frag : Nat) (s : State) : State := stall (s.askRecall frag)

def isFabDest : Dest → Bool
  | .fab _ _ => true
  | _ => false

/-- Two translations meet in a page, or in part of one, and put it at different physical addresses. -/
def remapped (v p n v' p' n' : Nat) : Bool := decide (v < v' + n') && decide (v' < v + n) && p + v' != p' + v

/-- Accesses through a translation wait for those, of the same core or of the engines of its cluster, through an earlier one that put the page
elsewhere (R417): its channel operations, and for a core its outstanding loads. -/
def xlatHold (s : State) (mine : Packet → Bool) (loads : OutLoad → Bool) (ctx : Nat) (as : List Acc) : Bool :=
  let meets (v p n : Nat) : Bool := as.any fun a => a.fab.isNone && remapped v p n a.vpage a.ppage a.psize
  (s.packets.any fun p => mine p && p.ctx == ctx && p.st != .done && !isFabDest p.dest && meets p.vpage p.ppage p.psize) ||
    s.loads.any fun l => loads l && l.ctx == ctx && l.parts.any fun q => q.waits && !q.fabric && meets q.vpage q.ppage q.psize

def xlatWait (s : State) (core ctx : Nat) (as : List Acc) : Bool :=
  xlatHold s (fun p => p.core == core && p.cmd.isNone) (fun l => l.core == core) ctx as

/-- The hold of R417 for the engines of a cluster. -/
def xlatWaitEngine (s : State) (cl ctx : Nat) (as : List Acc) : Bool :=
  xlatHold s (fun p => p.core / 4 == cl && p.cmd.isSome) (fun _ => false) ctx as

/-- The address a packet acts on. -/
def Pay.place : Pay → Nat
  | .write p _ _ => p
  | .atom pa _ _ _ _ => pa
  | .sc pa _ _ => pa
  | .guest _ _ => 0

/-- The place an access acts at is that of another: one physical block, or one block of one accelerator. -/
def Acc.meets (s : State) (a : Acc) (d : Dest) (place : Nat) : Bool :=
  match a.fab, d with
  | some (n, x), .fab m _ => n == m && x / 64 == place / 64
  | none, .fab _ _ => false
  | some _, _ => false
  | none, _ => s.blk place == s.blk a.pa

/-- Accesses that wait for a packet of the same core to the same block that has not been performed (R71, R106, R124, R127); one that another
group's channel withholds at its source has reached no cache yet. A command waits for packets older than itself, and for its own (R323). On one channel to one
fabric destination the destination keeps the order (R124). -/
def blockWait (s : State) (w : Who) (cmd : Option Nat) (as : List Acc) : Bool :=
  s.packets.any fun p =>
    p.core == w.core && p.st != .done && (p.gid == w.gid || (p.st != .source && !isFabDest p.dest)) && (cmd.isNone || p.cmd == cmd || cmd.any fun c => decide (p.id < c)) &&
      as.any fun a => a.meets s p.dest p.pay.place

/-- Outstanding loads of the same core at the same block. -/
def loadsWait (s : State) (core : Nat) (as : List Acc) : Bool :=
  s.loads.any fun l => l.core == core && l.parts.any fun q => match q.place with
    | .mem pa => as.any fun a => a.fab.isNone && s.blk a.pa == s.blk pa
    | .fabric n x => q.waits && as.any fun a => a.fab.any fun f => f.1 == n && f.2 / 64 == x / 64

end Sys2Proof.Machine
end

