-- ==== Sys2Proof/Machine/Channel.lean ====
section
/-!
DEFINITION. Channels (R119 to R126): destinations, the pair table, the orderings a packet waits for (R121 to R124), what a store or an
atomic does at its home (R69, R135, R151), and the placing of results in registers (R275).
-/
namespace Sys2Proof.Machine
open Sys2Proof

/-- The destination of a channel operation (R120). -/
def State.destOf (s : State) (a : Acc) : Dest :=
  match a.fab with
  | some (acc, x) => .fab acc (fabLane x)
  | none => match targetOf a.pa with
    | .host => .host
    | .site n => .site n
    | _ => .die (s.homeDie a.pa)

/-- The clock of accesses issued from a core; the management core is no cluster (R151). -/
def clockOf (core : Nat) : Clock := if core < 768 then .cluster (core / 4) else .dir

/-- The write holder an access from a core for a context may itself be. -/
def holderOf (core ctx : Nat) : Option (Holder × Nat) := if core < 768 then some (.cluster (core / 4), ctx) else none

/-- The cluster holds a block under its own write claim for the context (R149). -/
def State.ownWrite (s : State) (core ctx pa : Nat) : Bool :=
  match s.frag? pa with
  | some f => core < 768 && f.holder == some (.cluster (core / 4), ctx)
  | none => false

/-! ## Stores and atomics at their home -/

/-- A store held under the cluster's own write claim (R69): bytes, mask and descriptor. -/
def State.holdStore (s : State) (cl pa : Nat) (cs : List (Nat × Byte)) (d : Option (BitVec 16)) : State :=
  let b := s.blk pa
  s.updCluster cl fun c =>
    let h := (c.held.find? (fun h => h.blk == b)).getD { blk := b }
    let m := cs.foldl (fun (m : BitVec 64) c => m ||| (1#64 <<< (c.1 % 64))) h.mask
    { c with held := { h with data := blkPut h.data cs, mask := m, desc := d.orElse fun _ => h.desc } :: c.held.filter (fun x => x.blk != b) }

/-- A write of bytes of one block by a core for a context, performed: in L1 under the cluster's own write claim (R69), else a plain
store at the home (R151). -/
def State.storeBlock (s : State) (core ctx place : Nat) (cs : List (Nat × Byte)) (da : DescAct) (pts : Option (BitVec 24)) : State :=
  let s := if core < 768 then s.touch ctx place else s
  if s.ownWrite core ctx place then
    let s := match s.frag? place with
      | some f => s.useClaim (core / 4) f.id ctx
      | none => s
    let s := (s.loseResv (s.blk place)).setCarry cs pts
    s.holdStore (core / 4) place cs (match da with
      | .raw => some rawDesc
      | .put d => some d
      | .keep => none)
  else (s.plainStore (clockOf core) place).homeWrite place cs da pts

/-- A value as the accesses of a core for a context read it, for an atomic: from L1 under its own write claim, else the home. -/
def State.atomRead (s : State) (core ctx pa size : Nat) : Nat :=
  if s.ownWrite core ctx pa then blkNat (s.ownSec (core / 4) pa).data (pa % 64) size else s.rdNat pa size

/-- The value an atomic writes (R280): RNE, subnormals kept, no flag. -/
def atomNew (op : Nat) (ty : Ty) (old c e : Nat) : Nat :=
  let i := fun (f : Int → Int → Int) => intResult ty false (f (intVal ty old) (intVal ty c))
  match op with
  | 0 => if ty.isInt then i (· + ·) else
      (lift2 ty (fun a b => fAdd ty.fmt .rne false false (ty.fmt.read false a) (ty.fmt.read false b)) old c).1
  | 1 => if ty.isInt then i min else (fMinMax ty.fmt false false (ty.fmt.read false old) (ty.fmt.read false c)).1
  | 2 => if ty.isInt then i max else (fMinMax ty.fmt true false (ty.fmt.read false old) (ty.fmt.read false c)).1
  | 3 => old &&& c
  | 4 => old ||| c
  | 5 => old ^^^ c
  | 6 => c
  | 7 => if old = c then e else old
  | 8 => if old < c then old + 1 else c
  | _ => if old > c then old - 1 else c

/-- An atomic performed on one location (R135): its old value and the state after it. -/
def State.atomAt (s : State) (core ctx pa op : Nat) (ty : Ty) (c e : Nat) (pts : Option (BitVec 24)) : Nat × State :=
  let size := ty.bits / 8
  let old := s.atomRead core ctx pa size
  let new := atomNew op ty old c e
  -- an atomic continues the release that the location's value carries (R111)
  let p := tsJoin pts (s.carry.find? (s.fwd pa / 16))
  (old, s.storeBlock core ctx pa (cellsOf pa size new) .raw p)

/-- What a home makes an access wait for: a blocked chunk or a recall (R422, R151). -/
inductive HomeWait where
  | go | blocked | recall (frag : Nat)
  deriving DecidableEq, Repr

def State.homeWait (s : State) (core ctx pa : Nat) : HomeWait :=
  if s.waitsAt pa then .blocked
  else match s.recallFor (holderOf core ctx) pa with
    | some f => .recall f
    | none => .go

/-- The thread holds a reservation on a block, not 4,096 cycles old (R284). -/
def State.holdsResv (s : State) (gid tid blk : Nat) : Bool :=
  match (s.group? gid).bind (fun g => g.thread? tid) with
  | some t => t.resv.any (fun r => r.1 == blk && decide (s.cyclesOf (gidDie gid) < r.2 + 4096))
  | none => false

/-- A thread's reservation ends. -/
def State.endResv (s : State) (gid tid : Nat) : State := s.updGroup gid fun g => g.updThread tid fun t => { t with resv := none }

/-- What a packet carries when it is performed (R113): a release at GANG scope or wider, the pts of its cluster at that moment. -/
def State.carries (s : State) (p : Packet) : Option (BitVec 24) :=
  if p.rel && p.scope.toNat ≥ 2 then tsJoin p.pts (some (s.clock (clockOf p.core))) else p.pts

/-- What a packet does at its home, once nothing makes it wait: the value it answers, and the state. -/
def State.performPay (s : State) (p : Packet) : Nat × State :=
  match p.pay with
  | .write pl cs da =>
    if s.poisonedAt pl && !(coversBlock cs && !s.dieLost (s.homeDie (s.fwd pl))) then (0, s)
    else (0, s.storeBlock p.core p.ctx pl cs da (s.carries p))
  | .atom pa op ty c e =>
    let t := (Ty.ofCode ty).getD .b32
    s.atomAt p.core p.ctx pa op t c.toNat e.toNat (s.carries p)
  | .sc pa size x =>
    if s.holdsResv p.gid p.tid (s.blk pa) then
      (1, (s.storeBlock p.core p.ctx pa (cellsOf pa size x.toNat) .raw (s.carries p)).endResv p.gid p.tid)
    else (0, s.endResv p.gid p.tid)
  | .guest _ _ => (0, s)

/-- Key of a scratch unit among the locations that carry timestamps (R113). -/
def scrKey (gid off : Nat) : Nat := 2 ^ 60 + gid * 2 ^ 17 + off / 16

/-- A packet carries bytes of a thread (R271). -/
def Packet.of (p : Packet) (tid : Nat) : Bool := p.tid == tid || p.also.contains tid

/-- A release at a scope waits until a packet has been performed: at GANG scope or wider any; at WARP and GROUP scope one to the fabric only,
for the group's own loads and commands wait themselves for its stores to the module (R71, R109). -/
def Packet.releasedAt (p : Packet) (scope : Nat) : Bool := decide (scope ≥ 2) || isFabDest p.dest

/-- Threads of a group that have synchronised with its other threads count what the group has in flight as their own earlier accesses: a later
release of theirs covers it (R109, R342). -/
def State.inherit (s : State) (gid : Nat) (tids : List Nat) : State :=
  { s with packets := s.packets.map fun p => if p.gid == gid && p.st != .done then { p with also := tids.filter (fun t => !p.also.contains t) ++ p.also } else p }

/-- A scratch store or atomic waits for the thread's earlier stores to its own die, which the gang rules put before it (R115), and, with REL,
until the thread's earlier accesses have been performed (R109). -/
def relWait (s : State) (gid : Nat) (x : Enc) (ths : List Thread) : Bool :=
  s.packets.any fun p => p.gid == gid && p.st != .done && ths.any (fun t => p.of t.tid) &&
    (p.dest == .die (gidDie gid) || (decide (x.w2.ord.toNat ≥ 2) && p.releasedAt x.w2.scope.toNat))

/-! ## The channel tag (R455) -/

def tagGid (t : BitVec 64) : Nat := fld t 63 47
def tagCh (t : BitVec 64) : Nat := fld t 46 43
def tagSeq (t : BitVec 64) : BitVec 16 := BitVec.ofNat 16 (fld t 42 27)
def tagRun (t : BitVec 64) : BitVec 8 := BitVec.ofNat 8 (fld t 26 19)
def tagRs (t : BitVec 64) : Bool := bit t 18
def tagAfter (t : BitVec 64) : Bool := bit t 17
def tagDv (t : BitVec 64) : Bool := bit t 16
def tagDesc (t : BitVec 64) : BitVec 16 := BitVec.ofNat 16 (fld t 15 0)

/-- The tag of a packet's request. -/
def tagOf (gid ch : Nat) (seq : BitVec 16) (run : BitVec 8) (rs : Bool) (desc : Option (BitVec 16)) : BitVec 64 :=
  BitVec.ofNat 64 (gid % 2 ^ 17 * 2 ^ 47 + ch % 16 * 2 ^ 43 + seq.toNat * 2 ^ 27 + run.toNat * 2 ^ 19 + (if rs then 2 ^ 18 else 0) +
    (match desc with
      | some d => 2 ^ 16 + d.toNat
      | none => 0))

/-! ## The pair table (R125) -/

/-- A group saved in a vault (R126, R200). -/
def State.saved? (s : State) (gid : Nat) : Option Group := s.vault.findSome? fun v => v.groups.find? fun g => g.gid == gid

/-- Changes a group, resident or saved. -/
def State.updAny (s : State) (gid : Nat) (f : Group → Group) : State :=
  if (s.group? gid).isSome then s.updGroup gid f
  else if (s.saved? gid).isNone then s
  else { s with vault := s.vault.map fun v => { v with groups := v.groups.map fun g => if g.gid == gid then f g else g } }

def State.anyGroup (s : State) (gid : Nat) : Option Group := (s.group? gid).orElse fun _ => s.saved? gid

/-- The pair table of a group, a foreman or the management core. -/
def State.pairsOf (s : State) (gid : Nat) : List Pair :=
  if gid < 131072 then ((s.anyGroup gid).map Group.pairs).getD []
  else if gid = mgmtGid then s.mgmt.pairs else (s.cluster (gid - 131072)).fore.pairs

def State.setPairs (s : State) (gid : Nat) (f : List Pair → List Pair) : State :=
  if gid < 131072 then s.updAny gid fun g => { g with pairs := f g.pairs }
  else if gid = mgmtGid then { s with mgmt := { s.mgmt with pairs := f s.mgmt.pairs } }
  else s.updCluster (gid - 131072) fun c => { c with fore := { c.fore with pairs := f c.fore.pairs } }

/-- The joins of a group (R123). -/
def State.joinsOf (s : State) (gid : Nat) : List (Nat × Nat × List Nat) :=
  if gid < 131072 then ((s.anyGroup gid).map Group.joins).getD []
  else if gid = mgmtGid then s.mgmt.joins else (s.cluster (gid - 131072)).fore.joins

def State.setJoins (s : State) (gid : Nat) (f : List (Nat × Nat × List Nat) → List (Nat × Nat × List Nat)) : State :=
  if gid < 131072 then s.updAny gid fun g => { g with joins := f g.joins }
  else if gid = mgmtGid then { s with mgmt := { s.mgmt with joins := f s.mgmt.joins } }
  else s.updCluster (gid - 131072) fun c => { c with fore := { c.fore with joins := f c.fore.joins } }

/-- Unacknowledged packets of a pair. -/
def State.pairOut (s : State) (gid ch : Nat) (d : Dest) : Nat :=
  (s.packets.filter fun p => p.gid == gid && p.ch == ch && p.dest == d).length

/-- The entries of a cluster's retention buffer; a saved group's are in the vault. -/
def State.retained (s : State) (cl : Nat) : List Packet := s.packets.filter fun p => p.core / 4 == cl && (s.vault.isEmpty || (s.saved? p.gid).isNone)

/-- Room for `n` more operations on a pair: an entry of the 64, the 32,767 window, the cluster's retention buffer of 256 KiB in
64-byte packets, and no CHSYNC in progress (R125, R457). -/
def State.pairRoom (s : State) (w : Who) (ch : Nat) (d : Dest) (n : Nat) : Bool :=
  let ps := s.pairsOf w.gid
  (match ps.find? (fun p => p.ch == ch && p.dest == d) with
    | some p => !p.resync && decide (s.pairOut w.gid ch d + n ≤ 32767)
    | none => decide (ps.length < 64)) &&
  decide ((s.retained (w.core / 4)).length + n ≤ 4096)

/-- The run a pair of a group enters next (R455). -/
def State.nextRun (s : State) (gid ch : Nat) (d : Dest) : BitVec 8 :=
  match s.runs.find? (fun r => r.1 == gid && r.2.1 == ch && r.2.2.1 == d) with
  | some r => r.2.2.2
  | none => 0

/-- Engine commands of a group on a channel that have channel operations still to send: copies with a global destination, EPIs and GPOSTs
(R119, R121). -/
def State.cmdsOn (s : State) (gid ch : Nat) : List Nat :=
  let c := s.cluster (gidCl gid)
  if gid ≥ 131072 then []
  else
    ((c.copyQ.filter fun k => k.gid == gid && k.cap.ch == ch && (k.kind == .s2g || k.kind == .g2g)).map CopyCmd.id) ++
    ((c.epiQ.filter fun k => k.gid == gid && k.cap.ch == ch && k.slot.isNone).map EpiCmd.id) ++
    s.sites.flatMap fun q => (q.2.cmds.filter fun k => k.gid == gid && k.cap.ch == ch && k.st == .queued).map GuestCmd.id

/-- A command of a group that has channel operations still to send. -/
def State.cmdLive (s : State) (gid id : Nat) : Bool := (List.range 16).any fun ch => (s.cmdsOn gid ch).contains id

/-- A packet on its way to a home that a REGION command has moved (R426). -/
def State.stale (s : State) (p : Packet) : Bool :=
  match p.dest, p.pay with
  | .die _, .guest _ _ => false
  | .die d, pay => p.st != .source && p.st != .done && isFlistad pay.place && s.homeDie pay.place != d
  | _, _ => false

/-- A packet sent under an earlier generation of the region table than the present one, to the region of a place (R426). -/
def State.older (s : State) (p : Packet) (place : Nat) : Bool :=
  match p.dest with
  | .die _ => p.st != .source && p.st != .done && p.gen != s.gen && isFlistad place && isFlistad p.pay.place && p.pay.place / 2 ^ 30 == place / 2 ^ 30
  | _ => false

/-- What an operation waits for: rule 1, rule 2, joins (R121 to R123), the thread's program order on its own die (R115), and the group's order on
one location (R106, R112). Issue order counts from a command's posting: the packets of a command wait for what was issued before it, and for
the command's own earlier packets. -/
def State.chanDeps (s : State) (w : Who) (tid ch : Nat) (d : Dest) (rel : Bool) (scope place : Nat) (cmd : Option Nat) : List Nat :=
  let js := ((s.joinsOf w.gid).filter (fun j => j.2.1 == ch)).flatMap fun j => j.2.2
  let isHere (d : Dest) : Bool := d == .die w.die
  let earlier (id : Nat) : Bool := match cmd with
    | some c => decide (id < c)
    | none => true
  ((s.packets.filter fun p =>
    p.st != .done && p.gid == w.gid && (earlier p.id || p.cmd == cmd) &&
    ((p.ch == ch && p.dest == d) || (rel && (p.ch == ch || (p.of tid && p.releasedAt scope))) || js.contains p.id || p.cmd.any js.contains ||
      (p.ch == ch && s.older p place) || (p.of tid && isHere d && isHere p.dest) ||
      (isFabDest p.dest == isFabDest d && p.pay.place / 64 == place / 64))).map Packet.id) ++
  (s.cmdsOn w.gid ch).filter (fun id => earlier id && cmd != some id) ++
  js.filter fun id => earlier id && s.cmdLive w.gid id

/-- Opens a pair-table entry: a new entry starts a new run at 0 (R125). -/
def State.openPair (s : State) (gid ch : Nat) (d : Dest) : State :=
  if (s.pairsOf gid).any (fun p => p.ch == ch && p.dest == d) then s
  else s.setPairs gid fun l => l ++ [{ ch := ch, dest := d, run := s.nextRun gid ch d }]

/-! ## Fabric ports (R453, R454) -/

/-- A port that may carry requests (R454): both directions up, its transmit key not stopped. -/
def Port.usable (p : Port) : Bool := p.txUp && p.rxUp && decide (p.kstate.toNat < 2)

/-- The port that carries a request for an address: none while its replay buffer of 2,048 flits is full (R453). -/
def State.portFor (s : State) (x : Nat) : Option Nat :=
  let l := s.ports.filter fun p => p.2.usable
  if l.isEmpty then none else (l[Config.spray x % l.length]?).bind fun p => if p.2.unacked < 2048 then some p.1 else none

/-- A port sends one flit: its replay buffer and its invocation counter (R453, R462). -/
def State.sendFlit (s : State) (port : Option Nat) : State :=
  match port.bind fun n => (s.ports.find? n).map fun p => (n, p) with
  | some (n, p) => { s with ports := s.ports.insert n { p with unacked := p.unacked + 1, ctr := p.ctr + 1 } }
  | none => s

/-- The tag of a load from the fabric (R455): behind the stores that its pair has sent, it carries AFTER and their last number (R124). -/
def State.loadTag (s : State) (gid ch : Nat) (d : Dest) : BitVec 64 :=
  match (s.pairsOf gid).find? fun p => p.ch == ch && p.dest == d with
  | some q => if q.opened then tagOf gid ch (q.next - 1) q.run false none ||| (1#64 <<< 17) else tagOf gid ch 0 q.run false none
  | none => tagOf gid ch 0 (s.nextRun gid ch d) false none

/-- Sends a message to another accelerator. -/
def State.sendMsg (s : State) (m : FabMsg) : State := ({ s with fabOut := s.fabOut ++ [m] } : State).sendFlit (s.portFor m.key.lane)

/-- A request leaves for the fabric; one to the device itself does not (R56). -/
def State.sendOut (s : State) (d : Dest) (x : Nat) : Option Nat × State :=
  match d with
  | .fab a _ => if a = s.accelId.toNat then (none, s) else let p := s.portFor x; (p, s.sendFlit p)
  | _ => (none, s)

/-- A pair without operations is freed, its run over (R455); a fabric pair's destination is told (R456). -/
def State.freePair (s : State) (gid ch : Nat) (dest : Dest) : State :=
  if s.pairOut gid ch dest ≠ 0 then s
  else match (s.pairsOf gid).find? fun p => p.ch == ch && p.dest == dest with
    | none => s
    | some q =>
      let s := s.setPairs gid fun l => l.filter fun p => !(p.ch == ch && p.dest == dest)
      let rest := s.runs.filter fun r => !(r.1 == gid && r.2.1 == ch && r.2.2.1 == dest)
      let s : State := { s with runs := (gid, ch, dest, q.run + 1) :: rest }
      match dest with
      | .fab a lane =>
        if a = s.accelId.toNat then { s with rpairs := s.rpairs.filter fun r => r.key != ⟨a, gid, ch, lane⟩ }
        else s.sendMsg { dst := a, key := ⟨s.accelId.toNat, gid, ch, lane⟩, body := .pairFree }
      | _ => s

/-- A packet is acknowledged (R125): it leaves the retention buffer and the joins it is in. -/
def State.ackPacket (s : State) (id : Nat) : State :=
  match s.packets.find? fun p => p.id == id with
  | none => s
  | some k =>
    let s : State := { s with packets := s.packets.filter fun p => p.id != id }
    let gone (i : Nat) : Bool := i == id || (k.cmd == some i && !s.cmdLive k.gid i && !s.packets.any fun p => p.cmd == some i)
    let s := s.setJoins k.gid fun l => (l.map fun j => (j.1, j.2.1, j.2.2.filter fun i => !gone i)).filter fun j => !j.2.2.isEmpty
    s.freePair k.gid k.ch k.dest

/-- Sends a packet from its source: it takes the pair's next number. -/
def State.depart (s : State) (id : Nat) : State :=
  match s.packets.find? fun p => p.id == id with
  | none => s
  | some k =>
    let s := s.openPair k.gid k.ch k.dest
    let q := ((s.pairsOf k.gid).find? fun p => p.ch == k.ch && p.dest == k.dest).getD { ch := k.ch, dest := k.dest }
    let s := s.setPairs k.gid fun l => l.map fun p => if p.ch == k.ch && p.dest == k.dest then { p with next := p.next + 1, opened := true } else p
    let (port, s) := s.sendOut k.dest k.pay.place
    { s with packets := updFirst (fun p => p.id == id) (fun p =>
        { p with st := .flying, sent := s.now, gen := s.gen, seq := q.next, run := q.run, rs := !q.opened, port := port }) s.packets }

/-- What makes a packet wait at its source: a command, a packet that waits there too, a packet of another pair that is on another
channel or where a fabric destination is concerned (R122, R123), one of its channel sent to its region under an earlier generation (R426), and
CHSYNC on its channel under a release (R457). -/
def heldAtSource (s : State) (gid ch : Nat) (d : Dest) (rel : Bool) (place : Nat) (deps : List Nat) : Bool :=
  (rel && (s.pairsOf gid).any fun p => p.ch == ch && p.resync) ||
  deps.any fun i => match s.packets.find? fun p => p.id == i with
    | none => true
    | some p => p.st == .source || (p.ch == ch && s.older p place) || (!(p.ch == ch && p.dest == d) && (p.ch != ch || isFabDest p.dest || isFabDest d))

/-- Issues a channel packet. -/
def State.send (s : State) (w : Who) (tid ch : Nat) (d : Dest) (rel : Bool) (scope : BitVec 3) (pay : Pay) (a : Acc)
    (load cmd : Option Nat) (pts : Option (BitVec 24)) : State :=
  let deps := s.chanDeps w tid ch d rel scope.toNat pay.place cmd
  let held := heldAtSource s w.gid ch d rel pay.place deps
  let (id, s) := (s.openPair w.gid ch d).fresh
  let s : State := { s with packets := s.packets ++
    [{ id := id, gid := w.gid, core := w.core, ctx := w.ctx, tid := tid, also := a.also, ch := ch, dest := d, seq := 0, run := 0, rs := false,
       rel := rel, scope := scope, st := .source, deps := deps, pay := pay, vpage := a.vpage, ppage := a.ppage, psize := a.psize, sent := s.now,
       load := load, cmd := cmd, limit := fld s.rtimeout 39 0, pts := pts }] }
  if held then s else s.depart id

/-- An operation on the issuing die with nothing before it is performed at once, unless the issue is one whose accesses are deferred: it then
travels as any other (R116, R358). -/
def State.performsNow (s : State) (w : Who) (tid ch : Nat) (d : Dest) (rel : Bool) (scope place : Nat) (cmd : Option Nat) : Bool :=
  (d == .die w.die || w.phys) && !s.cur.defer && (s.chanDeps w tid ch d rel scope place cmd).isEmpty &&
    (s.pairsOf w.gid).all fun p => !(p.ch == ch && p.dest == d)

/-- What a release carries: the pts of the releasing cluster (R113); after a release FENCE, what the FENCE carries. -/
def releasePts (s : State) (w : Who) (t : Option Thread) (ord scope : Nat) : Option (BitVec 24) :=
  if ord ≥ 2 && scope ≥ 2 then some (s.clock (clockOf w.core)) else t.bind Thread.relPts

/-! ## Results in registers (R275) -/

/-- Writes `size` bytes of a value to a thread's registers from `d` on. -/
def Thread.placeVec (t : Thread) (d size v : Nat) : Thread :=
  (List.range ((size + 3) / 4)).foldl (fun t j => t.wrV (d + j) (BitVec.ofNat 32 (v / 2 ^ (32 * j) % 2 ^ (8 * size)))) t

/-- Writes `size` bytes of a value to uniform registers from `d` on. -/
def Warp.placeUni (w : Warp) (d size v : Nat) : Warp :=
  if size = 16 then (w.wrS d (BitVec.ofNat 64 v)).wrS (d + 1) (BitVec.ofNat 64 (v / 2 ^ 64))
  else w.wrS d (BitVec.ofNat 64 (v % 2 ^ (8 * size)))

/-- Reads `size` bytes of data from D (R275). -/
def rdData (w : Warp) (t : Thread) (f : BitVec 8) (size : Nat) : Nat :=
  let n := f.toNat
  if isUni f then
    if size = 16 then (w.rdS (n - 0xC0)).toNat + 2 ^ 64 * (w.rdS (n - 0xC0 + 1)).toNat
    else (w.rdS (n - 0xC0)).toNat % 2 ^ (8 * size)
  else ((List.range ((size + 3) / 4)).foldl (fun v j => v + 2 ^ (32 * j) * (t.rdV (n + j)).toNat) 0) % 2 ^ (8 * size)

end Sys2Proof.Machine
end

