-- ==== Sys2Proof/Machine/LoadInstr.lean ====
section
/-!
DEFINITION. Loads: LD, LDW, LDS, LDK (R274 to R276), LR (R283), DGET (R290) and LDB (R292).
-/
namespace Sys2Proof.Machine
open Sys2Proof

/-- A memory instruction whose register operands are all uniform acts once, as the thread of P with the lowest slot (R269). -/
def memThreads (op : Nat) (x : Enc) (v : View) : List Thread :=
  if (fieldList op x).all (fun p => !p.1.isVec p.2) then (v.P x).take 1 else v.P x

/-- Whose translations an agent uses: a core's TLB, or its cluster's engine TLB for a foreman (R415). -/
def Who.owner (w : Who) : Nat := if w.gid < 131072 then w.core else tlbEngine w.cl

/-- What one access of a load returns: thread, place in its block, block. -/
structure Got where
  tid : Nat
  off : Nat
  idx : Nat
  seen : Option (BitVec 24)
  sec : Sec

/-- Reads of all accesses, in slot order. -/
inductive RdRes where
  | ok (l : List Got) (s : State)
  | recall (frag : Nat)
  | blocked

/-- A plain load of another group's may come before the write-back of a dropped claim's unit, until a load has seen it (R363). -/
def State.seePast (s : State) (w : Who) (pa : Nat) (x : Sec) : Sec × State :=
  let u := s.fwd pa / 16
  let at' := 128 * (pa % 64 / 16)
  let now := x.data.extractLsb' at' 128
  let plain := (s.frag? pa).all fun f => ((s.cluster w.cl).claim? f.id w.ctx).isNone
  match (s.cluster w.cl).past.find? fun p => p.unit == u && p.gid != w.gid && p.new == now && plain with
  | none => (x, s)
  | some p =>
    let (n, s) := s.draw
    if Config.choice n then ({ x with data := (x.data &&& ~~~((BitVec.ofNat 512 (2 ^ 128 - 1)) <<< at')) ||| (p.old.zeroExtend 512 <<< at') }, s)
    else (x, s.updCluster w.cl fun c => { c with past := c.past.filter fun q => q.unit != u })

def readAll (w : Who) (useL1 : Bool) (scope hint : Nat) : List (Acc × Nat) → State → RdRes
  | [], s => .ok [] s
  | (a, idx) :: as, s =>
    let r : LoadRes :=
      if w.phys then match s.recallFor none a.pa with
        | some f => .recall f
        | none => if s.waitsAt a.pa then .blocked else .sec (s.homeSec a.pa) s
      else s.loadBlock w.core w.ctx a.pa scope hint (useL1 && decide (w.gid < 131072))
    match r with
    | .recall f => .recall f
    | .blocked => .blocked
    | .sec x s' =>
      let (x, s') := s'.seePast w a.pa x
      match readAll w useL1 scope hint as s' with
      | .ok l s'' => .ok (⟨a.tid, a.pa % 64, idx, s.carry.find? (s.fwd a.pa / 16), x⟩ :: l) s''
      | e => e

/-- What a load does with the block it reads: value and flags. -/
def loadValue (kind : LoadKind) (x : Enc) (rmode : BitVec 3) (dmode : Bool) (size off idx : Nat) (b : Sec) : Nat × Flags :=
  match kind with
  | .dget => (b.desc.toNat, 0)
  | .ldb =>
    let fmt := fld b.desc 15 8
    let bits := (blkBits fmt).getD 32
    let code := elemCode bits (idx % blkElems fmt) (blkByte b.data)
    let (m, sat) := modeHi (fld x.mod 7 5) rmode
    x.ty.fmt.deliver m sat dmode (elemValue dmode fmt (fld b.desc 7 0) code)
  | _ => (blkNat b.data off size, 0)

/-- A block LDB refuses raises FORMAT (R78, R81, R292). -/
def badFormat (kind : LoadKind) (b : Sec) : Bool := kind == .ldb && !descReadable b.desc

def formatFlt (va : BitVec 64) (d : BitVec 16) : Flt := { code := cFormat, info := d.toNat, addr := va, acc := 1 }

/-- Writes what a load returned to the registers of its threads: to D of each, or once to a uniform D, flags in each thread of P. -/
def View.place (v : View) (x : Enc) (d : BitVec 8) (size : Nat) (rs : List (Nat × Nat × Flags × Option (BitVec 24))) : View :=
  let n := d.toNat
  let fl : Flags := if isUni d then rs.foldl (fun f r => f ||| r.2.2.1) 0 else 0
  let warp := if isUni d then (match rs with
    | r :: _ => v.warp.placeUni (n - 0xC0) size r.2.1
    | [] => v.warp) else v.warp
  ⟨warp, v.ths.map fun t =>
    let t := if isUni d && guardTrue x.w2 t then t.setFlag fl else t
    match rs.find? (fun r => r.1 == t.tid) with
    | some r =>
      let t := { t with seenPts := tsJoin t.seenPts r.2.2.2 }
      if isUni d then t else (t.placeVec n size r.2.1).setFlag r.2.2.1
    | none => t⟩

/-- An acquire at GROUP scope or wider puts what its group has in flight before the warp's later accesses (log entry 66). -/
def State.joinGroup (s : State) (w : Who) : State :=
  match s.group? w.gid with
  | some g => s.inherit w.gid ((g.threads.filter fun t => t.wid == w.wid).map Thread.tid)
  | none => s

/-- The acquire of an access at a scope, having read from locations that carry timestamps (R70, R109, R113). -/
def State.acquire (s : State) (w : Who) (scope : Nat) (seen : List (Option (BitVec 24))) : State :=
  if scope = 0 || w.phys then s
  else if scope = 1 then s.joinGroup w
  else
    let s := (s.joinGroup w).l1Acquire w.core w.ctx scope
    match seen.foldl tsJoin none with
    | some p => s.setClock (.cluster w.cl) (tsMax (s.cluster w.cl).pts p)
    | none => s

/-- The scope an access acts at: on scratch none wider than GANG (R276). -/
def scratchScope (x : Enc) : Nat := min 2 x.w2.scope.toNat

/-- Ends a load whose accesses have been performed. -/
def loadDone (x : Enc) (scope : Nat) (kind : LoadKind) (size : Nat) (v : View) (gs : List Got) (s : State) : State :=
  let rs := gs.map fun g =>
    let r := loadValue kind x v.warp.rmode v.warp.dmode size g.off g.idx g.sec
    (g.tid, r.1, r.2, g.seen)
  let s := if x.w2.ord = 1 then s.acquire (who s) scope (gs.map Got.seen) else s
  finish x (dcost x v) s (v.place x x.d size rs)

/-- Sends the requests of parts that no port has carried; an atomic's travels as a packet of its own. -/
def State.sendParts (s : State) (kind : LoadKind) (ps : List LoadPart) : List LoadPart × State :=
  ps.foldl (fun r q => match q.place with
    | .fabric acc xa =>
      if kind == .atomic || q.port.isSome || !q.waits then (r.1 ++ [q], r.2)
      else
        let (port, t) := r.2.sendOut (.fab acc (fabLane xa)) xa
        (r.1 ++ [{ q with port := port }], t)
    | .mem _ => (r.1 ++ [q], r.2)) ([], s)

/-- Sends accesses whose results come by MEMORY_RESPONSE; the warp goes on as LOOK allows (R209). With the REMOTE fault enabled a
fabric access opens no window, and an LDB of the fabric, which may raise FORMAT, opens none. -/
def State.outstanding (s : State) (w : Who) (v : View) (x : Enc) (kind : LoadKind) (d : BitVec 8) (size : Nat) (noret : Bool) (as : List (Acc × Nat)) : Nat × State :=
  let (id, s) := s.fresh
  let fab := as.any fun a => a.1.fab.isSome
  let look := if fab && (bit s.rtimeout 63 || kind == .ldb) then 0 else if x.w2.ord != 0 then 0 else x.w2.look.toNat
  let parts := as.map fun (a, i) =>
    { tid := a.tid, slot := a.slot, addr := a.va, idx := i, vpage := a.vpage, ppage := a.ppage, psize := a.psize,
      place := match a.fab with
        | some (acc, xa) => LoadAt.fabric acc xa
        | none => LoadAt.mem a.pa
      tag := match a.fab with
        | some (acc, xa) => s.loadTag w.gid x.w2.ch.toNat (.fab acc (fabLane xa))
        | none => 0 : LoadPart }
  let (parts, s) := s.sendParts kind parts
  -- one more than LOOK: the issue that opens the window counts one off at its own end
  (id, { s with loads := s.loads ++
    [{ id := id, gid := w.gid, wid := w.wid, core := w.core, ctx := w.ctx, kind := kind, enc := x, rmode := v.warp.rmode,
       dmode := v.warp.dmode, d := d, size := size, uni := isUni d, noret := noret, parts := parts, ord := x.w2.ord, scope := x.w2.scope,
       sent := s.now, limit := fld s.rtimeout 39 0, pc := s.cur.pc, path := s.cur.path, remote := bit s.rtimeout 63, look := look + 1 }] })

/-- A load of the fabric is not sent before earlier stores on its channel to its destination that wait at their source (R124). -/
def fabWait (s : State) (w : Who) (ch : Nat) (as : List Acc) : Bool :=
  as.any fun a => a.fab.isSome && s.packets.any fun p => p.gid == w.gid && p.ch == ch && p.dest == s.destOf a && p.st == .source

/-- A load of global memory. `once` gives the threads that act, `va` the address each names. -/
def globalLoad (op : Nat) (x : Enc) (s : State) (v : View) (kind : LoadKind) (size asize align : Nat) (va : Thread → BitVec 64)
    (idx : Thread → Nat) : State :=
  let ths := memThreads op x v
  if ths.isEmpty then finish x 1 s v
  else
    let w := who s
    match checkAll s w w.owner (ths.map fun t => { tid := t.tid, slot := t.slot, va := va t, size := asize, acc := 1, align := align }) with
    | .fault t sl f => raise t sl f s
    | .recall f => stallRecall f s
    | .blocked => stall s
    | .ok as =>
      if xlatWait s w.core w.ctx as || blockWait s w none as || loadsWait s w.core as || fabWait s w x.w2.ch.toNat as then stall s
      else match as.find? (fun a => a.fab.isNone && s.poisonedAt a.pa) with
        | some a => raise a.tid a.slot (poisonFlt a.va 1 0) s
        | none =>
          let s1 := s.tlbFill (as.flatMap Acc.fills)
          let withIdx := List.zipWith (fun a t => (a, idx t)) as ths
          if as.any (fun a => a.fab.isSome) || (s.cur.defer && kind == .load) then
            retire x (dcost x v) (s1.outstanding w v x kind x.d size false withIdx).2
          else match readAll w true x.w2.scope.toNat x.w2.hint.toNat withIdx s1 with
            | .recall f => stallRecall f s
            | .blocked => stall s
            | .ok gs s2 =>
              match (List.zipWith (fun a g => (a, g)) as gs).find? (fun p => badFormat kind p.2.sec) with
              | some (a, g) => raise a.tid a.slot (formatFlt a.va g.sec.desc) s
              | none => loadDone x x.w2.scope.toNat kind size v gs s2

/-! ## Scratch -/

/-- The block of an allocation that holds an offset. -/
def Scratch.sec (c : Scratch) (off : Nat) : Sec :=
  let b := off / 64 * 64
  ⟨BitVec.ofNat 512 (leNat ((List.range 64).map fun i => SMap.getD (0 : Byte) c.bytes (b + i))), c.desc.getD rawDesc (off / 64)⟩

/-- A load of scratch (R57 to R60). -/
def scratchLoad (op : Nat) (x : Enc) (s : State) (v : View) (kind : LoadKind) (size asize align : Nat) (idx : Thread → Nat)
    (off : Thread → Nat) : State :=
  let ths := memThreads op x v
  match s.group? (who s).gid with
  | none => finish x 1 s v
  | some g =>
    if ths.isEmpty then finish x 1 s v
    else
      let rs := ths.map fun t => (t, checkScratch s g (off t) asize 1 align)
      let fails : List Failure := rs.filterMap fun p => match p.2 with
        | .bad o f => some (o, p.1.tid, p.1.slot, f)
        | _ => none
      match firstFailure fails with
      | some (_, t, sl, f) => raise t sl f s
      | none =>
        let gs : List (Nat × Got) := rs.filterMap fun p => match p.2 with
          | .ok gid o => (s.group? gid).map fun tg => (p.1.slot, ⟨p.1.tid, o % 64, idx p.1, s.carry.find? (scrKey gid o), tg.scr.sec o⟩)
          | _ => none
        let bad := rs.find? fun p => match p.2 with
          | .ok gid o => ((s.group? gid).map fun tg => tg.scr.poison.contains (o / 64)).getD false
          | _ => false
        match bad with
        | some (t, _) => raise t.tid t.slot (poisonFlt (BitVec.ofNat 64 (off t)) 1 2) s
        | none => match gs.find? (fun p => badFormat kind p.2.sec) with
          | some (sl, g) => raise g.tid sl (formatFlt (BitVec.ofNat 64 ((ths.find? (fun t => t.tid == g.tid)).map off |>.getD 0)) g.sec.desc) s
          | none => loadDone x (scratchScope x) kind size v (gs.map (·.2)) s

/-! ## Meanings -/

/-- LD (R276). -/
def execLd (x : Enc) (s : State) : Out :=
  issue 0x70 x s fun v =>
    globalLoad 0x70 x s v .load x.ty.bytes x.ty.bytes x.ty.bytes (fun t => memAddr x v.warp t x.ty.bytes) (fun _ => 0)

/-- LDW (R275): `.x4` 16 bytes, `.x2` 8. -/
def execLdw (x : Enc) (s : State) : Out :=
  issue 0x71 x s fun v =>
    let n := 4 * wideOf 0x71 x.subN
    globalLoad 0x71 x s v .load n n n (fun t => memAddr x v.warp t 4) (fun _ => 0)

/-- Bytes of an LDS, STS or STM access and of one element (R274, R275). -/
def scrSize (op : Nat) (x : Enc) : Nat × Nat := if x.subN = 0 then (x.ty.bytes, x.ty.bytes) else (4 * wideOf op x.subN, 4)

/-- LDS (R276). -/
def execLds (x : Enc) (s : State) : Out :=
  issue 0x72 x s fun v =>
    let (n, e) := scrSize 0x72 x
    scratchLoad 0x72 x s v .load n n n (fun _ => 0) (fun t => memAddr32 x v.warp t e)

/-- The checks of one LDK access: alignment, the block's bound, translation, purity (R63, R270, R191). -/
def checkConst (s : State) (w : Who) (g : Group) (t : Thread) (off size : Nat) : AccRes :=
  let o := BitVec.ofNat 64 off
  if off % size ≠ 0 then .bad 1 (alignFlt o 1 size)
  else if off + size > g.clen then .bad 2 (permFlt o 1 4 0)
  else
    let r := checkGlobal s w w.owner { tid := t.tid, slot := t.slot, va := g.cbase + o, size := size, acc := 1, align := 1 }
    let pure : AccRes := .bad 3 { code := cPurity, info := 4, addr := o, acc := 1 }
    if g.pure.isNone then r
    else match r with
      | .bad 2 f => .bad 2 f
      | .recall f => .recall f
      | .blocked => .blocked
      | _ => pure

/-- The launch whose constant block a group reads. -/
def Group.konstLaunch (s : State) (g : Group) : Option Launch := g.launch.bind fun i => s.launches.find? fun l => l.id == i

/-- One 16-byte unit of a constant block as an LDK may see it (R63, R64): the launch's value, the unit the cluster's cache holds, or the home's,
which enters the cache. Which of them is a free choice. -/
def constUnit (s : State) (cl : Nat) (g : Group) (u : Nat) (home : BitVec 128) : BitVec 128 × State :=
  match g.konstLaunch s with
  | none => (home, s)
  | some l =>
    let (n, s) := s.draw
    let cached := ((s.cluster cl).konst.find? fun e => e.1 == l.id && e.2.1 == u).map fun e => e.2.2
    let fill (s : State) : State := s.updCluster cl fun c => { c with konst := (l.id, u, home) :: c.konst.filter fun e => !(e.1 == l.id && e.2.1 == u) }
    if Config.choice n then
      match cached with
      | some v => (v, s)
      | none => (home, fill s)
    else if Config.choice (n + 1) then (home, fill { s with free := s.free + 1 })
    else ((l.konst.find? u).getD home, { s with free := s.free + 1 })

/-- The units an LDK reads, one after another: the access lies in one unit. -/
def constAll (cl : Nat) (g : Group) : List (Acc × Got) → State → List Got × State
  | [], s => ([], s)
  | (a, x) :: l, s =>
    let r := constUnit s cl g (s.fwd a.pa / 16) (x.sec.data.extractLsb' (a.pa % 64 / 16 * 128) 128)
    let rest := constAll cl g l r.2
    let at' : Nat := a.pa % 64 / 16 * 128
    let mask : BitVec 512 := ~~~((BitVec.ofNat 512 (2 ^ 128 - 1)) <<< at')
    ({ x with sec := { x.sec with data := (x.sec.data &&& mask) ||| (r.1.zeroExtend 512 <<< at') } } :: rest.1, rest.2)

/-- LDK (R276, R63). A constant block may lie in the fabric: its loads come back as a load's do. -/
def execLdk (x : Enc) (s : State) : Out :=
  issue 0x73 x s fun v =>
    let w := who s
    let n := x.ty.bytes
    let ths := memThreads 0x73 x v
    match s.group? w.gid with
    | none => finish x 1 s v
    | some g =>
      if ths.isEmpty then finish x 1 s v
      else match collect (ths.map fun t =>
          let o := memAddr32 x v.warp t n
          ({ tid := t.tid, slot := t.slot, va := BitVec.ofNat 64 o, size := n, acc := 1, align := n }, checkConst s w g t o n)) with
        | .fault t sl f => raise t sl f s
        | .recall f => stallRecall f s
        | .blocked => stall s
        | .ok as => match as.find? (fun a => a.fab.isNone && s.poisonedAt a.pa) with
          | some a => raise a.tid a.slot (poisonFlt a.va 1 0) s
          | none =>
            if as.any fun a => a.fab.isSome then retire x (dcost x v) (s.outstanding w v x .load x.d n false (as.map fun a => (a, 0))).2
            else match readAll w false 3 0 (as.map fun a => (a, 0)) (s.tlbFill (as.flatMap Acc.fills)) with
              | .recall f => stallRecall f s
              | .blocked => stall s
              | .ok gs s2 => let r := constAll w.cl g (List.zip as gs) s2; loadDone x x.w2.scope.toNat .load n v r.1 r.2

/-- A home read that does not read the L1 replaces the reading core's copy, or invalidates it, as its hint says (R105). -/
def refill (w : Who) (hint : Nat) (as : List Acc) (gs : List Got) (s : State) : State :=
  (List.zip as gs).foldl (fun s p =>
    if w.gid ≥ 131072 || !isFlistad p.1.pa || s.claimed w.cl w.ctx (s.blk p.1.pa) then s else s.fillAfter w.core w.ctx p.1.pa hint p.2.sec) s

/-- LR (R283): a home read, or in L1 under the cluster's own write claim; sets the reservation of each thread. Fabric and host
addresses raise PERM, and in a pure task it raises PURITY (R191, R135). -/
def execLr (x : Enc) (s : State) : Out :=
  issue 0x7B x s fun v =>
    let w := who s
    let n := x.bits / 8
    let ths := memThreads 0x7B x v
    if ths.isEmpty then finish x 1 s v
    else
      let check (t : Thread) : Want × AccRes :=
        let wt : Want := { tid := t.tid, slot := t.slot, va := memAddr x v.warp t n, size := n, acc := 1, align := n }
        (wt, checkRmw s w w.owner true false wt)
      match collect (ths.map check) with
      | .fault t sl f => raise t sl f s
      | .recall f => stallRecall f s
      | .blocked => stall s
      | .ok as =>
        if xlatWait s w.core w.ctx as || blockWait s w none as || loadsWait s w.core as then stall s
        else match as.find? (fun a => s.poisonedAt a.pa) with
          | some a => raise a.tid a.slot (poisonFlt a.va 1 0) s
          | none => match readAll w false x.w2.scope.toNat x.w2.hint.toNat (as.map fun a => (a, 0)) (s.tlbFill (as.flatMap Acc.fills)) with
            | .recall f => stallRecall f s
            | .blocked => stall s
            | .ok gs s2 =>
              let resv (t : Thread) : Thread := match as.find? (fun a => a.tid == t.tid) with
                | some a => { t with resv := some (s.blk a.pa, s.cyclesOf (w.die % 8)), lr := some 0 }
                | none => t
              loadDone x x.w2.scope.toNat .load n ⟨v.warp, v.ths.map resv⟩ gs (refill w x.w2.hint.toNat as gs s2)

/-- DGET (R290). -/
def execDget (x : Enc) (s : State) : Out :=
  issue 0x80 x s fun v =>
    if x.subN = 1 then scratchLoad 0x80 x s v .dget 4 1 1 (fun _ => 0) (fun t => memAddr32 x v.warp t 64)
    else globalLoad 0x80 x s v .dget 4 1 1 (fun t => memAddr x v.warp t 64) (fun _ => 0)

/-- LDB (R292): the element index is bits 6:0 of C. -/
def execLdb (x : Enc) (s : State) : Out :=
  issue 0x82 x s fun v =>
    let idx (t : Thread) : Nat := rdOp v.warp t x.c 32 % 128
    if x.subN = 1 then scratchLoad 0x82 x s v .ldb x.ty.bytes 64 64 idx (fun t => memAddr32 x v.warp t 1)
    else globalLoad 0x82 x s v .ldb x.ty.bytes 64 64 (fun t => memAddr x v.warp t 1) idx

end Sys2Proof.Machine
end

