-- ==== Sys2Proof/Machine/StoreInstr.lean ====
section
/-!
DEFINITION. Stores: ST, STW, STS (R277), STM (R278), DSET (R291) and QPACK (R261).
-/
namespace Sys2Proof.Machine
open Sys2Proof

/-- What one access of a store writes: the access, its bytes, what it does to the descriptor. -/
structure Put where
  acc : Acc
  cells : List (Nat × Byte)
  desc : DescAct

/-- The address an access writes at: a physical address, or an XADDR. -/
def Acc.at (a : Acc) : Nat := match a.fab with
  | some (_, x) => x
  | none => a.pa

/-- Adds a store to the packet of its block, or makes a packet of its own; later bytes and descriptor win. -/
def addPut : List Put → Put → List Put
  | [], q => [q]
  | h :: t, q =>
    if q.acc.fab.map Prod.fst == h.acc.fab.map Prod.fst && q.acc.at / 64 == h.acc.at / 64 then
      { h with cells := h.cells ++ q.cells, desc := q.desc, acc := { h.acc with also := q.acc.tid :: h.acc.also } } :: t
    else h :: addPut t q

/-- Accesses of one instruction to one block travel as one packet (R271), in the order of the lowest slot they contain. -/
def blockPuts (ps : List Put) : List Put := ps.foldl addPut []

/-- Marks a channel whose operation waits for a pair-table entry or for the window (R296). -/
def State.markWait (s : State) (gid ch : Nat) (b : Bool) : State :=
  s.updGroup gid fun g => { g with chWait := if b then (if g.chWait.contains ch then g.chWait else ch :: g.chWait) else g.chWait.filter (· != ch) }

/-- What keeps one block's store from being issued. -/
inductive PutWait where
  | go | room | blocked | recall (frag : Nat)
  deriving DecidableEq, Repr

/-- A command's write waits for the outstanding loads that its group issued before it at the same place (R127). -/
def loadsBefore (s : State) (w : Who) (cmd : Option Nat) (as : List Acc) : Bool :=
  cmd.any fun c => s.loads.any fun l => l.gid == w.gid && decide (l.id < c) && l.parts.any fun q => q.waits && as.any fun a => match q.place with
    | .mem pa => a.fab.isNone && s.blk a.pa == s.blk pa
    | .fabric n x => a.fab.any fun f => f.1 == n && f.2 / 64 == x / 64

/-- One block's store performed or sent: held in L1 under the own write claim, performed at once at a home on the issuing die, or sent
on its channel (R69, R119, R121). -/
def putOne (w : Who) (tid ch : Nat) (ord : Nat) (scope : BitVec 3) (hint : Nat) (pts : Option (BitVec 24)) (cmd : Option Nat) (p : Put)
    (s : State) : PutWait × State :=
  let rel := decide (ord ≥ 2)
  let d := s.destOf p.acc
  let place := p.acc.at
  if !s.pairRoom w ch d 1 then (.room, s)
  else if loadsBefore s w cmd [p.acc] then (.blocked, s)
  else if p.acc.fab.isNone && !w.phys && s.ownWrite w.core w.ctx place && (s.chanDeps w tid ch d rel scope.toNat place cmd).isEmpty then
    (.go, s.storeBlock w.core w.ctx place p.cells p.desc pts)
  else
    let l1 (s : State) : State :=
      if w.gid < 131072 && p.acc.fab.isNone && isFlistad place then
        s.l1Store w.core w.ctx place p.cells (match p.desc with
          | .put d => d
          | _ => rawDesc) hint
      else s
    if p.acc.fab.isNone && s.performsNow w tid ch d rel scope.toNat place cmd then
      match s.homeWait w.core w.ctx place with
      | .blocked => (.blocked, s)
      | .recall f => (.recall f, s)
      | .go => (.go, (l1 s).storeBlock w.core w.ctx place p.cells p.desc pts)
    else (.go, (l1 s).send w tid ch d rel scope (.write place p.cells p.desc) p.acc none cmd pts)

/-- All blocks of a store, in order. A wait leaves everything undone. -/
def putAll (w : Who) (ch ord : Nat) (scope : BitVec 3) (hint : Nat) (pts : Nat → Option (BitVec 24)) : List Put → State → PutWait × State
  | [], s => (.go, s)
  | p :: ps, s =>
    match putOne w p.acc.tid ch ord scope hint (pts p.acc.tid) none p s with
    | (.go, s') => putAll w ch ord scope hint pts ps s'
    | r => r

/-- A thread that stores to its reserved block loses the reservation (R284). -/
def loseOwn (gid : Nat) (ps : List Put) (s : State) : State :=
  let hit (t : Thread) : Bool :=
    ps.any fun p => p.acc.fab.isNone && p.acc.tid == t.tid && t.resv.any (fun r => r.1 == s.blk p.acc.pa)
  s.updGroup gid fun g => { g with threads := g.threads.map fun t => if hit t then { t with resv := none } else t }

/-- A store of global memory, its accesses checked: poison (R519), waits, then every block, and `after` it what else the instruction
writes. -/
def storePuts (x : Enc) (s : State) (v : View) (cost : Nat) (as : List Acc) (ps : List Put) (after : State → State) : State :=
  let w := who s
  let ch := x.w2.ch.toNat
  if xlatWait s w.core w.ctx as || loadsWait s w.core as then stall s
  else
    let blocks := blockPuts ps
    let bad := as.find? fun a => a.fab.isNone && s.poisonedAt a.pa &&
      (s.dieLost (s.homeDie (s.fwd a.pa)) || !blocks.any (fun p => p.acc.fab.isNone && p.acc.pa / 64 == a.pa / 64 && coversBlock p.cells))
    match bad with
    | some a => raise a.tid a.slot (poisonFlt a.va 2 0) s
    | none =>
      let s1 := s.tlbFill (as.flatMap Acc.fills)
      let pts (tid : Nat) : Option (BitVec 24) :=
        releasePts s w (v.ths.find? (fun t => t.tid == tid)) x.w2.ord.toNat x.w2.scope.toNat
      match putAll w ch x.w2.ord.toNat x.w2.scope x.w2.hint.toNat pts blocks s1 with
      | (.go, s2) => retire x cost (loseOwn w.gid ps (after (s2.markWait w.gid ch false)))
      | (.room, _) => stall (s.markWait w.gid ch true)
      | (.blocked, _) => stall s
      | (.recall f, _) => stallRecall f s

/-- A store of global memory by the threads that act: `data` gives each thread's bytes at its address, and the descriptor action. -/
def globalStore (op : Nat) (x : Enc) (s : State) (v : View) (size align : Nat) (va : Thread → BitVec 64)
    (data : Thread → Acc → List (Nat × Byte) × DescAct) : State :=
  let ths := memThreads op x v
  if ths.isEmpty then finish x 1 s v
  else
    let w := who s
    match checkAll s w w.owner (ths.map fun t => { tid := t.tid, slot := t.slot, va := va t, size := size, acc := 2, align := align }) with
    | .fault t sl f => raise t sl f s
    | .recall f => stallRecall f s
    | .blocked => stall s
    | .ok as =>
      let ps := List.zipWith (fun a t => let r := data t a; (⟨a, r.1, r.2⟩ : Put)) as ths
      storePuts x s v (vcost x v) as ps id

/-- ST (R277). -/
def execSt (x : Enc) (s : State) : Out :=
  issue 0x74 x s fun v =>
    let n := x.ty.bytes
    globalStore 0x74 x s v n n (fun t => memAddr x v.warp t n) fun t a => (cellsOf a.at n (rdData v.warp t x.d n), .raw)

/-- STW (R277). -/
def execStw (x : Enc) (s : State) : Out :=
  issue 0x75 x s fun v =>
    let n := 4 * wideOf 0x75 x.subN
    globalStore 0x75 x s v n n (fun t => memAddr x v.warp t 4) fun t a => (cellsOf a.at n (rdData v.warp t x.d n), .raw)

/-! ## Scratch stores -/

/-- One write to scratch: allocation, offset, bytes, descriptor action, and who makes it. -/
structure SPut where
  tid : Nat
  slot : Nat
  va : BitVec 64
  gid : Nat
  off : Nat
  cells : List (Nat × Byte)
  desc : DescAct

def SPut.apply (s : State) (p : SPut) : State := s.putScr p.gid (p.off / 64) p.cells p.desc

/-- Scratch writes of one instruction: poison first (a block all of whose bytes the instruction writes is not poisoned by R519), then
all of them in slot order. -/
def scratchPuts (x : Enc) (s : State) (cost : Nat) (whole : Bool) (ps : List SPut) : State :=
  let all (p : SPut) : List (Nat × Byte) := (ps.filter fun q => q.gid == p.gid && q.off / 64 == p.off / 64).flatMap SPut.cells
  let bad := ps.find? fun p =>
    ((s.group? p.gid).map fun g => g.scr.poison.contains (p.off / 64)).getD false && !(whole && coversBlock (all p))
  match bad with
  | some p => raise p.tid p.slot (poisonFlt p.va 2 2) s
  | none =>
    let pts (p : SPut) : Option (BitVec 24) :=
      releasePts s (who s) (((view s).map View.ths).bind (fun l => l.find? (fun t => t.tid == p.tid))) x.w2.ord.toNat x.w2.scope.toNat
    let s' := ps.foldl SPut.apply s
    let s' := ps.foldl (fun s p => { s with carry := match pts p with
      | some v => s.carry.insert (scrKey p.gid p.off) v
      | none => s.carry.erase (scrKey p.gid p.off) }) s'
    let s' := ps.foldl (fun s p => if whole && coversBlock (all p) then
      s.putScr p.gid (p.off / 64) (all p) .keep else s) s'
    retire x cost s'

/-- A store to scratch by the threads that act. -/
def scratchStore (op : Nat) (x : Enc) (s : State) (v : View) (size align : Nat) (off : Thread → Nat)
    (data : Thread → Nat → List (Nat × Byte) × DescAct) : State :=
  let ths := memThreads op x v
  match s.group? (who s).gid with
  | none => finish x 1 s v
  | some g =>
    if ths.isEmpty then finish x 1 s v
    else if relWait s g.gid x ths then stall s
    else
      let rs := ths.map fun t => (t, checkScratch s g (off t) size 2 align)
      let fails : List Failure := rs.filterMap fun p => match p.2 with
        | .bad o f => some (o, p.1.tid, p.1.slot, f)
        | _ => none
      match firstFailure fails with
      | some (_, t, sl, f) => raise t sl f s
      | none => scratchPuts x s (vcost x v) true (rs.filterMap fun p => match p.2 with
          | .ok gid o => let r := data p.1 o; some ⟨p.1.tid, p.1.slot, BitVec.ofNat 64 (off p.1), gid, o, r.1, r.2⟩
          | _ => none)

/-- STS (R277). -/
def execSts (x : Enc) (s : State) : Out :=
  issue 0x76 x s fun v =>
    let (n, e) := scrSize 0x76 x
    scratchStore 0x76 x s v n n (fun t => memAddr32 x v.warp t e) fun t o => (cellsOf o n (rdData v.warp t x.d n), .raw)

/-- The parts of an STM of one thread: a fault, or the allocations its mask names, in ascending member order (R278). -/
def stmParts (s : State) (g : Group) (off size mask : Nat) : Except (Nat × Flt) (List (Nat × Nat)) :=
  let va := BitVec.ofNat 64 off
  let members := (List.range 16).filter fun i => mask.testBit i
  if off % size ≠ 0 then .error (1, alignFlt va 2 size)
  else if off / 2 ^ 31 % 2 = 1 then .error (2, permFlt va 2 3 0)
  else if members.any (fun m => decide (m ≥ g.gsize)) then .error (2, permFlt va 2 3 0)
  else
    let rs := members.map fun m => (m, checkScratch s g (2 ^ 31 + m * 2 ^ 27 + off % 2 ^ 21) size 2 size)
    if off ≥ 2 ^ 21 && !members.isEmpty then .error (2, permFlt va 2 2 0)
    else match rs.findSome? (fun p => match p.2 with
        | .bad o f => some (o, { f with addr := va })
        | _ => none) with
      | some e => .error e
      | none => .ok (rs.filterMap fun p => match p.2 with
          | .ok gid o => some (gid, o)
          | _ => none)

/-- STM (R278): one scratch store to each member named by bits 15:0 of C; parts at ended members are dropped. -/
def execStm (x : Enc) (s : State) : Out :=
  issue 0x77 x s fun v =>
    let (n, e) := scrSize 0x77 x
    let ths := memThreads 0x77 x v
    match s.group? (who s).gid with
    | none => finish x 1 s v
    | some g =>
      if ths.isEmpty then finish x 1 s v
      else if relWait s g.gid x ths then stall s
      else
        let rs := ths.map fun t => (t, stmParts s g (memAddr32 x v.warp t e) n ((rdU v.warp x.c).toNat % 2 ^ 16))
        let fails : List Failure := rs.filterMap fun p => match p.2 with
          | .error (o, f) => some (o, p.1.tid, p.1.slot, f)
          | .ok _ => none
        match firstFailure fails with
        | some (_, t, sl, f) => raise t sl f s
        | none => scratchPuts x s (vcost x v) false (rs.flatMap fun p => match p.2 with
            | .ok l => l.map fun q => ⟨p.1.tid, p.1.slot, BitVec.ofNat 64 (memAddr32 x v.warp p.1 e), q.1, q.2, cellsOf q.2 n (rdData v.warp p.1 x.d n), .raw⟩
            | .error _ => [])

/-- DSET (R291): the descriptor of the block; the data is unchanged. -/
def execDset (x : Enc) (s : State) : Out :=
  issue 0x81 x s fun v =>
    let d (t : Thread) : DescAct := .put (BitVec.ofNat 16 (rdOp v.warp t x.d 32))
    if x.subN = 1 then scratchStore 0x81 x s v 1 1 (fun t => memAddr32 x v.warp t 64) fun t _ => ([], d t)
    else globalStore 0x81 x s v 1 1 (fun t => memAddr x v.warp t 64) fun t _ => ([], d t)

/-! ## QPACK (R261) -/

/-- The values a QPACK gathers, k from each slot; +0 from slots outside P. -/
def qpackValues (x : Enc) (v : View) (k : Nat) : List FV :=
  (List.range Config.warpW).flatMap fun i =>
    match v.atSlot x i with
    | some t => (List.range k).map fun j => fpVal .f32 v.warp (t.rdV (x.d.toNat + j)).toNat
    | none => List.replicate k (.num false 0 0)

/-- Groups of `n` values of a list, `m` of them. -/
def groupsOf (n : Nat) : Nat → List FV → List (List FV)
  | 0, _ => []
  | m + 1, l => l.take n :: groupsOf n m (l.drop n)

/-- QPACK (R261): W × k values in whole blocks, each with its descriptor, at the address of the thread of P with the lowest slot. -/
def execQpack (x : Enc) (s : State) : Out :=
  issue 0x51 x s fun v =>
    let k := x.c.toNat
    let fmt := x.subN % 16
    let ty := x.subN / 16
    let n := blkElems fmt
    if !(k = 1 || k = 2 || k = 4 || k = 8) || Config.warpW * k % n ≠ 0 then takeFault (ownIll 0x51 x) s
    else match v.P x with
      | [] => finish x 1 s v
      | t :: _ =>
        let w := who s
        let nb := Config.warpW * k / n
        let va := memAddr x v.warp t 64
        let wants := (List.range nb).map fun j =>
          ({ tid := t.tid, slot := t.slot, va := va + BitVec.ofNat 64 (64 * j), size := 64, acc := 2, align := 64 } : Want)
        match checkAll s w w.owner wants with
        | .fault t sl f => raise t sl f s
        | .recall f => stallRecall f s
        | .blocked => stall s
        | .ok as =>
          let (m, sat) := modeOf x v.warp
          let blocks := (groupsOf n nb (qpackValues x v k)).map (quantBlock fmt ty m sat v.warp.dmode)
          let bits := (blkBits fmt).getD 32
          let ps := List.zipWith (fun a (b : Nat × List (Nat × Flags)) =>
            let bytes := packCodes bits (b.2.map (·.1))
            (⟨a, bytes.mapIdx (fun i c => (a.at + i, c)), .put (BitVec.ofNat 16 (fmt * 256 + b.1))⟩ : Put)) as blocks
          let flags := blocks.flatMap fun b => b.2.map (·.2)
          let v' := v.mapP x fun u => u.setFlag (((flags.drop (u.slot * k)).take k).foldl (· ||| ·) 0)
          storePuts x s v (vcost x v) as ps fun s => s.updGroup w.gid fun g => g.putThreads (v'.ths.map fun u =>
            { u with resv := ((g.thread? u.tid).bind Thread.resv) })

end Sys2Proof.Machine
end

