-- ==== Sys2Proof/Machine/Atomic.lean ====
section
/-!
DEFINITION. Atomics and SC: ATOM, ATOMS (R279 to R281), ATOMP (R282), SC (R283, R284).
-/
namespace Sys2Proof.Machine
open Sys2Proof

/-- One thread's atomic or SC on global memory: done, with the old value or success and what the location carried; sent on its
channel; or a wait. -/
inductive RmwRes where
  | done (r : Nat) (seen : Option (BitVec 24)) (s : State)
  | sent (s : State)
  | room | blocked
  | recall (frag : Nat)

/-- Performs or sends one read-modify-write (R121, R135). -/
def rmwOne (w : Who) (ch ord : Nat) (scope : BitVec 3) (pts : Option (BitVec 24)) (load : Option Nat) (a : Acc) (pay : Pay) (s : State) : RmwRes :=
  let rel := decide (ord ≥ 2)
  let d := s.destOf a
  let place := pay.place
  let p : Packet :=
    { id := 0, gid := w.gid, core := w.core, ctx := w.ctx, tid := a.tid, ch := ch, dest := d, seq := 0, run := 0, rs := false,
      rel := rel, scope := scope, st := .flying, deps := [], pay := pay, vpage := a.vpage, ppage := a.ppage, sent := s.now, pts := pts }
  let now (s : State) : RmwRes :=
    let seen := s.carry.find? (s.fwd place / 16)
    let (r, s') := s.performPay p
    .done r seen s'
  if !s.pairRoom w ch d 1 then .room
  else if a.fab.isNone && !w.phys && s.ownWrite w.core w.ctx place && (s.chanDeps w a.tid ch d rel scope.toNat place none).isEmpty then now s
  else
    let s0 := if w.gid < 131072 && a.fab.isNone then s.l1Drop w.core w.ctx place else s
    if a.fab.isNone && s0.performsNow w a.tid ch d rel scope.toNat place none then
      match s0.homeWait w.core w.ctx place with
      | .blocked => .blocked
      | .recall f => .recall f
      | .go => now s0
    else
      -- one that answers is not issued behind a command of its own group, which a park could stop
      let behind := (s0.chanDeps w a.tid ch d rel scope.toNat place none).any fun i => match s0.packets.find? fun p => p.id == i with
        | none => true
        | some p => p.st == .source
      if load.isSome && behind then .blocked else .sent (s0.send w a.tid ch d rel scope pay a load none pts)

/-- All threads of an atomic, in slot order: what each answered, none where it was sent. -/
inductive RmwAll where
  | ok (rs : List (Nat × Option Nat × Option (BitVec 24))) (s : State)
  | room | blocked
  | recall (frag : Nat)

def rmwAll (w : Who) (ch ord : Nat) (scope : BitVec 3) (pts : Nat → Option (BitVec 24)) (load : Option Nat) : List (Acc × Pay) → State → RmwAll
  | [], s => .ok [] s
  | (a, pay) :: l, s =>
    let go (r : Option Nat) (seen : Option (BitVec 24)) (s : State) : RmwAll :=
      match rmwAll w ch ord scope pts load l s with
      | .ok rs s' => .ok ((a.tid, r, seen) :: rs) s'
      | e => e
    match rmwOne w ch ord scope (pts a.tid) load a pay s with
    | .done r seen s' => go (some r) seen s'
    | .sent s' => go none none s'
    | .room => .room
    | .blocked => .blocked
    | .recall f => .recall f

/-- Whether an atomic op on a type is one PCIe performs at the host (R135). -/
def hostAtomic (op : Nat) (ty : Ty) : Bool := (op == 0 && ty.isInt) || op == 6 || op == 7

/-- ATOM (R279 to R281). -/
def execAtom (x : Enc) (s : State) : Out :=
  issue 0x78 x s fun v =>
    let w := who s
    let op := x.subN % 32
    let nr := decide (x.subN ≥ 32)
    let n := x.ty.bytes
    let ths := memThreads 0x78 x v
    let ord := x.w2.ord.toNat
    let acq := ord % 2 == 1
    if ths.isEmpty then finish x 1 s v
    else match collect (ths.map fun t =>
        let wt : Want := { tid := t.tid, slot := t.slot, va := memAddr x v.warp t n, size := n, acc := 3, align := n }
        (wt, checkRmw s w w.owner false (hostAtomic op x.ty) wt)) with
      | .fault t sl f => raise t sl f s
      | .recall f => stallRecall f s
      | .blocked => stall s
      | .ok as =>
        if xlatWait s w.core w.ctx as || loadsWait s w.core as then stall s
        else match as.find? (fun a => a.fab.isNone && s.poisonedAt a.pa) with
          | some a => raise a.tid a.slot (poisonFlt a.va 3 0) s
          | none =>
            let (id, s1) := (s.tlbFill (as.flatMap Acc.fills)).fresh
            let pts (tid : Nat) := releasePts s w (v.ths.find? (fun t => t.tid == tid)) ord x.w2.scope.toNat
            let l := List.zipWith (fun (a : Acc) t =>
              (a, Pay.atom a.at op (fld x.mod 4 0) (BitVec.ofNat 64 (rdOp v.warp t x.c x.bits)) (BitVec.ofNat 64 (rdOp v.warp t x.e x.bits)))) as ths
            -- without a result it is waited for only by an acquire, or where a fabric access may raise REMOTE (R209, R273)
            let free := nr && !acq && !(bit s.rtimeout 63 && as.any fun a => a.fab.isSome)
            match rmwAll w x.w2.ch.toNat ord x.w2.scope pts (if free then none else some id) l s1 with
            | .room => stall (s.markWait w.gid x.w2.ch.toNat true)
            | .blocked => stall s
            | .recall f => stallRecall f s
            | .ok rs s2 =>
              let s2 := loseOwn w.gid (as.map fun a => ⟨a, [], .keep⟩) (s2.markWait w.gid x.w2.ch.toNat false)
              if rs.all (fun r => r.2.1.isSome) || free then
                let s3 := if acq then s2.acquire w x.w2.scope.toNat (rs.map (·.2.2)) else s2
                let place (s : State) : State := match view s with
                  | some u => putView s (u.place x x.d n (rs.map fun r => (r.1, r.2.1.getD 0, 0, r.2.2)))
                  | none => s
                retire x (vcost x v) (if nr then s3 else place s3)
              else
                let parts : List LoadPart := List.zipWith (fun (a : Acc) (r : Nat × Option Nat × Option (BitVec 24)) =>
                  { tid := a.tid, slot := a.slot, addr := a.va, value := r.2.1.map (BitVec.ofNat 128), seen := r.2.2,
                    vpage := a.vpage, ppage := a.ppage, psize := a.psize
                    place := match a.fab with
                      | some (acc, xa) => LoadAt.fabric acc xa
                      | none => LoadAt.mem a.pa }) as rs
                let look := if acq || (as.any (fun a => a.fab.isSome) && bit s.rtimeout 63) then 0 else x.w2.look.toNat
                let o : OutLoad :=
                  { id := id, gid := w.gid, wid := w.wid, core := w.core, ctx := w.ctx, kind := .atomic, enc := x,
                    rmode := v.warp.rmode, dmode := v.warp.dmode, d := x.d, size := n, uni := isUni x.d, noret := nr, parts := parts,
                    ord := x.w2.ord, scope := x.w2.scope, sent := s.now, pc := s.cur.pc, path := s.cur.path, remote := bit s.rtimeout 63, look := look + 1 }
                retire x (vcost x v) { s2 with loads := s2.loads ++ [o] }

/-- One thread's SC: without a reservation on the block it performs nothing and takes no number; with one it waits for what comes before it and
is performed at the home in one step with the check, as the next operation of its pair. -/
def scOne (w : Who) (ch ord : Nat) (scope : BitVec 3) (pts : Option (BitVec 24)) (a : Acc) (pay : Pay) (s : State) : RmwRes :=
  if !s.holdsResv w.gid a.tid (s.blk a.pa) then .done 0 none (s.endResv w.gid a.tid)
  else
    let d := s.destOf a
    if !s.pairRoom w ch d 1 then .room
    else if !(s.chanDeps w a.tid ch d (decide (ord ≥ 2)) scope.toNat a.pa none).isEmpty then .blocked
    else match s.homeWait w.core w.ctx a.pa with
      | .blocked => .blocked
      | .recall f => .recall f
      | .go =>
        let p : Packet :=
          { id := 0, gid := w.gid, core := w.core, ctx := w.ctx, tid := a.tid, ch := ch, dest := d, seq := 0, run := 0, rs := false,
            rel := decide (ord ≥ 2), scope := scope, st := .flying, deps := [], pay := pay, vpage := a.vpage, ppage := a.ppage, sent := s.now, pts := pts }
        let (r, s) := (if w.gid < 131072 then s.l1Drop w.core w.ctx a.pa else s).performPay p
        .done r none (s.setPairs w.gid fun l => l.map fun q => if q.ch == ch && q.dest == d then { q with next := q.next + 1, expect := q.expect + 1 } else q)

/-- The threads of an SC in slot order: thread and success. -/
inductive ScAll where
  | ok (rs : List (Nat × Nat)) (s : State)
  | room | blocked
  | recall (frag : Nat)

def scAll (w : Who) (ch ord : Nat) (scope : BitVec 3) (pts : Nat → Option (BitVec 24)) : List (Acc × Pay) → State → ScAll
  | [], s => .ok [] s
  | (a, pay) :: l, s =>
    match scOne w ch ord scope (pts a.tid) a pay s with
    | .done r _ s' => match scAll w ch ord scope pts l s' with
      | .ok rs s'' => .ok ((a.tid, r) :: rs) s''
      | e => e
    | .sent _ => .blocked
    | .room => .room
    | .blocked => .blocked
    | .recall f => .recall f

/-- SC (R283): the threads in slot order; the path's LR no longer suppresses forced switches (R23). -/
def execSc (x : Enc) (s : State) : Out :=
  issue 0x7C x s fun v =>
    let w := who s
    let n := x.bits / 8
    let ths := memThreads 0x7C x v
    let ord := x.w2.ord.toNat
    if ths.isEmpty then finish x 1 s v
    else match collect (ths.map fun t =>
        let wt : Want := { tid := t.tid, slot := t.slot, va := memAddr x v.warp t n, size := n, acc := 2, align := n }
        (wt, checkRmw s w w.owner true false wt)) with
      | .fault t sl f => raise t sl f s
      | .recall f => stallRecall f s
      | .blocked => stall s
      | .ok as =>
        if xlatWait s w.core w.ctx as || loadsWait s w.core as then stall s
        else match as.find? (fun a => s.holdsResv w.gid a.tid (s.blk a.pa) && s.poisonedAt a.pa) with
          | some a => raise a.tid a.slot (poisonFlt a.va 2 0) s
          | none =>
            let pts (tid : Nat) := releasePts s w (v.ths.find? (fun t => t.tid == tid)) ord x.w2.scope.toNat
            let l := List.zipWith (fun (a : Acc) t => (a, Pay.sc a.pa n (BitVec.ofNat 64 (rdOp v.warp t x.c x.bits)))) as ths
            match scAll w x.w2.ch.toNat ord x.w2.scope pts l (s.tlbFill (as.flatMap Acc.fills)) with
            | .room => stall (s.markWait w.gid x.w2.ch.toNat true)
            | .blocked => stall s
            | .recall f => stallRecall f s
            | .ok rs s2 =>
              retire x (vcost x v) (mapPath (s2.markWait w.gid x.w2.ch.toNat false) fun t => { (match rs.find? (fun r => r.1 == t.tid) with
                | some r => t.wrPf x.d (r.2 == 1)
                | none => t) with lr := none })

/-! ## Scratch atomics -/

/-- A word of scratch. -/
def Scratch.num (c : Scratch) (off n : Nat) : Nat := leNat ((List.range n).map fun i => SMap.getD (0 : Byte) c.bytes (off + i))

/-- A read-modify-write of one scratch word: the new value, if one is written, and what is returned. -/
def scratchRmw (s : State) (gid off n : Nat) (pts : Option (BitVec 24)) (f : Nat → Option Nat) : Nat × State :=
  match s.group? gid with
  | none => (0, s)
  | some g =>
    let old := g.scr.num off n
    match f old with
    | none => (old, s)
    | some new =>
      let s := s.putScr gid (off / 64) (cellsOf off n new) .raw
      let p := tsJoin pts (s.carry.find? (scrKey gid off))
      (old, { s with carry := match p with
        | some v => s.carry.insert (scrKey gid off) v
        | none => s.carry })

/-- The threads' read-modify-writes in slot order: thread, old value, what the location carried. -/
def scratchRmwAll (n : Nat) (pts : Nat → Option (BitVec 24)) : List (Thread × Nat × Nat × (Nat → Option Nat)) → State →
    List (Nat × Nat × Option (BitVec 24)) × State
  | [], s => ([], s)
  | (t, gid, off, f) :: l, s =>
    let seen := s.carry.find? (scrKey gid off)
    let (r, s) := scratchRmw s gid off n (pts t.tid) f
    let (rs, s) := scratchRmwAll n pts l s
    ((t.tid, r, seen) :: rs, s)

/-- An atomic on scratch: `f` gives each thread's new value from the old, `fin` writes the results. -/
def scratchAtomic (op : Nat) (x : Enc) (s : State) (v : View) (n : Nat) (f : Thread → Nat → Option Nat)
    (fin : List (Nat × Nat × Option (BitVec 24)) → View → View) : State :=
  let ths := memThreads op x v
  let off (t : Thread) : Nat := memAddr32 x v.warp t n
  match s.group? (who s).gid with
  | none => finish x 1 s v
  | some g =>
    if ths.isEmpty then finish x 1 s v
    else if relWait s g.gid x ths then stall s
    else
      let rs := ths.map fun t => (t, checkScratch s g (off t) n 3 n)
      let fails : List Failure := rs.filterMap fun p => match p.2 with
        | .bad o f => some (o, p.1.tid, p.1.slot, f)
        | _ => none
      match firstFailure fails with
      | some (_, t, sl, f) => raise t sl f s
      | none =>
        match (if g.pure.isSome then ths.head? else none) with
        | some t => raise t.tid t.slot { code := cPurity, info := 2, addr := BitVec.ofNat 64 (off t), acc := 3 } s
        | none =>
          let ps : List (Thread × Nat × Nat × (Nat → Option Nat)) := rs.filterMap fun p => match p.2 with
            | .ok gid o => some (p.1, gid, o, f p.1)
            | _ => none
          match ps.find? (fun p => ((s.group? p.2.1).map fun g => g.scr.poison.contains (p.2.2.1 / 64)).getD false) with
          | some (t, _) => raise t.tid t.slot (poisonFlt (BitVec.ofNat 64 (off t)) 3 2) s
          | none =>
            let ord := x.w2.ord.toNat
            let (vals, s1) := scratchRmwAll n (fun tid => releasePts s (who s) (v.ths.find? (fun t => t.tid == tid)) ord x.w2.scope.toNat) ps s
            let s2 := if ord % 2 = 1 then s1.acquire (who s) (scratchScope x) (vals.map (·.2.2)) else s1
            finish x (dcost x v) s2 (fin vals v)

/-- ATOMS (R281). -/
def execAtoms (x : Enc) (s : State) : Out :=
  issue 0x79 x s fun v =>
    let n := x.ty.bytes
    scratchAtomic 0x79 x s v n (fun t old => some (atomNew (x.subN % 32) x.ty old (rdOp v.warp t x.c x.bits) (rdOp v.warp t x.e x.bits)))
      fun rs v => if x.subN ≥ 32 then v else v.place x x.d n (rs.map fun r => (r.1, r.2.1, 0, r.2.2))

/-- What ATOMP writes, and the predicate it returns (R282). -/
def atompNew (x : Enc) (w : Warp) (t : Thread) (old : Nat) : Option Nat :=
  let b := rdOp w t x.c 32 % x.bits
  match x.subN with
  | 0 => some (old ||| 2 ^ b)
  | 1 => some (if old.testBit b then old - 2 ^ b else old)
  | _ => if old = rdOp w t x.c x.bits then some (rdOp w t x.e x.bits) else none

def atompResult (x : Enc) (w : Warp) (t : Thread) (old : Nat) : Bool :=
  if x.subN < 2 then old.testBit (rdOp w t x.c 32 % x.bits) else old == rdOp w t x.c x.bits

/-- ATOMP (R282). -/
def execAtomp (x : Enc) (s : State) : Out :=
  issue 0x7A x s fun v =>
    let n := x.bits / 8
    scratchAtomic 0x7A x s v n (atompNew x v.warp) fun rs v =>
      ⟨v.warp, v.ths.map fun t => match rs.find? (fun r => r.1 == t.tid) with
        | some r => { t.wrPf x.d (atompResult x v.warp t r.2.1) with seenPts := tsJoin t.seenPts r.2.2 }
        | none => t⟩

end Sys2Proof.Machine
end

