-- ==== Sys2Proof/Machine/Settle.lean ====
section
/-!
DEFINITION. The waits of threads inside a group and a gang, and what ends them: BAR and GBAR (R11, R35, R112, R298), WSYNC (R24,
R242), transaction barriers (R171, R300).
-/
namespace Sys2Proof.Machine
open Sys2Proof

/-- Sends every waiting thread that satisfies `p` on at the PC its wait holds. -/
def Thread.goOn (t : Thread) : Thread :=
  match t.run with
  | .wsync _ n => { t with run := .path, pc := n }
  | .bar n _ => { t with run := .path, pc := n }
  | .gbar n => { t with run := .path, pc := n }
  | .tbwait _ _ n => { t with run := .path, pc := n }
  | _ => t

def isBar : Run → Bool
  | .bar _ _ => true
  | _ => false

def isGangBar : Run → Bool
  | .bar _ true => true
  | _ => false

def isGbar : Run → Bool
  | .gbar _ => true
  | _ => false

/-- Completes a group's BAR instance once every thread that has not exited has arrived. -/
def State.completeBar (s : State) (gid : Nat) : State :=
  match s.group? gid with
  | none => s
  | some g =>
    let live := g.threads.filter fun t => t.run != .exited
    if live.isEmpty || !live.all (fun t => isBar t.run) then s
    else
      let s := if live.any (fun t => isGangBar t.run) then s.l1Acquire (gidCore gid) g.ctx 2 else s
      (s.inherit gid (g.threads.map Thread.tid)).updGroup gid fun g => { g with threads := g.threads.map fun t => if isBar t.run then t.goOn else t }

/-- Members of a gang that have not ended. -/
def Gang.live (g : Gang) : List Nat := (g.members.filter fun m => !g.ended.contains m.1).map (·.2)

/-- Completes a gang's GBAR instance: every thread of every group of the gang that has not exited has arrived. The departing clusters
acquire at GANG scope: L1s are invalidated and pts moves to the latest of the gang's (R112, R113). -/
def State.completeGbar (s : State) (gang : Nat) : State :=
  match s.gangs.find? (fun g => g.id == gang) with
  | none => s
  | some gn =>
    let gids := gn.live
    let groups := gids.filterMap s.group?
    let live := groups.flatMap fun g => g.threads.filter fun t => t.run != .exited
    if live.isEmpty || groups.length != gids.length || !live.all (fun t => isGbar t.run) then s
    else
      let top := gids.foldl (fun p g => tsMax p (s.cluster (gidCl g)).pts) (s.cluster (gidCl (gids.headD 0))).pts
      let s := gids.foldl (fun s g => ((s.l1Acquire (gidCore g) ((s.group? g).map Group.ctx |>.getD 0) 2).setClock (.cluster (gidCl g)) top)) s
      gids.foldl (fun s g => s.updGroup g fun g => { g with threads := g.threads.map fun t => if isGbar t.run then t.goOn else t }) s

/-- A WSYNC's named slots have all arrived, exited or hold no thread (R24, R242). Each thread goes by its own mask (DEDUCED, log entry 69). -/
def wsyncDone (g : Group) (t : Thread) : Bool :=
  match t.run with
  | .wsync m _ => (List.range Config.warpW).all fun i =>
      !bit m i || match g.threads.find? (fun u => u.wid == t.wid && u.slot == i && u.run != .exited && u.run != .filed) with
        | none => true
        | some u => (match u.run with
          | .wsync _ _ => u.pc == t.pc
          | _ => false)
  | _ => false

def Group.releaseWsync (g : Group) : Group :=
  { g with threads := g.threads.map fun t => if wsyncDone g t then t.goOn else t }

/-- A transaction barrier's phase completes when all have arrived and the balance is zero (R171). -/
def TBar.settle (b : TBar) : TBar :=
  if b.init && b.arrived == b.want && b.txbal == 0 then { b with phase := !b.phase, arrived := 0 } else b

def Group.tbar (g : Group) (n : Nat) : TBar := g.tbars.getD n {}

/-- TBWAIT returns in every thread whose phase has passed. -/
def Group.releaseTb (g : Group) : Group :=
  { g with threads := g.threads.map fun t => match t.run with
    | .tbwait b p _ => if (g.tbar b).phase != p then t.goOn else t
    | _ => t }

/-- Changes a transaction barrier and lets waiters go on. -/
def State.updTbar (s : State) (gid n : Nat) (f : TBar → TBar) : State :=
  s.updGroup gid fun g => Group.releaseTb { g with tbars := g.tbars.set n (f (g.tbar n)).settle }

/-- A copy's credit (R171): discarded when the barrier is not initialised. -/
def State.creditTbar (s : State) (gid n bytes : Nat) : State :=
  s.updTbar gid n fun b => if b.init then { b with txbal := b.txbal - BitVec.ofNat 41 bytes } else b

/-- Ends every wait of a group, and of its gang, that has become complete. -/
def State.settle (s : State) (gid : Nat) : State :=
  let s := (s.updGroup gid Group.releaseWsync).completeBar gid
  match (s.group? gid).bind Group.gang with
  | some (gn, _) => s.completeGbar gn
  | none => s

end Sys2Proof.Machine
end

