-- ==== Sys2Proof/Machine/Barrier.lean ====
section
/-!
DEFINITION. Fences and channel instructions (R293 to R296), barriers (R297 to R300), RSTAT (R301).
-/
namespace Sys2Proof.Machine
open Sys2Proof

/-- Packets of some threads of a group that a release of theirs at a scope waits for. -/
def heldBack (s : State) (gid scope : Nat) (tids : List Nat) : Bool :=
  s.packets.any fun p => p.gid == gid && p.st != .done && p.releasedAt scope && tids.any p.of

/-- Packets of some threads of a group that have not been performed. -/
def inFlight (s : State) (gid : Nat) (tids : List Nat) : Bool := heldBack s gid 2 tids

/-- FENCE (R294, R109, R113): a release waits for the threads' earlier accesses as its scope asks, and at GANG scope or wider carries pts; an
acquire invalidates unclaimed lines and moves pts. -/
def execFence (x : Enc) (s : State) : Out :=
  issueS 0x90 x s fun v =>
    let w := who s
    let ord := x.w2.ord.toNat
    let scope := x.w2.scope.toNat
    let ths := v.P x
    if ord ≥ 2 && heldBack s w.gid scope (ths.map Thread.tid) then stall s
    else
      let s1 := if ord % 2 = 1 then s.acquire w scope (ths.map Thread.seenPts) else s
      let pts := s1.clock (clockOf w.core)
      finish x 1 s1 (if ord ≥ 2 && scope ≥ 2 then v.mapP x (fun t => { t with relPts := some pts }) else v)

/-- CHJOIN (R123, R295): later operations on channel CH wait for the earlier ones on channel D. -/
def execChjoin (x : Enc) (s : State) : Out :=
  issueS 0x91 x s fun _ =>
    let w := who s
    let a := x.d.toNat
    let b := x.w2.ch.toNat
    let ids := (s.packets.filter fun p => p.gid == w.gid && p.ch == a && p.st != .done).map Packet.id ++ s.cmdsOn w.gid a
    retire x 1 (if a = b || ids.isEmpty then s else s.setJoins w.gid fun l => l ++ [(a, b, ids)])

/-- CHDRAIN (R123, R295): stalls until every operation on the channel that was issued before it has been performed and acknowledged. Its first
attempt notes the number before which those were issued. -/
def execChdrain (x : Enc) (s : State) : Out :=
  issueS 0x92 x s fun v =>
    let w := who s
    let tids := v.ths.map Thread.tid
    let noted := v.warp.drains.find? fun p => p.1 == tids && p.2.1 == s.cur.pc
    let before := (noted.map fun p => p.2.2).getD s.nextId
    let waits := s.packets.any (fun p => p.gid == w.gid && p.ch == x.w2.ch.toNat && decide ((p.cmd.getD p.id) < before)) ||
      (s.cmdsOn w.gid x.w2.ch.toNat).any fun i => decide (i < before)
    if !waits then retire x 1 s
    else if noted.isSome then stall s
    else stall (mapWarp s fun k => { k with drains := (tids, s.cur.pc, before) :: k.drains })

/-- The snapshot of CHSTAT (R296). -/
def chstatOf (s : State) (gid c : Nat) : Nat :=
  let ps := s.pairsOf gid
  let mine := ps.filter fun p => p.ch == c
  let out := min 0xFFFF (s.packets.filter fun p => p.gid == gid && p.ch == c).length
  let wait := ((s.group? gid).map fun g => g.chWait.contains c).getD false
  out + mine.length * 2 ^ 16 + (64 - ps.length) * 2 ^ 24 + (if wait then 2 ^ 32 else 0) + (if mine.any Pair.resync then 2 ^ 33 else 0)

/-- CHSTAT (R296). -/
def execChstat (x : Enc) (s : State) : Out :=
  issueS 0x93 x s fun v => finish x 1 s ⟨v.warp.wrOp x.d 64 (chstatOf s (who s).gid x.w2.ch.toNat), v.ths⟩

/-- The threads of P leave the path and wait; the others go on. -/
def waitIn (x : Enc) (cost : Nat) (s : State) (v : View) (run : Thread → Run) : State :=
  let w := who s
  let pc := s.cur.pc
  let tids := (v.P x).map Thread.tid
  let s1 := retire x cost s
  (s1.mapThreads w.gid fun t => if tids.contains t.tid then { t with run := run t, pc := pc } else t).settle w.gid

/-- BAR (R298): arrival is a release at GROUP scope (R112). -/
def execBar (x : Enc) (s : State) : Out :=
  issue 0x94 x s fun v =>
    if heldBack s (who s).gid 1 ((v.P x).map Thread.tid) then stall s else waitIn x 1 s v fun _ => .bar (nextPc x s) false

/-- GBAR (R298): arrival is a release at GANG scope (R112); outside a gang it is a BAR with GANG scope. -/
def execGbar (x : Enc) (s : State) : Out :=
  issue 0x95 x s fun v =>
    let w := who s
    if inFlight s w.gid ((v.P x).map Thread.tid) then stall s
    else match (s.group? w.gid).bind Group.gang with
      | some _ => waitIn x 1 s v fun _ => .gbar (nextPc x s)
      | none => waitIn x 1 s v fun _ => .bar (nextPc x s) true

/-- A transaction barrier operand: its state, none at or above the group's count (R297). -/
def tbarOf (s : State) (n : Nat) : Option TBar :=
  match s.group? (who s).gid with
  | some g => if n < g.tbars.length then some (g.tbar n) else none
  | none => none

/-- TBINIT (R299). -/
def execTbinit (x : Enc) (s : State) : Out :=
  issue 0x96 x s fun v =>
    if (tbarOf s x.d.toNat).isNone then takeFault (ownIll 0x96 x) s
    else if (v.P x).isEmpty then finish x 1 s v
    else
      let n := (bU x v.warp).toNat
      if n < 1 || n > 1024 then takeFault (ownIll 0x96 x) s
      else retire x 1 (s.updTbar (who s).gid x.d.toNat fun b => { b with init := true, want := n, arrived := 0, txbal := 0 })

/-- TBEXP (R299, R171): a barrier that TBINIT has not initialised raises ILL. -/
def execTbexp (x : Enc) (s : State) : Out :=
  issue 0x97 x s fun v =>
    match tbarOf s x.d.toNat with
    | none => takeFault (ownIll 0x97 x) s
    | some b =>
      if (v.P x).isEmpty then finish x 1 s v
      else
        let n := (bU x v.warp).toNat
        if n ≥ 2 ^ 40 || !b.init then takeFault (ownIll 0x97 x) s
        else retire x 1 (s.updTbar (who s).gid x.d.toNat fun b => { b with txbal := b.txbal + BitVec.ofNat 41 n })

/-- One arrival at a barrier (R171). -/
def TBar.arrive (b : TBar) : TBar := { b with arrived := b.arrived + 1 }

/-- Arrivals of threads in slot order: each thread's phase; none where an arrival would exceed EXPECT (R300). -/
def tbArrive : List Thread → TBar → Option (List (Nat × Bool))
  | [], _ => some []
  | t :: ts, b =>
    if b.arrived = b.want then none
    else (tbArrive ts b.arrive.settle).map fun l => (t.tid, b.phase) :: l

/-- TBARV (R300): each arrival that completes a phase lets its waiters go on (R171). -/
def execTbarv (x : Enc) (s : State) : Out :=
  issue 0x98 x s fun v =>
    match tbarOf s x.a.toNat with
    | none => takeFault (ownIll 0x98 x) s
    | some b =>
      let P := v.P x
      if P.isEmpty then finish x 1 s v
      else if !b.init then takeFault (ownIll 0x98 x) s
      else match tbArrive P b with
        | none => takeFault (ownIll 0x98 x) s
        | some l =>
          let s1 := mapPath s fun t => match l.find? (fun p => p.1 == t.tid) with
            | some (_, ph) => t.wrPf x.d ph
            | none => t
          let gid := (who s).gid
          l.foldl (fun s _ => s.updTbar gid x.a.toNat TBar.arrive) (retire x (vcost x v) s1)

/-- TBWAIT (R300): each thread of P waits until PHASE differs from its predicate A. -/
def execTbwait (x : Enc) (s : State) : Out :=
  issue 0x99 x s fun v =>
    match tbarOf s x.d.toNat with
    | none => takeFault (ownIll 0x99 x) s
    | some b =>
      let P := v.P x
      if P.isEmpty then finish x 1 s v
      else if !b.init then takeFault (ownIll 0x99 x) s
      else
        let w := who s
        let pc := s.cur.pc
        let tids := (P.filter fun t => t.rdPf x.a == b.phase).map Thread.tid
        let nx := nextPc x s
        (retire x (vcost x v) s).mapThreads w.gid fun t =>
          if tids.contains t.tid then { t with run := .tbwait x.d.toNat b.phase nx, pc := pc } else t

/-- RSTAT (R301): each thread's RFAIL to predicate D, then cleared. -/
def execRstat (x : Enc) (s : State) : Out :=
  issue 0x9A x s fun v => finish x (vcost x v) s <| v.mapP x fun t => { t.wrPf x.d t.rfail with rfail := false }

/-- RSTAT.peek (R301). -/
def execRstatPeek (x : Enc) (s : State) : Out :=
  issue 0x9A x s fun v => finish x (vcost x v) s <| v.mapP x fun t => t.wrPf x.d t.rfail

end Sys2Proof.Machine
end

