-- ==== Sys2Proof/Machine/Cache.lean ====
section
/-!
DEFINITION. Cache maintenance: PREF (R287), CFLUSH (R288), CINV (R289).
-/
namespace Sys2Proof.Machine
open Sys2Proof

/-- The four blocks of a line. -/
def lineBlocks (pa : Nat) : List Nat := (List.range 4).map fun i => pa / 256 * 4 + i

/-- Fills one sector for a prefetch, where a later load may use it: outside every fragment, or under a read claim at the recorded
version. -/
def prefSector (w : Who) (hint : Nat) (s : State) (b : Nat) : State :=
  let pa := b * 64
  if s.waitsAt pa || s.poisonedAt pa || !isFlistad pa then s
  else
    let x := s.homeSec pa
    let fill (s : State) : State := s.l1Fill w.core pa ⟨w.ctx, s.blk pa, x.data, x.desc, hint == 1⟩
    match s.frag? pa with
    | none => fill s
    | some f => match (s.cluster w.cl).claim? f.id w.ctx with
      | some c => if !c.write && f.ver == c.ver then fill s else s
      | none => s

/-- PREF (R287): never faults; a prefetch whose checks fail is dropped. -/
def execPref (x : Enc) (s : State) : Out :=
  issue 0x7D x s fun v =>
    let w := who s
    let hint := x.w2.hint.toNat
    let one (s : State) (t : Thread) : State :=
      match checkGlobal s w w.owner { tid := t.tid, slot := t.slot, va := memAddr x v.warp t 256, size := 1, acc := 1, align := 1 } with
      | .ok a =>
        if a.fab.isSome || x.subN = 1 || hint = 4 || hint = 5 then s
        else (lineBlocks a.pa).foldl (prefSector w hint) (s.tlbFill a.fills)
      | _ => s
    retire x (vcost x v) ((memThreads 0x7D x v).foldl one s)

/-- What CFLUSH does to one line (R288). -/
def flushLine (w : Who) (inv : Bool) (s : State) (pa : Nat) : State :=
  (lineBlocks pa).foldl (fun s b =>
    let p := b * 64
    if s.ownWrite w.core w.ctx p then s.writeBack w.cl [s.blk p]
    else if inv && !s.claimed w.cl w.ctx (s.blk p) then s.l1Drop w.core w.ctx p
    else s) s

/-- CFLUSH (R288): faults only under range and translation. -/
def execCflush (x : Enc) (s : State) : Out :=
  issue 0x7E x s fun v =>
    let w := who s
    let ths := memThreads 0x7E x v
    let check (t : Thread) : Want × AccRes :=
      let wt : Want := { tid := t.tid, slot := t.slot, va := memAddr x v.warp t 256, size := 1, acc := 1, align := 1 }
      (wt, if isFabric wt.va then .ok { tid := t.tid, slot := t.slot, va := wt.va, size := 1, pa := 0, fab := some (0, 0) }
        else if s.inDeadWin w.ctx wt.va then .bad 2 (xlateFlt wt.va 1 0 0 0)
        else match translate s w.owner (w.die % 8) w.ctx wt.va 1 with
        | .ok r => .ok { tid := t.tid, slot := t.slot, va := wt.va, size := 1, pa := r.pa, fills := r.fills }
        | .fail f => .bad 2 f
        | .recall f => .recall f
        | .blocked => .blocked)
    match collect (ths.map check) with
    | .fault t sl f => raise t sl f s
    | .recall f => stallRecall f s
    | .blocked => stall s
    | .ok as =>
      let one (s : State) (a : Acc) : State := if a.fab.isSome then s else flushLine w (x.subN == 0) (s.tlbFill a.fills) a.pa
      retire x (vcost x v) (as.foldl one s)

/-- CINV.line (R289): a hint; an address that fails a check invalidates nothing. -/
def execCinvLine (x : Enc) (s : State) : Out :=
  issue 0x7F x s fun v =>
    let w := who s
    let one (s : State) (t : Thread) : State :=
      match checkGlobal s w w.owner { tid := t.tid, slot := t.slot, va := memAddr x v.warp t 256, size := 1, acc := 1, align := 1 } with
      | .ok a =>
        if a.fab.isSome then s
        else (lineBlocks a.pa).foldl (fun s b => if s.claimed w.cl w.ctx (s.blk (b * 64)) then s else s.l1Drop w.core w.ctx (b * 64)) s
      | _ => s
    retire x (vcost x v) ((memThreads 0x7F x v).foldl one s)

/-- CINV.all (R289): every unclaimed line of the core's L1, or of the fused L1. -/
def execCinvAll (x : Enc) (s : State) : Out :=
  issue 0x7F x s fun v =>
    retire x (vcost x v) (if (v.P x).isEmpty then s else s.l1Inval (who s).core (who s).ctx fun _ => true)

end Sys2Proof.Machine
end

