-- ==== Sys2Proof/Machine/Engines.lean ====
section
/-!
DEFINITION. What the engines share: status words and pending registers (R167, R315), events (R184), the end and the discard of a
command (R168, R169, R326), ring slots that finish sealing (R331), and guard slots (R169, R327).
-/
namespace Sys2Proof.Machine
open Sys2Proof

/-- The status word (R167). -/
def statusWord (disc : Bool) (code bytes : Nat) : BitVec 64 :=
  BitVec.ofNat 64 (2 ^ 63 + (if disc then 2 ^ 62 else 0) + code % 64 * 2 ^ 56 + bytes % 2 ^ 40)

/-- A word that arrives for a group whose park frame is written goes into the frame, from which GRESUME reads the register: it replaces a
handler's edit (R315). -/
def State.frameWord (s : State) (gid wid reg cmd : Nat) (v : BitVec 64) : State :=
  match s.anyGroup gid with
  | none => s
  | some g => match g.frameRun, g.warps.findIdx? (fun w => w.wid == wid && w.pend.contains (reg, cmd)) with
    | some (_, us, _), some i =>
      let pa := frameByteAt us (g.frameSecs.2.2.1 + (16 + 8 * g.sregs) * i + 16 + 8 * reg)
      let s := match s.recallFor none pa with
        | some f => s.recallHolder f
        | none => s
      (s.plainStore .dir pa).homeWrite pa (cellsOf pa 8 v.toNat) .raw none
    | _, _ => s

/-- Writes a word a command owes a register, which is no longer pending; the watchdog restarts (R408). A command with D = s0, or of a warp that has ended, owes none.
A swapped group's word goes into its saved state (R487), a parked one's into its frame. -/
def State.writeStatus (s : State) (gid wid reg cmd : Nat) (v : BitVec 64) : State :=
  let s := s.frameWord gid wid reg cmd v
  let f (g : Group) : Group := Group.updWarp { g with wdogAt := s.ptime, wdogLim := (s.part g.part).wdog } wid fun w =>
    if w.pend.contains (reg, cmd) then { w.wrS reg v with pend := w.pend.filter (· != (reg, cmd)) } else w
  if (s.group? gid).isSome then s.updGroup gid f
  else { s with vault := s.vault.map fun k => { k with groups := k.groups.map fun g => if g.gid == gid then f g else g } }

/-- Marks registers of the issuing warp pending for a command (R167); s0 is never pending. -/
def Warp.owe (w : Warp) (cmd : Nat) (regs : List Nat) : Warp :=
  { w with pend := w.pend ++ (regs.filter (· != 0)).map fun r => (r, cmd) }

/-- GROUPID bits 14:0 as an event's SOURCE; a foreman has none and posts ones. -/
def sourceOf (gid : Nat) : Nat := if gid < 131072 then gid % 32768 else 32767

/-- An event record (R184). -/
def eventRec (value : BitVec 64) (source code lost kind : Nat) : BitVec 128 :=
  BitVec.ofNat 128 (value.toNat * 2 ^ 64 + source * 2 ^ 32 + code * 2 ^ 16 + lost * 2 ^ 8 + kind)

/-- A record posted by hardware: dropped and counted when the queue is full (R184). -/
def State.postEvent (s : State) (cl kind code source : Nat) (value : BitVec 64) : State :=
  s.updCluster cl fun c =>
    if c.evq.length ≥ 256 then { c with evLost := min 255 (c.evLost + 1) }
    else { c with evq := c.evq ++ [eventRec value source code c.evLost kind], evLost := 0 }

/-! ## Ring slots -/

/-- Passes of a physical slot pending or running. -/
def Cluster.pending (c : Cluster) (slot : Nat) : Nat := (c.mma.filter fun m => m.slot == slot).length

def Cluster.updSlot (c : Cluster) (i : Nat) (f : RingSlot → RingSlot) : Cluster := { c with ring := c.ring.set i (f (c.ring.getD i {})) }
def Cluster.slot (c : Cluster) (i : Nat) : RingSlot := c.ring.getD i {}

/-- A sealing slot without a pass pending or running becomes READY; its seal time is a fresh number, so seal order is total (R331). -/
def State.sealDone (s : State) (cl : Nat) : State :=
  (List.range 16).foldl (fun s i =>
    if ((s.cluster cl).slot i).sealing && (s.cluster cl).pending i == 0 then
      let (t, s) := s.fresh
      s.updCluster cl fun c => c.updSlot i fun r => { r with st := .ready, sealing := false, sealT := t }
    else s) s

/-! ## Ends of commands -/

/-- Removes a matrix entry with no pass. -/
def State.dropMma (s : State) (cl id : Nat) : State :=
  (s.updCluster cl fun c => { c with mma := c.mma.filter fun m => m.id != id }).sealDone cl

/-- Final XOR of a CRC-32C (R325). -/
def crcOut (c : BitVec 32) : BitVec 64 := (~~~c).zeroExtend 64

/-- A copy command ends (R167, R168): the CRC, the status word, the event; a bound MMA of a copy that did not end well is discarded
(R326). -/
def State.endCopy (s : State) (cl : Nat) (c : CopyCmd) (code : Nat) (disc : Bool) : State :=
  let w := statusWord disc code (if disc then 0 else c.bytes / 2)
  let s := if c.crc then s.writeStatus c.gid c.cap.wid (c.dreg + 1) c.id (crcOut c.crcD) else s
  let s := s.writeStatus c.gid c.cap.wid c.dreg c.id w
  let s := s.updCluster cl fun k => { k with copyQ := k.copyQ.filter fun x => x.id != c.id }
  let s := if c.ev then s.postEvent cl 1 code (sourceOf c.gid) w else s
  if code != 0 || disc then
    let s := if c.isM then s.updGroup c.gid fun g => g.updWarp c.cap.wid fun w => { w with cpym := w.cpym.map fun p => (p.1, p.2.map fun q => (if q.1 == c.id then 0 else q.1, q.2)) } else s
    ((s.cluster cl).mma.filter fun m => m.waitCopy == some c.id).foldl (fun s m => s.dropMma cl m.id) s
  else s

/-- Counts what commands write of a group's scratch from outside it (R61); a freed allocation that nothing writes any more is free. -/
def State.updInbound (s : State) (t : Nat) (f : Nat → Nat) : State :=
  match s.group? t with
  | some _ => s.updGroup t fun g => { g with scr := { g.scr with inbound := f g.scr.inbound } }
  | none => s.updCluster (gidCl t) fun c =>
      { c with zombies := (c.zombies.map fun z => if z.1 == t then (z.1, { z.2 with inbound := f z.2.inbound }) else z).filter fun z => z.2.inbound != 0 }

/-- Ends a copy and what it counted of another group's scratch. -/
def State.finishCopy (s : State) (cl : Nat) (c : CopyCmd) (code : Nat) (disc : Bool) : State :=
  let s := match c.into with
    | some g => s.updInbound g (· - 1)
    | none => s
  s.endCopy cl c code disc

/-- An epilogue command ends. -/
def State.endEpi (s : State) (cl : Nat) (c : EpiCmd) (code bytes : Nat) (disc : Bool) : State :=
  let s := s.writeStatus c.gid c.cap.wid c.dreg c.id (statusWord disc code bytes)
  s.updCluster cl fun k => { k with epiQ := k.epiQ.filter fun x => x.id != c.id }

/-- Updates a site. -/
def State.updSite (s : State) (n : Nat) (f : Site → Site) : State := { s with sites := s.sites.insert n (f (s.sites.getD {} n)) }

/-! ## Packets of the guest queues (R474) -/

def pkOp (p : BitVec 512) : Nat := fld p 15 0
def pkCtx (p : BitVec 512) : Nat := fld p 25 16
def pkCh (p : BitVec 512) : Nat := fld p 39 32
def pkSeq (p : BitVec 512) : Nat := fld p 63 48
def pkTag (p : BitVec 512) : BitVec 64 := BitVec.ofNat 64 (fld p 127 64)

/-- A packet about a command: bytes 2-15 are the command's. -/
def cmdPacket (op : Nat) (of : BitVec 512) (payload : Nat) : BitVec 512 :=
  BitVec.ofNat 512 (op + fld of 127 16 * 2 ^ 16 + payload % 2 ^ 384 * 2 ^ 128)

/-- A packet of the device's own about a context. -/
def ctxPacket (op ctx : Nat) (payload : Nat) : BitVec 512 := BitVec.ofNat 512 (op + ctx * 2 ^ 16 + payload % 2 ^ 384 * 2 ^ 128)

/-- The device sends a packet to the guest of a site. -/
def State.siteSend (s : State) (n : Nat) (p : BitVec 512) : State := s.updSite n fun x => { x with sent := x.sent ++ [p] }

/-- PTS_SET (R481): the guest's pts becomes the later of its own and the one sent. -/
def State.ptsSet (s : State) (n : Nat) (t : BitVec 24) : State :=
  (s.siteSend n (ctxPacket 0x8040 0 (t.toNat * 2 ^ 32))).updSite n fun x => { x with pts := tsMax x.pts t }

/-- The device asks a guest to drop what it holds under a handle (R482, R483), within 20,000 package ticks. -/
def State.recallGuest (s : State) (n ctx handle : Nat) (watch : Bool) : State :=
  let is (d : Duty × Nat) : Bool := match d.1 with
    | .recall c h _ => c == ctx && h == handle
    | _ => false
  if (s.sites.getD {} n).duties.any is then
    if watch then s.updSite n fun x => { x with duties := x.duties.map fun d => if is d then (.recall ctx handle true, d.2) else d } else s
  else (s.siteSend n (ctxPacket 0x8032 ctx handle)).updSite n fun x => { x with duties := x.duties ++ [(.recall ctx handle watch, s.ptime + 20000)] }

/-- A guest command ends. -/
def State.endGuest (s : State) (site : Nat) (c : GuestCmd) (code bytes : Nat) (disc : Bool) : State :=
  let s := s.writeStatus c.gid c.cap.wid c.dreg c.id (statusWord disc code bytes)
  s.updSite site fun x => { x with cmds := x.cmds.filter fun y => y.id != c.id }

/-- Whether an engine command of a group has not ended (R237). -/
def State.hasCmds (s : State) (gid : Nat) : Bool :=
  let c := s.cluster (gidCl gid)
  c.copyQ.any (fun x => x.gid == gid) || c.mma.any (fun x => x.gid == gid) || c.epiQ.any (fun x => x.gid == gid) ||
    s.sites.any fun p => p.2.cmds.any fun x => x.gid == gid

/-! ## Guard slots -/

/-- The state of a guard slot; none when unresolved. -/
def Group.guard (g : Group) (i : Nat) : Option Bool := (g.guards.getD i none)

/-- Discards the undecided commands of a group whose guard slot satisfies `p` (R169). -/
def State.discardHeld (s : State) (gid : Nat) (p : Nat → Bool) : State :=
  let cl := gidCl gid
  let c := s.cluster cl
  let on (k : Capt) : Bool := match k.gs with
    | some g => p g
    | none => false
  let s := (c.copyQ.filter fun x => x.gid == gid && on x.cap).foldl (fun s x => s.finishCopy cl x 0 true) s
  let s := (c.mma.filter fun x => x.gid == gid && on x.cap).foldl (fun s x => s.dropMma cl x.id) s
  let s := (c.epiQ.filter fun x => x.gid == gid && on x.cap).foldl (fun s x => s.endEpi cl x 0 0 true) s
  s.sites.foldl (fun s q => (q.2.cmds.filter fun x => x.gid == gid && on x.cap).foldl (fun s x => s.endGuest q.1 x 0 0 true) s) s

/-- Marks the commands held on a guard slot as decided true: they no longer depend on it. -/
def State.passHeld (s : State) (gid g : Nat) : State :=
  let f (id : Nat) (k : Capt) : Capt := if id == gid && k.gs == some g then { k with gs := none } else k
  let s := s.updCluster (gidCl gid) fun c =>
    { c with
      copyQ := c.copyQ.map fun x => { x with cap := f x.gid x.cap }
      mma := c.mma.map fun x => { x with cap := f x.gid x.cap }
      epiQ := c.epiQ.map fun x => { x with cap := f x.gid x.cap } }
  { s with sites := s.sites.map fun q => (q.1, { q.2 with cmds := q.2.cmds.map fun x => { x with cap := f x.gid x.cap } }) }

/-- Sets a guard slot: commands already held on it are decided at that moment (R169, R327). -/
def State.setGuard (s : State) (gid g : Nat) (v : Option Bool) : State :=
  let s := s.updGroup gid fun x => { x with guards := x.guards.set g v }
  match v with
  | some true => s.passHeld gid g
  | some false => s.discardHeld gid (· == g)
  | none => s

/-- A group issues and its commands go on: it is neither stopping nor parked, and its partition runs (R194, R389). -/
def State.groupRuns (s : State) (gid : Nat) : Bool :=
  match s.group? gid with
  | some g => (match g.life with
    | .running => true
    | _ => false) && (s.part g.part).st == .running && s.present (gidCl gid)
  | none => false

/-- What the guard slot of a command says when it would start: perform, hold or discard (R169). -/
def State.guardOf (s : State) (gid : Nat) (k : Capt) : Option Bool :=
  match k.gs with
  | none => some true
  | some g => (s.group? gid).bind fun x => x.guard g

/-- What a command captures at post (R314). -/
def captOf (s : State) (x : Enc) (v : View) (tid : Nat) : Capt :=
  let w := who s
  { rmode := v.warp.rmode, dmode := v.warp.dmode, ch := x.w2.ch.toNat, scope := x.w2.scope, ord := x.w2.ord, hint := x.w2.hint,
    gs := if x.w2.gse then some x.w2.gs.toNat else none, prio := ((s.group? w.gid).map Group.prio).getD 0, pc := s.cur.pc, tid := tid, wid := w.wid }

end Sys2Proof.Machine
end

