-- ==== Sys2Proof/Machine/Handle.lean ====
section
/-!
DEFINITION. Tile handles and fragments: region records (R138 to R140), claim sets (R139), the fragments a handle makes and unmakes
(R141, R143), the claim table (R160).
-/
namespace Sys2Proof.Machine
open Sys2Proof

/-! ## Region records (R138) -/

def rgnBase (r : BitVec 512) : Nat := fld r 63 0
def rgnEsize (r : BitVec 512) : Nat := fld r 71 64
def rgnRank (r : BitVec 512) : Nat := fld r 79 72
/-- Extent of dimension d. -/
def rgnExt (r : BitVec 512) (d : Nat) : Nat := fld r (159 + 32 * d) (128 + 32 * d)
/-- Stride of dimension d in elements. -/
def rgnStr (r : BitVec 512) (d : Nat) : Int := (r.extractLsb' (256 + 64 * d) 64).toInt

/-- The byte of element offset o (R139). -/
def rgnByte (r : BitVec 512) (o : Int) : Int :=
  if rgnEsize r = 0 then rgnBase r + o / 2 else rgnBase r + o * (2 ^ (rgnEsize r - 1) : Nat)

/-- Bytes of one element; one for a nibble. -/
def rgnSize (r : BitVec 512) : Nat := if rgnEsize r = 0 then 1 else 2 ^ (rgnEsize r - 1)

/-- The least and greatest element offset of the region. -/
def rgnSpan (r : BitVec 512) : Int × Int :=
  (List.range 4).foldl (fun p d =>
    let k := rgnStr r d * ((rgnExt r d : Int) - 1)
    (p.1 + min 0 k, p.2 + max 0 k)) (0, 0)

/-- The offsets of a dimension; one stride of 0 stands for all its elements. -/
def rgnSteps (r : BitVec 512) (d : Nat) : List Int :=
  if rgnStr r d = 0 then [0] else (List.range (rgnExt r d)).map fun (i : Nat) => (i : Int) * rgnStr r d

/-- The blocks of one row (dimension 0) that starts at element offset o: every block between its ends where elements lie at most a
block apart. -/
def rgnRow (r : BitVec 512) (o : Int) : List Nat :=
  let span (a b : Int) : List Nat :=
    let lo := (rgnByte r a).toNat / 64
    let hi := (rgnByte r b + rgnSize r - 1).toNat / 64
    (List.range (hi + 1 - lo)).map (lo + ·)
  let st := rgnStr r 0
  if st.natAbs * rgnSize r ≤ 64 then
    let k := st * ((rgnExt r 0 : Int) - 1)
    span (o + min 0 k) (o + max 0 k)
  else (rgnSteps r 0).flatMap fun i => span (o + i) (o + i)

/-- The blocks of virtual addresses of the region, ascending (R139). -/
def rgnBlocks (r : BitVec 512) : List Nat :=
  let rows := (rgnSteps r 3).flatMap fun c => (rgnSteps r 2).flatMap fun b => (rgnSteps r 1).map fun a => a + b + c
  ((rows.flatMap (rgnRow r)).foldl (fun (m : SMap Unit) b => m.insert b ()) []).map (·.1)

/-- The record is refused (R140), the size of the claim set included. -/
def rgnBad (r : BitVec 512) : Bool :=
  let e := rgnEsize r
  let n := rgnRank r
  fld r 127 80 != 0 || n == 0 || n > 4 || e > 5 ||
  (List.range 4).any (fun d => if d < n then rgnExt r d == 0 else rgnExt r d != 1 || rgnStr r d != 0) ||
  rgnBase r % rgnSize r != 0 || bit r 63 ||
  (let (a, b) := rgnSpan r
   decide (rgnByte r a < 0) || decide (rgnByte r b + rgnSize r > (2 ^ 52 : Nat)) || decide ((rgnBlocks r).length > 2 ^ 24))

/-! ## Handles -/

def State.handle? (s : State) (ctx id : Nat) : Option Handle := s.handles.find? fun h => h.ctx == ctx && h.id == id

/-- The fragments of a handle's claim set. -/
def State.fragsOf (s : State) (h : Handle) : List Frag := s.frags.filter fun f => f.blocks.any h.blocks.contains

/-- The directory looks at the fragments a request for a handle touches (R155). -/
def State.visitHandle (s : State) (h : Handle) : State := (s.fragsOf h).foldl (fun s f => s.visit f.id) s

/-- The fragments in use by a context (R142, R380). -/
def State.fragsOfCtx (s : State) (ctx : Nat) : List Frag :=
  s.frags.filter fun f => s.handles.any fun h => h.ctx == ctx && f.blocks.any h.blocks.contains

/-- The cover of a fragment (R141). -/
def State.cover (s : State) (f : Frag) : List (Nat × Nat) :=
  (s.handles.filter fun h => f.blocks.any h.blocks.contains).map fun h => (h.ctx, h.id)

/-- The lowest ID that is free in a context (R303). -/
def State.freeId (s : State) (ctx : Nat) : Option Nat :=
  (List.range 65535).findSome? fun i => if (s.handle? ctx (i + 1)).isNone then some (i + 1) else none

/-! ## Claims -/

/-- Ends every claim on a fragment, dirty bytes written back first (R143, R159). -/
def State.dropClaims (s : State) (f : Frag) : State :=
  let s := if f.holder.isSome then s.endHolder f.id else s
  { s with
    clusters := s.clusters.map fun p =>
      if p.2.claims.any (fun c => c.frag == f.id) then
        (p.1, { p.2 with
          claims := p.2.claims.filter fun c => c.frag != f.id
          cores := p.2.cores.map fun k => { k with l1 := k.l1.filter fun x => !f.blocks.contains x.blk } })
      else p
    sites := s.sites.map fun p => (p.1, { p.2 with claims := p.2.claims.filter fun c => c.frag != f.id }) }

/-- A cluster drops its claim for a context on a fragment (R304). -/
def State.dropClaim (s : State) (cl ctx : Nat) (f : Frag) : State :=
  if f.holder == some (.cluster cl, ctx) then s.endHolder f.id
  else (s.dropSectors cl ctx f.blocks).updCluster cl fun c => { c with claims := c.claims.filter fun x => !(x.frag == f.id && x.ctx == ctx) }

/-- The least recently used claim of a cluster that is not on the fragments given. -/
def oldestClaim (c : Cluster) (keep : List Nat) (ctx : Nat) : Option Claim :=
  (c.claims.filter fun x => !(keep.contains x.frag && x.ctx == ctx)).foldl (fun b x => match b with
    | none => some x
    | some y => if x.used < y.used then some x else some y) none

/-- Replaces least recently used entries until `n` more fit in the 1,024 (R160); replacing a write claim ends reservations on its blocks (R284). -/
def State.makeRoom (s : State) (cl ctx n : Nat) (keep : List Nat) : Nat → State
  | 0 => s
  | k + 1 =>
    let c := s.cluster cl
    if c.claims.length + n ≤ 1024 then s
    else match oldestClaim c keep ctx with
      | none => s
      | some o => match s.frags.find? (fun f => f.id == o.frag) with
        | some f => (let t := s.dropClaim cl o.ctx f; if o.write then f.blocks.foldl State.loseResv t else t).makeRoom cl ctx n keep k
        | none => (s.updCluster cl fun c => { c with claims := c.claims.filter fun x => !(x.frag == o.frag && x.ctx == o.ctx) }).makeRoom cl ctx n keep k

/-! ## Making and freeing (R143) -/

/-- Splits a fragment that a new claim set meets in part; each piece keeps its state, and its claims. -/
def State.splitFrag (s : State) (f : Frag) (blocks : List Nat) : State :=
  let inB := f.blocks.filter blocks.contains
  let out := f.blocks.filter fun b => !blocks.contains b
  if inB.isEmpty || out.isEmpty then s
  else
    let (id, s) := s.fresh
    let dup (cs : List Claim) : List Claim := cs ++ ((cs.filter fun c => c.frag == f.id).map fun c => { c with frag := id })
    let s : State := { s with frags := s.frags.map (fun g => if g.id == f.id then { g with blocks := out } else g) ++ [{ f with id := id, blocks := inB }] }
    let s : State := { s with clusters := s.clusters.map fun p => (p.1, { p.2 with claims := dup p.2.claims }) }
    let s : State := { s with sites := s.sites.map fun p => (p.1, { p.2 with claims := dup p.2.claims }) }
    s.clusters.foldl (fun s p => if p.2.claims.length > 1024 then s.makeRoom p.1 0 0 [] p.2.claims.length else s) s

/-- A new handle and its fragments. -/
def State.addHandle (s : State) (h : Handle) : State :=
  let met := (s.frags.filter fun f => f.blocks.any h.blocks.contains).map Frag.id
  let s := met.foldl (fun s id => match s.frags.find? fun f => f.id == id with
    | some f => s.splitFrag f h.blocks
    | none => s) s
  let fresh := h.blocks.filter fun b => !s.frags.any fun f => f.blocks.contains b
  let s := if fresh.isEmpty then s else
    let t := s.pmin - 1
    let (v, s) := s.issueVer t
    let (id, s) := s.fresh
    { s with frags := s.frags ++ [{ id := id, blocks := fresh, wts := t, rts := t, ver := v }] }
  { s with handles := s.handles ++ [h] }

/-- The fragments a new handle would add to those its context uses. -/
def State.newFrags (s : State) (h : Handle) : Nat := ((s.addHandle h).fragsOfCtx h.ctx).length - (s.fragsOfCtx h.ctx).length

/-- The claims guests hold of a context: they count against its FRAGQ (R482). -/
def State.guestClaims (s : State) (ctx : Nat) : Nat := ((s.sites.map fun p => (p.2.claims.filter fun c => c.ctx == ctx).length).foldl (· + ·) 0)

/-- The new fragments of a handle stay within its context's quota (R140). -/
def State.fragRoom (s : State) (h : Handle) : Bool :=
  s.newFrags h == 0 || decide ((s.fragsOfCtx h.ctx).length + s.guestClaims h.ctx + s.newFrags h ≤ fld (s.context h.ctx).img 351 320)

/-- The merge of two fragments without claims (R143): the largest VER with its wts, the latest rts. -/
def Frag.merge (f g : Frag) : Frag :=
  { f with
    blocks := f.blocks ++ g.blocks, rts := tsMax f.rts g.rts,
    ver := if f.ver.toNat < g.ver.toNat then g.ver else f.ver, wts := if f.ver.toNat < g.ver.toNat then g.wts else f.wts }

/-- Merges fragments of equal cover: each fragment joins the first before it with its cover. -/
def mergeInto (cov : Frag → List (Nat × Nat)) (f : Frag) : List Frag → List Frag
  | [] => [f]
  | g :: gs => if cov g == cov f then g.merge f :: gs else g :: mergeInto cov f gs

/-- The fragments whose claims freeing a handle drops: those of its claim set, and those that will merge with another (R143, R159). -/
def State.freeDrops (s : State) (h : Handle) : List Frag :=
  let t := { s with handles := s.handles.filter fun k => !(k.ctx == h.ctx && k.id == h.id) }
  s.frags.filter fun f =>
    f.blocks.any h.blocks.contains ||
      (s.frags.any fun g => g.id != f.id && t.cover g == t.cover f && g.blocks.any h.blocks.contains)

/-- Frees a handle (R159): claims dropped, fragments re-formed, watchpoints that name it cleared (R304). -/
def State.freeHandle (s : State) (h : Handle) : State :=
  let s := (s.freeDrops h).foldl State.dropClaims s
  let s := { s with handles := s.handles.filter fun k => !(k.ctx == h.ctx && k.id == h.id) }
  let kept := s.frags.filter fun f => !(s.cover f).isEmpty
  let s := { s with frags := kept.foldl (fun l f => mergeInto s.cover f l) [] }
  s.updCtx h.ctx fun c => { c with watches := c.watches.map fun w => if w.handle == h.id then {} else w }

end Sys2Proof.Machine
end

