-- ==== Sys2Proof/Machine/ClaimInstr.lean ====
section
/-!
DEFINITION. The claim instructions (R302 to R307): TMAKE, TFREE, TCLAIM, TDROP, TSPLIT, TINFO.
-/
namespace Sys2Proof.Machine
open Sys2Proof

/-- HANDLE (R430). -/
def handleFlt (id cause : Nat) : Flt := { code := cHandle, info := id % 2 ^ 16 + cause * 2 ^ 16 }
def quotaFlt (cause : Nat) : Flt := { code := cQuota, info := cause }
def pureFlt (cause : Nat) : Flt := { code := cPurity, info := cause }

/-- The issuing group runs a pure task. -/
def pureNow (s : State) : Option Pure := (s.group? (who s).gid).bind Group.pure

/-- The live handle a register names (R302, R137). -/
def State.handleAt (s : State) (v : Word64) : Except Flt Handle :=
  let id := v.toNat % 2 ^ 16
  if v.toNat ≥ 2 ^ 16 then .error (handleFlt id 5)
  else match s.handle? (who s).ctx id with
    | some h => .ok h
    | none => .error (handleFlt id 1)

/-- Sends the read of a record at a fabric address; the instruction issues again once it has come. -/
def sendRecord (s : State) (v : View) (t : Thread) (x : Enc) (size : Nat) (a : Acc) : State :=
  let parts := (List.range (size / 16)).map fun i =>
    ({ a with va := a.va + BitVec.ofNat 64 (16 * i), size := 16, fab := a.fab.map fun p => (p.1, p.2 + 16 * i), tid := t.tid }, i)
  let (id, s1) := s.outstanding (who s) v x .record 0 16 true parts
  stall { s1 with loads := s1.loads.map fun l => if l.id == id then { l with look := 0 } else l }

/-- Reads a record of `size` bytes as a global load of the leader (R270, R303, R314). -/
def readRecord (x : Enc) (s : State) (v : View) (t : Thread) (va : BitVec 64) (size align : Nat) (k : Nat → State → State) : State :=
  let w := who s
  match checkAll s w w.owner [{ tid := t.tid, slot := t.slot, va := va, size := size, acc := 1, align := align }] with
  | .fault a sl f => raise a sl f s
  | .recall f => stallRecall f s
  | .blocked => stall s
  | .ok as =>
    match as.find? (fun a => a.fab.isSome), v.warp.fetched.find? (fun p => p.1 == t.tid && p.2.1 == va) with
    | some _, some p => k p.2.2 s
    | some a, none => sendRecord s v t x size a
    | none, _ =>
    if xlatWait s w.core w.ctx as || blockWait s w none as || loadsWait s w.core as then stall s
    else match as.find? (fun a => s.poisonedAt a.pa) with
      | some a => raise a.tid a.slot (poisonFlt a.va 1 0) s
      | none => match readAll w true 1 0 (as.map fun a => (a, 0)) (s.tlbFill (as.flatMap Acc.fills)) with
        | .recall f => stallRecall f s
        | .blocked => stall s
        | .ok gs s2 => match gs with
          | g :: _ => k (blkNat g.sec.data g.off size) s2
          | [] => s2

/-- The physical blocks of a claim set: every page mapped (XLATE) and claim-coherent (PERM, cause 5) (R140). -/
inductive SetRes where
  | ok (blocks : List Nat) (s : State)
  | fault (f : Flt)
  | recall (frag : Nat)
  | blocked

def claimSet (w : Who) : List Nat → State → SetRes
  | [], s => .ok [] s
  | b :: bs, s =>
    let va := BitVec.ofNat 64 (b * 64)
    match translate s w.owner (w.die % 8) w.ctx va 0 with
    | .fail f => .fault f
    | .recall f => .recall f
    | .blocked => .blocked
    | .ok r =>
      if !pteCC r.leaf then .fault (permFlt va 0 5 r.leaf)
      else match claimSet w bs ((s.tlbFill r.fills).touch w.ctx r.pa) with
        | .ok l s' => .ok (s.blk r.pa :: l) s'
        | e => e

/-- Makes a handle of a region record and writes its ID to D (R303, R306, R140). -/
def makeHandle (x : Enc) (rec : BitVec 512) (named : Nat) (s : State) : State :=
  let w := who s
  if rgnBad rec then takeFault (handleFlt named 2) s
  else match claimSet w (rgnBlocks rec) s with
    | .fault f => takeFault f s
    | .recall f => stallRecall f s
    | .blocked => stall s
    | .ok bs s1 =>
      let blocks := (bs.foldl (fun (m : SMap Unit) b => m.insert b ()) []).map (·.1)
      if blocks.any fun b => s.waitsAt (b * 64) then stall s
      else if (s1.handles.filter fun h => h.ctx == w.ctx).length ≥ 4096 then takeFault (quotaFlt 1) s
      else match s1.freeId w.ctx with
        | none => takeFault (quotaFlt 1) s
        | some id =>
          let h : Handle := { ctx := w.ctx, id := id, region := rec, blocks := blocks }
          if !s1.fragRoom h then takeFault (quotaFlt 2) s else retire x 1 (mapWarp (s1.addHandle h) fun k => k.wrOp x.d 64 id)

/-- TMAKE (R303). -/
def execTmake (x : Enc) (s : State) : Out :=
  issueS 0xA0 x s fun v =>
    match v.P x with
    | [] => finish x 1 s v
    | t :: _ =>
      if (pureNow s).isSome then takeFault (pureFlt 7) s
      else readRecord x s v t (memAddr x v.warp t 64) 64 64 fun r s' => makeHandle x (BitVec.ofNat 512 r) 0 s'

/-- TFREE (R304, R159). It waits until a guest that holds a claim on a fragment has dropped it (R482). -/
def execTfree (x : Enc) (s : State) : Out :=
  issueS 0xA1 x s fun v =>
    if (pureNow s).isSome then takeFault (pureFlt 7) s
    else match s.handleAt (rdU v.warp x.a) with
      | .error f => takeFault f s
      | .ok h =>
        let drops := s.freeDrops h
        match drops.find? (fun f => match f.holder with
            | some (.guest _, _) => true
            | _ => false) with
        | some f => stallRecall f.id s
        | none =>
          if drops.any fun f => f.blocks.any fun b => s.waitsAt (b * 64) then stall s
          else retire x 1 (s.freeHandle h)

/-- The claim-table entries a claim on some fragments still needs. -/
def claimNeed (c : Cluster) (ctx : Nat) (fs : List Frag) : Nat := (fs.filter fun f => (c.claim? f.id ctx).isNone).length

/-- A read claim on all fragments of a handle (R146): pts first moves over every wts, then each lease is set. A fragment that the cluster
holds under its own write claim is left as it is. -/
def claimRead (cl ctx lease : Nat) (fs : List Frag) (s : State) : State :=
  let fs := fs.filter fun f => f.holder != some (.cluster cl, ctx)
  let s := s.setClock (.cluster cl) (fs.foldl (fun p f => tsMax p f.wts) (s.cluster cl).pts)
  fs.foldl (fun s f =>
    let kept := ((s.cluster cl).claim? f.id ctx).any fun c => c.ver == f.ver
    (if kept then s else s.dropSectors cl ctx f.blocks).grantRead cl ctx f lease) s

/-- A write claim on all fragments of a handle (R149): one jump over every rts, then each fragment gets it and a version. -/
def claimWrite (cl ctx lease : Nat) (fs : List Frag) (s : State) : State :=
  let t := fs.foldl (fun p f => tsMax p (f.rts + 1)) (s.cluster cl).pts
  let s := s.setClock (.cluster cl) t
  fs.foldl (fun s f =>
    let (v, s) := s.issueVer t
    let own := f.holder == some (.cluster cl, ctx)
    let s := if own then s else s.dropSectors cl ctx f.blocks
    let s := s.updFrag f.id fun f => { f with wts := t, rts := t, ver := v, holder := some (.cluster cl, ctx), grantAt := s.cyclesOf (cl / 24), used := false }
    let c : Claim := { frag := f.id, ctx := ctx, write := true, ownRts := t, ver := v, lease := lease, used := s.now }
    s.updCluster cl fun k => { k with claims := c :: k.claims.filter fun x => !(x.frag == f.id && x.ctx == ctx) }) s

/-- Fragments in ascending order of their lowest block (R152). -/
def byBlock (fs : List Frag) : List Frag :=
  (fs.foldl (fun (m : SMap Frag) f => m.insert (f.blocks.foldl min (f.blocks.headD 0)) f) []).map (·.2)

/-- TCLAIM (R305): what it asks, by whether it writes. -/
def tclaim (write : Bool) (x : Enc) (s : State) : Out :=
  issueS 0xA2 x s fun v =>
    let w := who s
    let b := (bU x v.warp).toNat
    if !write && b > 255 then takeFault (ownIll 0xA2 x) s
    else match s.handleAt (rdU v.warp x.a) with
      | .error f => takeFault f s
      | .ok h =>
        let declared := match pureNow s with
          | none => true
          | some p => p.outs.contains h.id || (!write && (p.ins.map (·.1)).contains h.id)
        if !declared then takeFault (pureFlt 7) s
        else
          let s := s.visitHandle h
          let fs := byBlock (s.fragsOf h)
          if fs.length > 1024 then takeFault (quotaFlt 3) s
          else if h.blocks.any fun b => s.waitsAt (b * 64) then stall s
          else
            let held := fs.filter fun f => f.holder.isSome && f.holder != some (.cluster w.cl, w.ctx)
            if !held.isEmpty then stall (held.foldl (fun s f => s.askRecall f.id) s)
            else
              let lease := if !write && b ≠ 0 then b else v.warp.lease.toNat
              let s1 := s.makeRoom w.cl w.ctx (claimNeed (s.cluster w.cl) w.ctx fs) (fs.map Frag.id) (s.cluster w.cl).claims.length
              let s2 := if write then claimWrite w.cl w.ctx lease fs s1 else claimRead w.cl w.ctx lease fs s1
              let s3 := h.blocks.foldl (fun s b => s.touch w.ctx (b * 64)) s2
              retire x 1 (mapWarp s3 fun k => k.wrOp x.d 64 (s3.handleVer h).toNat)

/-- TCLAIM.rd (R305, R146). -/
def execTclaimRd (x : Enc) (s : State) : Out := tclaim false x s

/-- TCLAIM.wr (R305, R149). -/
def execTclaimWr (x : Enc) (s : State) : Out := tclaim true x s

/-- TDROP (R304). -/
def execTdrop (x : Enc) (s : State) : Out :=
  issueS 0xA3 x s fun v =>
    let w := who s
    match s.handleAt (rdU v.warp x.a) with
    | .error f => takeFault f s
    | .ok h =>
      let fs := (s.fragsOf h).filter fun f => ((s.cluster w.cl).claim? f.id w.ctx).isSome
      if fs.any fun f => f.holder == some (.cluster w.cl, w.ctx) && f.blocks.any fun b => s.waitsAt (b * 64) then stall s
      else retire x 1 (fs.foldl (fun s f => (if f.holder == some (.cluster w.cl, w.ctx) then s.dropPast w.cl w.gid f.blocks else s).dropClaim w.cl w.ctx f) s)

/-- The region of a sub-box of a handle (R306): none where the record does not lie in the source. -/
def subRegion (r : BitVec 512) (box : Nat) : Option (BitVec 512) :=
  let o (d : Nat) : Nat := box / 2 ^ (32 * d) % 2 ^ 32
  let xt (d : Nat) : Nat := box / 2 ^ (128 + 32 * d) % 2 ^ 32
  let n := rgnRank r
  let fits (d : Nat) : Bool := if d < n then decide (1 ≤ xt d ∧ o d + xt d ≤ rgnExt r d) else o d == 0 && xt d == 1
  let off : Int := (List.range 4).foldl (fun a d => a + (o d : Int) * rgnStr r d) 0
  if !(List.range 4).all fits || (rgnEsize r == 0 && off % 2 != 0) then none
  else
    let keep := r.toNat / 2 ^ 256 * 2 ^ 256 + fld r 127 64 * 2 ^ 64
    some (BitVec.ofNat 512 (keep + box / 2 ^ 128 % 2 ^ 128 * 2 ^ 128 + (rgnByte r off).toNat % 2 ^ 64))

/-- TSPLIT (R306). -/
def execTsplit (x : Enc) (s : State) : Out :=
  issueS 0xA4 x s fun v =>
    match v.P x with
    | [] => finish x 1 s v
    | t :: _ =>
      if (pureNow s).isSome then takeFault (pureFlt 7) s
      else match s.handleAt (rdU v.warp x.a) with
        | .error f => takeFault f s
        | .ok h => readRecord x s v t (rdU v.warp x.b) 32 32 fun r s' =>
            match subRegion h.region r with
            | none => takeFault (handleFlt h.id 4) s'
            | some reg => makeHandle x reg h.id s'

/-- The views of TINFO (R307). -/
def infoOf (s : State) (cl ctx : Nat) (h : Handle) (sel : Nat) : Nat :=
  let r := h.region
  match sel with
  | 0 => (s.handleVer h).toNat
  | 1 => rgnEsize r * 256 + rgnRank r
  | 2 => rgnExt r 1 * 2 ^ 32 + rgnExt r 0
  | 3 => rgnExt r 3 * 2 ^ 32 + rgnExt r 2
  | 4 => rgnBase r
  | _ =>
    let fs := s.fragsOf h
    let cs := fs.map fun f => (s.cluster cl).claim? f.id ctx
    let kind := if cs.all Option.isNone then 0
      else if cs.all (fun c => c.any fun k => !k.write) then 1
      else if cs.all (fun c => c.any Claim.write) then 2 else 3
    fs.length * 2 ^ 32 + kind

/-- TINFO (R307). -/
def execTinfo (x : Enc) (s : State) : Out :=
  issueS 0xA5 x s fun v =>
    let w := who s
    match s.handleAt (rdU v.warp x.a) with
    | .error f => takeFault f s
    | .ok h => finish x 1 s ⟨v.warp.wrOp x.d 64 (infoOf s w.cl w.ctx h x.subN), v.ths⟩

end Sys2Proof.Machine
end

