-- ==== Sys2Proof/Machine/Control.lean ====
section
/-!
DEFINITION. Control and status instructions (R234 to R244): branches, EXIT, REFORM, YIELD, TRAP and BKPT, SYSCALL, WSYNC, SREAD,
SWRITE, CLOCK.
-/
namespace Sys2Proof.Machine
open Sys2Proof

/-- NOP (R239). -/
def execNop (x : Enc) (s : State) : Out := issue 0x00 x s fun v => finish x 1 s v

/-! ## Branches (R235, R236) -/

/-- The threads of P go to the PC that `target` gives, the others to the next instruction; LR suppression ends (R23). -/
def branchTo (x : Enc) (s : State) (v : View) (link : Bool) (target : Thread → BitVec 64) : State :=
  let nx := nextPc x s
  let ts := (v.P x).map fun t => (t.tid, target t)
  let v' : View := ⟨v.warp,
    v.ths.map fun t => { (if link && guardTrue x.w2 t then (t.wrV 0 (nx.setWidth 32)).wrV 1 ((nx >>> 32).setWidth 32) else t) with lr := none }⟩
  let gone (s : State) : State := match s.cur.agent with
    | .warp g _ => s.mapThreads g fun t => match ts.find? (fun p => p.1 == t.tid) with
      | some (_, pc) => { t with pc := pc }
      | none => t
    | .foreman c => s.updCluster c fun cl => { cl with fore := { cl.fore with th := match ts with
        | (_, pc) :: _ => { cl.fore.th with pc := pc }
        | [] => cl.fore.th } }
    | .mgmt => { s with mgmt := { s.mgmt with th := match ts with
        | (_, pc) :: _ => { s.mgmt.th with pc := pc }
        | [] => s.mgmt.th } }
    | .none => s
  let agent := s.cur.agent
  let s1 := retire x (vcost x v) (putView s v')
  { gone { s1 with cur := { agent := agent } } with cur := {} }

/-- BRA (R235). -/
def execBra (x : Enc) (s : State) : Out :=
  issue 0x01 x s fun v => branchTo x s v false fun _ => s.cur.pc + branchOff x

/-- CALL (R235): v0:v1 receive the return address. On the foreman and the management core, which have no vector register, only the branch is taken. -/
def execCall (x : Enc) (s : State) : Out :=
  issue 0x03 x s fun v => branchTo x s v s.cur.agent.isWarp fun _ => s.cur.pc + branchOff x

/-- BRX and RET: a target with bits 1:0 not zero raises ALIGN (R236). -/
def branchReg (op : BitVec 8) (x : Enc) (s : State) : Out :=
  issue op x s fun v =>
    let off : BitVec 64 := if x.form.hasLit then x.lit else 0
    let target (t : Thread) : BitVec 64 := BitVec.ofNat 64 (rdOp v.warp t x.a 64) + off
    match (v.P x).find? fun t => (target t).toNat % 4 ≠ 0 with
    | some t => takeFaultAt t.tid t.slot { code := cAlign, info := 4, addr := target t, acc := 4 } s
    | none => branchTo x s v false target

/-- BRX (R236). -/
def execBrx (x : Enc) (s : State) : Out := branchReg 0x02 x s

/-- RET (R236). -/
def execRet (x : Enc) (s : State) : Out := branchReg 0x04 x s

/-! ## EXIT and REFORM (R237, R238) -/

/-- Threads that have not exited; filed threads count (R31). -/
def Group.alive (g : Group) : List Thread := g.threads.filter fun t => t.run != .exited

/-- Removes the warps all of whose threads have exited or been filed (R28). -/
def Group.dropEnded (g : Group) : Group :=
  { g with warps := g.warps.filter fun w => g.threads.any fun t => t.wid == w.wid && t.run != .exited && t.run != .filed }

/-- EXIT (R237): the one that ends the group's last warp waits for the group's engine commands. -/
def execExit (x : Enc) (s : State) : Out :=
  issue 0x05 x s fun v =>
    let gid := (who s).gid
    let tids := (v.P x).map Thread.tid
    match s.cur.agent, s.group? gid with
    | .warp _ _, some g =>
      let last := g.alive.all fun t => tids.contains t.tid
      let s0 := if last && !tids.isEmpty then s.discardHeld gid (fun i => (g.guard i).isNone) else s
      if last && !tids.isEmpty && s0.hasCmds gid then stall s0
      else
        let s1 := retire x (vcost x v) s0
        let s2 := s1.mapThreads gid fun t => if tids.contains t.tid then { t with run := .exited, resv := none } else t
        (s2.updGroup gid Group.dropEnded).settle gid
    | .foreman c, _ =>
      if tids.isEmpty then finish x 1 s v
      else (retire x 1 s).updCluster c fun cl => { cl with fore := { cl.fore with run := false, th := { cl.fore.th with run := .exited } } }
    | .mgmt, _ =>
      if tids.isEmpty then finish x 1 s v
      else let s1 := retire x 1 s; { s1 with mgmt := { s1.mgmt with th := { s1.mgmt.th with run := .exited } } }
    | _, _ => finish x 1 s v

/-- The key a thread is filed under: its next PC and the low 8 bits of k (R26). -/
def reformKey (x : Enc) (w : Warp) (t : Thread) : BitVec 8 := BitVec.ofNat 8 (rdOp w t x.a 8)

/-- Files one thread: joins its group's bin of the key, or takes a free bin of the core's 16; else it is not filed (R27). -/
def fileThread (gid n : Nat) (pc : BitVec 64) (key : BitVec 8) (now : Nat) (f : Filed) (bins : List Bin) : Option (List Bin) :=
  if bins.any fun b => b.gid == gid && b.pc == pc && b.key == key then
    some (updFirst (fun b => b.gid == gid && b.pc == pc && b.key == key) (fun b => { b with filed := b.filed ++ [f] }) bins)
  else if bins.length < 16 then some (bins ++ [{ gid := gid, pc := pc, key := key, n := n, born := now, filed := [f] }])
  else none

/-- Files threads in slot order: the bins, and who was filed. -/
def fileAll (gid n : Nat) (pc : BitVec 64) (now : Nat) (mk : Thread → BitVec 8 × Filed) : List Thread → List Bin → List Bin × List Nat
  | [], bins => (bins, [])
  | t :: ts, bins =>
    match fileThread gid n pc (mk t).1 now (mk t).2 bins with
    | some b => let r := fileAll gid n pc now mk ts b; (r.1, t.tid :: r.2)
    | none => fileAll gid n pc now mk ts bins

/-- REFORM (R238, R26 to R28): n of 1 to 64 and at most vregs. -/
def execReform (x : Enc) (s : State) : Out :=
  issue 0x06 x s fun v =>
    let w := who s
    let n := x.d.toNat
    if n < 1 || n > 64 || n > (regCounts s).1 then takeFault (ownIll 0x06 x) s
    else
      let nx := nextPc x s
      let mk (t : Thread) : BitVec 8 × Filed :=
        (reformKey x v.warp t,
          { th := { t with pc := nx, run := .filed, resv := none, v := (t.v.take n) ++ List.replicate (t.v.length - n) 0, lastIssue := 0 }
            s := v.warp.s, rmode := v.warp.rmode, dmode := v.warp.dmode, lease := v.warp.lease, reqno := v.warp.reqno })
      let (bins, tids) := fileAll w.gid n nx (s.cyclesOf (w.die % 8)) mk (v.P x) (s.core w.core).bins
      let bins := bins.map fun b => if b.filed.length ≥ Config.warpW then { b with ready := true } else b
      let s1 := retire x (vcost x v) s
      let s2 := s1.updCore w.core fun c => { c with bins := bins }
      let s3 := s2.mapThreads w.gid fun t => if tids.contains t.tid then { t with run := .filed, resv := none } else t
      ((s3.updGroup w.gid Group.dropEnded).settle w.gid).note 0x23 w.core tids.length (some w.ctx)

/-! ## YIELD, TRAP, BKPT, SYSCALL, WSYNC -/

/-- PC of the path of a warp, other than the issuing one, that has waited longest; ties go to the lower PC (R22). -/
def otherPath (g : Group) (wid : Nat) (pc : BitVec 64) : Option (BitVec 64) :=
  let ts := g.threads.filter fun t => t.wid == wid && t.run == .path && t.pc != pc
  (ts.foldl (fun (b : Option Thread) t => match b with
    | none => some t
    | some u =>
      -- a path's stamp is the latest of its threads
      let st (a : Thread) : Nat := ((ts.filter fun y => y.pc == a.pc).map Thread.lastIssue).foldl max 0
      if st t < st u || (st t == st u && t.pc.toNat < u.pc.toNat) then some t else some u) none).map Thread.pc

/-- YIELD (R239). -/
def execYield (x : Enc) (s : State) : Out :=
  issue 0x07 x s fun v =>
    let w := who s
    let s1 := finish x 1 s v
    if (v.P x).isEmpty then s1
    else match s1.group? w.gid with
      | some g => match otherPath g w.wid (nextPc x s) with
        | some pc => s1.updGroup w.gid fun g => g.updWarp w.wid fun k => { k with forced := some pc, fair := 0 }
        | none => s1
      | none => s1

/-- TRAP and BKPT (R240): the threads of P stand at the next instruction; the record's PC is the instruction's. The lane is occupied for a
cycle for each thread of P (R18). -/
def trapWith (op : BitVec 8) (code : BitVec 8) (x : Enc) (s : State) : Out :=
  issue op x s fun v =>
    match v.P x with
    | [] => finish x 1 s v
    | t :: _ =>
      let nx := nextPc x s
      let cost := vcost x v
      let s1 := putView s ⟨retireWarp s v cost, (v.mapP x fun u => { u with pc := nx, lastIssue := s.now + 1 }).ths⟩
      takeFaultAt t.tid t.slot { code := code, info := x.d.toNat } ((noteIssue cost s1).pass (who s).die cost)

/-- TRAP (R240). -/
def execTrap (x : Enc) (s : State) : Out := trapWith 0x08 cTrap x s

/-- BKPT (R240). -/
def execBkpt (x : Enc) (s : State) : Out := trapWith 0x09 cBkpt x s

/-- SYSCALL (R241): the request goes to HUB, and the warp stalls with its PC at the SYSCALL until IRET answers. -/
def execSyscall (x : Enc) (s : State) : Out :=
  issue 0x0A x s fun v =>
    if (v.P x).isEmpty then finish x 1 s v
    else
      let w := who s
      let isW := s.cur.agent.isWarp
      let e : SvcEntry :=
        { kind := 1, arg := rdU v.warp x.a, frame := 0, reqno := v.warp.reqno, service := x.c, ctx := w.ctx, gid := if isW then w.gid else 0x1FFFF, wid := w.wid }
      let wait : SysWait := { d := x.d, tids := v.ths.map Thread.tid, next := nextPc x s }
      let s1 := putView s ⟨{ retireWarp s v 1 with sys := some wait }, v.ths.map fun t => { t with lastIssue := s.now + 1 }⟩
      let s2 := if w.phys then s1 else s1.updPart w.part fun p => { p with svc := p.svc ++ [e] }
      endIssue 1 s2

/-- WSYNC (R242, R24). -/
def execWsync (x : Enc) (s : State) : Out :=
  issue 0x0B x s fun v =>
    let m := (bU x v.warp).setWidth 128
    let P := v.P x
    if P.isEmpty then finish x 1 s v
    else if m.toNat ≥ 2 ^ Config.warpW || P.any (fun t => !bit m t.slot) then takeFault (ownIll 0x0B x) s
    else
      let nx := nextPc x s
      waitIn x (vcost x v) s v fun _ => .wsync m nx

/-! ## Status registers (R47 to R49, R243, R244) -/

/-- Registers of thread scope (R47). -/
def statusThread (i : Nat) : Bool := i == 0x01 || i == 0x02 || i == 0x12 || i == 0x13

/-- Registers a foreman and the management core have a value for. -/
def statusHere (i : Nat) : Bool := [0x00, 0x0B, 0x0C, 0x10, 0x11, 0x14, 0x15].contains i

/-- The value of a status register for a thread. -/
def statusVal (s : State) (w : Warp) (t : Thread) (i : Nat) : Nat :=
  let a := who s
  let g := s.group? a.gid
  let rec512 (hi lo : Nat) : Nat := (g.map fun g => fld g.task hi lo).getD 0
  match i with
  | 0x00 => Config.warpW
  | 0x01 => t.slot
  | 0x02 => t.tid
  | 0x03 => w.wid
  | 0x04 => a.gid
  | 0x05 => (g.map Group.gsize).getD 1
  | 0x06 => match g.bind Group.gang with
    | some (_, j) => j
    | none => 0
  | 0x07 => rec512 127 64
  | 0x08 => rec512 143 128
  | 0x09 => rec512 159 144
  | 0x0A => (g.map fun g => g.taskrec.toNat).getD 0
  | 0x0B => Config.lanes
  | 0x0C => a.ctx
  | 0x0D => rec512 175 160
  | 0x10 => w.rmode.toNat
  | 0x11 => if w.dmode then 1 else 0
  | 0x12 => t.fpflags.toNat
  | 0x13 => if t.rfail then 1 else 0
  | 0x14 => if a.phys then s.mgmt.selftick else (s.cluster a.cl).selftick
  | _ => w.lease.toNat

/-- SREAD (R243, R48): an index R47 does not list, and a thread-scope register into a uniform register, raise ILL; in a pure task the
registers of R191 raise PURITY. A register that only a group has is a free value on the foreman and the management core. -/
def execSread (x : Enc) (s : State) : Out :=
  issue 0x0C x s fun v =>
    let i := x.a.toNat
    let listed := decide (i ≤ 0x0D) || decide (0x10 ≤ i ∧ i ≤ 0x15)
    let bits := if i = 0x07 || i = 0x0A then 64 else 32
    if !listed || (statusThread i && isUni x.d) then takeFault (ownIll 0x0C x) s
    else if (v.P x).isEmpty then finish x 1 s v
    else if (((s.group? (who s).gid).bind Group.pure).isSome && [0x04, 0x08, 0x09, 0x0A, 0x0D].contains i) then takeFault { code := cPurity, info := 6 } s
    else if !s.cur.agent.isWarp && (!statusHere i || ((who s).phys && i == 0x0C)) then
      let (n, s) := s.draw
      finish x 1 s (v.write x 64 fun _ _ => ((Config.freeWord n).toNat, 0))
    else finish x (dcost x v) s (v.write x (if isUni x.d then 64 else bits) fun w t => (statusVal s w t i, 0))

/-- SWRITE (R243, R49). The management core is on no cluster: its write of SELFTICK reaches the register it reads itself (DESIGN CHOICE, log entry 31). -/
def execSwrite (x : Enc) (s : State) : Out :=
  issue 0x0D x s fun v =>
    let i := x.d.toNat
    let b := (bU x v.warp).toNat
    let w := who s
    let illegal := takeFault (ownIll 0x0D x) s
    let setW (f : Warp → Warp) : State := finish x 1 s ⟨f v.warp, v.ths⟩
    if !(i == 0x10 || i == 0x11 || i == 0x12 || i == 0x14 || i == 0x15) then illegal
    else if i = 0x14 && w.level = 0 then takeFault { code := cPriv } s
    else if (v.P x).isEmpty then finish x 1 s v
    else match i with
      | 0x10 => if b > 4 then illegal else setW fun k => { k with rmode := BitVec.ofNat 3 b }
      | 0x11 => if b > 1 then illegal else setW fun k => { k with dmode := b == 1 }
      | 0x12 => finish x (vcost x v) s <| v.mapP x fun t => { t with fpflags := t.fpflags &&& ~~~(BitVec.ofNat 5 (rdB x v.warp t 32)) }
      | 0x14 =>
        let n := max 16 (min 65536 b)
        finish x 1 (if w.phys then { s with mgmt := { s.mgmt with selftick := n } } else s.updCluster w.cl fun c => { c with selftick := n }) v
      | _ => if b < 1 || b > 255 then illegal else setW fun k => { k with lease := BitVec.ofNat 8 b }

/-- CLOCK (R244). The management core is on no die: its cycle count is a free value. -/
def execClock (x : Enc) (s : State) : Out :=
  issue 0x0E x s fun v =>
    let w := who s
    if x.a.toNat > 1 then takeFault (ownIll 0x0E x) s
    else if (v.P x).isEmpty then finish x 1 s v
    else if ((s.group? w.gid).bind Group.pure).isSome then takeFault { code := cPurity, info := 6 } s
    else if x.a.toNat = 1 && w.phys then
      let (n, s) := s.draw
      finish x 1 s ⟨v.warp.wrOp x.d 64 (Config.freeWord n).toNat, v.ths⟩
    else finish x 1 s ⟨v.warp.wrOp x.d 64 (if x.a.toNat = 0 then s.ptime else s.cyclesOf w.die), v.ths⟩

end Sys2Proof.Machine
end

