-- ==== Sys2Proof/Machine/Convert.lean ====
section
/-!
DEFINITION. Conversions and the register forms of quantisation: CVT (R260), QUNPK (R262), QSCALE (R263). QPACK stores to memory:
Machine/LoadStore.lean.
-/
namespace Sys2Proof.Machine
open Sys2Proof

/-- CVT (R260): the source type is SUB, the destination type MOD[4:0]. -/
def execCvt (x : Enc) (s : State) : Out :=
  let src := (Ty.ofCode x.subN).getD .b32
  compute 0x50 x s x.bits fun w t =>
    let (m, sat) := modeOf x w
    cvt src x.ty m sat w.dmode (rdOp w t x.a src.bits)

/-- The element a QUNPK decodes (R262): for the N4 formats TYPE is SUB's and bits 7:6 of the scale byte are ignored. -/
def unpkValue (x : Enc) (w : Warp) (a b : Nat) : FV :=
  let fmt := x.subN % 16
  let bits := (blkBits fmt).getD 32
  let scale := if fmt = 0x08 then x.subN / 16 * 64 + b % 64 else b % 256
  elemValue w.dmode fmt scale (a % 2 ^ bits)

/-- QUNPK (R262): a scale byte other than 0x7F under `.qs8` and `.qs32` raises FORMAT. -/
def execQunpk (x : Enc) (s : State) : Out :=
  issue 0x52 x s fun v =>
    let fmt := x.subN % 16
    let scale (t : Thread) : Nat := rdB x v.warp t 8
    let bad := if fmt = 0x07 || fmt = 0x0A then (v.P x).find? (fun t => scale t != 0x7F) else none
    match bad with
    | some t => takeFaultAt t.tid t.slot { code := cFormat, info := fmt * 256 + scale t } s
    | none => finish x (dcost x v) s <| v.write x x.bits fun w t =>
        let (m, sat) := modeOf x w
        x.ty.fmt.deliver m sat w.dmode (unpkValue x w (rdOp w t x.a 32) (scale t))

/-- QSCALE (R263). -/
def execQscale (x : Enc) (s : State) : Out :=
  issue 0x53 x s fun v =>
    let xs := (v.P x).map fun t => fpVal .f32 v.warp (rdOp v.warp t x.a 32)
    let d := x.subN % 16 * 256 + quantScale (x.subN % 16) (x.subN / 16) xs
    let v' := if xs.isEmpty then v else ⟨v.warp.wrOp x.d 64 d, v.ths⟩
    finish x (max 1 v.ths.length) s v'

end Sys2Proof.Machine
end

