-- ==== Sys2Proof/Machine/CopyGeo.lean ====
section
/-!
DEFINITION. The geometry of copies: layout records (R318), scratch boxes (R319), the tensor side (R322), destination blocks in ascending
address (R166, R320, R323), and CRC-32C (R325). Places are counted in half-bytes (nibbles), so that ESIZE 0 is one case of all.
-/
namespace Sys2Proof.Machine
open Sys2Proof

/-! ## Layout records (R318) -/

def layBase (l : BitVec 512) : Nat := fld l 63 0
def layExt (l : BitVec 512) (d : Nat) : Nat := fld l (95 + 32 * d) (64 + 32 * d)
/-- Byte stride of dimension 1, 2 or 3. -/
def layStr (l : BitVec 512) (d : Nat) : Int := (l.extractLsb' (152 + 40 * d) 40).toInt
/-- Box size of a dimension. -/
def layBox (l : BitVec 512) (d : Nat) : Nat := fld l (319 + 8 * d) (312 + 8 * d) + 1
def layCfmt (l : BitVec 512) : Nat := fld l 351 344
def layEsize (l : BitVec 512) : Nat := fld l 370 368
def layRank (l : BitVec 512) : Nat := fld l 373 371
def layRot (l : BitVec 512) : Nat := fld l 377 374
def layFill (l : BitVec 512) : Nat := fld l 379 378

/-- Width of a tensor-side element in bits (R320). -/
def layWidth (l : BitVec 512) : Nat := 4 * 2 ^ layEsize l

/-- Width of the converted format in bits; none without conversion. -/
def layConv (l : BitVec 512) : Option Nat := if layCfmt l = 0 then none else blkBits (layCfmt l % 16)

def layRows (l : BitVec 512) : Nat := layBox l 1 * layBox l 2 * layBox l 3

/-- Row pitch in bytes of a scratch box whose elements are `w` bits (R319). -/
def layPitch (l : BitVec 512) (w : Nat) : Nat :=
  let q := 16 * 2 ^ layRot l
  ((layBox l 0 * w + 7) / 8 + q - 1) / q * q

/-- The box takes more than 2 MiB of scratch at an element width. -/
def layOver (l : BitVec 512) (w : Nat) : Bool := decide (layRows l * layPitch l w > 2 ^ 21)

/-- A malformed record for a direction (R318); the width of a converting `.s2g`'s scratch side stands in no record (`boxOver`). -/
def layBad (l : BitVec 512) (k : CopyKind) : Bool :=
  let e := layEsize l
  let n := layRank l
  let c := layCfmt l
  let size := if e = 0 then 1 else 2 ^ (e - 1)
  let cw := (layConv l).getD 0
  let scrW := if c ≠ 0 && k == .g2s then cw else layWidth l
  fld l 511 380 != 0 || fld l 367 352 != 0 || layFill l == 3 || layRot l > 6 || e > 5 || n == 0 || n > 4 ||
  (List.range 4).any (fun d => if d < n then layExt l d == 0 else layExt l d != 1 || layBox l d != 1) ||
  [1, 2, 3].any (fun d => layStr l d % (size : Int) != 0) ||
  (e == 0 && layBox l 0 % 2 == 1) ||
  (k != .g2g && (c == 0 || k == .g2s) && layOver l scrW) ||
  (k == .g2g && layRot l != 0) || (k == .s2s && fld l 63 32 != 0) ||
  (c != 0 &&
    (k == .g2g || k == .s2s || c / 64 != 0 || (c % 16 != 8 && c / 16 != 0) || (layConv l).isNone || layBox l 0 * cw % 512 != 0 ||
      (c % 16 == 0x0A && k == .g2s && layWidth l < 32) || (k == .s2g && layWidth l != cw)))

/-! ## Places -/

/-- Coordinates in the box of row r. -/
def rowIdx (l : BitVec 512) (r : Nat) : Nat × Nat × Nat := (r % layBox l 1, r / layBox l 1 % layBox l 2, r / layBox l 1 / layBox l 2)

/-- Tensor coordinates of box element (i0, row r). -/
def elemAt (l : BitVec 512) (co : List Int) (r i0 : Nat) : List Int :=
  let (a, b, c) := rowIdx l r
  [co.getD 0 0 + i0, co.getD 1 0 + a, co.getD 2 0 + b, co.getD 3 0 + c]

def inBounds (l : BitVec 512) (cs : List Int) : Bool :=
  (List.range (layRank l)).all fun d => decide (0 ≤ cs.getD d 0) && decide (cs.getD d 0 < layExt l d)

/-- The nearest in-bounds element (FILL 2). -/
def clampElem (l : BitVec 512) (cs : List Int) : List Int :=
  cs.mapIdx fun d c => max 0 (min c ((layExt l d : Int) - 1))

/-- Half-byte address of an element of the tensor (R322, R139). -/
def tensorNib (l : BitVec 512) (cs : List Int) : Int :=
  2 * ((layBase l : Int) + cs.getD 1 0 * layStr l 1 + cs.getD 2 0 * layStr l 2 + cs.getD 3 0 * layStr l 3) + cs.getD 0 0 * (layWidth l / 4 : Nat)

/-- Half-byte offset in a packed box of half-byte j of row r (R319). -/
def packNib (l : BitVec 512) (w r j : Nat) : Nat :=
  (r * layPitch l w + ((j / 2) ^^^ (r % 2 ^ layRot l * 16))) * 2 + j % 2

/-- Row and half-byte of the row that a half-byte offset of a packed box holds; none in the padding. -/
def unpackNib (l : BitVec 512) (w n : Nat) : Option (Nat × Nat) :=
  let p := 2 * layPitch l w
  let r := n / p
  let o := n % p
  let j := ((o / 2) ^^^ (r % 2 ^ layRot l * 16)) * 2 + o % 2
  if r < layRows l && j < layBox l 0 * w / 4 then some (r, j) else none

/-! ## Destination blocks -/

/-- A destination block of a command: a block of the destination's addresses (or scratch offsets), or block q of row r of a conversion. -/
inductive DstBlk where
  | at (b : Int)
  | conv (r q : Nat)
  deriving DecidableEq, Repr

/-- The source width and the destination's scratch width of a copy: `width` is the scratch side's, read at the start of `.s2g`. -/
def CopyCmd.scrW (c : CopyCmd) : Nat :=
  if layCfmt c.layout = 0 then layWidth c.layout
  else match c.kind with
    | .g2s => (layConv c.layout).getD 32
    | _ => c.width

/-- Sorted distinct numbers. -/
def sortInts (xs : List Int) : List Int :=
  match xs with
  | [] => []
  | y :: ys =>
    let lo := ys.foldl min y
    ((xs.foldl (fun (m : SMap Unit) x => m.insert (x - lo).toNat ()) []).map fun p => (p.1 : Int) + lo)

/-- The blocks that the tensor side of a box touches, ascending. -/
def tensorBlocks (c : CopyCmd) : List Int :=
  let l := c.layout
  sortInts ((List.range (layRows l)).flatMap fun r =>
    let a := tensorNib l (elemAt l c.coord r 0) / 128
    let b := (tensorNib l (elemAt l c.coord r (layBox l 0 - 1)) + (layWidth l / 4 : Nat) - 1) / 128
    (List.range ((b - a).toNat + 1)).map fun (i : Nat) => a + i)

/-- Rows of conversion blocks in the order of their destination (R320, R166). -/
def convBlocks (c : CopyCmd) : List DstBlk :=
  let l := c.layout
  let cw := (layConv l).getD 32
  let n := layBox l 0 * cw / 512
  match c.kind with
  | .g2s =>
    (List.range (layRows l)).flatMap fun r =>
      (List.range (layPitch l cw / 64)).filterMap fun pb =>
        let q := ((64 * pb) ^^^ (r % 2 ^ layRot l * 16)) / 64
        if q < n then some (.conv r q) else none
  | _ =>
    let all := (List.range (layRows l)).flatMap fun r => (List.range n).map fun q => (r, q)
    let key (p : Nat × Nat) : Int := tensorNib l (elemAt l c.coord p.1 (p.2 * (512 / cw)))
    (sortInts (all.map key)).flatMap fun k => (all.filter fun p => key p == k).map fun p => .conv p.1 p.2

/-- All destination blocks of a command in order. -/
def CopyCmd.plan (c : CopyCmd) : List DstBlk :=
  if c.linear then
    let a := c.dst.toNat / 64
    (List.range ((c.dst.toNat + c.len - 1) / 64 + 1 - a)).map fun (i : Nat) => .at ((a + i : Nat) : Int)
  else if layCfmt c.layout ≠ 0 then convBlocks c
  else match c.kind with
    | .s2g => (tensorBlocks c).map .at
    | _ =>
      let base : Nat := match c.kind with
        | .s2s => fld c.layout 31 0
        | _ => c.dst.toNat
      (List.range ((layRows c.layout * layPitch c.layout (layWidth c.layout) + 63) / 64)).map fun (i : Nat) => .at ((base / 64 + i : Nat) : Int)

/-- Where one destination half-byte comes from: none holds no byte of the box, a skipped element, a fill value, a source
half-byte, or that of the nearest in-bounds element, which is fill too (R318). -/
inductive Spot where
  | none | skip
  | fill (v : Nat)
  | src (n : Int)
  | near (n : Int)
  deriving DecidableEq, Repr

/-- The source half-byte that a spot reads. -/
def Spot.from : Spot → Option Int
  | .src n => some n
  | .near n => some n
  | _ => Option.none

/-- Source of a tensor element's half-byte: the element, or its fill. -/
def readSpot (l : BitVec 512) (cs : List Int) (q : Nat) : Spot :=
  if inBounds l cs then .src (tensorNib l cs + q)
  else match layFill l with
    | 0 => .fill 0
    | 1 => .fill 15
    | _ => .near (tensorNib l (clampElem l cs) + q)

/-- The 128 half-bytes of a destination block without conversion. -/
def CopyCmd.spots (c : CopyCmd) (b : Int) : List Spot :=
  let l := c.layout
  let w := layWidth l
  let wn := w / 4
  if c.linear then
    (List.range 128).map fun (k : Nat) =>
      let n := 128 * b + k - 2 * (c.dst.toNat : Int)
      if 0 ≤ n && n < 2 * c.len then .src (2 * (c.src.toNat : Int) + n) else .none
  else match c.kind with
    | .s2g =>
      let rows := ((List.range (layRows l)).map fun r => (r, tensorNib l (elemAt l c.coord r 0))).filter fun p =>
        decide (p.2 < 128 * b + 128) && decide (128 * b < p.2 + (layBox l 0 * wn : Nat))
      (List.range 128).map fun (k : Nat) =>
        let n := 128 * b + k
        match (rows.filter fun p => decide (p.2 ≤ n) && decide (n < p.2 + (layBox l 0 * wn : Nat))).getLast? with
        | some (r, a) =>
          let j := (n - a).toNat
          if inBounds l (elemAt l c.coord r (j / wn)) then .src (2 * (c.dst.toNat : Int) + packNib l w r j) else .skip
        | Option.none => .none
    | .s2s =>
      (List.range 128).map fun (k : Nat) =>
        match unpackNib l w (128 * b + k - 2 * (fld l 31 0 : Int)).toNat with
        | some (r, j) => .src (2 * (c.dst.toNat : Int) + packNib l w r j)
        | Option.none => .none
    | _ =>
      (List.range 128).map fun (k : Nat) =>
        match unpackNib l w (128 * b + k - 2 * (c.dst.toNat : Int)).toNat with
        | some (r, j) => readSpot l (elemAt l c.coord r (j / wn)) (j % wn)
        | Option.none => .none

/-! ## CRC-32C (R325) -/

def crcStep (c : BitVec 32) : BitVec 32 := if c.getLsbD 0 then (c >>> 1) ^^^ 0x82F63B78 else c >>> 1

/-- One byte into a CRC-32C: the reflected Castagnoli polynomial. -/
def crcByte (c : BitVec 32) (b : Byte) : BitVec 32 :=
  let c := c ^^^ b.zeroExtend 32
  crcStep (crcStep (crcStep (crcStep (crcStep (crcStep (crcStep (crcStep c)))))))

def crcBytes (c : BitVec 32) (bs : List Byte) : BitVec 32 := bs.foldl crcByte c

end Sys2Proof.Machine
end

