-- ==== Sys2Proof/Machine/EngineAcc.lean ====
section
/-!
DEFINITION. Accesses of the engines: translation through the cluster's engine TLB (R415), purity (R191), watchpoints by agent class
(R197), and the faults an engine raises (R194, R429, R431).
-/
namespace Sys2Proof.Machine
open Sys2Proof

/-- An engine acts for the group that posted (R151, R314). -/
def engineWho (s : State) (gid wid : Nat) : Who :=
  match s.group? gid with
  | some g => ⟨gidCl gid, gidCore gid, g.ctx, g.part, gid, wid, (s.context g.ctx).level, false⟩
  | none => ⟨gidCl gid, gidCore gid, 0, 64, gid, wid, 0, false⟩

/-- Address and translation of an engine's access. -/
def engineXlate (s : State) (w : Who) (va : BitVec 64) (size acc : Nat) : AccRes :=
  let a : Acc := { tid := 0, slot := 0, va := va, size := size, pa := 0 }
  if isFabric va then .ok { a with fab := some (fabAccel va, fabXaddr va) }
  else if s.inDeadWin w.ctx va then .bad 2 (xlateFlt va acc 0 0 0)
  else match translate s (tlbEngine w.cl) (w.die % 8) w.ctx va acc with
    | .fail f => .bad 2 f
    | .recall f => .recall f
    | .blocked => .blocked
    | .ok r =>
      if acc ≠ 1 && frameRo s w.ctx (s.fwd r.pa) size then .bad 2 (permFlt va acc 6 0)
      else .ok { a with pa := r.pa, vpage := r.vpage, ppage := r.ppage, psize := r.psize, leaf := r.leaf, fills := r.fills }

/-- The purity of an engine's access: a fabric access, or one outside the declared set. -/
def enginePure (s : State) (gid : Nat) (a : Acc) (acc : Nat) : Option Flt :=
  match s.group? gid with
  | some g => match g.pure with
    | some p =>
      if a.fab.isSome then some { code := cPurity, info := 3, addr := a.va, acc := acc }
      else if pureOk s g p a acc then none else some { code := cPurity, info := 1, addr := a.va, acc := acc }
    | none => none
  | none => none

/-- A watch of an agent class that an engine's access hits. -/
def engineWatch (s : State) (ctx : Nat) (cls : BitVec 7) (a : Acc) (acc : Nat) : Option Flt :=
  if a.fab.isSome then none
  else (s.watchHit ctx cls (accDirs acc) (s.blk a.pa)).map fun p => watchFlt p.1 p.2 a.va acc

/-- Of the watches that the blocks of one check hit, the lowest-numbered, at the first block that hits it (R312). -/
def lowestWatch (l : List Flt) : Option Flt :=
  l.foldl (fun b f => match b with
    | some g => if f.info < g.info then some f else some g
    | none => some f) none

/-- What a command's release waits for beside its own writes (R127, R128): the accesses that the thread which posted it made before. -/
def releaseHeld (s : State) (gid : Nat) (k : Capt) (id : Nat) : Bool :=
  decide (k.ord.toNat ≥ 2) &&
    (s.packets.any (fun p => p.gid == gid && p.st != .done && decide (p.id < id) && p.of k.tid && p.releasedAt k.scope.toNat) ||
      s.loads.any fun l => l.gid == gid && l.kind != .copy && decide (l.id < id) && l.parts.any fun q => q.tid == k.tid && q.waits)

/-- Parks a group for an engine (R194): the record names the posting instruction and its leader, WARPID 0 (R429, R431); a WATCH counts
a hit. -/
def engineFault (gid agent : Nat) (k : Capt) (cmd : Option Nat) (f : Flt) (s : State) : State :=
  let slot := (((s.group? gid).bind fun g => g.thread? k.tid).map Thread.slot).getD 0
  let s := if f.code = cWatch then s.countHit (engineWho s gid 0).ctx f.info else s
  groupFault gid
    { code := f.code, info := BitVec.ofNat 32 f.info, aux := f.aux, addr := f.addr, pc := k.pc, acc := BitVec.ofNat 3 f.acc,
      agent := BitVec.ofNat 4 agent, cmd := cmd, wid := 0, tid := k.tid, slot := slot } s

/-- The watchdog of a group restarts (R408). -/
def State.alive (s : State) (gid : Nat) : State := s.updGroup gid fun g => { g with wdogAt := s.ptime, wdogLim := (s.part g.part).wdog }

end Sys2Proof.Machine
end

