-- ==== Sys2Proof/Machine/Fetch.lean ====
section
/-!
DEFINITION. Fetch (R218, R496, R413), the choice of lane, warp and path (R19, R21 to R23, R409), and the placing of one instruction
where the next step fetches.
-/
namespace Sys2Proof.Machine
open Sys2Proof

/-! ## Paths (R21 to R23) -/

/-- The lowest PC of a list of threads (R21). -/
def minPc : List Thread → Option (BitVec 64)
  | [] => none
  | t :: ts => match minPc ts with
    | some p => some (if p.toNat < t.pc.toNat then p else t.pc)
    | none => some t.pc

/-- The path at a PC holds an open LR reservation (R23). -/
def suppressed (g : Group) (w : Warp) (pc : BitVec 64) : Bool := (g.onPath w.wid).any fun u => u.pc == pc && u.lr.isSome && u.resv.isSome

/-- PC of the path that has just issued: the one whose stamp is the warp's. -/
def lastPc (g : Group) (w : Warp) : Option (BitVec 64) :=
  ((g.onPath w.wid).find? fun t => t.lastIssue == w.stamp && w.stamp != 0).map Thread.pc

/-- The forced switch is due: the timer has reached 4,096, there is another path, and no LR suppresses it (R22, R23). It runs on
while the warp has one path (DEDUCED, log entry 68). -/
def switchDue (g : Group) (w : Warp) : Bool :=
  decide (w.fair ≥ 4096) && w.forced.isNone &&
    (let pc := (lastPc g w).getD ((minPc (g.onPath w.wid)).getD 0)
     (otherPath g w.wid pc).isSome && !suppressed g w pc)

/-- The PC of the path that issues next: that of a forced switch, else the lowest; the current path keeps issuing while an LR
reservation suppresses a switch only of the timer (R21 to R23). -/
def pathPc (g : Group) (w : Warp) : Option (BitVec 64) :=
  match w.forced with
  | some pc => if (g.onPath w.wid).any (fun t => t.pc == pc) then some pc else minPc (g.onPath w.wid)
  | none =>
    if switchDue g w then otherPath g w.wid ((lastPc g w).getD ((minPc (g.onPath w.wid)).getD 0))
    else minPc (g.onPath w.wid)

/-- Inserts a thread in slot order. -/
def insSlot (t : Thread) : List Thread → List Thread
  | [] => [t]
  | u :: us => if t.slot < u.slot then t :: u :: us else u :: insSlot t us

/-- The threads of a path in ascending slot order. -/
def pathOf (g : Group) (wid : Nat) (pc : BitVec 64) : List Nat :=
  (((g.onPath wid).filter fun t => t.pc == pc).foldr insSlot []).map Thread.tid

/-- A warp may issue: its group issues, or an instruction of R372 is under way in it; it waits for no SYSCALL, and it has a path (R19). One that waits on a scoreboard or an engine is found
out by its attempt to issue, which stalls (`turn`). -/
def eligible (s : State) (g : Group) (w : Warp) : Bool :=
  (s.groupRuns g.gid || w.busy.isSome) && w.sys.isNone && !(g.onPath w.wid).isEmpty

/-- Groups resident on a core. -/
def State.groupsOn (s : State) (core : Nat) : List Group := (s.groups.map (·.2)).filter fun g => gidCore g.gid == core

/-- The warp in a slot of a lane that may issue. -/
def State.warpAt (s : State) (core lane slot : Nat) : Option (Group × Warp) :=
  (s.groupsOn core).findSome? fun g => (g.warps.find? fun w => w.lane == lane && w.wslot == slot && eligible s g w).map fun w => (g, w)

/-- The warp slots of a lane in the order it takes them: from its pointer on (R409). -/
def State.slotOrder (s : State) (core lane : Nat) : List Nat :=
  let rr := SMap.getD 0 (s.core core).rr lane
  [rr % 4, (rr + 1) % 4, (rr + 2) % 4, (rr + 3) % 4]

/-- The issue of the warp in a slot of a lane. -/
def State.pickSlot (s : State) (core lane slot : Nat) (defer : Bool) : Option Cur :=
  match s.warpAt core lane slot with
  | some (g, w) => (if s.groupRuns g.gid then pathPc g w else w.busy).map fun pc => { agent := .warp g.gid w.wid, pc := pc, path := pathOf g w.wid pc, defer := defer }
  | none => none

/-- The first issue of a lane that its order comes to. -/
def State.pickLane (s : State) (core lane : Nat) (defer : Bool) : Option Cur :=
  (s.slotOrder core lane).findSome? fun i => s.pickSlot core lane i defer

/-- A foreman issues when it runs, waits for no SYSCALL, and its partition runs (R389) or an instruction of R372 is under way in it. -/
def State.foremanRuns (s : State) (cl : Nat) : Bool :=
  let f := (s.cluster cl).fore
  f.run && f.w.sys.isNone && ((s.part (s.partOfCluster cl)).st == .running || f.w.busy.isSome) && s.present cl

def State.mgmtRuns (s : State) : Bool := s.mgmt.fault.isNone && s.mgmt.w.sys.isNone && s.mgmt.th.run == .path

/-! ## Fetch (R218) -/

inductive FetchRes where
  | ok (bs : List Byte) (s : State)
  | fail (f : Flt)
  | recall (frag : Nat)
  | blocked

/-- Fetches one word: translation with execute access, the execute tag, poison. A fabric address is not fetched from. -/
def fetchWord (s : State) (w : Who) (va : BitVec 64) : FetchRes :=
  if w.phys then .ok ((List.range 4).map fun i => SMap.getD (0 : Byte) s.mgmt.sram (va.toNat + i)) s
  else if isFabric va then .fail (xlateFlt va 4 0 5 0)
  else match translate s w.owner (w.die % 8) w.ctx va 4 with
    | .fail f => .fail f
    | .recall f => .recall f
    | .blocked => .blocked
    | .ok r =>
      if !isFlistad r.pa || s.tags.find? (s.fwd r.pa / 65536) != some w.ctx then .fail (permFlt va 4 1 r.leaf)
      else if s.waitsAt r.pa then .blocked
      else if s.poisonedAt r.pa then .fail (poisonFlt va 4 0)
      else .ok (s.rdBytes r.pa 4) ((s.touch w.ctx r.pa).tlbFill r.fills)

/-- Fetches `n` words. -/
def fetchWords (w : Who) : Nat → BitVec 64 → State → FetchRes
  | 0, _, s => .ok [] s
  | n + 1, va, s =>
    match fetchWord s w va with
    | .ok bs s' => match fetchWords w n (va + 4) s' with
      | .ok bs' s'' => .ok (bs ++ bs') s''
      | e => e
    | e => e

/-- Fetches the instruction at the issue's PC: word 0, then as many as LEN says (R201). -/
def fetchInstr (s : State) : FetchRes :=
  let w := who s
  match fetchWord s w s.cur.pc with
  | .ok bs s' =>
    match takeWords 1 bs with
    | some (w0 :: _) => match fetchWords w ((formOf w0).words - 1) (s.cur.pc + 4) s' with
      | .ok bs' s'' => .ok (bs ++ bs') s''
      | e => e
    | _ => .blocked
  | e => e

/-- The fault of words that are no instruction: the first check of R216 that fails for this agent. -/
def illegalWords (op : BitVec 8) (x : Enc) (s : State) : Flt :=
  orderFault (issueOrder s.cur.agent (who s).level op.toNat x (regCounts s).1 (regCounts s).2) op x

/-! ## Placing one instruction -/

/-- Where `placeWord` puts the instruction: code page, tables. -/
def placeVa : BitVec 64 := 0x10000
def placePa : Nat := 0x120000

/-- Page tables that map the code page executable: each level's entry 0 leads to the next, the last one's entry 1 is the leaf. -/
def placeTables : List (Nat × Byte) :=
  cellsOf 0x100000 8 0x110001 ++ cellsOf 0x110000 8 0x111001 ++ cellsOf 0x111000 8 0x112001 ++ cellsOf 0x112008 8 (placePa + 0x17)

/-- A context at K that uses those tables. -/
def placeCtx : Ctx := { st := .active, img := BitVec.ofNat 512 (0x100000 * 2 ^ 448 + 2 ^ 108) }

/-- A running partition with cluster 0 whose K context is context 0. -/
def placePart : Part := { st := .running, img := BitVec.ofNat 512 (2 ^ 320) }

/-- A resident group of one warp of 32 threads on core 0 of cluster 0, with every register, barrier and ring slot a group can hold. -/
def placeGroup : Group :=
  { gid := 0, ctx := 0, part := 0, vregs := 192, sregs := 64
    threads := (List.range Config.warpW).map fun i => { tid := i, slot := i, wid := 0, pc := placeVa, v := List.replicate 192 0 }
    warps := [{ wid := 0, lane := 0, wslot := 0, s := List.replicate 64 0 }]
    slots := [(0, 0)]
    tbars := List.replicate 64 {}
    ring := List.range 16
    scr := { base := 0, size := Config.scratchBytes } }

/-- Who runs an opcode: a foreman-only one the foreman, one that K may not run the management core, every other one a warp. -/
def placeTurn (op sub : Nat) : Turn :=
  if opForemanOnly op then .foreman 0 else if opMOnly op sub then .mgmt else .issue 0 0 false

/-- The machine with these bytes as the next instruction. -/
def placeBytes (s : State) (bs : List Byte) : State :=
  let turn := match frame bs with
    | some (op, x) => placeTurn op.toNat x.subN
    | none => placeTurn 0 0
  let cells := bs.mapIdx fun i b => (placePa + i, b)
  let own : Group := placeGroup
  let cl := s.cluster 0
  let s := { s with
    agenda := [turn]
    ctxs := s.ctxs.insert 0 placeCtx
    parts := s.parts.insert 0 placePart
    groups := s.groups.insert 0 own
    clusters := s.clusters.insert 0 { cl with
      ring := List.replicate 16 { owner := some (0, 0) }
      fore := { cl.fore with run := true, th := { cl.fore.th with pc := placeVa, run := .path } } }
    mgmt := { s.mgmt with sram := bs.mapIdx (fun i b => (i, b)) |>.filter (fun p => p.2 != 0), th := { s.mgmt.th with pc := 0, run := .path } }
    tags := s.tags.insert (placePa / 65536) 0 }
  s.wrCells (placeTables ++ cells)

end Sys2Proof.Machine
end

