-- ==== Sys2Proof/Machine/Copy.lean ====
section
/-!
DEFINITION. The copy engine: CPY, CPYL, CPYM (R321 to R326), its events COPY_START, COPY_BLOCK, COPY_END (R164 to R168), and GSLOT
(R327). In a command `dst` is what E names: the scratch box of `.g2s`, `.s2g` and `.s2s`, or the destination of `.g2g`; of CPYL it is B.
-/
namespace Sys2Proof.Machine
open Sys2Proof

/-! ## Posting (R164, R313, R314, R321 to R323) -/

/-- Whether a queue entry is free for a group: a shared one, else one of its two (R164). -/
def copyEntry (s : State) (gid : Nat) : Option Bool :=
  let cl := gidCl gid
  let q := (s.cluster cl).copyQ
  let resident := (s.groups.filter fun p => gidCl p.1 == cl).length
  if (q.filter CopyCmd.shared).length < 256 - 2 * resident then some true
  else if (q.filter fun c => c.gid == gid && !c.shared).length < 2 then some false
  else none

/-- The other group whose scratch a scratch offset reaches (R61). -/
def gangTarget (s : State) (gid off : Nat) : Option Nat :=
  match s.group? gid with
  | some g => match scrDecode s g off with
    | .at t _ => if t = gid then none else some t
    | _ => none
  | none => none

/-- The CPYM that a path has just issued (R326). -/
def State.markCpym (s : State) (gid wid : Nat) (path : List Nat) (c : Option (Nat × BitVec 512 × List Int)) : State :=
  s.updGroup gid fun g => g.updWarp wid fun w => { w with cpym := (path, c) :: w.cpym }

/-- Posts a copy command. -/
def postCopy (x : Enc) (s : State) (t : Thread) (c : Nat → Bool → Capt → CopyCmd) : State :=
  let gid := (who s).gid
  match copyEntry s gid, view s with
  | some sh, some v =>
    let (id, s) := s.fresh
    let c := c id sh (captOf s x v t.tid)
    let c := { c with into := match c.kind with
      | .g2s => gangTarget s gid (c.dst.toNat % 2 ^ 32)
      | .s2s => gangTarget s gid (if c.linear then c.dst.toNat % 2 ^ 32 else fld c.layout 31 0)
      | _ => none }
    let s := match c.into with
      | some g => s.updInbound g (· + 1)
      | none => s
    let s := s.updCluster (gidCl gid) fun k => { k with copyQ := k.copyQ ++ [c] }
    let d := x.d.toNat - 0xC0
    let s := mapWarp s fun w => w.owe id (if c.crc then [d, d + 1] else [d])
    let path := v.ths.map Thread.tid
    let wid := (who s).wid
    let s := retire x 1 s
    if c.isM then s.markCpym gid wid path (some (id, c.layout, c.coord)) else s
  | _, _ => stall s

/-- The operand checks of a copy that its words alone decide: the barrier, and D of `.crc` (R321). -/
def copyIll (x : Enc) (s : State) : Bool :=
  (bit x.mod 6 && (tbarOf s (fld x.mod 5 0)).isNone) || (bit x.sub 2 && (x.d.toNat % 2 == 1 || x.d == 0xC0))

def copyBar (x : Enc) : Option Nat := if bit x.mod 6 then some (fld x.mod 5 0) else none

/-- Where the scratch of a group's offset lies, for a block of a command; else the code it ends with (R168). -/
def scrPlace (s : State) (gid off : Nat) : Except Nat (Scratch × Nat) :=
  match s.group? gid with
  | none => .error 2
  | some g => match scrDecode s g off with
    | .ended => .error 2
    | .perm _ => .error 1
    | .at t o => match s.group? t with
      | none => .error 2
      | some tg => .ok (tg.scr, o)

/-- The scratch box of a converting `.s2g` exceeds 2 MiB at the width of the format that the block at E has when the command is posted
(R318, R320; log entry 62). -/
def boxOver (s : State) (gid : Nat) (l : BitVec 512) (e : Nat) : Bool :=
  layCfmt l != 0 && layOver l (match scrPlace s gid e with
    | .ok (c, o) => (blkBits (fld (c.desc.getD rawDesc (o / 64)) 15 8)).getD 4
    | .error _ => 4)

/-- CPY and CPYM: the layout record is read, checked and captured (R318, R322). -/
def cpyWith (op : BitVec 8) (isM : Bool) (kind : CopyKind) (x : Enc) (s : State) : Out :=
  issue op x s fun v =>
    if copyIll x s && !(v.P x).isEmpty then takeFault (ownIll op.toNat x) s
    else match v.P x with
      | [] =>
        let w := who s
        let path := v.ths.map Thread.tid
        let s1 := finish x 1 s v
        if isM then s1.markCpym w.gid w.wid path none else s1
      | t :: _ =>
        readRecord x s v t (rdU v.warp x.a) 64 64 fun r s1 =>
          let l := BitVec.ofNat 512 r
          let b := rdU v.warp x.b
          let c := rdU v.warp x.c
          let half (w : Word64) (i : Nat) : Int := (w.extractLsb' (32 * i) 32).toInt
          let co := [half b 0, half b 1, half c 0, half c 1]
          let e := rdU v.warp x.e
          if layBad l kind || (kind == .s2g && boxOver s1 (who s).gid l (e.toNat % 2 ^ 32)) || (co.drop (layRank l)).any (· != 0) then takeFault (ownIll op.toNat x) s1
          else if e.toNat % 64 ≠ 0 || (kind == .s2s && fld l 31 0 % 64 != 0) then takeFault (alignFlt e 0 64) s1
          else postCopy x s1 t fun id sh k =>
            { id := id, gid := (who s).gid, dreg := x.d.toNat - 0xC0, kind := kind, linear := false, isM := isM, layout := l, coord := co, dst := if kind == .g2g then e else (e.setWidth 32).setWidth 64
              crc := bit x.sub 2, ev := bit x.mod 7, bar := copyBar x, cap := k, shared := sh }

/-- The direction SUB names for CPY (R321). -/
def cpyKind (n : Nat) : CopyKind :=
  match n % 4 with
  | 0 => .g2s
  | 1 => .s2g
  | 2 => .g2g
  | _ => .s2s

/-- The direction SUB names for CPYL (R321). -/
def cpylKind (n : Nat) : CopyKind :=
  match n % 4 with
  | 0 => .g2g
  | 1 => .g2s
  | 2 => .s2g
  | _ => .s2s

/-- CPY (R322). -/
def execCpy (x : Enc) (s : State) : Out := cpyWith 0xB0 false (cpyKind x.subN) x s

/-- CPYM (R326). -/
def execCpym (x : Enc) (s : State) : Out := cpyWith 0xB2 true .g2s x s

/-- CPYL (R323). -/
def execCpyl (x : Enc) (s : State) : Out :=
  issue 0xB1 x s fun v =>
    if copyIll x s && !(v.P x).isEmpty then takeFault (ownIll 0xB1 x) s
    else match v.P x with
      | [] => finish x 1 s v
      | t :: _ =>
        let kind := cpylKind x.subN
        let a := rdU v.warp x.a
        let b := rdU v.warp x.b
        let n := (rdU v.warp x.c).toNat
        if n < 16 || n > 2 ^ 40 - 16 || n % 16 ≠ 0 then takeFault (ownIll 0xB1 x) s
        else if a.toNat % 16 ≠ 0 then takeFault (alignFlt a 1 16) s
        else if b.toNat % 16 ≠ 0 then takeFault (alignFlt b 2 16) s
        else
          let low (w : Word64) : BitVec 64 := (w.setWidth 32).setWidth 64
          postCopy x s t fun id sh k =>
            { id := id, gid := (who s).gid, dreg := x.d.toNat - 0xC0, kind := kind, linear := true
              src := if kind == .g2g || kind == .g2s then a else low a
              dst := if kind == .g2g || kind == .s2g then b else low b
              len := n, crc := bit x.sub 2, ev := bit x.mod 7, bar := copyBar x, cap := k, shared := sh }

/-! ## COPY_START (R166, R169, R326) -/

/-- Whether the instruction that a CPYM's path issues next binds it (R326): an MMA with `.follow` whose P is not empty. The path has issued
nothing since, so the instruction stands at its PC. None where its words cannot be read at this moment. -/
def followed (s : State) (c : CopyCmd) : Option Bool :=
  if !c.isM || c.bound then some c.bound
  else match s.group? c.gid with
    | none => some false
    | some g => match (g.warp? c.cap.wid).bind fun w => w.cpym.find? fun p => p.2.any fun q => q.1 == c.id with
      | none => some false
      | some (ts, _) =>
        let ths := ts.filterMap g.thread?
        let pc := (ths.head?.map Thread.pc).getD 0
        if pathOf g c.cap.wid pc != ts then some false
        else match fetchInstr { s with cur := { agent := .warp c.gid c.cap.wid, pc := pc, path := ts } } with
          | .ok bs _ => match decode bs with
            | .ok (.mma x, _) => some (bit x.mod 5 && ths.any (guardTrue x.w2))
            | _ => some false
          | .fail _ => some false
          | _ => none

def State.updCopy (s : State) (cl id : Nat) (f : CopyCmd → CopyCmd) : State :=
  s.updCluster cl fun k => { k with copyQ := updFirst (fun c => c.id == id) f k.copyQ }

/-- The command that starts next: the earliest posted that neither waits nor is held. -/
def copyNext (s : State) (cl : Nat) : Option CopyCmd :=
  let q := (s.cluster cl).copyQ
  if (q.filter fun c => c.st == .running).length ≥ 4 then none
  else q.find? fun c => c.st == .queued && s.groupRuns c.gid && (s.guardOf c.gid c.cap).isSome && (followed s c).isSome

/-- Width of the scratch side of a converting `.s2g`: that of the format of its first block (R320); else the code it ends with. -/
def copyWidth (s : State) (c : CopyCmd) : Except Nat Nat :=
  if c.linear || layCfmt c.layout = 0 || c.kind != .s2g then .ok 0
  else match scrPlace s c.gid (c.dst.toNat % 2 ^ 32) with
    | .error e => .error e
    | .ok (k, o) =>
      match blkBits (fld (k.desc.getD rawDesc (o / 64)) 15 8) with
      | none => .error 7
      | some b => if layCfmt c.layout % 16 = 0x0A && b < 32 then .error 7 else .ok b

/-- COPY_START (R166): starts or, on a false guard slot, discards the earliest eligible command; an acquire comes before its first read
(R128). -/
def execCopyStart (cl : Nat) (s : State) : Out :=
  match copyNext s cl with
  | none => .next s
  | some c =>
    if s.guardOf c.gid c.cap == some false then .next (s.finishCopy cl c 0 true)
    else match copyWidth s c with
      | .error e => .next (s.finishCopy cl c e false)
      | .ok w =>
        let s := if c.cap.ord.toNat % 2 = 1 then s.acquire (engineWho s c.gid c.cap.wid) c.cap.scope.toNat [] else s
        .next (s.updCopy cl c.id fun c => { c with st := .running, width := w, bound := (followed s c).getD false, cap := { c.cap with gs := none } })

/-! ## COPY_BLOCK (R166, R168, R197, R320, R324) -/

/-- Where a block of one side of a copy lies. -/
inductive Side where
  | glob (a : Acc)
  | scr (gid off : Nat)

/-- How a block of a copy can end other than being performed. -/
inductive BlkStop where
  | recall (frag : Nat)
  | wait
  | code (n : Nat)
  | suspend (f : Flt)
  | pure (f : Flt)

def CopyCmd.srcGlob (c : CopyCmd) : Bool := c.kind == .g2s || c.kind == .g2g
def CopyCmd.dstGlob (c : CopyCmd) : Bool := c.kind == .s2g || c.kind == .g2g

/-- Locates a block of a side from its first half-byte (R168: translation, gang window). -/
def locate (s : State) (w : Who) (glob : Bool) (n : Int) (acc : Nat) : Except BlkStop Side :=
  if glob then
    match engineXlate s w (BitVec.ofInt 64 (n / 2)) 1 acc with
    | .ok a => .ok (.glob a)
    | .bad _ _ => .error (.code 1)
    | .recall f => .error (.recall f)
    | .blocked => .error .wait
  else match s.group? w.gid with
    | none => .error (.code 2)
    | some g => match scrDecode s g ((n / 2).toNat % 2 ^ 32) with
      | .at t o => .ok (.scr t o)
      | .ended => .error (.code 2)
      | .perm _ => .error (.code 1)

/-- Locates blocks, each named by its number and its lowest half-byte. -/
def locateAll (s : State) (w : Who) (glob : Bool) (acc : Nat) : List (Int × Int) → Except BlkStop (List (Int × Side))
  | [] => .ok []
  | (b, n) :: bs =>
    match locate s w glob n acc with
    | .error e => .error e
    | .ok p => match locateAll s w glob acc bs with
      | .ok l => .ok ((b, p) :: l)
      | e => e

/-- Blocks a list of half-bytes touches, each with its lowest. -/
def blocksOf (ns : List Int) : List (Int × Int) :=
  (sortInts (ns.map (· / 128))).map fun b => (b, ((ns.filter fun n => n / 128 == b).foldl min (128 * b + 127)))

/-- The half-bytes of the source one destination block reads: those of its spots, or of its elements with their nearest ones. -/
def CopyCmd.reads (c : CopyCmd) (u : DstBlk) : List Int :=
  match u with
  | .at b => (c.spots b).filterMap Spot.from
  | .conv r q =>
    let l := c.layout
    let n := 512 / (layConv l).getD 32
    (List.range n).flatMap fun t =>
      let cs := elemAt l c.coord r (q * n + t)
      match c.kind with
      | .s2g =>
        if inBounds l cs then (List.range (c.width / 4)).map fun (i : Nat) => 2 * (c.dst.toNat : Int) + packNib l c.width r ((q * n + t) * (c.width / 4) + i) else []
      | _ =>
        let at' := if inBounds l cs then cs else clampElem l cs
        if inBounds l cs || layFill l != 0 then (List.range (layWidth l / 4)).map fun (i : Nat) => tensorNib l at' + i else []

/-- The half-bytes a destination block covers, written or skipped, and where they lie. -/
def CopyCmd.covers (c : CopyCmd) (u : DstBlk) : List (Int × Bool) :=
  let l := c.layout
  match u with
  | .at b => ((c.spots b).mapIdx fun k p => (128 * b + (k : Int), p)).filterMap fun (p : Int × Spot) => match p.2 with
    | .none => none
    | .skip => some (p.1, false)
    | _ => some (p.1, true)
  | .conv r q =>
    let cw := (layConv l).getD 32
    let n := 512 / cw
    (List.range n).flatMap fun t => (List.range (cw / 4)).map fun (i : Nat) =>
      match c.kind with
      | .s2g => (tensorNib l (elemAt l c.coord r (q * n + t)) + i, inBounds l (elemAt l c.coord r (q * n + t)))
      | _ => (2 * (c.dst.toNat : Int) + packNib l cw r ((q * n + t) * (cw / 4) + i), true)

/-- A source block as read: its number, data and descriptor. -/
abbrev SrcBlk := Int × Sec

/-- One half-byte of the source blocks. -/
def nibOf (bs : List SrcBlk) (n : Int) : Nat :=
  match bs.find? fun p => p.1 == n / 128 with
  | some (_, x) => x.data.toNat / 16 ^ (n % 128).toNat % 16
  | none => 0

def descAt (bs : List SrcBlk) (n : Int) : BitVec 16 :=
  match bs.find? fun p => p.1 == n / 128 with
  | some (_, x) => x.desc
  | none => rawDesc

/-- An element of `w` bits decoded under its block's descriptor. -/
def elemOf (dmode : Bool) (bs : List SrcBlk) (w : Nat) (n : Int) : FV :=
  let d := descAt bs n
  elemValue dmode (fld d 15 8) (fld d 7 0) ((List.range (w / 4)).foldr (fun (i : Nat) a => nibOf bs (n + i) + 16 * a) 0)

/-- A block of S8 or S32 elements. -/
def blkInt (d : BitVec 16) : Bool := fld d 15 8 == 0x07 || fld d 15 8 == 0x0A

/-- An element written to an S8 or S32 block (R97): an integer wraps to the low bits, any other value is rounded and clamped. -/
def cvtBlkInt (ty : Ty) (m : Mode) (int : Bool) (v : FV) : Nat :=
  match int, v with
  | true, .num n k _ => toBits ty.bits (if n then -(k : Int) else k)
  | _, v => (cvtToInt ty m v).1

/-- What a destination block writes: half-bytes by address, and the descriptor action; none when a source block's format does not fit
(CODE 7). -/
def CopyCmd.outs (c : CopyCmd) (bs : List SrcBlk) (u : DstBlk) : Option (List (Int × Nat) × DescAct) :=
  let l := c.layout
  match u with
  | .at b =>
    let sp := (c.spots b).mapIdx fun k p => ((k : Int), p)
    let ns := sp.filterMap fun (p : Int × Spot) => match p.2 with
      | .fill v => some (128 * b + p.1, v)
      | .src n => some (128 * b + p.1, nibOf bs n)
      | .near n => some (128 * b + p.1, nibOf bs n)
      | _ => none
    let first : Option Int := sp.head?.bind fun p => p.2.from
    let whole : Bool := match first with
      | some f => f % 128 == 0 && sp.all fun (p : Int × Spot) => p.2.from == some (f + p.1)
      | none => false
    some (ns, if whole then .put (descAt bs (first.getD 0)) else .raw)
  | .conv r q =>
    let cf := layCfmt l
    let fmt := cf % 16
    let cw := (layConv l).getD 32
    let n := 512 / cw
    let sw := if c.kind == .s2g then c.width else layWidth l
    let dm := c.cap.dmode
    if bs.any fun p => blkBits (fld p.2.desc 15 8) != some sw then none
    else
      let place (t i : Nat) : Int := match c.kind with
        | .s2g => tensorNib l (elemAt l c.coord r (q * n + t)) + i
        | _ => 2 * (c.dst.toNat : Int) + packNib l cw r ((q * n + t) * (cw / 4) + i)
      -- an element and whether its block's format is an integer one
      let value (t : Nat) : Option (FV × Bool) :=
        let cs := elemAt l c.coord r (q * n + t)
        let got (n : Int) : FV × Bool := (elemOf dm bs sw n, blkInt (descAt bs n))
        match c.kind with
        | .s2g => if inBounds l cs then some (got (2 * (c.dst.toNat : Int) + packNib l sw r ((q * n + t) * (sw / 4)))) else none
        | _ =>
          if inBounds l cs then some (got (tensorNib l cs))
          else match layFill l with
            | 0 => some (.num false 0 0, false)
            | 1 =>
              let d := descAt bs (tensorNib l (clampElem l cs))
              some (elemValue dm (fld d 15 8) (fld d 7 0) (2 ^ sw - 1), blkInt d)
            | _ => some (got (tensorNib l (clampElem l cs)))
      let vs := (List.range n).filterMap fun t => (value t).map fun v => (t, v)
      let m := modeOfCode c.cap.rmode.toNat
      let (sc, codes) : Nat × List Nat :=
        if fmt = 0x07 then (0x7F, vs.map fun p => cvtBlkInt .s8 m p.2.2 p.2.1)
        else if fmt = 0x0A then (0x7F, vs.map fun p => cvtBlkInt .s32 m p.2.2 p.2.1)
        else let (sc, cs) := quantBlock fmt (cf / 16 % 4) m false dm (vs.map (·.2.1)); (sc, cs.map (·.1))
      let ns := (List.zipWith (fun p k => (p.1, k)) vs codes).flatMap fun p => (List.range (cw / 4)).map fun i => (place p.1 i, p.2 / 16 ^ i % 16)
      some (ns, .put (BitVec.ofNat 16 (fmt * 256 + sc)))

/-- Bytes of half-bytes: a half that is not written keeps what `old` gives. -/
def toBytes (ns : List (Int × Nat)) (old : Int → Byte) : List (Int × Byte) :=
  (sortInts (ns.map fun p => p.1 / 2)).map fun a =>
    let pick (n : Int) (d : Nat) : Nat := match (ns.filter fun p => p.1 == n).getLast? with
      | some p => p.2
      | none => d
    let o := (old a).toNat
    (a, BitVec.ofNat 8 (pick (2 * a) (o % 16) + 16 * pick (2 * a + 1) (o / 16)))

/-- The global accesses of one side of a block. -/
def globsOf (l : List (Int × Side)) : List Acc := l.filterMap fun p => match p.2 with
  | .glob a => some a
  | .scr _ _ => none

/-- The checks after location: purity of both sides, then watches of class COPY, then poison (R168, R197, R519). -/
def sideChecks (s : State) (w : Who) (c : CopyCmd) (srcs dsts : List (Int × Side)) (partly : Int → Bool) : Option BlkStop :=
  let accs : List (Nat × Acc) := (globsOf srcs).map (fun a => (1, a)) ++ (globsOf dsts).map fun a => (2, a)
  let pure := accs.findSome? fun p => enginePure s w.gid p.2 p.1
  let watch := if c.passWatch then none else lowestWatch (accs.filterMap fun p => engineWatch s w.ctx 8 p.2 p.1)
  let bad (acc : Nat) (p : Int × Side) : Option Flt := match p.2 with
    | .glob a => if a.fab.isNone && s.poisonedAt a.pa && (acc = 1 || partly p.1 || s.dieLost (s.homeDie (s.fwd a.pa))) then some (poisonFlt a.va acc 0) else none
    | .scr t o => match s.group? t with
      | some g => if g.scr.poison.contains (o / 64) && (acc = 1 || partly p.1) then some (poisonFlt (BitVec.ofNat 64 o) acc 2) else none
      | none => none
  let poison := (srcs.findSome? (bad 1)).orElse fun _ => dsts.findSome? (bad 2)
  match pure, watch, poison with
  | some f, _, _ => some (.pure f)
  | none, some f, _ => some (.suspend f)
  | none, none, some f => some (.suspend f)
  | none, none, none => none

/-- Reads the source blocks of one destination block. A fabric block comes from the command's remote read. -/
def readSides (w : Who) (c : CopyCmd) : List (Int × Side) → State → Except BlkStop (List SrcBlk × State)
  | [], s => .ok ([], s)
  | (b, p) :: ps, s =>
    let r : Except BlkStop (Sec × State) := match p with
      | .scr t o => match s.group? t with
        | some g => .ok (g.scr.sec o, s)
        | none => .error (.code 2)
      | .glob a =>
        if a.fab.isSome then
          let u := (a.va.toNat / 64) * 4
          let unit (i : Nat) : Nat := (c.data.getD 0 (u + i)).toNat
          .ok (⟨BitVec.ofNat 512 (unit 0 + unit 1 * 2 ^ 128 + unit 2 * 2 ^ 256 + unit 3 * 2 ^ 384),
            match c.data.find? (2 ^ 70 + a.va.toNat / 64) with
            | some d => d.extractLsb' 112 16
            | none => rawDesc⟩, s)
        else if blockWait s w (some c.id) [a] then .error .wait
        else match s.loadBlock w.core w.ctx a.pa c.cap.scope.toNat c.cap.hint.toNat false with
          | .sec x s' => .ok (x, s'.tlbFill a.fills)
          | .recall f => .error (.recall f)
          | .blocked => .error .wait
    match r with
    | .error e => .error e
    | .ok (x, s') => match readSides w c ps s' with
      | .ok (l, s'') => .ok ((b, x) :: l, s'')
      | e => e

/-- Sends the remote reads that a destination block needs: its 16-byte units, and a whole block's descriptor. -/
def fetchRemote (s : State) (w : Who) (cl : Nat) (c : CopyCmd) (ns : List Int) : State :=
  let units := sortInts (ns.map (· / 32))
  let (id, s) := s.fresh
  let part (va : BitVec 64) (i : Nat) : LoadPart := { tid := c.cap.tid, slot := 0, addr := va, place := .fabric (fabAccel va) (fabXaddr va), idx := i, tag := s.loadTag w.gid c.cap.ch (.fab (fabAccel va) (fabLane (fabXaddr va))) }
  let whole := (blocksOf ns).filter fun p => decide ((ns.filter fun n => n / 128 == p.1).length ≥ 128)
  let parts := units.map (fun u => part (BitVec.ofInt 64 (u * 16)) (BitVec.ofInt 64 u).toNat) ++
    whole.map fun p => part (BitVec.ofInt 64 (p.1 * 64)) (2 ^ 70 + (BitVec.ofInt 64 (p.1 * 64)).toNat / 64)
  let x : Enc := { form := .ext, d := 0xC0, a := 0, sub := 0, b := 0, c := 0, e := 0, mod := 0, w2 := { Word2.base with ch := BitVec.ofNat 4 c.cap.ch }, lit := 0 }
  let (parts, s) := s.sendParts .copy parts
  let ol : OutLoad :=
     { id := id, gid := w.gid, wid := 65535, core := w.core, ctx := w.ctx, kind := .copy, enc := x, rmode := 0, dmode := false, d := 0xC0, size := 16,
       uni := true, noret := true, limit := fld s.rtimeout 39 0, parts := parts, ord := 0, scope := c.cap.scope, sent := s.now, pc := c.cap.pc }
  State.updCopy { s with loads := s.loads ++ [ol] } cl c.id fun c => { c with wait := some id }

/-- Writes the bytes of one destination block. -/
def writeSide (w : Who) (c : CopyCmd) (p : Side) (cells : List (Nat × Byte)) (da : DescAct) (s : State) : PutWait × State :=
  let pts := releasePts s w none c.cap.ord.toNat c.cap.scope.toNat
  match p with
  | .scr t o =>
    let s := s.putScr t (o / 64) (cells.map fun q => (o / 64 * 64 + q.1 % 64, q.2)) da
    let keys := cells.map fun q => scrKey t (o / 64 * 64 + q.1 % 64)
    let step (m : SMap (BitVec 24)) (k : Nat) : SMap (BitVec 24) := match pts with
      | some v => m.insert k v
      | none => m.erase k
    (.go, { s with carry := keys.foldl step s.carry })
  | .glob a =>
    let base := a.at / 64 * 64
    -- CHSYNC of a pair of the copy's channel holds its next block for the fabric, whichever pair that belongs to (R469)
    if a.fab.isSome && (s.pairsOf w.gid).any (fun q => q.ch == c.cap.ch && q.resync) then (.room, s)
    else putOne w c.cap.tid c.cap.ch c.cap.ord.toNat c.cap.scope c.cap.hint.toNat pts (some c.id)
      ⟨{ a with tid := c.cap.tid }, cells.map fun q => (base + q.1 % 64, q.2), da⟩ (s.tlbFill a.fills)

/-- All destination sides of one block. -/
def writeSides (w : Who) (c : CopyCmd) (da : DescAct) : List ((Int × Side) × List (Nat × Byte)) → State → PutWait × State
  | [], s => (.go, s)
  | ((_, p), cells) :: ps, s =>
    match writeSide w c p cells da s with
    | (.go, s') => writeSides w c da ps s'
    | r => r

/-- The byte at a destination address now, for a half-byte write. -/
def oldByte (s : State) (w : Who) (dsts : List (Int × Side)) (a : Int) : Byte :=
  match dsts.find? fun p => p.1 == a / 64 with
  | some (_, .scr t o) => ((s.group? t).map fun g => SMap.getD (0 : Byte) g.scr.bytes (o / 64 * 64 + (a % 64).toNat)).getD 0
  | some (_, .glob ac) => if ac.fab.isSome then 0 else BitVec.ofNat 8 (s.atomRead w.core w.ctx (ac.pa / 64 * 64 + (a % 64).toNat) 1)
  | none => 0

/-- The source blocks of a bound CPYM's region, for the MATRIX check (R197, R326). -/
def matrixHit (s : State) (w : Who) (l : BitVec 512) (co : List Int) : Option Flt :=
  let ns := (List.range (layRows l)).flatMap fun r => (List.range (layBox l 0)).filterMap fun i =>
    let cs := elemAt l co r i
    if inBounds l cs then some (tensorNib l cs) else none
  lowestWatch ((blocksOf ns).filterMap fun p => match engineXlate s w (BitVec.ofInt 64 (p.2 / 2)) 1 1 with
    | .ok a => engineWatch s w.ctx 16 a 1
    | _ => none)

/-- Acts on a block that is not performed. -/
def stopCopy (cl : Nat) (c : CopyCmd) (e : BlkStop) (agent : Nat) (s : State) : State :=
  match e with
  | .wait => s
  | .recall f => s.askRecall f
  | .code n => s.finishCopy cl c n false
  | .suspend f => engineFault c.gid agent c.cap (some c.id) f (s.updCopy cl c.id fun c => { c with st := .suspended })
  | .pure f => engineFault c.gid agent c.cap none f (s.finishCopy cl c 4 false)

/-- One destination block of a running command (R166, R324). -/
def copyBlock (cl : Nat) (c : CopyCmd) (u : DstBlk) (s : State) : State :=
  let w := engineWho s c.gid c.cap.wid
  let ns := c.reads u
  let cov := c.covers u
  let written := (cov.filter fun p => p.2).map (·.1)
  match locateAll s w c.srcGlob 1 (blocksOf ns), locateAll s w c.dstGlob 2 (blocksOf written) with
  | .error e, _ => stopCopy cl c e 1 s
  | _, .error e => stopCopy cl c e 1 s
  | .ok srcs, .ok dsts =>
    let partly (b : Int) : Bool := decide ((written.filter fun n => n / 128 == b).length < 128)
    match sideChecks s w c srcs dsts partly with
    | some e => stopCopy cl c e 1 s
    | none =>
      let remote := (globsOf srcs).filter fun a => a.fab.isSome
      if xlatWaitEngine s w.cl w.ctx (globsOf srcs ++ globsOf dsts) then s
      else if !remote.isEmpty && c.data.isEmpty then (if c.wait.isSome || blockWait s w (some c.id) remote then s else fetchRemote s w cl c ns)
      else match readSides w c srcs s with
        | .error e => stopCopy cl c e 1 s
        | .ok (bs, s1) => match c.outs bs u with
          | none => stopCopy cl c (.code 7) 1 s
          | some (out, da) =>
            let bytes := toBytes out (oldByte s w dsts)
            let puts := dsts.map fun p => (p, (bytes.filter fun q => q.1 / 64 == p.1).map fun q => ((q.1 % 64).toNat, q.2))
            match writeSides w c da puts s1 with
            | (.recall f, _) => s.askRecall f
            | (.go, s2) =>
              let half := c.bytes + cov.length
              let s3 := match c.bar with
                | some n => s2.creditTbar c.gid n (half / 2 - c.bytes / 2)
                | none => s2
              let crcData := match u with
                | .at b =>
                  let real := ((c.spots b).mapIdx fun k p => (128 * b + (k : Int), p)).filterMap fun (p : Int × Spot) => match p.2 with
                    | .src _ => some (p.1 / 2)
                    | _ => none
                  (bytes.filter fun q => real.contains q.1).map (·.2)
                | .conv _ _ => bytes.map (·.2)
              ((s3.alive c.gid).note 0x40 (4 * cl) 1 ((s.group? c.gid).map Group.ctx)).updCopy cl c.id fun c =>
                { c with
                  done := c.done + 1, bytes := half, data := [], wait := none, passWatch := false, passMatrix := false
                  crcS := if c.crc then crcBytes c.crcS crcData else c.crcS
                  crcD := if c.crc then crcBytes c.crcD crcData else c.crcD }
            | _ => s

/-- COPY_BLOCK (R166). -/
def execCopyBlock (cl id : Nat) (s : State) : Out :=
  match (s.cluster cl).copyQ.find? fun c => c.id == id with
  | none => .next s
  | some c =>
    if c.st != .running || !s.groupRuns c.gid then .next s
    else match c.plan[c.done]? with
      | none => .next s
      | some u =>
        let hit := if c.done = 0 && c.bound && !c.passMatrix then matrixHit s (engineWho s c.gid c.cap.wid) c.layout c.coord else none
        match hit with
        | some f => .next (stopCopy cl c (.suspend f) 2 s)
        | none => .next (copyBlock cl c u s)

/-- A command has performed its last block, its packets have been performed, and so has its release (R128). -/
def copyOver (s : State) (c : CopyCmd) : Bool :=
  c.st == .running && decide (c.done ≥ c.plan.length) && !releaseHeld s c.gid c.cap c.id && !s.packets.any fun p => p.cmd == some c.id && p.st != .done

/-- COPY_END (R167): CODE 5 when the two CRCs differ. -/
def execCopyEnd (cl id : Nat) (s : State) : Out :=
  match (s.cluster cl).copyQ.find? fun c => c.id == id with
  | none => .next s
  | some c => if copyOver s c then .next (s.finishCopy cl c (if c.crc && c.crcS != c.crcD then 5 else 0) false) else .next s

/-! ## GSLOT (R327) -/

/-- Sets guard slot D. -/
def gslotWith (x : Enc) (s : State) (val : Thread → Option Bool) : Out :=
  issue 0xB3 x s fun v =>
    match v.P x with
    | [] => finish x 1 s v
    | t :: _ => retire x 1 (s.setGuard (who s).gid x.d.toNat (val t))

/-- GSLOT.t. -/
def execGslotT (x : Enc) (s : State) : Out := gslotWith x s fun _ => some true
/-- GSLOT.f. -/
def execGslotF (x : Enc) (s : State) : Out := gslotWith x s fun _ => some false
/-- GSLOT.u. -/
def execGslotU (x : Enc) (s : State) : Out := gslotWith x s fun _ => none
/-- GSLOT.p. -/
def execGslotP (x : Enc) (s : State) : Out := gslotWith x s fun t => some (t.rdPf x.a)

end Sys2Proof.Machine
end

