-- ==== Sys2Proof/Machine/CoreEvents.lean ====
section
/-!
DEFINITION. Events of the cores and of logical time: FAIRNESS_SWITCH (R22), LANE_IDLE_CYCLE (R409), BIN_READY, BIN_DRAW (R29, R30),
RESERVATION_TIMEOUT (R284), SELFTICK (R144), PTS_LAG_ADVANCE (R154), FRAGMENT_REBASE (R155), WRITE_CLAIM_HOLD_EXPIRY (R153).
-/
namespace Sys2Proof.Machine
open Sys2Proof

/-! ## Paths and bins -/

/-- FAIRNESS_SWITCH (R22): the path that has waited longest issues next, and the timer restarts. -/
def execFairnessSwitch (gid wid : Nat) (s : State) : Out :=
  match (s.group? gid).bind fun g => (g.warp? wid).map fun w => (g, w) with
  | some (g, w) =>
    if switchDue g w then .next ((s.note 0x24 (gidCore gid) 1 (some g.ctx)).updGroup gid fun g => g.updWarp wid fun k => { k with forced := pathPc g w, fair := 0 })
    else .next s
  | none => .next s

/-- A lane with no eligible warp idles for a cycle, which makes every bin of its core ready, but for a parked group's (R32). -/
def idleLane (core lane : Nat) (s : State) : State :=
  let s1 := (s.pass (core / 96) 1).updCore core fun c => { c with turns := c.turns.insert lane (s.now + 1) }
  if (s.core core).bins.isEmpty then s1
  else s1.updCore core fun c => { c with bins := c.bins.map fun b => if s.groupRuns b.gid then { b with ready := true } else b }

/-- A warp that may issue and whose last attempt did not find it waiting on a scoreboard or an engine. -/
def awake (s : State) (core lane slot : Nat) : Bool := (s.warpAt core lane slot).any fun p => !p.2.held

/-- LANE_IDLE_CYCLE (R409, R29). -/
def execLaneIdleCycle (core lane : Nat) (s : State) : Out :=
  if core ≥ 768 || lane ≥ Config.lanes || (s.slotOrder core lane).any (awake s core lane) then .next s
  else .next (idleLane core lane s)

/-- The pointer of a lane stands behind the slot that issued (R409). -/
def State.pointLane (s : State) (core lane slot : Nat) : State := s.updCore core fun c => { c with rr := c.rr.insert lane ((slot + 1) % 4) }

/-- A fault of the issue under way, while accesses of its warp are outstanding, is not delivered yet: the instruction issues again (R209). -/
def precise (s : State) : Out → Out
  | .next t =>
    let w := who s
    let stopped := match s.cur.agent with
      | .warp g _ => s.groupRuns g && !t.groupRuns g
      | .foreman c => (t.cluster c).fore.faulted.isSome
      | .mgmt => t.mgmt.fault.isSome
      | .none => false
    .next (if stopped && s.loads.any (fun l => l.gid == w.gid && l.wid == w.wid) then stall s else t)
  | o => o

/-- A bin's age in core cycles of its die. -/
def binAge (s : State) (core : Nat) (b : Bin) : Nat := s.cyclesOf (core / 96) - b.born

/-- BIN_READY (R29): 2,048 cycles after its first filing. -/
def execBinReady (core bin : Nat) (s : State) : Out :=
  match (s.core core).bins[bin]? with
  | some b =>
    if s.groupRuns b.gid && binAge s core b ≥ 2048 then .next (s.updCore core fun c => { c with bins := c.bins.set bin { b with ready := true } }) else .next s
  | none => .next s

/-- The free warp slot of a group: the lowest lane, on it the lowest slot (R30). -/
def Group.freeSlot (g : Group) : Option (Nat × Nat) :=
  (g.slots.filter fun p => !g.warps.any fun w => w.lane == p.1 && w.wslot == p.2).foldl (fun b p => match b with
    | none => some p
    | some q => if p.1 < q.1 || (p.1 == q.1 && p.2 < q.2) then some p else some q) none

/-- The ready bin a group draws from: the most threads, then the lower PC (R29). -/
def State.drawBin (s : State) (gid : Nat) : Option Bin :=
  ((s.core (gidCore gid)).bins.filter fun b => b.gid == gid && b.ready && !b.filed.isEmpty).foldl (fun (best : Option Bin) b => match best with
    | none => some b
    | some c => if c.filed.length < b.filed.length || (c.filed.length == b.filed.length && b.pc.toNat < c.pc.toNat) then some b else some c) none

/-- Inserts a filed thread in TID order. -/
def insTid (f : Filed) : List Filed → List Filed
  | [] => [f]
  | h :: t => if f.th.tid < h.th.tid then f :: h :: t else h :: insTid f t

/-- The lowest warp index no live warp of a group holds (R30). -/
def Group.freeWid (g : Group) : Nat := ((List.range 33).find? fun i => !g.warps.any fun w => w.wid == i).getD 32

/-- Forms a warp of filed threads in TID order (R30), with the request number that the first one's last warp had (DEDUCED, log entry 70). -/
def Group.form (g : Group) (slot : Nat × Nat) (pc : BitVec 64) (fs : List Filed) : Group :=
  match fs with
  | [] => g
  | f :: _ =>
    let wid := g.freeWid
    let w : Warp := { wid := wid, lane := slot.1, wslot := slot.2, s := f.s, rmode := f.rmode, dmode := f.dmode, lease := f.lease, reqno := f.reqno }
    let ths := fs.mapIdx fun i (f : Filed) => { f.th with slot := i, wid := wid, pc := pc, run := .path, lastIssue := 0 }
    { g.putThreads ths with warps := g.warps ++ [w] }

/-- BIN_DRAW (R29, R30): at most W threads, in TID order; a bin that is emptied becomes free. -/
def execBinDraw (gid : Nat) (s : State) : Out :=
  if !s.groupRuns gid then .next s
  else match s.group? gid, s.drawBin gid with
    | some g, some b => match g.freeSlot with
      | none => .next s
      | some slot =>
        let l := b.filed.foldr insTid []
        let core := gidCore gid
        let rest := l.drop Config.warpW
        let b' : Bin := { b with filed := rest, ready := decide (rest.length ≥ Config.warpW) || decide (binAge s core b ≥ 2048) }
        let same (x : Bin) : Bool := x.gid == b.gid && x.pc == b.pc && x.key == b.key
        let s1 := s.updCore core fun c =>
          { c with bins := if rest.isEmpty then c.bins.filter fun x => !same x else c.bins.map fun x => if same x then b' else x }
        .next (s1.updGroup gid fun _ => g.form slot b.pc (l.take Config.warpW))
    | _, _ => .next s

/-- The bins of a core that are ready by age are, and every group with a free slot draws (R43): once for each bin. -/
def State.drawCore (s : State) (core : Nat) : State :=
  let s := s.updCore core fun c => { c with bins := c.bins.map fun b => if s.groupRuns b.gid && binAge s core b ≥ 2048 then { b with ready := true } else b }
  (s.core core).bins.foldl (fun s b => if b.ready then match execBinDraw b.gid s with
    | .next t => t
    | _ => s else s) s

/-- Filed threads are drawn within 2,048 cycles of their bin's first filing, as soon as their group has a free warp slot (R43). -/
def State.drawDue (s : State) : State :=
  (s.clusters.filter fun p => p.2.cores.any fun k => !k.bins.isEmpty).foldl (fun s p => (List.range 4).foldl (fun s i => s.drawCore (4 * p.1 + i)) s) s

/-- RESERVATION_TIMEOUT (R284): 4,096 cycles after the LR. -/
def execReservationTimeout (gid tid : Nat) (s : State) : Out :=
  match (s.group? gid).bind fun g => (g.thread? tid).bind Thread.resv with
  | some (_, c) => if s.cyclesOf (gidDie gid) ≥ c + 4096 then .next (s.endResv gid tid) else .next s
  | none => .next s

/-! ## Logical time -/

/-- SELFTICK (R144): a present cluster's pts advances by 1 every SELFTICK core cycles of its die; a new SELFTICK counts from the next
self-advance (R49; DEDUCED, log entry 73). -/
def execSelftick (cl : Nat) (s : State) : Out :=
  let c := s.cluster cl
  if cl < 192 && s.present cl && s.cyclesOf (cl / 24) ≥ c.tickAt + c.tickLen then
    .next (s.updCluster cl fun c => { c with pts := c.pts + 1, tickAt := c.tickAt + c.tickLen, tickLen := c.selftick }).visitAll
  else .next s

/-- PTS_LAG_ADVANCE (R154, R481): clusters 0 to 191, then the guests of sites 0 and 1, by PTS_SET. -/
def execPtsLagAdvance (who : Nat) (s : State) : Out :=
  let top := s.pmax
  let lags (p : BitVec 24) : Bool := tsLater top p && decide ((top - p).toNat ≥ 2 ^ 21)
  if who < 192 then
    if s.present who && lags (s.cluster who).pts then .next (s.setClock (.cluster who) (top - 0x200000)) else .next s
  else
    let n := who - 192
    let x := s.sites.getD {} n
    if n < 2 && x.st == 2 && lags x.pts then .next (s.ptsSet n (top - 0x200000)) else .next s

/-- FRAGMENT_REBASE (R155): a visit of the directory. Requests visit what they touch, and an advance of Pmin visits every fragment. -/
def execFragmentRebase (f : Nat) (s : State) : Out := .next (s.visit f)

/-- WRITE_CLAIM_HOLD_EXPIRY (R153): the holder's protected time is over. -/
def execWriteClaimHoldExpiry (f : Nat) (s : State) : Out :=
  match s.frags.find? fun x => x.id == f with
  | some x => if x.holder.isSome && s.holdOver x then .next (s.updFrag f fun x => { x with used := true }) else .next s
  | none => .next s

end Sys2Proof.Machine
end

