-- ==== Sys2Proof/Machine/Crypto.lean ====
section
/-!
DEFINITION. The digests the device computes: SHA-384 (R495, R498) and KMAC128 (R187), on lists of bytes.
-/
namespace Sys2Proof.Machine

/-! ## SHA-384 (FIPS 180-4) -/

/-- The whole part of a root: the greatest r with r ^ e ≤ n, found bit by bit from `r` on. -/
def rootFrom (e n : Nat) : Nat → Nat → Nat
  | 0, r => r
  | i + 1, r => rootFrom e n i (if (r + 2 ^ i) ^ e ≤ n then r + 2 ^ i else r)

/-- The first 64 bits of the fractional part of the e-th root of a prime below 512. -/
def rootFrac (e p : Nat) : BitVec 64 := BitVec.ofNat 64 (rootFrom e (p * 2 ^ (64 * e)) 70 0)

/-- The first 80 primes. -/
def shaPrimes : List Nat := (List.range 410).filter fun n => decide (2 ≤ n) && (List.range 21).all fun d => d < 2 || d * d > n || n % d != 0

/-- The round constants: cube roots of the first 80 primes. -/
def shaK : List (BitVec 64) := shaPrimes.map (rootFrac 3)

/-- The initial hash value: square roots of the ninth to the sixteenth prime. -/
def shaIv : List (BitVec 64) := ((shaPrimes.drop 8).take 8).map (rootFrac 2)

/-- A big-endian word of eight bytes. -/
def beWord (bs : List Byte) : BitVec 64 := BitVec.ofNat 64 ((bs.take 8).foldl (fun a b => a * 256 + b.toNat) 0)

def beBytes (n v : Nat) : List Byte := (List.range n).map fun i => BitVec.ofNat 8 (v / 256 ^ (n - 1 - i))

/-- The message with its padding. -/
def shaPad (m : List Byte) : List Byte :=
  m ++ [0x80] ++ List.replicate ((239 - m.length % 128) % 128) 0 ++ beBytes 16 (8 * m.length)

/-- The message schedule: the words so far, latest first. -/
def shaSched : Nat → List (BitVec 64) → List (BitVec 64)
  | 0, ws => ws.reverse
  | n + 1, ws =>
    let a := ws.getD 1 0
    let b := ws.getD 14 0
    let s1 := a.rotateRight 19 ^^^ a.rotateRight 61 ^^^ (a >>> 6)
    let s0 := b.rotateRight 1 ^^^ b.rotateRight 8 ^^^ (b >>> 7)
    shaSched n ((s1 + ws.getD 6 0 + s0 + ws.getD 15 0) :: ws)

/-- The 80 rounds on the working variables a to h. -/
def shaRounds : List (BitVec 64 × BitVec 64) → List (BitVec 64) → List (BitVec 64)
  | [], v => v
  | (k, w) :: r, v =>
    match v with
    | [a, b, c, d, e, f, g, h] =>
      let t1 := h + (e.rotateRight 14 ^^^ e.rotateRight 18 ^^^ e.rotateRight 41) + ((e &&& f) ^^^ (~~~e &&& g)) + k + w
      let t2 := (a.rotateRight 28 ^^^ a.rotateRight 34 ^^^ a.rotateRight 39) + ((a &&& b) ^^^ (a &&& c) ^^^ (b &&& c))
      shaRounds r [t1 + t2, a, b, c, d + t1, e, f, g]
    | _ => v

def shaBlock (h : List (BitVec 64)) (blk : List Byte) : List (BitVec 64) :=
  let ws := shaSched 64 (((List.range 16).map fun i => beWord (blk.drop (8 * i))).reverse)
  List.zipWith (· + ·) h (shaRounds (List.zip shaK ws) h)

/-- Blocks of 128 bytes; the first argument bounds their number. -/
def shaBlocks : Nat → List (BitVec 64) → List Byte → List (BitVec 64)
  | 0, h, _ => h
  | n + 1, h, m => if m.isEmpty then h else shaBlocks n (shaBlock h (m.take 128)) (m.drop 128)

/-- SHA-384 of a message: 48 bytes. -/
def sha384 (m : List Byte) : List Byte :=
  let p := shaPad m
  ((shaBlocks (p.length / 128) shaIv p).take 6).flatMap fun w => beBytes 8 w.toNat

/-- Bytes as a number with the first byte highest, and the reverse. -/
def beNat (bs : List Byte) : Nat := bs.foldl (fun a b => a * 256 + b.toNat) 0

/-- Bytes of a number, lowest first. -/
def leBytes (n v : Nat) : List Byte := (List.range n).map fun i => BitVec.ofNat 8 (v / 256 ^ i)

/-! ## Keccak and KMAC128 (FIPS 202, NIST SP 800-185) -/

/-- The shift register of FIPS 202's rc(t), after `t` steps. -/
def keccakLfsr : Nat → Nat
  | 0 => 1
  | t + 1 =>
    let r := 2 * keccakLfsr t
    if r ≥ 256 then r ^^^ 0x171 else r

/-- The constant of a round: bit 2^j - 1 is rc(j + 7 × round). -/
def keccakRc : List (BitVec 64) :=
  (List.range 24).map fun i => (List.range 7).foldl (fun c j => if (keccakLfsr (j + 7 * i)).testBit 0 then c ||| (1#64 <<< (2 ^ j - 1)) else c) 0

/-- Where step `t` of FIPS 202's walk over the lanes stands. -/
def keccakWalk : Nat → Nat × Nat
  | 0 => (1, 0)
  | t + 1 => let (x, y) := keccakWalk t; (y, (2 * x + 3 * y) % 5)

/-- Rotation of lane (x, y), at x + 5y: that of the walk's step there. -/
def keccakRot : List Nat :=
  (List.range 24).foldl (fun l t => let (x, y) := keccakWalk t; l.set (x + 5 * y) ((t + 1) * (t + 2) / 2 % 64)) (List.replicate 25 0)

def keccakRound (a : List (BitVec 64)) (rc : BitVec 64) : List (BitVec 64) :=
  let at' (l : List (BitVec 64)) (x y : Nat) : BitVec 64 := l.getD (x % 5 + 5 * (y % 5)) 0
  let c := (List.range 5).map fun x => at' a x 0 ^^^ at' a x 1 ^^^ at' a x 2 ^^^ at' a x 3 ^^^ at' a x 4
  let d := (List.range 5).map fun x => c.getD ((x + 4) % 5) 0 ^^^ (c.getD ((x + 1) % 5) 0).rotateLeft 1
  let t := a.mapIdx fun i v => v ^^^ d.getD (i % 5) 0
  -- lane (x, y) of the result comes from lane (x + 3y, x), rotated
  let b := (List.range 25).map fun i =>
    let x := i % 5
    let y := i / 5
    (at' t (x + 3 * y) x).rotateLeft (keccakRot.getD ((x + 3 * y) % 5 + 5 * x) 0)
  let e := (List.range 25).map fun i => at' b (i % 5) (i / 5) ^^^ (~~~(at' b (i % 5 + 1) (i / 5)) &&& at' b (i % 5 + 2) (i / 5))
  e.mapIdx fun i v => if i = 0 then v ^^^ rc else v

def keccakF (a : List (BitVec 64)) : List (BitVec 64) := keccakRc.foldl keccakRound a

/-- Absorbs blocks of 168 bytes (capacity 256 bits); the first argument bounds their number. -/
def keccakAbsorb : Nat → List (BitVec 64) → List Byte → List (BitVec 64)
  | 0, a, _ => a
  | n + 1, a, m =>
    if m.isEmpty then a
    else keccakAbsorb n (keccakF (a.mapIdx fun i v => if i < 21 then v ^^^ BitVec.ofNat 64 (leNat ((m.drop (8 * i)).take 8)) else v)) (m.drop 168)

/-- left_encode and right_encode of SP 800-185. -/
def encLen (v : Nat) : List Byte := let n := max 1 ((bitLenOf v + 7) / 8); beBytes n v
where bitLenOf (v : Nat) : Nat := if v = 0 then 0 else Nat.log2 v + 1

def leftEncode (v : Nat) : List Byte := BitVec.ofNat 8 (encLen v).length :: encLen v
def rightEncode (v : Nat) : List Byte := encLen v ++ [BitVec.ofNat 8 (encLen v).length]
def encodeString (s : List Byte) : List Byte := leftEncode (8 * s.length) ++ s

/-- bytepad of SP 800-185. -/
def bytepad (w : Nat) (x : List Byte) : List Byte :=
  let y := leftEncode w ++ x
  y ++ List.replicate ((w - y.length % w) % w) 0

/-- KMAC128(K, X, L, S) with L of at most 168 bytes of output. -/
def kmac128 (key x : List Byte) (bits : Nat) (cust : List Byte) : List Byte :=
  let kmac : List Byte := [0x4B, 0x4D, 0x41, 0x43]
  let m := bytepad 168 (encodeString kmac ++ encodeString cust) ++ bytepad 168 (encodeString key) ++ x ++ rightEncode bits
  -- cSHAKE128's domain bits 00 and the pad10*1
  let m := m ++ [0x04] ++ List.replicate ((167 - m.length % 168) % 168) 0
  let last := m.length - 1
  let m := m.mapIdx fun i b => if i = last then b ^^^ 0x80 else b
  ((keccakAbsorb (m.length / 168) (List.replicate 25 0) m).flatMap fun w => leBytes 8 w.toNat).take (bits / 8)

end Sys2Proof.Machine
end

