-- ==== Sys2Proof/Machine/Matrix.lean ====
section
/-!
DEFINITION. The matrix engine: MMA (R328 to R330) and its events MMA_ENTRY_ENTER, MMA_GRANT, MMA_PASS_COMPLETE (R173, R174), the sums of
R100, ARING (R331), APEEK and APATCH (R335 to R338), MSTAT (R339), and RING_PARITY_ERROR (R177).
-/
namespace Sys2Proof.Machine
open Sys2Proof

/-! ## Ring slots -/

/-- The physical slot of a group's ring designator. -/
def Group.slotOf (g : Group) (d : Nat) : Option Nat := g.ring[d]?

/-- A cell of a slot. -/
def RingSlot.cell (r : RingSlot) (k : Nat) : Word32 :=
  match r.cells.find? k with
  | some v => v
  | none => match r.lost with
    | some n => Config.freeCell n k
    | none => 0

/-- Writes a cell. -/
def RingSlot.setCell (r : RingSlot) (k : Nat) (v : Word32) : RingSlot :=
  { r with cells := if r.lost.isSome then r.cells.insert k v else r.cells.setD 0 k v }

/-- A slot with all its cells given. -/
def RingSlot.setAll (r : RingSlot) (f : Nat → Word32) : RingSlot :=
  { r with lost := none, cells := (List.range 16384).filterMap fun k => if f k = 0 then none else some (k, f k) }

/-- The number MSTAT and RING faults give a state (R339). -/
def RingSt.code : RingSt → Nat
  | .free => 0
  | .filling => 1
  | .ready => 2
  | .draining => 3

/-- RING (R430). -/
def ringFlt (d : Nat) (r : RingSlot) : Flt := { code := cRing, info := d + r.st.code * 16 + (if r.sealing then 64 else 0) }

/-- What an instruction on a ring designator does with its slot, once P is not empty and the group owns the designator. -/
def withSlot (op : BitVec 8) (x : Enc) (d : Nat) (s : State) (body : View → Thread → Group → Nat → RingSlot → State) : Out :=
  issue op x s fun v =>
    match v.P x, s.group? (who s).gid with
    | t :: _, some g => match g.slotOf d with
      | some i => body v t g i ((s.cluster (who s).cl).slot i)
      | none => takeFault (ownIll op.toNat x) s
    | _, _ => finish x 1 s v

/-! ## ARING (R331) -/

/-- ARING.open: FREE to FILLING. -/
def execAringOpen (x : Enc) (s : State) : Out :=
  withSlot 0xC1 x x.d.toNat s fun _ _ _ i r =>
    if r.st == .free then retire x 1 (s.updCluster (who s).cl fun c => c.updSlot i fun r => { r with st := .filling })
    else takeFault (ringFlt x.d.toNat r) s

/-- ARING.seal: a FILLING slot becomes READY once it has no pass pending or running. -/
def execAringSeal (x : Enc) (s : State) : Out :=
  withSlot 0xC1 x x.d.toNat s fun _ _ _ i r =>
    if r.st == .filling && !r.sealing then
      retire x 1 ((s.updCluster (who s).cl fun c => c.updSlot i fun r => { r with sealing := true }).sealDone (who s).cl)
    else takeFault (ringFlt x.d.toNat r) s

/-- ARING.drop: READY, or FILLING with no pass, to FREE; what the cells hold is lost. -/
def execAringDrop (x : Enc) (s : State) : Out :=
  withSlot 0xC1 x x.d.toNat s fun _ _ _ i r =>
    if r.st == .ready || (r.st == .filling && (s.cluster (who s).cl).pending i == 0) then
      let (n, s) := s.draw
      retire x 1 (s.updCluster (who s).cl fun c => c.updSlot i fun r => { r with st := .free, cells := [], lost := some n })
    else takeFault (ringFlt x.d.toNat r) s

/-! ## Operands of a pass (R329) -/

/-- Descriptor of a register operand's format code (R328). -/
def mmaDesc (f : Nat) : BitVec 16 :=
  match f with
  | 1 => 0x027F
  | 2 => 0x037F
  | 3 => 0x057F
  | 4 => 0x067F
  | 5 => 0x077F
  | _ => 0x0840

/-- Lines of a register operand: line q of slot t is line 4t + q (W = 32); a slot without a thread reads as zero. -/
def regLines (g : Group) (wid : Nat) (f k a : Nat) : List (List (BitVec 128 × BitVec 16)) :=
  (List.range 128).map fun i =>
    let th := g.threads.find? fun t => t.wid == wid && t.slot == i / 4 && t.run != .exited && t.run != .filed
    (List.range (4 * (k + 1))).map fun c =>
      let r (j : Nat) : Word32 := (th.map fun t => t.rdV (a + 16 * (k + 1) * (i % 4) + 4 * c + j)).getD 0
      ((r 3 ++ r 2 ++ r 1 ++ r 0 : BitVec 128), mmaDesc f)

/-- Offset of chunk q of block b of line i. -/
def chunkAt (base rp tp rot i b q : Nat) : Nat := base + i * rp * 16 + ((b * tp * 64 + 16 * q) ^^^ (i % 2 ^ rot * 16))

/-- A scratch operand from its two uniform registers: base, RP, TP, rotation code. -/
def scrOperand (lo hi : Word64) : MOperand := .scratch (fld lo 31 0) (fld lo 47 32) (fld lo 63 48) (fld hi 3 0)

/-- What is wrong at post with a scratch operand (R329): ILL, ALIGN or PERM. -/
def scrOperandBad (op x : Flt) (size : Nat) (lo hi : Word64) : Option Flt :=
  let base := fld lo 31 0
  let rot := fld hi 3 0
  if fld hi 63 4 ≠ 0 || rot > 6 || fld lo 47 32 % 2 ^ rot ≠ 0 then some op
  else if base % 64 ≠ 0 then some x
  else
    let bad := (List.range 128).findSome? fun i => (List.range 4).findSome? fun q =>
      let o := chunkAt base (fld lo 47 32) (fld lo 63 48) rot i 0 q
      if o + 16 > size then some o else none
    bad.map fun o => permFlt (BitVec.ofNat 64 o) 1 2 0

/-! ## MMA (R328, R330) -/

/-- The first operand check of an MMA that fails at post: ILL of both operands, then ALIGN and PERM of A, then of B. -/
def mmaBad (x : Enc) (w : Warp) (g : Group) : Option Flt :=
  let ill := ownIll 0xC0 x
  let chk (scr : Bool) (lo hi : BitVec 8) : Option Flt :=
    if scr then scrOperandBad ill (alignFlt (BitVec.ofNat 64 (fld (rdU w lo) 31 0)) 1 64) g.scr.size (rdU w lo) (rdU w hi) else none
  let a := chk (bit x.mod 2) x.a x.c
  let b := chk (bit x.mod 3) x.b x.e
  match a, b with
  | some f, some h => if f.code ≠ cIll && h.code = cIll then some h else some f
  | some f, none => some f
  | none, r => r

/-- Entries of a cluster's table: a bound MMA takes none before its copy has landed (R173). -/
def Cluster.tabled (c : Cluster) : List MmaEntry := c.mma.filter fun m => m.waitCopy.isNone

/-- Posts a pass: the slot leaves FREE, the entry is listed. `copy` is a bound CPYM: its command, layout and coordinates. -/
def postMma (x : Enc) (s : State) (v : View) (t : Thread) (g : Group) (i : Nat) (copy : Option (Nat × BitVec 512 × List Int)) : State :=
  let w := who s
  let k := fld x.mod 1 0
  let c := s.cluster w.cl
  let waits := copy.any fun p => c.copyQ.any fun q => q.id == p.1
  if !waits && c.tabled.length ≥ 64 then stall s
  else
    let (id, s1) := s.fresh
    let oper (scr : Bool) (lo hi : BitVec 8) (f : Nat) : MOperand :=
      if scr then scrOperand (rdU v.warp lo) (rdU v.warp hi) else .lines (regLines g w.wid f k lo.toNat)
    let m : MmaEntry :=
      { id := id, gid := w.gid, slot := i, desig := x.d.toNat, a := oper (bit x.mod 2) x.a x.c (x.subN % 8), b := oper (bit x.mod 3) x.b x.e (x.subN / 8), k := k
        zero := bit x.mod 4, cap := captOf s x v t.tid, enter := s.cyclesOf (w.cl / 24), waitCopy := if waits then copy.map (·.1) else none
        src := copy.map (·.2) }
    let s2 := s1.updCluster w.cl fun c =>
      { (c.updSlot i fun r => { r with st := .filling }) with
        mma := if copy.any (fun p => p.1 == 0) then c.mma else c.mma ++ [m]
        copyQ := c.copyQ.map fun q => if copy.any (fun p => p.1 == q.id) then { q with bound := true } else q }
    retire x 1 s2

/-- MMA: the checks of R328 to R330 at post. -/
def execMma (x : Enc) (s : State) : Out :=
  withSlot 0xC0 x x.d.toNat s fun v t g i r =>
    let follow := bit x.mod 5
    let path := v.ths.map Thread.tid
    let copy := (v.warp.cpym.find? fun p => p.1 == path).map (·.2)
    if follow && copy.isNone then takeFault (ownIll 0xC0 x) s
    else if follow && copy == some none then retire x 1 s
    else match mmaBad x v.warp g with
      | some f => takeFault f s
      | none =>
        if r.sealing || r.st == .ready || r.st == .draining then takeFault (ringFlt x.d.toNat r) s
        else postMma x s v t g i (if follow then copy.bind id else none)

/-- MMA_ENTRY_ENTER (R173): the bound copy's last block has landed, or the copy has ended. -/
def execMmaEntryEnter (cl id : Nat) (s : State) : Out :=
  let c := s.cluster cl
  match c.mma.find? fun m => m.id == id with
  | none => .next s
  | some m =>
    let landed := match m.waitCopy with
      | some k => (match c.copyQ.find? fun q => q.id == k with
        | some q => decide (q.done ≥ q.plan.length) && !(q.crc && q.crcS != q.crcD)
        | none => true)
      | none => false
    if landed && c.tabled.length < 64 then
      .next (s.updCluster cl fun c => { c with mma := updFirst (fun x => x.id == id) (fun x => { x with waitCopy := none, enter := s.cyclesOf (cl / 24) }) c.mma })
    else .next s

/-! ## MMA_GRANT (R174, R329, R330) -/

/-- An entry whose operands are in place and that no earlier entry of its slot precedes. -/
def mmaEligible (s : State) (cl : Nat) (m : MmaEntry) : Bool :=
  m.waitCopy.isNone && s.groupRuns m.gid && s.guardOf m.gid m.cap == some true &&
    match (s.cluster cl).mma.find? fun x => x.slot == m.slot with
    | some x => x.id == m.id
    | none => false

/-- The task's priority, raised by one level for every 2,048 cycles waited, at most 31. -/
def mmaPrio (s : State) (cl : Nat) (m : MmaEntry) : Nat := min 31 (m.cap.prio + (s.cyclesOf (cl / 24) - m.enter) / 2048)

/-- The eligible entry of highest effective priority, the earliest posted among equals. -/
def mmaPick (s : State) (cl : Nat) : Option MmaEntry :=
  ((s.cluster cl).mma.filter (mmaEligible s cl)).foldl (fun b m => match b with
    | some y => if mmaPrio s cl m > mmaPrio s cl y then some m else some y
    | none => some m) none

/-- Width of a descriptor as a matrix operand: 4, 8 or 16 bits; none where R78 and R81 raise FORMAT. -/
def mmaWidth (d : BitVec 16) : Option Nat :=
  match blkBits (fld d 15 8) with
  | some b => if b ≤ 16 && descReadable d then some b else none
  | none => none

/-- Descriptor of the first block of an operand. -/
def MOperand.firstDesc (g : Group) : MOperand → BitVec 16
  | .lines ls => ((ls.head?.bind List.head?).map (·.2)).getD rawDesc
  | .scratch base rp tp rot => g.scr.desc.getD rawDesc (chunkAt base rp tp rot 0 0 0 / 64)

/-- Scratch offset of an operand's first block; 0 of a register operand. -/
def MOperand.firstAt : MOperand → Nat
  | .lines _ => 0
  | .scratch base rp tp rot => chunkAt base rp tp rot 0 0 0

/-- A chunk of 16 bytes of an allocation. -/
def Scratch.chunk (c : Scratch) (o : Nat) : BitVec 128 :=
  BitVec.ofNat 128 (leNat ((List.range 16).map fun i => SMap.getD (0 : Byte) c.bytes (o + i)))

/-- Captures an operand of `n` chunks a line at the grant, after the checks of R329: allocation, formats, poison. -/
def MOperand.capture (g : Group) (n w : Nat) : MOperand → Except Flt (List (List (BitVec 128 × BitVec 16)))
  | .lines ls => .ok ls
  | .scratch base rp tp rot =>
    let at' (i c : Nat) : Nat := chunkAt base rp tp rot i (c / 4) (c % 4)
    let all := (List.range 128).flatMap fun i => (List.range n).map (at' i)
    match all.find? fun o => decide (o + 16 > g.scr.size) with
    | some o => .error (permFlt (BitVec.ofNat 64 o) 1 2 0)
    | none => match all.find? fun o => mmaWidth (g.scr.desc.getD rawDesc (o / 64)) != some w with
      | some o => .error { code := cFormat, info := (g.scr.desc.getD rawDesc (o / 64)).toNat, addr := BitVec.ofNat 64 o, acc := 1 }
      | none => match all.find? fun o => g.scr.poison.contains (o / 64) with
        | some o => .error (poisonFlt (BitVec.ofNat 64 o) 1 2)
        | none => .ok ((List.range 128).map fun i => (List.range n).map fun c => (g.scr.chunk (at' i c), g.scr.desc.getD rawDesc (at' i c / 64)))

/-- Both operands of a pass, or what keeps it from being granted. -/
def mmaCapture (g : Group) (m : MmaEntry) : Except Flt (MOperand × MOperand) :=
  let fmt (d : BitVec 16) (o : MOperand) : Flt := { code := cFormat, info := d.toNat, addr := BitVec.ofNat 64 o.firstAt, acc := 1 }
  let da := m.a.firstDesc g
  let db := m.b.firstDesc g
  match mmaWidth da, mmaWidth db with
  | none, _ => .error (fmt da m.a)
  | _, none => .error (fmt db m.b)
  | some wa, some wb =>
    let chunks (w : Nat) : Nat := (512 * (m.k + 1) * w / max wa wb + 127) / 128
    match m.a.capture g (chunks wa) wa, m.b.capture g (chunks wb) wb with
    | .ok a, .ok b => .ok (.lines a, .lines b)
    | .error f, _ => .error f
    | _, .error f => .error f

/-- Grants an entry: the acquire, the MATRIX check of a bound pair (R197), the reads of scratch, and the clearing of ZERO. -/
def grantMma (cl : Nat) (m : MmaEntry) (s : State) : State :=
  let w := engineWho s m.gid m.cap.wid
  let s := if m.cap.ord.toNat % 2 = 1 then s.acquire w m.cap.scope.toNat [] else s
  let hit := if m.passWatch then none else m.src.bind fun p => matrixHit s w p.1 p.2
  match s.group? m.gid with
  | none => s
  | some g => match hit, mmaCapture g m with
    | some f, _ => engineFault m.gid 2 m.cap (some m.id) f s
    | none, .error f => engineFault m.gid 2 m.cap (some m.id) f s
    | none, .ok (a, b) =>
      s.updCluster cl fun c =>
        { (if m.zero then c.updSlot m.slot fun r => { r with cells := [], lost := none, poison := false, patched := [] } else c) with
          mma := updFirst (fun x => x.id == m.id) (fun x => { x with a := a, b := b, running := true, passWatch := false, cap := { x.cap with gs := none } }) c.mma }

/-- MMA_GRANT: an entry on a false guard slot is freed; else, when no pass runs, one is granted. -/
def execMmaGrant (cl : Nat) (s : State) : Out :=
  match (s.cluster cl).mma.find? fun m => m.waitCopy.isNone && !m.running && s.groupRuns m.gid && s.guardOf m.gid m.cap == some false with
  | some m => .next (s.dropMma cl m.id)
  | none =>
    if (s.cluster cl).mma.any fun m => m.running then .next s
    else match mmaPick s cl with
      | some m => .next (grantMma cl m s)
      | none => .next s

/-! ## The sums (R100) -/

/-- An element as the engine reads it: its exact value, and whether its scale is the NaN scale. -/
structure MElem where
  v : FV
  nanScale : Bool

/-- Elements of a line of width `w`. -/
def lineElems (w : Nat) (l : List (BitVec 128 × BitVec 16)) : List MElem :=
  l.flatMap fun p =>
    let fmt := fld p.2 15 8
    let sc := fld p.2 7 0
    let ns := if fmt = 0x08 then sc % 64 == 32 else (blkFmt fmt).isSome && sc == 0xFF
    (List.range (128 / w)).map fun i => ⟨elemValue false fmt sc (p.1.toNat / 2 ^ (w * i) % 2 ^ w), ns⟩

/-- One product: its value, and the cause it notes. -/
def mulElem (a b : MElem) : Option FV × Nat :=
  if a.nanScale || b.nanScale then (none, 2)
  else if a.v.isNan || b.v.isNan then (none, 1)
  else match mulV a.v b.v with
    | some v => (some v, 0)
    | none => (none, 4)

/-- The exact sum of a k-group, starting from its first product so that a sum of −0 alone stays −0; none when +∞ and −∞ meet. -/
def sumV : List FV → Option FV
  | [] => some (.num false 0 0)
  | x :: xs => xs.foldl (fun a v => a.bind fun u => addV .rne u v) (some x)

/-- The cause of highest priority (R96): 2, 1, 4, 3. -/
def topCause (cs : List Nat) : Nat := ([2, 1, 4, 3].find? fun c => cs.contains c).getD 0

def causeNan (c : Nat) : Word32 := 0x7FC00000 + BitVec.ofNat 32 c

/-- One k-group added to a cell. -/
def cellGroup (acc : Word32) (as bs : List MElem) : Word32 :=
  let ps := List.zipWith mulElem as bs
  let vals := ps.filterMap (·.1)
  let sum := sumV vals
  let both := vals.any (fun v => v == .inf false) && vals.any (fun v => v == .inf true)
  let cause := topCause (ps.map (·.2) ++ if both then [3] else [])
  let a := fF32.decode acc.toNat
  if a.isNan then acc
  else if cause ≠ 0 then causeNan cause
  else match sum.bind fun v => addV .rne a v with
    | some v => BitVec.ofNat 32 (fF32.deliver .rne false false v).1
    | none => causeNan 3

/-- The k-groups of two lines, in ascending order, applied to a cell. -/
def cellPass (gsize : Nat) : Nat → Word32 → List MElem → List MElem → Word32
  | 0, acc, _, _ => acc
  | n + 1, acc, as, bs => cellPass gsize n (cellGroup acc (as.take gsize) (bs.take gsize)) (as.drop gsize) (bs.drop gsize)

/-- Line `i` of captured operands. -/
def MOperand.elems (w i : Nat) : MOperand → List MElem
  | .lines ls => lineElems w (ls.getD i [])
  | .scratch _ _ _ _ => []

/-- Every cell of a slot after a granted pass. -/
def passCells (m : MmaEntry) (r : RingSlot) : RingSlot :=
  let width (o : MOperand) : Nat := match o with
    | .lines ls => (((ls.head?.bind List.head?).map (·.2)).bind mmaWidth).getD 16
    | .scratch _ _ _ _ => 16
  let wa := width m.a
  let wb := width m.b
  let k := 512 * (m.k + 1) / max wa wb
  let g := if max wa wb = 16 then 16 else 32
  let as := (List.range 128).map fun i => m.a.elems wa i
  let bs := (List.range 128).map fun i => m.b.elems wb i
  r.setAll fun c => cellPass g (k / g) (r.cell c) (as.getD (c / 128) []) (bs.getD (c % 128) [])

/-- MMA_PASS_COMPLETE (R172 to R174). -/
def execMmaPassComplete (cl : Nat) (s : State) : Out :=
  match (s.cluster cl).mma.find? fun m => m.running with
  | none => .next s
  | some m => .next ((((s.updCluster cl fun c => c.updSlot m.slot (passCells m)).dropMma cl m.id).alive m.gid).note 0x41 (4 * cl) 1 ((s.group? m.gid).map Group.ctx))

/-- RING_PARITY_ERROR (R177): the mask of patched quads starts empty (R338). -/
def execRingParityError (cl slot : Nat) (s : State) : Out :=
  .next ((s.updCluster cl fun c => c.updSlot slot fun r => { r with poison := true, patched := [] }).note 0x82 (96 * (cl / 24)) 1 none)

/-! ## APEEK and APATCH (R335 to R338) -/

/-- The group whose slot an APEEK or APATCH names: its own, or a parked one of the context on the same die (R337); a wait where the frame's
address cannot be translated yet. -/
inductive PeekGroup where
  | ok (g : Group)
  | bad (f : Flt)
  | recall (frag : Nat)
  | blocked

def peekGroup (x : Enc) (s : State) (v : View) (g : Group) : PeekGroup :=
  let a := rdU v.warp x.e
  let bad : PeekGroup := .bad (permFlt a 1 8 0)
  if x.subN = 0 then .ok g
  else match namedFrame s (who s) (who s).owner a with
    | .group p => if p.ctx == g.ctx && gidDie p.gid == gidDie g.gid then .ok p else bad
    | .none => bad
    | .recall f => .recall f
    | .blocked => .blocked

/-- The checks of R336 to R338 before a slot is read or patched. -/
def peekWith (op : BitVec 8) (x : Enc) (s : State) (body : View → Nat → Nat → RingSlot → State) : Out :=
  issue op x s fun v =>
    let d := x.a.toNat
    match s.group? (who s).gid, v.P x with
    | some g, t0 :: rest =>
      match (t0 :: rest).find? fun t => decide ((t.rdV x.b.toNat).toNat ≥ 4096) with
      | some t => takeFaultAt t.tid t.slot (ownIll op.toNat x) s
      | none => match peekGroup x s v g with
        | .bad f => takeFaultAt t0.tid t0.slot f s
        | .recall f => stallRecall f s
        | .blocked => stall s
        | .ok pg => match pg.slotOf d with
          | none => takeFaultAt t0.tid t0.slot (if x.subN = 0 then ownIll op.toNat x else { code := cRing, info := d }) s
          | some i =>
            let c := s.cluster (gidCl pg.gid)
            let r := c.slot i
            if r.sealing || !(r.st == .ready || (r.st == .filling && c.pending i == 0)) then takeFaultAt t0.tid t0.slot (ringFlt d r) s
            else body v (gidCl pg.gid) i r
    | _, _ => finish x 1 s v

/-- First cell of the quad a thread names: row in bits 6:0, quad in bits 11:7. -/
def quadOf (t : Thread) (x : Enc) : Nat := let b := (t.rdV x.b.toNat).toNat; b % 128 * 32 + b / 128 % 32

/-- APEEK (R336, R338). -/
def execApeek (x : Enc) (s : State) : Out :=
  peekWith 0xC3 x s fun v _ _ r =>
    if r.poison then takeFault { code := cPoison, info := 1 + x.a.toNat * 16, acc := 1 } s
    else finish x (vcost x v) s (v.mapP x fun t =>
      (List.range 4).foldl (fun u c => u.wrV (x.d.toNat + c) (r.cell (4 * quadOf t x + c))) t)

/-- APATCH (R336, R338): the higher slot's value stays; a full mask of patched quads clears the poison. -/
def execApatch (x : Enc) (s : State) : Out :=
  peekWith 0xC4 x s fun v cl i r =>
    let ths := v.P x
    let r := ths.foldl (fun r t => (List.range 4).foldl (fun r c => r.setCell (4 * quadOf t x + c) (t.rdV (x.d.toNat + c))) r) r
    let qs := ths.foldl (fun (l : List Nat) t => if l.contains (quadOf t x) then l else quadOf t x :: l) r.patched
    let r := if !r.poison then r else if qs.length ≥ 4096 then { r with poison := false, patched := [] } else { r with patched := qs }
    retire x (vcost x v) (s.updCluster cl fun c => c.updSlot i fun _ => r)

/-! ## MSTAT (R339) -/

/-- MSTAT.slot. -/
def execMstatSlot (x : Enc) (s : State) : Out :=
  withSlot 0xC5 x x.a.toNat s fun v _ g i r =>
    let c := s.cluster (who s).cl
    let tail := if r.st == .ready then (g.ring.filter fun j => (c.slot j).st == .ready && decide ((c.slot j).sealT < r.sealT)).length else 31
    let w := r.st.code + (if r.sealing then 4 else 0) + (if r.poison then 8 else 0) + min 64 (c.pending i) * 16 + tail * 2 ^ 11 + i * 2 ^ 16
    finish x 1 s ⟨wrU v.warp x.d (BitVec.ofNat 64 w), v.ths⟩

/-- MSTAT.tab. -/
def execMstatTab (x : Enc) (s : State) : Out :=
  issueS 0xC5 x s fun v =>
    let w := who s
    let t := (s.cluster w.cl).tabled
    let own := t.filter fun m => m.gid == w.gid
    let r := (64 - t.length) + own.length * 2 ^ 8 + (own.filter (mmaEligible s w.cl)).length * 2 ^ 16
    finish x 1 s ⟨wrU v.warp x.d (BitVec.ofNat 64 r), v.ths⟩

end Sys2Proof.Machine
end

