-- ==== Sys2Proof/Machine/Epi.lean ====
section
/-!
DEFINITION. The epilogue engine: EPI (R332, R333), EPI_TAKE_SLOT and EPI_DRAIN_COMPLETE (R176), its arithmetic and its activations.
-/
namespace Sys2Proof.Machine
open Sys2Proof

/-! ## Activations (R333): exact, rounded once to F32 -/

/-- The logistic function of ±t, t in fixed point: a mantissa and its exponent, rounded down; beyond 200 upwards it is just below 1. -/
def sigmScaled (neg : Bool) (t : Nat) : Nat × Int :=
  if neg then
    if t > 2000 * 2 ^ spB then (1, -5000)
    else let (y, n) := spExpScaled t (-(spB : Int)); (2 ^ (2 * spB + n) / (y * 2 ^ n + 2 ^ spB), -((spB + n : Nat) : Int))
  else if t > 200 * 2 ^ spB then (2 ^ spB - 1, -(spB : Int))
  else let (y, n) := spExpScaled t (-(spB : Int)); (y * 2 ^ n * 2 ^ spB / (y * 2 ^ n + 2 ^ spB), -(spB : Int))

/-- √(2/π) in fixed point. -/
def spGelu : Nat := isqrt (2 ^ (3 * spB + 1) / spPi)

/-- 2√(2/π)(y + 0.044715y³) of a magnitude y in fixed point: GELU is y/(1 + e^−that). -/
def geluArg (y : Nat) : Nat := 2 * spGelu * (y * 2 ^ (2 * spB) * 1000000 + 44715 * y ^ 3) / (1000000 * 2 ^ (3 * spB))

/-- An activation of a value that is not NaN: 0 none, 1 ReLU, 2 GELU, 3 SiLU. -/
def activate (act : Nat) (mode : Mode) (sat flush : Bool) (bits : Nat) : Nat :=
  match act, fF32.read flush bits with
  | 0, _ => bits
  | 1, v => if cmpV v (.num false 0 0) = .gt then (fF32.deliver mode sat flush v).1 else 0
  | _, .inf n => if n then 0x80000000 else (fF32.infBits false)
  | _, .nan .. => bits
  | a, .num n m e =>
    if m = 0 then fF32.signBit n
    else
      let y := spFix m e
      let (g, ge) := sigmScaled n (if a = 2 then geluArg y else y)
      (fF32.round mode sat flush n (m * g) (e + ge) true).1

/-! ## One cell (R333) -/

/-- y of one cell: NaNs in the order accumulator, scale, bias; the accumulator is never flushed on reading. -/
def epiY (mode : Mode) (sat flush : Bool) (acc scale : Nat) (bias : Option Nat) : Nat :=
  let a := fF32.decode acc
  let sc := fF32.read flush scale
  let bj := bias.map (fF32.read flush)
  if a.isNan then acc
  else match nanFirst fF32 (sc :: bj.toList) with
    | some r => r.1
    | none => match mulV a sc with
      | none => fF32.defNan
      | some p => match (match bj with
          | some b => addV mode p b
          | none => some p) with
        | some v => (fF32.deliver mode sat flush v).1
        | none => fF32.defNan

/-- The activated value of a cell, as F32 bits. -/
def epiCell (c : EpiCmd) (bias : Option Nat) (acc : Nat) : Nat :=
  let (m, sat) := modeHi c.mod.toNat c.cap.rmode
  let y := epiY m sat c.cap.dmode acc c.scale.toNat bias
  if (fF32.decode y).isNan then y else activate c.act.toNat m sat c.cap.dmode y

/-- Conversion to an output type; under `.sat` an infinity stays one where the type has it (R91; log entry 34). -/
def epiConv (c : EpiCmd) (ty : Ty) (y : Nat) : Nat :=
  let (m, sat) := modeHi c.mod.toNat c.cap.rmode
  match fF32.decode y with
  | .inf n => (ty.fmt.deliverInf sat n).1
  | .nan n q p b => if ty = .f32 then y else ty.fmt.nanFrom n q p b
  | v => (ty.fmt.deliver m sat c.cap.dmode v).1

/-! ## The output (R333) -/

def EpiCmd.type (c : EpiCmd) : Ty := (Ty.ofCode c.ty).getD .f32

/-- Bits of an output element. -/
def EpiCmd.bits (c : EpiCmd) : Nat := if c.type = .blk then (blkBits (c.fmt.toNat % 16)).getD 32 else c.type.bits

/-- Bytes of one output row. -/
def EpiCmd.rowBytes (c : EpiCmd) : Nat := 16 * c.bits

/-- Addresses of the output blocks: row by row. -/
def EpiCmd.blocks (c : EpiCmd) : List (Nat × Nat × BitVec 64) :=
  (List.range 128).flatMap fun i => (List.range (c.rowBytes / 64)).map fun q => (i, q, c.out + BitVec.ofNat 64 (i * c.pitch + 64 * q))

/-- Bytes and descriptor of output block q of row i. -/
def EpiCmd.block (c : EpiCmd) (r : RingSlot) (bias : Nat → Option Nat) (i q : Nat) : List Byte × DescAct :=
  let n := 512 / c.bits
  let ys := (List.range n).map fun t => epiCell c (bias (q * n + t)) (r.cell (i * 128 + q * n + t)).toNat
  if c.type = .blk then
    let (m, _) := modeHi c.mod.toNat c.cap.rmode
    let f := c.fmt.toNat % 16
    let (sc, cs) := quantBlock f (c.fmt.toNat / 16) m false c.cap.dmode (ys.map fun y => fF32.decode y)
    (packCodes c.bits (cs.map (·.1)), .put (BitVec.ofNat 16 (f * 256 + sc)))
  else (packCodes c.bits (ys.map (epiConv c c.type)), .raw)

/-! ## Posting (R332) -/

/-- EPI: the checks of R332, then a place in the cluster's epilogue queue. -/
def execEpi (x : Enc) (s : State) : Out :=
  issue 0xC2 x s fun v =>
    let w := who s
    match v.P x, s.group? w.gid with
    | t :: _, some g =>
      let (id, s1) := s.fresh
      let out := rdU v.warp x.a
      let pitch := (rdU v.warp x.b).toNat
      let cw := rdU v.warp x.c
      let off := fld cw 63 32
      let c : EpiCmd :=
        { id := id, gid := w.gid, dreg := x.d.toNat - 0xC0, out := out, pitch := pitch, scale := cw.extractLsb' 0 32
          biasOff := if bit x.sub 2 then some off else none, act := x.sub.extractLsb' 0 2, ty := fld x.mod 4 0, fmt := x.e.extractLsb' 0 6
          mod := x.mod.extractLsb' 5 3, cap := captOf s x v t.tid }
      if (c.type = .blk && !quantCode x.e.toNat) || pitch < c.rowBytes || pitch ≥ 2 ^ 40 then takeFault (ownIll 0xC2 x) s
      else if out.toNat % 64 ≠ 0 then takeFault (alignFlt out 2 64) s
      else if pitch % 64 ≠ 0 then takeFault (alignFlt (BitVec.ofNat 64 pitch) 2 64) s
      else if bit x.sub 2 && off % 16 ≠ 0 then takeFault (alignFlt (BitVec.ofNat 64 off) 1 16) s
      else if bit x.sub 2 && off + 512 > g.scr.size then takeFault (permFlt (BitVec.ofNat 64 off) 1 2 0) s
      else
        let s2 := s1.updCluster w.cl fun k => { k with epiQ := k.epiQ ++ [c] }
        retire x 1 (mapWarp s2 fun wp => wp.owe id [c.dreg])
    | _, _ => finish x 1 s v

/-! ## EPI_TAKE_SLOT (R176, R333) -/

/-- A group's tail slot: the READY slot sealed earliest. -/
def tailSlot (s : State) (g : Group) : Option Nat :=
  let c := s.cluster (gidCl g.gid)
  (g.ring.filter fun i => (c.slot i).st == .ready).foldl (fun b i => match b with
    | some j => if (c.slot i).sealT < (c.slot j).sealT then some i else some j
    | none => some i) none

/-- A drain's stores are not issued behind an earlier command of the group on their channel, which a park could stop (R121, R317): the engine
passes over such an EPI as it does over a held one (log entry 63). -/
def epiBehind (s : State) (c : EpiCmd) : Bool :=
  (s.cmdsOn c.gid c.cap.ch).any (fun k => decide (k < c.id)) ||
    s.packets.any fun p => p.gid == c.gid && p.ch == c.cap.ch && p.st == .source && decide (p.id < c.id)

/-- The EPI considered next: the earliest queued one that is first of its group, of a running group with a READY slot, with a resolved
guard slot. A false guard slot discards it. -/
def epiNext (s : State) (cl : Nat) : Option (EpiCmd × Nat) :=
  let q := (s.cluster cl).epiQ
  q.findSome? fun c =>
    let first := (q.find? fun d => d.gid == c.gid && d.slot.isNone).any fun d => d.id == c.id
    if c.slot.isNone && first && !c.suspended && s.groupRuns c.gid && (s.guardOf c.gid c.cap).isSome && !epiBehind s c then
      ((s.group? c.gid).bind (tailSlot s)).map fun i => (c, i)
    else none

def State.updEpi (s : State) (cl id : Nat) (f : EpiCmd → EpiCmd) : State :=
  s.updCluster cl fun k => { k with epiQ := updFirst (fun c => c.id == id) f k.epiQ }

/-- Suspends an EPI at progress 0 and parks its group. -/
def suspendEpi (cl : Nat) (c : EpiCmd) (f : Flt) (s : State) : State :=
  engineFault c.gid 3 c.cap (some c.id) f (s.updEpi cl c.id fun c => { c with suspended := true })

/-- Translates the whole output region. -/
def epiAccs (s : State) (w : Who) : List (BitVec 64) → Except BlkStop (List Acc)
  | [] => .ok []
  | a :: as =>
    match engineXlate s w a 64 2 with
    | .bad _ _ => .error (.code 1)
    | .recall f => .error (.recall f)
    | .blocked => .error .wait
    | .ok x => match epiAccs s w as with
      | .ok l => .ok (x :: l)
      | e => e

/-- Issues every store of a drain; a wait leaves everything undone. -/
def epiStores (w : Who) (c : EpiCmd) (pts : Option (BitVec 24)) : List (Acc × List Byte × DescAct) → State → PutWait × State
  | [], s => (.go, s)
  | (a, bs, d) :: ps, s =>
    let cells := bs.mapIdx fun k b => (a.at / 64 * 64 + k, b)
    match putOne w c.cap.tid c.cap.ch c.cap.ord.toNat c.cap.scope c.cap.hint.toNat pts (some c.id) ⟨{ a with tid := c.cap.tid }, cells, d⟩ (s.tlbFill a.fills) with
    | (.go, s') => epiStores w c pts ps s'
    | r => r

/-- Takes slot `i`: the checks in their order, then every value is read and every store issued. -/
def takeSlot (cl : Nat) (c : EpiCmd) (i : Nat) (g : Group) (s : State) : State :=
  let w := engineWho s c.gid c.cap.wid
  let r := (s.cluster cl).slot i
  let desig := (g.ring.findIdx? (· == i)).getD 0
  let biasBad := match c.biasOff with
    | some o => (List.range 9).find? fun k => decide ((o + 64 * k) / 64 ≤ (o + 511) / 64) && g.scr.poison.contains ((o + 64 * k) / 64)
    | none => none
  if r.poison then suspendEpi cl c { code := cPoison, info := 1 + desig * 16, acc := 1 } s
  else if biasBad.isSome then suspendEpi cl c (poisonFlt (BitVec.ofNat 64 (c.biasOff.getD 0)) 1 2) s
  else
    let bs := c.blocks
    match epiAccs s w (bs.map (·.2.2)) with
    | .error (.recall f) => s.askRecall f
    | .error .wait => s
    | .error _ => (s.endEpi cl c 1 0 false).alive c.gid
    | .ok as => match as.findSome? fun a => enginePure s c.gid a 2 with
      | some f => engineFault c.gid 3 c.cap none f (s.endEpi cl c 4 0 false)
      | none => match (if c.passWatch then none else lowestWatch (as.filterMap fun a => engineWatch s w.ctx 32 a 2)) with
        | some f => suspendEpi cl c f s
        | none =>
          if xlatWaitEngine s w.cl w.ctx as then s else
          let s1 := if c.cap.ord.toNat % 2 = 1 then s.acquire w c.cap.scope.toNat [] else s
          let bias (j : Nat) : Option Nat := c.biasOff.map fun o =>
            leNat ((List.range 4).map fun k => SMap.getD (0 : Byte) g.scr.bytes (o + 4 * j + k))
          let puts := List.zipWith (fun a (b : Nat × Nat × BitVec 64) => let o := c.block r bias b.1 b.2.1; (a, o.1, o.2)) as bs
          match epiStores w c (releasePts s1 w none c.cap.ord.toNat c.cap.scope.toNat) puts s1 with
          | (.go, s2) =>
            ((s2.updEpi cl c.id fun c => { c with slot := some i, passWatch := false, cap := { c.cap with gs := none } }).updCluster cl fun k =>
              k.updSlot i fun r => { r with st := .draining }).alive c.gid
          | (.recall f, _) => s.askRecall f
          | _ => s

/-- EPI_TAKE_SLOT. A false guard slot discards the command (R169). -/
def execEpiTakeSlot (cl : Nat) (s : State) : Out :=
  match epiNext s cl with
  | none => .next s
  | some (c, i) =>
    if s.guardOf c.gid c.cap == some false then .next (s.endEpi cl c 0 0 true)
    else match s.group? c.gid with
      | some g => .next (takeSlot cl c i g s)
      | none => .next s

/-- A drain all of whose stores are performed, and its release (R128). -/
def epiOver (s : State) (cl : Nat) : Option (EpiCmd × Nat) :=
  (s.cluster cl).epiQ.findSome? fun c => match c.slot with
    | some i => if releaseHeld s c.gid c.cap c.id || s.packets.any (fun p => p.cmd == some c.id && p.st != .done) then none else some (c, i)
    | none => none

/-- EPI_DRAIN_COMPLETE: the slot becomes FREE, the status word is written. -/
def execEpiDrainComplete (cl : Nat) (s : State) : Out :=
  match epiOver s cl with
  | some (c, i) =>
    .next ((((s.updCluster cl fun k => k.updSlot i fun r => { r with st := .free, sealT := 0 }).endEpi cl c 0 (128 * c.rowBytes) false).alive c.gid).note 0x43 (4 * cl) 16384
      ((s.group? c.gid).map Group.ctx))
  | none => .next s

end Sys2Proof.Machine
end

