-- ==== Sys2Proof/Machine/Records.lean ====
section
/-!
DEFINITION. Task records (R178, R179), seams and spill (R181, R182, R401), join cells (R37, R180), launches and steps as tasks count in them
(R39, R399), the assay table's entries (R185, R190), and the end of a task and of a group (R37, R61, R199).
-/
namespace Sys2Proof.Machine
open Sys2Proof

/-! ## Task records (R178) -/

def recEntry (r : BitVec 512) : BitVec 64 := r.extractLsb' 0 64
def recArg (r : BitVec 512) : BitVec 64 := r.extractLsb' 64 64
def recStep (r : BitVec 512) : Nat := fld r 191 176
def recJoin (r : BitVec 512) : BitVec 64 := r.extractLsb' 192 64
def recWarps (r : BitVec 512) : Nat := fld r 260 256 + 1
def recVregs (r : BitVec 512) : Nat := 8 * (fld r 265 261 + 1)
def recSregs (r : BitVec 512) : Nat := 8 * (fld r 268 266 + 1)
def recScratch (r : BitVec 512) : Nat := fld r 290 269
def recTbar (r : BitVec 512) : Nat := fld r 297 291
def recGang (r : BitVec 512) : Nat := fld r 301 298 + 1
def recRing (r : BitVec 512) : Nat := fld r 306 302
def recFuse (r : BitVec 512) : Bool := bit r 307
def recPrio (r : BitVec 512) : Nat := fld r 324 320
def recAff (r : BitVec 512) : Nat := fld r 359 328
def recPure (r : BitVec 512) : Bool := bit r 360
def recHeld (r : BitVec 512) : Bool := bit r 361
def recEvent (r : BitVec 512) : Bool := bit r 362
def recHlist (r : BitVec 512) : BitVec 64 := r.extractLsb' 384 64
def recTag (r : BitVec 512) : BitVec 64 := r.extractLsb' 448 64

/-- Overwrites `n` bits from bit `lo` on. -/
def recPut (r : BitVec 512) (lo n v : Nat) : BitVec 512 :=
  (r &&& ~~~(BitVec.ofNat 512 ((2 ^ n - 1) * 2 ^ lo))) ||| BitVec.ofNat 512 (v % 2 ^ n * 2 ^ lo)

/-- A malformed record (R179). Every count of warps fits under R20, and RING and TBAR bound themselves. -/
def recBad (r : BitVec 512) : Bool :=
  fld r 383 363 != 0 || fld r 327 325 != 0 || fld r 319 308 != 0 || decide (fld r 265 261 ≥ 24) ||
  decide (recScratch r > 2097152) || decide (recRing r > 16) || decide (recTbar r > 64) ||
  (recPure r && recHlist r == 0) || (recJoin r).toNat % 16 != 0 || decide (recWarps r * Config.warpW > 1024)

/-- The seam a record is routed to, with die set D (R181). -/
def seamOf (aff : Nat) (D : List Nat) : Nat :=
  let a (i : Nat) : Nat := aff / 2 ^ (7 * i) % 128
  let s := a 0 ^^^ a 1 ^^^ a 2 ^^^ a 3 ^^^ a 4
  let d := if D.contains (s / 16) || D.isEmpty then s / 16 else D.getD (s / 16 % D.length) 0
  16 * d + s % 16

/-- Dies that hold clusters of a partition, ascending (R183). -/
def Part.dies (p : Part) : List Nat := (List.range 8).filter fun d => (List.range 24).any fun c => bit p.img (320 + 24 * d + c)

/-! ## Seams (R181, R182, R401) -/

/-- Records in a seam's 4,096 places. -/
def State.seamLen (s : State) (seam : Nat) : Nat := (s.queue.filter fun q => q.seam == seam && !q.spilled && !q.waiting).length

/-- Records a partition's spill area holds: 64 bytes each. -/
def State.spillCap (s : State) (p : Nat) : Nat := fld (s.part p).img 127 96 * 1024

/-- Records in a partition's spill area: spilled ones, and those of accepted launches that are not yet routed (R396). -/
def State.spillUsed (s : State) (p : Nat) : Nat :=
  (s.queue.filter fun q => q.part == p && q.spilled).length + (s.launches.filter fun l => l.part == p).foldl (fun n l => n + l.todo.length) 0

/-- A device enqueue of the partition waits at HUB (R182). -/
def State.hubWaits (s : State) (p : Nat) : Bool := s.queue.any fun q => q.part == p && q.waiting

/-- Where a record would stand: in its seam, in spill leaving `reserve` places, or nowhere. -/
inductive Room where
  | seam | spill | none
  deriving DecidableEq, Repr

def State.roomFor (s : State) (seam p reserve : Nat) : Room :=
  if s.seamLen seam < 4096 && !s.queue.any (fun q => q.seam == seam && q.spilled) then .seam
  else if s.spillUsed p + reserve < s.spillCap p then .spill
  else .none

/-- A context touches a die (R437). -/
def State.touchDie (s : State) (ctx die : Nat) : State := s.updCtx ctx fun c => { c with touched := c.touched ||| (1#8 <<< die) }

/-- A placement pass is due on a die for a partition (R405). -/
def State.wantPass (s : State) (die part : Nat) : State :=
  let k := 64 * die + part
  { s with passes := s.passes.insert k (SMap.getD 0 s.passes k + 1) }

/-- Reservations end: those that `p` names. -/
def State.endReserves (s : State) (p : Reserve → Bool) : State :=
  (s.reserves.filter p).foldl (fun s r => s.wantPass (r.seam / 16) r.part) { s with reserves := s.reserves.filter fun r => !p r }

/-- Lists a record at its place; one that finds none waits at HUB. -/
def State.putRec (s : State) (q : QRec) (r : Room) : State :=
  let s := s.touchDie q.ctx (q.seam / 16)
  let s := if r == .seam then s.wantPass (q.seam / 16) q.part else s
  { s with queue := s.queue ++ [{ q with spilled := r == .spill, waiting := r == .none }] }

/-- A new record for a seam. -/
def State.newRec (s : State) (seam : Nat) (rec : BitVec 512) (ctx part : Nat) (launch : Option Nat) (kind : TaskKind) (pts : BitVec 24) : QRec × State :=
  let (id, s) := s.fresh
  ({ id := id, seam := seam, record := rec, ctx := ctx, part := part, launch := launch, kind := kind, level := recPrio rec, entered := s.ptime
     since := s.ptime, aging := (s.part part).aging, held := recHeld rec, spilled := false, waiting := false, pts := pts }, s)

/-- Spilled records return to their seam, in FIFO order, while it has places. -/
def State.refill (s : State) (seam : Nat) : Nat → State
  | 0 => s
  | n + 1 =>
    if s.seamLen seam < 4096 then
      match s.queue.find? fun q => q.seam == seam && q.spilled with
      | some q => State.refill (({ s with queue := s.queue.map fun r => if r.id == q.id then { r with spilled := false } else r } : State).wantPass (seam / 16) q.part) seam n
      | none => s
    else s

/-- A record leaves its seam. -/
def State.leaveSeam (s : State) (q : QRec) : State :=
  (State.endReserves { s with queue := s.queue.filter (fun r => r.id != q.id) } fun r => r.qrec == q.id).refill q.seam 1

/-- WAITING_ENQUEUE_ENTER (R182): the device enqueue of a partition that has waited longest enters once a place is free. -/
def execWaitingEnqueueEnter (part : Nat) (s : State) : Out :=
  match s.queue.find? fun q => q.part == part && q.waiting with
  | none => .next s
  | some q =>
    let s1 := { s with queue := s.queue.filter fun r => r.id != q.id }
    match s1.roomFor q.seam part 0 with
    | .none => .next s
    | r => .next (s1.putRec { q with entered := s.ptime, since := s.ptime, aging := (s.part part).aging } r)

/-- AGING_PROMOTION (R402); a reservation of the record has its new priority and FIFO entry (R406). -/
def execAgingPromotion (seam id : Nat) (s : State) : Out :=
  match s.queue.find? fun q => q.seam == seam && q.id == id with
  | none => .next s
  | some q =>
    if q.aging ≠ 0 && q.level < 31 && !q.held && !q.waiting && s.ptime ≥ q.since + q.aging && (s.part q.part).st == .running then
      let q' := { q with level := q.level + 1, entered := s.ptime, since := s.ptime, aging := (s.part q.part).aging }
      let raise (r : Reserve) : Reserve := if r.qrec == q.id then { r with prio := q'.level, entered := q'.entered } else r
      .next (({ s with queue := s.queue.filter (fun r => r.id != q.id) ++ [q'], reserves := s.reserves.map raise } : State).wantPass (seam / 16) q.part)
    else .next s

/-! ## Launches as tasks count in them (R39, R183, R399) -/

/-- The launch of a task, while it has not ended. -/
def State.launch? (s : State) (l : Option Nat) : Option Launch := l.bind fun i => s.launches.find? fun x => x.id == i && x.status.isNone

def State.updLaunch (s : State) (i : Nat) (f : Launch → Launch) : State := { s with launches := updFirst (fun x => x.id == i) f s.launches }

/-- A step all of whose tasks have ended is complete; the last one completes the launch. -/
def Launch.settle (l : Launch) : Launch :=
  if l.started && l.opened == 0 && l.status.isNone then
    { l with started := false, steps := l.steps + 1, status := if l.todo.isEmpty then some (1, 0) else none }
  else l

/-- A task of a launch opens in the current step. -/
def State.openTask (s : State) (l : Option Nat) : State :=
  match s.launch? l with
  | some x => s.updLaunch x.id fun x => { x with opened := x.opened + 1 }
  | none => s

/-- A task of a launch ends: done, or killed. -/
def State.closeTask (s : State) (l : Option Nat) (killed : Bool) (pts : BitVec 24) : State :=
  match s.launch? l with
  | some x => if x.status.isSome then s else s.updLaunch x.id fun x => Launch.settle
      { x with opened := x.opened - 1, done := if killed then x.done else x.done + 1, killed := if killed then x.killed + 1 else x.killed, pts := tsMax x.pts pts }
  | none => s

/-- Launch, step and die set of a record enqueued from the device for a task of a launch, or of none (R40, R183). -/
def State.deviceRec (s : State) (l : Option Nat) (part : Nat) (rec : BitVec 512) : BitVec 512 × Option Nat × List Nat :=
  match s.launch? l with
  | some x => (recPut rec 176 16 x.step, some x.id, x.dset)
  | none => (recPut rec 176 16 0, none, (s.part part).dies)

/-! ## Service entries (R377, R434) -/

/-- A service entry waits to be written. -/
def State.service (s : State) (part : Nat) (e : SvcEntry) : State := s.updPart part fun p => { p with svc := p.svc ++ [e] }

/-! ## Join cells (R37, R180) -/

/-- What the end of a task meets: done, or a wait. -/
inductive JoinRes where
  | done (s : State)
  | recall (frag : Nat)
  | wait

/-- The record a join cell names is enqueued, or reported malformed (R180). -/
def enqueueSucc (s : State) (g : Group) (join succ : BitVec 64) (pts : BitVec 24) : JoinRes :=
  let w := engineWho s g.gid 0
  let bad : State := s.service g.part { kind := 3, arg := join, frame := 0, reqno := 0, service := 0, ctx := g.ctx, gid := g.gid, wid := 0 }
  match engineXlate s w succ 64 1 with
  | .bad _ _ => .done bad
  | .recall f => .recall f
  | .blocked => .wait
  | .ok a =>
    if a.fab.isSome || succ.toNat % 64 ≠ 0 || s.poisonedAt a.pa then .done bad
    else match (s.tlbFill a.fills).loadBlock w.core w.ctx a.pa 3 0 false with
      | .recall f => .recall f
      | .blocked => .wait
      | .sec x s1 =>
        if recBad x.data then .done bad
        else
          let (rec, l, D) := s1.deviceRec g.launch g.part x.data
          let seam := seamOf (recAff rec) D
          let (q, s2) := s1.newRec seam rec g.ctx g.part l .normal pts
          .done ((s2.putRec q (if s2.hubWaits g.part then .none else s2.roomFor seam g.part 0)).openTask l)

/-- The decrement of a task's join cell, a release at DEVICE scope, and what follows it. -/
def joinDec (s : State) (g : Group) : JoinRes :=
  let join := recJoin g.task
  let w := engineWho s g.gid 0
  let bad : State := s.service g.part { kind := 3, arg := join, frame := 0, reqno := 0, service := 0, ctx := g.ctx, gid := g.gid, wid := 0 }
  if join = 0 then .done s
  else match engineXlate s w join 16 2 with
    | .bad _ _ => .done bad
    | .recall f => .recall f
    | .blocked => .wait
    | .ok a =>
      if a.fab.isSome || s.poisonedAt a.pa then .done bad
      else match s.homeWait w.core w.ctx a.pa with
        | .recall f => .recall f
        | .blocked => .wait
        | .go =>
          let s0 := s.tlbFill a.fills
          let pts := (tsJoin (s.carry.find? (s.fwd a.pa / 16)) (some (s.cluster w.cl).pts)).getD 0
          let succ := BitVec.ofNat 64 (s0.atomRead w.core w.ctx (a.pa + 8) 8)
          let (old, s1) := s0.atomAt w.core w.ctx a.pa 0 .n32 0xFFFFFFFF 0 (some pts)
          if old = 1 && succ ≠ 0 then enqueueSucc s1 g join succ pts else .done s1

/-- The members of a task: its group, or its gang's groups. -/
def State.mates (s : State) (g : Group) : List Nat :=
  match g.gang.bind fun p => s.gangs.find? fun x => x.id == p.1 with
  | some x => x.members.map (·.2)
  | none => [g.gid]

/-- A task completes (R37): join cell, event (R184) with its SOURCE, step and launch. -/
def completeTask (s : State) (g : Group) (src : Nat) : JoinRes :=
  match joinDec s g with
  | .done s1 =>
    let cl := gidCl g.gid
    let s2 := if recEvent g.task then s1.postEvent cl 2 0 src (recTag g.task) else s1
    .done (s2.closeTask g.launch false (s2.cluster cl).pts)
  | r => r

/-! ## The assay table (R185, R188, R190) -/

/-- Assay ways of a context. -/
def State.aways (s : State) (ctx : Nat) : Nat := fld (s.context ctx).img 119 116

/-- The least recently used entry of a list. -/
def oldestAssay (l : List Assay) : Option Assay :=
  l.foldl (fun b x => match b with
    | some y => if x.lru < y.lru then some x else some y
    | none => some x) none

/-- Writes an entry (R185): over an entry of the same digest, over the context's own at its quota, in a free way, or over one of a
context over its quota. -/
def State.putAssay (s : State) (e : Assay) : State :=
  let quota := s.aways e.ctx
  if quota = 0 then s
  else
    let (n, s) := s.fresh
    let e := { e with lru := n }
    let here (a : Assay) : Bool := a.seam == e.seam && a.set == e.set
    let set := s.assay.filter here
    let mine := set.filter fun a => a.ctx == e.ctx
    let swap (o : Assay) : State := { s with assay := s.assay.filter (fun a => a != o) ++ [e] }
    match mine.find? fun a => a.tag == e.tag with
    | some o => swap o
    | none =>
      if mine.length ≥ quota then match oldestAssay mine with
        | some o => swap o
        | none => s
      else if set.length < 8 then { s with assay := s.assay ++ [e] }
      else match oldestAssay (set.filter fun a => decide ((set.filter fun b => b.ctx == a.ctx).length > s.aways a.ctx)) with
        | some o => swap o
        | none => s

/-- The seam, the set and the tag of a digest. -/
def digestPlace (d : BitVec 128) : Nat × Nat × BitVec 115 := (fld d 6 0, fld d 12 7, d.extractLsb' 13 115)

/-- The version of a live handle of a context. -/
def State.verOf (s : State) (ctx id : Nat) : Option (BitVec 64) := (s.handle? ctx id).map s.handleVer

/-- The completion of a missed pure task writes its entry if every input is as it was digested and no group of the task has parked with
PURITY (R190). -/
def State.assayDone (s : State) (g : Group) (spoiled : Bool) : State :=
  match g.pure with
  | none => s
  | some p =>
    if !spoiled && p.ins.all fun i => s.verOf g.ctx i.1 == some i.2 then
      let (seam, set, tag) := digestPlace p.digest
      s.putAssay { seam := seam, set := set, tag := tag, ctx := g.ctx, meas := p.meas, outs := p.outs.map fun i => (i, s.verOf g.ctx i), lru := 0 }
    else s

/-! ## The end of a group (R33, R61, R199, R455) -/

/-- Frees what a group held: ring slots, pair entries (a fabric pair's next use is a new run), bins, its frame's window; scratch that others
still write to is handed to no other group until they have. -/
def State.freeGroup (s : State) (g : Group) : State :=
  let cl := gidCl g.gid
  let fab : List Pair := g.pairs.filter fun p => isFabDest p.dest
  let old (r : Nat × Nat × Dest × BitVec 8) : Bool := fab.any fun p => r.1 == g.gid && r.2.1 == p.ch && r.2.2.1 == p.dest
  let s : State :=
    { s with groups := s.groups.erase g.gid, runs := s.runs.filter (fun r => !old r) ++ fab.map fun p => (g.gid, p.ch, p.dest, p.run + 1) }
  let s := (s.wantPass (gidDie g.gid) g.part).wrCells (cellsOf (recPlace g.gid) 64 0)
  let s := s.updCore (gidCore g.gid) fun c => { c with bins := c.bins.filter fun b => b.gid != g.gid }
  let freed (r : RingSlot) : RingSlot := if r.owner.any (fun o => o.1 == g.gid) then { r with owner := none, st := .free, sealing := false } else r
  s.updCluster cl fun c =>
    { c with
      ring := c.ring.map freed
      zombies := if g.scr.inbound = 0 then c.zombies else c.zombies ++ [(g.gid, { g.scr with bytes := [], desc := [], poison := [] })] }

/-- What a group's leaving its task comes to: whether it was the last of the task's groups, whether one was killed, whether one parked with
PURITY, and the state. -/
structure Leaving where
  last : Bool
  killed : Bool
  spoiled : Bool
  state : State

/-- A group leaves its gang (R35); a group of no gang is its task's only one. -/
def State.leaveGang (s : State) (g : Group) (killed : Bool) : Leaving :=
  let spoiled := g.pure.any Pure.spoiled
  match g.gang with
  | none => ⟨true, killed, spoiled, s⟩
  | some (gi, i) =>
    match s.gangs.find? fun x => x.id == gi with
    | none => ⟨true, killed, spoiled, s⟩
    | some x =>
      let x' := { x with ended := i :: x.ended, killed := x.killed || killed, spoiled := x.spoiled || spoiled }
      let last := x'.members.all fun m => x'.ended.contains m.1
      ⟨last, x'.killed, x'.spoiled, { s with gangs := if last then s.gangs.filter (fun y => y.id != gi) else s.gangs.map fun y => if y.id == gi then x' else y }⟩

/-- Something that a task's groups have stored has not been performed: the completion, a release at DEVICE scope, waits for it (R37, R399). -/
def State.taskInFlight (s : State) (g : Group) : Bool := s.packets.any fun p => p.st != .done && (s.mates g).contains p.gid

/-- Ends a group whose threads have exited: its task completes with the last group of it, unless TDONE has completed it or a group of it was
killed. -/
def State.endGroup (s : State) (g : Group) : JoinRes :=
  let l := s.leaveGang g false
  let fin (t : State) : State :=
    let t := t.freeGroup g
    match g.gang with
    | some (gi, _) => t.completeGbar gi
    | none => t
  if !l.last || g.tdone then .done (fin l.state)
  else if l.killed then .done (fin (l.state.closeTask g.launch true 0))
  else if s.taskInFlight g then .wait
  else match completeTask (l.state.assayDone g l.spoiled) g (sourceOf g.gid) with
    | .done s2 => .done (fin s2)
    | r => r

/-- TASK_COMPLETE (R37, R190, R237). -/
def execTaskComplete (gid : Nat) (s : State) : Out :=
  match s.group? gid with
  | none => .next s
  | some g =>
    if g.threads.all (fun t => t.run == .exited) && g.life == .running then
      match s.endGroup g with
      | .done t => .next t
      | .recall f => .next (s.askRecall f)
      | .wait => .next s
    else .next s

end Sys2Proof.Machine
end

