-- ==== Sys2Proof/Machine/TaskInstr.lean ====
section
/-!
DEFINITION. Task and event instructions: TENQ (R341), TDONE (R342), EVPOST (R345), EVREAD (R346), TREL (R347), AINV (R192, R348).
-/
namespace Sys2Proof.Machine
open Sys2Proof

/-! ## TENQ -/

/-- The blocks of TENQ's records, read as global loads: a record at a fabric address comes by MEMORY_RESPONSE first. -/
def readRecs (x : Enc) (s : State) (v : View) (ths : List Thread) (k : List (BitVec 512) → State → State) : State :=
  let w := who s
  let wants : List Want := ths.map fun t => { tid := t.tid, slot := t.slot, va := memAddr x v.warp t 64, size := 64, acc := 1, align := 64 }
  match checkAll s w w.owner wants with
  | .fault a sl f => raise a sl f s
  | .recall f => stallRecall f s
  | .blocked => stall s
  | .ok as =>
    let got (a : Acc) : Option Nat := (v.warp.fetched.find? fun p => p.1 == a.tid && p.2.1 == a.va).map (·.2.2)
    match (List.zip as ths).find? fun p => p.1.fab.isSome && (got p.1).isNone with
    | some (a, t) => sendRecord s v t x 64 a
    | none =>
      let locals := as.filter fun a => a.fab.isNone
      if xlatWait s w.core w.ctx locals || blockWait s w none locals || loadsWait s w.core locals then stall s
      else match locals.find? (fun a => s.poisonedAt a.pa) with
        | some a => raise a.tid a.slot (poisonFlt a.va 1 0) s
        | none => match readAll w true 1 0 (locals.map fun a => (a, 0)) (s.tlbFill (locals.flatMap Acc.fills)) with
          | .recall f => stallRecall f s
          | .blocked => stall s
          | .ok gs s2 =>
            let one (a : Acc) : BitVec 512 := match got a with
              | some n => BitVec.ofNat 512 n
              | none => ((gs.find? fun g => g.tid == a.tid).map fun g => g.sec.data).getD 0
            k (as.map fun a => if a.fab.isSome then one a else ((gs.find? fun g => g.tid == a.tid).map fun g => g.sec.data).getD 0) s2

/-- Enqueues records one after the other; none when one finds no room but the reserve (R182, R341). -/
def enqueueAll (ctx part : Nat) (launch : Option Nat) (pts : BitVec 24) : List (BitVec 512) → State → Option State
  | [], s => some s
  | r :: rs, s =>
    let (rec, l, D) := s.deviceRec launch part r
    let seam := seamOf (recAff rec) D
    match s.roomFor seam part 64 with
    | .none => none
    | room =>
      let (q, s1) := s.newRec seam rec ctx part l .normal pts
      enqueueAll ctx part launch pts rs ((s1.putRec q room).openTask l)

/-- TENQ (R341): all of its records, or none. The management core belongs to no partition, so no seam takes its records. -/
def execTenq (x : Enc) (s : State) : Out :=
  issue 0xD0 x s fun v =>
    let w := who s
    let ths := if isUni x.a then (v.P x).take 1 else v.P x
    match v.P x with
    | [] => finish x 1 s v
    | t0 :: _ =>
      if (pureNow s).isSome then takeFaultAt t0.tid t0.slot { code := cPurity, info := 5 } s
      else readRecs x s v ths fun recs s1 =>
        match (List.zip recs ths).find? fun p => recBad p.1 with
        | some (_, t) => takeFaultAt t.tid t.slot (ownIll 0xD0 x) s1
        | none =>
          if inFlight s1 w.gid (ths.map Thread.tid) then stall s1
          else
            let launch := (s.group? w.gid).bind Group.launch
            match (if w.phys || s1.hubWaits w.part then none else enqueueAll w.ctx w.part launch (s1.clock (clockOf w.core)) recs s1) with
            | none => takeFaultAt t0.tid t0.slot (quotaFlt 4) s1
            | some s2 => retire x (if isUni x.a then 1 else vcost x v) s2

/-! ## TDONE -/

/-- TDONE (R342, R38): the first of a task completes it. -/
def execTdone (x : Enc) (s : State) : Out :=
  issue 0xD1 x s fun v =>
    match v.P x, s.group? (who s).gid with
    | t :: _, some g =>
      if g.pure.isSome then takeFault { code := cPurity, info := 5 } s
      else if g.tdone then finish x 1 s v
      else if inFlight s g.gid [t.tid] then stall s
      else match completeTask s g (sourceOf g.gid) with
        | .recall f => stallRecall f s
        | .wait => stall s
        | .done s1 => retire x 1 ((s.mates g).foldl (fun s m => s.updGroup m fun k => { k with tdone := true }) s1)
    | _, _ => finish x 1 s v

/-! ## Events (R184, R345, R346) -/

/-- EVPOST (R345): a full queue stalls the warp. The management core has no cluster and no queue to post to. -/
def execEvpost (x : Enc) (s : State) : Out :=
  issueS 0xD3 x s fun v =>
    let w := who s
    if (pureNow s).isSome then takeFault { code := cPurity, info := 5 } s
    else if w.phys then finish x 1 s v
    else if (s.cluster w.cl).evq.length ≥ 256 then stall s
    else retire x 1 (s.postEvent w.cl 3 0 (sourceOf w.gid) (rdU v.warp x.a))

/-- The oldest record of the queue leaves it, into s(D) and s(D+1). -/
def takeEvent (x : Enc) (s : State) (v : View) (e : BitVec 128) : State :=
  let d := x.d.toNat - 0xC0
  let s1 := s.updCluster (who s).cl fun c => { c with evq := c.evq.drop 1 }
  finish x 1 s1 ⟨(v.warp.wrS d (e.extractLsb' 0 64)).wrS (d + 1) (e.extractLsb' 64 64), v.ths⟩

/-- EVREAD (R346): stalls while the queue is empty. -/
def execEvread (x : Enc) (s : State) : Out :=
  issueS 0xD4 x s fun v =>
    match (s.cluster (who s).cl).evq with
    | [] => stall s
    | e :: _ => takeEvent x s v e

/-- EVREAD.nb (R346): zeros from an empty queue. -/
def execEvreadNb (x : Enc) (s : State) : Out :=
  issueS 0xD4 x s fun v =>
    match (s.cluster (who s).cl).evq with
    | [] => takeEvent x s v 0
    | e :: _ => takeEvent x s v e

/-- TREL (R347): releases the HELD records of the foreman's die and partition that carry the tag; their wait for aging starts. -/
def execTrel (x : Enc) (s : State) : Out :=
  issueS 0xD5 x s fun v =>
    let w := who s
    let tag := rdU v.warp x.a
    let hit (q : QRec) : Bool := !w.phys && q.held && !q.waiting && q.part == w.part && q.seam / 16 == w.die && recTag q.record == tag
    let n := (s.queue.filter hit).length
    let s1 := { s with queue := s.queue.map fun q => if hit q then { q with held := false, since := s.ptime, aging := (s.part q.part).aging } else q }
    let s1 := (s.queue.filter hit).foldl (fun s q => s.wantPass (q.seam / 16) q.part) s1
    finish x 1 s1 ⟨wrU v.warp x.d (BitVec.ofNat 64 (min n 0xFFFFFFFF)), v.ths⟩

/-! ## AINV (R192) -/

/-- Purges entries of a context. -/
def State.purgeAssay (s : State) (ctx : Nat) (p : Assay → Bool) : State := { s with assay := s.assay.filter fun a => !(a.ctx == ctx && p a) }

def ainvWith (x : Enc) (s : State) (p : View → Assay → Bool) : Out :=
  issueS 0xD6 x s fun v =>
    if (pureNow s).isSome then takeFault { code := cPurity, info := 8 } s
    else retire x 1 (s.purgeAssay (who s).ctx (p v))

/-- AINV.all (R192). -/
def execAinvAll (x : Enc) (s : State) : Out := ainvWith x s fun _ _ => true

/-- AINV.meas (R192). -/
def execAinvMeas (x : Enc) (s : State) : Out := ainvWith x s fun v a => a.meas == rdU v.warp x.a

end Sys2Proof.Machine
end

