-- ==== Sys2Proof/Machine/Hub.lean ====
section
/-!
DEFINITION. Accesses of HUB and of the scheduler to a context's memory (R396, R397, R377, R432, R433): through its translation, at the homes,
as an agent that is no cluster.
-/
namespace Sys2Proof.Machine
open Sys2Proof

/-- What a HUB access comes to. -/
inductive HubRes (α : Type) where
  | ok (v : α) (s : State)
  | fail
  | recall (frag : Nat)
  | wait

/-- Physical addresses of `n` bytes of a context, one by one; none where one does not translate or is a hole, poisoned or on a lost die. -/
def hubAddrs (s : State) (ctx acc : Nat) : Nat → BitVec 64 → HubRes (List Nat)
  | 0, _ => .ok [] s
  | n + 1, va =>
    if isFabric va then .fail
    else match translate s (tlbDie 0) 0 ctx va acc with
      | .fail _ => .fail
      | .recall f => .recall f
      | .blocked => .wait
      | .ok r =>
        if s.waitsAt r.pa then .wait
        else if s.poisonedAt r.pa then .fail
        else match s.recallFor none r.pa with
          | some f => .recall f
          | none => match hubAddrs s ctx acc n (va + 1) with
            | .ok l t => .ok (r.pa :: l) t
            | e => e

/-- `n` bytes of a context's memory. -/
def hubRead (s : State) (ctx : Nat) (va : BitVec 64) (n : Nat) : HubRes (List Byte) :=
  match hubAddrs s ctx 1 n va with
  | .ok l t => .ok (l.map t.rdByte) (l.foldl (fun t pa => t.touch ctx pa) t)
  | .fail => .fail
  | .recall f => .recall f
  | .wait => .wait

/-- What a write of the host, HUB or another accelerator carries (R113, R130): the latest pts, or the latest timestamp that such a write has
itself left on a fragment, when that is later (log entry 60). -/
def State.hubPts (s : State) : BitVec 24 := if (s.hostPts - s.pmax).toNat ≤ 2 ^ 16 then s.hostPts else s.pmax

/-- A write of bytes of one block by an agent that is no cluster (R151). -/
def State.hubBlock (s : State) (pa : Nat) (cs : List (Nat × Byte)) (da : DescAct) : State :=
  let s := s.storeBlock 768 0 pa cs da (some s.hubPts)
  match s.frag? pa with
  | some f => { s with hostPts := tsMax s.hubPts f.wts }
  | none => s

/-- Writes bytes at homes, block by block, as a release of an agent that is no cluster: descriptors become RAW (R77). -/
def hubStore (s : State) (cells : List (Nat × Byte)) : State :=
  ((cells.foldl (fun (m : SMap Unit) c => m.insert (c.1 / 64) ()) []).map (·.1)).foldl (fun s b =>
    s.hubBlock (b * 64) (cells.filter fun c => c.1 / 64 == b) .raw) s

/-- Blocks of physical addresses that HUB may act on now. -/
def physReady (s : State) (pas : List Nat) : HubRes Unit :=
  if pas.any s.waitsAt then .wait
  else match pas.findSome? (s.recallFor none) with
    | some f => .recall f
    | none => .ok () s

/-- An access waits at its home. -/
def State.enqueue (s : State) (q : Queued) : State := if s.queued.contains q then s else { s with queued := s.queued ++ [q] }

/-- Writes bytes of a context's memory. -/
def hubWrite (s : State) (ctx : Nat) (va : BitVec 64) (bs : List Byte) : HubRes Unit :=
  match hubAddrs s ctx 2 bs.length va with
  | .ok l t => .ok () (hubStore (l.foldl (fun t pa => t.touch ctx pa) t) (List.zip l bs))
  | .fail => .fail
  | .recall f => .recall f
  | .wait => .wait

/-- Physical bytes that HUB reads: Flistad and host memory; a region of mode 3 translates to nothing (R65). -/
def hubPhys (s : State) (pa n : Nat) : HubRes (List Byte) :=
  let l := (List.range n).map (pa + ·)
  if l.any fun a => a ≥ 2 ^ 48 || targetOf a == .nothing || (isFlistad a && fld (s.regionOf a) 1 0 == 3) || (match targetOf a with
    | .site k => !s.siteUp k
    | _ => false) || s.poisonedAt a then .fail
  else if l.any s.waitsAt then .wait
  else match l.findSome? (s.recallFor none) with
    | some f => .recall f
    | none => .ok (l.map s.rdByte) s

/-- The state an event leaves when it must wait. -/
def HubRes.waits {α : Type} (s : State) : HubRes α → State
  | .recall f => s.askRecall f
  | _ => s

end Sys2Proof.Machine
end

