-- ==== Sys2Proof/Machine/Ingress.lean ====
section
/-!
DEFINITION. Requests from the fabric: the export table and what it refuses (R459, R460), the ingress that sequences tagged packets
(R455, R456), and the kept results of atomics (R458). The device's own requests to its own ACCELID come here too (R56).
-/
namespace Sys2Proof.Machine
open Sys2Proof

/-! ## Requests -/

def reqKey (p : FabPacket) (tag : BitVec 64) : PairKey := ⟨p.src, tagGid tag, tagCh tag, fabLane p.xaddr⟩

/-- What a write does to the descriptor of its block (R77, R455). -/
def reqDesc (p : FabPacket) : DescAct :=
  match p.tag with
  | some t => if tagDv t then .put (tagDesc t) else .raw
  | none => .raw

/-! ## The export table (R459) -/

/-- An entry that is unused, or treated as unused: PAGES zero, a reserved bit set, or a misaligned base. -/
def expUnused (e : BitVec 256) : Bool :=
  fld e 127 96 == 0 || fld e 95 86 != 0 || fld e 55 3 != 0 || fld e 207 192 != 0 || fld e 255 244 != 0 || fld e 143 128 != 0 || fld e 191 181 != 0

/-- The first entry that decides a request (R460). -/
def State.exportEntry (s : State) (src x : Nat) : Option (BitVec 256) :=
  (List.find? (fun (p : Nat × BitVec 256) =>
    !expUnused p.2 && decide (fld p.2 191 128 ≤ x) && decide (x < fld p.2 191 128 + fld p.2 127 96 * 65536) &&
      (src ^^^ fld p.2 75 66) &&& fld p.2 85 76 == 0) s.exports).map (·.2)

/-- The physical address of a piece of a request within one block: 1 read, 2 write, 3 atomic. `fail` is a refusal. -/
def exportAt (s : State) (src x size acc : Nat) : HubRes Nat :=
  match s.exportEntry src x with
  | none => .fail
  | some e =>
    let ctx := fld e 65 56
    let va := BitVec.ofNat 64 (fld e 255 192 + (x - fld e 191 128))
    let allowed := if acc = 1 then bit e 0 else if acc = 2 then bit e 1 else bit e 0 && bit e 1 && bit e 2
    if !allowed || (s.context ctx).st != .active || s.inDeadWin ctx va then .fail
    else match translate s (tlbDie 0) 0 ctx va acc with
      | .fail _ => .fail
      | .recall f => .recall f
      | .blocked => .wait
      | .ok r =>
        if acc ≠ 1 && frameRo s ctx (s.fwd r.pa) size then .fail
        else if s.waitsAt r.pa then .wait
        else if s.poisonedAt r.pa then .fail
        else match s.recallFor none r.pa with
          | some f => .recall f
          | none => .ok r.pa ((s.tlbFill r.fills).touch ctx r.pa)

/-- The pieces of a request, block by block: address and bytes. -/
def pieces (x n : Nat) : List (Nat × Nat) :=
  if n = 0 then []
  else (List.range ((x + n - 1) / 64 - x / 64 + 1)).map fun i =>
    let b := (x / 64 + i) * 64
    let lo := max x b
    (lo, min (x + n) (b + 64) - lo)

/-- The pieces of a write: one of no bytes with DV set writes its block's descriptor alone, as a DSET does (R77; log entry 64). -/
def fabWrites (p : FabPacket) (n : Nat) : List (Nat × Nat) :=
  if n = 0 && p.tag.any tagDv then [(p.xaddr, 0)] else pieces p.xaddr n

/-- Places of all pieces. -/
def exportAll (src acc : Nat) : List (Nat × Nat) → State → HubRes (List (Nat × Nat))
  | [], s => .ok [] s
  | (x, n) :: l, s =>
    match exportAt s src x n acc with
    | .ok pa t => match exportAll src acc l t with
      | .ok r u => .ok ((pa, n) :: r) u
      | e => e
    | .fail => .fail
    | .recall f => .recall f
    | .wait => .wait

/-- Writes the bytes of a request at their places. -/
def putPieces (da : DescAct) : List (Nat × Nat) → List (Option Byte) → State → State
  | [], _, s => s
  | (pa, n) :: l, bs, s =>
    putPieces da l (bs.drop n) (s.hubBlock pa (((bs.take n).mapIdx fun i b => (pa + i, b)).filterMap fun q => q.2.map fun b => (q.1, b)) da)

/-- A refusal adds 1 to EXPREFUSE (R460). -/
def State.countRefusal (s : State) (src : Nat) : State :=
  { s with expCount := if s.expCount = 0xFFFFFFFF then s.expCount else s.expCount + 1, expSrc := BitVec.ofNat 10 src }

/-- Performs a request, or refuses it (R460): the answer, and for an atomic its result and home die. -/
def fabPerform (p : FabPacket) (s : State) : HubRes (FabBody × Option (List Byte × Nat)) :=
  let refuse : HubRes (FabBody × Option (List Byte × Nat)) := .ok (.refused, none) (s.countRefusal p.src)
  match p.kind with
  | .read n =>
    if n > 256 then refuse
    else match exportAll p.src 1 (pieces p.xaddr n) s with
      | .ok l t =>
        let d := match l with
          | [(pa, 64)] => some (t.descOf pa)
          | _ => none
        .ok (.data (l.flatMap fun q => t.rdBytes q.1 q.2) d, none) t
      | .fail => refuse
      | .recall f => .recall f
      | .wait => .wait
  | .write bs =>
    if bs.length > 256 then refuse
    else match exportAll p.src 2 (fabWrites p bs.length) s with
      | .ok l t => .ok (.done, none) (putPieces (reqDesc p) l bs t)
      | .fail => refuse
      | .recall f => .recall f
      | .wait => .wait
  | .atomic op ty c e =>
    let t := (Ty.ofCode ty).getD .b32
    if p.xaddr % t.bytes ≠ 0 then refuse
    else match exportAt s p.src p.xaddr t.bytes 3 with
      | .ok pa u =>
        if targetOf pa == .host && !((op == 0 && t.isInt) || op == 6 || op == 7) then refuse
        else
          let (old, w) := u.atomAt 768 0 pa op t c.toNat e.toNat (some u.hubPts)
          let bs := (List.range t.bytes).map fun i => BitVec.ofNat 8 (old / 256 ^ i)
          .ok (.data bs none, some (bs, u.homeDie (u.fwd pa))) w
      | .fail => refuse
      | .recall f => .recall f
      | .wait => .wait

/-! ## Sequencing (R456) -/

def State.rpair? (s : State) (k : PairKey) : Option RPair := s.rpairs.find? fun q => q.key == k
def State.updRpair (s : State) (k : PairKey) (f : RPair → RPair) : State := { s with rpairs := updFirst (fun q => q.key == k) f s.rpairs }

/-- Packets the resequencing buffer holds. -/
def State.ingressHeld (s : State) : Nat := (s.rpairs.map fun q => q.held.length).foldl (· + ·) 0

def reqSeq (p : FabPacket) : BitVec 16 := (p.tag.map tagSeq).getD 0
def reqRead (p : FabPacket) : Bool := match p.kind with
  | .read _ => true
  | _ => false

/-- The number a pair expects has passed `n`. -/
def seqPassed (e n : BitVec 16) : Bool := decide (1 ≤ (e - n).toNat ∧ (e - n).toNat ≤ 32767)

def reqAnswer (p : FabPacket) (b : FabBody) : FabMsg :=
  { dst := p.src, key := reqKey p (p.tag.getD 0), tag := p.tag, body := b }

/-- Results of atomics kept on a die. -/
def State.keptOn (s : State) (die : Nat) : Nat := (s.kept.filter fun k => k.2.2.2 == die).length

/-- How the packet a pair expects ends: answered, or it waits. -/
inductive Arrived where
  | answered (b : FabBody) (s : State)
  | waits (s : State)

/-- Performs the packet of the number its pair expects. An atomic for which its home die has no free place for a result is NACKed. -/
def ingressDo (k : PairKey) (p : FabPacket) (s : State) : Arrived :=
  let next (t : State) : State := t.updRpair k fun q => { q with expect := q.expect + 1 }
  match fabPerform p s with
  | .ok (b, some (v, die)) t =>
    if s.keptOn die ≥ 1024 then .answered (.nack false) s
    else .answered b (next { t with kept := t.kept ++ [(k, reqSeq p, v, die)] })
  | .ok (b, none) t => .answered b (next t)
  | .recall f => .waits ((s.askRecall f).enqueue (.request p))
  | _ => .waits (s.enqueue (.request p))

/-- Performs the held successors of a pair, and the loads that have waited for them. -/
def ingressDrain (k : PairKey) : Nat → State → List FabMsg × State
  | 0, s => ([], s)
  | n + 1, s =>
    match s.rpair? k with
    | none => ([], s)
    | some q =>
      match q.held.find? fun p => if reqRead p then seqPassed q.expect (reqSeq p) else reqSeq p == q.expect with
      | none => ([], s)
      | some p =>
        let drop (t : State) : State := t.updRpair k fun q => { q with held := dropFirst (· == p) q.held }
        let r : Arrived := if reqRead p then (match fabPerform p s with
            | .ok (b, _) t => .answered b t
            | .recall f => .waits (s.askRecall f)
            | _ => .waits s) else (match ingressDo k p s with
            | .waits t => .waits { t with queued := t.queued.filter (· != .request p) }
            | r => r)
        match r with
        | .waits t => ([], t)
        | .answered b t =>
          let rest := ingressDrain k n (drop t)
          (reqAnswer p b :: rest.1, rest.2)

/-- Holds a packet, or NACKs it when the buffer is full. -/
def ingressHold (k : PairKey) (p : FabPacket) (s : State) : List FabMsg × State :=
  if s.ingressHeld ≥ 2048 then ([reqAnswer p (.nack false)], s)
  else ([], s.updRpair k fun q => { q with held := q.held ++ [p], seen := s.ptime })

/-- A read from the fabric (R456): held behind stores with AFTER. -/
def ingressRead (k : PairKey) (tag : BitVec 64) (p : FabPacket) (s : State) : List FabMsg × State :=
  let s := s.updRpair k fun q => if q.run == tagRun tag then { q with seen := s.ptime } else q
  let hold := tagAfter tag && (match s.rpair? k with
    | some q => q.run == tagRun tag && !seqPassed q.expect (tagSeq tag)
    | none => false)
  if hold then ingressHold k p s
  else match fabPerform p s with
    | .ok (b, _) t => ([reqAnswer p b], t)
    | .recall f => ([], (s.askRecall f).enqueue (.request p))
    | _ => ([], s.enqueue (.request p))

/-- A run start opens the pair or its new run; a packet of the run the pair is in already opens nothing. -/
def ingressRun (k : PairKey) (tag : BitVec 64) (s : State) : Option State :=
  if !tagRs tag then some s
  else match s.rpair? k with
    | some q =>
      if q.run == tagRun tag then some s
      else some (s.updRpair k fun q => { q with run := tagRun tag, expect := tagSeq tag, held := [], seen := s.ptime })
    | none =>
      if s.rpairs.length ≥ 4096 then none
      else some { s with rpairs := s.rpairs ++ [{ key := k, run := tagRun tag, expect := tagSeq tag, held := [], seen := s.ptime }] }

/-- A channel operation from the fabric (R456). -/
def ingressOp (k : PairKey) (tag : BitVec 64) (p : FabPacket) (s : State) : List FabMsg × State :=
  match ingressRun k tag s with
  | none => ([reqAnswer p (.nack false)], s)
  | some s =>
    match s.rpair? k with
    | none => ([reqAnswer p (.nack true)], s)
    | some q =>
      if q.run != tagRun tag then ([], s)
      else
        let s := s.updRpair k fun q => { q with seen := s.ptime }
        let d := (tagSeq tag - q.expect).toNat
        if d = 0 then
          match ingressDo k p s with
          | .waits t => ([], t)
          | .answered b t =>
            let rest := ingressDrain k 2048 (t.updRpair k fun q => { q with held := q.held.filter (· != p) })
            (reqAnswer p b :: rest.1, rest.2)
        else if d ≤ 32767 then
          if q.held.any fun h => !reqRead h && reqSeq h == reqSeq p then ([], s) else ingressHold k p s
        else
          -- a duplicate: acknowledged again, an atomic with its kept result
          match s.kept.find? fun r => r.1 == k && r.2.1 == reqSeq p with
          | some r => ([reqAnswer p (.data r.2.2.1 none)], s)
          | none => ([reqAnswer p .done], s)

/-- The arrival of a packet at the ingress; one whose home makes it wait is queued there (R427). -/
def ingress (p : FabPacket) (s : State) : List FabMsg × State :=
  match p.tag with
  | none => match fabPerform p s with
    | .ok (b, _) t => ([reqAnswer p b], t)
    | .recall f => ([], (s.askRecall f).enqueue (.request p))
    | _ => ([], s.enqueue (.request p))
  | some tag =>
    let k := reqKey p tag
    if reqRead p then ingressRead k tag p s else ingressOp k tag p s

end Sys2Proof.Machine
end

