-- ==== Sys2Proof/Machine/Respond.lean ====
section
/-!
DEFINITION. The ends of outstanding accesses: MEMORY_RESPONSE (R209, R273, R136, R460, R461).
-/
namespace Sys2Proof.Machine
open Sys2Proof

/-- The issue an outstanding access belongs to. -/
def OutLoad.cur (l : OutLoad) : Cur :=
  { agent := if l.gid < 131072 then .warp l.gid l.wid else if l.gid = mgmtGid then .mgmt else .foreman (l.gid - 131072), pc := l.pc, path := l.path }

def State.updLoad (s : State) (id : Nat) (f : OutLoad → OutLoad) : State := { s with loads := updFirst (fun l => l.id == id) f s.loads }

/-- A part asks another accelerator than this one. -/
def LoadPart.foreign (own : Nat) (p : LoadPart) : Bool := match p.place with
  | .fabric a _ => a != own
  | .mem _ => false

/-- Gives the waiting parts of other accelerators their answers, in order. -/
def assign (own : Nat) : List LoadPart → List FabAnswer → List LoadPart
  | [], _ => []
  | p :: ps, as =>
    if p.waits && p.foreign own then
      match as with
      | .value v :: r => { p with value := some v } :: assign own ps r
      | .refused :: r => { p with failed := true } :: assign own ps r
      | .waiting :: r => p :: assign own ps r
      | [] => p :: assign own ps []
    else p :: assign own ps as

/-! ## Accesses that packets carry -/

/-- The part of an outstanding access that a packet answers. -/
def State.answerPart (s : State) (p : Packet) (f : LoadPart → LoadPart) : State :=
  match p.load with
  | some id => s.updLoad id fun l => { l with parts := l.parts.map fun q => if q.tid == p.tid && q.waits then f q else q }
  | none => s

/-- A packet's access has failed: an atomic that returns nothing sets RFAIL in its thread all the same (R136, R460). -/
def State.failPacket (s : State) (p : Packet) : State :=
  match p.pay, p.load with
  | .atom .., none => s.mapThreads p.gid fun t => if p.of t.tid then { t with rfail := true } else t
  | _, _ => s.answerPart p fun q => { q with failed := true }

/-- The response of a packet's access is still on its way. -/
def State.awaited (s : State) (p : Packet) : Bool :=
  p.load.any fun n => s.loads.any fun l => l.id == n && l.parts.any fun q => q.tid == p.tid && q.waits

/-! ## Accesses to the device's own ACCELID (R56) -/

/-- What a request of an access asks for, and what its answer makes of it. -/
def selfRead (s : State) (l : OutLoad) (p : LoadPart) (x : Nat) : HubRes LoadPart :=
  let ask (x n : Nat) (f : List Byte → BitVec 16 → Nat) : HubRes LoadPart :=
    match fabPerform { src := s.accelId.toNat, xaddr := x, kind := .read n, tag := some p.tag } s with
    | .ok (.data bs d, _) t => .ok { p with value := some (BitVec.ofNat 128 (f bs (d.getD rawDesc))) } t
    | .ok _ t => .ok { p with failed := true } t
    | .fail => .fail
    | .recall f => .recall f
    | .wait => .wait
  let block (f : List Byte → BitVec 16 → Nat) : HubRes LoadPart := ask (x / 64 * 64) 64 f
  match l.kind with
  | .dget => block fun _ d => d.toNat * 2 ^ 112
  | .ldb => block fun bs d =>
      let fmt := fld d 15 8
      elemCode ((blkBits fmt).getD 32) (p.idx % blkElems fmt) (fun i => bs.getD i 0) + d.toNat * 2 ^ 112
  | .copy => if p.idx ≥ 2 ^ 70 then block fun _ d => d.toNat * 2 ^ 112 else ask x 16 fun bs _ => leNat bs
  | _ => ask x l.size fun bs _ => leNat bs

/-- An access on a channel waits for the earlier stores of its group there to the same destination (R124). -/
def afterWaits (s : State) (l : OutLoad) (x : Nat) : Bool :=
  s.packets.any fun p => p.gid == l.gid && p.dest == .fab s.accelId.toNat (fabLane x) && p.st != .done && decide (p.id < l.id) &&
    (p.ch == l.enc.w2.ch.toNat || p.pay.place / 64 == x / 64)

/-- Resolves the waiting parts that read the device itself through the fabric. -/
def selfAll (l : OutLoad) : List LoadPart → State → List LoadPart × State
  | [], s => ([], s)
  | p :: ps, s =>
    let r : LoadPart × State := match p.place with
      | .fabric a x =>
        if !p.waits || p.foreign s.accelId.toNat || a != s.accelId.toNat || l.kind == .atomic || afterWaits s l x then (p, s)
        else match selfRead s l p x with
          | .ok q t => (q, t)
          | .recall f => (p, s.askRecall f)
          | _ => (p, s)
      | .mem _ => (p, s)
    let rest := selfAll l ps r.2
    (r.1 :: rest.1, rest.2)

/-! ## Completion -/

/-- A value as the destination receives it: all ones where the access failed; an LDB decodes its element. -/
def partValue (l : OutLoad) (p : LoadPart) : Nat × Flags :=
  let v := (p.value.getD 0).toNat
  let fab := match p.place with
    | .fabric .. => true
    | .mem _ => false
  if p.failed then (2 ^ (8 * l.size) - 1, 0)
  else if l.kind == .dget && fab then (v / 2 ^ 112, 0)
  else if l.kind == .ldb && fab then
    let d := BitVec.ofNat 16 (v / 2 ^ 112)
    let (m, sat) := modeHi (fld l.enc.mod 7 5) l.rmode
    l.enc.ty.fmt.deliver m sat l.dmode (elemValue l.dmode (fld d 15 8) (fld d 7 0) (v % 2 ^ 64))
  else (v, 0)

/-- The answer of the fabric that LDB refuses (R78, R292). -/
def partBad (l : OutLoad) (p : LoadPart) : Bool :=
  l.kind == .ldb && !p.failed && (match p.place with
    | .fabric .. => true
    | .mem _ => false) && !descReadable (BitVec.ofNat 16 ((p.value.getD 0).toNat / 2 ^ 112))

/-- The path stands at its instruction again. -/
def backTo (l : OutLoad) (s : State) : State :=
  if l.gid < 131072 then s.mapThreads l.gid fun t => if l.path.contains t.tid && t.run == .path then { t with pc := l.pc } else t
  else if l.gid = mgmtGid then s else s.updCluster (l.gid - 131072) fun c => { c with fore := { c.fore with th := { c.fore.th with pc := l.pc } } }

/-- REMOTE (R273, R430). -/
def remoteFlt (l : OutLoad) (p : LoadPart) : Flt :=
  { code := cRemote, info := (match p.place with
      | .fabric a _ => a
      | .mem _ => 0), aux := BitVec.ofNat 64 l.limit, addr := p.addr, acc := if l.kind == .atomic then 3 else 1 }

/-- Threads of failed accesses get RFAIL (R273). -/
def markFail (l : OutLoad) (s : State) : State :=
  let bad := (l.parts.filter LoadPart.failed).map LoadPart.tid
  if bad.isEmpty then s
  else match view s with
    | some v => putView s ⟨v.warp, v.ths.map fun t => if bad.contains t.tid then { t with rfail := true } else t⟩
    | none => s

/-- Writes what an access brought to the registers of its threads. `rs` gives thread, value, flags and what the location carried. -/
def deliverLoad (l : OutLoad) (rs : List (Nat × Nat × Flags × Option (BitVec 24))) (s : State) : State :=
  match view s with
  | none => s
  | some v =>
    let acq := if l.kind == .atomic then l.ord.toNat % 2 == 1 else l.ord == 1
    let s := if acq then s.acquire (who s) l.scope.toNat (rs.map fun r => r.2.2.2) else s
    if l.noret then s
    else putView s (v.place l.enc l.d l.size rs)

/-- The end of a copy's remote read (R168, R460, R461): a refused block ends the command with CODE 2. -/
def copyArrived (l : OutLoad) (s : State) : State :=
  let cl := gidCl l.gid
  match (s.cluster cl).copyQ.find? fun c => c.wait == some l.id with
  | none => s
  | some c =>
    if l.parts.any LoadPart.failed then s.finishCopy cl c 2 false
    else s.updCopy cl c.id fun c =>
      { c with wait := none, data := l.parts.foldl (fun m p => SMap.insert m p.idx (p.value.getD 0)) c.data }

/-- A record's units as one number. -/
def recordValue (ps : List LoadPart) : Nat :=
  ps.foldl (fun n p => n + (if p.failed then 2 ^ 128 - 1 else (p.value.getD 0).toNat) * 2 ^ (128 * p.idx)) 0

/-- An access all of whose parts have answered: its registers are written, or the fault of an answer is raised. -/
def completeLoad (l : OutLoad) (s : State) : State :=
  let s : State := { s with loads := s.loads.filter fun k => k.id != l.id }
  if l.kind == .copy then copyArrived l s
  else
    let s : State := { s with cur := l.cur }
    let failed := l.parts.find? LoadPart.failed
    let t : State := match (if l.remote then failed else none) with
      | some p => takeFaultAt p.tid p.slot (remoteFlt l p) (backTo l s)
      | none => match l.parts.find? (partBad l) with
        | some p => takeFaultAt p.tid p.slot (formatFlt p.addr (BitVec.ofNat 16 ((p.value.getD 0).toNat / 2 ^ 112))) (backTo l s)
        | none =>
          if l.kind == .record then
            let tid := (l.parts.head?.map LoadPart.tid).getD 0
            let va := (l.parts.head?.map LoadPart.addr).getD 0
            mapWarp (markFail l s) fun w => { w with fetched := w.fetched ++ [(tid, va, recordValue l.parts)] }
          else deliverLoad l (l.parts.map fun p => let r := partValue l p; (p.tid, r.1, r.2, p.seen)) (markFail l s)
    { t with cur := {} }

/-- Reads the parts of a deferred load that lie in the module's memory, where they are now: a site that is not up answers all ones and
RFAIL (R486), poison raises POISON. -/
inductive LocalRes where
  | ok (l : OutLoad) (s : State)
  | poison (p : LoadPart)
  | recall (frag : Nat)
  | blocked

def localParts (l : OutLoad) (s : State) : LocalRes :=
  let dead (pa : Nat) : Bool := match targetOf pa with
    | .site n => (s.sites.getD {} n).st != 2
    | _ => false
  let ps := l.parts.map fun p => match p.place with
    | .mem pa => if p.waits && dead pa then { p with failed := true } else p
    | .fabric .. => p
  -- the accesses of one instruction are performed in any mix: which of them now is a free choice (R103, R358)
  let all := ps.filter fun p => p.waits && (match p.place with
    | .mem _ => l.kind != .atomic
    | .fabric .. => false)
  let todo := if all.length ≤ 1 then all else ((all.mapIdx fun i p => (i, p)).filter fun q => Config.choice (s.free + q.1)).map (·.2)
  let s := if all.length ≤ 1 then s else { s with free := s.free + all.length }
  let acc (p : LoadPart) : Acc := { tid := p.tid, slot := p.slot, va := p.addr, size := l.size, pa := (match p.place with
    | .mem pa => pa
    | .fabric .. => 0) }
  match todo.find? fun p => s.poisonedAt (acc p).pa with
  | some p => .poison p
  | none =>
    match readAll (who { s with cur := l.cur }) true l.scope.toNat l.enc.w2.hint.toNat (todo.map fun p => (acc p, p.idx)) s with
    | .recall f => .recall f
    | .blocked => .blocked
    | .ok gs t =>
      let fill (p : LoadPart) : LoadPart := match p.place with
        | .mem _ => match gs.find? fun g => g.tid == p.tid with
          | some g => if p.waits && todo.any fun q => q.tid == p.tid then { p with value := some (BitVec.ofNat 128 (loadValue l.kind l.enc l.rmode l.dmode l.size g.off g.idx g.sec).1), seen := g.seen } else p
          | none => p
        | .fabric .. => p
      .ok { l with parts := ps.map fill } t

/-- MEMORY_RESPONSE (R209): the answers of other accelerators arrive, the module's own memory answers, and once nothing is outstanding
the access completes. -/
def execMemoryResponse (n : Nat) (data : List FabAnswer) (s : State) : Out :=
  match s.loads.find? fun l => l.id == n with
  | none => .next s
  | some l =>
    let own := s.accelId.toNat
    let parts := assign own l.parts data
    -- an atomic whose result has come has been performed; its result is acknowledged (R458)
    let answered := (List.zipWith (fun (p q : LoadPart) => (p, q)) l.parts parts).filterMap fun (p : LoadPart × LoadPart) =>
      if p.1.waits && !p.2.waits then some p.2.tid else none
    let hit (p : Packet) : Bool := p.load == some n && answered.contains p.tid
    let s0 : State := if l.kind == .atomic then
        (s.packets.filter hit).foldl (fun s p => match p.dest with
            | .fab a lane => s.sendMsg { dst := a, key := ⟨own, p.gid, p.ch, lane⟩, tag := some (tagOf p.gid p.ch p.seq p.run p.rs none), body := .done }
            | _ => s)
          { s with packets := s.packets.map fun p => if hit p then { p with st := .done } else p }
      else s
    let (parts, s1) := selfAll l parts s0
    -- a request that no port could carry goes now (R453, R458)
    let (parts, s1) := s1.sendParts l.kind parts
    let l := { l with parts := parts }
    let keep (l : OutLoad) (s : State) : State := s.updLoad n fun _ => l
    match localParts l s1 with
    | .recall f => .next (keep l (s1.askRecall f))
    | .blocked => .next (keep l s1)
    | .poison p =>
      let s2 : State := { s1 with cur := l.cur, loads := s1.loads.filter fun k => k.id != n }
      .next (takeFaultAt p.tid p.slot (poisonFlt p.addr 1 0) (backTo l s2))
    | .ok l s2 => .next (if l.parts.any LoadPart.waits then keep l s2 else completeLoad l s2)

end Sys2Proof.Machine
end

