-- ==== Sys2Proof/Machine/WatchInstr.lean ====
section
/-!
DEFINITION. The watchpoint instructions (R308 to R311): WSET, WCLR, WSTAT.
-/
namespace Sys2Proof.Machine
open Sys2Proof

/-- A legal mode (R309): a direction, a class, MATRIX with R, EPI with W. -/
def watchModeOk (m : Nat) : Bool :=
  decide (m < 128) && m % 4 != 0 && m / 4 != 0 && (!m.testBit 4 || m.testBit 0) && (!m.testBit 5 || m.testBit 1)

/-- Changes a watchpoint of the issuing context. -/
def State.setWatch (s : State) (ctx i : Nat) (w : Watch) : State := s.updCtx ctx fun c => { c with watches := c.watches.set i w }

/-- The sites whose guest holds a claim of a context on a fragment of a handle. -/
def State.guestsOn (s : State) (h : Handle) : List Nat :=
  (s.sites.filter fun p => p.2.claims.any fun c => c.ctx == h.ctx && (s.fragsOf h).any fun f => f.id == c.frag).map (·.1)

/-- WSET (R310). With GUEST it stalls until the guests have dropped what they hold of the watched fragments (R483). -/
def execWset (x : Enc) (s : State) : Out :=
  issueS 0xA8 x s fun v =>
    let m := (bU x v.warp).toNat
    if !watchModeOk m then takeFault (ownIll 0xA8 x) s
    else match s.handleAt (rdU v.warp x.a) with
      | .error f => takeFault f s
      | .ok h =>
        if (pureNow s).isSome then takeFault (pureFlt 7) s
        else if m.testBit 6 && !(s.guestsOn h).isEmpty then stall ((s.guestsOn h).foldl (fun s n => s.recallGuest n h.ctx h.id true) s)
        else retire x 1 (s.setWatch (who s).ctx x.d.toNat { handle := h.id, mode := BitVec.ofNat 7 m })

/-- WCLR (R311). -/
def execWclr (x : Enc) (s : State) : Out :=
  issueS 0xA9 x s fun _ =>
    if (pureNow s).isSome then takeFault (pureFlt 7) s
    else retire x 1 (s.setWatch (who s).ctx x.d.toNat {})

/-- WSTAT (R311). -/
def execWstat (x : Enc) (s : State) : Out :=
  issueS 0xAA x s fun v =>
    let w := (s.context (who s).ctx).watches.getD x.a.toNat {}
    let r := w.hits.toNat * 2 ^ 24 + (if w.handle = 0 then 0 else 2 ^ 23) + w.mode.toNat * 2 ^ 16 + w.handle
    finish x 1 s ⟨v.warp.wrOp x.d 64 r, v.ths⟩

end Sys2Proof.Machine
end

