-- ==== Sys2Proof/Machine/Guest.lean ====
section
/-!
DEFINITION. The Swephor sites: GPOST (R343, R344), the guest's packets (R474 to R477, R482 to R485), its CXL.cache requests (R479,
R480), the fence and the return of a site (R486, R487). A request that must wait for a recall or a blocked chunk is queued. WRITEBACK_DONE (R149, R151) is here because a guest may hold the claim.
-/
namespace Sys2Proof.Machine
open Sys2Proof

def State.site (s : State) (n : Nat) : Site := s.sites.getD {} n

/-- A site with its unexpired grants alone (R480). -/
def State.siteNow (s : State) (n : Nat) : Site := { s.site n with grants := (s.site n).grants.filter fun g => decide (s.ptime < g.expiry) }

/-! ## GPOST -/

/-- Sends a queued command, ends it at a site that is not up (CODE 2), or discards it, as its guard slot, the order of its pair and the
512 outstanding commands allow (R169, R476). -/
def guestTry (site : Nat) (c : GuestCmd) (s : State) : State :=
  let x := s.site site
  match s.guardOf c.gid c.cap with
  | none => s
  | some false => s.endGuest site c 0 0 true
  | some true =>
    if !s.groupRuns c.gid then s
    else if x.st ≠ 2 then s.endGuest site c 2 0 false
    else
      let w := engineWho s c.gid c.cap.wid
      let d : Dest := .site site
      if (x.cmds.filter fun k => k.st != .queued).length ≥ 512 || !s.pairRoom w c.cap.ch d 1 ||
          x.cmds.any fun k => k.st == .queued && k.gid == c.gid && k.cap.ch == c.cap.ch && decide (k.id < c.id) then s
      else
        let a : Acc := { tid := c.cap.tid, slot := 0, va := 0, size := 64, pa := 0, vpage := 2 ^ 64 }
        let ord := c.cap.ord.toNat
        -- an acquire comes before what the command reads (R70, R128)
        let s := if ord % 2 = 1 then s.acquire w c.cap.scope.toNat [] else s
        let s := s.send w c.cap.tid c.cap.ch d (decide (ord ≥ 2)) c.cap.scope (.guest site c.pkt) a none (some c.id) (releasePts s w none ord c.cap.scope.toNat)
        s.updSite site fun x => { x with cmds := x.cmds.map fun k => if k.id == c.id then { k with st := .outstanding, cap := { k.cap with gs := none } } else k }

/-- Bytes 2-5 of a packet as the device writes them; SEQ follows when it is sent (R344). -/
def stampPacket (img : Nat) (ctx ch : Nat) (ord : BitVec 2) (scope : BitVec 3) : BitVec 512 :=
  BitVec.ofNat 512 (img / 2 ^ 64 * 2 ^ 64 + img % 2 ^ 16 + ctx * 2 ^ 16 + ch * 2 ^ 32 + (ord.toNat + 4 * scope.toNat) * 2 ^ 40)

/-- GPOST (R343, R344). -/
def execGpost (x : Enc) (s : State) : Out :=
  issue 0xD2 x s fun v =>
    let w := who s
    match v.P x, s.group? w.gid with
    | t :: _, some g =>
      let off := (rdU v.warp x.a).toNat % 2 ^ 32
      let va := BitVec.ofNat 64 off
      match checkScratch s g off 64 1 64 with
      | .bad _ f => takeFaultAt t.tid t.slot f s
      | .drop => finish x 1 s v
      | .ok gid o =>
        if g.pure.isSome then takeFaultAt t.tid t.slot (pureFlt 3) s
        else
          let scr := ((s.group? gid).map Group.scr).getD { base := 0, size := 0 }
          let img := (scr.sec o).data.toNat
          let op := img % 2 ^ 16
          if scr.poison.contains (o / 64) then takeFaultAt t.tid t.slot (poisonFlt va 1 2) s
          else if (0x8000 ≤ op && op < 0x8100) || (0x8100 ≤ op && w.level = 0) then takeFaultAt t.tid t.slot (permFlt va 1 0 0) s
          else
            let (id, s1) := s.fresh
            let d := x.d.toNat - 0xC0
            let c : GuestCmd :=
              { id := id, gid := w.gid, dreg := d, pkt := stampPacket img w.ctx x.w2.ch.toNat x.w2.ord x.w2.scope, cap := captOf s x v t.tid }
            let s2 := s1.updSite x.subN fun y => { y with cmds := y.cmds ++ [c] }
            guestTry x.subN c (retire x 1 (mapWarp s2 fun k => k.owe id [d]))
    | _, _ => finish x 1 s v

/-- A queue packet reaches the guest (R473, R481): after a PTS_SET when it carries a release at GANG scope or wider. -/
def deliverGuest (p : Packet) (site : Nat) (pkt : BitVec 512) (s : State) : State :=
  let pkt := BitVec.ofNat 512 (pkt.toNat + p.seq.toNat * 2 ^ 48)
  let s := if p.rel && p.scope.toNat ≥ 2 then s.ptsSet site (p.pts.getD (s.clock (clockOf p.core))) else s
  (s.siteSend site pkt).updSite site fun x =>
    let mine (c : GuestCmd) : Bool := some c.id == p.cmd
    { x with cmds := x.cmds.filter (fun c => !mine c) ++ (x.cmds.filter mine).map fun c => { c with pkt := pkt, arrived := true } }

/-! ## Fence (R487) -/

/-- A block of memory is poisoned, and counted on its die (R506). -/
def State.poisonBlock (s : State) (b : Nat) : State := (s.setPoison b).note 0x82 (96 * s.homeDie (b * 64)) 1 none

/-- Fences a site. -/
def fenceSite (n : Nat) (s : State) : State :=
  let x := s.site n
  let s := s.updSite n fun x =>
    { x with st := 3, since := s.ptime, fences := if x.fences = 0xFF then x.fences else x.fences + 1, grants := [], duties := [], claims := [], pass := [], watched := [] }
  -- write claims: every block of their fragments is poisoned (R162)
  let held := s.frags.filter fun f => f.holder.any fun h => h.1 == .guest n
  let s := held.foldl (fun s f => (f.blocks.foldl (fun s b => (s.poisonBlock b).loseResv b) s).updFrag f.id fun f => { f with holder := none, recalled := false }) s
  let s := (x.cmds.filter fun c => c.st != .queued).foldl (fun s c => s.endGuest n c 6 0 false) s
  let here (pa : Nat) : Bool := targetOf pa == .site n
  let s : State := { s with loads := s.loads.map fun l => { l with parts := l.parts.map fun p => match p.place with
    | .mem pa => if p.waits && here pa then { p with failed := true } else p
    | .fabric .. => p } }
  let s := (s.packets.filter fun p => p.dest == .site n).foldl (fun s p => (if p.st == .done then s else s.failPacket p).ackPacket p.id) s
  s.raiseMsi 68

/-! ## What the guest sends (R475) -/

/-- Bytes a packet from the guest may use; the others are reserved (R474, R475). -/
def pkByte (op i : Nat) : Bool :=
  let within (a b : Nat) : Bool := decide (a ≤ i ∧ i ≤ b)
  i < 4 || within 8 15 || match op with
    | 0x8001 => within 4 7 || within 16 20
    | 0x8002 => within 4 7 || within 16 23
    | 0x8003 => within 4 7 || within 16 31
    | 0x8012 => within 4 7 || within 16 63
    | 0x8013 => within 4 7
    | 0x8020 => within 16 24
    | 0x8023 => within 24 31
    | 0x8030 => within 16 22
    | 0x8033 => within 16 17
    | _ => false

/-- Opcodes a guest sends the device. -/
def guestOps : List Nat := [0x8001, 0x8002, 0x8003, 0x8012, 0x8013, 0x8020, 0x8023, 0x8030, 0x8033]

/-- Field values the table does not give. -/
def pkValues (op : Nat) (p : BitVec 512) : Bool :=
  match op with
  | 0x8003 => decide (fld p 199 192 ≤ 1)
  | 0x8020 => decide (fld p 199 192 ≤ 7)
  | 0x8030 => decide (fld p 151 144 ≤ 2) && (fld p 151 144 == 2 || fld p 159 152 != 0)
  | _ => true

/-- A protocol error (R475): of a guest-management packet only a CTX that has nothing at the site, or its reserved bits. -/
def protocolBad (x : Site) (p : BitVec 512) : Bool :=
  let op := pkOp p
  let c := pkCtx p
  (decide (op < 0x8100) && (!guestOps.contains op || !pkValues op p || !(List.range 64).all fun i => pkByte op i || fld p (8 * i + 7) (8 * i) == 0)) ||
    fld p 31 26 != 0 ||
    !(x.grants.any (fun g => g.ctx == c) || x.claims.any (fun k => k.ctx == c) || x.cmds.any fun k => k.st != .queued && pkCtx k.pkt == c)

/-- A protocol error is discarded and counted. -/
def countProto (n : Nat) (s : State) : State := s.updSite n fun x => { x with proterr := if x.proterr = 0xFFFF then x.proterr else x.proterr + 1 }

/-- A packet of the guest, at a site that is up: a protocol error, or what its opcode does. -/
def guestPacket (site op : Nat) (p : BitVec 512) (s : State) (k : Site → State) : Out :=
  let x := s.siteNow site
  if x.st ≠ 2 || pkOp p ≠ op then .next s
  else if protocolBad x p then .next (countProto site s)
  else .next (k x)

/-- PROTOCOL_ERROR (R475). -/
def execProtocolError (site : Nat) (pkt : BitVec 512) (s : State) : Out :=
  if (s.site site).st == 2 && protocolBad (s.siteNow site) pkt then .next (countProto site s) else .next s

/-! ## Terminating packets (R477) -/

/-- A terminating packet of a command; a mismatch fences the site. -/
def terminate (site op : Nat) (p : BitVec 512) (s : State) (f : GuestCmd → State → State) : Out :=
  guestPacket site op p s fun x =>
    match x.cmds.find? fun c => c.arrived && pkCtx c.pkt == pkCtx p && pkCh c.pkt == pkCh p with
    | some c =>
      if pkSeq c.pkt ≠ pkSeq p || pkTag c.pkt ≠ pkTag p then fenceSite site s
      else f c (s.updSite site fun x => { x with duties := x.duties.filter fun d => d.1 != .preempt c.id })
    | none => fenceSite site s

/-- COMPLETE. -/
def execComplete (site : Nat) (pkt : BitVec 512) (s : State) : Out :=
  terminate site 0x8001 pkt s fun c s => s.endGuest site c 0 (fld pkt 167 128) false

/-- ERROR. -/
def execErrorI (site : Nat) (pkt : BitVec 512) (s : State) : Out := terminate site 0x8002 pkt s fun c s => s.endGuest site c 6 0 false

/-- GUEST_FAULT (R477, R483): reason 0 ends the command and parks the group with GUEST; reason 1 suspends it and parks with WATCH. -/
def execGuestFault (site : Nat) (pkt : BitVec 512) (s : State) : Out :=
  terminate site 0x8003 pkt s fun c s =>
    let addr := BitVec.ofNat 64 (fld pkt 191 128)
    if fld pkt 199 192 = 0 then
      engineFault c.gid 4 c.cap none { code := cGuest, info := site, aux := pkTag pkt, addr := addr } (s.endGuest site c 6 0 false)
    else
      let hit := (s.site site).watched.find? fun h => h.1 == pkCtx pkt
      let s := s.updSite site fun x =>
        { x with
          watched := dropFirst (fun h => h.1 == pkCtx pkt) x.watched
          cmds := x.cmds.map fun k => if k.id == c.id then { k with st := .suspended, hit := hit.map fun h => s.blk h.2.2.2.1 } else k }
      match hit with
      | some (_, i, h, pa, acc) => engineFault c.gid 4 c.cap (some c.id) (watchFlt i h (BitVec.ofNat 64 pa) acc) s
      | none => engineFault c.gid 4 c.cap (some c.id) { code := cWatch, addr := addr } s

/-! ## Pre-emption (R485) -/

/-- A reply to PREEMPT: the command it echoes. -/
def preemptReply (site op : Nat) (p : BitVec 512) (s : State) (st : GuestSt) : Out :=
  guestPacket site op p s fun x =>
    match x.cmds.find? fun c => c.arrived && fld c.pkt 127 16 == fld p 127 16 && x.duties.any fun d => d.1 == .preempt c.id with
    | some c => s.updSite site fun x =>
        { x with duties := x.duties.filter (fun d => d.1 != .preempt c.id), cmds := x.cmds.map fun k => if k.id == c.id then { k with st := st } else k }
    | none => s

/-- SAVED. -/
def execSaved (site : Nat) (pkt : BitVec 512) (s : State) : Out := preemptReply site 0x8012 pkt s (.saved (BitVec.ofNat 384 (fld pkt 511 128)))

/-- DISCARDED. -/
def execDiscarded (site : Nat) (pkt : BitVec 512) (s : State) : Out := preemptReply site 0x8013 pkt s .discarded

/-- HALT.s sends PREEMPT for the outstanding commands of some groups; one suspended for a watch needs no reply. -/
def preemptAll (mine : Nat → Bool) (s : State) : State :=
  s.sites.foldl (fun s p => (p.2.cmds.filter fun c => mine c.gid && c.arrived && c.st == .outstanding && !p.2.duties.any fun d => d.1 == .preempt c.id).foldl (fun s c =>
    (s.siteSend p.1 (cmdPacket 0x8010 c.pkt 0)).updSite p.1 fun x => { x with duties := x.duties ++ [(.preempt c.id, s.ptime + 20000)] }) s) s

/-- HALT.c resumes what SAVED reported and sends again what DISCARDED reported. -/
def unpreemptAll (mine : Nat → Bool) (s : State) : State :=
  s.sites.foldl (fun s p => (p.2.cmds.filter fun c => mine c.gid).foldl (fun s c =>
    let go (pkt : BitVec 512) : State :=
      (s.siteSend p.1 pkt).updSite p.1 fun x => { x with cmds := x.cmds.map fun k => if k.id == c.id then { k with st := .outstanding } else k }
    match c.st with
    | .saved t => go (cmdPacket 0x8011 c.pkt t.toNat)
    | .discarded => go c.pkt
    | _ => s) s) s

/-! ## Translation service (R484, R480) -/

/-- Size code of XLATE_RESP of a leaf's level. -/
def leafSize (l : Nat) : Nat := if l = 4 then 0 else if l = 3 then 1 else 2

/-- XLATE_REQ. -/
def execXlateReq (site : Nat) (pkt : BitVec 512) (s : State) : Out :=
  guestPacket site 0x8020 pkt s fun x =>
    let va := fld pkt 191 128
    let acc := fld pkt 199 192
    let ctx := pkCtx pkt
    let answer (s : State) (status payload : Nat) : State := s.siteSend site (cmdPacket 0x8021 pkt (payload + status * 2 ^ 208))
    if x.grants.length ≥ 4096 then answer s 3 va
    else if va ≥ 2 ^ 52 then answer s 1 va
    else match walk s false 0 ctx va with
      | .recall f => (s.askRecall f).enqueue (.xlateReq site pkt)
      | .blocked => s.enqueue (.xlateReq site pkt)
      | .fail _ _ _ => answer s 1 va
      | .leaf e l _ =>
        match checkLeaf s (BitVec.ofNat 64 va) 0 e l [] with
        | .ok r =>
          if ((acc.testBit 0 || acc.testBit 2) && !pteR e) || ((acc.testBit 1 || acc.testBit 2) && !pteW e) then answer s 2 va
          else
            let sz := 2 ^ lvlShift l
            let page := va / sz * sz
            let expiry := s.ptime + 2 ^ (16 + pteLsh e)
            let g : Grant := { ctx := ctx, va := page, pa := r.ppage, size := sz, r := pteR e, w := pteW e, expiry := expiry }
            let perms := (if pteR e then 1 else 0) + (if pteW e then 2 else 0) + (if pteCC e then 4 else 0)
            (answer s 0 (page + r.ppage * 2 ^ 64 + expiry % 2 ^ 64 * 2 ^ 128 + perms * 2 ^ 192 + leafSize l * 2 ^ 200)).updSite site fun x =>
              { x with grants := x.grants ++ [g] }
        | _ => answer s 1 va

/-- A grant that an invalidation covers. -/
def invCovers (scope ctx va size : Nat) (g : Grant) : Bool :=
  scope == 2 || (g.ctx == ctx && (scope == 1 || (decide (va ≤ g.va) && decide (g.va + g.size ≤ va + size)) || (decide (g.va ≤ va) && decide (va < g.va + g.size))))

/-- INV_ACK. -/
def execInvAck (site : Nat) (pkt : BitVec 512) (s : State) : Out :=
  guestPacket site 0x8023 pkt s fun x =>
    let num := BitVec.ofNat 64 (fld pkt 255 192)
    let is (d : Duty × Nat) : Bool := match d.1 with
      | .inv n _ _ _ _ => n == num
      | _ => false
    match x.duties.find? is with
    | some (.inv _ sc c va size, _) => s.updSite site fun x => { x with duties := x.duties.filter (fun d => !is d), grants := x.grants.filter fun g => !invCovers sc c va size g }
    | _ => s

/-- TLBLS sends XLATE_INV to each site with a covered grant, once for each `inv` under way; whether none remains. -/
def invalidateGuests (scope ctx va size : Nat) (s : State) : Bool × State :=
  let same (d : Duty × Nat) : Bool := match d.1 with
    | .inv _ sc c v z => sc == scope && c == ctx && v == va && z == size
    | _ => false
  let holds (x : Site) : Bool := x.st == 2 && x.grants.any fun g => decide (s.ptime < g.expiry) && invCovers scope ctx va size g
  (!s.sites.any fun p => holds p.2, s.sites.foldl (fun s p =>
    if holds p.2 && !p.2.duties.any same then
      let num := p.2.invNo + 1
      (s.siteSend p.1 (ctxPacket 0x8022 ctx (va + num.toNat * 2 ^ 64 + scope * 2 ^ 128))).updSite p.1 fun x =>
        { x with invNo := num, duties := x.duties ++ [(.inv num scope ctx va size, s.ptime + 20000)] }
    else s) s)

/-- GRANT_EXPIRE (R480). -/
def execGrantExpire (site : Nat) (s : State) : Out :=
  if (s.site site).grants.any fun g => decide (g.expiry ≤ s.ptime) then
    .next (s.updSite site fun x => { x with grants := x.grants.filter fun g => decide (s.ptime < g.expiry) })
  else .next s

/-! ## Claims of a guest (R482) -/

/-- Ends what a guest holds of a context on some fragments. -/
def dropGuestClaims (site ctx : Nat) (fs : List Frag) (s : State) : State :=
  let s := (fs.filter fun f => f.holder == some (.guest site, ctx)).foldl (fun s f => s.endHolder f.id) s
  s.updSite site fun x => { x with claims := x.claims.filter fun c => !(c.ctx == ctx && fs.any fun f => f.id == c.frag) }

/-- Grants a guest's claim and answers. -/
def grantGuest (site ctx lease : Nat) (write : Bool) (pts0 : BitVec 24) (fs : List Frag) (s : State) : State :=
  let p0 := tsMax (s.site site).pts pts0
  let fs := if write then fs else fs.filter fun f => f.holder != some (.guest site, ctx)
  let t := fs.foldl (fun p f => tsMax p (if write then f.rts + 1 else f.wts)) p0
  let s := s.updSite site fun x => { x with pts := t }
  fs.foldl (fun s f =>
    let own := t + BitVec.ofNat 24 lease
    let (v, s) := if write then s.issueVer t else (f.ver, s)
    let s := s.updFrag f.id fun f =>
      if write then { f with wts := t, rts := t, ver := v, holder := some (.guest site, ctx), grantAt := s.cyclesOf (s.holdDie (.guest site) f.blocks), used := false }
      else { f with rts := tsMax f.rts own }
    let c : Claim := { frag := f.id, ctx := ctx, write := write, ownRts := if write then t else own, ver := v, lease := lease, used := s.now }
    s.updSite site fun x => { x with claims := c :: x.claims.filter fun k => !(k.frag == f.id && k.ctx == ctx) }) s

/-- A GUEST watch, or the recall of a WSET that sets one, covers a fragment (R483). -/
def guestWatched (s : State) (ctx : Nat) (fs : List Frag) : Bool :=
  let on (id : Nat) : Bool := s.handles.any fun h => h.ctx == ctx && h.id == id && fs.any fun f => f.blocks.any h.blocks.contains
  (s.context ctx).watches.any (fun w => w.handle != 0 && bit w.mode 6 && on w.handle) ||
    s.sites.any fun p => p.2.duties.any fun d => match d.1 with
      | .recall c h true => c == ctx && on h
      | _ => false

/-- CLAIM_REQ. -/
def execClaimReq (site : Nat) (pkt : BitVec 512) (s : State) : Out :=
  guestPacket site 0x8030 pkt s fun x =>
    let ctx := pkCtx pkt
    let kind := fld pkt 151 144
    let answer (s : State) (ver status : Nat) : State :=
      s.siteSend site (cmdPacket 0x8031 pkt (ver + (s.site site).pts.toNat * 2 ^ 64 + status * 2 ^ 88))
    match s.handle? ctx (fld pkt 143 128) with
    | none => answer s 0 1
    | some h =>
      let s := s.visitHandle h
      let fs := byBlock (s.fragsOf h)
      if kind = 2 then let s := dropGuestClaims site ctx fs s; answer s (s.handleVer h).toNat 0
      else if guestWatched s ctx fs then answer s 0 3
      else
        let more := (fs.filter fun f => !x.claims.any fun c => c.ctx == ctx && c.frag == f.id).length
        if (s.fragsOfCtx ctx).length + s.guestClaims ctx + more > fld (s.context ctx).img 351 320 then answer s 0 2
        else if h.blocks.any fun b => s.waitsAt (b * 64) then s.enqueue (.claimReq site pkt)
        else
          let held := fs.filter fun f => f.holder.isSome && f.holder != some (.guest site, ctx)
          if !held.isEmpty then held.foldl (fun s f => s.askRecall f.id) (s.enqueue (.claimReq site pkt))
          else
            let s := grantGuest site ctx (fld pkt 159 152) (kind == 1) (BitVec.ofNat 24 (fld pkt 183 160)) fs s
            let s := h.blocks.foldl (fun s b => s.touch ctx (b * 64)) s
            answer s (s.handleVer h).toNat 0

/-- RECALL_DONE. -/
def execRecallDone (site : Nat) (pkt : BitVec 512) (s : State) : Out :=
  guestPacket site 0x8033 pkt s fun x =>
    let ctx := pkCtx pkt
    let id := fld pkt 143 128
    let is (d : Duty × Nat) : Bool := match d.1 with
      | .recall c h _ => c == ctx && h == id
      | _ => false
    if !x.duties.any is then s
    else
      let fs := ((s.handle? ctx id).map s.fragsOf).getD []
      let lost := (fs.filter fun f => f.holder == some (.guest site, ctx)).flatMap Frag.blocks
      lost.foldl State.loseResv (dropGuestClaims site ctx fs (s.updSite site fun x => { x with duties := x.duties.filter fun d => !is d }))

/-- WRITEBACK_DONE (R149, R153): a recall that was asked for ends a cluster's claim, its dirty bytes at the home; a guest is sent RECALL
and answers with RECALL_DONE (R482). -/
def execWritebackDone (f : Nat) (s : State) : Out :=
  match s.frags.find? fun x => x.id == f with
  | some x =>
    if !x.recalled || !s.holdOver x then .next s
    else match x.holder with
      | some (.cluster c, ctx) => if x.blocks.any fun b => s.waitsAt (b * 64) then .next s else .next ((s.recallHolder f).note 0x51 (4 * c) 1 (some ctx))
      | some (.guest n, ctx) => match s.handles.find? fun h => h.ctx == ctx && x.blocks.any h.blocks.contains with
        | some h => .next (s.recallGuest n ctx h.id false)
        | none => .next (s.recallHolder f)
      | none => .next (s.updFrag f fun x => { x with recalled := false })
  | none => .next s

/-! ## CXL.cache requests (R479) -/

/-- A refused request: a read gets CXL poison, a write is not performed; one that is not WATCHED counts in VIOL (R488). -/
def refuseGuest (site pa : Nat) (watched : Bool) (s : State) : State := s.updSite site fun x =>
  { x with answer := none, lastRef := BitVec.ofNat 48 pa, viol := if watched || x.viol = 0xFFFF then x.viol else x.viol + 1 }

/-- GUEST_REQUEST: one access within a 64-byte block. -/
def execGuestRequest (site ctx pa : Nat) (acc : GuestAcc) (s : State) : Out :=
  let x := s.site site
  let n := match acc with
    | .read n => n
    | .write d => d.length
  let k := match acc with
    | .read _ => 1
    | .write _ => 2
  if x.st ≠ 2 then .next (if x.st = 0 then s else refuseGuest site pa false s)
  else if n = 0 || pa % 64 + n > 64 then .next s
  else
    let ok := isFlistad pa && (s.siteNow site).grants.any fun g => g.ctx == ctx && decide (g.pa ≤ pa) && decide (pa < g.pa + g.size) && if k = 1 then g.r else g.w
    if !ok then .next (fenceSite site (refuseGuest site pa false s))
    else
      let b := s.blk pa
      let passes := x.pass.contains (ctx, b)
      match (if passes then none else s.watchHit ctx 64 (accDirs k) b) with
      | some (i, h) => .next ((refuseGuest site pa true s).updSite site fun x => { x with watched := x.watched ++ [(ctx, i, h, pa, k)] })
      | none =>
        if s.waitsAt pa then .next (s.enqueue (.guest site ctx pa acc))
        else match s.recallFor (some (.guest site, ctx)) pa with
          | some f => .next ((s.askRecall f).enqueue (.guest site ctx pa acc))
          | none =>
            let own := (s.frag? pa).any fun f => f.holder == some (.guest site, ctx)
            let s := (s.updSite site fun x => { x with pass := dropFirst (· == (ctx, b)) x.pass }).touch ctx pa
            let s := if own then (match s.frag? pa with
                | some f => s.updFrag f.id fun f => { f with used := true }
                | none => s) else s
            match acc with
            | .read n =>
              let s := if own then s else s.plainLoad (.guest site) pa
              let out := if s.poisonedAt pa then none else some (s.rdBytes pa n)
              .next (s.updSite site fun x => { x with answer := out })
            | .write d =>
              let s := if own then s else s.plainStore (.guest site) pa
              .next (s.homeWrite pa (d.mapIdx fun i v => (pa + i, v)) .raw none)

/-! ## Deadlines, reset and training (R486, R487) -/

/-- GUEST_DEADLINE. -/
def execGuestDeadline (site : Nat) (s : State) : Out :=
  if (s.site site).st == 2 && (s.site site).duties.any fun d => decide (d.2 ≤ s.ptime) then .next (fenceSite site s) else .next s

/-- RESET: of a fenced site that device reset does not have to free. -/
def execResetI (site : Nat) (s : State) : Out :=
  let x := s.site site
  if x.st == 3 && !x.locked && s.phase == 15 then .next (s.updSite site fun x => { x with st := 4, since := s.ptime }) else .next s

/-- SITE_RESET_HOLD_END. -/
def execSiteResetHoldEnd (site : Nat) (s : State) : Out :=
  let x := s.site site
  if x.st == 4 && s.ptime ≥ x.since + 10000 then .next (s.updSite site fun x => { x with st := 1, since := s.ptime }) else .next s

/-- SITE_TRAINING_DONE: another identity than the GUEST record's stays fenced until device reset. -/
def execSiteTrainingDone (site : Nat) (ident : BitVec 64) (s : State) : Out :=
  if (s.site site).st ≠ 1 then .next s
  else if s.caps.sites.contains (site, ident) then .next (s.updSite site fun x => { x with st := 2 })
  else .next (s.updSite site fun x => { x with st := 3, locked := true })

/-- SITE_TRAINING_TIMEOUT. -/
def execSiteTrainingTimeout (site : Nat) (s : State) : Out :=
  let x := s.site site
  if x.st == 1 && s.ptime ≥ x.since + 100000000 then .next (s.updSite site fun x => { x with st := 3 }) else .next s

end Sys2Proof.Machine
end

