-- ==== Sys2Proof/Machine/Place.lean ====
section
/-!
DEFINITION. Placement (R33, R34, R45, R57, R403 to R407): what fits where, reservations, the groups a task becomes.
-/
namespace Sys2Proof.Machine
open Sys2Proof

/-! ## What is held (R403) -/

/-- What a resident group holds. -/
def State.occ (s : State) (g : Group) : Occ :=
  { core := gidCore g.gid, lanes := g.slots.map (·.1), bytes := Config.warpW * 4 * g.vregs, tbar := g.tbars.length, scrBase := g.scr.base, scrSize := g.scr.size
    ring := g.ring.length, fuse := (s.cluster (gidCl g.gid)).fused, prio := g.prio, entered := g.entered }

/-- Everything resident. -/
def State.occs (s : State) : List Occ := s.groups.map fun p => s.occ p.2

/-- A view of what is held: the state as it is, or one with victims absent and reservations present. -/
abbrev World := List Occ

def laneSlots (w : World) (core lane : Nat) : Nat := (w.filter fun o => o.core == core).foldl (fun n o => n + (o.lanes.filter (· == lane)).length) 0

def laneBytes (w : World) (core lane : Nat) : Nat :=
  (w.filter fun o => o.core == core).foldl (fun n o => n + o.bytes * (o.lanes.filter (· == lane)).length) 0

/-- Free bytes of a lane. -/
def laneFree (w : World) (core lane : Nat) : Nat := Config.laneBytes - laneBytes w core lane

/-- A lane has a free warp slot and `b` free bytes. -/
def laneFits (w : World) (core b lane : Nat) : Bool := decide (laneSlots w core lane < 4) && decide (laneBytes w core lane + b ≤ Config.laneBytes)

/-- Free warp slots of a core. -/
def coreSlots (w : World) (core : Nat) : Nat := 128 - (w.filter fun o => o.core == core).foldl (fun n o => n + o.lanes.length) 0

/-- Places groups, barriers, ring slots and L1 mode of a core and its cluster that a record needs. -/
def coreCounts (w : World) (core : Nat) (r : BitVec 512) : Bool :=
  let onCore := w.filter fun o => o.core == core
  let onCl := w.filter fun o => o.core / 4 == core / 4
  decide (onCore.length < 24) && decide (onCl.length < 96) && decide (onCore.foldl (fun n o => n + o.tbar) 0 + recTbar r ≤ 64) &&
    decide (onCl.foldl (fun n o => n + o.ring) 0 + recRing r ≤ 16) && onCl.all fun o => o.fuse == recFuse r

/-- Lanes in the order of R403: most free bytes first, then the lower number. -/
def insLane (w : World) (core l : Nat) : List Nat → List Nat
  | [] => [l]
  | m :: ms => if laneFree w core l > laneFree w core m || (laneFree w core l == laneFree w core m && l < m) then l :: m :: ms else m :: insLane w core l ms

/-- Inserts a number in ascending order. -/
def insNat (n : Nat) : List Nat → List Nat
  | [] => [n]
  | m :: ms => if n ≤ m then n :: m :: ms else m :: insNat n ms

/-- Scratch runs held in a cluster, those of ended groups included that others still write to (R61). -/
def scrHeld (s : State) (w : World) (cl : Nat) : List (Nat × Nat) :=
  ((w.filter fun o => o.core / 4 == cl).map fun o => (o.scrBase, o.scrSize)) ++ (s.cluster cl).zombies.map fun z => (z.2.base, z.2.size)

/-- The rounded size of an allocation (R57). -/
def scrRound (n : Nat) : Nat := (n + 1023) / 1024 * 1024

def runFree (held : List (Nat × Nat)) (base size : Nat) : Bool :=
  decide (base + size ≤ Config.scratchBytes) && held.all fun h => h.2 == 0 || decide (base + size ≤ h.1) || decide (h.1 + h.2 ≤ base)

/-- The lowest free run of a size in every view. -/
def scrRun (s : State) (ws : List World) (cl size : Nat) : Option Nat :=
  let helds := ws.map fun w => scrHeld s w cl
  if size = 0 then some 0
  else (0 :: helds.flatMap fun h => h.map fun p => p.1 + p.2).foldl (fun (b : Option Nat) c =>
    if helds.all fun h => runFree h c size then (match b with
      | some d => some (min c d)
      | none => some c) else b) none

/-- What a group of a record would hold on a core, when it fits in every view; the first view chooses its lanes. -/
def fitCore (s : State) (ws : List World) (r : BitVec 512) (prio entered core : Nat) : Option Occ :=
  let b := Config.warpW * 4 * recVregs r
  let w0 := ws.headD []
  let lanes := (List.range Config.lanes).filter fun l => ws.all fun w => laneFits w core b l
  if !ws.all (fun w => coreCounts w core r) || lanes.length < recWarps r then none
  else
    let pick := ((lanes.foldr (insLane w0 core) []).take (recWarps r)).foldr insNat []
    (scrRun s ws (core / 4) (scrRound (recScratch r))).map fun base =>
      { core := core, lanes := pick, bytes := b, tbar := recTbar r, scrBase := base, scrSize := scrRound (recScratch r), ring := recRing r
        fuse := recFuse r, prio := prio, entered := entered }

/-! ## Targets (R404) -/

/-- The preference order of a seam on a die: its partition's present clusters. -/
def prefOrder (s : State) (part seam die : Nat) : List Nat :=
  let c0 := 3 * (seam % 16) / 2
  ((List.range 24).map fun i => die * 24 + (c0 + i) % 24).filter fun c => bit (s.part part).img (320 + c) && s.present c

/-- A single group: the first cluster with a fitting core, of its fitting cores the one with most free warp slots. -/
def soloTarget (s : State) (ws : List World) (r : BitVec 512) (prio entered : Nat) (cls : List Nat) : Option Occ :=
  cls.findSome? fun c =>
    ((List.range 4).filterMap fun k => fitCore s ws r prio entered (4 * c + k)).foldl (fun (b : Option Occ) o => match b with
      | some p => if coreSlots (ws.headD []) o.core > coreSlots (ws.headD []) p.core then some o else some p
      | none => some o) none

/-- `n` groups one after the other, each counted as placed for the next. -/
def gangFill (s : State) (r : BitVec 512) (prio entered : Nat) (cls : List Nat) : Nat → List World → Option (List Occ)
  | 0, _ => some []
  | n + 1, ws =>
    match soloTarget s ws r prio entered cls with
    | some o => (gangFill s r prio entered cls n (ws.map fun w => o :: w)).map fun l => o :: l
    | none => none

/-- The target of a task through kept clusters in preference order. -/
def targetIn (s : State) (ws : List World) (r : BitVec 512) (prio entered : Nat) (cls : List Nat) : Option (List Occ) :=
  if recGang r = 1 then (soloTarget s ws r prio entered cls).map fun o => [o]
  else (List.range 4).findSome? fun m =>
    (List.range cls.length).findSome? fun i =>
      if i + m + 1 ≤ cls.length then gangFill s r prio entered ((cls.drop i).take (m + 1)) (recGang r) ws else none

/-- Clusters a record considers on a die: a handler's faulting cluster comes first. -/
def clustersFor (s : State) (q : QRec) (die : Nat) : List Nat :=
  let l := prefOrder s q.part q.seam die
  match q.kind with
  | .handler g => if l.contains (gidCl g) then gidCl g :: l.filter (· != gidCl g) else l
  | _ => l

/-! ## Reservations (R406) -/

/-- A group a reservation counts as absent: of lower priority, or of equal priority and a later FIFO entry. -/
def isVictim (prio entered : Nat) (o : Occ) : Bool := decide (o.prio < prio) || (o.prio == prio && decide (o.entered > entered))

/-- The views a task must fit in: the state, and the state the reservations it must respect hold free. -/
def viewsFor (s : State) (q : QRec) : List World :=
  let rs := s.reserves.filter fun r => r.qrec != q.id && decide (r.prio ≥ q.level)
  if rs.isEmpty then [s.occs]
  else [s.occs, (s.occs.filter fun o => !rs.any fun r => isVictim r.prio r.entered o) ++ rs.flatMap Reserve.places]

/-- The view a reservation is chosen in. -/
def reserveView (s : State) (q : QRec) : World :=
  (s.occs.filter fun o => !isVictim q.level q.entered o) ++ (s.reserves.filter fun r => r.qrec != q.id).flatMap Reserve.places

/-- A place still free in a view. -/
def placeFree (s : State) (w : World) (r : BitVec 512) (o : Occ) : Bool :=
  coreCounts w o.core r && o.lanes.all (fun l => laneFits w o.core o.bytes l) && (o.scrSize == 0 || runFree (scrHeld s w (o.core / 4)) o.scrBase o.scrSize)

def placesFree (s : State) (r : BitVec 512) : List Occ → World → Bool
  | [], _ => true
  | o :: os, w => placeFree s w r o && placesFree s r os (o :: w)

/-- Reserve(t): keeps a target that still stands, else chooses one; none when another record of its seam holds the seam's reservation. -/
def makeReserve (s : State) (q : QRec) (die : Nat) : State :=
  let others := s.reserves.filter fun r => r.qrec != q.id
  let w := reserveView s q
  if others.any fun r => r.seam == q.seam && r.part == q.part then s
  else if s.reserves.any fun r => r.qrec == q.id && placesFree s q.record r.places w then s
  else match targetIn s [w] q.record q.level q.entered (clustersFor s q die) with
    | some places => { s with reserves := others ++ [{ seam := q.seam, part := q.part, qrec := q.id, prio := q.level, entered := q.entered, places := places }] }
    | none => s.endReserves fun r => r.qrec == q.id

/-! ## The groups of a task (R33, R45, R47, R57) -/

/-- The lowest group number free on a core. -/
def freeNumber (s : State) (core : Nat) : Nat :=
  let used (g : Nat) : Bool := s.groups.any (fun p => p.1 == g) || (s.saved? g).isSome || (s.cluster (core / 4)).zombies.any fun z => z.1 == g
  ((List.range 128).find? fun n => !used (gidOf core n)).getD 0

/-- The lowest free warp slot of each lane of a place. -/
def freeSlots (s : State) (o : Occ) : List (Nat × Nat) :=
  let held := (s.groups.filter fun p => gidCore p.1 == o.core).flatMap fun p => p.2.slots
  o.lanes.map fun l => (l, ((List.range 4).find? fun i => !held.contains (l, i)).getD 0)

/-- What a task gives the groups it becomes. -/
structure Dispatch where
  ctx : Nat
  part : Nat
  launch : Option Nat
  record : BitVec 512
  prio : Nat
  entered : Nat
  handler : Bool
  service : Bool
  pts : BitVec 24
  pure : Option Pure
  cbase : BitVec 64
  clen : Nat

/-- An empty cluster takes the fusion mode of the first group placed on it; a change empties its L1s (R72). -/
def State.setFusion (s : State) (cl : Nat) (fuse : Bool) : State :=
  if s.groups.any (fun p => gidCl p.1 == cl) || (s.cluster cl).fused == fuse then s
  else
    let s := s.writeBack cl ((s.cluster cl).held.map Held.blk)
    s.updCluster cl fun c => { c with fused := fuse, cores := c.cores.map fun k => { k with l1 := [] } }

/-- Places one group; the acquire at DEVICE scope opens it (R399). -/
def placeGroupAt (d : Dispatch) (gang : Option (Nat × Nat)) (o : Occ) (s : State) : State :=
  let cl := o.core / 4
  let gid := gidOf o.core (freeNumber s o.core)
  let slots := freeSlots s o
  let (n, s) := s.draw
  let s := (s.setFusion cl o.fuse).touchDie d.ctx (cl / 24)
  let ring := ((List.range 16).filter fun i => ((s.cluster cl).slot i).owner.isNone).take o.ring
  let g : Group :=
    { gid := gid, ctx := d.ctx, part := d.part, vregs := recVregs d.record, sregs := recSregs d.record
      threads := (List.range (recWarps d.record * Config.warpW)).map fun t =>
        { tid := t, slot := t % Config.warpW, wid := t / Config.warpW, pc := recEntry d.record, v := List.replicate (recVregs d.record) 0 }
      warps := slots.mapIdx fun i p => { wid := i, lane := p.1, wslot := p.2, s := List.replicate 64 0 }
      slots := slots, tbars := List.replicate o.tbar {}, ring := ring, scr := { base := o.scrBase, size := o.scrSize }, gang := gang
      gsize := recGang d.record, task := d.record, taskrec := Config.taskRecAddr n &&& 0x000FFFFFFFFFFFC0, cbase := d.cbase, clen := d.clen, launch := d.launch
      prio := d.prio, entered := d.entered, handler := d.handler, service := d.service, pure := d.pure
      wdogAt := s.ptime, wdogLim := (s.part d.part).wdog }
  let own (c : Cluster) : Cluster := ring.foldl (fun c i => c.updSlot i fun r =>
    { r with owner := some (gid, (ring.findIdx? (· == i)).getD 0), st := .free, sealing := false }) c
  let s : State := State.wrCells { s with groups := s.groups.insert gid g } (cellsOf (recPlace gid) 64 d.record.toNat)
  let s := (s.updCluster cl own).l1Acquire o.core d.ctx 3
  s.setClock (.cluster cl) (tsMax (s.cluster cl).pts d.pts)

/-- Places a task whole: its group, or its gang's groups in ascending GANGIDX (R34). Answers the first group's number. -/
def placeTask (d : Dispatch) (os : List Occ) (s : State) : Nat × State :=
  let gids (s : State) (o : Occ) : Nat := gidOf o.core (freeNumber s o.core)
  if recGang d.record = 1 then match os with
    | o :: _ => (gids s o, placeGroupAt d none o s)
    | [] => (0, s)
  else
    let (gi, s) := s.fresh
    let first := (os.head?.map (gids s)).getD 0
    let r := os.foldl (fun (a : State × List (Nat × Nat)) o =>
      (placeGroupAt d (some (gi, a.2.length)) o a.1, a.2 ++ [(a.2.length, gids a.1 o)])) (s, [])
    let s : State := r.1
    (first, { s with gangs := s.gangs ++ [{ id := gi, size := os.length, members := r.2 }] })

end Sys2Proof.Machine
end

