-- ==== Sys2Proof/Machine/Sched.lean ====
section
/-!
DEFINITION. The scheduler: pure tasks at dispatch (R185 to R189), PLACEMENT_PASS (R405), launches (R394 to R400) and their events.
-/
namespace Sys2Proof.Machine
open Sys2Proof

/-! ## Pure tasks at dispatch (R186 to R189) -/

/-- A handle list (R186): inputs and outputs; none where the list is malformed. -/
def handleList (l : List Byte) : Option (List Nat × List Nat) :=
  let n := leNat l
  let nin := n % 256
  let nout := n / 256 % 256
  let id (i : Nat) : Nat := n / 2 ^ (64 + 16 * i) % 65536
  if n / 2 ^ 16 % 2 ^ 48 ≠ 0 || nin > 8 || nout < 1 || nout > 4 then none
  else some ((List.range nin).map id, (List.range nout).map fun i => id (8 + i))

/-- The shape fields a digest takes of a handle (R187). -/
def shapeBytes (r : BitVec 512) : List Byte :=
  [BitVec.ofNat 8 (rgnRank r), BitVec.ofNat 8 (rgnEsize r)] ++ (List.range 4).flatMap fun d => leBytes 4 (rgnExt r d)

/-- The measurement of the segment that holds an address of a context. -/
def State.measOf (s : State) (ctx : Nat) (va : BitVec 64) : Option (List Byte) :=
  (s.segs.find? fun g => g.ctx == ctx && decide (g.va ≤ va.toNat) && decide (va.toNat < g.va + g.size)).map Seg.meas

/-- "ZVX9ASSAY1". -/
def assayCust : List Byte := [0x5A, 0x56, 0x58, 0x39, 0x41, 0x53, 0x53, 0x41, 0x59, 0x31]

/-- The digest of R187. -/
def digestOf (s : State) (key : BitVec 256) (meas arg : List Byte) (ins outs : List Handle) : BitVec 128 :=
  let x := meas ++ arg ++ [BitVec.ofNat 8 ins.length, BitVec.ofNat 8 outs.length] ++
    (ins.flatMap fun h => shapeBytes h.region ++ leBytes 8 (s.handleVer h).toNat) ++ outs.flatMap fun h => shapeBytes h.region
  BitVec.ofNat 128 (leNat (kmac128 (leBytes 32 key.toNat) x 128 assayCust))

/-- Half-bytes of a region's elements, in index order: each element's first half-byte. -/
def rgnElems (r : BitVec 512) : List Int :=
  let nib (o : Int) : Int := if rgnEsize r = 0 then 2 * (rgnBase r : Int) + o else 2 * rgnByte r o
  (List.range (rgnExt r 3)).flatMap fun (l : Nat) => (List.range (rgnExt r 2)).flatMap fun (k : Nat) =>
    (List.range (rgnExt r 1)).flatMap fun (j : Nat) => (List.range (rgnExt r 0)).map fun (i : Nat) =>
      nib ((i : Int) * rgnStr r 0 + (j : Int) * rgnStr r 1 + (k : Int) * rgnStr r 2 + (l : Int) * rgnStr r 3)

/-- How the copy of a recorded output can go (R188, R189). -/
inductive AssayCopy where
  | ok (s : State)
  | miss
  | recall (frag : Nat)
  | wait

/-- Locates the blocks of one side, each named by its number, for the copy engine of a cluster. -/
def assaySide (s : State) (w : Who) (acc : Nat) : List (Int × Int) → Except AssayCopy (List (Int × Acc))
  | [] => .ok []
  | (b, n) :: bs =>
    match engineXlate s w (BitVec.ofInt 64 (n / 2)) 1 acc with
    | .bad _ _ => .error .miss
    | .recall f => .error (.recall f)
    | .blocked => .error .wait
    | .ok a =>
      if a.fab.isSome || (engineWatch s w.ctx 8 a acc).isSome || s.poisonedAt a.pa then .error .miss
      else match s.homeWait w.core w.ctx a.pa with
        | .recall f => .error (.recall f)
        | .blocked => .error .wait
        | .go => match assaySide s w acc bs with
          | .ok l => .ok ((b, a) :: l)
          | e => e

/-- Copies one region to another of the same shape, element by element; whole blocks keep their descriptors (R77). -/
def assayCopy (w : Who) (src dst : BitVec 512) (s : State) : AssayCopy :=
  let per := if rgnEsize src = 0 then 1 else 2 * rgnSize src
  let pairs : List (Int × Int) := (List.zip (rgnElems dst) (rgnElems src)).flatMap fun p => (List.range per).map fun (k : Nat) => (p.1 + k, p.2 + k)
  match assaySide s w 1 (blocksOf (pairs.map (·.2))), assaySide s w 2 (blocksOf (pairs.map (·.1))) with
  | .error e, _ => e
  | _, .error e => e
  | .ok ss, .ok ds =>
    let read (s : State) (p : Int × Acc) : SrcBlk :=
      (p.1, if s.ownWrite w.core w.ctx p.2.pa then s.ownSec w.cl p.2.pa else s.homeSec p.2.pa)
    let src := ss.map (read s)
    let old (a : Int) : Byte := match ds.find? fun p => p.1 == a / 64 with
      | some p => BitVec.ofNat 8 (nibOf [read s p] (2 * a) + 16 * nibOf [read s p] (2 * a + 1))
      | none => 0
    .ok (ds.foldl (fun t p =>
      let mine := pairs.filter fun q => q.1 / 128 == p.1
      let bytes := toBytes (mine.map fun q => (q.1, nibOf src q.2)) old
      let first := ((mine.find? fun q => q.1 == 128 * p.1).map (·.2)).getD 1
      let whole := first % 128 == 0 && decide (mine.length ≥ 128) && mine.all fun q => q.2 - first == q.1 - 128 * p.1
      t.storeBlock w.core w.ctx (p.2.pa / 64 * 64) (bytes.map fun q => (p.2.pa / 64 * 64 + (q.1 % 64).toNat, q.2))
        (if whole then .put (descAt src first) else .raw) none) (ss.foldl (fun t p => t.plainLoad (.cluster w.cl) p.2.pa) s))

/-- All recorded outputs in turn. -/
def assayCopies (w : Who) : List (BitVec 512 × BitVec 512) → State → AssayCopy
  | [], s => .ok s
  | p :: ps, s => match assayCopy w p.1 p.2 s with
    | .ok t => assayCopies w ps t
    | e => e

/-- What the dispatch of a pure task comes to: a fault of its group before its first instruction, a retirement with no work left, a run, or
a wait. -/
inductive PureRes where
  | fault (f : Flt) (p : Pure)
  | hit (s : State)
  | run (p : Pure)
  | recall (frag : Nat)
  | wait

/-- The outcome of a lookup that found an entry (R188). -/
def assayHit (s : State) (w : Who) (e : Assay) (outs : List Handle) (miss : PureRes) : PureRes :=
  let s1 : State := { s with assay := s.assay.map fun a => if a == e then { a with lru := s.nextId } else a, nextId := s.nextId + 1 }
  if e.outs.length == outs.length && (List.zip outs e.outs).all fun p => p.1.id == p.2.1 && some (s.handleVer p.1) == p.2.2 then .hit s1
  else
    let recs := e.outs.filterMap fun o => (s.handle? w.ctx o.1).bind fun h => if some (s.handleVer h) == o.2 then some h else none
    if recs.length ≠ e.outs.length then miss
    else match assayCopies w (List.zipWith (fun h o => (h.region, o.region)) recs outs) s1 with
      | .ok t => .hit t
      | .miss => miss
      | .recall f => .recall f
      | .wait => .wait

/-- Why bytes of a context cannot be read (R430): the fault of the first that cannot. -/
def hubFlt (s : State) (ctx : Nat) : Nat → BitVec 64 → Flt
  | 0, va => xlateFlt va 1 0 0 0
  | n + 1, va =>
    if isFabric va then pureFlt 3
    else match translate s (tlbDie 0) 0 ctx va 1 with
      | .fail f => f
      | .ok r => if s.poisonedAt r.pa then poisonFlt va 1 0 else hubFlt s ctx n (va + 1)
      | _ => xlateFlt va 1 0 0 0

/-- What a pure task's list lets it touch, when its digest is not taken: it writes no entry (R186, R190). -/
def undigested (s : State) (ctx : Nat) (l : Option (List Nat × List Nat)) : Pure :=
  let (ins, outs) := l.getD ([], [])
  { ins := ins.filterMap fun i => (s.verOf ctx i).map fun v => (i, v), outs := outs, digest := 0, spoiled := true, meas := 0 }

/-- Dispatch of a pure task whose target's cluster is `cl` (R186 to R189). -/
def dispatchPure (s : State) (q : QRec) (cl : Nat) : PureRes :=
  let w : Who := ⟨cl, 4 * cl, q.ctx, q.part, 0x1FFFF, 0, (s.context q.ctx).level, false⟩
  let bad (id : Nat) (l : Option (List Nat × List Nat)) : PureRes := .fault (handleFlt id 3) (undigested s q.ctx l)
  match hubRead s q.ctx (recHlist q.record) 32, hubRead s q.ctx (recArg q.record) 64 with
  | .recall f, _ => .recall f
  | _, .recall f => .recall f
  | .wait, _ => .wait
  | _, .wait => .wait
  | .fail, _ => bad 0 none
  | .ok l _, .fail => .fault (hubFlt s q.ctx 64 (recArg q.record)) (undigested s q.ctx (handleList l))
  | .ok l _, .ok arg _ =>
    match handleList l with
    | none => bad 0 none
    | some (ins, outs) =>
      match (ins ++ outs).find? fun i => (s.handle? q.ctx i).isNone with
      | some i => bad i (some (ins, outs))
      | none =>
        let hi := ins.filterMap (s.handle? q.ctx)
        let ho := outs.filterMap (s.handle? q.ctx)
        match s.measOf q.ctx (recEntry q.record) with
        | none => .run (undigested s q.ctx (some (ins, outs)))
        | some m =>
          let d := digestOf s (s.context q.ctx).key m arg hi ho
          let meas := BitVec.ofNat 64 (leNat (m.take 8))
          let miss : PureRes := .run { ins := hi.map fun h => (h.id, s.handleVer h), outs := outs, digest := d, meas := meas }
          let (seam, set, tag) := digestPlace d
          if s.aways q.ctx = 0 then miss
          else match s.assay.find? fun a => a.seam == seam && a.set == set && a.tag == tag && a.ctx == q.ctx with
            | some e => assayHit s w e ho miss
            | none => miss

/-! ## PLACEMENT_PASS (R405) -/

/-- The head of the highest level of a seam that has one, HELD records passed over. -/
def seamHead (s : State) (seam part : Nat) : Option QRec :=
  let l := s.queue.filter fun q => q.seam == seam && q.part == part && !q.held && !q.spilled && !q.waiting
  l.foldl (fun b q => match b with
    | some p => if q.level > p.level then some q else some p
    | none => some q) none

/-- Whether a candidate comes before another: level, FIFO entry time, seam. -/
def candBefore (a b : QRec) : Bool :=
  decide (a.level > b.level) || (a.level == b.level && (decide (a.entered < b.entered) || (a.entered == b.entered && decide (a.seam < b.seam))))

def insCand (q : QRec) : List QRec → List QRec
  | [] => [q]
  | p :: ps => if candBefore p q then p :: insCand q ps else q :: p :: ps

/-- The candidates of a die, in order. -/
def candidates (s : State) (die part : Nat) : List QRec :=
  ((List.range 16).filterMap fun i => seamHead s (16 * die + i) part).foldr insCand []

/-- What a record gives its groups. -/
def dispatchOf (s : State) (q : QRec) (pure : Option Pure) : Dispatch :=
  let l := s.launch? q.launch
  let cl := (l.map fun x => fld x.record 240 224).getD 0
  { ctx := q.ctx, part := q.part, launch := q.launch, record := q.record, prio := q.level, entered := q.entered
    handler := match q.kind with
      | .handler _ => true
      | _ => false
    service := q.kind == .service
    pts := q.pts, pure := pure, cbase := (l.map fun x => x.record.extractLsb' 64 64).getD 0, clen := cl }

/-- A retired pure task completes as its group would have, on the cluster chosen for it; the SOURCE of its event is a free value. -/
def retirePure (s : State) (q : QRec) (cl : Nat) : JoinRes :=
  let (n, s) := s.draw
  let g : Group :=
    { gid := gidOf (4 * cl) 0, ctx := q.ctx, part := q.part, vregs := 8, sregs := 8, threads := [], warps := [], scr := { base := 0, size := 0 }
      task := q.record, launch := q.launch }
  completeTask (s.leaveSeam q) g ((Config.freeWord n).toNat % 32768)

/-- A task whose target is known is dispatched. A wait leaves it queued, and the answer says so. -/
def dispatchTask (s : State) (q : QRec) (os : List Occ) : State × Bool :=
  let cl := ((os.head?.map Occ.core).getD 0) / 4
  let go (p : Option Pure) : Nat × State := placeTask (dispatchOf s q p) os (s.leaveSeam q)
  if !recPure q.record then ((go none).2, false)
  else match dispatchPure s q cl with
    | .recall f => (s.askRecall f, true)
    | .wait => (s, true)
    | .run p => ((go (some p)).2, false)
    | .fault f p =>
      let (gid, t) := go (some p)
      (groupFault gid { code := f.code, info := BitVec.ofNat 32 f.info, aux := f.aux, addr := f.addr, pc := recEntry q.record, acc := BitVec.ofNat 3 f.acc, agent := 5 } t, false)
    | .hit t => match retirePure t q cl with
      | .done u => (u, false)
      | .recall f => (s.askRecall f, true)
      | .wait => (s, true)

/-- What a pass's candidates come to: all looked at, or a stop at one that was placed or whose memory has to be waited for, with those left. -/
inductive PassStop where
  | none
  | placed (rest : List QRec)
  | waits (rest : List QRec)

/-- The candidates of a pass in turn, up to the first that is placed: each on a target that respects the reservations, or a reservation. -/
def passRest (die : Nat) : List QRec → State → State × PassStop
  | [], s => (s, .none)
  | q :: qs, s =>
    match targetIn s (viewsFor s q) q.record q.level q.entered (clustersFor s q die) with
    | some os => let r := dispatchTask s q os; (r.1, if r.2 then .waits (q :: qs) else .placed qs)
    | none => passRest die qs (makeReserve s q die)

/-- Some core of a die in the partition holds no group and no reservation. -/
def idleCore (s : State) (die part : Nat) : Bool :=
  (List.range 96).any fun i =>
    let c := die * 96 + i
    bit (s.part part).img (320 + c / 4) && s.present (c / 4) && !s.groups.any (fun p => gidCore p.1 == c) && !s.reserves.any fun r => r.places.any fun o => o.core == c

/-- The first record of another die, in ring order, whose launch has this die in its step's set and that fits here. -/
def stealFor (s : State) (die part : Nat) : Option (QRec × List Occ) :=
  (List.range 7).findSome? fun i =>
    (candidates s ((die + i + 1) % 8) part).findSome? fun q =>
      if (s.launch? q.launch).any fun l => l.dset.contains die then
        (targetIn s (viewsFor s q) q.record q.level q.entered (clustersFor s q die)).map fun os => (q, os)
      else none

/-- A pass goes on later with what is left of it. -/
def State.keepPass (s : State) (die part : Nat) (rest : List QRec) (next : Nat) : State :=
  { s with passOn := s.passOn.insert die { part := part, rest := rest.map QRec.id, next := next } }

/-- A pass is over. -/
def State.endPass (s : State) (die part : Nat) : State :=
  let k := 64 * die + part
  { s with passOn := s.passOn.erase die, passes := s.passes.setD 0 k (SMap.getD 0 s.passes k - 1) }

/-- The candidates a pass has now: a new pass's, or what is left of the one under way; none while the pass of another partition is under way
on the die or this one has placed a task in this package tick. -/
def passNow (s : State) (die part : Nat) : Option (List QRec) :=
  match s.passOn.find? die with
  | none => some (candidates s die part)
  | some p =>
    if p.part = part then
      if p.next > s.ptime then none
      else some (p.rest.filterMap fun i => s.queue.find? fun q => q.id == i && q.seam / 16 == die && !q.held && !q.spilled && !q.waiting)
    else if (s.part p.part).st == .running then none
    else some (candidates s die part)

/-- The end of a pass: an idle core takes a record of another die (R405). -/
def passTail (s : State) (die part : Nat) : State :=
  match (if idleCore s die part then stealFor s die part else none) with
  | none => s.endPass die part
  | some (q, os) => let r := dispatchTask s q os; if r.2 then r.1.keepPass die part [] s.ptime else r.1.endPass die part

/-- PLACEMENT_PASS (R405): the pass under way on the die, or the first of those that are due, up to the next task it places. -/
def execPlacementPass (die part : Nat) (s : State) : Out :=
  if SMap.getD 0 s.passes (64 * die + part) = 0 || (s.part part).st != .running || s.dieLost die then .next s
  else match passNow s die part with
    | none => .next s
    | some l => match passRest die l s with
      | (t, .placed rest) => .next (t.keepPass die part rest (s.ptime + 1))
      | (t, .waits rest) => .next (t.keepPass die part rest s.ptime)
      | (t, .none) => .next (passTail t die part)

/-! ## Launches (R394 to R400) -/

/-- LADDR (R394): a doorbell write. -/
def execLaddr (part : Nat) (v : BitVec 64) (s : State) : Out :=
  let p := s.part part
  if part ≥ 64 || fld v 5 0 ≠ 0 || p.st == .free || s.phase != 15 then .next s
  else if p.lq.length ≥ 256 then .next (s.updPart part fun p => { p with drops := min 0xFFFFFF (p.drops + 1) })
  else .next (s.updPart part fun p => { p with lq := p.lq ++ [v] })

def lnCtx (r : BitVec 512) : Nat := fld r 273 264
def lnTasks (r : BitVec 512) : BitVec 64 := r.extractLsb' 0 64
def lnCompl (r : BitVec 512) : BitVec 64 := r.extractLsb' 128 64
def lnNtask (r : BitVec 512) : Nat := fld r 223 192

/-- Order 2 of R396. -/
def launchBad (r : BitVec 512) : Bool :=
  let lo := fld r 259 256
  let hi := fld r 263 260
  fld r 511 275 != 0 || fld r 247 241 != 0 || lo < 1 || lo > 8 || hi < lo || hi > 8 || fld r 240 224 > 65536 ||
    lnNtask r < 1 || lnNtask r > 16777216 || (lnTasks r).toNat % 64 != 0 || (lnCompl r).toNat % 16 != 0

/-- Task records read one by one through the context's translation. -/
def readTasks (s : State) (ctx : Nat) : Nat → BitVec 64 → HubRes (List (BitVec 512))
  | 0, _ => .ok [] s
  | n + 1, va =>
    match hubRead s ctx va 64 with
    | .ok l _ => match readTasks s ctx n (va + 64) with
      | .ok rs t => .ok (BitVec.ofNat 512 (leNat l) :: rs) t
      | e => e
    | .fail => .fail
    | .recall f => .recall f
    | .wait => .wait

/-- Order 4 of R396: the first record that is malformed or steps back. -/
def taskBad : Nat → Nat → List (BitVec 512) → Option Nat
  | _, _, [] => none
  | i, step, r :: rs => if recBad r || recStep r < step then some i else taskBad (i + 1) (recStep r) rs

/-- A record's group or gang fits on a die of the mask with the partition's clusters empty (R396, order 5). -/
def fitsEmpty (s : State) (part mask : Nat) (r : BitVec 512) : Bool :=
  let bare : State := { s with groups := [], clusters := [] }
  (List.range 8).any fun d => mask.testBit d &&
    (targetIn bare [[]] r 0 0 (prefOrder s part (seamOf (recAff r) [d]) d)).isSome

/-- The checks of R396 after the record is read: its tasks, or STATUS and INDEX. -/
def launchTasks (s : State) (part : Nat) (r : BitVec 512) : HubRes (Except (Nat × Nat) (List (BitVec 512))) :=
  let c := s.context (lnCtx r)
  if c.st != .active || fld c.img 115 110 ≠ part then .ok (.error (4, 0)) s
  else if launchBad r then .ok (.error (2, 0)) s
  else match readTasks s (lnCtx r) (lnNtask r) (lnTasks r) with
    | .fail => .ok (.error (2, 0)) s
    | .recall f => .recall f
    | .wait => .wait
    | .ok rs _ => match taskBad 0 0 rs with
      | some i => .ok (.error (3, i)) s
      | none => match rs.findIdx? fun x => !fitsEmpty s part (fld r 255 248) x with
        | some i => .ok (.error (3, i)) s
        | none => if s.spillUsed part + rs.length + 64 > s.spillCap part then .ok (.error (6, 0)) s else .ok (.ok rs) s

/-- The 16-byte units of a constant block as they stand at launch, by physical address / 16 (R64). -/
def konstOf (s : State) (ctx : Nat) (va : BitVec 64) (len : Nat) : SMap (BitVec 128) :=
  (List.range ((va.toNat % 16 + len + 15) / 16)).foldl (fun m i =>
    let a := va - va % 16 + BitVec.ofNat 64 (16 * i)
    if len = 0 || isFabric a then m
    else match translate s (tlbDie 0) 0 ctx a 1 with
      | .ok r => m.insert (s.fwd r.pa / 16) (BitVec.ofNat 128 (leNat (s.rdBytes r.pa 16)))
      | _ => m) []

/-- LAUNCH_ACCEPT (R396): a launch record that cannot be read is malformed and has no completion cell. -/
def execLaunchAccept (part : Nat) (s : State) : Out :=
  let p := s.part part
  match p.lq with
  | [] => .next s
  | a :: rest =>
    if p.st != .running || (s.launches.filter fun l => l.part == part).length ≥ 16 || s.hubWaits part then .next s
    else
      let pop (s : State) : State := s.updPart part fun p => { p with lq := rest }
      match hubPhys s a.toNat 64 with
      | .recall f => .next (s.askRecall f)
      | .wait => .next s
      | .fail => .next ((pop s).updPart part fun p => { p with nocell := min 0xFFFFFF (p.nocell + 1) })
      | .ok l _ =>
        let r := BitVec.ofNat 512 (leNat l)
        match launchTasks s part r with
        | .recall f => .next (s.askRecall f)
        | .wait => .next s
        | .fail => .next s
        | .ok res _ =>
          let (id, s1) := (pop s).fresh
          let x : Launch := match res with
            | .ok rs => { id := id, part := part, ctx := lnCtx r, record := r, todo := rs, pts := s.hubPts, konst := konstOf s (lnCtx r) (r.extractLsb' 64 64) (fld r 240 224) }
            | .error e => { id := id, part := part, ctx := lnCtx r, record := r, todo := [], status := some e }
          .next { s1 with launches := s1.launches ++ [x] }

/-- The dies a step may use, and those it has lost: dies of the mask with a cluster of the partition (R400). -/
def stepDies (s : State) (l : Launch) : List Nat × List Nat :=
  let own (d : Nat) (p : Nat → Bool) : Bool := (List.range 24).any fun c => bit (s.part l.part).img (320 + 24 * d + c) && p (24 * d + c)
  let m := (List.range 8).filter fun d => (fld l.record 255 248).testBit d
  (m.filter fun d => own d s.present && !s.dieLost d, m.filter fun d => s.dieLost d && own d fun _ => true)

/-- Dies in the order of R400: fewest queued records of the partition, then the lower number. -/
def insDie (load : Nat → Nat) (d : Nat) : List Nat → List Nat
  | [] => [d]
  | e :: es => if load d < load e || (load d == load e && d < e) then d :: e :: es else e :: insDie load d es

/-- STEP_START (R400). -/
def execStepStart (launch : Nat) (s : State) : Out :=
  match s.launches.find? fun l => l.id == launch with
  | none => .next s
  | some l =>
    if l.started || l.status.isSome || l.todo.isEmpty || (s.part l.part).st != .running then .next s
    else
      let (E, gone) := stepDies s l
      let min' := fld l.record 259 256
      if E.length < min' then
        if E.length + gone.length ≥ min' then .next (s.updLaunch l.id fun l => { l with status := some (5, 0) }) else .next s
      else
        let load (d : Nat) : Nat := (s.queue.filter fun q => q.part == l.part && q.seam / 16 == d).length
        let D := ((E.foldr (insDie load) []).take (min (fld l.record 263 260) E.length)).foldr insNat []
        let step := (l.todo.head?.map recStep).getD 0
        let now := l.todo.filter fun r => recStep r == step
        let s1 := s.updLaunch l.id fun l => { l with todo := l.todo.filter (fun r => recStep r != step), started := true, step := step, dset := D, opened := now.length }
        .next (now.foldl (fun s r =>
          let seam := seamOf (recAff r) D
          let (q, s) := s.newRec seam r l.ctx l.part (some l.id) .normal l.pts
          s.putRec q (match s.roomFor seam l.part 0 with
            | .seam => .seam
            | _ => .spill)) s1)

/-- LAUNCH_END (R397, R398): the completion cell, whose counts keep their low bits (log entry 65), and MSI-X vector p when IRQ is set. -/
def execLaunchEnd (launch : Nat) (s : State) : Out :=
  match s.launches.find? fun l => l.id == launch with
  | none => .next s
  | some l =>
    match l.status with
    | none => .next s
    | some (code, index) =>
      let fin (s : State) : State :=
        let s : State := { s with launches := s.launches.filter fun x => x.id != l.id }
        if bit l.record 274 then s.raiseMsi l.part else s
      let noCell : State := s.updPart l.part fun p => { p with nocell := min 0xFFFFFF (p.nocell + 1) }
      if lnCompl l.record = 0 then .next (fin s)
      else if code = 4 then .next (fin noCell)
      else
        let w := code + index * 2 ^ 8 + l.steps % 2 ^ 16 * 2 ^ 48 + l.done % 2 ^ 32 * 2 ^ 64 + l.killed % 2 ^ 32 * 2 ^ 96
        match hubWrite s l.ctx (lnCompl l.record) (leBytes 16 w) with
        | .ok _ t => .next (fin t)
        | .fail => .next (fin noCell)
        | .recall f => .next (s.askRecall f)
        | .wait => .next s

end Sys2Proof.Machine
end

