-- ==== Sys2Proof/Machine/Park.lean ====
section
/-!
DEFINITION. Parking (R194 to R199, R386 to R388, R429 to R435): a fault parks its group, the park frame is written and the fault delivered,
and GRESUME, GKILL, UNPARK and PARK; the service ring's entries; foreman faults; the watchdog.
-/
namespace Sys2Proof.Machine
open Sys2Proof

/-! ## The fault record (R429) -/

/-- The 64 bytes of a fault record, as a number. -/
def faultNat (ctx gid cmdIdx : Nat) (f : FaultRec) : Nat :=
  f.time * 2 ^ 448 + f.addr.toNat * 2 ^ 384 + f.pc.toNat * 2 ^ 320 + f.aux.toNat * 2 ^ 256 + f.info.toNat * 2 ^ 224 + ctx * 2 ^ 214 + gid * 2 ^ 197 +
    f.wid * 2 ^ 192 + f.tid * 2 ^ 182 + f.slot * 2 ^ 175 + cmdIdx * 2 ^ 167 + f.agent.toNat * 2 ^ 163 + f.acc.toNat * 2 ^ 160 + f.more * 2 ^ 8 + f.code.toNat

/-- The saved engine commands of a group, in the order of its CMD section: copies, epilogues, guest commands. -/
def State.savedCmds (s : State) (gid : Nat) : List Nat :=
  let c := s.cluster (gidCl gid)
  ((c.copyQ.filter fun x => x.gid == gid).map CopyCmd.id) ++ ((c.epiQ.filter fun x => x.gid == gid).map EpiCmd.id) ++
    s.sites.flatMap fun p => (p.2.cmds.filter fun x => x.gid == gid).map GuestCmd.id

/-- CMDIDX (R429). -/
def State.cmdIdx (s : State) (gid : Nat) (f : FaultRec) : Nat :=
  match f.cmd with
  | some id => ((s.savedCmds gid).findIdx? (· == id)).getD 0xFF
  | none => 0xFF

/-! ## FAULT_PARK (R194, R272) -/

/-- What a group has issued has completed: its loads and atomics, its running passes and epilogues, instructions of R372 under way. -/
def State.quiet (s : State) (gid : Nat) : Bool :=
  let c := s.cluster (gidCl gid)
  !(s.loads.any fun l => l.gid == gid && l.kind != .copy) && !((s.group? gid).any fun g => g.warps.any fun w => w.busy.isSome) && !(c.mma.any fun m => m.gid == gid && m.running) && !(c.epiQ.any fun e => e.gid == gid && e.slot.isSome)

/-- Threads that wait in BAR, GBAR or TBWAIT stand at that instruction again; reservations are lost (R272). -/
def Thread.withdraw (t : Thread) : Thread :=
  let t := { t with resv := none }
  match t.run with
  | .bar _ _ => { t with run := .path }
  | .gbar _ => { t with run := .path }
  | .tbwait _ _ _ => { t with run := .path }
  | _ => t

/-- A halt or a park withdraws what a group waits for: arrivals and SYSCALLs (R241, R272); its running copies stop. -/
def State.withdrawGroup (s : State) (gid : Nat) : State :=
  let s := s.updGroup gid fun g => { g with threads := g.threads.map Thread.withdraw, warps := g.warps.map fun w => { w with sys := none, drains := [] } }
  let s : State := { s with parts := s.parts.map fun p => (p.1, { p.2 with svc := p.2.svc.filter fun e => !(e.kind == 1 && e.gid == gid) }) }
  s.updCluster (gidCl gid) fun c => { c with copyQ := c.copyQ.map fun x => if x.gid == gid && x.st == .running then { x with st := .suspended } else x }

/-- A stopping group is parked. -/
def State.parkNow (s : State) (gid : Nat) (f : FaultRec) : State :=
  (s.withdrawGroup gid).updGroup gid fun g => { g with life := .parked { fault := f, since := s.cyclesOf (gidDie gid) } }

/-- FAULT_PARK (R194): once what the group issued has completed. A stop that PARK asked for is ended by that PARK (R386). -/
def execFaultPark (gid : Nat) (s : State) : Out :=
  match (s.group? gid).map Group.life with
  | some (.stopping f false) => if s.quiet gid then .next (s.parkNow gid f) else .next s
  | _ => .next s

/-! ## The park frame (R196, R432) -/

/-- Offsets of the sections of a frame, its scratch window and its size. -/
structure FrameLay where
  thr : Nat
  vreg : Nat
  ureg : Nat
  chan : Nat
  tbar : Nat
  cmd : Nat
  ring : Nat
  bins : Nat
  win : Nat
  size : Nat

def State.binsOf (s : State) (gid : Nat) : List Bin := (s.core (gidCore gid)).bins.filter fun b => b.gid == gid

def State.frameLay (s : State) (g : Group) : FrameLay :=
  let up (n : Nat) : Nat := (n + 63) / 64 * 64
  let (thr, vreg, ureg, chan) := g.frameSecs
  let tbar := chan + 1024
  let cmd := up (tbar + 16 * g.tbars.length)
  let ring := cmd + 128 * (s.savedCmds g.gid).length
  let bins := up (ring + 8 * g.ring.length)
  let win := up (bins + ((s.binsOf g.gid).map fun b => 16 + b.filed.length * (8 + 4 * b.n)).foldl (· + ·) 0)
  ⟨thr, vreg, ureg, chan, tbar, cmd, ring, bins, win, win + g.scr.size⟩

/-- STATE of a thread in the THR section. -/
def Run.frameState : Run → Nat
  | .exited => 1
  | .filed => 2
  | .wsync _ _ => 3
  | _ => 0

/-- A thread's entry in the THR section. -/
def thrNat (t : Thread) : Nat :=
  t.pc.toNat * 2 ^ 64 + t.preds.toNat * 2 ^ 49 + t.run.frameState * 2 ^ 47 + t.fpflags.toNat * 2 ^ 42 + (if t.rfail then 2 ^ 41 else 0) + t.slot * 2 ^ 34 + t.wid * 2 ^ 29

/-- A barrier's record (R170). -/
def tbarNat (b : TBar) : Nat := b.txbal.toNat * 2 ^ 48 + b.arrived * 2 ^ 27 + b.want * 2 ^ 16 + (if b.phase then 2 else 0) + (if b.init then 1 else 0)

/-- The 256-byte header, its fault record included. -/
def headerNat (s : State) (g : Group) (f : FaultRec) (l : FrameLay) (va : BitVec 64) : Nat :=
  let guard := (List.range 16).foldl (fun n i => n + (match g.guard i with
    | none => 0
    | some true => 1
    | some false => 2) * 2 ^ (2 * i)) 0
  let offs := l.thr + l.vreg * 2 ^ 32 + l.ureg * 2 ^ 64 + l.chan * 2 ^ 96 + l.tbar * 2 ^ 128 + l.cmd * 2 ^ 160 + l.ring * 2 ^ 192 + l.bins * 2 ^ 224
  let flags := (if g.pure.isSome then 1 else 0) + (if g.gang.isSome then 2 else 0) + (if g.tdone then 4 else 0)
  g.scr.size * 2 ^ 1504 + guard * 2 ^ 1472 + (va + BitVec.ofNat 64 l.win).toNat * 2 ^ 1408 + offs * 2 ^ 1152 + flags * 2 ^ 1120 + g.ring.length * 2 ^ 1112 +
    g.tbars.length * 2 ^ 1104 + g.threads.length * 2 ^ 1088 + (s.savedCmds g.gid).length % 256 * 2 ^ 1080 + g.sregs * 2 ^ 1072 + g.vregs * 2 ^ 1064 +
    g.warps.length * 2 ^ 1056 + l.size * 2 ^ 1024 + g.task.toNat * 2 ^ 512 + faultNat g.ctx g.gid (s.cmdIdx g.gid f) f

/-- Extends a list of bytes with zeros up to an offset. -/
def padTo (n : Nat) (l : List Byte) : List Byte := l ++ List.replicate (n - l.length) 0

/-- The bytes of a frame up to its scratch window; the sections whose layout the device keeps to itself hold free values. -/
def frameBytes (s : State) (g : Group) (f : FaultRec) (l : FrameLay) (va : BitVec 64) (free : Nat) : List Byte :=
  let own (lo hi : Nat) : List Byte := (List.range (hi - lo)).map fun i => Config.frameByte free (lo + i)
  let b := leBytes 256 (headerNat s g f l va) ++ g.threads.flatMap fun t => leBytes 16 (thrNat t)
  let b := padTo l.vreg b ++ g.threads.flatMap fun t => (List.range g.vregs).flatMap fun i => leBytes 4 (t.rdV i).toNat
  let b := padTo l.ureg b ++ g.warps.flatMap fun w =>
    leBytes 16 (w.rmode.toNat + (if w.dmode then 8 else 0) + w.lease.toNat * 16) ++ (List.range g.sregs).flatMap fun i => leBytes 8 (w.rdS i).toNat
  let b := padTo l.chan b ++ own l.chan l.tbar ++ g.tbars.flatMap fun t => leBytes 16 (tbarNat t)
  padTo l.cmd b ++ own l.cmd l.win

/-! ### The place of a frame (R432) -/

def Ctx.parkBase (c : Ctx) : BitVec 64 := c.img.extractLsb' 384 64
def Ctx.parkSize (c : Ctx) : Nat := fld c.img 383 352

/-- The rank of a foreman's cluster among its partition's clusters (R435). -/
def State.foreRank (s : State) (cl : Nat) : Nat := ((List.range cl).filter fun c => bit (s.part (s.partOfCluster cl)).img (320 + c)).length

/-- Address of a foreman's record in its K context. -/
def State.foreRecord (s : State) (cl : Nat) : BitVec 64 := (s.context (s.part (s.partOfCluster cl)).kctx).parkBase + BitVec.ofNat 64 (1024 * s.foreRank cl)

/-- Clusters whose foreman record stands in a context's park area. -/
def State.foreWritten (s : State) (ctx : Nat) : List Nat :=
  (s.clusters.filter fun p => (match p.2.fore.faulted with
    | some (_, true, _) => true
    | _ => false) && (s.part (s.partOfCluster p.1)).kctx == ctx).map (·.1)

/-- Addresses and sizes in use in a context's park area: frames, and foreman records. -/
def State.parkUsed (s : State) (ctx : Nat) : List (Nat × Nat) :=
  (s.groups.filterMap fun p => if p.2.ctx == ctx then p.2.frameRun.map fun r => (r.1.toNat, (r.2.2 + 65535) / 65536 * 65536) else none) ++
    (s.foreWritten ctx).map fun c => ((s.foreRecord c).toNat, 1024)

/-- A 64 KiB unit of a park area is free. -/
def State.unitFree (s : State) (ctx u : Nat) : Bool :=
  let a := (s.context ctx).parkBase.toNat + 65536 * u
  (s.parkUsed ctx).all fun r => decide (r.1 + r.2 ≤ a) || decide (a + 65536 ≤ r.1)

/-- The lowest run of `n` free units: `run` of them are free just below unit `u`. -/
def State.findRun (s : State) (ctx n : Nat) : Nat → Nat → Nat → Option Nat
  | 0, _, _ => none
  | fuel + 1, u, run =>
    if s.unitFree ctx u then (if run + 1 ≥ n then some (u + 1 - n) else s.findRun ctx n fuel (u + 1) (run + 1))
    else s.findRun ctx n fuel (u + 1) 0

/-- Physical addresses of 64 KiB units of a context, for writing. -/
def unitAddrs (s : State) (ctx : Nat) : List (BitVec 64) → HubRes (List Nat)
  | [] => .ok [] s
  | va :: vas =>
    match translate s (tlbDie 0) 0 ctx va 2 with
    | .fail _ => .fail
    | .recall f => .recall f
    | .blocked => .wait
    | .ok r => match unitAddrs s ctx vas with
      | .ok l t => .ok (s.fwd r.pa :: l) t
      | e => e

/-- Writes a parked group's frame: its address and the state with it. `fail` where it cannot be written now. -/
def writeFrame (s : State) (g : Group) (f : FaultRec) : HubRes (BitVec 64) :=
  let c := s.context g.ctx
  let l := s.frameLay g
  let n := (l.size + 65535) / 65536
  match s.findRun g.ctx n c.parkSize 0 0 with
  | none => .fail
  | some u =>
    let va := c.parkBase + BitVec.ofNat 64 (65536 * u)
    match unitAddrs s g.ctx ((List.range n).map fun i => va + BitVec.ofNat 64 (65536 * i)) with
    | .fail => .fail
    | .recall fr => .recall fr
    | .wait => .wait
    | .ok us _ =>
      let blocks := (List.range (l.size / 64)).map fun b => frameByteAt us (64 * b)
      match physReady s blocks with
      | .recall fr => .recall fr
      | .wait => .wait
      | .fail => .fail
      | .ok _ _ =>
        let (free, s) := s.draw
        let body := frameBytes s g f l va free
        let scr := (List.range g.scr.size).map fun i => SMap.getD (0 : Byte) g.scr.bytes i
        let s := blocks.foldl (fun t pa => t.touch g.ctx pa) s
        let s := hubStore s ((body ++ scr).mapIdx fun i b => (frameByteAt us i, b))
        let win (b : Nat) : Nat := frameByteAt us (l.win + 64 * b)
        let s := g.scr.desc.foldl (fun t d => t.setDesc (win d.1) d.2) s
        let s := g.scr.poison.foldl (fun t b => t.setPoison (t.blk (win b))) s
        let past (d : Nat × BitVec 64 × Nat) : Bool := d.1 == g.ctx && decide (d.2.1.toNat < va.toNat + 65536 * n) && decide (va.toNat < d.2.1.toNat + d.2.2)
        let s : State := { s with deadWin := s.deadWin.filter fun d => !past d }
        .ok va (s.updGroup g.gid fun k => { k with life := match k.life with
          | .parked p => .parked { p with frame := some (va, us, l.size) }
          | x => x })

/-! ### Delivery (R195, R433, R434) -/

/-- A fault in a group of its partition's K context raises MSI-X vector 66. -/
def State.kAlarm (s : State) (ctx part : Nat) : State := if (s.part part).kctx == ctx then s.raiseMsi 66 else s

/-- A KIND 2 entry for a parked group. -/
def State.faultEntry (s : State) (g : Group) (f : FaultRec) (frame : BitVec 64) (handler : Bool) : State :=
  s.service g.part
    { kind := 2, arg := BitVec.ofNat 64 (f.code.toNat + f.agent.toNat * 256 + (if handler then 4096 else 0)), frame := frame, reqno := 0, service := 0
      ctx := g.ctx, gid := g.gid, wid := f.wid }

/-- The handler record of a fault that goes to a handler task (R433); none where it goes to the K runtime. -/
def handlerFor (s : State) (g : Group) (f : FaultRec) : HubRes (Option (BitVec 512)) :=
  let a := (s.context g.ctx).img.extractLsb' 256 64
  if !(f.code == cWatch || f.code == cBkpt || f.code == cTrap) || a == 0 || g.handler then .ok none s
  else match hubRead s g.ctx a 64 with
    | .ok l t => let r := BitVec.ofNat 512 (leNat l); .ok (if recBad r then none else some r) t
    | .fail => .ok none s
    | .recall fr => .recall fr
    | .wait => .wait

/-- A handler task for a parked group (R195). -/
def State.enqueueHandler (s : State) (g : Group) (r : BitVec 512) (frame : BitVec 64) : State :=
  let r := recPut (recPut (recPut r 320 5 31) 64 64 frame.toNat) 176 16 0
  let seam := gidDie g.gid * 16 + gidCl g.gid % 24 % 16
  let (q, s) := s.newRec seam r g.ctx g.part none (.handler g.gid) s.hubPts
  s.putRec q (if s.hubWaits g.part then .none else s.roomFor seam g.part 0)

/-- PARK_FRAME_WRITE (R432): the frame is written, HANDREC read and the fault delivered (R433); a frame that cannot be written is held. -/
def execParkFrameWrite (gid : Nat) (s : State) : Out :=
  match s.group? gid with
  | none => .next s
  | some g => match g.life with
    | .parked p =>
      let alarm (s : State) : State := if p.held then s else s.kAlarm g.ctx g.part
      if p.frame.isSome || !p.retry then .next s
      else match writeFrame s g p.fault with
        | .recall f => .next (s.askRecall f)
        | .wait => .next s
        | .fail =>
          let s1 := s.updGroup gid fun k => { k with life := .parked { p with held := true, retry := false } }
          .next (if p.held then s1 else alarm (s1.faultEntry g p.fault 0 false))
        | .ok va s1 => match handlerFor s1 g p.fault with
          | .recall f => .next (s.askRecall f)
          | .ok (some r) s2 => .next (alarm ((if p.held then s2.faultEntry g p.fault va true else s2).enqueueHandler g r va))
          | .ok none s2 => .next (alarm (s2.faultEntry g p.fault va false))
          | _ => .next s
    | _ => .next s

/-- A group's held frame is tried again. -/
def Group.retryFrame (g : Group) : Group :=
  { g with life := match g.life with
    | .parked k => .parked { k with retry := true }
    | x => x }

/-- Held frames of a context are tried again: a run has been freed, or the context updated; those of a swapped partition once it is back. -/
def State.retryFrames (s : State) (ctx : Nat) : State :=
  let go (g : Group) : Group := if g.ctx == ctx then g.retryFrame else g
  { s with groups := s.groups.map fun p => (p.1, go p.2), vault := s.vault.map fun v => { v with groups := v.groups.map go } }

/-! ## Resuming and killing (R198, R199, R349) -/

/-- What a handler left in a frame for one thread; none where R196 refuses it. -/
def frameThread (rd : Nat → Nat → Nat) (l : FrameLay) (vregs i : Nat) (t : Thread) : Option Thread :=
  let e := rd (l.thr + 16 * i) 16
  if e / 2 ^ 47 % 4 ≠ t.run.frameState || e / 2 ^ 34 % 128 ≠ t.slot || e / 2 ^ 29 % 32 ≠ t.wid || (e / 2 ^ 41 % 2 == 1) ≠ t.rfail then none
  else
    let t1 := { t with preds := BitVec.ofNat 15 (e / 2 ^ 49), fpflags := BitVec.ofNat 5 (e / 2 ^ 42) }
    if t.run.frameState = 0 || t.run.frameState = 3 then
      let v := (List.range vregs).map fun j => BitVec.ofNat 32 (rd (l.vreg + 4 * (vregs * i + j)) 4)
      some { t1 with pc := BitVec.ofNat 64 (e / 2 ^ 64), v := v ++ t.v.drop vregs }
    else some t1

/-- What a handler left in a frame for one warp, within R49. -/
def frameWarp (rd : Nat → Nat → Nat) (l : FrameLay) (sregs i : Nat) (w : Warp) : Option Warp :=
  let o := l.ureg + (16 + 8 * sregs) * i
  let h := rd o 16
  if h % 8 > 4 || h / 16 % 256 = 0 then none
  else some { w with
    rmode := BitVec.ofNat 3 h, dmode := h / 8 % 2 == 1, lease := BitVec.ofNat 8 (h / 16)
    s := ((List.range sregs).map fun j => if j = 0 then 0 else BitVec.ofNat 64 (rd (o + 16 + 8 * j) 8)) ++ w.s.drop sregs }

def allSome {α : Type} : List (Option α) → Option (List α)
  | [] => some []
  | none :: _ => none
  | some x :: xs => (allSome xs).map fun l => x :: l

/-- The group as its frame gives it; none where the check of R196 fails. -/
def frameGroup (rd : Nat → Nat → Nat) (l : FrameLay) (g : Group) : Option Group :=
  match allSome (g.threads.mapIdx fun i t => frameThread rd l g.vregs i t), allSome (g.warps.mapIdx fun i w => frameWarp rd l g.sregs i w) with
  | some ts, some ws => some { g with threads := ts, warps := ws }
  | _, _ => none

/-- How a request on a frame ends. -/
inductive FrameAct where
  | ok (s : State)
  | bad
  | recall (frag : Nat)
  | wait

/-- The suspended commands of a group continue from their marks; the one the fault names makes its next check unwatched (R198); the guest's are
sent RESUME with a zero token (R483). -/
def State.wakeCmds (s : State) (g : Group) (f : FaultRec) : State :=
  let pass (id : Nat) : Bool := f.code == cWatch && f.cmd == some id
  let copy (x : CopyCmd) : CopyCmd :=
    { x with
      st := if x.st == .suspended then .queued else x.st
      passWatch := x.passWatch || (pass x.id && f.agent != 2)
      passMatrix := x.passMatrix || (pass x.id && f.agent == 2) }
  let s := s.updCluster (gidCl g.gid) fun c =>
    { c with
      copyQ := c.copyQ.map fun x => if x.gid == g.gid then copy x else x
      mma := c.mma.map fun x => if x.gid == g.gid then { x with passWatch := x.passWatch || pass x.id } else x
      epiQ := c.epiQ.map fun x => if x.gid == g.gid then { x with suspended := false, passWatch := x.passWatch || pass x.id } else x }
  s.sites.foldl (fun s p => (p.2.cmds.filter fun x => x.gid == g.gid && x.st == .suspended).foldl (fun s x =>
    (s.siteSend p.1 (cmdPacket 0x8011 x.pkt 0)).updSite p.1 fun y =>
      { y with
        cmds := y.cmds.map fun z => if z.id == x.id then { z with st := .outstanding, hit := none } else z
        pass := y.pass ++ (x.hit.map fun b => (pkCtx x.pkt, b)).toList }) s) s

/-- Bins resume from their saved age: the cycles of the pause do not count, and a bin is ready when it holds W threads or its saved age is
2,048 cycles or more (R32, R29). -/
def State.shiftBins (s : State) (gid since : Nat) : State :=
  let d := s.cyclesOf (gidDie gid) - since
  s.updCore (gidCore gid) fun c => { c with bins := c.bins.map fun b =>
    if b.gid == gid then { b with born := b.born + d, ready := decide (b.filed.length ≥ Config.warpW) || decide (since ≥ b.born + 2048) } else b }

/-- The frame of a parked group is gone: its window ends and its run is free. -/
def State.endFrame (s : State) (g : Group) : State :=
  match g.frameRun with
  | some (va, _, size) =>
    State.retryFrames { s with deadWin := (if g.scr.size = 0 then [] else [(g.ctx, va + BitVec.ofNat 64 (size - g.scr.size), g.scr.size)]) ++ s.deadWin } g.ctx
  | none => s

/-- GRESUME of a parked group (R198, R349). Poison in what it reads of the frame fails it with result 2 (DEDUCED, log entry 71). -/
def resumeAct (s : State) (g : Group) : FrameAct :=
  match g.life, g.frameRun with
  | .parked p, some (_, us, size) =>
    let l := s.frameLay g
    match physReady s ((List.range ((size + 63) / 64)).map fun b => frameByteAt us (64 * b)) with
    | .recall f => .recall f
    | .wait => .wait
    | .fail => .wait
    | .ok _ _ =>
      let rd (o n : Nat) : Nat := leNat ((List.range n).map fun i => s.rdByte (frameByteAt us (o + i)))
      if (List.range (l.chan / 64)).any fun b => s.poisonedAt (frameByteAt us (64 * b)) then .bad
      else match frameGroup rd l g with
        | none => .bad
        | some g1 =>
          let s1 := ((s.endFrame g).shiftBins g.gid p.since).updCore (gidCore g.gid) fun c => { c with bins := c.bins.map fun b =>
            if b.gid == g.gid then { b with filed := b.filed.map fun f => match g1.thread? f.th.tid with
              | some t => { f with th := { f.th with preds := t.preds, fpflags := t.fpflags } }
              | none => f } else b }
          let blk : List (Nat × Nat × Nat) := if p.fault.code == cWatch && p.fault.agent == 0 then
              match translate s (gidCore g.gid) (gidDie g.gid) g.ctx p.fault.addr 0 with
              | .ok r => [(p.fault.tid, p.fault.pc.toNat, s.blk r.pa)]
              | _ => []
            else []
          .ok ((resumeGroup g.gid blk (s1.updGroup g.gid fun _ => g1)).wakeCmds g p.fault)
  | _, _ => .bad

/-- No group: a killed group's commands that the guest still has. -/
def deadGid : Nat := 131072 + 193

/-- GKILL of a parked group (R199). -/
def killAct (s : State) (g : Group) : State :=
  let cl := gidCl g.gid
  let s := s.endFrame g
  let s := ((s.cluster cl).copyQ.filter fun c => c.gid == g.gid).foldl (fun s c => match c.into with
    | some t => s.updInbound t (· - 1)
    | none => s) s
  let s := s.updCluster cl fun c =>
    { c with copyQ := c.copyQ.filter (fun x => x.gid != g.gid), mma := c.mma.filter (fun x => x.gid != g.gid), epiQ := c.epiQ.filter fun x => x.gid != g.gid }
  let s : State := { s with sites := s.sites.map fun p => (p.1, { p.2 with cmds := (p.2.cmds.filter fun x => x.gid != g.gid || x.st != .queued).map fun x => if x.gid == g.gid then { x with gid := deadGid } else x }) }
  let l := s.leaveGang g true
  let s := l.state.freeGroup g
  let s := match g.gang with
    | some (gi, _) => s.completeGbar gi
    | none => s
  if l.last && !g.tdone then s.closeTask g.launch true 0 else s

/-- GRESUME and GKILL, UNPARK's forms included: the release, the look-up, the result in D. `refuse` answers a result that the caller has no
right to go beyond. -/
def frameRequest (x : Enc) (kill : Bool) (refuse : Group → Option Nat) (s : State) (v : View) : State :=
  let w := who s
  let put (n : Nat) (s : State) : State := finish x 1 s ⟨wrU v.warp x.d (BitVec.ofNat 64 n), v.ths⟩
  if inFlight s w.gid (((v.P x).take 1).map Thread.tid) then stall s
  else match namedFrame s w w.owner (rdU v.warp x.a) with
    | .none => put 1 s
    | .recall f => stallRecall f s
    | .blocked => stall s
    | .group g => match refuse g with
      | some n => put n s
      | none =>
        let s1 := s.acquire w 3 []
        if kill then put 0 (killAct s1 g)
        else match resumeAct s1 g with
          | .ok t => put 0 t
          | .bad => put 2 s1
          | .recall f => stallRecall f s
          | .wait => stall s

/-- CODE of the fault of a parked group. -/
def Group.parkCode (g : Group) : BitVec 8 :=
  match g.life with
  | .parked p => p.fault.code
  | _ => 0

/-- Who GRESUME and GKILL refuse: a frame that PARK made (R388), and one of another context. -/
def groupRefuse (ctx : Nat) (g : Group) : Option Nat := if g.parkCode = 0 then some 1 else if g.ctx ≠ ctx then some 3 else none

/-- GRESUME (R349). -/
def execGresume (x : Enc) (s : State) : Out := issueS 0xD7 x s fun v => frameRequest x false (groupRefuse (who s).ctx) s v

/-- GKILL (R349, R199). -/
def execGkill (x : Enc) (s : State) : Out := issueS 0xD8 x s fun v => frameRequest x true (groupRefuse (who s).ctx) s v

/-! ## PARK and UNPARK (R386, R387) -/

/-- The record of a park that no fault caused: CODE 0, AGENT 9, the thread with TID 0. -/
def parkRec (s : State) (g : Group) : FaultRec :=
  let t := g.thread? 0
  { code := 0, info := 0, agent := 9, pc := (t.map Thread.pc).getD 0, slot := (t.map Thread.slot).getD 0, time := s.ptime }

/-- Whether a frame of the group would find room in its context's park area. -/
def roomForFrame (s : State) (g : Group) : HubRes (BitVec 64) := writeFrame s { g with life := .parked { fault := parkRec s g } } (parkRec s g)

/-- PARK (R386). -/
def execPark (x : Enc) (s : State) : Out :=
  issueS 0xE3 x s fun v => underWay s <|
    let w := who s
    let a := rdU v.warp x.a
    let gid := fld a 16 0
    let ctx := fld a 41 32
    let put (n : BitVec 64) (s : State) : State := finish x 1 s ⟨wrU v.warp x.d n, v.ths⟩
    let c := s.context ctx
    if fld a 31 17 ≠ 0 || fld a 63 42 ≠ 0 then takeFault (ownIll 0xE3 x) s
    else if (gid = w.gid && ctx = w.ctx) || (!w.phys && (c.st == .free || fld c.img 115 110 ≠ w.part)) then takeFault (permFlt 0 0 8 0) s
    else match s.group? gid with
      | none => put 0 s
      | some g =>
        if g.ctx ≠ ctx then put 0 s
        else match g.life with
          | .parked p => match p.frame with
            | some (va, _, _) => put (va + 1) s
            | none => if p.held && !p.retry then put 2 s else stall s
          | .stopping _ false => stall s
          | _ =>
            let f := match g.life with
              | .stopping f _ => f
              | _ => parkRec s g
            match roomForFrame s g with
            | .fail => put 2 (s.updGroup gid fun k => { k with life := .running })
            | .recall fr => stallRecall fr s
            | .wait => stall s
            | .ok _ _ =>
              if !s.quiet gid then stall (s.updGroup gid fun k => { k with life := .stopping f true })
              else
                let s1 := s.parkNow gid f
                match (s1.group? gid).map fun k => writeFrame s1 k f with
                | some (.ok va s2) => put va s2
                | _ => stall s

/-- The foreman whose written record stands at a physical address, among those the caller may name. -/
def foremanAt (s : State) (w : Who) (pa : Nat) : Option Nat :=
  ((s.clusters.map (·.1)).find? fun c =>
    let k := (s.part (s.partOfCluster c)).kctx
    (s.foreWritten k).contains c && (w.phys || s.partOfCluster c == w.part) &&
      (match translate s (tlbDie 0) 0 k (s.foreRecord c) 0 with
        | .ok r => s.fwd r.pa == s.fwd pa
        | _ => false))

/-- A foreman restarts from its record (R435). -/
def restartForeman (cl pa : Nat) (s : State) : State :=
  let rd (o n : Nat) : Nat := s.rdNat (pa + o) n
  let s := s.retryFrames (s.part (s.partOfCluster cl)).kctx
  s.updCluster cl fun c =>
    { c with fore := { c.fore with
        run := true, faulted := none
        th := { c.fore.th with pc := BitVec.ofNat 64 (rd 64 8), preds := BitVec.ofNat 15 (rd 72 2), run := .path }
        w := { c.fore.w with s := (List.range 64).map fun i => if i = 0 then 0 else BitVec.ofNat 64 (rd (80 + 8 * (i - 1)) 8) } } }

/-- UNPARK (R387): acts on a parked group of the partition, or restarts a foreman whose record A names (R435). -/
def unparkWith (kill : Bool) (x : Enc) (s : State) : Out :=
  issueS 0xE4 x s fun v => underWay s <|
    let w := who s
    let a := rdU v.warp x.a
    let pa := match (if w.phys then physXlate s a 0 else translate s w.owner (w.die % 8) w.ctx a 0) with
      | .ok r => some r.pa
      | _ => none
    match (if kill then none else pa.bind fun p => (foremanAt s w p).map fun c => (c, p)) with
    | some (c, p) =>
      if inFlight s w.gid (((v.P x).take 1).map Thread.tid) then stall s
      else match physReady s ((List.range 16).map fun i => p + 64 * i) with
        | .recall f => stallRecall f s
        | .ok _ _ => finish x 1 (restartForeman c p (s.acquire w 3 [])) ⟨wrU v.warp x.d 0, v.ths⟩
        | _ => stall s
    | none => frameRequest x kill (fun g => if !w.phys && g.part ≠ w.part then some 3 else none) s v

/-- UNPARK.r (R387). -/
def execUnparkR (x : Enc) (s : State) : Out := unparkWith false x s

/-- UNPARK.k (R387). -/
def execUnparkK (x : Enc) (s : State) : Out := unparkWith true x s

/-! ## The service ring (R376, R377) -/

def Part.ksvcBase (p : Part) : BitVec 64 := p.img.extractLsb' 256 64
def Part.ksvcTask (p : Part) : BitVec 64 := p.img.extractLsb' 192 64
def Part.ksvcEntries (p : Part) : Nat := 2 ^ fld p.img 53 50

/-- A service entry's 64 bytes, as a number. -/
def svcNat (e : SvcEntry) : Nat :=
  e.arg.toNat * 2 ^ 448 + e.frame.toNat * 2 ^ 384 + e.reqno.toNat * 2 ^ 352 + e.service.toNat * 2 ^ 344 + e.kind * 2 ^ 336 + e.ctx * 2 ^ 320 +
    e.gid % 2 ^ 17 * 2 ^ 303 + e.wid * 2 ^ 298

/-- Enqueues one copy of the service task record of a partition, PRIO 31, and clears KSVCARM; a record that cannot be read or is malformed
enqueues nothing. -/
def enqueueService (s : State) (part : Nat) : HubRes Unit :=
  let p := s.part part
  let arm (t : State) : State := t.updPart part fun p => { p with ksvcarm := false }
  match hubRead s p.kctx p.ksvcTask 64 with
  | .recall f => .recall f
  | .wait => .wait
  | .fail => .ok () (arm s)
  | .ok l t =>
    let r := recPut (recPut (BitVec.ofNat 512 (leNat l)) 320 5 31) 176 16 0
    if recBad r then .ok () (arm t)
    else
      let seam := seamOf (recAff r) p.dies
      let (q, t) := t.newRec seam r p.kctx part none .service t.hubPts
      .ok () (arm (t.putRec q (if t.hubWaits part then .none else t.roomFor seam part 0)))

/-- SERVICE_ENTRY_WRITE (R377). -/
def execServiceEntryWrite (part : Nat) (s : State) : Out :=
  let p := s.part part
  match p.svc with
  | [] => .next s
  | e :: rest =>
    if p.st == .free || p.st == .swapped || (p.ksvcwr - p.ksvcrd).toNat ≥ p.ksvcEntries then .next s
    else match hubWrite s p.kctx (p.ksvcBase + BitVec.ofNat 64 (p.ksvcwr.toNat % p.ksvcEntries * 64)) (leBytes 64 (svcNat e)) with
      | .recall f => .next (s.askRecall f)
      | .wait => .next s
      | .fail => .next s
      | .ok _ s1 =>
        let s2 := s1.updPart part fun p => { p with svc := rest, ksvcwr := p.ksvcwr + 1, wrPts := some s1.hubPts }
        if p.ksvcarm then match enqueueService s2 part with
          | .ok _ s3 => .next s3
          | .recall f => .next (s.askRecall f)
          | _ => .next s
        else .next s2

/-! ## Foreman faults (R435) -/

/-- The bytes of a foreman record. -/
def foreRecordBytes (ctx : Nat) (c : Foreman) (f : FaultRec) : List Byte :=
  leBytes 64 (faultNat ctx 0x1FFFF 0xFF f) ++ leBytes 8 c.th.pc.toNat ++ leBytes 2 c.th.preds.toNat ++ List.replicate 6 0 ++
    ((List.range 63).flatMap fun i => leBytes 8 (c.w.rdS (i + 1)).toNat) ++ List.replicate 440 0

/-- FOREMAN_FAULT (R435): the record is written and a KIND 4 entry made; in a park area too small for it the foreman waits for a restart of
its partition. A record whose place a frame holds waits for it. -/
def execForemanFault (cl : Nat) (s : State) : Out :=
  match (s.cluster cl).fore.faulted with
  | some (f, false, false) =>
    let pn := s.partOfCluster cl
    let k := (s.part pn).kctx
    let a := s.foreRecord cl
    let mark (written : Bool) (s : State) : State :=
      (s.updCluster cl fun c => { c with fore := { c.fore with faulted := some (f, written, !written) } }).service pn
        { kind := 4, arg := if written then a else 0, frame := 0, reqno := 0, service := 0, ctx := k, gid := 0x1FFFF, wid := 0 }
    if 1024 * (s.foreRank cl + 1) > 65536 * (s.context k).parkSize then .next (mark false s)
    else if (s.parkUsed k).any fun r => decide (r.1 < a.toNat + 1024) && decide (a.toNat < r.1 + r.2) then .next s
    else match hubWrite s k a (foreRecordBytes k (s.cluster cl).fore { f with wid := 0 }) with
      | .ok _ t => .next (mark true t)
      | .fail => .next (mark false s)
      | .recall fr => .next (s.askRecall fr)
      | .wait => .next s
  | _ => .next s

/-! ## The watchdog (R408) -/

/-- Some member of a gang that is parked has not arrived at its GBAR. -/
def gangHeld (s : State) (g : Group) : Bool :=
  match g.gang.bind fun p => s.gangs.find? fun x => x.id == p.1 with
  | some gn => gn.live.any fun m => (s.group? m).any fun k => match k.life with
    | .parked _ => k.threads.any fun t => t.run != .exited && !isGbar t.run
    | _ => false
  | none => false

/-- The count does not advance: every wait of the group is a SYSCALL, or a GBAR on which a parked member has not arrived. -/
def wdogPaused (s : State) (g : Group) : Bool :=
  !s.hasCmds g.gid && !(s.loads.any fun l => l.gid == g.gid) && (g.threads.filter fun t => t.run != .exited).all fun t =>
    match t.run with
    | .path => (g.warp? t.wid).any fun w => w.sys.isSome
    | .gbar _ => gangHeld s g
    | _ => false

/-- A group whose count stands. -/
def wdogStands (s : State) (g : Group) : Bool := g.life == .running && (s.part g.part).st == .running && wdogPaused s g

/-- Package ticks that pass while a group's count stands are not counted (R408). -/
def State.pauseDogs (s : State) (t : State) : State :=
  if t.ptime = s.ptime then t
  else (s.groups.filter fun p => wdogStands s p.2).foldl (fun t p => t.updGroup p.1 fun g => { g with wdogAt := min t.ptime (g.wdogAt + (t.ptime - s.ptime)) }) t

/-- The group has waited its watchdog limit. -/
def wdogDue (s : State) (g : Group) : Bool :=
  g.life == .running && (s.part g.part).st == .running && decide (s.ptime ≥ g.wdogAt + g.wdogLim) && !wdogPaused s g

/-- WATCHDOG_HANG (R408). -/
def execWatchdogHang (gid : Nat) (s : State) : Out :=
  match s.group? gid with
  | some g => if wdogDue s g then
      .next (groupFault gid { parkRec s g with code := cHang, aux := BitVec.ofNat 64 (s.ptime - g.wdogAt), agent := 8 } s)
    else .next s
  | none => .next s

end Sys2Proof.Machine
end

