-- ==== Sys2Proof/Machine/SysReg.lean ====
section
/-!
DEFINITION. PRDS and PWRS: the system registers (R373 to R375, R377), and the commands on contexts and partitions that PWRS of SYSCMD performs
(R379 to R383).
-/
namespace Sys2Proof.Machine
open Sys2Proof

/-! ## Descriptors (R380, R382) -/

def Ctx.part (c : Ctx) : Nat := fld c.img 115 110
def Ctx.fragq (c : Ctx) : Nat := fld c.img 351 320
def Part.fragq (p : Part) : Nat := fld p.img 95 64

def CtxSt.code : CtxSt → Nat
  | .free => 0
  | .active => 1
  | .swapped => 2
  | .dying => 3

def PartSt.code : PartSt → Nat
  | .free => 0
  | .running => 1
  | .halted => 2
  | .swapped => 3

/-- The image READ gives of a context, TOUCHED and STATE filled in. -/
def Ctx.image (c : Ctx) : BitVec 512 := recPut (recPut c.img 120 8 c.touched.toNat) 106 2 c.st.code

/-- The image READ gives of a partition, STATE filled in. -/
def Part.image (p : Part) : BitVec 512 := recPut p.img 48 2 p.st.code

/-- The fields of a context that CTXUPDATE may change are well formed. -/
def ctxFieldsOk (r : BitVec 512) : Bool :=
  fld r 399 384 == 0 && decide (1 ≤ fld r 383 352 ∧ fld r 383 352 ≤ 65535) && decide (1 ≤ fld r 351 320 ∧ fld r 351 320 ≤ 1048576) && decide (fld r 119 116 ≤ 8)

/-- A well-formed context image (R380). -/
def ctxImageOk (r : BitVec 512) : Bool := fld r 105 0 == 0 && decide (fld r 109 108 ≤ 1) && fld r 459 448 == 0 && ctxFieldsOk r

/-- The RO fields cleared, and the fields CTXUPDATE may change. -/
def ctxStored (r : BitVec 512) : BitVec 512 := recPut (recPut r 120 8 0) 106 2 0
def ctxFixed (r : BitVec 512) : BitVec 512 := recPut (recPut (recPut (recPut (recPut (ctxStored r) 384 64 0) 352 32 0) 320 32 0) 256 64 0) 116 4 0

/-- A well-formed partition image (R382). -/
def partImageOk (r : BitVec 512) : Bool :=
  fld r 47 0 == 0 && fld r 267 256 == 0 && fld r 143 128 == 0 && decide (1 ≤ fld r 127 96) && decide (4 ≤ fld r 53 50)

/-- STATE cleared, and the fields PARTUPDATE may change. -/
def partStored (r : BitVec 512) : BitVec 512 := recPut r 48 2 0
def partFixed (r : BitVec 512) : BitVec 512 := recPut (recPut (recPut (partStored r) 320 192 0) 192 64 0) 96 32 0

/-- Clusters a partition's image names. -/
def imgClusters (r : BitVec 512) : List Nat := (List.range 192).filter fun c => bit r (320 + c)

/-- The clusters may be given to a partition: present, not fenced, and in no other (R383, R442). -/
def clustersFree (s : State) (part : Nat) (r : BitVec 512) : Bool :=
  (imgClusters r).all fun c => s.present c && s.parts.all fun p => p.1 == part || p.2.st == .free || p.2.st == .swapped || !bit p.2.img (320 + c)

/-- FRAGQ given to the contexts of a partition, but for one. -/
def State.fragqGiven (s : State) (part but : Nat) : Nat :=
  (s.ctxs.filter fun p => p.1 != but && p.2.st != .free && p.2.part == part).foldl (fun n p => n + p.2.fragq) 0

/-! ## What a command comes to -/

/-- RESULT, the image a READ command writes, and the state; or a wait. -/
inductive CmdRes where
  | ok (result : Nat) (img : Option (BitVec 512)) (s : State)
  | recall (frag : Nat) (s : State)
  | wait (s : State)

/-! ### Emptying -/

/-- Drops every claim of a cluster, dirty bytes written back first (R161, R444). -/
def State.dropClusterClaims (s : State) (cl : Nat) : State :=
  (s.cluster cl).claims.foldl (fun s c => match s.frags.find? fun f => f.id == c.frag with
    | some f => s.dropClaim cl c.ctx f
    | none => s) s

/-- Some dirty block of a cluster cannot be written back now. -/
def State.dirtyWaits (s : State) (cl : Nat) : Bool := (s.cluster cl).held.any fun h => s.waitsAt (h.blk * 64)

/-- A cluster leaves a partition (R72, R442, R509): its claims dropped, its L1s empty, its foreman, events, counters and sampling unit as at
reset. -/
def State.emptyCluster (s : State) (cl : Nat) : State :=
  (s.dropClusterClaims cl).updCluster cl fun c =>
    { c with cores := c.cores.map (fun k => { k with l1 := [] }), fore := {}, evq := [], evLost := 0, ctrs := List.replicate 16 {}, smp := none }

/-! ### Translations (R391) -/

/-- An access translated for a context that has not been performed: a packet within the device, an outstanding load of its memory. -/
def State.xlatBusy (s : State) (mine : Nat → Bool) : Bool :=
  (s.packets.any fun p => mine p.ctx && p.st != .done && !isFabDest p.dest && (match p.pay with
    | .guest _ _ => false
    | _ => true)) ||
  s.loads.any fun l => mine l.ctx && l.parts.any fun q => q.value.isNone && !q.failed && (match q.place with
    | .mem _ => true
    | _ => false)

/-- The size of the leaf page that holds an address: the largest under which it is translated, cached or granted (R391, R411). -/
def State.leafSize (s : State) (ctx va : Nat) : Nat :=
  let cached := (s.tlb.filter fun e => e.ctx == ctx && pteLeaf e.leaf && va / e.psize == e.vpage).map (·.psize)
  let granted := s.sites.flatMap fun p => (p.2.grants.filter fun g => g.ctx == ctx && decide (g.va ≤ va) && decide (va < g.va + g.size)).map Grant.size
  let walked := match walk s false 0 ctx va with
    | .leaf _ l _ => [2 ^ lvlShift l]
    | _ => []
  (cached ++ granted ++ walked).foldl max 65536

/-- Drops cached translations once no access made under one is under way and no guest holds one: scope 0 a page, 1 a context, 2 all. -/
def State.dropXlat (s : State) (scope ctx va : Nat) : Bool × State :=
  let mine (c : Nat) : Bool := scope == 2 || c == ctx
  let n := s.leafSize ctx va
  let base := va / n * n
  let (clear, t) := invalidateGuests scope ctx base n s
  let within (e : TlbEntry) : Bool := va / e.psize == e.vpage || (decide (base ≤ e.vpage * e.psize) && decide (e.vpage * e.psize < base + n))
  if !clear || t.xlatBusy mine then (false, t)
  else (true, { t with tlb := t.tlb.filter fun e => !(mine e.ctx && (scope != 0 || within e)) })

/-! ### Contexts (R381) -/

/-- CTXCREATE, once the checks that read no memory have passed. -/
def ctxCreate (s : State) (id : Nat) (r : BitVec 512) : CmdRes :=
  let (n, s1) := s.draw
  let s1 := s1.updCtx id fun _ => { st := .active, img := ctxStored r, key := Config.random n }
  let att := fld r 191 128
  if (List.range 128).any fun i => targetOf (att + i) == .nothing then .ok 4 none s
  else match hubRead s1 id (r.extractLsb' 192 64) 256 with
    | .fail => .ok 4 none s
    | .recall f => .recall f s
    | .wait => .wait s
    | .ok l s2 =>
      let k := BitVec.ofNat 2048 (leNat l)
      if fld k 2047 1216 ≠ 0 || !Config.keyRecordOk k then .ok 4 none s
      else match physReady s2 ((List.range 128).map (att + ·)) with
        | .recall f => .recall f s
        | .ok _ _ => .ok 0 none (hubStore (s2.updCtx id fun c => { c with keyrec := k, touched := 0 }) ((List.range 128).map fun i => (att + i, 0)))
        | _ => .wait s

/-- A context that the caller may name: any to M, those of its partition to K; a free one is of none. -/
def ctxMine (s : State) (w : Who) (id : Nat) : Bool := w.phys || ((s.context id).st != .free && (s.context id).part == w.part)

def cmdCtxCreate (s : State) (w : Who) (id : Nat) (r : BitVec 512) : CmdRes :=
  if !w.phys && fld r 115 110 ≠ w.part then .ok 2 none s
  else if (s.context id).st != .free then .ok (if ctxMine s w id then 3 else 2) none s
  else if !ctxImageOk r then .ok 4 none s
  else if !w.phys && fld r 109 108 = 1 then .ok 6 none s
  else if s.fragqGiven (fld r 115 110) id + fld r 351 320 > (s.part (fld r 115 110)).fragq then .ok 5 none s
  else ctxCreate s id r

def cmdCtxUpdate (s : State) (w : Who) (id : Nat) (r : BitVec 512) : CmdRes :=
  let c := s.context id
  if c.st == .free || c.st == .dying then .ok 3 none s
  else if !ctxMine s w id then .ok 2 none s
  else if ctxFixed r != ctxFixed c.img || !ctxFieldsOk r then .ok 4 none s
  else if fld r 351 320 < (s.fragsOfCtx id).length then .ok 5 none s
  else .ok 0 none ((s.updCtx id fun c => { c with img := ctxStored r }).retryFrames id)

def cmdCtxRead (s : State) (w : Who) (id : Nat) : CmdRes :=
  if !ctxMine s w id then .ok 2 none s else .ok 0 (some (s.context id).image) s

/-- A group or a task of the context exists. -/
def ctxInUse (s : State) (id : Nat) : Bool :=
  (s.groups.any fun p => p.2.ctx == id) || (s.vault.any fun v => v.groups.any fun g => g.ctx == id) || (s.queue.any fun q => q.ctx == id) ||
    s.launches.any fun l => l.ctx == id && !l.todo.isEmpty

/-- Destroys an idle context: handles freed, watchpoints cleared, assay entries purged, translations dropped, the key erased. While that waits
its STATE is 3 (R380). -/
def ctxDestroy (s : State) (id : Nat) : CmdRes :=
  let dying (s : State) : State := s.updCtx id fun c => { c with st := .dying }
  let hs := s.handles.filter fun h => h.ctx == id
  let drops := hs.flatMap s.freeDrops
  match drops.find? (fun f => match f.holder with
      | some (.guest _, _) => true
      | _ => false) with
  | some f => .recall f.id (dying s)
  | none =>
    if drops.any fun f => f.blocks.any fun b => s.waitsAt (b * 64) then .wait (dying s)
    else match s.dropXlat 1 id 0 with
      | (false, t) => .wait (dying t)
      | (true, t) =>
        let t := (hs.foldl State.freeHandle t).purgeAssay id fun _ => true
        .ok 0 none (({ t with segs := t.segs.filter (fun g => g.ctx != id), deadWin := t.deadWin.filter fun d => d.1 != id } : State).updCtx id fun _ => {})

def cmdCtxDestroy (s : State) (w : Who) (id : Nat) : CmdRes :=
  if (s.context id).st == .free then .ok 3 none s
  else if !ctxMine s w id then .ok 2 none s
  else if ctxInUse s id then .ok 3 none s
  else ctxDestroy s id

/-! ### Partitions (R383) -/

def cmdPartCreate (s : State) (w : Who) (id : Nat) (r : BitVec 512) : CmdRes :=
  let k := fld r 63 54
  let total := (s.parts.filter fun p => p.2.st != .free).foldl (fun n p => n + p.2.fragq) 0
  if !w.phys then .ok 6 none s
  else if (s.part id).st != .free then .ok 3 none s
  else if !partImageOk r || !clustersFree s id r || (s.context k).st != .free then .ok 4 none s
  else if total + fld r 95 64 > 1048576 then .ok 5 none s
  else
    let (n, s) := s.draw
    let (m, s) := s.draw
    let img := recPut (recPut (recPut (ctxStored (Config.kctxImage n)) 0 106 0) 108 2 1) 110 6 id
    let s := s.updCtx k fun _ => { st := .active, img := img, key := Config.random m, keyrec := Config.kctxKeys n }
    .ok 0 none (s.updPart id fun p => { st := .halted, img := partStored r, haltAt := s.ptime, drops := p.drops, nocell := p.nocell })

/-- The partition holds a resident group. -/
def partBusy (s : State) (id : Nat) : Bool := s.groups.any fun p => p.2.part == id

def cmdPartUpdate (s : State) (w : Who) (id : Nat) (r : BitVec 512) : CmdRes :=
  let p := s.part id
  let moved := fld r 511 320 ≠ fld p.img 511 320
  let leaving := (imgClusters p.img).filter fun c => !bit r (320 + c)
  if !w.phys then .ok 6 none s
  else if p.st == .free then .ok 3 none s
  else if partFixed r != partFixed p.img || !partImageOk r then .ok 4 none s
  else if moved && (p.st != .halted || partBusy s id) then .ok 3 none s
  else if moved && !clustersFree s id r then .ok 4 none s
  else if moved && leaving.any s.dirtyWaits then .wait s
  else
    let s := if moved then (leaving.foldl State.emptyCluster s).endReserves fun x => x.part == id else s
    .ok 0 none (s.updPart id fun p => { p with img := partStored r })

def cmdPartRead (s : State) (w : Who) (id : Nat) : CmdRes :=
  if !w.phys && id ≠ w.part then .ok 2 none s else .ok 0 (some (s.part id).image) s

/-- Regions whose key is a partition's start to be erased under the module key (R493). -/
def State.eraseRegions (s : State) (id : Nat) : State :=
  let rs := (s.keyid.filter fun p => p.2.toNat == id).map (·.1)
  { s with keyid := s.keyid.filter fun p => p.2.toNat != id, busy := s.busy ++ rs.filter fun r => !s.busy.contains r }

def cmdPartDestroy (s : State) (w : Who) (id : Nat) : CmdRes :=
  let p := s.part id
  let k := p.kctx
  if !w.phys then .ok 6 none s
  else if p.st != .halted || (s.ctxs.any fun c => c.1 != k && c.2.st != .free && c.2.part == id) || partBusy s id ||
      (s.vault.any fun v => v.groups.any fun g => g.part == id) || (s.queue.any fun q => q.part == id) ||
      (s.launches.any fun l => l.part == id && !l.todo.isEmpty) then .ok 3 none s
  else if (imgClusters p.img).any s.dirtyWaits then .wait s
  else
    let fin (s : State) : State :=
      let s := (imgClusters p.img).foldl State.emptyCluster s
      let s : State := { s with vault := s.vault.filter (fun v => v.part != id), reserves := s.reserves.filter (fun x => x.part != id), passes := s.passes.filter fun x => x.1 % 64 != id }
      (s.eraseRegions id).updPart id fun p => { drops := p.drops, nocell := p.nocell }
    if (s.context k).st == .free || (s.context k).part ≠ id then .ok 0 none (fin s)
    else match ctxDestroy s k with
      | .ok _ _ t => .ok 0 none (fin t)
      | r => r

/-! ### The block (R379) -/

/-- One command, after the checks of its header. -/
def sysCommand (w : Who) (cmd : Nat) (hdr img : BitVec 512) (s : State) : CmdRes :=
  let t := fld hdr 41 32
  if fld hdr 511 72 ≠ 0 || fld hdr 63 42 ≠ 0 || fld hdr 31 8 ≠ 0 then .ok 4 none s
  else match cmd with
    | 0x01 => cmdCtxCreate s w t img
    | 0x02 => cmdCtxUpdate s w t img
    | 0x03 => cmdCtxRead s w t
    | 0x04 => cmdCtxDestroy s w t
    | 0x11 => if w.phys && t ≥ 64 then .ok 1 none s else cmdPartCreate s w t img
    | 0x12 => if w.phys && t ≥ 64 then .ok 1 none s else cmdPartUpdate s w t img
    | 0x13 => if t ≥ 64 then .ok 1 none s else cmdPartRead s w t
    | 0x14 => if w.phys && t ≥ 64 then .ok 1 none s else cmdPartDestroy s w t
    | _ => .ok 4 none s

/-- Reads the 64-byte blocks of accesses that have passed their checks, as loads with an acquire at DEVICE scope; `k` goes on with their data. -/
def readBlocks (w : Who) (as : List Acc) (s : State) (k : List (BitVec 512) → State → State) : State :=
  if xlatWait s w.core w.ctx as || blockWait s w none as || loadsWait s w.core as then stall s
  else match as.find? (fun a => s.poisonedAt a.pa) with
    | some a => raise a.tid a.slot (poisonFlt a.va 1 0) s
    | none => match readAll w true 3 0 (as.map fun a => (a, 0)) (s.tlbFill (as.flatMap Acc.fills)) with
      | .recall f => stallRecall f s
      | .blocked => stall s
      | .ok gs t => k (gs.map fun g => g.sec.data) (t.acquire w 3 (gs.map Got.seen))

/-- A fabric address where the device translates one: there is no translation of it here (R427). -/
def noXlate (va : BitVec 64) (acc : Nat) : Flt := xlateFlt va acc 0 2 0

/-- PWRS of SYSCMD (R379): the command `force` names, or the block's. -/
def sysCmd (x : Enc) (force : Option Nat) (s : State) (v : View) (b : BitVec 64) : State :=
  match v.P x with
  | [] => s
  | t :: _ =>
    let w := who s
    let wants : List Want := [b, b + 64].map fun va => { tid := t.tid, slot := t.slot, va := va, size := 64, acc := 3, align := 64 }
    match checkAll s w w.owner wants with
    | .fault a sl f => raise a sl f s
    | .recall f => stallRecall f s
    | .blocked => stall s
    | .ok as =>
      if as.any fun a => a.fab.isSome then takeFaultAt t.tid t.slot (noXlate b 3) s
      else if inFlight s w.gid [t.tid] then stall s
      else match as.map (fun a => s.homeWait w.core w.ctx a.pa) |>.find? (· != .go) with
        | some (.recall f) => stallRecall f s
        | some _ => stall s
        | none => readBlocks w as s fun ds s1 =>
          let hdr := ds.getD 0 0
          match sysCommand w (force.getD (fld hdr 7 0)) hdr (ds.getD 1 0) s1 with
          | .recall f t => stallRecall f t
          | .wait t => stall t
          | .ok r img s2 =>
            let pts := releasePts s2 w (some t) 2 3
            let at' (i : Nat) : Nat := (as.map Acc.pa).getD i 0
            let put (s : State) (pa : Nat) (bs : List Byte) : State := s.storeBlock w.core w.ctx (pa / 64 * 64) (bs.mapIdx fun i y => (pa + i, y)) .raw pts
            let s3 := match img with
              | some d => put s2 (at' 1) (leBytes 64 d.toNat)
              | none => s2
            retire x 1 (put s3 (at' 0 + 8) [BitVec.ofNat 8 r])

/-! ## PRDS (R373, R374) -/

/-- Registers of partition scope. -/
def sysPartScope (i : Nat) : Bool := decide (5 ≤ i ∧ i ≤ 9)

/-- The value PRDS reads; none where it raises ILL. -/
def sysRead (s : State) (w : Who) (i : Nat) : Option Nat :=
  let p := s.part w.part
  if w.phys && sysPartScope i then none
  else match i with
    | 0x00 => some w.level
    | 0x01 => some w.part
    | 0x02 => some s.accelId.toNat
    | 0x05 => some p.ksvcrd.toNat
    | 0x06 => some p.ksvcwr.toNat
    | 0x07 => some (if p.ksvcarm then 1 else 0)
    | 0x08 => some p.aging
    | 0x09 => some p.wdog
    | 0x0A => some s.rtimeout.toNat
    | _ => none

/-- PRDS (R373); of KSVCWR it is an acquire at DEVICE scope (R377). -/
def execPrds (x : Enc) (s : State) : Out :=
  issueS 0xE0 x s fun v =>
    let w := who s
    match sysRead s w x.a.toNat with
    | none => takeFault (ownIll 0xE0 x) s
    | some n => finish x 1 (if x.a = 0x06 then s.acquire w 3 [(s.part w.part).wrPts] else s) ⟨wrU v.warp x.d (BitVec.ofNat 64 n), v.ths⟩

/-! ## PWRS (R373, R375) -/

/-- PWRS of any system register. -/
def pwrsWith (x : Enc) (s : State) : Out :=
  issueS 0xE1 x s fun v =>
    let w := who s
    let i := x.d.toNat
    let b := bU x v.warp
    let ill := takeFault (ownIll 0xE1 x) s
    let setPart (f : Part → Part) : State := retire x 1 (s.updPart w.part f)
    if w.phys && sysPartScope i then ill
    else match i with
      | 0x04 => underWay s (sysCmd x none s v b)
      | 0x02 =>
        if !w.phys then takeFault { code := cPriv } s
        else if fld b 63 10 ≠ 0 then ill
        else retire x 1 { s with accelId := BitVec.ofNat 10 b.toNat }
      | 0x05 =>
        let p := s.part w.part
        let r := BitVec.ofNat 32 b.toNat
        if fld b 63 32 ≠ 0 || (r - p.ksvcrd).toNat > (p.ksvcwr - p.ksvcrd).toNat then ill
        else setPart fun p => { p with ksvcrd := r }
      | 0x07 =>
        let p := s.part w.part
        if b.toNat > 1 then ill
        else if b = 1 && p.ksvcwr != p.ksvcrd then match enqueueService s w.part with
          | .ok _ t => retire x 1 t
          | .recall f => stallRecall f s
          | _ => stall s
        else setPart fun p => { p with ksvcarm := b == 1 }
      | 0x08 => if fld b 63 40 ≠ 0 then ill else setPart fun p => { p with aging := if b.toNat = 0 then 0 else max 1024 b.toNat }
      | 0x09 => if fld b 63 40 ≠ 0 then ill else setPart fun p => { p with wdog := max 65536 b.toNat }
      | 0x0A =>
        if !w.phys then takeFault { code := cPriv } s
        else if fld b 62 40 ≠ 0 then ill
        else retire x 1 { s with rtimeout := if fld b 39 0 < 1000 then BitVec.ofNat 64 (fld b 63 63 * 2 ^ 63 + 1000) else b }
      | _ => ill

/-- PWRS (R373). -/
def execPwrs (x : Enc) (s : State) : Out := pwrsWith x s
/-- PWRS of KSVCRD (R375). -/
def execPwrsKsvcrd (x : Enc) (s : State) : Out := pwrsWith x s
/-- PWRS of KSVCARM (R377). -/
def execPwrsKsvcarm (x : Enc) (s : State) : Out := pwrsWith x s

/-- A command's own row: PWRS of SYSCMD with that command. -/
def sysRow (cmd : Nat) (x : Enc) (s : State) : Out := issueS 0xE1 x s fun v => underWay s (sysCmd x (some cmd) s v (bU x v.warp))

/-- CTXCREATE (R381). -/
def execCtxcreate (x : Enc) (s : State) : Out := sysRow 0x01 x s
/-- CTXUPDATE (R381). -/
def execCtxupdate (x : Enc) (s : State) : Out := sysRow 0x02 x s
/-- CTXREAD (R381). -/
def execCtxread (x : Enc) (s : State) : Out := sysRow 0x03 x s
/-- CTXDESTROY (R381). -/
def execCtxdestroy (x : Enc) (s : State) : Out := sysRow 0x04 x s
/-- PARTCREATE (R383). -/
def execPartcreate (x : Enc) (s : State) : Out := sysRow 0x11 x s
/-- PARTUPDATE (R383). -/
def execPartupdate (x : Enc) (s : State) : Out := sysRow 0x12 x s
/-- PARTREAD (R383). -/
def execPartread (x : Enc) (s : State) : Out := sysRow 0x13 x s
/-- PARTDESTROY (R383). -/
def execPartdestroy (x : Enc) (s : State) : Out := sysRow 0x14 x s

end Sys2Proof.Machine
end

