-- ==== Sys2Proof/Machine/System.lean ====
section
/-!
DEFINITION. IRET (R378), HALT (R389), VSAVE and VLOAD (R390, R444 to R446), TLBLS (R391).
-/
namespace Sys2Proof.Machine
open Sys2Proof

/-! ## IRET -/

/-- Who a warp of a group is. -/
def whoOf (s : State) (g : Group) (wid : Nat) : Who := ⟨gidCl g.gid, gidCore g.gid, g.ctx, g.part, g.gid, wid, (s.context g.ctx).level, false⟩

/-- Answers a waiting warp: its destination, its request number, its threads past the SYSCALL; it acquires at DEVICE scope (R241). -/
def answerWarp (s : State) (g : Group) (w : Warp) (q : SysWait) (b : BitVec 64) (pts : Option (BitVec 24)) : State :=
  let s := s.updGroup g.gid fun g =>
    { g.updWarp w.wid (fun w => { wrU w q.d b with sys := none, reqno := w.reqno + 1 }) with
      threads := g.threads.map fun t => if q.tids.contains t.tid then { t with pc := q.next } else t
      wdogAt := s.ptime, wdogLim := (s.part g.part).wdog }
  s.acquire (whoOf s g w.wid) 3 [pts]

/-- Answers a waiting foreman of a cluster; it acquires at DEVICE scope too. -/
def answerForeman (s : State) (cl : Nat) (q : SysWait) (b : BitVec 64) (pts : Option (BitVec 24)) : State :=
  let s := s.acquire ⟨cl, cl * 4, (s.part (s.partOfCluster cl)).kctx, s.partOfCluster cl, foreGid cl, 0, 0, false⟩ 3 [pts]
  s.updCluster cl fun c => { c with fore := { c.fore with w := { wrU c.fore.w q.d b with sys := none, reqno := c.fore.w.reqno + 1 }, th := { c.fore.th with pc := q.next } } }

/-- The warp or foreman a ring entry names, while it waits with the entry's request number, is answered. -/
def answerEntry (s : State) (part : Nat) (e : BitVec 512) (b : BitVec 64) (pts : Option (BitVec 24)) : Option State :=
  let gid := fld e 319 303
  let reqno := BitVec.ofNat 32 (fld e 383 352)
  let waits (w : Warp) : Option SysWait := if w.reqno == reqno then w.sys else none
  if gid = 0x1FFFF then
    ((s.clusters.map (·.1)).filter fun c => s.partOfCluster c == part).findSome? fun c =>
      (waits (s.cluster c).fore.w).map fun q => answerForeman s c q b pts
  else match s.group? gid with
    | some g =>
      let parked := match g.life with
        | .parked _ => true
        | _ => false
      if g.ctx ≠ fld e 329 320 || parked then none
      else (g.warp? (fld e 302 298)).bind fun w => (waits w).map fun q => answerWarp s g w q b pts
    | none => none

/-- IRET (R378). -/
def execIret (x : Enc) (s : State) : Out :=
  issueS 0xE2 x s fun v =>
    match v.P x with
    | [] => s
    | t :: _ =>
      let w := who s
      let a := rdU v.warp x.a
      let put (n : Nat) (s : State) : State := finish x 1 s ⟨wrU v.warp x.d (BitVec.ofNat 64 n), v.ths⟩
      match checkAll s w w.owner [{ tid := t.tid, slot := t.slot, va := a, size := 64, acc := 1, align := 64 }] with
      | .fault a sl f => raise a sl f s
      | .recall f => stallRecall f s
      | .blocked => stall s
      | .ok as =>
        if inFlight s w.gid [t.tid] then stall s
        else if as.any fun a => a.fab.isSome then put 2 s
        else readBlocks w as s fun ds s1 =>
          let e := ds.getD 0 0
          let p := s1.part w.part
          let inRing := w.ctx == p.kctx && decide (p.ksvcBase.toNat ≤ a.toNat) && decide (a.toNat + 64 ≤ p.ksvcBase.toNat + 64 * p.ksvcEntries)
          if w.phys || !inRing || fld e 343 336 ≠ 1 then put 2 s1
          else match answerEntry s1 w.part e (bU x v.warp) (releasePts s1 w (some t) 2 3) with
            | some s2 => put 0 s2
            | none => put 1 s1

/-! ## HALT -/

/-- Groups of a partition, and its foremen, by the numbers their commands carry. -/
def mineOf (s : State) (part gid : Nat) : Bool :=
  if gid < 131072 then (s.group? gid).any fun g => g.part == part else decide (gid < mgmtGid) && s.partOfCluster (gid - 131072) == part

/-- Clusters of a partition, by its image. -/
def State.clustersOf (s : State) (part : Nat) : List Nat := imgClusters (s.part part).img

/-- What a halting partition has under way: accesses, passes, epilogues, commands that guests have not answered for, packets to sites. -/
def haltBusy (s : State) (part : Nat) : Bool :=
  (s.loads.any fun l => mineOf s part l.gid) || (s.groups.any fun p => p.2.part == part && p.2.warps.any fun w => w.busy.isSome) ||
  ((s.clustersOf part).any fun c => (s.cluster c).fore.w.busy.isSome || (s.cluster c).mma.any (fun m => m.running) || (s.cluster c).epiQ.any fun e => e.slot.isSome) ||
  (s.sites.any fun p => p.2.cmds.any fun c => mineOf s part c.gid && c.arrived && c.st == .outstanding) ||
  s.packets.any fun k => mineOf s part k.gid && k.st != .source && k.st != .done && (match k.pay with
    | .guest _ _ => true
    | _ => false)

/-- What waited is withdrawn (R241, R272), foremen's SYSCALLs too; copies stand at a block. -/
def withdrawPart (s : State) (part : Nat) : State :=
  let s := ((s.groups.filter fun p => p.2.part == part).map (·.1)).foldl State.withdrawGroup s
  let s := s.updPart part fun p => { p with svc := p.svc.filter fun e => !(e.kind == 1 && e.gid == 0x1FFFF) }
  (s.clustersOf part).foldl (fun s c => s.updCluster c fun k => { k with fore := { k.fore with w := { k.fore.w with sys := none } } }) s

/-- The partition a register names; none for an unknown or free one. -/
def namedPart (s : State) (v : Word64) : Option Nat := if v.toNat < 64 && (s.part v.toNat).st != .free then some v.toNat else none

/-- HALT.s (R389, R445): the partition stops at once, and the instruction completes when nothing of it is under way. -/
def execHaltS (x : Enc) (s : State) : Out :=
  issueS 0xE8 x s fun v =>
    match namedPart s (rdU v.warp x.a) with
    | none => takeFault (permFlt 0 0 0 0) s
    | some p =>
      let st := (s.part p).st
      if st == .swapped then retire x 1 s
      else
        let s1 := if st == .running then s.updPart p fun k => { k with st := .halted, haltAt := s.ptime } else s
        let s2 := preemptAll (mineOf s1 p) s1
        if haltBusy s2 p then stall s2 else retire x 1 (withdrawPart s2 p)

/-- A halted partition runs again: fairness timers at zero, time halted not counted (R375, R402), copies queued again, foremen that waited
for it restarted (R435), guests' commands resumed (R485). -/
def restartPart (s : State) (p : Nat) : State :=
  let d := s.ptime - (s.part p).haltAt
  let later (t : Nat) : Nat := min s.ptime (t + d)
  let s := s.updPart p fun k => { k with st := .running }
  let s : State :=
    { s with
      groups := s.groups.map fun q => if q.2.part == p then (q.1, { q.2 with wdogAt := later q.2.wdogAt, warps := q.2.warps.map fun w => { w with fair := 0 } }) else q
      queue := s.queue.map fun q => if q.part == p then { q with since := later q.since } else q }
  let goes (gid : Nat) : Bool := (s.group? gid).any fun g => g.life == .running
  let s := (s.clustersOf p).foldl (fun s c => s.updCluster c fun k =>
    { k with
      copyQ := k.copyQ.map fun y => if y.st == .suspended && goes y.gid then { y with st := .queued } else y
      fore := match k.fore.faulted with
        | some (_, false, true) => { k.fore with run := true, faulted := none, w := { k.fore.w with fair := 0 } }
        | _ => { k.fore with w := { k.fore.w with fair := 0 } } }) s
  unpreemptAll (mineOf s p) s

/-- HALT.c (R389). -/
def execHaltC (x : Enc) (s : State) : Out :=
  issueS 0xE8 x s fun v =>
    match namedPart s (rdU v.warp x.a) with
    | none => takeFault (permFlt 0 0 0 0) s
    | some p => retire x 1 (if (s.part p).st == .halted then restartPart s p else s)

/-! ## VSAVE and VLOAD -/

/-- Bytes of a vault (R384). -/
def vaultBytes : Nat := 160 * 2 ^ 20

/-- Bytes of the image of a partition on each die that is not lost: 6 MiB a cluster, and what R444 gives no size for. -/
def imageSizes (s : State) (part n : Nat) : List (Nat × Nat) :=
  ((List.range 8).filter fun d => !s.dieLost d && (s.clustersOf part).any fun c => c / 24 == d).map fun d =>
    (d, 6 * 2 ^ 20 * ((s.clustersOf part).filter fun c => c / 24 == d).length + Config.vaultExtra (8 * n + d))

def largest (l : List (Nat × Nat)) : Nat := l.foldl (fun m p => max m p.2) 0

/-- The result of a move: its size in MiB and the ticks it took, which pass (R390, R446). -/
def moveResult (sizes : List (Nat × Nat)) (n : Nat) (s : State) : BitVec 64 × State :=
  let S := largest sizes
  let t := Config.vaultTicks n % (3000 + (S + 3499) / 3500 + 1)
  (BitVec.ofNat 64 ((S + 2 ^ 20 - 1) / 2 ^ 20 * 2 ^ 32 + t), { s with now := s.now + 4 * t })

/-- Two images share bytes of a die's vault. -/
def VaultImg.meets (v : VaultImg) (off : Nat) (dies : List (Nat × Nat)) : Bool :=
  dies.any fun d => v.dies.any fun e => d.1 == e.1 && decide (off < v.off + e.2) && decide (v.off < off + d.2)

/-- Start cycles of bins and pauses turned into ages, or back: `f` of the cycle count of the die. -/
def ageBins (f : Nat → Nat) (c : Cluster) : Cluster := { c with cores := c.cores.map fun k => { k with bins := k.bins.map fun b => { b with born := f b.born } } }

/-- Saved bins are ready when they hold W threads or their saved age is 2,048 cycles or more (R32). -/
def readyBins (c : Cluster) : Cluster :=
  { c with cores := c.cores.map fun k => { k with bins := k.bins.map fun b => { b with ready := decide (b.filed.length ≥ Config.warpW) || decide (b.born ≥ 2048) } } }

/-- No watch is suppressed on restore (R447). -/
def Cluster.watchAll (c : Cluster) : Cluster :=
  { c with
    copyQ := c.copyQ.map fun x => { x with passWatch := false, passMatrix := false }
    mma := c.mma.map fun x => { x with passWatch := false }
    epiQ := c.epiQ.map fun x => { x with passWatch := false } }
def agePark (f : Nat → Nat) (g : Group) : Group := { g with life := match g.life with
  | .parked p => .parked { p with since := f p.since }
  | l => l }

/-- A saved partition's clusters hold nothing of it; what is no state of a partition stays (R444). -/
def bareCluster (c : Cluster) : Cluster :=
  { pts := c.pts, selftick := c.selftick, tickAt := c.tickAt, tickLen := c.tickLen, fused := c.fused, cores := c.cores.map fun k => { k with l1 := [], bins := [] } }

/-- Saves a partition. -/
def savePart (s : State) (p off : Nat) (sizes : List (Nat × Nat)) : State :=
  let cls := s.clustersOf p
  let s := cls.foldl State.dropClusterClaims s
  let gs := (s.groups.filter fun g => g.2.part == p).map (·.2)
  let img : VaultImg :=
    { part := p, off := off, dies := sizes
      groups := gs.map fun g => { agePark (fun b => s.cyclesOf (gidDie g.gid) - b) g with suppress := [] }
      clusters := cls.map fun c => (c, (readyBins (ageBins (fun b => s.cyclesOf (c / 24) - b) (s.cluster c))).watchAll) }
  let mine (c : Ctx) : Bool := c.st == .active && c.part == p
  let s : State :=
    { s with
      groups := s.groups.filter fun g => g.2.part != p
      reserves := s.reserves.filter fun r => r.part != p
      sites := s.sites.map fun q => (q.1, { q.2 with pass := q.2.pass.filter fun e => (s.context e.1).part != p })
      vault := s.vault.filter (fun v => v.part != p && !v.meets off sizes) ++ [img]
      ctxs := s.ctxs.map fun c => if mine c.2 then (c.1, { c.2 with st := .swapped, touched := sizes.foldl (fun m d => m ||| (1#8 <<< d.1)) c.2.touched }) else c }
  (cls.foldl (fun s c => s.updCluster c bareCluster) s).updPart p fun k => { k with st := .swapped }

/-- VSAVE (R390). A foreman's packets are acknowledged first. -/
def execVsave (x : Enc) (s : State) : Out :=
  issueS 0xE5 x s fun v =>
    let p := (rdU v.warp x.a).toNat
    let b := (bU x v.warp).toNat
    let put (n : BitVec 64) (s : State) : State := finish x 1 s ⟨wrU v.warp x.d n, v.ths⟩
    if b % 2 ^ 20 ≠ 0 then takeFault (ownIll 0xE5 x) s
    else if p ≥ 64 || (s.part p).st == .free then put 3 s
    else if (s.part p).st != .halted then put 1 s
    else
      let (n, s1) := s.draw
      let sizes := imageSizes s p n
      if sizes.any fun d => b + d.2 > vaultBytes then put 2 s1
      else if (s.clustersOf p).any (fun c => s.dirtyWaits c || s.packets.any fun k => k.gid == foreGid c) then stall s
      else
        let (r, s2) := moveResult sizes n (savePart s1 p b sizes)
        put r s2

/-- Restores a partition from its image, halted; its groups' watchdogs restart (R408). -/
def loadPart (s : State) (p : Nat) (img : VaultImg) : State :=
  let s : State :=
    { s with
      vault := s.vault.filter fun v => !(v.part == p && v.off == img.off)
      groups := img.groups.foldl (fun m g => m.insert g.gid { agePark (fun a => s.cyclesOf (gidDie g.gid) - a) g with wdogAt := s.ptime, wdogLim := (s.part p).wdog }) s.groups
      ctxs := s.ctxs.map fun c => if c.2.st == .swapped && c.2.part == p then (c.1, { c.2 with st := .active }) else c }
  let s := img.clusters.foldl (fun s q =>
    let k := ageBins (fun a => s.cyclesOf (q.1 / 24) - a) q.2
    s.updCluster q.1 fun c =>
      { k with
        pts := c.pts, selftick := c.selftick, tickAt := c.tickAt, tickLen := c.tickLen, ctrs := c.ctrs, smp := c.smp, claims := [], held := []
        cores := k.cores.mapIdx fun i y => { y with l1 := [], rr := (c.core i).rr, turns := (c.core i).turns } }) s
  s.updPart p fun k => { k with st := .halted }

/-- VLOAD (R390, R440, R442). -/
def execVload (x : Enc) (s : State) : Out :=
  issueS 0xE6 x s fun v =>
    let p := (rdU v.warp x.a).toNat
    let b := (bU x v.warp).toNat
    let put (n : BitVec 64) (s : State) : State := finish x 1 s ⟨wrU v.warp x.d n, v.ths⟩
    let taken (c : Nat) : Bool := !s.present c || (s.parts.any fun q => q.1 != p && q.2.st != .free && q.2.st != .swapped && bit q.2.img (320 + c)) ||
      s.groups.any fun g => gidCl g.1 == c
    if b % 2 ^ 20 ≠ 0 then takeFault (ownIll 0xE6 x) s
    else if p ≥ 64 || (s.part p).st == .free then put 3 s
    else if (s.part p).st == .running then put 1 s
    else match s.vault.find? fun v => v.part == p && v.off == b with
      | none => put 4 s
      | some img =>
        if img.dies.any fun d => s.dieLost d.1 then put 5 s
        else if (s.clustersOf p).any taken then put 4 s
        else
          let (n, s1) := s.draw
          let (r, s2) := moveResult img.dies n (loadPart s1 p img)
          put r s2

/-! ## TLBLS -/

/-- TLBLS of a scope (R391). A free context's has nothing to drop. -/
def tlblsWith (x : Enc) (scope : Nat) (s : State) : Out :=
  issueS 0xE7 x s fun v => underWay s <|
    let w := who s
    let ctx := (rdU v.warp x.a).toNat
    let go : State := match s.dropXlat scope ctx (bU x v.warp).toNat with
      | (true, t) => retire x 1 t
      | (false, t) => stall t
    if scope = 2 then go
    else if (s.context ctx).st == .free then retire x 1 s
    else if !w.phys && (s.context ctx).part ≠ w.part then takeFault (permFlt 0 0 0 0) s
    else go

/-- TLBLS.va (R391). -/
def execTlblsVa (x : Enc) (s : State) : Out := tlblsWith x 0 s
/-- TLBLS.ctx (R391). -/
def execTlblsCtx (x : Enc) (s : State) : Out := tlblsWith x 1 s
/-- TLBLS.all (R391). -/
def execTlblsAll (x : Enc) (s : State) : Out := tlblsWith x 2 s

end Sys2Proof.Machine
end

