-- ==== Sys2Proof/Machine/Counters.lean ====
section
/-!
DEFINITION. Counters and the sampling unit: PMCFG, PMRD (R392, R505 to R508), SAMPLE_POINT (R510 to R515), and what each step counts (R506,
R507).
-/
namespace Sys2Proof.Machine
open Sys2Proof

/-! ## The codes (R506) -/

def evCore (e : Nat) : Bool := decide (2 ≤ e ∧ e ≤ 4) || decide (0x10 ≤ e ∧ e ≤ 0x1B) || decide (0x20 ≤ e ∧ e ≤ 0x24)
def evDie (e : Nat) : Bool := decide (0x80 ≤ e ∧ e ≤ 0x83)
def evListed (e : Nat) : Bool :=
  decide (e ≤ 4) || decide (0x10 ≤ e ∧ e ≤ 0x1B) || decide (0x20 ≤ e ∧ e ≤ 0x24) || decide (0x40 ≤ e ∧ e ≤ 0x43) || decide (0x50 ≤ e ∧ e ≤ 0x53) ||
    e == 0x60 || e == 0x61 || evDie e

/-- CYCLES, RETFULL and SMPDROP belong to no group, and CTXEN does not affect them (R507). -/
def evFree (e : Nat) : Bool := e == 0x01 || e == 0x53 || e == 0x61

/-- A counter of a cluster counts an event (R505, R507). -/
def counts (s : State) (cl : Nat) (k : Counter) (e : Ev) : Bool :=
  bit k.cfg 16 && fld k.cfg 15 0 == e.code &&
  (if evDie e.code then e.core / 96 == cl / 24
   else e.core / 4 == cl && (!evCore e.code || bit k.cfg (17 + e.core % 4)) &&
    (match e.owner with
     | some c =>
       (!bit k.cfg 21 || fld k.cfg 31 22 == c) && (match k.part with
         | some p => (s.context c).part == p
         | none => true)
     | none =>
       (!bit k.cfg 21 || evFree e.code) && (match k.part with
         | some p => s.partOfCluster cl == p
         | none => true)))

/-- A cluster has a counter that counts. -/
def Cluster.counting (c : Cluster) : Bool := c.ctrs.any fun k => bit k.cfg 16

/-- Counts some events. -/
def applyEvs (evs : List Ev) (s : State) : State :=
  { s with clusters := s.clusters.map fun p =>
      if p.2.counting then (p.1, { p.2 with ctrs := p.2.ctrs.map fun k =>
        { k with cnt := k.cnt + BitVec.ofNat 64 (((evs.filter (counts s p.1 k)).map Ev.n).foldl (· + ·) 0) } })
      else p }

/-! ## The state of a warp (R513) -/

/-- What a stalled instruction waits for. -/
def holdState (op : Nat) : Option Nat :=
  if op == 0xB0 || op == 0xB1 || op == 0xB2 || op == 0xC0 || op == 0xC1 || op == 0xC2 || op == 0xD2 || op == 0xD3 then some 6
  else if op == 0x94 || op == 0x95 || op == 0x99 then some 4
  else if op == 0x0B then some 5
  else if decide (0xA0 ≤ op ∧ op ≤ 0xAA) || op == 0xD0 || decide (0xD6 ≤ op ∧ op ≤ 0xEA) || [0x70, 0x71, 0x73, 0x7B, 0x80, 0x82].contains op then some 8
  else if decide (0x51 ≤ op ∧ op ≤ 0x53) || decide (0x70 ≤ op ∧ op ≤ 0x92) then some 7
  else none

/-- The instruction at a path's PC, as the agent would fetch it. -/
def nextOp (s : State) (g : Group) (w : Warp) (pc : BitVec 64) : Option (Nat × Enc × State) :=
  let t : State := { s with cur := { agent := .warp g.gid w.wid, pc := pc, path := pathOf g w.wid pc } }
  match fetchInstr t with
  | .ok bs t1 => match decode bs with
    | .ok (i, _) => i.parts.map fun p => (p.1.toNat, p.2, t1)
    | _ => none
  | _ => none

/-- State and PC of a warp at a time; none for a warp with no live thread on it. -/
def warpState (s : State) (g : Group) (w : Warp) (now : Nat) : Option (Nat × BitVec 64) :=
  let live := g.threads.filter fun t => t.wid == w.wid && t.run != .exited && t.run != .filed
  match minPc live with
  | none => none
  | some low =>
    let next := pathPc g w
    let at' := next.getD low
    let parked := match g.life with
      | .parked _ => true
      | _ => false
    match w.issued with
    | some (pc, a, b) =>
      if a ≤ now ∧ now < b then some (0, pc) else rest parked next at' live
    | none => rest parked next at' live
where
  rest (parked : Bool) (next : Option (BitVec 64)) (at' : BitVec 64) (live : List Thread) : Option (Nat × BitVec 64) :=
    if parked then some (11, at')
    else if w.sys.isSome then some (9, at')
    else match next with
      | none =>
        if live.any fun t => match t.run with
            | .wsync _ _ => false
            | _ => true then some (4, at') else some (5, at')
      | some pc => match nextOp s g w pc with
        | none => some (1, pc)
        | some (op, x, t) =>
          match view t with
          | some v =>
            if stalled op x t v then some (2, pc)
            else if w.held then some ((holdState op).getD 1, pc) else some (1, pc)
          | none => some (1, pc)

/-! ## What a step counts (R506) -/

/-- Core cycles of a die between two states. -/
def cyclesBetween (s t : State) (die : Nat) : Nat := t.cyclesOf die - s.cyclesOf die

/-- Lanes of a core with no eligible warp. -/
def idleLanes (s : State) (core : Nat) : Nat :=
  Config.lanes - (((s.groupsOn core).flatMap fun g => (g.warps.filter (eligible s g)).map Warp.lane).eraseDups).length

/-- Events that the passing of cycles gives a cluster. -/
def cycleEvs (s t : State) (cl : Nat) : List Ev :=
  let n := cyclesBetween s t (cl / 24)
  let c := s.cluster cl
  let owner (gid : Nat) : Option Nat := (s.group? gid).map Group.ctx
  if n = 0 then []
  else
    [{ code := 0x01, core := 4 * cl, n := n }] ++
    ((c.mma.filter MmaEntry.running).map fun m => { code := 0x42, core := 4 * cl, n := n, owner := owner m.gid }) ++
    (if (s.retained cl).length ≥ 4096 then [{ code := 0x53, core := 4 * cl, n := n }] else []) ++
    (List.range 4).flatMap fun i =>
      [{ code := 0x04, core := 4 * cl + i, n := n * idleLanes s (4 * cl + i) }] ++
      (s.groupsOn (4 * cl + i)).flatMap fun g => g.warps.filterMap fun w =>
        let before : Option Nat := (warpState s g w s.now).map fun (p : Nat × BitVec 64) => p.1
        let code : Option Nat := match ((t.group? g.gid).bind fun k => k.warp? w.wid).bind Warp.issued with
          | some (_, a, _) => if a ≥ s.now then some 0 else before
          | none => before
        code.map fun k => { code := 0x10 + k, core := 4 * cl + i, n := n, owner := some g.ctx }

/-- The counters take what a step from `s` to `t` gave them. -/
def State.tally (s t : State) : State :=
  if t.clusters.any fun p => p.2.counting then
    { applyEvs (t.evs ++ (t.clusters.filter fun p => p.2.counting).flatMap fun p => cycleEvs s t p.1) t with evs := [] }
  else { t with evs := [] }

/-! ## PMCFG.ctr and PMRD (R392) -/

/-- The cluster an instruction names: its number, or the fault. -/
def namedCluster (op : Nat) (x : Enc) (s : State) (v : View) (bad : Bool) : Except Flt Nat :=
  let w := who s
  let a := rdU v.warp x.a
  if bad || a.toNat > 191 then .error (ownIll op x)
  else if s.fenced.contains a.toNat || s.dieLost (a.toNat / 24) || (!w.phys && s.partOfCluster a.toNat ≠ w.part) then .error (permFlt 0 0 0 0)
  else .ok a.toNat

/-- PMCFG.ctr (R505, R507, R508). -/
def execPmcfgCtr (x : Enc) (s : State) : Out :=
  issueS 0xE9 x s fun v =>
    let w := who s
    let cfg := bU x v.warp
    match namedCluster 0xE9 x s v (x.d.toNat > 15) with
    | .error f => takeFault f s
    | .ok cl =>
      if fld cfg 63 32 ≠ 0 || !evListed (fld cfg 15 0) then takeFault (ownIll 0xE9 x) s
      else if !w.phys && evDie (fld cfg 15 0) then takeFault { code := cPriv } s
      else retire x 1 (s.updCluster cl fun c =>
        { c with ctrs := c.ctrs.set x.d.toNat { cfg := cfg, cnt := 0, part := if w.phys then none else some w.part } })

/-- PMRD: the count; `clr` zeroes it in the same step. -/
def pmrdWith (x : Enc) (clr : Bool) (s : State) : Out :=
  issueS 0xEA x s fun v =>
    match namedCluster 0xEA x s v (x.c.toNat > 15) with
    | .error f => takeFault f s
    | .ok cl =>
      let n := ((s.cluster cl).ctrs.getD x.c.toNat {}).cnt
      let s1 := if clr then s.updCluster cl fun c => { c with ctrs := c.ctrs.set x.c.toNat { c.ctrs.getD x.c.toNat {} with cnt := 0 } } else s
      finish x 1 s1 ⟨wrU v.warp x.d n, v.ths⟩

/-- PMRD (R392). -/
def execPmrd (x : Enc) (s : State) : Out := pmrdWith x false s
/-- PMRD.clr (R392). -/
def execPmrdClr (x : Enc) (s : State) : Out := pmrdWith x true s

/-! ## The sampling unit (R510 to R514) -/

/-- Physical bytes HUB may act on, one by one. -/
def physAddrs (s : State) (acc : Nat) : Nat → BitVec 64 → HubRes (List Nat)
  | 0, _ => .ok [] s
  | n + 1, va => match physXlate s va acc with
    | .ok r =>
      if s.waitsAt r.pa then .wait
      else if s.poisonedAt r.pa then .fail
      else match s.recallFor none r.pa with
        | some f => .recall f
        | none => match physAddrs s acc n (va + 1) with
          | .ok l t => .ok (r.pa :: l) t
          | e => e
    | _ => .fail

/-- Addresses in a unit's space. -/
def smpAddrs (s : State) (ctx : Option Nat) (acc n : Nat) (va : BitVec 64) : HubRes (List Nat) :=
  match ctx with
  | some c => hubAddrs s c acc n va
  | none => physAddrs s acc n va

/-- Stores bytes in a unit's space. -/
def smpWrite (s : State) (ctx : Option Nat) (va : BitVec 64) (bs : List Byte) : HubRes Unit :=
  match smpAddrs s ctx 2 bs.length va with
  | .ok l t => .ok () (hubStore (match ctx with
    | some c => l.foldl (fun t pa => t.touch c pa) t
    | none => t) (List.zip l bs))
  | .fail => .fail
  | .recall f => .recall f
  | .wait => .wait

/-- Writes ST, WR and DROPS into a unit's descriptor. -/
def smpStatus (s : State) (u : Sampler) (st : Nat) : HubRes Unit :=
  smpWrite s u.ctx (u.addr + 40) (leBytes 8 (u.wr.toNat + st * 2 ^ 16 + u.drops.toNat * 2 ^ 32))

def State.setSmp (s : State) (cl : Nat) (u : Option Sampler) : State := s.updCluster cl fun c => { c with smp := u }

/-- Stops a unit, leaving ST in its descriptor where it can be written. -/
def stopSmp (s : State) (cl st : Nat) : HubRes Unit :=
  match (s.cluster cl).smp with
  | none => .ok () s
  | some u => match smpStatus s u st with
    | .ok _ t => .ok () (t.setSmp cl none)
    | .fail => .ok () (s.setSmp cl none)
    | .recall f => .recall f
    | .wait => .wait

/-- A malformed descriptor (R511). -/
def smpBad (r : BitVec 512) : Bool :=
  fld r 511 384 != 0 || fld r 319 144 != 0 || fld r 127 106 != 0 || decide (fld r 87 64 < 16) || decide (fld r 92 88 ≥ Config.lanes) ||
    fld r 9 0 != 0 || fld r 63 52 != 0

/-- Starts a unit under a descriptor. -/
def startSmp (s : State) (w : Who) (cl : Nat) (addr : BitVec 64) (r : BitVec 512) : HubRes Unit :=
  let u : Sampler :=
    { addr := addr, img := r, ctx := if w.phys then none else some w.ctx, part := if w.phys then none else some w.part
      wr := r.extractLsb' 128 16, nextAt := s.cyclesOf (cl / 24) + fld r 87 64 }
  match smpStatus s u 0 with
  | .ok _ t => .ok () (t.setSmp cl (some u))
  | .fail => .ok () s
  | .recall f => .recall f
  | .wait => .wait

/-- PMCFG.smp (R510). -/
def execPmcfgSmp (x : Enc) (s : State) : Out :=
  issueS 0xE9 x s fun v =>
    match v.P x with
    | [] => s
    | t :: _ =>
      let w := who s
      let b := bU x v.warp
      match namedCluster 0xE9 x s v (x.d ≠ 0) with
      | .error f => takeFault f s
      | .ok cl =>
        if b = 0 then match stopSmp s cl 1 with
          | .ok _ t => retire x 1 (t.acquire w 3 [some t.pmax])
          | .recall f => stallRecall f s
          | _ => stall s
        else if fld b 5 0 ≠ 0 || fld b 63 52 ≠ 0 then takeFault (ownIll 0xE9 x) s
        else match checkAll s w w.owner [{ tid := t.tid, slot := t.slot, va := b, size := 64, acc := 1, align := 64 }] with
          | .fault a sl f => raise a sl f s
          | .recall f => stallRecall f s
          | .blocked => stall s
          | .ok as => readBlocks w as s fun ds s1 =>
            let r := ds.getD 0 0
            if smpBad r then takeFault (ownIll 0xE9 x) s
            else match stopSmp s1 cl 1 with
              | .recall f => stallRecall f s
              | .ok _ s2 => match startSmp s2 w cl b r with
                | .ok _ s3 => retire x 1 s3
                | .recall f => stallRecall f s
                | _ => stall s
              | _ => stall s

/-- The first of the sampled lane's warp slots, from the slot pointer on, that holds a warp passing the filter (R512), with its state. -/
def smpPick (s : State) (cl : Nat) (u : Sampler) (now : Nat) : Option (Nat × Group × Warp × Nat × BitVec 64) :=
  let core := 4 * cl + fld u.img 94 93
  (List.range 4).findSome? fun i =>
    let slot := (u.ptr + i) % 4
    (s.groupsOn core).findSome? fun g =>
      if (bit u.img 95 && g.ctx ≠ fld u.img 105 96) || u.part.any fun p => g.part ≠ p then none
      else (g.warps.find? fun w => w.lane == fld u.img 92 88 && w.wslot == slot).bind fun w =>
        (warpState s g w now).map fun st => (slot, g, w, st.1, st.2)

/-- A sample record (R515). -/
def smpRecord (u : Sampler) (ticks : Nat) (g : Group) (w : Warp) (st : Nat) (pc : BitVec 64) : Nat :=
  ticks % 2 ^ 40 * 2 ^ 88 + g.ctx * 2 ^ 78 + st * 2 ^ 73 + fld u.img 92 88 * 2 ^ 68 + w.wid % 32 * 2 ^ 59 + g.gid % 128 * 2 ^ 52 + pc.toNat % 2 ^ 52

/-- SAMPLE_POINT (R512, R514): a sample is written, dropped, or not taken; a failed check stops the unit. -/
def execSamplePoint (cl : Nat) (s : State) : Out :=
  match (s.cluster cl).smp with
  | none => .next s
  | some u =>
    let die := cl / 24
    if s.cyclesOf die < u.nextAt then .next s
    else
      let now := s.now - (s.cyclesOf die - u.nextAt) * s.cycleLen die
      let later (u : Sampler) : Sampler := { u with nextAt := u.nextAt + fld u.img 87 64 }
      let fail : State := match stopSmp s cl 2 with
        | .ok _ t => t
        | .recall f => s.askRecall f
        | _ => s
      match (if (s.part (s.partOfCluster cl)).st == .running then smpPick s cl u now else none) with
      | none => .next (s.setSmp cl (some (later u)))
      | some (slot, g, w, st, pc) =>
        let u1 : Sampler := { later u with ptr := (slot + 1) % 4 }
        let own := some g.ctx
        match smpAddrs s u.ctx 1 2 (u.addr + 16) with
        | .fail => .next fail
        | .recall f => .next (s.askRecall f)
        | .wait => .next s
        | .ok l _ =>
          let rd := BitVec.ofNat 16 (leNat (l.map s.rdByte))
          if u.wr - rd = 64 then
            let u2 : Sampler := { u1 with drops := if u.drops = 0xFFFFFFFF then u.drops else u.drops + 1 }
            match smpStatus s u2 0 with
            | .ok _ t => .next (((t.setSmp cl (some u2)).note 0x61 (4 * cl) 1 none).note 0x60 (4 * cl) 1 own)
            | .fail => .next fail
            | .recall f => .next (s.askRecall f)
            | .wait => .next s
          else match smpWrite s u.ctx (BitVec.ofNat 64 (fld u.img 63 0 + 16 * (u.wr.toNat % 64))) (leBytes 16 (smpRecord u (now / 4) g w st pc)) with
            | .fail => .next fail
            | .recall f => .next (s.askRecall f)
            | .wait => .next s
            | .ok _ t =>
              let u2 : Sampler := { u1 with wr := u.wr + 1 }
              match smpStatus t u2 0 with
              | .ok _ t1 => .next ((t1.setSmp cl (some u2)).note 0x60 (4 * cl) 1 own)
              | .fail => .next fail
              | .recall f => .next (s.askRecall f)
              | .wait => .next s

end Sys2Proof.Machine
end

