-- ==== Sys2Proof/Machine/Cross.lean ====
section
/-!
DEFINITION. Cross-slot operations (R264 to R267) and predicate instructions (R268).
-/
namespace Sys2Proof.Machine
open Sys2Proof

/-- Cycles of a cross-slot instruction: one per thread of active() (R264). -/
def xcost (v : View) : Nat := max 1 v.ths.length

/-- The partner of a thread, when valid(t) holds (R265). -/
def partner (x : Enc) (v : View) (t : Thread) : Option Thread :=
  let k : Nat := if x.subN ≥ 5 then Config.warpW / 2 ^ (x.c.toNat % 8) else rdB x v.warp t 32
  let s : Int := match x.subN with
    | 0 => k
    | 1 => (t.slot : Int) - k
    | 5 => (t.slot : Int) - k
    | 2 => (t.slot : Int) + k
    | 6 => (t.slot : Int) + k
    | _ => (t.slot ^^^ k : Nat)
  if 0 ≤ s && s < Config.warpW then v.atSlot x s.toNat else none

/-- SHFL (R265). -/
def execShfl (x : Enc) (s : State) : Out :=
  issue 0x58 x s fun v =>
    finish x (xcost v) s <| v.mapP x fun t =>
      t.wrOp x.d x.bits (rdOp v.warp ((partner x v t).getD t) x.a x.bits)

/-- PUSHX (R265): the sender with the highest slot wins; a thread that receives nothing keeps its D. -/
def execPushx (x : Enc) (s : State) : Out :=
  issue 0x59 x s fun v =>
    finish x (xcost v) s <| v.mapP x fun u =>
      match ((v.P x).filter fun t => (partner x v t).any (fun p => p.slot == u.slot)).getLast? with
      | some t => u.wrOp x.d x.bits (rdOp v.warp t x.a x.bits)
      | none => u

/-! ## REDX and SCANX (R266) -/

/-- Op of an op code and type. -/
def redOp (x : Enc) (w : Warp) (a b : Nat) : Nat × Flags :=
  let ty := x.ty
  match x.subN % 8 with
  | 0 =>
    if ty.isInt then (intResult ty (isSat x) (intVal ty a + intVal ty b), 0)
    else fp2 x w fAdd a b
  | 1 => if ty.isInt then (intResult ty false (min (intVal ty a) (intVal ty b)), 0) else minMaxCode ty w false a b
  | 2 => if ty.isInt then (intResult ty false (max (intVal ty a) (intVal ty b)), 0) else minMaxCode ty w true a b
  | 3 => (a &&& b, 0)
  | 4 => (a ||| b, 0)
  | _ => (a ^^^ b, 0)

/-- The exclusive identity of an op and type. -/
def redIdentity (x : Enc) : Nat :=
  let ty := x.ty
  match x.subN % 8 with
  | 0 => if ty.isInt then 0 else ty.fmt.signBit true
  | 1 => if ty.isInt then toBits ty.bits ty.maxInt else ty.fmt.infBits false
  | 2 => if ty.isInt then toBits ty.bits ty.minInt else ty.fmt.infBits true
  | 3 => 2 ^ ty.bits - 1
  | _ => 0

/-- Combine, with EMPTY as none; `y` from the lower slot. -/
def redCombine (op : Nat → Nat → Nat × Flags) : Option Nat → Option Nat → Option Nat × Flags
  | none, z => (z, 0)
  | y, none => (y, 0)
  | some y, some z => let (r, f) := op y z; (some r, f)

/-- One step of REDX's tree: neighbours combine. -/
def redPairs (op : Nat → Nat → Nat × Flags) : List (Option Nat) → List (Option Nat) × Flags
  | a :: b :: rest =>
    let (r, f) := redCombine op a b
    let (rs, g) := redPairs op rest
    (r :: rs, f ||| g)
  | l => (l, 0)

/-- REDX's tree over 2^n positions. -/
def redTree (op : Nat → Nat → Nat × Flags) : Nat → List (Option Nat) → Flags → Option Nat × Flags
  | 0, l, f => (l.headD none, f)
  | n + 1, l, f => let (l', g) := redPairs op l; redTree op n l' (f ||| g)

/-- One step of SCANX. -/
def scanStep (op : Nat → Nat → Nat × Flags) (step : Nat) (l : List (Option Nat)) : List (Option Nat) × Flags :=
  let rs := List.zipWith (redCombine op) (List.replicate step none ++ l) l
  (rs.map (·.1), rs.foldl (fun f r => f ||| r.2) 0)

/-- SCANX's tree, `n` steps from `step` on. -/
def scanTree (op : Nat → Nat → Nat × Flags) : Nat → Nat → List (Option Nat) → Flags → List (Option Nat) × Flags
  | 0, _, l, f => (l, f)
  | n + 1, step, l, f => let (l', g) := scanStep op step l; scanTree op n (2 * step) l' (f ||| g)

/-- The sources of P by slot. -/
def slotValues (x : Enc) (v : View) : List (Option Nat) :=
  (List.range Config.warpW).map fun i => (v.atSlot x i).map fun t => rdOp v.warp t x.a x.bits

/-- REDX (R266): the flags of each Op go to every thread of P. -/
def execRedx (x : Enc) (s : State) : Out :=
  issue 0x5A x s fun v =>
    let (r, f) := redTree (redOp x v.warp) 5 (slotValues x v) 0
    finish x (xcost v + 5) s (v.write x x.bits fun _ _ => (r.getD 0, f))

/-- SCANX (R266): SUB 8 to 13 are exclusive. -/
def execScanx (x : Enc) (s : State) : Out :=
  issue 0x5B x s fun v =>
    let (l, f) := scanTree (redOp x v.warp) 5 1 (slotValues x v) 0
    finish x (xcost v + 5) s <| v.mapP x fun t =>
      let r : Nat :=
        if x.subN < 8 then (l.getD t.slot none).getD 0
        else if t.slot = 0 then redIdentity x
        else (l.getD (t.slot - 1) none).getD (redIdentity x)
      (t.wrOp x.d x.bits r).setFlag f

/-! ## BALLOT, VOTE, MATCH (R267) -/

/-- The mask of the slots of some threads. -/
def slotMask (ts : List Thread) : Nat := ts.foldl (fun m t => m ||| 2 ^ t.slot) 0

/-- BALLOT. -/
def execBallot (x : Enc) (s : State) : Out :=
  issue 0x5C x s fun v =>
    let v' := if (v.P x).isEmpty then v
      else ⟨v.warp.wrOp x.d 64 (slotMask ((v.P x).filter (fun t => t.rdPf x.a))), v.ths⟩
    finish x (xcost v) s v'

/-- VOTE's value over P. -/
def voteOf (m : Nat) (bs : List Bool) : Bool :=
  match m with
  | 0 => bs.all id
  | 1 => bs.any id
  | 2 => bs.all id || bs.all not
  | 3 => bs.all not
  | _ => (bs.filter id).length % 2 == 1

/-- VOTE. -/
def execVote (x : Enc) (s : State) : Out :=
  issue 0x5D x s fun v =>
    let r := voteOf x.subN ((v.P x).map (fun t => t.rdPf x.a))
    finish x (xcost v) s (v.mapP x fun t => t.wrPf x.d r)

/-- MATCH. -/
def execMatchI (x : Enc) (s : State) : Out :=
  issue 0x5E x s fun v =>
    finish x (xcost v) s <| v.mapP x fun t =>
      let same := (v.P x).filter fun u => rdOp v.warp u x.a x.bits == rdOp v.warp t x.a x.bits
      t.wrOp x.d 32 (if x.subN = 0 then slotMask same else ((same.head?).map Thread.slot).getD t.slot)

/-! ## Predicates (R268) -/

/-- PSET. -/
def execPset (x : Enc) (s : State) : Out := computeP 0x60 x s fun w t => (rdOp w t x.a x.bits != 0, 0)

/-- PLOP: the truth table is SUB. -/
def execPlop (x : Enc) (s : State) : Out :=
  computeP 0x61 x s fun _ t =>
    (x.subN.testBit ((if t.rdPf x.a then 2 else 0) + (if t.rdPf x.b then 1 else 0)), 0)

/-- PMOV.get: p14 to p0 into bits 14:0. -/
def execPmovGet (x : Enc) (s : State) : Out := compute 0x62 x s 32 fun _ t => (t.preds.toNat, 0)

/-- PMOV.put: p0 to p14 from bits 14:0; higher bits ignored. -/
def execPmovPut (x : Enc) (s : State) : Out :=
  issue 0x62 x s fun v => finish x (vcost x v) s <| v.mapP x fun t => { t with preds := BitVec.ofNat 15 (rdOp v.warp t x.a 32) }

end Sys2Proof.Machine
end

