-- ==== Sys2Proof/Machine/Network.lean ====
section
/-!
DEFINITION. Channel packets on their way (R121 to R126, R478): PACKET_ARRIVAL, PACKET_ACK, PACKET_NACK, PLANE_RELEASE_DELIVER; the
ingress's events (R456): FABRIC_INGRESS_ARRIVAL, PAIR_FREE, INGRESS_PAIR_EXPIRE, ATOMIC_RESULT_ACK (R458). A packet to another
accelerator is performed there: here it is acknowledged, or its result comes (R456).
-/
namespace Sys2Proof.Machine
open Sys2Proof

def State.packet? (s : State) (id : Nat) : Option Packet := s.packets.find? fun p => p.id == id
def State.updPacket (s : State) (id : Nat) (f : Packet → Packet) : State := { s with packets := updFirst (fun p => p.id == id) f s.packets }

def Packet.samePair (p q : Packet) : Bool := p.gid == q.gid && p.ch == q.ch && p.dest == q.dest

/-! ## What a packet waits for -/

/-- Addresses a command has still to write. -/
def copyAhead (c : CopyCmd) : List (BitVec 64) :=
  (c.plan.drop c.done).flatMap fun u => (blocksOf ((c.covers u).filterMap fun p => if p.2 then some p.1 else none)).map fun p => BitVec.ofInt 64 (p.2 / 2)

/-- A command of a packet's channel may still write to a destination: as its addresses translate now. -/
def reaches (s : State) (gid : Nat) (wid : Nat) (d : Dest) (as : List (BitVec 64)) : Bool :=
  as.any fun va => match engineXlate s (engineWho s gid wid) va 1 2 with
    | .ok a => s.destOf a == d
    | _ => false

/-- A command a packet waits for has operations still to send that concern it: any, for a release or behind a CHJOIN; else those to the
packet's own destination (R121 to R123). -/
def cmdBlocks (s : State) (p : Packet) (i : Nat) : Bool :=
  let c := s.cluster (gidCl p.gid)
  s.cmdLive p.gid i &&
    (p.rel || !(s.cmdsOn p.gid p.ch).contains i ||
      (match c.copyQ.find? (fun k => k.id == i), c.epiQ.find? (fun k => k.id == i) with
        | some k, _ => reaches s p.gid k.cap.wid p.dest (copyAhead k)
        | none, some k => reaches s p.gid k.cap.wid p.dest (k.blocks.map (·.2.2))
        | none, none => s.sites.any fun q => p.dest == .site q.1 && q.2.cmds.any fun k => k.id == i))

/-- Packets that a packet waits for: those it names, and those of the commands it names. -/
def Packet.waitsFor (s : State) (p : Packet) : List Packet :=
  s.packets.filter fun q => q.st != .done && q.id != p.id &&
    (p.deps.contains q.id || q.cmd.any fun c => p.deps.contains c && (q.samePair p || p.rel || q.ch != p.ch))

/-- A packet must stay at its source (R122, R123, R426, R457). -/
def sourceHeld (s : State) (p : Packet) : Bool :=
  (s.saved? p.gid).isSome || (p.rel && (s.pairsOf p.gid).any fun q => q.ch == p.ch && q.resync) ||
  p.deps.any (cmdBlocks s p) || s.packets.any (fun q => q.gid == p.gid && q.ch == p.ch && s.older q p.pay.place) ||
  (p.waitsFor s).any fun q => q.st == .source || (!q.samePair p && (q.ch != p.ch || isFabDest q.dest || isFabDest p.dest))

/-- A packet must not be performed yet. -/
def planeHeld (s : State) (p : Packet) : Bool := !(p.waitsFor s).isEmpty

/-! ## Performing -/

/-- Performs a packet at its home, or leaves it waiting for a recall, or queued at a blocked chunk (R422); whether it was performed. A packet to a site that
is not up is dropped (R487). -/
def performPacket (p : Packet) (s : State) : Bool × State :=
  let mark (s : State) : State := s.updPacket p.id fun k => { k with st := .done }
  let lost := match p.dest with
    | .site n => (s.site n).st != 2
    | _ => false
  if lost then (true, mark (s.failPacket p))
  else match p.pay with
    | .guest n pkt => (true, mark (deliverGuest p n pkt s))
    | pay =>
      match s.homeWait p.core p.ctx pay.place with
      | .blocked => (false, s.enqueue (.packet p.id))
      | .recall f => (false, s.askRecall f)
      | .go =>
        let seen := s.carry.find? (s.fwd pay.place / 16)
        let s0 := match p.dest with
          | .site n => if p.rel && p.scope.toNat ≥ 2 then s.ptsSet n (p.pts.getD (s.clock (clockOf p.core))) else s
          | _ => s
        let (v, s1) := s0.performPay p
        let s2 := if p.core < 768 && isFlistad pay.place && !s1.claimed (p.core / 4) p.ctx (s1.blk pay.place) then s1.l1Drop p.core p.ctx pay.place else s1
        (true, mark (s2.answerPart p fun q => { q with value := some (BitVec.ofNat 128 v), seen := seen }))

/-- Where a destination's port stands in the sequence of a pair. -/
def State.expected (s : State) (p : Packet) : Option (BitVec 16) :=
  match p.dest with
  | .die d => if p.core < 768 && d = p.core / 96 then none
    else ((s.pairsOf p.gid).find? fun q => q.ch == p.ch && q.dest == p.dest).map Pair.expect
  | _ => none

def State.bumpExpected (s : State) (p : Packet) : State :=
  s.setPairs p.gid fun l => l.map fun q => if q.ch == p.ch && q.dest == p.dest then { q with expect := p.seq + 1 } else q

/-- Performs the held successors of a pair, in order. -/
def portDrain (p : Packet) : Nat → State → State
  | 0, s => s
  | n + 1, s =>
    match s.packets.find? fun q => q.samePair p && q.st == .port && s.expected q == some q.seq && !s.stale q && !planeHeld s q with
    | none => s
    | some q => match performPacket q s with
      | (true, t) => portDrain p n (t.bumpExpected q)
      | (false, t) => t

/-- A packet at its destination port (R125). Operations homed on the issuing die, to the host and to a site are performed without
resequencing (R120, R473). -/
def atPort (p : Packet) (s : State) : State :=
  match s.expected p with
  | none => if planeHeld s p then s else match performPacket p s with
    | (true, t) => t.bumpExpected p
    | (false, t) => t
  | some e =>
    let d := (p.seq - e).toNat
    if d = 0 then
      match performPacket p s with
      | (true, t) => portDrain p 2048 (t.bumpExpected p)
      | (false, t) => t
    else if d ≤ 32767 then
      if (s.packets.filter fun q => q.dest == p.dest && q.st == .port).length < 2048 then s.updPacket p.id fun k => { k with st := .port }
      else s.updPacket p.id fun k => { k with refused := true }
    else s

/-! ## Requests to the device itself (R56) -/

/-- The request of a packet whose destination is the device's own ACCELID. -/
def selfRequest (s : State) (p : Packet) : FabPacket :=
  let own := s.accelId.toNat
  match p.pay with
  | .write pl cs da =>
    let lo := cs.foldl (fun m c => min m c.1) ((cs.head?.map (·.1)).getD pl)
    let hi := cs.foldl (fun m c => max m (c.1 + 1)) lo
    let byte (a : Nat) : Option Byte := (cs.reverse.find? fun c => c.1 == a).map (·.2)
    let d := match da with
      | .put d => if cs.isEmpty || coversBlock cs then some d else none
      | _ => none
    { src := own, xaddr := lo, kind := .write ((List.range (hi - lo)).map fun i => byte (lo + i)), tag := some (tagOf p.gid p.ch p.seq p.run p.rs d) }
  | .atom pa op ty c e => { src := own, xaddr := pa, kind := .atomic op ty c e, tag := some (tagOf p.gid p.ch p.seq p.run p.rs none) }
  | _ => { src := own, xaddr := p.pay.place, kind := .read 0, tag := none }

/-- An answer of the ingress: to another accelerator it is sent; to the device's own request it is applied. -/
def applyReply (m : FabMsg) (s : State) : State :=
  let own := s.accelId.toNat
  if m.dst ≠ own then s.sendMsg m
  else match m.tag with
    | none => s
    | some t =>
      match s.packets.find? fun p => p.gid == m.key.gid && p.ch == m.key.ch && p.dest == .fab own m.key.lane && p.seq == tagSeq t && p.run == tagRun t && p.st != .source with
      | none => s
      | some p =>
        let past (s : State) : State :=
          State.ackPacket { s with kept := s.kept.filter fun k => !(k.1 == m.key && k.2.1 == p.seq) } p.id
        match m.body with
        | .nack _ => s.updPacket p.id fun k => { k with refused := true }
        | .data bs _ => past (s.answerPart p fun q => { q with value := some (BitVec.ofNat 128 (leNat bs)) })
        | .refused => past (s.failPacket p)
        | _ => past s

def applyReplies (ms : List FabMsg) (s : State) : State := ms.foldl (fun s m => applyReply m s) s

/-! ## Events -/

/-- PACKET_ARRIVAL (R125): of a packet its source withholds, its departure; of a GPOST command that waits, its sending. -/
def execPacketArrival (id : Nat) (s : State) : Out :=
  match s.packet? id with
  | none => match s.sites.findSome? fun q => (q.2.cmds.find? fun c => c.id == id && c.st == .queued).map fun c => (q.1, c) with
    | some (n, c) => .next (guestTry n c s)
    | none => .next s
  | some p =>
    if p.refused || s.stale p then .next s
    else match p.st with
      | .source => if sourceHeld s p then .next s else .next (s.depart id)
      | .flying => match p.dest with
        | .fab a _ =>
          if a = s.accelId.toNat then
            let r := ingress (selfRequest s p) s
            .next (applyReplies r.1 r.2)
          else if p.port.isNone then
            let (port, t) := s.sendOut p.dest p.pay.place
            .next (t.updPacket id fun k => { k with port := port })
          else .next s
        | _ =>
          if planeHeld s p && (p.waitsFor s).any (fun q => !q.samePair p) then .next (s.updPacket id fun k => { k with st := .plane })
          else .next (atPort p s)
      | .port => if (s.expected p == some p.seq || s.expected p == none) && !planeHeld s p then .next (atPort p s) else .next s
      | _ => .next s

/-- PLANE_RELEASE_DELIVER (R125): the other planes have reported; the release is delivered and acknowledged. -/
def execPlaneReleaseDeliver (id : Nat) (s : State) : Out :=
  match s.packet? id with
  | some p =>
    if p.st != .plane || s.stale p || planeHeld s p then .next s
    else
      let t := atPort p (s.updPacket id fun k => { k with st := .flying })
      .next (if (t.packet? id).any fun q => q.st == .done then t.ackPacket id else t)
  | none => .next s

/-- PACKET_ACK (R125): of another accelerator, its end-to-end acknowledgement; an atomic's is its response (R458). -/
def execPacketAck (id : Nat) (s : State) : Out :=
  match s.packet? id with
  | some p =>
    let remote := match p.dest with
      | .fab a _ => a != s.accelId.toNat && p.st == .flying && p.port.isSome && p.load.isNone
      | _ => false
    if (p.st == .done && !s.awaited p) || remote then .next (s.ackPacket id) else .next s
  | none => .next s

/-- PACKET_NACK (R125): the source sends the packet again from its retention buffer. -/
def execPacketNack (id : Nat) (s : State) : Out :=
  match s.packet? id with
  | some p =>
    let t := s.note 0x52 (p.core / 4 * 4) 1 (some p.ctx)
    match p.dest with
    | .fab a _ =>
      if p.st != .flying then .next s
      else if a = s.accelId.toNat then .next (t.updPacket id fun k => { k with refused := false })
      else
        let (port, t) := t.sendOut p.dest p.pay.place
        .next (t.updPacket id fun k => { k with port := port })
    | _ => .next (if p.refused then t.updPacket id fun k => { k with refused := false } else s)
  | none => .next s

/-- FABRIC_INGRESS_ARRIVAL (R456): of another accelerator's request. -/
def execFabricIngressArrival (p : FabPacket) (s : State) : Out :=
  if p.src = s.accelId.toNat then .next s
  else let r := ingress p s; .next (applyReplies r.1 r.2)

/-- A queued packet is tried again, if it has not been performed. -/
def retryPacket (id : Nat) (s : State) : State :=
  match s.packet? id with
  | some p => if p.st == .done || p.st == .source || p.refused || s.stale p || planeHeld s p then s else atPort p s
  | none => s

/-- Tries again what the ingress holds: after a recall, a move or an erase. -/
def State.retryIngress (s : State) : State :=
  (s.rpairs.filter fun q => !q.held.isEmpty).foldl (fun s q => let r := ingressDrain q.key 2048 s; applyReplies r.1 r.2) s

/-- PAIR_FREE (R456). -/
def execPairFree (k : PairKey) (s : State) : Out := .next { s with rpairs := s.rpairs.filter fun q => q.key != k }

/-- INGRESS_PAIR_EXPIRE (R456). -/
def execIngressPairExpire (k : PairKey) (s : State) : Out :=
  match s.rpair? k with
  | some q => if q.held.isEmpty && s.ptime ≥ q.seen + 2 ^ 41 then .next { s with rpairs := s.rpairs.filter fun q => q.key != k } else .next s
  | none => .next s

/-- ATOMIC_RESULT_ACK (R458). -/
def execAtomicResultAck (k : PairKey) (seq : Nat) (s : State) : Out :=
  .next { s with kept := s.kept.filter fun r => !(r.1 == k && r.2.1.toNat == seq) }

end Sys2Proof.Machine
end

