-- ==== Sys2Proof/Machine/Fabric.lean ====
section
/-!
DEFINITION. The scale-up fabric's ports, lasers and keys (R449 to R454, R462 to R466), CHSYNC (R457), the remote timeout (R461) and the
host event ring (R465, R466).
-/
namespace Sys2Proof.Machine
open Sys2Proof

/-! ## The host event ring (R465, R466) -/

/-- Writes a record of the host event ring, or drops and counts it. -/
def hostEvent (rec : BitVec 256) (s : State) : State :=
  let log := fld s.hevBase 4 0
  let s1 : State := { s with hevSeq := s.hevSeq + 1 }
  if log = 0 || (s.hevWr - s.hevRd).toNat ≥ 2 ^ log then { s1 with hevDrops := if s.hevDrops = 0xFFFF then s.hevDrops else s.hevDrops + 1 }
  else
    let pa := 0x800000000000 + (fld s.hevBase 63 12 * 4096 + 32 * (s.hevWr.toNat % 2 ^ log)) % 2 ^ 47
    let s2 := s1.wrCells (cellsOf pa 32 rec.toNat)
    State.raiseMsi { s2 with hevWr := s.hevWr + 1 } 67

/-- The record of an incident whose recovery has ended (R466). -/
def incidentRec (s : State) (i : Incident) : BitVec 256 :=
  let act := ((i.ports.head?.bind s.ports.find?).map Port.txAct).getD 0
  BitVec.ofNat 256
    (i.start % 2 ^ 64 * 2 ^ 192 + min (2 ^ 32 - 1) (s.ptime - i.start) * 2 ^ 160 + i.replay % 2 ^ 32 * 2 ^ 128 + i.pairs % 2 ^ 16 * 2 ^ 112 +
      i.resent % 2 ^ 16 * 2 ^ 96 + act.toNat * 2 ^ 64 + s.hevSeq.toNat * 2 ^ 48 + i.ports.length * 2 ^ 40 + i.site * 2 ^ 32 + i.kind * 2 ^ 8 + 1)

/-- Ends the incidents that have nothing left to recover. -/
def closeIncidents (s : State) : State :=
  let past (i : Incident) : Bool := i.striping.isEmpty && i.pending.isEmpty
  (s.incidents.filter past).foldl (fun s i => hostEvent (incidentRec s i) s) { s with incidents := s.incidents.filter fun i => !past i }

/-! ## CHSYNC (R457) -/

/-- Pairs with unacknowledged packets last sent on some ports. -/
def pairsOnPorts (s : State) (ports : List Nat) : List (Nat × Nat × Dest) :=
  ((s.packets.filter fun p => (p.st == .flying || p.st == .done) && p.port.any ports.contains).map fun p => (p.gid, p.ch, p.dest)).eraseDups

/-- An incident's ports have been striped again or are down: its pairs are to be resynchronised. -/
def startSync (s : State) (i : Incident) : Incident :=
  let ks := pairsOnPorts s i.ports
  { i with pending := ks, pairs := i.pairs + ks.length }

/-- A port has finished its part of every incident. -/
def portSettled (port : Nat) (s : State) : State :=
  let f (i : Incident) : Incident :=
    if i.striping.contains port then
      let i := { i with striping := i.striping.filter (· != port) }
      if i.striping.isEmpty then startSync s i else i
    else i
  closeIncidents { s with incidents := s.incidents.map f }

/-- CHSYNC: of a pair that an incident has named, or that a NACK with resync has (a fact of the arrival): new operations are held and SYNC
names the lowest unacknowledged number. -/
def execChsync (gid ch accel lane : Nat) (s : State) : Out :=
  let d : Dest := .fab accel lane
  let mine := s.packets.filter fun p => p.gid == gid && p.ch == ch && p.dest == d && p.st != .source
  match (s.pairsOf gid).find? (fun p => p.ch == ch && p.dest == d), mine with
  | some q, p :: _ =>
    if accel = s.accelId.toNat then .next s
    else
      let s1 := s.setPairs gid fun l => l.map fun k => if k.ch == ch && k.dest == d then { k with resync := true } else k
      .next (s1.sendMsg { dst := accel, key := ⟨s.accelId.toNat, gid, ch, lane⟩, body := .sync q.run p.seq })
  | _, _ =>
    .next (closeIncidents { s with incidents := s.incidents.map fun i => { i with pending := i.pending.filter (· != (gid, ch, d)) } })

/-- SYNC (R457): the number expected, a pair not known or of another run being created; the kept results of the pair are sent again
(R458). -/
def execSync (k : PairKey) (run low : Nat) (s : State) : Out :=
  let r := BitVec.ofNat 8 run
  let known := (s.rpair? k).any fun q => q.run == r
  if !known && (s.rpair? k).isNone && s.rpairs.length ≥ 4096 then .next s
  else
    let s1 : State := if known then s else
      { s with rpairs := (s.rpairs.filter fun q => q.key != k) ++ [{ key := k, run := r, expect := BitVec.ofNat 16 low, held := [], seen := s.ptime }] }
    let e := ((s1.rpair? k).map RPair.expect).getD 0
    let s2 := s1.sendMsg { dst := k.src, key := k, body := .expect r e }
    .next ((s.kept.filter fun p => p.1 == k).foldl (fun s p =>
      s.sendMsg { dst := k.src, key := k, tag := some (tagOf k.gid k.ch p.2.1 r false none), body := .data p.2.2.1 none }) s2)

/-- SYNC_REPLY (R457): packets below E are acknowledged, the others sent again in order; the pair's operations go on. -/
def execSyncReply (gid ch accel lane expected : Nat) (s : State) : Out :=
  let d : Dest := .fab accel lane
  let e := BitVec.ofNat 16 expected
  match (s.pairsOf gid).find? fun p => p.ch == ch && p.dest == d && p.resync with
  | none => .next s
  | some _ =>
    let mine := s.packets.filter fun p => p.gid == gid && p.ch == ch && p.dest == d && p.st != .source
    let below := mine.filter fun p => seqPassed e p.seq
    let again := mine.filter fun p => !seqPassed e p.seq && p.st == .flying
    -- an atomic below E has been performed; its kept result is on its way
    let s1 := (below.filter fun p => p.load.isSome).foldl (fun s p => s.updPacket p.id fun k => { k with st := .done }) s
    let s2 := again.foldl (fun s p => let (port, t) := s.sendOut d p.pay.place; t.updPacket p.id fun k => { k with port := port }) s1
    let s3 := s2.setPairs gid fun l => l.map fun k => if k.ch == ch && k.dest == d then { k with resync := false } else k
    let s4 := (below.filter fun p => p.load.isNone).foldl (fun s p => s.ackPacket p.id) s3
    let key : Nat × Nat × Dest := (gid, ch, d)
    -- the exchange ends the pair's part of one incident: another that names the pair runs one of its own (R471)
    let ended (i : Incident) : Incident := { i with pending := i.pending.filter (· != key), resent := i.resent + again.length }
    .next (closeIncidents { s4 with incidents := updFirst (fun i => i.pending.contains key) ended s4.incidents })

/-! ## The remote timeout (R461) -/

/-- Ends the commands that packets of a run belonged to with CODE 3; BYTES counts what was acknowledged (R469). -/
def endRemote (gid : Nat) (ps : List Packet) (s : State) : State :=
  let cl := gidCl gid
  let c := s.cluster cl
  let cells (id : Nat) : Nat := ((ps.filter fun p => p.cmd == some id).map fun p => match p.pay with
    | .write _ cs _ => cs.length
    | _ => 0).foldl (· + ·) 0
  let hit (id : Nat) : Bool := ps.any fun p => p.cmd == some id
  let s := (c.copyQ.filter fun k => hit k.id).foldl (fun s k => s.finishCopy cl { k with bytes := k.bytes - 2 * cells k.id } 3 false) s
  (c.epiQ.filter fun k => hit k.id).foldl (fun s k =>
    let s := match k.slot with
      | some i => s.updCluster cl fun c => c.updSlot i fun r => { r with st := .free, sealT := 0 }
      | none => s
    s.endEpi cl k 3 (128 * k.rowBytes - cells k.id) false) s

/-- Completes the outstanding accesses all of whose parts have answered or failed. -/
def finishLoads (s : State) : State :=
  (s.loads.filter fun l => !l.parts.any LoadPart.waits).foldl (fun s l => completeLoad l s) s

/-- The outstanding operations of a pair end, and its run. -/
def endRun (p : Packet) (s : State) : State :=
  let ps := s.packets.filter fun q => q.samePair p && q.st != .source
  let s := ps.foldl State.failPacket s
  let s := endRemote p.gid (ps.filter fun q => q.st != .done) s
  let s := ps.foldl (fun s q => s.ackPacket q.id) s
  -- operations still at their source start a new run
  let s := s.setPairs p.gid fun l => l.map fun k => if k.ch == p.ch && k.dest == p.dest then { k with next := 0, expect := 0, run := k.run + 1, opened := false, resync := false } else k
  finishLoads s

/-- REMOTE_TIMEOUT (R461): of an outstanding load or copy read, or of a channel packet. -/
def execRemoteTimeout (id : Nat) (s : State) : Out :=
  match s.packet? id, s.loads.find? fun l => l.id == id with
  | some p, _ =>
    if isFabDest p.dest && (p.st == .flying || (p.st == .done && s.awaited p)) && s.now ≥ p.sent + 4 * p.limit then .next (endRun p s) else .next s
  | none, some l =>
    let due (q : LoadPart) : Bool := q.waits && (match q.place with
      | .fabric .. => true
      | .mem _ => false)
    if l.kind == .atomic || !l.parts.any due || s.now < l.sent + 4 * l.limit then .next s
    else if l.kind == .copy then
      let cl := gidCl l.gid
      let s1 : State := { s with loads := s.loads.filter fun k => k.id != id }
      match (s.cluster cl).copyQ.find? fun c => c.wait == some id with
      | some c => .next (s1.finishCopy cl c 3 false)
      | none => .next s1
    else .next (finishLoads (s.updLoad id fun l => { l with parts := l.parts.map fun q => if due q then { q with failed := true } else q }))
  | none, none => .next s

/-! ## Ports (R451 to R454) -/

def State.port (s : State) (n : Nat) : Port := s.ports.getD {} n
def State.updPort (s : State) (n : Nat) (f : Port → Port) : State := { s with ports := s.ports.insert n (f (s.port n)) }

/-- Active wavelengths of a mask. -/
def litCount (m : BitVec 32) : Nat := ((List.range 32).filter fun i => bit m i).length

/-- The active list of a port direction (R451): its active wavelengths, in ascending order within lane 0 and then lane 1. -/
def activeList (m : BitVec 32) : List Nat := (List.range 32).filter fun i => bit m i

/-- Rounds, of 0.8 ns each, in which a port direction sends the 160 beats of a flit, padding included (R451). -/
def flitRounds (m : BitVec 32) : Nat := (160 + litCount m - 1) / litCount m

/-- The wavelength (numbered across both lanes) and the round that carry a beat of a flit (R451). -/
def beatPlace (m : BitVec 32) (b : Nat) : Option (Nat × Nat) := (activeList m)[b % litCount m]?.map fun w => (w, b / litCount m)

/-- The wavelengths a laser input feeds on both lanes of a port (R450). -/
def laserMask (input : Nat) : BitVec 32 := BitVec.ofNat 32 (15 * 2 ^ (4 * (input % 4)) * (2 ^ 16 + 1))

/-- Ports of the OED of a laser input that are up. -/
def laserPorts (s : State) (input : Nat) : List Nat :=
  ((s.ports.filter fun p => p.1 / 24 == input / 4 && p.2.txUp && p.2.rxUp)).map (·.1)

/-- The loads last sent on a port are sent again on another (R458). -/
def resendLoads (n : Nat) (s : State) : State :=
  s.loads.foldl (fun s l =>
    if l.parts.any fun q => q.waits && q.port == some n then
      let (ps, t) := s.sendParts l.kind (l.parts.map fun q => if q.waits && q.port == some n then { q with port := none } else q)
      t.updLoad l.id fun l => { l with parts := ps }
    else s) s

/-- A port goes down (R454), in one direction or both: its flits are abandoned, its pairs resynchronise elsewhere, its loads are sent again, and
its part of other incidents is over. -/
def portDownAct (n : Nat) (tx rx : Bool) (s : State) : State :=
  let s := resendLoads n (s.updPort n fun p =>
    { p with txUp := p.txUp && !tx, rxUp := p.rxUp && !rx, restripe := false, unacked := 0, replayAt := none })
  let i := startSync s { kind := 4, site := n, start := s.ptime, ports := [n] }
  portSettled n { s with incidents := s.incidents ++ [i] }

/-- WAVELENGTH_LOSS (R452): of a laser input, on the transmit side of its OED's ports; of wavelengths, as a receiver detects them. -/
def execWavelengthLoss (loss : LightLoss) (s : State) : Out :=
  let stripe (ps : List Nat) (f : Port → Port) (s : State) : State := ps.foldl (fun s n => s.updPort n fun p => { f p with restripe := true, replayAt := some (s.ptime + 10000) }) s
  match loss with
  | .laser i =>
    if i ≥ 16 || !bit s.light i then .next s
    else
      let ps := laserPorts s i
      let s1 : State := { s with light := s.light &&& ~~~(1#16 <<< i), lost := s.lost ||| (1#16 <<< i) }
      let all := (s1.ports.filter fun p => p.1 / 24 == i / 4).map (·.1)
      let s2 := all.foldl (fun s n => s.updPort n fun p => { p with txLit := p.txLit &&& ~~~laserMask i }) s1
      let s3 := stripe ps id s2
      .next (closeIncidents { s3 with incidents := s3.incidents ++ [{ kind := 1, site := i, start := s.ptime, ports := ps, striping := ps }] })
  | .lambda n tx m =>
    let p := s.port n
    let dim (p : Port) : Port := if tx then { p with txLit := p.txLit &&& ~~~m } else { p with rxLit := p.rxLit &&& ~~~m }
    if (if tx then p.txLit &&& m else p.rxLit &&& m) = 0 then .next s
    else if !(p.txUp && p.rxUp) then .next (s.updPort n dim)
    else
      let s1 := stripe [n] dim s
      .next { s1 with incidents := s1.incidents ++ [{ kind := 3, site := n, start := s.ptime, ports := [n], striping := [n] }] }

/-- STRIPE_MARKER (R452): the active list becomes the wavelengths with light; fewer than 4 take the direction down (R451). -/
def execStripeMarker (port : Nat) (tx : Bool) (s : State) : Out :=
  let p := s.port port
  if !p.restripe then .next s
  else
    let s1 := s.updPort port fun p => if tx then { p with txAct := p.txLit } else { p with rxAct := p.rxLit }
    .next (if litCount (if tx then p.txLit else p.rxLit) < 4 then portDownAct port tx (!tx) s1 else s1)

/-- LASER_RESTORED (R452): the wavelengths are added back by the marker procedure. -/
def execLaserRestored (input : Nat) (s : State) : Out :=
  if input ≥ 16 || bit s.light input then .next s
  else
    let ps := laserPorts s input
    let all := (s.ports.filter fun p => p.1 / 24 == input / 4).map (·.1)
    let s1 := all.foldl (fun s n => s.updPort n fun p => { p with txLit := p.txLit ||| laserMask input }) { s with light := s.light ||| (1#16 <<< input) }
    let s2 := ps.foldl (fun s n => s.updPort n fun p => { p with restripe := true, replayAt := some (s.ptime + 10000) }) s1
    .next (closeIncidents { s2 with incidents := s2.incidents ++ [{ kind := 2, site := input, start := s.ptime, ports := ps, striping := ps }] })

/-- FLIT_REPLAY (R453): every flit not acknowledged is sent again, each with a counter value of its own (R462); a restripe whose markers have
been sent is over. -/
def execFlitReplay (port : Nat) (s : State) : Out :=
  let p := s.port port
  if !(p.txUp && p.rxUp) then .next s
  else
    let striped := p.txAct == p.txLit && p.rxAct == p.rxLit
    let s1 := s.updPort port fun p =>
      { p with replays := if p.replays = 0xFFFFFFFF then p.replays else p.replays + 1, ctr := p.ctr + p.unacked, restripe := p.restripe && !striped
               replayAt := if striped then none else p.replayAt }
    let s2 : State := { s1 with incidents := s1.incidents.map fun i => if i.striping.contains port then { i with replay := i.replay + p.unacked } else i }
    .next (if striped then portSettled port s2 else s2)

/-- FLIT_ACK (R453). The port's count grows by the symbols that the receive side has corrected in the flits it came with (R450): how many is a
free value. -/
def execFlitAck (port n : Nat) (s : State) : Out :=
  if (s.ports.find? port).isNone then .next s
  else
    let (k, s) := s.draw
    .next (s.updPort port fun p => { p with unacked := p.unacked - n, corrected := p.corrected + (Config.freeWord k).toNat % 161 })

/-- REPLAY_TIMEOUT (R453). -/
def execReplayTimeout (port : Nat) (tx : Bool) (s : State) : Out :=
  let p := s.port port
  if p.txUp && p.rxUp && p.replayAt.any (fun t => decide (t ≤ s.ptime)) then .next (portDownAct port tx (!tx) s) else .next s

/-- PORT_DOWN (R454). -/
def execPortDown (port : Nat) (s : State) : Out := if (s.port port).txUp || (s.port port).rxUp then .next (portDownAct port true true s) else .next s

/-- PORT_UP (R454): both directions striped and keyed; a port whose switch reports the ACCELID as taken is not lit (R449). -/
def execPortUp (port : Nat) (s : State) : Out :=
  let p := s.port port
  if (p.txUp && p.rxUp) || !s.caps.ports.contains port || Config.idTaken s.accelId port || litCount p.txLit < 4 || litCount p.rxLit < 4 || p.kstate != 0 then .next s
  else
    let s1 := s.updPort port fun p => { p with txUp := true, rxUp := true, txAct := p.txLit, rxAct := p.rxLit, restripe := false }
    .next (closeIncidents { s1 with incidents := s1.incidents ++ [{ kind := 5, site := port, start := s.ptime, ports := [port] }] })

/-! ## Keys (R462) -/

/-- REKEY_START. -/
def execRekeyStart (port : Nat) (s : State) : Out :=
  let p := s.port port
  if p.kstate == 0 && p.ctr ≥ 2 ^ 48 - 2 ^ 40 then .next (s.updPort port fun p => { p with kstate := 1 }) else .next s

/-- REKEY_STOP: the port sends nothing more; what it sent last and is not acknowledged goes over the others (R454, R457). -/
def execRekeyStop (port : Nat) (s : State) : Out :=
  let p := s.port port
  if p.kstate.toNat < 2 && p.ctr ≥ 2 ^ 48 - 2 ^ 32 then
    let s1 := resendLoads port (s.updPort port fun p => { p with kstate := 2 })
    .next (closeIncidents { s1 with incidents := s1.incidents ++ [startSync s1 { kind := 6, site := port, start := s.ptime, ports := [port] }] })
  else .next s

/-- KEY_INSTALL: the new key's counter starts at 0. -/
def execKeyInstall (port : Nat) (s : State) : Out :=
  if port < 96 then .next (s.updPort port fun p => { p with kstate := 0, ctr := 0, keyIdx := p.keyIdx + 1 }) else .next s

/-- HEVBASE (R465): a host write; one whose LOG2 is 1 to 5 or 16 to 31 is ignored. Bits 11:5 are not kept (DESIGN CHOICE, log
entry 67). -/
def execHevbase (v : BitVec 64) (s : State) : Out :=
  let log := fld v 4 0
  if s.phase == 15 && (log = 0 || (6 ≤ log && log ≤ 15)) then .next { s with hevBase := BitVec.ofNat 64 (fld v 63 12 * 4096 + log), hevWr := 0, hevRd := 0 } else .next s

/-- The status register of a port (R463). No rule says when a port that is not up is training: STATE is 0 until it is up. -/
def portStatus (s : State) (n : Nat) : Nat :=
  let p := s.port n
  let st := if p.txUp && p.rxUp then (if p.restripe then 3 else 2) else 0
  p.txAct.toNat * 2 ^ 96 + p.rxAct.toNat * 2 ^ 64 + p.replays.toNat * 2 ^ 32 + p.ctr / 2 ^ 40 % 256 * 2 ^ 24 + p.kstate.toNat * 2 ^ 18 + st * 2 ^ 16

end Sys2Proof.Machine
end

