-- ==== Sys2Proof/Machine/Aperture.lean ====
section
/-!
DEFINITION. The host's apertures: data (R130, R519) and descriptors (R79).
-/
namespace Sys2Proof.Machine
open Sys2Proof

/-! ## The apertures (R79, R130, R503) -/

/-- Bytes that a host write can change: those of Flistad memory, but for blocks that are poisoned and that it does not cover (R519). -/
def hostCells (s : State) (cells : List (Nat × Byte)) : List (Nat × Byte) :=
  cells.filter fun c => isFlistad c.1 &&
    (!s.poisonedAt c.1 || (!s.dieLost (s.homeDie (s.fwd c.1)) && coversBlock (cells.filter fun d => d.1 / 64 == c.1 / 64)))

def Queued.isHost : Queued → Bool
  | .hostWrite .. => true
  | .hostRead .. => true
  | .hostDesc .. => true
  | _ => false

/-- A host access (R130, R422): in PCIe order, so that it waits behind one that waits, and queued where it waits for a recall or a blocked chunk;
ignored before READY (R502). -/
def hostAccess (q : Queued) (pas : List Nat) (s : State) (f : State → State) : Out :=
  if s.phase != 15 then .next s
  else if s.queued.any Queued.isHost then .next { s with queued := s.queued ++ [q] }
  else match physReady s pas with
    | .ok _ _ => .next (f s)
    | .recall fr => .next { s.askRecall fr with queued := s.queued ++ [q] }
    | _ => .next { s with queued := s.queued ++ [q] }

/-- HOST_DATA_WRITE (R130): one write, its blocks in ascending order; descriptors become RAW. -/
def execHostDataWrite (pa : Nat) (data : List Byte) (s : State) : Out :=
  let cells := hostCells s (data.mapIdx fun i b => (pa + i, b))
  hostAccess (.hostWrite pa data) (cells.map (·.1)) s fun s => hubStore s cells

/-- Bytes that a host read gives: where the manual states none (the hole, poison), free values. -/
def hostByte (s : State) (free pa : Nat) : Byte := if isFlistad pa && !s.poisonedAt pa then s.rdByte pa else Config.frameByte free pa

/-- HOST_DATA_READ (R130): a plain load by an agent that is no cluster (R151). -/
def execHostDataRead (pa n : Nat) (s : State) : Out :=
  let as := (List.range n).map (pa + ·)
  hostAccess (.hostRead pa n) (as.filter isFlistad) s fun s => let (f, s) := s.draw; { s with hostOut := as.map (hostByte s f) }

/-- A descriptor with one byte replaced: the format byte is the first of the pair. -/
def descPut (d : BitVec 16) (off : Nat) (b : Byte) : BitVec 16 :=
  if off % 2 = 0 then BitVec.ofNat 16 (b.toNat * 256 + d.toNat % 256) else BitVec.ofNat 16 (d.toNat / 256 * 256 + b.toNat)

/-- HOST_DESCRIPTOR_WRITE (R79): the descriptors of the blocks the bytes name change and nothing else; a poisoned block's does not (R519). -/
def execHostDescriptorWrite (off : Nat) (data : List Byte) (s : State) : Out :=
  let cells := data.mapIdx fun i b => (off + i, b)
  let blocks := ((cells.map fun c => c.1 / 2).eraseDups).filter fun b => isFlistad (b * 64) && !s.poisonedAt (b * 64)
  hostAccess (.hostDesc off data) (blocks.map (· * 64)) s fun s => blocks.foldl (fun t b =>
    let d := (cells.filter fun c => c.1 / 2 == b).foldl (fun d c => descPut d c.1 c.2) (s.descOf (b * 64))
    t.hubBlock (b * 64) [] (.put d)) s

/-- A byte of BAR4 as the host reads it (R79): the stored pair of a block, its format byte first. -/
def bar4Byte (s : State) (off : Nat) : Byte :=
  let d := s.descOf (off / 2 * 64)
  if off % 2 = 0 then d.extractLsb' 8 8 else d.extractLsb' 0 8

end Sys2Proof.Machine
end

