-- ==== Sys2Proof/Machine/Moves.lean ====
section
/-!
DEFINITION. Moving memory: MIGRATE and RETIRE (R419 to R424), REGION with its switch and the NACK of the old generation (R425, R426); the
key table and the erasing of regions (R492, R493).
-/
namespace Sys2Proof.Machine
open Sys2Proof

/-! ## What waits at a home (R422, R493) -/

def outState (s : State) : Out → State
  | .next t => t
  | _ => s

/-- A queued access arrives again; one that must still wait is queued behind those before it. -/
def requeue (q : Queued) (s : State) : State :=
  match q with
  | .packet id => retryPacket id s
  | .request p => let r := ingress p s; applyReplies r.1 r.2
  | .guest n ctx pa acc => outState s (execGuestRequest n ctx pa acc s)
  | .claimReq n pkt => outState s (execClaimReq n pkt s)
  | .xlateReq n pkt => outState s (execXlateReq n pkt s)
  | .hostWrite pa l => outState s (execHostDataWrite pa l s)
  | .hostRead pa n => outState s (execHostDataRead pa n s)
  | .hostDesc o l => outState s (execHostDescriptorWrite o l s)

/-- The queue is replayed in arrival order, before anything else reaches the chunk (R422). -/
def State.replay (s : State) : State := (s.queued.foldl (fun s q => requeue q s) { s with queued := [] }).retryIngress

/-! ## Starting a command (R419) -/

/-- Bytes of a SIZE code. -/
def moveSize (n : Nat) : Nat := if n = 0 then 2 ^ 16 else if n = 1 then 2 ^ 21 else 2 ^ 30

/-- Regions of Flistad memory. -/
def regions : Nat := 1536

/-- A start is rejected: only RESULT changes. -/
def State.rejectMove (s : State) (r : Nat) : State := { s with move := { s.move with result := r } }

/-- STATE changes: MSI-X vector 64. -/
def State.setMove (s : State) (m : Move) : State := ({ s with move := m } : State).raiseMsi 64

/-- A page lies in Flistad memory, aligned to its size. -/
def pageOk (size pa : Nat) : Bool := decide (size ≤ 2) && pa % moveSize size == 0 && decide (pa + moveSize size ≤ 0x018000000000)

/-- MIGRATE (R421). -/
def execMigrate (size : Nat) (src dst : BitVec 48) (s : State) : Out :=
  let n := moveSize size
  if s.phase != 15 then .next s
  else if s.move.state ≠ 0 then .next (s.rejectMove 1)
  else if !pageOk size src.toNat || !pageOk size dst.toNat then .next (s.rejectMove 2)
  else if src = dst then .next (s.rejectMove 3)
  else .next (s.setMove { state := 1, op := 1, size := n, src := src.toNat, dst := dst.toNat })

/-- RETIRE (R423). -/
def execRetire (size : Nat) (src : BitVec 48) (s : State) : Out :=
  if s.phase != 15 then .next s
  else if s.move.state = 1 then .next (s.rejectMove 1)
  else if !pageOk size src.toNat then .next (s.rejectMove 2)
  else if s.move.state ≠ 2 || s.move.size ≠ moveSize size || s.move.src ≠ src.toNat then .next (s.rejectMove 3)
  else .next (({ s with forward := [] } : State).setMove { op := 2 })

/-- REGION (R425). -/
def execRegion (region : Nat) (entry : BitVec 16) (s : State) : Out :=
  if s.phase != 15 then .next s
  else if s.move.state ≠ 0 then .next (s.rejectMove 1)
  else if region ≥ regions || fld entry 15 6 ≠ 0 then .next (s.rejectMove 2)
  else .next (s.setMove { state := 1, op := 3, region := region, entry := entry })

/-! ## Moving a chunk (R421) -/

/-- What is listed at `src` to `src + n` also stands at `dst` on, in place of what stood there. -/
def SMap.moveKeys {α : Type} (m : SMap α) (src dst n : Nat) : SMap α :=
  (m.filter fun p => decide (src ≤ p.1) && decide (p.1 < src + n)).foldl (fun m p => SMap.insert m (p.1 - src + dst) p.2)
    (m.filter fun p => !(decide (dst ≤ p.1) && decide (p.1 < dst + n)))

/-- A number within a range, moved with it. -/
def shiftNum (src dst n b : Nat) : Nat := if src ≤ b ∧ b < src + n then b - src + dst else b

/-- Data, descriptors, poison marks and the directory's state of a chunk go to the destination; the chunk is under forwarding. -/
def State.moveChunk (s : State) (src dst : Nat) : State :=
  let b (x : Nat) : Nat := shiftNum (src / 64) (dst / 64) 1024 x
  let inSrc (x : Nat) : Bool := decide (src / 64 ≤ x) && decide (x < src / 64 + 1024)
  let inDst (x : Nat) : Bool := decide (dst / 64 ≤ x) && decide (x < dst / 64 + 1024)
  let unit (u : Nat) : Nat := if u = src then dst else u
  let group (g : Group) : Group :=
    { g with
      threads := g.threads.map fun t => if t.resv.any (fun r => inSrc r.1) then { t with resv := none } else t
      suppress := g.suppress.map fun e => (e.1, e.2.1, b e.2.2)
      life := match g.life with
        | .parked p => .parked { p with frame := p.frame.map fun f => (f.1, f.2.1.map unit, f.2.2) }
        | l => l }
  { s with
    mem := SMap.moveKeys s.mem src dst 65536
    desc := SMap.moveKeys s.desc (src / 64) (dst / 64) 1024
    poison := s.poison.filter (fun x => !inDst x) ++ (s.poison.filter inSrc).map b
    carry := SMap.moveKeys s.carry (src / 16) (dst / 16) 4096
    tags := s.tags.erase (dst / 65536)
    frags := s.frags.map fun f => { f with blocks := f.blocks.map b }
    handles := s.handles.map fun h => { h with blocks := h.blocks.map b }
    groups := s.groups.map fun p => (p.1, group p.2)
    sites := s.sites.map fun p => (p.1, { p.2 with
      pass := p.2.pass.map fun e => (e.1, b e.2)
      cmds := p.2.cmds.map fun c => { c with hit := c.hit.map b } })
    forward := s.forward.insert (src / 65536) (dst / 65536) }

/-- Invalidates every L1 copy of a chunk. -/
def State.l1Chunk (s : State) (src : Nat) : State :=
  { s with clusters := s.clusters.map fun p => (p.1, { p.2 with cores := p.2.cores.map fun k =>
      { k with l1 := k.l1.filter fun x => !(decide (src / 64 ≤ x.blk) && decide (x.blk < src / 64 + 1024)) } }) }

/-- MIGRATE_CHUNK (R421): first the chunk's write claims are recalled and it is blocked; then it is copied, replayed and forwarded. -/
def execMigrateChunk (s : State) : Out :=
  let m := s.move
  if m.state ≠ 1 || m.op ≠ 1 then .next s
  else
    let src := m.src + 65536 * m.chunks
    let dst := m.dst + 65536 * m.chunks
    let held := s.frags.filter fun f => f.holder.isSome && f.blocks.any fun b => b / 1024 == src / 65536
    if !m.blocked then
      if held.isEmpty then .next { s.l1Chunk src with move := { m with blocked := true } }
      else .next (held.foldl (fun s f => s.askRecall f.id) s)
    else
      let s1 := s.moveChunk src dst
      let m1 : Move := { m with chunks := m.chunks + 1, blocked := false }
      let s2 : State := if 65536 * m1.chunks ≥ m.size then s1.setMove { m1 with state := 2, result := 0 } else { s1 with move := m1 }
      .next s2.replay

/-! ## REGION_SWITCH, GENERATION_NACK (R425, R426) -/

/-- A die that a region's blocks are homed on under an entry. -/
def homesOf (entry : BitVec 16) (die : Nat) : Bool := fld entry 1 0 = 0 || (fld entry 1 0 ≠ 3 && fld entry 4 2 == die)

/-- A packet sent again goes to its place's home, with the next number there. -/
def State.resend (s : State) (p : Packet) : State :=
  let d : Dest := match p.dest with
    | .die _ => .die (s.homeDie p.pay.place)
    | d => d
  let s := s.openPair p.gid p.ch d
  let s : State := { s with packets := updFirst (fun q => q.id == p.id) (fun q => { q with dest := d, st := .source }) s.packets }
  s.depart p.id

/-- A packet still at its source takes its place's home under the new table. -/
def State.reroute (s : State) (p : Packet) : State :=
  match p.dest, p.pay with
  | .die _, .guest _ _ => s
  | .die d, pay =>
    if !isFlistad pay.place || s.homeDie pay.place = d then s
    else
      let s := s.openPair p.gid p.ch (.die (s.homeDie pay.place))
      let s : State := { s with packets := updFirst (fun q => q.id == p.id) (fun q => { q with dest := .die (s.homeDie pay.place) }) s.packets }
      s.freePair p.gid p.ch (.die d)
  | _, _ => s

/-- REGION_SWITCH (R425): every die uses the new entry, and GEN advances; a lost die among the homes ends the command with RESULT 5. -/
def execRegionSwitch (s : State) : Out :=
  let m := s.move
  if m.state ≠ 1 || m.op ≠ 3 then .next s
  else if (List.range 8).any fun d => s.dieLost d && (homesOf (s.region.getD 0 m.region) d || homesOf m.entry d) then
    .next (s.setMove { m with state := 0, result := 5 })
  else
    let s1 : State := { s with region := s.region.insert m.region m.entry, gen := s.gen + 1 }
    .next (((s1.packets.filter fun p => p.st == .source).foldl State.reroute s1).setMove { m with state := 0, result := 0 })

/-- GENERATION_NACK (R426): the packets of a group's channel at an old home, and the later ones of their pairs, are sent again in issue order. -/
def execGenerationNack (id : Nat) (s : State) : Out :=
  match s.packet? id with
  | none => .next s
  | some p =>
    if !s.stale p then .next s
    else
      let mine := s.packets.filter fun q => q.gid == p.gid && q.ch == p.ch && q.st != .done && q.st != .source
      let late := mine.filter fun q => mine.any fun k => k.samePair q && s.stale k && decide ((q.seq - k.seq).toNat ≤ 32767)
      let s := s.setPairs p.gid fun l => l.map fun q => match late.find? fun k => k.ch == q.ch && k.dest == q.dest with
        | some k => { q with next := k.seq }
        | none => q
      let t := late.foldl (fun s q => (s.note 0x52 (q.core / 4 * 4) 1 (some q.ctx)).resend q) s
      .next (late.foldl (fun s q => s.freePair q.gid q.ch q.dest) t)

/-! ## KEYID, REGION_ERASE_DONE (R492, R493) -/

/-- KEYID (R492): a write that changes the key of a region starts its erase. -/
def execKeyid (region : Nat) (v : BitVec 16) (s : State) : Out :=
  let k : BitVec 7 := v.extractLsb' 0 7
  if s.phase != 15 || region ≥ regions || k.toNat > 64 || s.busy.contains region || s.keyid.getD 64 region = k then .next s
  else .next { s with keyid := s.keyid.setD 64 region k, busy := s.busy ++ [region] }

/-- REGION_ERASE_DONE (R493): every block is zero and RAW, every execute tag cleared; BUSY clears and what waited goes on. -/
def execRegionEraseDone (region : Nat) (s : State) : Out :=
  if !s.busy.contains region then .next s
  else
    let out (unit k : Nat) : Bool := k / (2 ^ 30 / unit) != region
    let s : State :=
      { s with
        mem := s.mem.filter fun c => out 1 c.1
        desc := s.desc.filter fun c => out 64 c.1
        poison := s.poison.filter fun b => out 64 b
        carry := s.carry.filter fun c => out 16 c.1
        tags := s.tags.filter fun c => out 65536 c.1
        busy := s.busy.filter (· != region) }
    let s := (s.frags.filter fun f => f.holder.isNone && f.blocks.any fun b => !out 64 b).foldl (fun s f => s.plainStore .dir ((f.blocks.head?.getD 0) * 64)) s
    .next s.replay

end Sys2Proof.Machine
end

