-- ==== Sys2Proof/Machine/Host.lean ====
section
/-!
DEFINITION. The host's accesses beside the apertures: the registers of BAR0 (R5, R7 to R9, R384, R385
and the register maps of chapters 16 to 22), and the attestation response (R498).
-/
namespace Sys2Proof.Machine
open Sys2Proof

/-! ## The capability list (R7, R384, R385) -/

/-- A mask of listed bits. -/
def maskOf (l : List Nat) : Nat := l.foldl (fun m i => m ||| 2 ^ i) 0

/-- The records present: ID, SUMMARY and body. -/
def capRecords (c : Caps) : List (Nat × Nat × List Byte) :=
  let present := (List.range 192).filter fun i => !c.fenced.contains i
  let ident (n : Nat) : List Byte := leBytes 8 (((c.sites.find? fun x => x.1 == n).map fun x => x.2.toNat).getD 0)
  [(0x0001, 32 + 32 * 2 ^ 8 + 4 * 2 ^ 16 + 16 * 2 ^ 24, []),
   (0x0002, 0x5EF + 15 * 2 ^ 32, leBytes 16 0xFFFFF),
   (0x0003, 1048576 + 4096 * 2 ^ 32 + 1024 * 2 ^ 48, []),
   (0x0004, 16 + 64 * 2 ^ 8 + 2048 * 2 ^ 16 + 256 * 2 ^ 32, []),
   (0x0005, 65536 + 8 * 2 ^ 32 + 64 * 2 ^ 40 + 2 ^ 48, [])] ++
  (if c.sites.isEmpty then [] else [(0x0006, maskOf (c.sites.map (·.1)) + 20 * 2 ^ 8, ident 0 ++ ident 1)]) ++
  (if c.ports.isEmpty then [] else [(0x0007, c.accel.toNat + c.ports.length * 2 ^ 16 + 2 ^ 24, leBytes 16 (maskOf c.ports))]) ++
  [(0x0008, 8 + 0x7F * 2 ^ 8, []),
   (0x0009, 16 + 64 * 2 ^ 8 + 16 * 2 ^ 16, []),
   (0x000A, 160 + 48 * 2 ^ 16, []),
   (0x000B, 64 + 1024 * 2 ^ 8 + present.length * 2 ^ 24, leBytes 32 (maskOf present))]

/-- The chain as bytes from BAR0 offset `off` on: headers of version 1, each NEXT naming the record behind it (R7). -/
def capBytes : Nat → List (Nat × Nat × List Byte) → List Byte
  | _, [] => []
  | off, (id, summary, body) :: rest =>
    let len := 16 + body.length
    leBytes 16 (summary * 2 ^ 64 + (if rest.isEmpty then 0 else off + len) * 2 ^ 32 + len / 16 * 2 ^ 24 + 2 ^ 16 + id) ++ body ++ capBytes (off + len) rest

/-! ## Registers that the host reads -/

/-- DEVSTAT (R501). -/
def devstat (s : State) : Nat := s.fwsvn.toNat * 2 ^ 32 + s.mcresets.toNat * 2 ^ 16 + (if s.recovery then 2 ^ 7 else 0) + s.phase.toNat

/-- LADDR's 16 bytes of a partition (R394). -/
def launchReg (s : State) (p : Nat) : Nat :=
  let k := s.part p
  k.nocell * 2 ^ 104 + k.drops * 2 ^ 80 + (256 - k.lq.length) * 2 ^ 64

/-- MOVESTAT (R419). -/
def movestat (s : State) : Nat := s.gen.toNat * 2 ^ 24 + s.move.chunks % 2 ^ 16 * 2 ^ 8 + s.move.result * 2 ^ 4 + s.move.state

/-- An entry of the key table (R492). -/
def keyReg (s : State) (r : Nat) : Nat := (if s.busy.contains r then 2 ^ 15 else 0) + (s.keyid.getD 64 r).toNat

/-- A site's status register (R488). -/
def siteStatus (s : State) (n : Nat) : Nat :=
  let x := s.site n
  let out := (x.cmds.filter fun c => c.st != .queued).length
  x.lastRef.toNat * 2 ^ 64 + x.viol.toNat * 2 ^ 48 + x.proterr.toNat * 2 ^ 32 + out * 2 ^ 16 + x.fences.toNat * 2 ^ 8 + x.st

/-- HEVPTR (R465). -/
def hevptr (s : State) : Nat := s.hevDrops.toNat * 2 ^ 48 + s.hevWr.toNat * 2 ^ 16 + s.hevRd.toNat

/-- The register that holds a BAR0 offset: its first byte and its value; none where no register lies. -/
def bar0Reg (s : State) (off : Nat) : Option (Nat × Nat) :=
  if 0x100 ≤ off ∧ off < 0x108 then some (0x100, devstat s)
  else if 0x1000 ≤ off ∧ off < 0x2000 then (if s.phase == 15 then some (0x1000, leNat (capBytes 0x1000 (capRecords s.caps))) else none)
  else if 0x100000 ≤ off ∧ off < 0x100400 then some (off / 16 * 16, launchReg s ((off - 0x100000) / 16))
  else if 0x110020 ≤ off ∧ off < 0x110028 then some (0x110020, movestat s)
  else if 0x120000 ≤ off ∧ off < 0x120000 + 2 * regions then some (off / 2 * 2, (s.region.getD 0 ((off - 0x120000) / 2)).toNat)
  else if 0x121000 ≤ off ∧ off < 0x121000 + 2 * regions then some (off / 2 * 2, keyReg s ((off - 0x121000) / 2))
  else if 0x130000 ≤ off ∧ off < 0x130008 then some (0x130000, s.diestat.toNat)
  else if 0x140000 ≤ off ∧ off < 0x160000 then some (off / 32 * 32, (s.exports.getD 0 ((off - 0x140000) / 32)).toNat)
  else if 0x160000 ≤ off ∧ off < 0x160600 then some (off / 16 * 16, portStatus s ((off - 0x160000) / 16))
  else if 0x160600 ≤ off ∧ off < 0x160608 then some (0x160600, s.lost.toNat * 2 ^ 16 + s.light.toNat)
  else if 0x160608 ≤ off ∧ off < 0x160610 then some (0x160608, s.expSrc.toNat * 2 ^ 32 + s.expCount.toNat)
  else if 0x160700 ≤ off ∧ off < 0x160708 then some (0x160700, s.hevBase.toNat)
  else if 0x160708 ≤ off ∧ off < 0x160710 then some (0x160708, hevptr s)
  else if 0x170000 ≤ off ∧ off < 0x170020 then some (off / 16 * 16, siteStatus s ((off - 0x170000) / 16))
  else none

/-- A byte of BAR0 as the host reads it. Write-only fields and offsets of no register read as 0 (DESIGN CHOICE, log entry 67). -/
def bar0Byte (s : State) (off : Nat) : Byte :=
  match bar0Reg s off with
  | some (base, v) => BitVec.ofNat 8 (v / 256 ^ (off - base))
  | none => 0

/-! ## REGISTER_WRITE -/

/-- A number with one of its bytes replaced. -/
def putByte (v i : Nat) (b : Byte) : Nat := v / 256 ^ (i + 1) * 256 ^ (i + 1) + b.toNat * 256 ^ i + v % 256 ^ i

/-- A start of the command that MOVECMD holds (R419): malformed where a reserved bit is set or OP or SIZE is not listed. -/
def startMove (s : State) : State :=
  let c := s.moveCmd
  let op := fld c 3 0
  let size := fld c 7 4
  let bad := fld c 63 8 ≠ 0 || (match op with
    | 1 => size > 2 || fld c 127 112 ≠ 0 || fld c 255 176 ≠ 0
    | 2 => size > 2 || fld c 127 112 ≠ 0 || fld c 255 128 ≠ 0
    | 3 => size ≠ 0 || fld c 127 75 ≠ 0 || fld c 255 144 ≠ 0
    | _ => true)
  if s.move.state = 1 || (s.move.state = 2 && op ≠ 2) then s.rejectMove 1
  else if bad then s.rejectMove 2
  else match op with
    | 1 => outState s (execMigrate size (c.extractLsb' 64 48) (c.extractLsb' 128 48) s)
    | 2 => outState s (execRetire size (c.extractLsb' 64 48) s)
    | _ => outState s (execRegion (fld c 74 64) (c.extractLsb' 128 16) s)

/-- A byte written to a register without a row of its own: MOVECMD (R419), the export table (R459), LOST (R464, write 1 to clear), COUNT (R460), RD (R465),
PROTERR (R488, a 1 in any bit clears it). Other fields and offsets take no write; reserved bits of an export entry are kept (DESIGN CHOICE, log
entry 67). -/
def regByte (s : State) (off : Nat) (b : Byte) : State :=
  if 0x140000 ≤ off ∧ off < 0x160000 then
    let i := (off - 0x140000) / 32
    { s with exports := s.exports.setD 0 i (BitVec.ofNat 256 (putByte (s.exports.getD 0 i).toNat (off % 32) b)) }
  else if 0x110000 ≤ off ∧ off < 0x110020 then { s with moveCmd := BitVec.ofNat 256 (putByte s.moveCmd.toNat (off - 0x110000) b) }
  else if off = 0x160602 ∨ off = 0x160603 then { s with lost := s.lost &&& ~~~(BitVec.ofNat 16 (b.toNat * 256 ^ (off - 0x160602))) }
  else if 0x160608 ≤ off ∧ off < 0x16060C then { s with expCount := BitVec.ofNat 32 (putByte s.expCount.toNat (off - 0x160608) b) }
  else if off = 0x160708 ∨ off = 0x160709 then { s with hevRd := BitVec.ofNat 16 (putByte s.hevRd.toNat (off - 0x160708) b) }
  else if (off = 0x170004 ∨ off = 0x170005 ∨ off = 0x170014 ∨ off = 0x170015) ∧ b ≠ 0 then
    s.updSite ((off - 0x170000) / 16) fun x => { x with proterr := 0 }
  else s

/-- REGISTER_WRITE (R5): byte by byte; a write that begins with the 64 bits of MOVECMD's command starts it (R419); ignored before READY (R502). -/
def execRegisterWrite (off : Nat) (data : List Byte) (s : State) : Out :=
  if s.phase != 15 then .next s
  else
    let t := (data.mapIdx fun i b => (off + i, b)).foldl (fun s c => regByte s c.1 c.2) s
    .next (if off = 0x110000 ∧ data.length ≥ 8 then startMove t else t)

/-! ## VENDOR_DEFINED_REQUEST (R498) -/

/-- The response: CTXID, COUNT, EXT and the nonce, and the device's signature over them. -/
def execVendorDefinedRequest (ctx : Nat) (nonce : BitVec 256) (s : State) : Out :=
  let c := s.context ctx
  let body := leBytes 2 ctx ++ leBytes 4 c.attCount.toNat ++ leBytes 48 c.attExt.toNat ++ leBytes 32 nonce.toNat
  .next { s with hostOut := body ++ Config.spdmSign body }

end Sys2Proof.Machine
end

