-- ==== Sys2Proof/Machine/Loader.lean ====
section
/-!
DEFINITION. LOADDB (R229, R495 to R498): the loader copies the code segments of a container, measures and verifies them, relocates and tags
them, and extends the attestation record.
-/
namespace Sys2Proof.Machine
open Sys2Proof

/-- A code segment of a container, as the loader reads it. -/
structure CodeSeg where
  off : Nat
  header : List Byte
  image : List Byte
  relocs : List Byte
  based : List Nat
  ecdsa : List Byte
  lms : List Byte

/-- The code segments of a container, in its order. -/
def codeSegs (bs : List Byte) : Option (List CodeSeg) :=
  (Config.psvParse bs).map fun l => l.filterMap fun (code, off, h, i, r, b, e, m) => if code then some ⟨off, h, i, r, b, e, m⟩ else none

/-- A list with some elements replaced from a place on. -/
def putAt (l : List Byte) (o : Nat) (bs : List Byte) : List Byte := l.take o ++ bs.take (l.length - o) ++ l.drop (o + bs.length)

/-- Relocations (R229): each named 64-bit word is based at BASE. -/
def relocate (base : BitVec 64) (image : List Byte) (based : List Nat) : List Byte :=
  based.foldl (fun l o => putAt l o (leBytes 8 (BitVec.ofNat 64 (leNat ((l.drop o).take 8)) + base).toNat)) image

/-- A measurement as a number, its first byte lowest. -/
def measNat (m : List Byte) : BitVec 384 := BitVec.ofNat 384 (leNat m)

/-- The attestation record's 128 bytes (R498). -/
def attBytes (c : Ctx) : List Byte := leBytes 128 (c.attCount.toNat * 2 ^ 768 + c.attLast.toNat * 2 ^ 384 + c.attExt.toNat)

/-- Extends the attestation record with a measurement; its copy in memory follows. `recall` and `wait` where that copy cannot be written now. -/
def extendAtt (ctx : Nat) (m : List Byte) (s : State) : HubRes Unit :=
  let att := fld (s.context ctx).img 191 128
  let s1 := s.updCtx ctx fun c =>
    { c with attCount := c.attCount + 1, attLast := measNat m, attExt := measNat (sha384 (leBytes 48 c.attExt.toNat ++ m)) }
  match physReady s1 ((List.range 128).map (att + ·)) with
  | .ok _ _ => .ok () (hubStore s1 ((attBytes (s1.context ctx)).mapIdx fun i b => (att + i, b)))
  | r => r

/-- One segment (R497): RESULT where it stops, none where it is loaded. -/
def loadSeg (ctx : Nat) (base : BitVec 64) (g : CodeSeg) (s : State) : HubRes (Option Nat) :=
  let va := base + BitVec.ofNat 64 g.off
  let key := (s.context ctx).keyrec
  match hubAddrs s ctx 0 g.image.length va with
  | .recall f => .recall f
  | .wait => .wait
  | .fail => .ok (some 5) s
  | .ok pas t =>
    let s1 := hubStore (pas.foldl (fun t pa => t.touch ctx pa) t) (List.zip pas g.image)
    let m := sha384 (g.header ++ g.image ++ g.relocs)
    if !Config.ecdsaOk key (measNat m) g.ecdsa then .ok (some 3) s1
    else if !Config.lmsOk key (measNat m) g.lms then .ok (some 4) s1
    else
      let s2 := hubStore s1 (List.zip pas (relocate base g.image g.based))
      let chunks := (pas.map fun pa => s2.fwd pa / 65536).eraseDups
      let (n, s3) := s2.draw
      if Config.choice n then .ok (some 6) { s3 with tags := chunks.foldl SMap.erase s3.tags }
      else
        let s4 : State :=
          { s3 with
            tags := chunks.foldl (fun m c => m.insert c ctx) s3.tags
            segs := { ctx := ctx, va := va.toNat, size := g.image.length, meas := m } :: s3.segs }
        match extendAtt ctx m s4 with
        | .ok _ s5 => .ok none s5
        | .fail => .fail
        | .recall f => .recall f
        | .wait => .wait

/-- The segments in order, up to the first that stops. -/
def loadSegs (ctx : Nat) (base : BitVec 64) : List CodeSeg → State → HubRes Nat
  | [], s => .ok 0 s
  | g :: gs, s => match loadSeg ctx base g s with
    | .ok none t => loadSegs ctx base gs t
    | .ok (some r) t => .ok r t
    | .fail => .fail
    | .recall f => .recall f
    | .wait => .wait

/-- RESULT of a load request, and the state. -/
def loadRequest (r : BitVec 512) (s : State) : HubRes Nat :=
  let ctx := fld r 233 224
  let base : BitVec 64 := r.extractLsb' 128 64
  if (s.context ctx).st != .active then .ok 1 s
  else if fld r 511 264 ≠ 0 || base.toNat % 65536 ≠ 0 then .ok 2 s
  else match hubPhys s (fld r 63 0) (fld r 223 192) with
    | .recall f => .recall f
    | .wait => .wait
    | .fail => .ok 2 s
    | .ok bs _ => match codeSegs bs with
      | none => .ok 2 s
      | some gs => loadSegs ctx base gs s

/-- LOADDB (R497): discarded before READY (R502); a request that cannot be read has no effect. RESULT is written with a release, and vector 69
raised. -/
def execLoaddb (addr : BitVec 64) (s : State) : Out :=
  if s.phase != 15 then .next s
  else match hubPhys s addr.toNat 64 with
    | .ok bs _ => match loadRequest (BitVec.ofNat 512 (leNat bs)) s with
      | .ok r t => match physReady t [addr.toNat + 32] with
        | .ok _ _ => .next ((hubStore t [(addr.toNat + 32, BitVec.ofNat 8 r)]).raiseMsi 69)
        | x => .next (x.waits s)
      | x => .next (x.waits s)
    | x => .next (x.waits s)

end Sys2Proof.Machine
end

