-- ==== Sys2Proof/Machine/Device.lean ====
section
/-!
DEFINITION. Events of the module: bring-up and recovery (R499 to R502), the management core's reset (R501), die loss (R162, R424, R436 to
R440), uncorrectable errors and patrol (R490), throttling (R504), a cluster's failure (R3, R505).
-/
namespace Sys2Proof.Machine
open Sys2Proof

/-! ## Bring-up (R499 to R502) -/

/-- Wavelengths with light on both directions suffice (R451). -/
def Port.lit (p : Port) : Bool := decide (4 ≤ litCount p.txLit) && decide (4 ≤ litCount p.rxLit)

/-- What outlives a reset: fuses, flash, light, fenced clusters, the guests on their sites, and the model's count of free values. -/
def State.survivors (s : State) : State := { State.reset with fuses := s.fuses, flash := s.flash, light := s.light, fenced := s.fenced, free := s.free }

/-- Bring-up with a verified image to READY (R502): lit ports trained and keyed, populated sites trained, the capability list built; the fuse
counter is raised to the image's version. -/
def State.bringUp (s : State) (image : List Byte) (svn : BitVec 32) : State :=
  -- a port whose switch reports the ACCELID as taken is not lit (R449)
  let on (p : Nat × Port) : Bool := p.2.lit && !Config.idTaken s.survivors.accelId p.1
  let lit := s.ports.filter on
  let here := s.sites.filter fun p => p.2.st != 0
  { s.survivors with
    fuses := BitVec.ofNat 64 (max s.fuses.toNat svn.toNat)
    fwsvn := svn
    ports := s.ports.map fun p =>
      (p.1, if on p then { txLit := p.2.txLit, rxLit := p.2.rxLit, txAct := p.2.txLit, rxAct := p.2.rxLit, txUp := true, rxUp := true, kstate := 0 }
        else { txLit := p.2.txLit, rxLit := p.2.rxLit })
    sites := here.map fun p => (p.1, { st := 2 })
    caps := { ports := lit.map (·.1), sites := here.map (fun p => (p.1, ((s.caps.sites.find? fun x => x.1 == p.1).map (·.2)).getD 0)), fenced := s.fenced }
    mgmt := { sram := (image.mapIdx fun i b => (i, b)).foldl (fun m c => SMap.setD (0 : Byte) m c.1 c.2) [] } }

/-- The version of an image that ROM accepts (R499). -/
def State.accepts (s : State) (image : List Byte) : Option (BitVec 32) := (Config.firmwareOk image).filter fun v => decide (s.fuses.toNat ≤ v.toNat)

/-- DEVICE_RESET (R502): without an image that verifies the device enters recovery (R500). -/
def execDeviceReset (s : State) : Out :=
  match s.accepts s.flash with
  | some v => .next (s.bringUp s.flash v)
  | none => .next { s.survivors with
      phase := 2, recovery := true, ports := s.ports.map fun p => (p.1, { txLit := p.2.txLit, rxLit := p.2.rxLit })
      sites := (s.sites.filter fun p => p.2.st != 0).map fun p => (p.1, { st := 3 }), caps := { sites := s.caps.sites } }

/-- RECGO (R500): an image that verifies is written to flash and brought up; without one the device stays in recovery. -/
def execRecgo (image : List Byte) (s : State) : Out :=
  if !s.recovery then .next s
  else match s.accepts image with
    | some v => .next (State.bringUp { s with flash := image } image v)
    | none => .next s

/-- MGMT_CORE_FAULT (R501): the core restarts from its image. -/
def execMgmtCoreFault (s : State) : Out :=
  if s.phase != 15 then .next s
  else .next (State.raiseMsi
    { s with mgmt := { pairs := s.mgmt.pairs, joins := s.mgmt.joins, sram := s.mgmt.sram }, mcresets := s.mcresets + 1 } 69)

/-! ## The loss of a die (R162, R436 to R440) -/

/-- A group's or foreman's number lies on a die. -/
def gidOn (die gid : Nat) : Bool := if gid < 131072 then gidDie gid == die else decide (gid < mgmtGid) && (gid - 131072) / 24 == die

/-- A context that the loss traps (R438). -/
def State.trapped (s : State) (die ctx : Nat) : Bool := (s.context ctx).st != .free && bit (s.context ctx).touched die

/-- Write claims of the die's clusters are lost, and every block of their fragments is poisoned (R162). -/
def loseClaims (die : Nat) (s : State) : State :=
  let lost (f : Frag) : Bool := f.holder.any fun h => match h.1 with
    | .cluster c => c / 24 == die
    | .guest _ => false
  (s.frags.filter lost).foldl (fun s f => (f.blocks.foldl (fun s b => (s.poisonBlock b).loseResv b) s).updFrag f.id fun f => { f with holder := none, recalled := false }) s

/-- Launches that the loss ends: their current step completes no more. -/
def holdLaunches (die : Nat) (s : State) : State :=
  { s with launches := s.launches.map fun l => if l.status.isNone && s.trapped die l.ctx then { l with started := false } else l }

/-- Trapped contexts' queued records are discarded and counted in KILLED; their launches end with STATUS 5 (R438). -/
def endLaunches (die : Nat) (s : State) : State :=
  let gone (q : QRec) : Bool := s.trapped die q.ctx || q.seam / 16 == die
  let ends (r : Reserve) : Bool := r.seam / 16 == die || (s.queue.any fun q => q.id == r.qrec && gone q) || r.places.any fun o => o.core / 96 == die
  { s.endReserves ends with
    queue := s.queue.filter fun q => !gone q
    launches := s.launches.map fun l =>
      if l.status.isSome || !s.trapped die l.ctx then l
      else { l with killed := l.killed + (s.queue.filter fun q => q.launch == some l.id && gone q).length + l.todo.length, todo := [], status := some (5, 0) } }

/-- The groups of the die are gone, with what they had issued. -/
def loseGroups (die : Nat) (s : State) : State :=
  let gs := (s.groups.filter fun p => gidOn die p.1).map (·.2)
  let s : State :=
    { s with
      loads := s.loads.filter fun l => !gidOn die l.gid
      parts := s.parts.map fun p => (p.1, { p.2 with svc := p.2.svc.filter fun e => !(e.kind == 1 && e.gid != 0x1FFFF && gidOn die e.gid) }) }
  gs.foldl killAct s

/-- A KIND 2 entry that names no group (R438). -/
def State.lossEntry (s : State) (ctx : Nat) : State :=
  let c := s.context ctx
  let s := s.service c.part { kind := 2, arg := BitVec.ofNat 64 (0x0F + 7 * 256), frame := 0, reqno := 0, service := 0, ctx := ctx, gid := 0x1FFFF, wid := 0 }
  s.kAlarm ctx c.part

/-- Each surviving group of a trapped context stops with DIELOSS, in a vault too; a context without one has an entry of its own (R438). -/
def trapContexts (die : Nat) (s : State) : State :=
  let rec0 (g : Group) : FaultRec := { parkRec s g with code := cDieloss, info := s.diestat.zeroExtend 32, agent := 7 }
  let hit := (s.groups.filter fun p => s.trapped die p.2.ctx).map (·.2)
  let whole (v : VaultImg) : Bool := !v.dies.any fun d => s.dieLost d.1
  let survives (ctx : Nat) : Bool := hit.any (fun g => g.ctx == ctx) || s.vault.any fun v => whole v && v.groups.any fun g => g.ctx == ctx
  let alone := (s.ctxs.map (·.1)).filter fun c => s.trapped die c && !survives c
  let s1 := hit.foldl (fun t g => groupFault g.gid (rec0 g) t) s
  let stop (g : Group) : Group := if s.trapped die g.ctx then g.stop (rec0 g) else g
  let img (v : VaultImg) : VaultImg := if whole v then { v with groups := v.groups.map stop } else v
  let s2 : State := { s1 with vault := s1.vault.map img }
  alone.foldl State.lossEntry s2

/-- A packet to the lost die is discarded and counts as acknowledged (R440); the atomic it belongs to raises POISON. -/
def dropPacket (s : State) (p : Packet) : State :=
  let hit : Option OutLoad := s.loads.find? fun (l : OutLoad) => p.load == some l.id
  let s := match hit with
    | none => s
    | some l =>
      let q := l.parts.find? fun (q : LoadPart) => q.tid == p.tid
      let s : State := { s with loads := s.loads.filter fun k => k.id != l.id, cur := l.cur }
      takeFaultAt p.tid ((q.map LoadPart.slot).getD 0) (poisonFlt ((q.map LoadPart.addr).getD 0) (3) 0) s
  s.ackPacket p.id

/-- Packets of the die's own groups that had not reached HUB are lost; which of those on their way had is a free value (R440). -/
def losePackets (die : Nat) (s : State) : State :=
  let (keep, s) := s.packets.foldl (fun (r : List Packet × State) p =>
    if !gidOn die p.gid then (r.1 ++ [p], r.2)
    else match p.st with
      | .source => r
      | .flying => let (n, t) := r.2.draw; if Config.choice n then (r.1 ++ [p], t) else (r.1, t)
      | _ => (r.1 ++ [p], r.2)) ([], s)
  { s with packets := keep }

/-- Operations on the way to the die: commands end with CODE 3, packets are discarded. -/
def dropTraffic (die : Nat) (s : State) : State :=
  let ps := s.packets.filter fun p => p.dest == .die die && p.st != .done
  let gids := (ps.map Packet.gid).eraseDups
  let s := gids.foldl (fun s g => endRemote g (ps.filter fun p => p.gid == g) s) s
  (s.packets.filter fun p => p.dest == .die die).foldl dropPacket s

/-- A page has blocks homed on a die. -/
def pageOn (s : State) (pa die : Nat) : Bool := homesOf (s.regionOf pa) die

/-- A move that involves the die ends with RESULT 5; what has been forwarded stays so (R424). -/
def loseMove (die : Nat) (s : State) : State :=
  let m := s.move
  if m.state = 1 && m.op = 1 && (pageOn s m.src die || pageOn s m.dst die) then
    (s.setMove { m with state := if s.forward.isEmpty then 0 else 2, result := 5, blocked := false }).replay
  else s

/-- Where a cached translation stands: on which die. -/
def tlbDieOf (owner : Nat) : Nat :=
  if owner < 768 then owner / 96 else if owner < 960 then (owner - 768) / 24 else if owner < 968 then owner - 960 else owner - 968

/-- HUB declares a die lost (R436). -/
def loseDie (die : Nat) (s : State) : State :=
  if die ≥ 8 || s.dieLost die || s.phase != 15 then s
  else
    let s := State.raiseMsi { s with diestat := s.diestat ||| (1#8 <<< die) } 65
    let s := endLaunches die (loseGroups die (holdLaunches die (loseClaims die s)))
    let s : State :=
      { s with
        clusters := s.clusters.filter fun p => p.1 / 24 != die
        assay := s.assay.filter fun a => a.seam / 16 != die
        tlb := s.tlb.filter fun e => tlbDieOf e.owner != die
        kept := s.kept.filter fun k => k.2.2.2 != die }
    loseMove die (dropTraffic die (losePackets die (trapContexts die s)))

/-- PLANE_LINK_SILENT (R436). -/
def execPlaneLinkSilent (die : Nat) (s : State) : Out := .next (loseDie die s)

/-- DIE_FAULT (R436). -/
def execDieFault (die : Nat) (s : State) : Out := .next (loseDie die s)

/-! ## Errors (R490) -/

/-- A block of a group's scratch is poisoned, in its window too. -/
def poisonScratch (s : State) (g : Group) (b : Nat) : State :=
  let s := s.updGroup g.gid fun k => { k with scr := { k.scr with poison := if k.scr.poison.contains b then k.scr.poison else k.scr.poison ++ [b] } }
  let s := match g.frameRun with
    | some (_, us, size) => s.poisonBlock (s.blk (frameByteAt us (size - g.scr.size + 64 * b)))
    | none => s
  s.note 0x82 (96 * gidDie g.gid) 1 none

/-- A group is ended as by GKILL, with a KIND 2 entry of CODE POISON and FRAME 0 (R490); the entry's AGENT is a free value. -/
def killWithEntry (s : State) (g : Group) : State :=
  let (n, s) := s.draw
  let agent := (Config.freeWord n).toNat % 16
  let s : State :=
    { s with
      loads := s.loads.filter fun l => l.gid != g.gid
      parts := s.parts.map fun p => (p.1, { p.2 with svc := p.2.svc.filter fun e => !(e.kind == 1 && e.gid == g.gid) }) }
  let s := (killAct s g).service g.part
    { kind := 2, arg := BitVec.ofNat 64 (cPoison.toNat + agent * 256), frame := 0, reqno := 0, service := 0, ctx := g.ctx, gid := g.gid, wid := 0 }
  s.kAlarm g.ctx g.part

/-- UNCORRECTABLE_ERROR (R490): of a stack's block; of scratch; of a line of L1, dirty under a write claim or clean; of a group's registers,
pair table, queue or reservation-table entry. -/
def execUncorrectableError (place : ErrPlace) (s : State) : Out :=
  match place with
  | .memory b => if isFlistad (b * 64) then .next (s.poisonBlock b) else .next s
  | .scratch gid b =>
    match s.group? gid with
    | some g => if b * 64 < g.scr.size then .next (poisonScratch s g b) else .next s
    | none => .next s
  | .dirtyLine cl b =>
    let clean := s.updCluster cl fun c =>
      { c with held := c.held.filter (fun h => h.blk != b), cores := c.cores.map fun k => { k with l1 := k.l1.filter fun x => x.blk != b } }
    if cl ≥ 192 then .next s
    else if (s.cluster cl).held.any fun h => h.blk == b then .next (clean.poisonBlock b)
    else .next clean
  | .register gid =>
    match s.group? gid with
    | some g => .next (killWithEntry s g)
    | none => .next s

/-- PATROL_SCRUB (R490): symbols corrected are counted (R506). -/
def execPatrolScrub (die n : Nat) (s : State) : Out := if die < 8 then .next (s.note 0x80 (96 * die) n none) else .next s

/-! ## Throttling and failure -/

/-- POWER_THROTTLE (R504): a die's core cycle now lasts `period` quarters of a package tick. -/
def execPowerThrottle (die period : Nat) (s : State) : Out :=
  if die ≥ 8 || period = 0 then .next s else .next { s with clocks := s.clocks.insert die (s.cyclesOf die, s.now, period) }

/-- CLUSTER_FAILURE (R3): the cluster is fenced, its counters and sampling unit zero. -/
def execClusterFailure (cl : Nat) (s : State) : Out :=
  if cl ≥ 192 || s.fenced.contains cl then .next s
  else .next (State.updCluster { s with fenced := s.fenced ++ [cl] } cl fun c => { c with ctrs := List.replicate 16 {}, smp := none })

end Sys2Proof.Machine
end

