-- ==== Sys2Proof/Machine/FloatInstr.lean ====
section
/-!
DEFINITION. Floating-point arithmetic (R252 to R258).
-/
namespace Sys2Proof.Machine
open Sys2Proof

/-- A rounding instruction of two operands (R253). -/
def float2 (op : BitVec 8) (x : Enc) (s : State) (g : FOp2) : Out :=
  compute op x s x.bits fun w t => fp2 x w g (rdOp w t x.a x.bits) (rdB x w t x.bits)

def float1 (op : BitVec 8) (x : Enc) (s : State) (g : FOp) : Out :=
  compute op x s x.bits fun w t => fp1 x w g (rdOp w t x.a x.bits)

/-- FADD (R253). -/
def execFadd (x : Enc) (s : State) : Out := float2 0x30 x s fAdd
/-- FSUB (R253). -/
def execFsub (x : Enc) (s : State) : Out := float2 0x31 x s fSub
/-- FMUL (R253). -/
def execFmul (x : Enc) (s : State) : Out := float2 0x32 x s fMul
/-- FFMA (R253). -/
def execFfma (x : Enc) (s : State) : Out :=
  compute 0x33 x s x.bits fun w t => fp3 x w fFma (rdOp w t x.a x.bits) (rdB x w t x.bits) (rdOp w t x.c x.bits)
/-- FMIN (R254). -/
def execFmin (x : Enc) (s : State) : Out :=
  compute 0x34 x s x.bits fun w t => minMaxCode x.ty w false (rdOp w t x.a x.bits) (rdB x w t x.bits)
/-- FMAX (R254). -/
def execFmax (x : Enc) (s : State) : Out :=
  compute 0x35 x s x.bits fun w t => minMaxCode x.ty w true (rdOp w t x.a x.bits) (rdB x w t x.bits)

/-- The sign bits of a value of a type: both halves' when packed. -/
def signMask (ty : Ty) : Nat := if ty.packed then 0x80008000 else 2 ^ (ty.bits - 1)

/-- FABS (R256): clears the sign bit; no flag. -/
def execFabs (x : Enc) (s : State) : Out :=
  compute 0x36 x s x.bits fun w t => (rdOp w t x.a x.bits &&& (2 ^ x.bits - 1 - signMask x.ty), 0)
/-- FNEG (R256): inverts the sign bit; no flag. -/
def execFneg (x : Enc) (s : State) : Out :=
  compute 0x37 x s x.bits fun w t => (rdOp w t x.a x.bits ^^^ signMask x.ty, 0)
/-- FCMP (R255). -/
def execFcmp (x : Enc) (s : State) : Out :=
  computeP 0x38 x s fun w t => fCmp x.subN (fpVal x.ty w (rdOp w t x.a x.bits)) (fpVal x.ty w (rdB x w t x.bits))
/-- FRND (R256). -/
def execFrnd (x : Enc) (s : State) : Out := float1 0x39 x s fun f m _ _ a => fRnd f m a
/-- FCLASS (R256). -/
def execFclass (x : Enc) (s : State) : Out :=
  compute 0x3A x s 32 fun w t => (fClass x.ty.fmt (rdOp w t x.a x.bits), 0)
/-- FDIV (R253). -/
def execFdiv (x : Enc) (s : State) : Out := float2 0x3B x s fDiv
/-- FSQRT (R253). -/
def execFsqrt (x : Enc) (s : State) : Out := float1 0x3C x s fSqrt

/-- A special function (R257): RNE in every RMODE. -/
def special (op : BitVec 8) (x : Enc) (s : State) (fn : SpecFn) : Out :=
  float1 op x s fun f _ _ fl a => specFn f fl fn a

/-- FRCP (R257). -/
def execFrcp (x : Enc) (s : State) : Out := special 0x3D x s .rcp
/-- FRSQ (R257). -/
def execFrsq (x : Enc) (s : State) : Out := special 0x3E x s .rsq
/-- FEXP2 (R257). -/
def execFexp2 (x : Enc) (s : State) : Out := special 0x3F x s .exp2
/-- FLOG2 (R257). -/
def execFlog2 (x : Enc) (s : State) : Out := special 0x40 x s .log2
/-- FSIN (R257). -/
def execFsin (x : Enc) (s : State) : Out := special 0x41 x s .sin
/-- FCOS (R257). -/
def execFcos (x : Enc) (s : State) : Out := special 0x42 x s .cos
/-- FTANH (R257). -/
def execFtanh (x : Enc) (s : State) : Out := special 0x43 x s .tanh
/-- FSIGM (R257). -/
def execFsigm (x : Enc) (s : State) : Out := special 0x44 x s .sigm
/-- FDOT2 (R258). -/
def execFdot2 (x : Enc) (s : State) : Out :=
  compute 0x45 x s 32 fun w t =>
    let (m, sat) := modeOf x w
    let a := rdOp w t x.a 32
    let b := rdB x w t 32
    let h (n : Nat) : FV := fpVal x.ty w (n % 2 ^ 16)
    fDot2 m sat w.dmode (h a) (h (a / 2 ^ 16)) (h b) (h (b / 2 ^ 16)) (fpVal .f32 w (rdOp w t x.c 32))
/-- FSCALE (R253): b is S32. -/
def execFscale (x : Enc) (s : State) : Out :=
  compute 0x46 x s x.bits fun w t =>
    fp1 x w (fun f m sat fl a => fScale f m sat fl a (intVal .s32 (rdB x w t 32))) (rdOp w t x.a x.bits)

end Sys2Proof.Machine
end

