-- ==== Sys2Proof/Machine/Integer.lean ====
section
/-!
DEFINITION. Integer arithmetic (R245 to R248) and bit operations (R249 to R251).
-/
namespace Sys2Proof.Machine
open Sys2Proof

/-- An integer instruction of two operands: f of the exact values (R246). -/
def int2 (op : BitVec 8) (x : Enc) (s : State) (f : Int → Int → Nat) : Out :=
  compute op x s x.bits fun w t => (f (intVal x.ty (rdOp w t x.a x.bits)) (intVal x.ty (rdB x w t x.bits)), 0)

def int1 (op : BitVec 8) (x : Enc) (s : State) (f : Int → Nat) : Out :=
  compute op x s x.bits fun w t => (f (intVal x.ty (rdOp w t x.a x.bits)), 0)

/-- IADD (R246). -/
def execIadd (x : Enc) (s : State) : Out := int2 0x10 x s fun a b => intResult x.ty (isSat x) (a + b)
/-- ISUB (R246). -/
def execIsub (x : Enc) (s : State) : Out := int2 0x11 x s fun a b => intResult x.ty (isSat x) (a - b)
/-- IMUL (R246). -/
def execImul (x : Enc) (s : State) : Out := int2 0x12 x s fun a b => intResult x.ty (isSat x) (a * b)
/-- IMULH (R246). -/
def execImulh (x : Enc) (s : State) : Out := int2 0x13 x s fun a b => intResult x.ty false (a * b / (2 ^ x.bits : Nat))
/-- IMAD (R246). -/
def execImad (x : Enc) (s : State) : Out :=
  compute 0x14 x s x.bits fun w t =>
    (intResult x.ty (isSat x) (intVal x.ty (rdOp w t x.a x.bits) * intVal x.ty (rdB x w t x.bits) + intVal x.ty (rdOp w t x.c x.bits)), 0)
/-- IMADW (R246): c and d are 64-bit, of the signedness of a and b. -/
def execImadw (x : Enc) (s : State) : Out :=
  compute 0x15 x s 64 fun w t =>
    let wide : Ty := if x.ty.signed then .s64 else .n64
    (intResult wide false (intVal x.ty (rdOp w t x.a 32) * intVal x.ty (rdB x w t 32) + intVal wide (rdOp w t x.c 64)), 0)
/-- IDIV (R247). -/
def execIdiv (x : Enc) (s : State) : Out := int2 0x16 x s (intDiv x.ty (isSat x))
/-- IREM (R247). -/
def execIrem (x : Enc) (s : State) : Out := int2 0x17 x s (intRem x.ty)
/-- INEG (R246). -/
def execIneg (x : Enc) (s : State) : Out := int1 0x18 x s fun a => intResult x.ty (isSat x) (-a)
/-- IABS (R246). -/
def execIabs (x : Enc) (s : State) : Out := int1 0x19 x s fun a => intResult x.ty (isSat x) a.natAbs
/-- IMIN (R246). -/
def execImin (x : Enc) (s : State) : Out := int2 0x1A x s fun a b => intResult x.ty false (min a b)
/-- IMAX (R246). -/
def execImax (x : Enc) (s : State) : Out := int2 0x1B x s fun a b => intResult x.ty false (max a b)
/-- ICMP (R248). -/
def execIcmp (x : Enc) (s : State) : Out :=
  computeP 0x1C x s fun w t => (intCmp x.subN (intVal x.ty (rdOp w t x.a x.bits)) (intVal x.ty (rdB x w t x.bits)), 0)
/-- ISEL (R248). -/
def execIsel (x : Enc) (s : State) : Out :=
  compute 0x1D x s x.bits fun w t => (if t.rdPf x.c then rdOp w t x.a x.bits else rdB x w t x.bits, 0)

/-- The sum of IADDC with its carry in. -/
def addcSum (x : Enc) (w : Warp) (t : Thread) : Nat :=
  rdOp w t x.a x.bits + rdB x w t x.bits + (if t.rdPf x.c then 1 else 0)

/-- IADDC (R248): the carry goes to predicate E in each thread of P; with a uniform D the sum is that of the thread with the
lowest slot, and each thread's carry its own. -/
def execIaddc (x : Enc) (s : State) : Out :=
  issue 0x1E x s fun v =>
    let w := v.warp
    let v' := v.write x x.bits fun w t => (addcSum x w t % 2 ^ x.bits, 0)
    let carry (t : Thread) : Bool := decide (2 ^ x.bits ≤ addcSum x w t)
    let ths := List.zipWith (fun old new => if guardTrue x.w2 old then Thread.wrPf new x.e (carry old) else new) v.ths v'.ths
    finish x (dcost x v) s ⟨v'.warp, ths⟩

/-- LEA (R248). -/
def execLea (x : Enc) (s : State) : Out :=
  issue 0x1F x s fun v =>
    if x.c.toNat > 63 then takeFault (ownIll 0x1F x) s
    else finish x (dcost x v) s <| v.write x 64 fun w t =>
      (toBits 64 ((rdOp w t x.a 64 : Nat) + intVal x.ty (rdB x w t 32) * (2 ^ x.c.toNat : Nat)), 0)

/-! ## Bit operations -/

def bit2 (op : BitVec 8) (x : Enc) (s : State) (f : Nat → Nat → Nat) : Out :=
  compute op x s x.bits fun w t => (f (rdOp w t x.a x.bits) (rdB x w t x.bits), 0)

/-- A shift: the count is the low 8 bits of b (R250). -/
def shift (op : BitVec 8) (x : Enc) (s : State) (f : Nat → Nat → Nat → Nat) : Out :=
  compute op x s x.bits fun w t => (f x.bits (rdOp w t x.a x.bits) (rdB x w t 8), 0)

/-- POPC, CLZ, CTZ write one 32-bit register (R250). -/
def count (op : BitVec 8) (x : Enc) (s : State) (f : Nat → Nat → Nat) : Out :=
  compute op x s 32 fun w t => (f x.bits (rdOp w t x.a x.bits), 0)

/-- AND (R250). -/
def execAndI (x : Enc) (s : State) : Out := bit2 0x20 x s fun a b => a &&& b
/-- OR (R250). -/
def execOrI (x : Enc) (s : State) : Out := bit2 0x21 x s fun a b => a ||| b
/-- XOR (R250). -/
def execXorI (x : Enc) (s : State) : Out := bit2 0x22 x s fun a b => a ^^^ b
/-- ANDN (R250). -/
def execAndn (x : Enc) (s : State) : Out := bit2 0x23 x s fun a b => a &&& (2 ^ x.bits - 1 - b)
/-- NOT (R250). -/
def execNotI (x : Enc) (s : State) : Out := compute 0x24 x s x.bits fun w t => (2 ^ x.bits - 1 - rdOp w t x.a x.bits, 0)
/-- SHL (R250). -/
def execShl (x : Enc) (s : State) : Out := shift 0x25 x s shlBits
/-- SHR (R250). -/
def execShr (x : Enc) (s : State) : Out := shift 0x26 x s shrBits
/-- SAR (R250). -/
def execSar (x : Enc) (s : State) : Out := shift 0x27 x s sarBits
/-- ROT (R250). -/
def execRot (x : Enc) (s : State) : Out := shift 0x28 x s rotBits
/-- BFX (R251): pos is B, len is C. -/
def execBfx (x : Enc) (s : State) : Out :=
  compute 0x29 x s x.bits fun w t =>
    (bfxBits x.bits (x.subN = 1) (rdOp w t x.a x.bits) (rdB x w t 8) (rdOp w t x.c 8), 0)
/-- BFI (R251): b is B, pos is C, len is E. -/
def execBfi (x : Enc) (s : State) : Out :=
  compute 0x2A x s x.bits fun w t =>
    (bfiBits x.bits (rdOp w t x.a x.bits) (rdB x w t x.bits) (rdOp w t x.c 8) (rdOp w t x.e 8), 0)
/-- POPC (R250). -/
def execPopc (x : Enc) (s : State) : Out := count 0x2B x s popBits
/-- CLZ (R250). -/
def execClz (x : Enc) (s : State) : Out := count 0x2C x s clzBits
/-- CTZ (R250). -/
def execCtz (x : Enc) (s : State) : Out := count 0x2D x s ctzBits
/-- BREV (R250). -/
def execBrev (x : Enc) (s : State) : Out := compute 0x2E x s x.bits fun w t => (brevBits x.bits (rdOp w t x.a x.bits), 0)
/-- MOV (R250). -/
def execMov (x : Enc) (s : State) : Out := compute 0x2F x s x.bits fun w t => (rdB x w t x.bits, 0)

end Sys2Proof.Machine
end

