-- ==== Sys2Proof/Machine/Dispatch.lean ====
section
/-!
DEFINITION. exec: each instruction and event to its meaning, one arm per constructor.
-/
namespace Sys2Proof.Machine
open Sys2Proof

def exec (i : Instr) (s : State) : Host.Outcome State Fault Refusal :=
  match i with
  | .nop x => Sys2Proof.Machine.execNop x s
  | .bra x => Sys2Proof.Machine.execBra x s
  | .brx x => Sys2Proof.Machine.execBrx x s
  | .call x => Sys2Proof.Machine.execCall x s
  | .ret x => Sys2Proof.Machine.execRet x s
  | .exit x => Sys2Proof.Machine.execExit x s
  | .reform x => Sys2Proof.Machine.execReform x s
  | .yield x => Sys2Proof.Machine.execYield x s
  | .trap x => Sys2Proof.Machine.execTrap x s
  | .bkpt x => Sys2Proof.Machine.execBkpt x s
  | .syscall x => Sys2Proof.Machine.execSyscall x s
  | .wsync x => Sys2Proof.Machine.execWsync x s
  | .sread x => Sys2Proof.Machine.execSread x s
  | .swrite x => Sys2Proof.Machine.execSwrite x s
  | .clock x => Sys2Proof.Machine.execClock x s
  | .iadd x => Sys2Proof.Machine.execIadd x s
  | .isub x => Sys2Proof.Machine.execIsub x s
  | .imul x => Sys2Proof.Machine.execImul x s
  | .imulh x => Sys2Proof.Machine.execImulh x s
  | .imad x => Sys2Proof.Machine.execImad x s
  | .imadw x => Sys2Proof.Machine.execImadw x s
  | .idiv x => Sys2Proof.Machine.execIdiv x s
  | .irem x => Sys2Proof.Machine.execIrem x s
  | .ineg x => Sys2Proof.Machine.execIneg x s
  | .iabs x => Sys2Proof.Machine.execIabs x s
  | .imin x => Sys2Proof.Machine.execImin x s
  | .imax x => Sys2Proof.Machine.execImax x s
  | .icmp x => Sys2Proof.Machine.execIcmp x s
  | .isel x => Sys2Proof.Machine.execIsel x s
  | .iaddc x => Sys2Proof.Machine.execIaddc x s
  | .lea x => Sys2Proof.Machine.execLea x s
  | .andI x => Sys2Proof.Machine.execAndI x s
  | .orI x => Sys2Proof.Machine.execOrI x s
  | .xorI x => Sys2Proof.Machine.execXorI x s
  | .andn x => Sys2Proof.Machine.execAndn x s
  | .notI x => Sys2Proof.Machine.execNotI x s
  | .shl x => Sys2Proof.Machine.execShl x s
  | .shr x => Sys2Proof.Machine.execShr x s
  | .sar x => Sys2Proof.Machine.execSar x s
  | .rot x => Sys2Proof.Machine.execRot x s
  | .bfx x => Sys2Proof.Machine.execBfx x s
  | .bfi x => Sys2Proof.Machine.execBfi x s
  | .popc x => Sys2Proof.Machine.execPopc x s
  | .clz x => Sys2Proof.Machine.execClz x s
  | .ctz x => Sys2Proof.Machine.execCtz x s
  | .brev x => Sys2Proof.Machine.execBrev x s
  | .mov x => Sys2Proof.Machine.execMov x s
  | .fadd x => Sys2Proof.Machine.execFadd x s
  | .fsub x => Sys2Proof.Machine.execFsub x s
  | .fmul x => Sys2Proof.Machine.execFmul x s
  | .ffma x => Sys2Proof.Machine.execFfma x s
  | .fmin x => Sys2Proof.Machine.execFmin x s
  | .fmax x => Sys2Proof.Machine.execFmax x s
  | .fabs x => Sys2Proof.Machine.execFabs x s
  | .fneg x => Sys2Proof.Machine.execFneg x s
  | .fcmp x => Sys2Proof.Machine.execFcmp x s
  | .frnd x => Sys2Proof.Machine.execFrnd x s
  | .fclass x => Sys2Proof.Machine.execFclass x s
  | .fdiv x => Sys2Proof.Machine.execFdiv x s
  | .fsqrt x => Sys2Proof.Machine.execFsqrt x s
  | .frcp x => Sys2Proof.Machine.execFrcp x s
  | .frsq x => Sys2Proof.Machine.execFrsq x s
  | .fexp2 x => Sys2Proof.Machine.execFexp2 x s
  | .flog2 x => Sys2Proof.Machine.execFlog2 x s
  | .fsin x => Sys2Proof.Machine.execFsin x s
  | .fcos x => Sys2Proof.Machine.execFcos x s
  | .ftanh x => Sys2Proof.Machine.execFtanh x s
  | .fsigm x => Sys2Proof.Machine.execFsigm x s
  | .fdot2 x => Sys2Proof.Machine.execFdot2 x s
  | .fscale x => Sys2Proof.Machine.execFscale x s
  | .cvt x => Sys2Proof.Machine.execCvt x s
  | .qpack x => Sys2Proof.Machine.execQpack x s
  | .qunpk x => Sys2Proof.Machine.execQunpk x s
  | .qscale x => Sys2Proof.Machine.execQscale x s
  | .shfl x => Sys2Proof.Machine.execShfl x s
  | .pushx x => Sys2Proof.Machine.execPushx x s
  | .redx x => Sys2Proof.Machine.execRedx x s
  | .scanx x => Sys2Proof.Machine.execScanx x s
  | .ballot x => Sys2Proof.Machine.execBallot x s
  | .vote x => Sys2Proof.Machine.execVote x s
  | .matchI x => Sys2Proof.Machine.execMatchI x s
  | .pset x => Sys2Proof.Machine.execPset x s
  | .plop x => Sys2Proof.Machine.execPlop x s
  | .pmovGet x => Sys2Proof.Machine.execPmovGet x s
  | .pmovPut x => Sys2Proof.Machine.execPmovPut x s
  | .ld x => Sys2Proof.Machine.execLd x s
  | .ldw x => Sys2Proof.Machine.execLdw x s
  | .lds x => Sys2Proof.Machine.execLds x s
  | .ldk x => Sys2Proof.Machine.execLdk x s
  | .st x => Sys2Proof.Machine.execSt x s
  | .stw x => Sys2Proof.Machine.execStw x s
  | .sts x => Sys2Proof.Machine.execSts x s
  | .stm x => Sys2Proof.Machine.execStm x s
  | .atom x => Sys2Proof.Machine.execAtom x s
  | .atoms x => Sys2Proof.Machine.execAtoms x s
  | .atomp x => Sys2Proof.Machine.execAtomp x s
  | .lr x => Sys2Proof.Machine.execLr x s
  | .sc x => Sys2Proof.Machine.execSc x s
  | .pref x => Sys2Proof.Machine.execPref x s
  | .cflush x => Sys2Proof.Machine.execCflush x s
  | .cinvLine x => Sys2Proof.Machine.execCinvLine x s
  | .cinvAll x => Sys2Proof.Machine.execCinvAll x s
  | .dget x => Sys2Proof.Machine.execDget x s
  | .dset x => Sys2Proof.Machine.execDset x s
  | .ldb x => Sys2Proof.Machine.execLdb x s
  | .fence x => Sys2Proof.Machine.execFence x s
  | .chjoin x => Sys2Proof.Machine.execChjoin x s
  | .chdrain x => Sys2Proof.Machine.execChdrain x s
  | .chstat x => Sys2Proof.Machine.execChstat x s
  | .bar x => Sys2Proof.Machine.execBar x s
  | .gbar x => Sys2Proof.Machine.execGbar x s
  | .tbinit x => Sys2Proof.Machine.execTbinit x s
  | .tbexp x => Sys2Proof.Machine.execTbexp x s
  | .tbarv x => Sys2Proof.Machine.execTbarv x s
  | .tbwait x => Sys2Proof.Machine.execTbwait x s
  | .rstat x => Sys2Proof.Machine.execRstat x s
  | .rstatPeek x => Sys2Proof.Machine.execRstatPeek x s
  | .tmake x => Sys2Proof.Machine.execTmake x s
  | .tfree x => Sys2Proof.Machine.execTfree x s
  | .tclaimRd x => Sys2Proof.Machine.execTclaimRd x s
  | .tclaimWr x => Sys2Proof.Machine.execTclaimWr x s
  | .tdrop x => Sys2Proof.Machine.execTdrop x s
  | .tsplit x => Sys2Proof.Machine.execTsplit x s
  | .tinfo x => Sys2Proof.Machine.execTinfo x s
  | .wset x => Sys2Proof.Machine.execWset x s
  | .wclr x => Sys2Proof.Machine.execWclr x s
  | .wstat x => Sys2Proof.Machine.execWstat x s
  | .cpy x => Sys2Proof.Machine.execCpy x s
  | .cpyl x => Sys2Proof.Machine.execCpyl x s
  | .cpym x => Sys2Proof.Machine.execCpym x s
  | .gslotT x => Sys2Proof.Machine.execGslotT x s
  | .gslotF x => Sys2Proof.Machine.execGslotF x s
  | .gslotU x => Sys2Proof.Machine.execGslotU x s
  | .gslotP x => Sys2Proof.Machine.execGslotP x s
  | .mma x => Sys2Proof.Machine.execMma x s
  | .aringOpen x => Sys2Proof.Machine.execAringOpen x s
  | .aringSeal x => Sys2Proof.Machine.execAringSeal x s
  | .aringDrop x => Sys2Proof.Machine.execAringDrop x s
  | .epi x => Sys2Proof.Machine.execEpi x s
  | .apeek x => Sys2Proof.Machine.execApeek x s
  | .apatch x => Sys2Proof.Machine.execApatch x s
  | .mstatSlot x => Sys2Proof.Machine.execMstatSlot x s
  | .mstatTab x => Sys2Proof.Machine.execMstatTab x s
  | .tenq x => Sys2Proof.Machine.execTenq x s
  | .tdone x => Sys2Proof.Machine.execTdone x s
  | .gpost x => Sys2Proof.Machine.execGpost x s
  | .evpost x => Sys2Proof.Machine.execEvpost x s
  | .evread x => Sys2Proof.Machine.execEvread x s
  | .evreadNb x => Sys2Proof.Machine.execEvreadNb x s
  | .trel x => Sys2Proof.Machine.execTrel x s
  | .ainvAll x => Sys2Proof.Machine.execAinvAll x s
  | .ainvMeas x => Sys2Proof.Machine.execAinvMeas x s
  | .gresume x => Sys2Proof.Machine.execGresume x s
  | .gkill x => Sys2Proof.Machine.execGkill x s
  | .prds x => Sys2Proof.Machine.execPrds x s
  | .pwrs x => Sys2Proof.Machine.execPwrs x s
  | .pwrsKsvcrd x => Sys2Proof.Machine.execPwrsKsvcrd x s
  | .pwrsKsvcarm x => Sys2Proof.Machine.execPwrsKsvcarm x s
  | .ctxcreate x => Sys2Proof.Machine.execCtxcreate x s
  | .ctxupdate x => Sys2Proof.Machine.execCtxupdate x s
  | .ctxread x => Sys2Proof.Machine.execCtxread x s
  | .ctxdestroy x => Sys2Proof.Machine.execCtxdestroy x s
  | .partcreate x => Sys2Proof.Machine.execPartcreate x s
  | .partupdate x => Sys2Proof.Machine.execPartupdate x s
  | .partread x => Sys2Proof.Machine.execPartread x s
  | .partdestroy x => Sys2Proof.Machine.execPartdestroy x s
  | .iret x => Sys2Proof.Machine.execIret x s
  | .park x => Sys2Proof.Machine.execPark x s
  | .unparkR x => Sys2Proof.Machine.execUnparkR x s
  | .unparkK x => Sys2Proof.Machine.execUnparkK x s
  | .vsave x => Sys2Proof.Machine.execVsave x s
  | .vload x => Sys2Proof.Machine.execVload x s
  | .tlblsVa x => Sys2Proof.Machine.execTlblsVa x s
  | .tlblsCtx x => Sys2Proof.Machine.execTlblsCtx x s
  | .tlblsAll x => Sys2Proof.Machine.execTlblsAll x s
  | .haltS x => Sys2Proof.Machine.execHaltS x s
  | .haltC x => Sys2Proof.Machine.execHaltC x s
  | .pmcfgCtr x => Sys2Proof.Machine.execPmcfgCtr x s
  | .pmcfgSmp x => Sys2Proof.Machine.execPmcfgSmp x s
  | .pmrd x => Sys2Proof.Machine.execPmrd x s
  | .pmrdClr x => Sys2Proof.Machine.execPmrdClr x s
  | .memoryResponse n data => Sys2Proof.Machine.execMemoryResponse n data s
  | .fairnessSwitch gid wid => Sys2Proof.Machine.execFairnessSwitch gid wid s
  | .laneIdleCycle core lane => Sys2Proof.Machine.execLaneIdleCycle core lane s
  | .binReady core bin => Sys2Proof.Machine.execBinReady core bin s
  | .binDraw gid => Sys2Proof.Machine.execBinDraw gid s
  | .reservationTimeout gid tid => Sys2Proof.Machine.execReservationTimeout gid tid s
  | .selftick cl => Sys2Proof.Machine.execSelftick cl s
  | .ptsLagAdvance who => Sys2Proof.Machine.execPtsLagAdvance who s
  | .fragmentRebase f => Sys2Proof.Machine.execFragmentRebase f s
  | .writebackDone f => Sys2Proof.Machine.execWritebackDone f s
  | .copyStart cl => Sys2Proof.Machine.execCopyStart cl s
  | .copyBlock cl id => Sys2Proof.Machine.execCopyBlock cl id s
  | .copyEnd cl id => Sys2Proof.Machine.execCopyEnd cl id s
  | .mmaEntryEnter cl id => Sys2Proof.Machine.execMmaEntryEnter cl id s
  | .mmaGrant cl => Sys2Proof.Machine.execMmaGrant cl s
  | .mmaPassComplete cl => Sys2Proof.Machine.execMmaPassComplete cl s
  | .epiTakeSlot cl => Sys2Proof.Machine.execEpiTakeSlot cl s
  | .epiDrainComplete cl => Sys2Proof.Machine.execEpiDrainComplete cl s
  | .ringParityError cl slot => Sys2Proof.Machine.execRingParityError cl slot s
  | .taskComplete gid => Sys2Proof.Machine.execTaskComplete gid s
  | .waitingEnqueueEnter part => Sys2Proof.Machine.execWaitingEnqueueEnter part s
  | .agingPromotion seam id => Sys2Proof.Machine.execAgingPromotion seam id s
  | .placementPass die part => Sys2Proof.Machine.execPlacementPass die part s
  | .stepStart launch => Sys2Proof.Machine.execStepStart launch s
  | .watchdogHang gid => Sys2Proof.Machine.execWatchdogHang gid s
  | .faultPark gid => Sys2Proof.Machine.execFaultPark gid s
  | .parkFrameWrite gid => Sys2Proof.Machine.execParkFrameWrite gid s
  | .serviceEntryWrite part => Sys2Proof.Machine.execServiceEntryWrite part s
  | .foremanFault cl => Sys2Proof.Machine.execForemanFault cl s
  | .packetArrival id => Sys2Proof.Machine.execPacketArrival id s
  | .packetAck id => Sys2Proof.Machine.execPacketAck id s
  | .packetNack id => Sys2Proof.Machine.execPacketNack id s
  | .planeReleaseDeliver id => Sys2Proof.Machine.execPlaneReleaseDeliver id s
  | .fabricIngressArrival p => Sys2Proof.Machine.execFabricIngressArrival p s
  | .pairFree k => Sys2Proof.Machine.execPairFree k s
  | .ingressPairExpire k => Sys2Proof.Machine.execIngressPairExpire k s
  | .chsync gid ch accel lane => Sys2Proof.Machine.execChsync gid ch accel lane s
  | .sync k run low => Sys2Proof.Machine.execSync k run low s
  | .syncReply gid ch accel lane expected => Sys2Proof.Machine.execSyncReply gid ch accel lane expected s
  | .remoteTimeout id => Sys2Proof.Machine.execRemoteTimeout id s
  | .wavelengthLoss loss => Sys2Proof.Machine.execWavelengthLoss loss s
  | .stripeMarker port tx => Sys2Proof.Machine.execStripeMarker port tx s
  | .laserRestored input => Sys2Proof.Machine.execLaserRestored input s
  | .flitReplay port => Sys2Proof.Machine.execFlitReplay port s
  | .flitAck port n => Sys2Proof.Machine.execFlitAck port n s
  | .replayTimeout port tx => Sys2Proof.Machine.execReplayTimeout port tx s
  | .portDown port => Sys2Proof.Machine.execPortDown port s
  | .portUp port => Sys2Proof.Machine.execPortUp port s
  | .rekeyStart port => Sys2Proof.Machine.execRekeyStart port s
  | .rekeyStop port => Sys2Proof.Machine.execRekeyStop port s
  | .hevbase v => Sys2Proof.Machine.execHevbase v s
  | .laddr part v => Sys2Proof.Machine.execLaddr part v s
  | .launchAccept part => Sys2Proof.Machine.execLaunchAccept part s
  | .launchEnd launch => Sys2Proof.Machine.execLaunchEnd launch s
  | .hostDataWrite pa data => Sys2Proof.Machine.execHostDataWrite pa data s
  | .hostDataRead pa n => Sys2Proof.Machine.execHostDataRead pa n s
  | .hostDescriptorWrite off data => Sys2Proof.Machine.execHostDescriptorWrite off data s
  | .migrate size src dst => Sys2Proof.Machine.execMigrate size src dst s
  | .migrateChunk => Sys2Proof.Machine.execMigrateChunk s
  | .retire size src => Sys2Proof.Machine.execRetire size src s
  | .region region entry => Sys2Proof.Machine.execRegion region entry s
  | .regionSwitch => Sys2Proof.Machine.execRegionSwitch s
  | .generationNack id => Sys2Proof.Machine.execGenerationNack id s
  | .keyid region v => Sys2Proof.Machine.execKeyid region v s
  | .regionEraseDone region => Sys2Proof.Machine.execRegionEraseDone region s
  | .loaddb addr => Sys2Proof.Machine.execLoaddb addr s
  | .recgo image => Sys2Proof.Machine.execRecgo image s
  | .resetI site => Sys2Proof.Machine.execResetI site s
  | .siteResetHoldEnd site => Sys2Proof.Machine.execSiteResetHoldEnd site s
  | .siteTrainingDone site ident => Sys2Proof.Machine.execSiteTrainingDone site ident s
  | .siteTrainingTimeout site => Sys2Proof.Machine.execSiteTrainingTimeout site s
  | .registerWrite off data => Sys2Proof.Machine.execRegisterWrite off data s
  | .guestRequest site ctx pa acc => Sys2Proof.Machine.execGuestRequest site ctx pa acc s
  | .complete site pkt => Sys2Proof.Machine.execComplete site pkt s
  | .errorI site pkt => Sys2Proof.Machine.execErrorI site pkt s
  | .guestFault site pkt => Sys2Proof.Machine.execGuestFault site pkt s
  | .saved site pkt => Sys2Proof.Machine.execSaved site pkt s
  | .discarded site pkt => Sys2Proof.Machine.execDiscarded site pkt s
  | .xlateReq site pkt => Sys2Proof.Machine.execXlateReq site pkt s
  | .invAck site pkt => Sys2Proof.Machine.execInvAck site pkt s
  | .claimReq site pkt => Sys2Proof.Machine.execClaimReq site pkt s
  | .recallDone site pkt => Sys2Proof.Machine.execRecallDone site pkt s
  | .guestDeadline site => Sys2Proof.Machine.execGuestDeadline site s
  | .grantExpire site => Sys2Proof.Machine.execGrantExpire site s
  | .planeLinkSilent die => Sys2Proof.Machine.execPlaneLinkSilent die s
  | .dieFault die => Sys2Proof.Machine.execDieFault die s
  | .uncorrectableError place => Sys2Proof.Machine.execUncorrectableError place s
  | .patrolScrub die n => Sys2Proof.Machine.execPatrolScrub die n s
  | .mgmtCoreFault => Sys2Proof.Machine.execMgmtCoreFault s
  | .deviceReset => Sys2Proof.Machine.execDeviceReset s
  | .powerThrottle die period => Sys2Proof.Machine.execPowerThrottle die period s
  | .samplePoint cl => Sys2Proof.Machine.execSamplePoint cl s
  | .writeClaimHoldExpiry f => Sys2Proof.Machine.execWriteClaimHoldExpiry f s
  | .keyInstall port => Sys2Proof.Machine.execKeyInstall port s
  | .atomicResultAck k seq => Sys2Proof.Machine.execAtomicResultAck k seq s
  | .protocolError site pkt => Sys2Proof.Machine.execProtocolError site pkt s
  | .vendorDefinedRequest ctx nonce => Sys2Proof.Machine.execVendorDefinedRequest ctx nonce s
  | .clusterFailure cl => Sys2Proof.Machine.execClusterFailure cl s

end Sys2Proof.Machine
end

