-- ==== Sys2Proof/Machine/Due.lean ====
section
/-!
DEFINITION. What moves when the agenda is empty: the model's own order among the things the manual leaves unordered (R44), see the
assumption log. Events that the outside world decides (the host, guests, light, other accelerators, failures) come by the agenda alone.
-/
namespace Sys2Proof.Machine
open Sys2Proof

/-! ## Events of the device itself -/

def groupEvents (g : Group) : List (State → Out) :=
  [execFaultPark g.gid, execParkFrameWrite g.gid, execTaskComplete g.gid, execWatchdogHang g.gid, execBinDraw g.gid] ++
    g.warps.map (fun w => execFairnessSwitch g.gid w.wid) ++ (g.threads.filter fun t => t.resv.isSome).map fun t => execReservationTimeout g.gid t.tid

def clusterEvents (cl : Nat) (c : Cluster) : List (State → Out) :=
  (c.copyQ.map fun k => execCopyEnd cl k.id) ++ [execCopyStart cl] ++ (c.copyQ.map fun k => execCopyBlock cl k.id) ++
    (c.mma.map fun m => execMmaEntryEnter cl m.id) ++
    [execMmaPassComplete cl, execMmaGrant cl, execEpiDrainComplete cl, execEpiTakeSlot cl, execForemanFault cl, execSamplePoint cl] ++
    (List.range 4).flatMap fun i => (List.range (c.core i).bins.length).map fun b => execBinReady (4 * cl + i) b

def trafficEvents (s : State) : List (State → Out) :=
  (s.packets.flatMap fun p =>
    [execGenerationNack p.id, execPacketAck p.id, execPlaneReleaseDeliver p.id, execPacketNack p.id, execPacketArrival p.id, execRemoteTimeout p.id]) ++
    (s.loads.flatMap fun l => [execMemoryResponse l.id [], execRemoteTimeout l.id]) ++
    s.frags.flatMap fun f => [execWritebackDone f.id, execWriteClaimHoldExpiry f.id, execFragmentRebase f.id]

def schedEvents (s : State) : List (State → Out) :=
  (s.launches.flatMap fun l => [execLaunchEnd l.id, execStepStart l.id]) ++
    (s.parts.flatMap fun p => [execServiceEntryWrite p.1, execWaitingEnqueueEnter p.1, execLaunchAccept p.1]) ++
    (s.passes.map fun p => execPlacementPass (p.1 / 64) (p.1 % 64)) ++
    s.queue.map fun q => execAgingPromotion q.seam q.id

def hubEvents (s : State) : List (State → Out) :=
  [execMigrateChunk, execRegionSwitch] ++ (s.busy.map execRegionEraseDone) ++
    (s.rpairs.map fun q => execIngressPairExpire q.key) ++
    (s.incidents.flatMap fun i => i.pending.filterMap fun p => match p.2.2 with
      | .fab a l => if (s.pairsOf p.1).any fun q => q.ch == p.2.1 && q.dest == p.2.2 && q.resync then none else some (execChsync p.1 p.2.1 a l)
      | _ => none) ++
    (s.ports.flatMap fun p => [execRekeyStop p.1, execRekeyStart p.1, execReplayTimeout p.1 true]) ++
    (s.sites.flatMap fun p => [execSiteResetHoldEnd p.1, execSiteTrainingTimeout p.1, execGuestDeadline p.1, execGrantExpire p.1]) ++
    ((List.range 194).map execPtsLagAdvance) ++ (List.range 192).map execSelftick

/-- Every event the device may come to by itself. -/
def State.internal (s : State) : List (State → Out) :=
  trafficEvents s ++ (s.groups.flatMap fun p => groupEvents p.2) ++ (s.clusters.flatMap fun p => clusterEvents p.1 p.2) ++ schedEvents s ++ hubEvents s

/-- What an event makes of the state, when it changes something. -/
def State.changed (s : State) (e : State → Out) : Option State :=
  match e s with
  | .next t => if t = s then none else some t
  | _ => none

/-- The state after the internal event that is due first: one that changes something. -/
def State.due (s : State) : Option State := s.internal.findSome? s.changed

/-! ## Who issues -/

/-- The lanes of all cores that have an eligible warp, with the time each last issued. -/
def State.readyLanes (s : State) : List (Nat × Nat × Nat) :=
  s.groups.flatMap fun p =>
    (p.2.warps.filter fun w => eligible s p.2 w).map fun w => (SMap.getD 0 (s.core (gidCore p.1)).turns w.lane, gidCore p.1, w.lane)

/-- The entry with the least first component, the earliest listed of equals. -/
def leastTurn : List (Nat × Nat × Nat) → Option (Nat × Nat)
  | [] => none
  | x :: xs => match (xs.foldl (fun (b : Nat × Nat × Nat) y => if y.1 < b.1 then y else b) x) with
    | (_, c, l) => some (c, l)

/-- The turns of the agents that can issue: the lane that has waited longest, a foreman, the management core once it has an image. Which
comes first goes round with time. -/
def State.issueTurn (s : State) : Option Turn :=
  let lane : Option Turn := (leastTurn s.readyLanes).map fun p => .issue p.1 p.2 false
  let fore : Option Turn := ((s.clusters.map (·.1)).find? s.foremanRuns).map .foreman
  let mgmt : Option Turn := if s.mgmtRuns && !s.mgmt.sram.isEmpty then some .mgmt else none
  if s.now % 4 = 0 then fore.orElse fun _ => mgmt.orElse fun _ => lane
  else if s.now % 4 = 1 then mgmt.orElse fun _ => lane.orElse fun _ => fore
  else lane.orElse fun _ => fore.orElse fun _ => mgmt


end Sys2Proof.Machine
end

