-- ==== Sys2Proof/Machine/Step.lean ====
section
/-!
DEFINITION. One step: what moves next, the fetch and decoding of an instruction, its execution, and what the counters take of it.
-/
namespace Sys2Proof.Machine
open Sys2Proof

/-- Fetches, decodes and executes the instruction of the issue under way. -/
def runFetched (s : State) : Host.Outcome State Fault Refusal :=
  match fetchInstr s with
  | .blocked => .next (stall s)
  | .recall f => .next (stallRecall f s)
  | .fail f => .next (takeFault f s)
  | .ok bs s' =>
    match decode bs with
    | .ok (i, _) => exec i s'
    | .error (.illegal _ op x) => .next (takeFault (illegalWords op x s') s')
    | .error .short => .next (stall s')

/-- The issue under way; a fault waits until every earlier instruction of the warp has completed, so that it is precise (R194, R209). -/
def runIssue (s : State) : Host.Outcome State Fault Refusal := precise s (runFetched s)

/-- A lane's turn: it offers its cycle to its warps in round-robin order (R19, R409). A warp whose attempt stalls is not eligible, and the next
one gets the cycle; with none eligible the lane idles. A foreman and the management core pass a cycle while they stall. -/
def laneTurn (core lane : Nat) (defer : Bool) : List Nat → State → Host.Outcome State Fault Refusal
  | [], s => .next (idleLane core lane s)
  | i :: is, s =>
    match s.pickSlot core lane i defer with
    | none => laneTurn core lane defer is s
    | some c => match runIssue { s with cur := c } with
      | .next t => if t.cur.stalled then laneTurn core lane defer is { t with cur := {} } else .next (t.pointLane core lane i)
      | o => o

/-- An agent that stands alone issues, or passes a cycle of its clock while it stalls. -/
def soloTurn (die : Nat) (c : Cur) (s : State) : Host.Outcome State Fault Refusal :=
  match runIssue { s with cur := c } with
  | .next t => .next (if t.cur.stalled then { t with cur := {} }.pass die 1 else t)
  | o => o

/-- Performs one turn. -/
def turn (t : Turn) (s : State) : Host.Outcome State Fault Refusal :=
  match t with
  | .issue core lane defer => laneTurn core lane defer (s.slotOrder core lane) s
  | .foreman c =>
    if s.foremanRuns c then soloTurn (c / 24) { agent := .foreman c, pc := (s.cluster c).fore.th.pc, path := [0] } s else .next s
  | .mgmt => if s.mgmtRuns then soloTurn 8 { agent := .mgmt, pc := s.mgmt.th.pc, path := [0] } s else .next s
  | .event i => if i.parts.isNone then exec i s else .next s
  | .tick n => .next { s with now := s.now + n }
  | .dropTlb n => .next { s with tlb := s.tlb.eraseIdx n }
  | .dropL1 core n => .next (s.updCore core fun c => { c with l1 := c.l1.eraseIdx n })

/-- What every step does besides its turn: the counters take what it gave them (R506), filed threads whose time has come are drawn (R43), time
in which a watchdog stands is not counted (R408), and what waits at its home is replayed, if it may be (R422). -/
def tallied (s : State) : Host.Outcome State Fault Refusal → Host.Outcome State Fault Refusal
  | .next t => .next (s.tally (s.pauseDogs (if t.queued.isEmpty then t else t.replay).drawDue))
  | o => o

/-- What moves when nothing is on the agenda: an internal event that is due, else an agent that can issue, else time. -/
def unscheduled (s : State) : Host.Outcome State Fault Refusal :=
  match s.due with
  | some t => .next t
  | none => turn (s.issueTurn.getD (.tick 1)) s

/-- One step: the head of the agenda, or what the model lets move when it is empty. -/
def step (s : State) : Host.Outcome State Fault Refusal :=
  match s.agenda with
  | t :: rest => tallied s (turn t { s with agenda := rest, cur := {} })
  | [] => tallied s (unscheduled { s with cur := {} })

/-- The machine with the instruction whose bits are `w` as what the next step fetches (bits at and above `nbits` zero). -/
def State.withFetchWord (s : State) (nbits w : Nat) : State := placeBytes s (numBytes 20 (w % 2 ^ nbits))

end Sys2Proof.Machine
end

