-- ==== Sys2Proof/Safety.lean ====
section
/-!
DEFINITION. What counts as a safe step, and the terms the claims use: the agent that issues, its registers before and after, an instruction
that the checks of R216 and the stalls let go on, and what an instruction leaves as it was.
-/
namespace Sys2Proof
open Machine

/-- An outcome is a next state. The spec's own exceptions are next states, so a safe step is one that neither stops the model nor is
refused. -/
def Goes (o : Host.Outcome Machine.State Machine.Fault Machine.Refusal) : Prop := ∃ t, o = .next t

/-! ## The memory's form -/

/-- Memory in its canonical form: addresses strictly rise, and nothing listed equals what an unlisted address reads as (0). -/
abbrev Memory.wf (m : SMap Byte) : Prop := SMap.wf (0 : Byte) m = true

/-- Everything the machine numbers and keeps by number is in canonical form: memory, the blocks' descriptors, the chunks' execute tags. -/
def Canonical (s : State) : Prop := Memory.wf s.mem ∧ SMap.wf rawDesc s.desc = true ∧ s.tags.rising = true

/-! ## The issuing agent -/

/-- The registers and path threads of the agent that issues in `s`; no thread where there is no such agent. -/
def viewOf (s : State) : View := (view s).getD ⟨{ wid := 0, lane := 0, wslot := 0, s := [] }, []⟩

/-- In `t`, the registers and path threads of the agent that issued in `s`. -/
def after (s t : State) : View := viewOf { t with cur := s.cur }

/-- An instruction may execute now: its agent exists, no check of R216 fails, and nothing makes it stall. -/
def Enabled (op : BitVec 8) (x : Enc) (s : State) : Prop :=
  (view s).isSome = true ∧ issueOrder s.cur.agent (who s).level op.toNat x (regCounts s).1 (regCounts s).2 = 0 ∧ stalled op.toNat x s (viewOf s) = false

/-- The threads of the issuing path whose guard is true: P (R208, R231). -/
def active (x : Enc) (s : State) : List Thread := (viewOf s).P x

/-- A thread and a warp of a group, by their numbers. -/
def threadIn (s : State) (g k : Nat) : Option Thread := (s.group? g).bind fun x => x.thread? k
def warpIn (s : State) (g k : Nat) : Option Warp := (s.group? g).bind fun x => x.warp? k

/-! ## What stays -/

/-- A warp without the record of its issues: its registers, modes and waits. -/
def arch (w : Warp) : Warp :=
  { w with fair := 0, forced := none, stamp := 0, cpym := [], drains := [], fetched := [], issued := none, held := false, busy := none }

/-- A group without its threads, warps and watchdog, and without the accesses left unwatched for an instruction. -/
def groupRest (g : Group) : Group := { g with threads := [], warps := [], suppress := [], wdogAt := 0, wdogLim := 0 }

def foreRest (f : Foreman) : Foreman := { f with w := { wid := 0, lane := 0, wslot := 0, s := [] }, th := { tid := 0, slot := 0, wid := 0, pc := 0, v := [] } }

/-- A cluster without its foreman's registers and its lanes' pointers (R409). -/
def clusterRest (c : Cluster) : Cluster := { c with fore := foreRest c.fore, cores := c.cores.map fun k => { k with rr := [], turns := [] } }

def mgmtRest (m : Mgmt) : Mgmt := { m with w := { wid := 0, lane := 0, wslot := 0, s := [] }, th := { tid := 0, slot := 0, wid := 0, pc := 0, v := [] } }

/-- The state without groups, clusters, management core, time, outstanding loads, and the model's record of the issue. -/
def stateRest (s : State) : State := { s with groups := [], clusters := [], mgmt := {}, evs := [], now := 0, cur := {}, loads := [] }

/-- What an instruction that writes registers only leaves as it was: every byte of memory, every descriptor, tag and mark, every special,
control and exception register; every other agent's registers; of its own group everything but its path's threads and its warp; every
outstanding access. -/
def KeepsRest (s t : State) : Prop :=
  stateRest t = stateRest s ∧
  (∀ g, (t.group? g).map groupRest = (s.group? g).map groupRest) ∧
  (∀ g, g ≠ (who s).gid → t.group? g = s.group? g) ∧
  (∀ k, k ∉ (viewOf s).ths.map Thread.tid → threadIn t (who s).gid k = threadIn s (who s).gid k) ∧
  (∀ k, k ≠ (who s).wid → warpIn t (who s).gid k = warpIn s (who s).gid k) ∧
  (∀ c, clusterRest (t.cluster c) = clusterRest (s.cluster c)) ∧
  (∀ c, s.cur.agent ≠ .foreman c → (t.cluster c).fore = (s.cluster c).fore) ∧
  mgmtRest t.mgmt = mgmtRest s.mgmt ∧
  (s.cur.agent ≠ .mgmt → t.mgmt = s.mgmt) ∧
  (t.loads.map fun l => { l with look := 0 }) = s.loads.map fun l => { l with look := 0 }

/-- The registers after an instruction that has gone to its end: the path's threads `ths` at the next PC, the warp `w`. -/
def EndsWith (x : Enc) (s t : State) (w : Warp) (ths : List Thread) : Prop :=
  (after s t).ths = goOn (nextPc x s) s.now ths ∧ arch (after s t).warp = arch w

/-- An instruction that ends in `t` having changed registers only. -/
def Ends (x : Enc) (s t : State) (w : Warp) (ths : List Thread) : Prop := EndsWith x s t w ths ∧ KeepsRest s t

/-- A branch that ends in `t`: each thread of P stands at its target, changed by `f`, the others of the path at the next instruction; what an LR
suppressed is over (R23). -/
def Lands (x : Enc) (s t : State) (target : Thread → BitVec 64) (f : Thread → Thread) : Prop :=
  (after s t).ths = ((viewOf s).ths.map fun u =>
    if guardTrue x.w2 u then { f u with pc := target u, lr := none, lastIssue := s.now + 1 } else { u with pc := nextPc x s, lr := none, lastIssue := s.now + 1 }) ∧
  arch (after s t).warp = arch (viewOf s).warp ∧ KeepsRest s t

/-- Every thread of the issuing path is on it. -/
def OnPath (s : State) : Prop := ∀ u ∈ (viewOf s).ths, u.run = .path

/-- What an instruction leaves of a thread that it only moves on. -/
def regsOf (u : Thread) : Nat × List Word32 × BitVec 15 × Flags × Bool × Run := (u.tid, u.v, u.preds, u.fpflags, u.rfail, u.run)

/-- The path goes on at the next PC with every register it had. -/
def MovesOn (x : Enc) (s t : State) : Prop :=
  (after s t).ths.map (fun u => (regsOf u, u.pc)) = (viewOf s).ths.map (fun u => (regsOf u, nextPc x s)) ∧ arch (after s t).warp = arch (viewOf s).warp

/-- The path goes on at the next PC with the registers of `v`. -/
def MovesTo (x : Enc) (s t : State) (v : View) : Prop :=
  (after s t).ths.map (fun u => (regsOf u, u.pc)) = v.ths.map (fun u => (regsOf u, nextPc x s)) ∧ arch (after s t).warp = arch v.warp

/-- The instruction waits: its path stands where it stood, will issue it again, and has done nothing else (R19). -/
def Stalls (s t : State) : Prop :=
  t.cur.stalled = true ∧ (after s t).ths = (viewOf s).ths ∧ arch (after s t).warp = arch (viewOf s).warp ∧ t.now = s.now ∧ t.mem = s.mem ∧
    t.desc = s.desc ∧ t.packets = s.packets ∧ t.loads = s.loads

/-- An access of threads `ths` is in flight that a release of theirs at a scope waits for: at GANG scope or wider any, below it one to the
fabric (R71, R109). -/
def Owes (s : State) (scope : Nat) (ths : List Thread) : Prop :=
  ∃ p ∈ s.packets, p.gid = (who s).gid ∧ p.st ≠ .done ∧ (2 ≤ scope ∨ isFabDest p.dest = true) ∧ ∃ u ∈ ths, p.tid = u.tid ∨ u.tid ∈ p.also

/-- A thread of the group waits in `t` as `run` says, its PC at the instruction, or has been let go on; its registers are as they were. -/
def WaitsOrGoes (x : Enc) (s t : State) (u : Thread) (run : Run) : Prop :=
  ∃ k, threadIn t (who s).gid u.tid = some k ∧ k.v = u.v ∧ k.preds = u.preds ∧ k.fpflags = u.fpflags ∧
    ((k.run = run ∧ k.pc = s.cur.pc) ∨ (k.run = .path ∧ k.pc = nextPc x s))

/-- A command's word has come: in `t` the register of its warp holds it, and is no longer pending (R167). -/
def Answered (s t : State) (gid wid reg cmd : Nat) (word : Word64) : Prop :=
  ∀ g w, s.group? gid = some g → g.frameRun = none → g.warp? wid = some w → (reg, cmd) ∈ w.pend → 0 < reg → reg < w.s.length →
    ∃ k, warpIn t gid wid = some k ∧ k.rdS reg = word ∧ (reg, cmd) ∉ k.pend

/-- A group that issued has stopped with a fault of an engine (R194, R429). -/
def EngineStopped (t : State) (gid : Nat) (f : Flt) (agent : Nat) (pc : BitVec 64) : Prop :=
  ∃ r, (t.group? gid).map (fun g => g.life) = some (.stopping r false) ∧ r.code = f.code ∧ r.info = BitVec.ofNat 32 f.info ∧ r.addr = f.addr ∧
    r.agent.toNat = agent ∧ r.pc = pc

/-! ## What an instruction writes -/

/-- The state in which an instruction ends that has given the agent these registers: the path's threads at the next PC, nothing else changed. -/
def EndsView (x : Enc) (s t : State) (v : View) : Prop := Ends x s t v.warp v.ths

/-- An instruction completes wherever it may execute, and writes D (R88, R230, R231): `f` gives a thread's result and flags. -/
def Writes (i : Enc → Instr) (op : BitVec 8) (bits : Enc → Nat) (f : Enc → Warp → Thread → Nat × Flags) : Prop :=
  ∀ x s, Enabled op x s → ∃ t, exec (i x) s = .next t ∧ EndsView x s t ((viewOf s).write x (bits x) (f x))

/-- An instruction completes wherever it may execute, and changes each thread of P by `f`; nothing else changes. -/
def Changes (i : Enc → Instr) (op : BitVec 8) (f : Enc → View → Thread → Thread) : Prop :=
  ∀ x s, Enabled op x s → ∃ t, exec (i x) s = .next t ∧ EndsView x s t ((viewOf s).mapP x (f x (viewOf s)))

/-- The exact integer that a code of `w` bits stands for (R88). -/
def exactInt (signed : Bool) (w raw : Nat) : Int := if signed then (BitVec.ofNat w raw).toInt else (BitVec.ofNat w raw).toNat

/-- Operands a, b and c of a thread, as exact integers of the instruction's type (R246). -/
def intA (x : Enc) (w : Warp) (u : Thread) : Int := exactInt x.ty.signed x.bits (rdOp w u x.a x.bits)
def intB (x : Enc) (w : Warp) (u : Thread) : Int := exactInt x.ty.signed x.bits (rdB x w u x.bits)
def intC (x : Enc) (w : Warp) (u : Thread) : Int := exactInt x.ty.signed x.bits (rdOp w u x.c x.bits)

/-- r mod 2^w. -/
def wrapTo (w : Nat) (r : Int) : Nat := (r % (2 ^ w : Nat)).toNat

/-- Sat (R219): the nearest value of the type. -/
def clampTo (signed : Bool) (w : Nat) (r : Int) : Int :=
  if signed then (if r < -(2 ^ (w - 1) : Nat) then -(2 ^ (w - 1) : Nat) else if r > (2 ^ (w - 1) : Nat) - 1 then (2 ^ (w - 1) : Nat) - 1 else r)
  else (if r < 0 then 0 else if r > (2 ^ w : Nat) - 1 then (2 ^ w : Nat) - 1 else r)

/-- r mod 2^w, or Sat(r) under `.sat`, which MOD[7:5] 110 is (R245, R246). -/
def narrowTo (x : Enc) (r : Int) : Nat := wrapTo x.bits (if fld x.mod 7 5 = 6 then clampTo x.ty.signed x.bits r else r)

/-- The raw bits of operands a, b, c and e of a thread. -/
def rawA (x : Enc) (w : Warp) (u : Thread) : Nat := rdOp w u x.a x.bits
def rawB (x : Enc) (w : Warp) (u : Thread) : Nat := rdB x w u x.bits

/-! ## Rounding (R86, R89) -/

/-- The value of a number, exactly. -/
def Machine.FV.rat : FV → ℚ
  | .num n m e => (if n then -1 else 1) * m * (2 : ℚ) ^ e
  | _ => 0

/-- A code of a format that stands for a number. -/
def Machine.Fmt.finite (f : Fmt) (c : Nat) : Prop := c < 2 ^ f.width ∧ ∃ n m e, f.decode c = .num n m e

/-- The number that a code stands for. -/
def Machine.Fmt.val (f : Fmt) (c : Nat) : ℚ := (f.decode c).rat

/-- Code `c` is `v` rounded to the format under a mode (R89): of all numbers of the format the nearest one, ties to the even code (RNE) or away
from zero (RNA); or the nearest one toward zero (RTZ), above (RUP), below (RDN). -/
def RoundsTo (f : Fmt) (mode : Mode) (v : ℝ) (c : Nat) : Prop :=
  f.finite c ∧ match mode with
    | .rne => ∀ d, f.finite d → |(f.val c : ℝ) - v| ≤ |(f.val d : ℝ) - v| ∧ (|(f.val c : ℝ) - v| = |(f.val d : ℝ) - v| → f.val d ≠ f.val c → c % 2 = 0)
    | .rna => ∀ d, f.finite d → |(f.val c : ℝ) - v| ≤ |(f.val d : ℝ) - v| ∧
        (|(f.val c : ℝ) - v| = |(f.val d : ℝ) - v| → f.val d ≠ f.val c → |v| ≤ |(f.val c : ℝ)|)
    | .rtz => 0 ≤ (f.val c : ℝ) * v ∧ |(f.val c : ℝ)| ≤ |v| ∧ ∀ d, f.finite d → |(f.val d : ℝ)| ≤ |v| → |f.val d| ≤ |f.val c|
    | .rup => v ≤ (f.val c : ℝ) ∧ ∀ d, f.finite d → v ≤ (f.val d : ℝ) → f.val c ≤ f.val d
    | .rdn => (f.val c : ℝ) ≤ v ∧ ∀ d, f.finite d → (f.val d : ℝ) ≤ v → f.val d ≤ f.val c

/-- A result delivers `v` rounded, and sets inexact alone where the code's number is not `v` (R89, R94), for a `v` that neither overflows nor is
below the least normal number. -/
def Delivers (f : Fmt) (mode : Mode) (v : ℝ) (r : Nat × Flags) : Prop :=
  (2 : ℝ) ^ f.emin ≤ |v| → |v| ≤ ((FV.num false f.maxFin.1 f.maxFin.2).rat : ℝ) →
    RoundsTo f mode v r.1 ∧ ((f.val r.1 : ℝ) = v → r.2 = 0) ∧ ((f.val r.1 : ℝ) ≠ v → r.2 = flNx)

/-- The integer `i` is `v` rounded under a mode (R256). -/
def RoundsToInt (mode : Mode) (v : ℚ) (i : ℤ) : Prop :=
  match mode with
  | .rne => |(i : ℚ) - v| ≤ 1 / 2 ∧ (|(i : ℚ) - v| = 1 / 2 → Even i)
  | .rna => |(i : ℚ) - v| ≤ 1 / 2 ∧ (|(i : ℚ) - v| = 1 / 2 → |v| ≤ |(i : ℚ)|)
  | .rtz => |(i : ℚ)| ≤ |v| ∧ |v| < |(i : ℚ)| + 1 ∧ 0 ≤ (i : ℚ) * v
  | .rup => v ≤ i ∧ (i : ℚ) < v + 1
  | .rdn => (i : ℚ) ≤ v ∧ v < i + 1

/-! ## Accesses -/

/-- What the threads of a memory instruction mean to access (R269, R270). -/
def wantsOf (op : Nat) (x : Enc) (s : State) (size acc align : Nat) (va : Warp → Thread → BitVec 64) : List Want :=
  (memThreads op x (viewOf s)).map fun u => { tid := u.tid, slot := u.slot, va := va (viewOf s).warp u, size := size, acc := acc, align := align }

/-- A global load whose accesses `as` pass every check, wait for nothing and are performed at once: what they read, and the state after the
reads. -/
structure LoadPasses (op : Nat) (x : Enc) (s : State) (kind : LoadKind) (asize align : Nat) (va : Warp → Thread → BitVec 64) (idx : Warp → Thread → Nat)
    (as : List Acc) (gs : List Got) (s2 : State) : Prop where
  acts : memThreads op x (viewOf s) ≠ []
  checks : checkAll s (who s) (who s).owner (wantsOf op x s asize 1 align va) = .ok as
  goes : (xlatWait s (who s).core (who s).ctx as || blockWait s (who s) none as || loadsWait s (who s).core as || fabWait s (who s) x.w2.ch.toNat as) = false
  here : ∀ a ∈ as, a.fab = none ∧ s.poisonedAt a.pa = false
  now : (s.cur.defer && kind == .load) = false
  reads : readAll (who s) true x.w2.scope.toNat x.w2.hint.toNat (List.zipWith (fun a u => (a, idx (viewOf s).warp u)) as (memThreads op x (viewOf s)))
    (s.tlbFill (as.flatMap Acc.fills)) = .ok gs s2
  format : (List.zipWith (fun a g => (a, g)) as gs).find? (fun p => badFormat kind p.2.sec) = none

/-- What the threads of a load receive of the blocks read: thread, value, flags, the time its location carries. -/
def received (kind : LoadKind) (x : Enc) (s : State) (size : Nat) (gs : List Got) : List (Nat × Nat × Flags × Option (BitVec 24)) :=
  gs.map fun g =>
    let r := loadValue kind x (viewOf s).warp.rmode (viewOf s).warp.dmode size g.off g.idx g.sec
    (g.tid, r.1, r.2, g.seen)

/-- What a load leaves as it was: memory, descriptors, marks, and every group but its own threads. -/
def KeepsMemory (s t : State) : Prop :=
  t.mem = s.mem ∧ t.desc = s.desc ∧ t.poison = s.poison ∧ t.tags = s.tags ∧ (∀ g, g ≠ (who s).gid → t.group? g = s.group? g)

/-- A load ends: each thread that read has its value in D, and memory is as it was. -/
def LoadEnds (kind : LoadKind) (x : Enc) (s t : State) (size : Nat) (gs : List Got) : Prop :=
  let v := (viewOf s).place x x.d size (received kind x s size gs)
  EndsWith x s t v.warp v.ths ∧ KeepsMemory s t

/-- A global store whose accesses `as` pass every check, wait for nothing, meet no poison that stops it, and whose blocks are all performed or sent:
`s2` is the state after them. -/
structure StorePasses (op : Nat) (x : Enc) (s : State) (as : List Acc) (ps : List Put) (size align : Nat) (va : Warp → Thread → BitVec 64) (s2 : State) : Prop where
  acts : memThreads op x (viewOf s) ≠ []
  checks : checkAll s (who s) (who s).owner (wantsOf op x s size 2 align va) = .ok as
  goes : (xlatWait s (who s).core (who s).ctx as || loadsWait s (who s).core as) = false
  clean : ∀ a ∈ as, a.fab = none → s.poisonedAt a.pa = false
  puts : putAll (who s) x.w2.ch.toNat x.w2.ord.toNat x.w2.scope x.w2.hint.toNat
    (fun tid => releasePts s (who s) ((viewOf s).ths.find? fun u => u.tid == tid) x.w2.ord.toNat x.w2.scope.toNat) (blockPuts ps)
    (s.tlbFill (as.flatMap Acc.fills)) = (.go, s2)

/-- A record of `size` bytes that thread `u` reads passes its checks as a global load, waits for nothing and is not poisoned, or, at a fabric address, has
been fetched: its value and the state after the read (R303, R314). -/
def RecordRead (s : State) (u : Thread) (va : BitVec 64) (size align rec : Nat) (s' : State) : Prop :=
  ∃ as, checkAll s (who s) (who s).owner [{ tid := u.tid, slot := u.slot, va := va, size := size, acc := 1, align := align }] = .ok as ∧
    ((∃ g gs, (∀ a ∈ as, a.fab = none ∧ s.poisonedAt a.pa = false) ∧
      (xlatWait s (who s).core (who s).ctx as || blockWait s (who s) none as || loadsWait s (who s).core as) = false ∧
      readAll (who s) true 1 0 (as.map fun a => (a, 0)) (s.tlbFill (as.flatMap Acc.fills)) = .ok (g :: gs) s' ∧ rec = blkNat g.sec.data g.off size) ∨
    ∃ a ∈ as, a.fab.isSome = true ∧ s' = s ∧ (viewOf s).warp.fetched.find? (fun p => p.1 == u.tid && p.2.1 == va) = some (u.tid, va, rec))

/-- Blocks of memory that accesses `as`, which have passed their checks, read as loads with an acquire at DEVICE scope: their data, and the state after. -/
def BlocksRead (s : State) (as : List Acc) (ds : List (BitVec 512)) (s' : State) : Prop :=
  (xlatWait s (who s).core (who s).ctx as || blockWait s (who s) none as || loadsWait s (who s).core as) = false ∧ (∀ a ∈ as, s.poisonedAt a.pa = false) ∧
    ∃ gs t, readAll (who s) true 3 0 (as.map fun a => (a, 0)) (s.tlbFill (as.flatMap Acc.fills)) = .ok gs t ∧ ds = gs.map (fun g => g.sec.data) ∧
      s' = t.acquire (who s) 3 (gs.map Got.seen)

/-- The 64-byte records that threads `ths` of a TENQ read pass their checks as global loads that are no fabric accesses, wait for nothing and are not poisoned:
the records and the state after the reads (R270, R341). -/
def RecordsRead (x : Enc) (s : State) (ths : List Thread) (recs : List (BitVec 512)) (s' : State) : Prop :=
  ∃ as gs, checkAll s (who s) (who s).owner (ths.map fun u =>
      { tid := u.tid, slot := u.slot, va := memAddr x (viewOf s).warp u 64, size := 64, acc := 1, align := 64 }) = .ok as ∧
    (∀ a ∈ as, a.fab = none ∧ s.poisonedAt a.pa = false) ∧
    (xlatWait s (who s).core (who s).ctx as || blockWait s (who s) none as || loadsWait s (who s).core as) = false ∧
    readAll (who s) true 1 0 (as.map fun a => (a, 0)) (s.tlbFill (as.flatMap Acc.fills)) = .ok gs s' ∧
    recs = as.map fun a => ((gs.find? fun g => g.tid == a.tid).map fun g => g.sec.data).getD 0

/-- The quotient rounded toward zero (R247). -/
def truncQuot (a b : Int) : Int := (if a * b < 0 then -1 else 1) * (a.natAbs / b.natAbs : Nat)

/-- The number whose bits below `w` are given. -/
def bitsOf (w : Nat) (f : Nat → Bool) : Nat := ((List.range w).map fun i => if f i then 2 ^ i else 0).sum

end Sys2Proof
end

