-- ==== Sys2Proof/Certificates/Slice0/Obligations.lean ====
section
/-!
DEFINITION. The statements for the provers: what the rules of spec/ say that instructions, events and the machine do.
-/
open Sys2Proof Sys2Proof.Machine

/-! ## Reset, decoding, the step -/

/-- R47, R374, R380, R425, R436, R463, R465, R488, R492, R502: what the device's registers hold right after bring-up, and that nothing is placed. That no port is lit and no
site populated is the model's choice (log entry 5), and so is that host and guest memory read 0 (log entry 10). -/
def Obligations.ResetState : Prop :=
  State.reset.rtimeout = 0x0000_0000_001E_8480 ∧ State.reset.accelId = 0 ∧ State.reset.gen = 0 ∧ State.reset.hevBase = 0 ∧ State.reset.diestat = 0 ∧
  State.reset.phase = 15 ∧ (∀ r, State.reset.keyid.getD 64 r = 64) ∧ (∀ pa, State.reset.rdByte pa = 0) ∧ (∀ pa, State.reset.descOf pa = rawDesc) ∧
  (∀ pa, State.reset.poisonedAt pa = false) ∧ (∀ c, State.reset.tags.find? c = none) ∧
  (∀ c, (State.reset.context c).st = .free) ∧ (∀ p, (State.reset.part p).st = .free) ∧ (∀ g, State.reset.group? g = none) ∧
  (∀ c, (State.reset.cluster c).selftick = 256 ∧ (State.reset.cluster c).pts = 0 ∧ (State.reset.cluster c).evq = []) ∧
  (∀ n, portStatus State.reset n = 3 * 2 ^ 18) ∧ (∀ n, (State.reset.site n).st = 0)

/-- The instruction that words, written out from the spec's encodings, stand for: OP, D, A, B6 of word 0; B, C, E, MOD of word 1; word 2. -/
def Obligations.DecodeWords : Prop :=
  -- IADD.s32 v2, v1, v3 (base form)
  decodeTableWord 32 0x04008043 = some (.iadd { form := .base, d := 2, a := 1, sub := 0, b := 3, c := 0, e := 0, mod := baseMod 0x10, w2 := Word2.base, lit := 0 }) ∧
  -- EXIT
  decodeTableWord 32 0x01400000 = some (.exit { form := .base, d := 0, a := 0, sub := 0, b := 0, c := 0, e := 0, mod := baseMod 0x05, w2 := Word2.base, lit := 0 }) ∧
  -- ICMP.lt.s32 p3, v4, v5 (extended form)
  decodeTableWord 96 0x7BC00080_05000000_4700C102 = some (.icmp { form := .ext, d := 3, a := 4, sub := 2, b := 5, c := 0, e := 0, mod := 0, w2 := Word2.base, lit := 0 }) ∧
  -- a load with an acquire at DEVICE scope on channel 2 and a literal address of 4096 (extended form with a literal)
  decodeTableWord 160 0x00000000_00001000_7BC009A0_0000000F_DC057100 = some (.ld { form := .extLit, d := 0x15, a := 0xC4, sub := 0, b := 0, c := 0, e := 0, mod := 15, w2 := ⟨15, 15, false, 0, 0, 2, 3, 1, false, 0⟩, lit := 0x1000 }) ∧
  -- PRDS s10, KSVCWR and PWRS KSVCARM, 1 (R393)
  decodeTableWord 32 0x38328180 = some (.prds { form := .base, d := 0xCA, a := 6, sub := 0, b := 0, c := 0, e := 0, mod := baseMod 0xE0, w2 := Word2.base, lit := 0 }) ∧
  decodeTableWord 96 0x00000000_00000001_B841C000 = some (.pwrsKsvcarm { form := .baseLit, d := 7, a := 0, sub := 0, b := 0, c := 0, e := 0, mod := baseMod 0xE1, w2 := Word2.base, lit := 1 }) ∧
  -- word 0 of no instruction: OP 0x0F is unassigned
  decodeTableWord 32 (0x0F * 2 ^ 22) = none

/-- R201 to R206: for every well-formed instruction, decoding its words gives it back, whatever bytes follow. -/
def Obligations.DecodeEncode : Prop :=
  ∀ (i : Instr) (rest : List Byte), i.wf = true → decode (wordBytes (encode i) ++ rest) = .ok (i, rest)

/-- R218, R19, R409: a step whose turn is an issue of a lane takes the first warp slot, from the lane's pointer on, whose warp has an issue; it fetches at
the PC of the path that issues next, decodes, and executes: the next state is `exec` of the decoded instruction, the lane's pointer behind the
slot, with what every step adds (`tallied`: counters, filed threads, watchdogs, queues). Where the attempt stalls, the lane offers its cycle to
the slots behind. An issue of a foreman and of the management core runs `exec` of the instruction at its PC, and passes a cycle where it
stalls. What `exec` answers stands as it is when nothing of the warp is outstanding (`precise`). -/
def Obligations.StepRunsDecoded : Prop :=
  (∀ (s s' t : State) (core lane slot : Nat) (defer : Bool) (rest : List Turn) (before behind : List Nat) (c : Cur) (bs : List Byte) (i : Instr) (tail : List Byte),
    s.agenda = .issue core lane defer :: rest →
    State.slotOrder { s with agenda := rest, cur := {} } core lane = before ++ slot :: behind →
    (∀ b ∈ before, State.pickSlot { s with agenda := rest, cur := {} } core lane b defer = none) →
    State.pickSlot { s with agenda := rest, cur := {} } core lane slot defer = some c →
    fetchInstr { s with agenda := rest, cur := c } = .ok bs s' → decode bs = .ok (i, tail) → precise { s with agenda := rest, cur := c } (exec i s') = .next t →
    (t.cur.stalled = false → step s = tallied s (.next (t.pointLane core lane slot))) ∧
    (t.cur.stalled = true → step s = tallied s (laneTurn core lane defer behind { t with cur := {} }))) ∧
  (∀ (s s' t : State) (n : Nat) (rest : List Turn) (bs : List Byte) (i : Instr) (tail : List Byte),
    s.agenda = .foreman n :: rest → State.foremanRuns { s with agenda := rest, cur := {} } n = true →
    let c : Cur := { agent := .foreman n, pc := (s.cluster n).fore.th.pc, path := [0] }
    fetchInstr { s with agenda := rest, cur := c } = .ok bs s' → decode bs = .ok (i, tail) → precise { s with agenda := rest, cur := c } (exec i s') = .next t →
    step s = tallied s (.next (if t.cur.stalled then State.pass { t with cur := {} } (n / 24) 1 else t))) ∧
  (∀ (s s' t : State) (rest : List Turn) (bs : List Byte) (i : Instr) (tail : List Byte),
    s.agenda = .mgmt :: rest → s.mgmtRuns = true →
    let c : Cur := { agent := .mgmt, pc := s.mgmt.th.pc, path := [0] }
    fetchInstr { s with agenda := rest, cur := c } = .ok bs s' → decode bs = .ok (i, tail) → precise { s with agenda := rest, cur := c } (exec i s') = .next t →
    step s = tallied s (.next (if t.cur.stalled then State.pass { t with cur := {} } 8 1 else t))) ∧
  (∀ (s : State) (i : Instr) (rest : List Turn), s.agenda = .event i :: rest → i.parts = none → step s = tallied s (exec i { s with agenda := rest, cur := {} })) ∧
  (∀ s t, (∀ l ∈ s.loads, l.gid ≠ (who s).gid ∨ l.wid ≠ (who s).wid) → precise s (.next t) = .next t)

/-- Keys strictly rise and nothing listed equals what an unlisted address reads as: memory, descriptors, and the maps of everything that is
numbered. -/
def Obligations.ResetInvariant : Prop :=
  Canonical State.reset

/-- R4, R410: the memory of every state that a step makes of a state in canonical form is in canonical form, whatever moves. -/
def Obligations.StepKeepsCanonical : Prop :=
  ∀ s t, Canonical s → step s = .next t → Canonical t

/-- No instruction stops the model: every one whose agent exists, and every event, ends in a next state. -/
def Obligations.NothingStops : Prop :=
  (∀ i (s : State), (view s).isSome = true → Goes (exec i s)) ∧ (∀ (i : Instr), i.parts = none → ∀ (s : State), Goes (exec i s))

/-! ## Integers and bits -/

/-- R246: every integer instruction writes the exact value of its table, taken mod 2^w or, under `.sat`, to the nearest value of the type; no
flag is set and nothing else changes.
R247: the quotient rounded toward zero and the remainder with the sign of a; b = 0 gives all ones and a. -/
def Obligations.IntegerArithmetic : Prop :=
  (Writes .iadd 0x10 Enc.bits (fun x w u => (narrowTo x (intA x w u + intB x w u), 0)) ∧
  Writes .isub 0x11 Enc.bits (fun x w u => (narrowTo x (intA x w u - intB x w u), 0)) ∧
  Writes .imul 0x12 Enc.bits (fun x w u => (narrowTo x (intA x w u * intB x w u), 0)) ∧
  Writes .imulh 0x13 Enc.bits (fun x w u => (wrapTo x.bits (intA x w u * intB x w u / (2 ^ x.bits : Nat)), 0)) ∧
  Writes .imad 0x14 Enc.bits (fun x w u => (narrowTo x (intA x w u * intB x w u + intC x w u), 0)) ∧
  Writes .imadw 0x15 (fun _ => 64) (fun x w u => (wrapTo 64 (exactInt x.ty.signed x.bits (rdOp w u x.a 32) *
    exactInt x.ty.signed x.bits (rdB x w u 32) + exactInt x.ty.signed 64 (rdOp w u x.c 64)), 0)) ∧
  Writes .ineg 0x18 Enc.bits (fun x w u => (narrowTo x (-intA x w u), 0)) ∧
  Writes .iabs 0x19 Enc.bits (fun x w u => (narrowTo x (if intA x w u < 0 then -intA x w u else intA x w u), 0)) ∧
  Writes .imin 0x1A Enc.bits (fun x w u => (wrapTo x.bits (if intA x w u ≤ intB x w u then intA x w u else intB x w u), 0)) ∧
  Writes .imax 0x1B Enc.bits (fun x w u => (wrapTo x.bits (if intA x w u ≤ intB x w u then intB x w u else intA x w u), 0))) ∧
  (Writes .idiv 0x16 Enc.bits (fun x w u =>
    (if intB x w u = 0 then 2 ^ x.bits - 1 else narrowTo x (truncQuot (intA x w u) (intB x w u)), 0)) ∧
  Writes .irem 0x17 Enc.bits (fun x w u =>
    (wrapTo x.bits (if intB x w u = 0 then intA x w u else intA x w u - intB x w u * truncQuot (intA x w u) (intB x w u)), 0)))

/-- R248: ICMP's conditions, ISEL, IADDC with its carries, LEA. -/
def Obligations.IntegerSelect : Prop :=
  Changes .icmp 0x1C (fun x v u => u.wrPf x.d (match x.sub.toNat with
    | 0 => decide (intA x v.warp u = intB x v.warp u)
    | 1 => decide (intA x v.warp u ≠ intB x v.warp u)
    | 2 => decide (intA x v.warp u < intB x v.warp u)
    | 3 => decide (intA x v.warp u ≤ intB x v.warp u)
    | 4 => decide (intB x v.warp u < intA x v.warp u)
    | _ => decide (intB x v.warp u ≤ intA x v.warp u))) ∧
  Writes .isel 0x1D Enc.bits (fun x w u => (if u.rdPf x.c then rawA x w u else rawB x w u, 0)) ∧
  (∀ x s, Enabled 0x1E x s → isUni x.d = false → ∃ t, exec (.iaddc x) s = .next t ∧ EndsView x s t ((viewOf s).mapP x fun u =>
    let sum := rawA x (viewOf s).warp u + rawB x (viewOf s).warp u + if u.rdPf x.c then 1 else 0
    (u.wrOp x.d x.bits (sum % 2 ^ x.bits)).wrPf x.e (decide (2 ^ x.bits ≤ sum)))) ∧
  (∀ x s, Enabled 0x1E x s → isUni x.d = true → active x s = [] → ∃ t, exec (.iaddc x) s = .next t ∧ EndsView x s t (viewOf s)) ∧
  (∀ x s p ps, Enabled 0x1E x s → isUni x.d = true → active x s = p :: ps → ∃ t, exec (.iaddc x) s = .next t ∧
    (let sum (u : Thread) := rawA x (viewOf s).warp u + rawB x (viewOf s).warp u + if u.rdPf x.c then 1 else 0
     EndsView x s t ⟨(viewOf s).warp.wrOp x.d x.bits (sum p), ((viewOf s).mapP x fun u => u.wrPf x.e (decide (2 ^ x.bits ≤ sum u))).ths⟩)) ∧
  (∀ x s, Enabled 0x1F x s → x.c.toNat ≤ 63 → ∃ t, exec (.lea x) s = .next t ∧ EndsView x s t ((viewOf s).write x 64 fun w u =>
    (wrapTo 64 (rdOp w u x.a 64 + exactInt x.ty.signed x.bits (rdB x w u 32) * (2 ^ x.c.toNat : Nat)), 0))) ∧
  (∀ x s, Enabled 0x1F x s → 63 < x.c.toNat → exec (.lea x) s = .next (takeFault (ownIll 0x1F x) s))

/-- R250: the bit instructions, on the bits of their operands; a shift by the width or more follows the same formulas.
R251: BFX and BFI, for any position and length. -/
def Obligations.BitOperations : Prop :=
  (Writes .andI 0x20 Enc.bits (fun x w u => (bitsOf x.bits fun i => (rawA x w u).testBit i && (rawB x w u).testBit i, 0)) ∧
  Writes .orI 0x21 Enc.bits (fun x w u => (bitsOf x.bits fun i => (rawA x w u).testBit i || (rawB x w u).testBit i, 0)) ∧
  Writes .xorI 0x22 Enc.bits (fun x w u => (bitsOf x.bits fun i => (rawA x w u).testBit i != (rawB x w u).testBit i, 0)) ∧
  Writes .andn 0x23 Enc.bits (fun x w u => (bitsOf x.bits fun i => (rawA x w u).testBit i && !(rawB x w u).testBit i, 0)) ∧
  Writes .notI 0x24 Enc.bits (fun x w u => (bitsOf x.bits fun i => !(rawA x w u).testBit i, 0)) ∧
  Writes .shl 0x25 Enc.bits (fun x w u => (rawA x w u * 2 ^ rdB x w u 8 % 2 ^ x.bits, 0)) ∧
  Writes .shr 0x26 Enc.bits (fun x w u => (rawA x w u / 2 ^ rdB x w u 8, 0)) ∧
  Writes .sar 0x27 Enc.bits (fun x w u => (wrapTo x.bits (exactInt true x.bits (rawA x w u) / (2 ^ rdB x w u 8 : Nat)), 0)) ∧
  Writes .rot 0x28 Enc.bits (fun x w u => (bitsOf x.bits fun i => (rawA x w u).testBit ((i + x.bits - rdB x w u 8 % x.bits) % x.bits), 0)) ∧
  Writes .popc 0x2B (fun _ => 32) (fun x w u => (((List.range x.bits).filter fun i => (rawA x w u).testBit i).length, 0)) ∧
  Writes .clz 0x2C (fun _ => 32) (fun x w u => (((List.range x.bits).takeWhile fun i => !(rawA x w u).testBit (x.bits - 1 - i)).length, 0)) ∧
  Writes .ctz 0x2D (fun _ => 32) (fun x w u => (((List.range x.bits).takeWhile fun i => !(rawA x w u).testBit i).length, 0)) ∧
  Writes .brev 0x2E Enc.bits (fun x w u => (bitsOf x.bits fun i => (rawA x w u).testBit (x.bits - 1 - i), 0)) ∧
  Writes .mov 0x2F Enc.bits (fun x w u => (rawB x w u, 0))) ∧
  (Writes .bfx 0x29 Enc.bits (fun x w u =>
    let pos := rdB x w u 8; let len := rdOp w u x.c 8
    let f := rawA x w u / 2 ^ pos % 2 ^ len
    (if x.sub.toNat = 1 then wrapTo x.bits (exactInt true len f) else f % 2 ^ x.bits, 0)) ∧
  Writes .bfi 0x2A Enc.bits (fun x w u =>
    let pos := rdOp w u x.c 8; let len := rdOp w u x.e 8
    (bitsOf x.bits fun i => if pos ≤ i ∧ i < pos + len then (rawA x w u).testBit (i - pos) else (rawB x w u).testBit i, 0)))

/-! ## Floating point, conversions, cross-slot, predicates -/

/-- R253, R254, R256, R258, R89: each arithmetic instruction of floating point completes, reads its operands under DMODE, changes nothing but D and the
flags of its threads; its exact result, where that neither overflows nor is below the least normal number, is delivered rounded once; its invalid
cases and divisions by zero set their flag; FMIN and FMAX return an operand, FRND an integer. -/
def Obligations.FloatArithmetic : Prop :=
  Writes .fadd 0x30 Enc.bits (fun x w u => fp2 x w fAdd (rawA x w u) (rawB x w u)) ∧
  Writes .fsub 0x31 Enc.bits (fun x w u => fp2 x w fSub (rawA x w u) (rawB x w u)) ∧
  Writes .fmul 0x32 Enc.bits (fun x w u => fp2 x w fMul (rawA x w u) (rawB x w u)) ∧
  Writes .ffma 0x33 Enc.bits (fun x w u => fp3 x w fFma (rawA x w u) (rawB x w u) (rdOp w u x.c x.bits)) ∧
  Writes .fmin 0x34 Enc.bits (fun x w u => minMaxCode x.ty w false (rawA x w u) (rawB x w u)) ∧
  Writes .fmax 0x35 Enc.bits (fun x w u => minMaxCode x.ty w true (rawA x w u) (rawB x w u)) ∧
  Writes .frnd 0x39 Enc.bits (fun x w u => fp1 x w (fun f m _ _ a => fRnd f m a) (rawA x w u)) ∧
  Writes .fdiv 0x3B Enc.bits (fun x w u => fp2 x w fDiv (rawA x w u) (rawB x w u)) ∧
  Writes .fsqrt 0x3C Enc.bits (fun x w u => fp1 x w fSqrt (rawA x w u)) ∧
  Writes .fscale 0x46 Enc.bits (fun x w u => fp1 x w (fun f m sat fl a => fScale f m sat fl a (exactInt true 32 (rdB x w u 32))) (rawA x w u)) ∧
  Writes .fdot2 0x45 (fun _ => 32) (fun x w u =>
    let h (n : Nat) := fpVal x.ty w (n % 2 ^ 16)
    fDot2 (modeOf x w).1 (modeOf x w).2 w.dmode (h (rdOp w u x.a 32)) (h (rdOp w u x.a 32 / 2 ^ 16)) (h (rdB x w u 32)) (h (rdB x w u 32 / 2 ^ 16))
      (fpVal .f32 w (rdOp w u x.c 32))) ∧
  -- an instruction of a type that is not packed acts on its codes, read under DMODE, in Mode()
  (∀ (x : Enc) (w : Warp) (a b c : Nat), x.ty.packed = false →
    (∀ g, fp1 x w g a = g x.ty.fmt (modeOf x w).1 (modeOf x w).2 w.dmode (x.ty.fmt.read w.dmode a)) ∧
    (∀ g, fp2 x w g a b = g x.ty.fmt (modeOf x w).1 (modeOf x w).2 w.dmode (x.ty.fmt.read w.dmode a) (x.ty.fmt.read w.dmode b)) ∧
    (∀ g, fp3 x w g a b c = g x.ty.fmt (modeOf x w).1 (modeOf x w).2 w.dmode (x.ty.fmt.read w.dmode a) (x.ty.fmt.read w.dmode b) (x.ty.fmt.read w.dmode c))) ∧
  -- the exact result, rounded once
  (∀ f ∈ [fE4M3, fE5M2, fF16, fBF16, fF32, fF64], ∀ (mode : Mode) (sat fl : Bool) (a b c : Nat), f.finite a → f.finite b → f.finite c →
    let x := f.read fl a; let y := f.read fl b; let z := f.read fl c
    Delivers f mode (x.rat + y.rat : ℚ) (fAdd f mode sat fl x y) ∧
    Delivers f mode (x.rat - y.rat : ℚ) (fSub f mode sat fl x y) ∧
    Delivers f mode (x.rat * y.rat : ℚ) (fMul f mode sat fl x y) ∧
    Delivers f mode (x.rat * y.rat + z.rat : ℚ) (fFma f mode sat fl x y z) ∧
    (y.rat ≠ 0 → Delivers f mode (x.rat / y.rat : ℚ) (fDiv f mode sat fl x y)) ∧
    (0 ≤ x.rat → Delivers f mode (Real.sqrt x.rat) (fSqrt f mode sat fl x)) ∧
    (∀ k : Int, Delivers f mode (x.rat * (2 : ℚ) ^ k : ℚ) (fScale f mode sat fl x k)) ∧
    (∃ i : ℤ, RoundsToInt mode x.rat i ∧ f.finite (fRnd f mode x).1 ∧ f.val (fRnd f mode x).1 = i ∧ (fRnd f mode x).2 = 0) ∧
    f.val (fMinMax f false fl x y).1 = min x.rat y.rat ∧ (fMinMax f false fl x y).2 = 0 ∧
    f.val (fMinMax f true fl x y).1 = max x.rat y.rat ∧ (fMinMax f true fl x y).2 = 0 ∧
    -- a division by zero, an invalid square root
    (y.rat = 0 → x.rat ≠ 0 → f.inf = true → fDiv f mode sat fl x y = (f.infBits (x.neg != y.neg), flDz)) ∧
    (y.rat = 0 → x.rat = 0 → fDiv f mode sat fl x y = (f.defNan, flInv)) ∧
    (x.rat < 0 → fSqrt f mode sat fl x = (f.defNan, flInv)) ∧
    -- ∞ − ∞, 0 × ∞ and ∞ / ∞
    (∀ p q : Bool, fAdd f mode sat fl (.inf p) (.inf !p) = (f.defNan, flInv) ∧ fDiv f mode sat fl (.inf p) (.inf q) = (f.defNan, flInv) ∧
      (x.rat = 0 → fMul f mode sat fl x (.inf p) = (f.defNan, flInv) ∧ fFma f mode sat fl (.inf p) x z = (f.defNan, flInv)))) ∧
  (∀ f ∈ [fF16, fBF16], ∀ (mode : Mode) (sat fl : Bool) (a0 a1 b0 b1 c : Nat), f.finite a0 → f.finite a1 → f.finite b0 → f.finite b1 → fF32.finite c →
    Delivers fF32 mode ((fF32.read fl c).rat + (f.read fl a0).rat * (f.read fl b0).rat + (f.read fl a1).rat * (f.read fl b1).rat : ℚ)
      (fDot2 mode sat fl (f.read fl a0) (f.read fl a1) (f.read fl b0) (f.read fl b1) (fF32.read fl c)))

/-- R256, R255: FABS and FNEG act on the sign bit of each element alone and set no flag; FCLASS writes one bit; FCMP the truth of its condition, false on
a NaN but for `.ne` and `.uno`, and which NaN sets invalid.
R257: the eight special functions complete, rounding to nearest even whatever RMODE is; their values at the table's special operands, in each
of the three formats. -/
def Obligations.FloatBits : Prop :=
  (Writes .fabs 0x36 Enc.bits (fun x w u => (bitsOf x.bits fun i =>
    (rawA x w u).testBit i && !decide (i + 1 = x.bits) && !(x.ty.packed && decide (i = 15)), 0)) ∧
  Writes .fneg 0x37 Enc.bits (fun x w u => (bitsOf x.bits fun i =>
    (rawA x w u).testBit i != (decide (i + 1 = x.bits) || (x.ty.packed && decide (i = 15))), 0)) ∧
  Writes .fclass 0x3A (fun _ => 32) (fun x w u => (fClass x.ty.fmt (rawA x w u), 0)) ∧
  (∀ f : Fmt, ∀ c, ∃ k, k < 10 ∧ fClass f c = 2 ^ k) ∧
  Changes .fcmp 0x38 (fun x v u =>
    let a := fpVal x.ty v.warp (rawA x v.warp u); let b := fpVal x.ty v.warp (rawB x v.warp u)
    let nan := a.isNan || b.isNan; let snan := a.snan || b.snan; let o := cmpV a b
    let r := match x.sub.toNat with
      | 0 => !nan && o == .eq
      | 1 => nan || o != .eq
      | 2 => !nan && o == .lt
      | 3 => !nan && o != .gt
      | 4 => !nan && o == .gt
      | 5 => !nan && o != .lt
      | 6 => !nan
      | _ => nan
    let quiet := x.sub.toNat < 2 ∨ 5 < x.sub.toNat
    (u.wrPf x.d r).setFlag (if (if quiet then snan else nan) then flInv else 0))) ∧
  ((∀ p ∈ [(Instr.frcp, 0x3D#8, SpecFn.rcp), (.frsq, 0x3E#8, .rsq), (.fexp2, 0x3F#8, .exp2), (.flog2, 0x40#8, .log2), (.fsin, 0x41#8, .sin),
      (.fcos, 0x42#8, .cos), (.ftanh, 0x43#8, .tanh), (.fsigm, 0x44#8, .sigm)],
    Writes p.1 p.2.1 Enc.bits (fun x w u => fp1 x w (fun f _ _ fl a => specFn f fl p.2.2 a) (rawA x w u))) ∧
  ∀ f ∈ [fF32, fF16, fBF16], ∀ fl : Bool,
    let one := f.bias * 2 ^ f.mb
    let half := (f.bias - 1) * 2 ^ f.mb
    let at' (fn : SpecFn) (neg : Bool) : Nat × Flags := specFn f fl fn (.num neg 0 0)
    let inf' (fn : SpecFn) (neg : Bool) : Nat × Flags := specFn f fl fn (.inf neg)
    let s := f.signBit true
    let inf := f.infBits false
    let nan := (f.defNan, flInv)
    (at' .rcp false = (inf, flDz) ∧ at' .rcp true = (s + inf, flDz) ∧ inf' .rcp false = (0, 0) ∧ inf' .rcp true = (s, 0)) ∧
    (at' .rsq false = (inf, flDz) ∧ at' .rsq true = (s + inf, flDz) ∧ inf' .rsq false = (0, 0) ∧ inf' .rsq true = nan) ∧
    (at' .exp2 false = (one, 0) ∧ at' .exp2 true = (one, 0) ∧ inf' .exp2 false = (inf, 0) ∧ inf' .exp2 true = (0, 0)) ∧
    (at' .log2 false = (s + inf, flDz) ∧ at' .log2 true = (s + inf, flDz) ∧ inf' .log2 false = (inf, 0) ∧ inf' .log2 true = nan) ∧
    (at' .sin false = (0, 0) ∧ at' .sin true = (s, 0) ∧ inf' .sin false = nan ∧ inf' .sin true = nan) ∧
    (at' .cos false = (one, 0) ∧ at' .cos true = (one, 0) ∧ inf' .cos false = nan ∧ inf' .cos true = nan) ∧
    (at' .tanh false = (0, 0) ∧ at' .tanh true = (s, 0) ∧ inf' .tanh false = (one, 0) ∧ inf' .tanh true = (s + one, 0)) ∧
    (at' .sigm false = (half, 0) ∧ at' .sigm true = (half, 0) ∧ inf' .sigm false = (one, 0) ∧ inf' .sigm true = (0, 0)))

/-- R86, R89: rounding is exact on values that a format has. Every finite code of each format, read as its exact value and rounded under any mode,
gives the code back, with no flag. -/
def Obligations.RoundingKeepsCodes : Prop :=
  ∀ f ∈ [fE4M3, fE5M2, fF16, fBF16, fF32, fF64], ∀ (mode : Mode) (sat : Bool) (c : Nat) (neg : Bool) (m : Nat) (e : Int),
    c < 2 ^ f.width → f.decode c = .num neg m e → f.round mode sat false neg m e false = (c, 0)

/-- R260, R262, R263: conversions. A QUNPK of a scale byte that its format forbids takes FORMAT of the thread with the lowest slot. -/
def Obligations.Conversions : Prop :=
  Writes .cvt 0x50 Enc.bits (fun x w u =>
    let src := (Ty.ofCode x.sub.toNat).getD .b32
    cvt src x.ty (modeOf x w).1 (modeOf x w).2 w.dmode (rdOp w u x.a src.bits)) ∧
  (∀ x s, Enabled 0x52 x s → (x.sub.toNat % 16 = 7 ∨ x.sub.toNat % 16 = 10 → ∀ u ∈ active x s, rdB x (viewOf s).warp u 8 = 0x7F) →
    ∃ t, exec (.qunpk x) s = .next t ∧ EndsView x s t ((viewOf s).write x x.bits fun w u =>
      x.ty.fmt.deliver (modeOf x w).1 (modeOf x w).2 w.dmode (unpkValue x w (rdOp w u x.a 32) (rdB x w u 8)))) ∧
  (∀ x s u, Enabled 0x52 x s → (x.sub.toNat % 16 = 7 ∨ x.sub.toNat % 16 = 10) →
    (active x s).find? (fun u => rdB x (viewOf s).warp u 8 != 0x7F) = some u →
    exec (.qunpk x) s = .next (takeFaultAt u.tid u.slot { code := cFormat, info := x.sub.toNat % 16 * 256 + rdB x (viewOf s).warp u 8 } s)) ∧
  (∀ x s, Enabled 0x53 x s → ∃ t, exec (.qscale x) s = .next t ∧
    EndsView x s t (if active x s = [] then viewOf s else
      ⟨(viewOf s).warp.wrOp x.d 64 (x.sub.toNat % 16 * 256 + quantScale (x.sub.toNat % 16) (x.sub.toNat / 16)
        ((active x s).map fun u => fpVal .f32 (viewOf s).warp (rdOp (viewOf s).warp u x.a 32))), (viewOf s).ths⟩))

/-- R265, R266, R267: each cross-slot instruction writes registers of P alone, from values all read before any is written.
R268: PSET, PLOP, PMOV.
R219, R45: a write to s0 or to `pt` is discarded, and they read as zero and true; another register reads as written, and only it. -/
def Obligations.CrossSlotAndPredicates : Prop :=
  (Changes .shfl 0x58 (fun x v u => u.wrOp x.d x.bits (rdOp v.warp ((partner x v u).getD u) x.a x.bits)) ∧
  Changes .pushx 0x59 (fun x v u =>
    match ((v.P x).filter fun t => (partner x v t).any fun p => p.slot == u.slot).getLast? with
    | some t => u.wrOp x.d x.bits (rdOp v.warp t x.a x.bits)
    | none => u) ∧
  (∀ x s, Enabled 0x5A x s → ∃ t, exec (.redx x) s = .next t ∧
    (let r := redTree (redOp x (viewOf s).warp) 5 (slotValues x (viewOf s)) 0
     EndsView x s t ((viewOf s).write x x.bits fun _ _ => (r.1.getD 0, r.2)))) ∧
  (∀ x s, Enabled 0x5B x s → ∃ t, exec (.scanx x) s = .next t ∧
    (let r := scanTree (redOp x (viewOf s).warp) 5 1 (slotValues x (viewOf s)) 0
     let at' (i : Nat) : Option Nat := r.1.getD i none
     EndsView x s t ((viewOf s).mapP x fun u => (u.wrOp x.d x.bits
       (if x.sub.toNat < 8 then (at' u.slot).getD 0 else if u.slot = 0 then redIdentity x else (at' (u.slot - 1)).getD (redIdentity x))).setFlag r.2))) ∧
  (∀ x s, Enabled 0x5C x s → ∃ t, exec (.ballot x) s = .next t ∧
    EndsView x s t (if active x s = [] then viewOf s else
      ⟨(viewOf s).warp.wrOp x.d 64 (bitsOf 64 fun i => (active x s).any fun u => u.slot == i && u.rdPf x.a), (viewOf s).ths⟩)) ∧
  Changes .vote 0x5D (fun x v u =>
    let n := ((v.P x).filter fun t => t.rdPf x.a).length
    u.wrPf x.d (match x.sub.toNat with
      | 0 => n == (v.P x).length
      | 1 => n != 0
      | 2 => n == 0 || n == (v.P x).length
      | 3 => n == 0
      | _ => n % 2 == 1)) ∧
  Changes .matchI 0x5E (fun x v u =>
    let same := (v.P x).filter fun t => rdOp v.warp t x.a x.bits == rdOp v.warp u x.a x.bits
    u.wrOp x.d 32 (if x.sub.toNat = 0 then slotMask same else ((same.head?).map Thread.slot).getD u.slot))) ∧
  (Changes .pset 0x60 (fun x v u => u.wrPf x.d (decide (rawA x v.warp u ≠ 0))) ∧
  Changes .plop 0x61 (fun x _ u => u.wrPf x.d (x.sub.toNat.testBit (2 * (u.rdPf x.a).toNat + (u.rdPf x.b).toNat))) ∧
  Writes .pmovGet 0x62 (fun _ => 32) (fun _ _ u => (bitsOf 15 fun i => u.rdP i, 0)) ∧
  Changes .pmovPut 0x62 (fun x v u => { u with preds := BitVec.ofNat 15 (rdOp v.warp u x.a 32) })) ∧
  ((∀ (w : Warp) (v : Word64), w.wrS 0 v = w ∧ w.rdS 0 = 0) ∧
  (∀ (u : Thread) (b : Bool), u.wrP 15 b = u ∧ u.rdP 15 = true) ∧
  (∀ (w : Warp) (i j : Nat) (v : Word64), 0 < i → i < w.s.length → (w.wrS i v).rdS j = if j = i then v else w.rdS j) ∧
  (∀ (u : Thread) (n k : Nat) (v : Word32), n < u.v.length → (u.wrV n v).rdV k = if k = n then v else u.rdV k) ∧
  (∀ (u : Thread) (n k : Nat) (b : Bool), n < 15 → (u.wrP n b).rdP k = if k = n then b else u.rdP k))

/-! ## Control -/

/-- R235, R236: the threads of P go to the target, the others of the path to the next instruction; CALL writes the address of the next
instruction into v0:v1 of each thread that takes it. Nothing else changes. BRX and RET with a target that is not a multiple of four raise
ALIGN. On a foreman and on the management core, which have no vector register, CALL only branches (the model's reading, log entry 30).
R239: NOP has no effect, and YIELD none on registers or memory: the warp switches to the path that has waited longest. -/
def Obligations.Branches : Prop :=
  ((∀ x s, Enabled 0x01 x s → ∃ t, exec (.bra x) s = .next t ∧ Lands x s t (fun _ => s.cur.pc + branchOff x) id) ∧
  (∀ x s, Enabled 0x03 x s → ∃ t, exec (.call x) s = .next t ∧ Lands x s t (fun _ => s.cur.pc + branchOff x) fun u =>
    if s.cur.agent.isWarp = true then (u.wrV 0 ((nextPc x s).setWidth 32)).wrV 1 ((nextPc x s >>> 32).setWidth 32) else u) ∧
  ∀ p ∈ [(Instr.brx, 0x02#8), (.ret, 0x04#8)], ∀ x s, Enabled p.2 x s →
    let target (u : Thread) : BitVec 64 := BitVec.ofNat 64 (rdOp (viewOf s).warp u x.a 64) + if x.form.hasLit then x.lit else 0
    ((∀ u ∈ active x s, (target u).toNat % 4 = 0) → ∃ t, exec (p.1 x) s = .next t ∧ Lands x s t target id) ∧
    (∀ u, (active x s).find? (fun u => (target u).toNat % 4 ≠ 0) = some u →
      exec (p.1 x) s = .next (takeFaultAt u.tid u.slot { code := cAlign, info := 4, addr := target u, acc := 4 } s))) ∧
  ((∀ x s, Enabled 0x00 x s → ∃ t, exec (.nop x) s = .next t ∧ EndsView x s t (viewOf s)) ∧
  (∀ x s, Enabled 0x07 x s → ∃ t, exec (.yield x) s = .next t ∧ EndsView x s t (viewOf s)) ∧
  (∀ x s g w gr pc, Enabled 0x07 x s → active x s ≠ [] → s.cur.agent = .warp g w → (finish x 1 s (viewOf s)).group? g = some gr →
    otherPath gr w (nextPc x s) = some pc → ∃ t k, exec (.yield x) s = .next t ∧ warpIn t g w = some k ∧ k.forced = some pc ∧ k.fair = 0))

/-- R237: EXIT of threads that are not the last of their group ends them; each loses its reservation, and what now has every thread arrived
completes. The last waits while the group has engine commands that have not ended, those held on an unresolved guard slot discarded. On a
foreman the one thread ends and the foreman stops (the model's reading, log entry 30).
R238: an n outside 1 to 64, or above vregs, raises ILL; else the threads of P that find a bin are filed under the next PC and the key. -/
def Obligations.ExitAndReform : Prop :=
  ((∀ x s g w gr, Enabled 0x05 x s → s.cur.agent = .warp g w → s.group? g = some gr →
    (∃ u ∈ gr.threads, u.run ≠ .exited ∧ u.tid ∉ (active x s).map Thread.tid) →
    exec (.exit x) s = .next ((((retire x (vcost x (viewOf s)) s).mapThreads g fun u =>
      if ((active x s).map Thread.tid).contains u.tid then { u with run := .exited, resv := none } else u).updGroup g Group.dropEnded).settle g)) ∧
  (∀ x s g w gr, Enabled 0x05 x s → s.cur.agent = .warp g w → s.group? g = some gr → active x s ≠ [] →
    (∀ u ∈ gr.threads, u.run ≠ .exited → u.tid ∈ (active x s).map Thread.tid) →
    let s0 := s.discardHeld g fun i => (gr.guard i).isNone
    exec (.exit x) s = .next (if s0.hasCmds g then stall s0 else
      (((retire x (vcost x (viewOf s)) s0).mapThreads g fun u =>
        if ((active x s).map Thread.tid).contains u.tid then { u with run := .exited, resv := none } else u).updGroup g Group.dropEnded).settle g)) ∧
  (∀ x s c, Enabled 0x05 x s → s.cur.agent = .foreman c → active x s ≠ [] → ∃ t, exec (.exit x) s = .next t ∧
    (t.cluster c).fore.run = false ∧ (t.cluster c).fore.th.run = .exited)) ∧
  ((∀ x s, Enabled 0x06 x s → (x.d.toNat = 0 ∨ 64 < x.d.toNat ∨ (regCounts s).1 < x.d.toNat) → exec (.reform x) s = .next (takeFault (ownIll 0x06 x) s)) ∧
  (∀ x s, Enabled 0x06 x s → 1 ≤ x.d.toNat → x.d.toNat ≤ 64 → x.d.toNat ≤ (regCounts s).1 →
    let filed := fileAll (who s).gid x.d.toNat (nextPc x s) (s.cyclesOf ((who s).die % 8)) (fun u => (reformKey x (viewOf s).warp u,
        { th := { u with pc := nextPc x s, run := .filed, resv := none, v := u.v.take x.d.toNat ++ List.replicate (u.v.length - x.d.toNat) 0, lastIssue := 0 }
          s := (viewOf s).warp.s, rmode := (viewOf s).warp.rmode, dmode := (viewOf s).warp.dmode, lease := (viewOf s).warp.lease
          reqno := (viewOf s).warp.reqno }))
      (active x s) (s.core (who s).core).bins
    let t := ((retire x (vcost x (viewOf s)) s).updCore (who s).core fun c =>
        { c with bins := filed.1.map fun b => if 32 ≤ b.filed.length then { b with ready := true } else b }).mapThreads (who s).gid fun u =>
      if filed.2.contains u.tid then { u with run := .filed, resv := none } else u
    exec (.reform x) s = .next (((t.updGroup (who s).gid Group.dropEnded).settle (who s).gid).note 0x23 (who s).core filed.2.length (some (who s).ctx))) ∧
  -- a thread joins the bin of its group, PC and key where there is one
  (∀ gid n pc key now f bins, (∃ b ∈ bins, b.gid = gid ∧ b.pc = pc ∧ b.key = key) →
    ∃ bins', fileThread gid n pc key now f bins = some bins' ∧ bins'.length = bins.length ∧ ∃ b ∈ bins', b.gid = gid ∧ b.pc = pc ∧ b.key = key ∧ f ∈ b.filed) ∧
  -- or takes a free one of the 16
  (∀ gid n pc key now f bins, (∀ b ∈ bins, ¬(b.gid = gid ∧ b.pc = pc ∧ b.key = key)) → bins.length < 16 →
    fileThread gid n pc key now f bins = some (bins ++ [{ gid := gid, pc := pc, key := key, n := n, born := now, filed := [f] }])) ∧
  (∀ gid n pc key now f bins, (∀ b ∈ bins, ¬(b.gid = gid ∧ b.pc = pc ∧ b.key = key)) → 16 ≤ bins.length → fileThread gid n pc key now f bins = none))

/-- R240, R194, R18: TRAP and BKPT raise their code with the immediate for the thread of P with the lowest slot, a cycle for each thread of P
after the issue; the threads of P stand at the next instruction, the others where they were, no register changes; with P empty they only go on.
R194, R429: a fault of a warp stops its group, which issues nothing more; the record names the code, the data, the PC of the instruction, the
thread and the time, and no register, no memory and no other group changes. A further fault while the group parks counts in MORE. -/
def Obligations.TrapsAndFaultEntry : Prop :=
  (∀ p ∈ [(Instr.trap, 0x08#8, cTrap), (.bkpt, 0x09#8, cBkpt)], ∀ x s, Enabled p.2.1 x s →
    (active x s = [] → ∃ t, exec (p.1 x) s = .next t ∧ EndsView x s t (viewOf s)) ∧
    (∀ u us g w gr, active x s = u :: us → s.cur.agent = .warp g w → s.group? g = some gr → gr.life = .running →
      ∃ t gr' r, exec (p.1 x) s = .next t ∧ t.now = s.now + (us.length + 1) * s.cycleLen (who s).die ∧
        t.group? g = some gr' ∧ gr'.life = .stopping r false ∧
        r.code = p.2.2 ∧ r.info = BitVec.ofNat 32 x.d.toNat ∧ r.pc = s.cur.pc ∧ r.wid = w ∧ r.tid = u.tid ∧ r.slot = u.slot ∧ r.more = 0 ∧ r.time = t.ptime ∧
        (∀ k ∈ (viewOf s).ths, ∃ k', gr'.thread? k.tid = some k' ∧ k'.pc = (if guardTrue x.w2 k then nextPc x s else k.pc) ∧
          k'.v = k.v ∧ k'.preds = k.preds ∧ k'.run = k.run ∧ k'.fpflags = k.fpflags) ∧
        (gr'.warp? w).map arch = (gr.warp? w).map arch ∧
        t.mem = s.mem ∧ t.desc = s.desc ∧ ∀ k, k ≠ g → t.group? k = s.group? k) ∧
    (∀ u us c, active x s = u :: us → s.cur.agent = .foreman c → ∃ t r, exec (p.1 x) s = .next t ∧
      (t.cluster c).fore.faulted = some (r, false, false) ∧ (t.cluster c).fore.run = false ∧ r.code = p.2.2 ∧ r.info = BitVec.ofNat 32 x.d.toNat ∧ r.agent = 6 ∧
      r.pc = s.cur.pc ∧ (t.cluster c).fore.th.pc = nextPc x s ∧ t.mem = s.mem) ∧
    (∀ u us, active x s = u :: us → s.cur.agent = .mgmt → ∃ t r, exec (p.1 x) s = .next t ∧
      t.mgmt.fault = some r ∧ r.code = p.2.2 ∧ r.info = BitVec.ofNat 32 x.d.toNat ∧ r.pc = s.cur.pc ∧ t.mgmt.th.pc = nextPc x s ∧ t.mem = s.mem)) ∧
  ((∀ s g w gr tid slot f, s.cur.agent = .warp g w → s.group? g = some gr → gr.life = .running →
    ∃ gr' r, (takeFaultAt tid slot f s).group? g = some gr' ∧ gr'.life = .stopping r false ∧
      r.code = f.code ∧ r.info = BitVec.ofNat 32 f.info ∧ r.aux = f.aux ∧ r.addr = f.addr ∧ r.pc = s.cur.pc ∧ r.acc = BitVec.ofNat 3 f.acc ∧
      r.agent = 0 ∧ r.wid = w ∧ r.tid = tid ∧ r.slot = slot ∧ r.time = s.ptime ∧ r.more = 0 ∧
      gr'.threads = gr.threads ∧ gr'.warps.map arch = gr.warps.map arch ∧ (takeFaultAt tid slot f s).mem = s.mem ∧ (takeFaultAt tid slot f s).desc = s.desc ∧
      ∀ k, k ≠ g → (takeFaultAt tid slot f s).group? k = s.group? k) ∧
  (∀ s g w gr tid slot f r a, s.cur.agent = .warp g w → s.group? g = some gr → gr.life = .stopping r a →
    ∃ gr', (takeFaultAt tid slot f s).group? g = some gr' ∧ gr'.life = .stopping { r with more := min 255 (r.more + 1) } a) ∧
  (∀ s c tid slot f, s.cur.agent = .foreman c → ∃ r, ((takeFaultAt tid slot f s).cluster c).fore.faulted = some (r, false, false) ∧
    ((takeFaultAt tid slot f s).cluster c).fore.run = false ∧ r.code = f.code ∧ r.agent = 6 ∧ r.pc = s.cur.pc))

/-- R216, R217, R371: an instruction that a check refuses takes ILL with the order of the first check that fails, or PRIV for order 2, whatever its
guard; a privileged opcode takes PRIV in U mode and, in K mode, the opcodes that only M may execute. -/
def Obligations.IssueChecks : Prop :=
  (∀ op x s body, (view s).isSome = true →
    issueOrder s.cur.agent (who s).level op.toNat x (regCounts s).1 (regCounts s).2 ≠ 0 →
    issue op x s body = .next (takeFault (orderFault (issueOrder s.cur.agent (who s).level op.toNat x (regCounts s).1 (regCounts s).2) op x) s)) ∧
  (∀ agent (op : Nat) x v u, 0xE0 ≤ op → op ≤ 0xEA → checkWords op x ≠ 1 → issueOrder agent 0 op x v u = 2) ∧
  (∀ agent (op : Nat) x v u, (op = 0xE5 ∨ op = 0xE6 ∨ op = 0xE8 ∨ (op = 0xE7 ∧ x.sub.toNat = 2)) → checkWords op x ≠ 1 → issueOrder agent 1 op x v u = 2) ∧
  (∀ g w level (op : Nat) x v u, op = 0xD4 ∨ op = 0xD5 → checkWords op x ≠ 1 → issueOrder (.warp g w) level op x v u = 3) ∧
  (∀ op x, (orderFault 2 op x).code = cPriv) ∧ (∀ o op x, o ≠ 2 → (orderFault o op x).code = cIll ∧ (orderFault o op x).info = o)

/-- R241: a SYSCALL with a thread in P sends its request (service number, the value of A, the warp's identity and request number) to its partition's
service queue and waits, its PC at the SYSCALL, no register changed; so does a foreman's, and the management core's only waits (it has no
partition; the model's reading, log entry 30). With P empty a SYSCALL only goes on.
R242, R24: a WSYNC with a mask bit at or above 32, or whose mask leaves out a thread of P, raises ILL. Else each thread of P waits at the WSYNC
or, where its wait has ended, stands at the next instruction, its registers as they were; the others of the path go on. When the mask names
threads of P and empty slots only, no thread waits; when it names a thread of another path that is at work, every one waits. A wait ends when
every named slot has arrived, has exited or holds no thread. -/
def Obligations.SyscallAndWsync : Prop :=
  ((∀ x s, Enabled 0x0A x s → active x s = [] → ∃ t, exec (.syscall x) s = .next t ∧ EndsView x s t (viewOf s)) ∧
  (∀ x s, Enabled 0x0A x s → active x s ≠ [] → ∃ t, exec (.syscall x) s = .next t ∧
    arch (after s t).warp = arch { (viewOf s).warp with sys := some { d := x.d, tids := (viewOf s).ths.map Thread.tid, next := nextPc x s } } ∧
    (after s t).ths = (viewOf s).ths.map (fun u => { u with lastIssue := s.now + 1 }) ∧
    t.now = s.now + s.cycleLen (who s).die ∧ t.mem = s.mem ∧ t.desc = s.desc ∧ t.packets = s.packets ∧
    (∀ g, g ≠ (who s).gid → t.group? g = s.group? g) ∧
    (∀ p, p ≠ (who s).part ∨ s.cur.agent = .mgmt → t.part p = s.part p) ∧
    (∀ g w gr, s.cur.agent = .warp g w → s.group? g = some gr → ∃ e, (t.part gr.part).svc = (s.part gr.part).svc ++ [e] ∧
      e.kind = 1 ∧ e.arg = rdU (viewOf s).warp x.a ∧ e.reqno = (viewOf s).warp.reqno ∧ e.service = x.c ∧ e.ctx = gr.ctx ∧ e.gid = g ∧ e.wid = w) ∧
    (∀ c, s.cur.agent = .foreman c → ∃ e, (t.part (s.partOfCluster c)).svc = (s.part (s.partOfCluster c)).svc ++ [e] ∧
      e.kind = 1 ∧ e.arg = rdU (viewOf s).warp x.a ∧ e.reqno = (viewOf s).warp.reqno ∧ e.service = x.c ∧ e.gid = 0x1FFFF))) ∧
  ((∀ x s, Enabled 0x0B x s → active x s = [] → ∃ t, exec (.wsync x) s = .next t ∧ EndsView x s t (viewOf s)) ∧
  (∀ x s, Enabled 0x0B x s → active x s ≠ [] →
    (2 ^ 32 ≤ (bU x (viewOf s).warp).toNat ∨ ∃ u ∈ active x s, (bU x (viewOf s).warp).toNat.testBit u.slot = false) →
    exec (.wsync x) s = .next (takeFault (ownIll 0x0B x) s)) ∧
  (∀ x s g w gr, Enabled 0x0B x s → active x s ≠ [] → (bU x (viewOf s).warp).toNat < 2 ^ 32 →
    (∀ u ∈ active x s, (bU x (viewOf s).warp).toNat.testBit u.slot = true) → s.cur.agent = .warp g w → s.group? g = some gr →
    let m : BitVec 128 := (bU x (viewOf s).warp).setWidth 128
    let waits (k : Thread) : Prop := k.run = .wsync m (nextPc x s) ∧ k.pc = s.cur.pc
    let goes (k : Thread) : Prop := k.run = .path ∧ k.pc = nextPc x s
    ∃ t, exec (.wsync x) s = .next t ∧ t.mem = s.mem ∧ t.desc = s.desc ∧ (warpIn t g w).map arch = (gr.warp? w).map arch ∧
      (∀ u ∈ active x s, ∃ k, threadIn t g u.tid = some k ∧ k.v = u.v ∧ k.preds = u.preds ∧ k.fpflags = u.fpflags ∧ (waits k ∨ goes k)) ∧
      (∀ u ∈ (viewOf s).ths, guardTrue x.w2 u = false → u.run = .path → ∃ k, threadIn t g u.tid = some k ∧ k.v = u.v ∧ goes k) ∧
      ((∀ k ∈ gr.threads, k.wid = w → k.slot < 32 → m.getLsbD k.slot = true → k.run ≠ .exited → k.run ≠ .filed → k ∈ active x s) →
        (∀ u ∈ active x s, u.wid = w) → ∀ u ∈ active x s, ∃ k, threadIn t g u.tid = some k ∧ goes k) ∧
      (∀ k ∈ gr.threads, k.wid = w → k.slot < 32 → m.getLsbD k.slot = true → k.run = .path → k.tid ∉ (viewOf s).ths.map Thread.tid →
        (∀ h ∈ gr.threads, h.wid = w → h.slot = k.slot → h = k) → (∀ u ∈ active x s, u.wid = w) →
        ∀ u ∈ active x s, ∃ h, threadIn t g u.tid = some h ∧ waits h)) ∧
  (∀ (g : Group) (u : Thread) m n, u.run = .wsync m n → (∀ i < 32, m.getLsbD i = true → ∀ k ∈ g.threads, k.wid = u.wid → k.slot = i →
      k.run = .exited ∨ k.run = .filed ∨ (∃ m' n', k.run = .wsync m' n' ∧ k.pc = u.pc)) → wsyncDone g u = true))

/-- R243, R48: SREAD gives a group's warp the value of a listed register, its low half in D and the high half of TASKARG and TASKREC in D+1, or
zero-extended in a uniform D; an index that is not listed, and a thread's register into a uniform D, raise ILL. On a foreman and on the
management core a register that only a group has is a free value, whatever it is (log entry 31).
R244: CLOCK gives package time or the die's count of core cycles; another selector raises ILL, and a pure task takes PURITY.
R49, R243: SWRITE of each register, with the values that raise ILL, PRIV for SELFTICK in U mode, and SELFTICK's limits. The management core, which is on no
cluster, writes a register of its own (the model's choice, log entry 31). -/
def Obligations.StatusRegisters : Prop :=
  ((∀ x s, Enabled 0x0C x s → (x.a.toNat = 0x0E ∨ x.a.toNat = 0x0F ∨ 0x16 ≤ x.a.toNat ∨ (isUni x.d = true ∧ x.a.toNat ∈ [0x01, 0x02, 0x12, 0x13])) →
    exec (.sread x) s = .next (takeFault (ownIll 0x0C x) s)) ∧
  (∀ x s g w gr, Enabled 0x0C x s → s.cur.agent = .warp g w → s.group? g = some gr → gr.pure = none →
    x.a.toNat ∈ [0x00, 0x01, 0x02, 0x03, 0x04, 0x05, 0x06, 0x07, 0x08, 0x09, 0x0A, 0x0B, 0x0C, 0x0D, 0x10, 0x11, 0x12, 0x13, 0x14, 0x15] →
    (isUni x.d = true → x.a.toNat ∉ [0x01, 0x02, 0x12, 0x13]) → ∃ t, exec (.sread x) s = .next t ∧
    EndsView x s t (if active x s = [] then viewOf s else
      (viewOf s).write x (if isUni x.d ∨ x.a.toNat = 0x07 ∨ x.a.toNat = 0x0A then 64 else 32) fun k u => (match x.a.toNat with
      | 0x00 => 32 | 0x01 => u.slot | 0x02 => u.tid | 0x03 => k.wid | 0x04 => g | 0x05 => gr.gsize | 0x06 => (gr.gang.map (·.2)).getD 0
      | 0x07 => fld gr.task 127 64 | 0x08 => fld gr.task 143 128 | 0x09 => fld gr.task 159 144 | 0x0A => gr.taskrec.toNat | 0x0B => 32
      | 0x0C => gr.ctx | 0x0D => fld gr.task 175 160 | 0x10 => k.rmode.toNat | 0x11 => k.dmode.toNat | 0x12 => u.fpflags.toNat | 0x13 => u.rfail.toNat
      | 0x14 => (s.cluster (gidCl g)).selftick | _ => k.lease.toNat, 0))) ∧
  (∀ x s c, Enabled 0x0C x s → s.cur.agent = .foreman c → isUni x.d = true → active x s ≠ [] → ((s.group? (foreGid c)).bind Group.pure) = none →
    x.a.toNat ∈ [0x03, 0x04, 0x05, 0x06, 0x07, 0x08, 0x09, 0x0A, 0x0D] → ∃ t v, exec (.sread x) s = .next t ∧
    EndsWith x s t ((viewOf s).warp.wrOp x.d 64 v) (viewOf s).ths)) ∧
  ((∀ x s, Enabled 0x0E x s → 1 < x.a.toNat → exec (.clock x) s = .next (takeFault (ownIll 0x0E x) s)) ∧
  (∀ x s, Enabled 0x0E x s → x.a.toNat ≤ 1 → active x s = [] → ∃ t, exec (.clock x) s = .next t ∧ EndsView x s t (viewOf s)) ∧
  (∀ x s, Enabled 0x0E x s → x.a.toNat ≤ 1 → active x s ≠ [] → ((s.group? (who s).gid).bind Group.pure).isSome = true →
    exec (.clock x) s = .next (takeFault { code := cPurity, info := 6 } s)) ∧
  (∀ x s, Enabled 0x0E x s → active x s ≠ [] → ((s.group? (who s).gid).bind Group.pure) = none →
    x.a.toNat = 0 ∨ (x.a.toNat = 1 ∧ (who s).phys = false) → ∃ t, exec (.clock x) s = .next t ∧
    EndsView x s t ⟨(viewOf s).warp.wrOp x.d 64 (if x.a.toNat = 0 then s.now / 4 else s.cyclesOf ((who s).cl / 24)), (viewOf s).ths⟩)) ∧
  ((∀ x s, Enabled 0x0D x s → x.d.toNat ∉ [0x10, 0x11, 0x12, 0x14, 0x15] → exec (.swrite x) s = .next (takeFault (ownIll 0x0D x) s)) ∧
  (∀ x s, Enabled 0x0D x s → x.d.toNat = 0x14 → (who s).level = 0 → exec (.swrite x) s = .next (takeFault { code := cPriv } s)) ∧
  (∀ x s, Enabled 0x0D x s → x.d.toNat ∈ [0x10, 0x11, 0x12, 0x15] ∨ (x.d.toNat = 0x14 ∧ (who s).level ≠ 0) → active x s = [] →
    ∃ t, exec (.swrite x) s = .next t ∧ EndsView x s t (viewOf s)) ∧
  (∀ x s, Enabled 0x0D x s → active x s ≠ [] →
    let b := (bU x (viewOf s).warp).toNat
    ((x.d.toNat = 0x10 ∧ 4 < b) ∨ (x.d.toNat = 0x11 ∧ 1 < b) ∨ (x.d.toNat = 0x15 ∧ (b = 0 ∨ 255 < b)) →
      exec (.swrite x) s = .next (takeFault (ownIll 0x0D x) s)) ∧
    (x.d.toNat = 0x10 → b ≤ 4 → ∃ t, exec (.swrite x) s = .next t ∧ EndsView x s t ⟨{ (viewOf s).warp with rmode := BitVec.ofNat 3 b }, (viewOf s).ths⟩) ∧
    (x.d.toNat = 0x11 → b ≤ 1 → ∃ t, exec (.swrite x) s = .next t ∧ EndsView x s t ⟨{ (viewOf s).warp with dmode := b == 1 }, (viewOf s).ths⟩) ∧
    (x.d.toNat = 0x15 → 1 ≤ b → b ≤ 255 → ∃ t, exec (.swrite x) s = .next t ∧ EndsView x s t ⟨{ (viewOf s).warp with lease := BitVec.ofNat 8 b }, (viewOf s).ths⟩) ∧
    (x.d.toNat = 0x12 → ∃ t, exec (.swrite x) s = .next t ∧
      EndsView x s t ((viewOf s).mapP x fun u => { u with fpflags := u.fpflags &&& ~~~(BitVec.ofNat 5 (rdB x (viewOf s).warp u 32)) })) ∧
    (x.d.toNat = 0x14 → (who s).level = 1 → (who s).phys = false → ∃ t, exec (.swrite x) s = .next t ∧ EndsWith x s t (viewOf s).warp (viewOf s).ths ∧
      KeepsMemory s t ∧ (t.cluster (who s).cl).selftick = (if b < 16 then 16 else if b > 65536 then 65536 else b)) ∧
    (x.d.toNat = 0x14 → s.cur.agent = .mgmt → ∃ t, exec (.swrite x) s = .next t ∧ EndsWith x s t (viewOf s).warp (viewOf s).ths ∧
      KeepsMemory s t ∧ t.mgmt.selftick = (if b < 16 then 16 else if b > 65536 then 65536 else b))))

/-! ## Ordering and barriers -/

/-- R123, R294 to R296: a release FENCE waits for what its threads have in flight as its scope asks, and at GANG scope or wider each thread then carries
its cluster's logical time; an acquire at GANG scope or wider makes every unclaimed line of the issuing core and context that is not RO go. CHJOIN
binds what the group has issued on channel D, CHDRAIN waits for what is before it on its channel, CHSTAT reads the table. No register of memory changes.
R301: RSTAT writes RFAIL of each thread of P to its predicate D and clears it; `.peek` leaves it. -/
def Obligations.FencesAndChannels : Prop :=
  ((∀ x s, Enabled 0x90 x s → active x s ≠ [] → 2 ≤ x.w2.ord.toNat → Owes s x.w2.scope.toNat (active x s) → ∃ t, exec (.fence x) s = .next t ∧ Stalls s t) ∧
  (∀ x s, Enabled 0x90 x s → active x s ≠ [] → (2 ≤ x.w2.ord.toNat → ¬Owes s x.w2.scope.toNat (active x s)) →
    ∃ t, exec (.fence x) s = .next t ∧ EndsWith x s t (viewOf s).warp (if 2 ≤ x.w2.ord.toNat ∧ 2 ≤ x.w2.scope.toNat then
      ((viewOf s).mapP x fun u => { u with relPts := some (t.clock (clockOf (who s).core)) }).ths else (viewOf s).ths) ∧ KeepsMemory s t ∧
      (x.w2.ord.toNat % 2 = 1 → 2 ≤ x.w2.scope.toNat → s.cur.agent ≠ .mgmt → ∀ q ∈ (t.core (who s).core).l1,
        q.ctx = (who s).ctx → q.ro = false → s.claimed ((who s).core / 4) q.ctx q.blk = true)) ∧
  (∀ x s, Enabled 0x91 x s → active x s ≠ [] →
    let ids := (s.packets.filter fun p => p.gid == (who s).gid && p.ch == x.d.toNat && p.st != .done).map Packet.id ++ s.cmdsOn (who s).gid x.d.toNat
    ∃ t, exec (.chjoin x) s = .next t ∧ EndsWith x s t (viewOf s).warp (viewOf s).ths ∧ KeepsMemory s t ∧ t.packets = s.packets ∧
      t.joinsOf (who s).gid = s.joinsOf (who s).gid ++ (if x.d.toNat = x.w2.ch.toNat ∨ ids = [] then [] else [(x.d.toNat, x.w2.ch.toNat, ids)])) ∧
  (∀ x s, Enabled 0x92 x s → active x s ≠ [] →
    let noted := (viewOf s).warp.drains.find? fun p => p.1 == (viewOf s).ths.map Thread.tid && p.2.1 == s.cur.pc
    let first := (noted.map fun p => p.2.2).getD s.nextId
    let before := (∃ p ∈ s.packets, p.gid = (who s).gid ∧ p.ch = x.w2.ch.toNat ∧ p.cmd.getD p.id < first) ∨ ∃ i ∈ s.cmdsOn (who s).gid x.w2.ch.toNat, i < first
    (¬before → ∃ t, exec (.chdrain x) s = .next t ∧ EndsView x s t (viewOf s)) ∧
    (before → ∃ t, exec (.chdrain x) s = .next t ∧ Stalls s t)) ∧
  (∀ x s, Enabled 0x93 x s → active x s ≠ [] → ∃ t v, exec (.chstat x) s = .next t ∧ EndsView x s t ⟨(viewOf s).warp.wrOp x.d 64 v, (viewOf s).ths⟩ ∧
    v % 2 ^ 16 = min 0xFFFF (s.packets.filter fun p => p.gid == (who s).gid && p.ch == x.w2.ch.toNat).length ∧
    ((s.pairsOf (who s).gid).length ≤ 64 →
      v / 2 ^ 16 % 2 ^ 8 = ((s.pairsOf (who s).gid).filter fun p => p.ch == x.w2.ch.toNat).length ∧
      v / 2 ^ 24 % 2 ^ 8 = 64 - (s.pairsOf (who s).gid).length ∧
      (v.testBit 33 = (s.pairsOf (who s).gid).any fun p => p.ch == x.w2.ch.toNat && p.resync) ∧
      (v.testBit 32 = ((s.group? (who s).gid).any fun g => g.chWait.contains x.w2.ch.toNat)))) ∧
  (∀ p ∈ [(Instr.fence, 0x90#8), (.chjoin, 0x91#8), (.chdrain, 0x92#8), (.chstat, 0x93#8)], ∀ x s, Enabled p.2 x s → active x s = [] →
    ∃ t, exec (p.1 x) s = .next t ∧ EndsView x s t (viewOf s))) ∧
  (Changes .rstat 0x9A (fun x _ u => { u.wrPf x.d u.rfail with rfail := false }) ∧
  Changes .rstatPeek 0x9A (fun x _ u => u.wrPf x.d u.rfail))

/-- R298, R112: BAR and GBAR, which are releases at GROUP and at GANG scope, wait first for what their threads have in flight; then each thread of P
waits at the barrier or, where that completes the barrier, stands at the next instruction; outside a gang GBAR is a BAR with GANG scope. While a
thread of the group that is not one of these has neither exited nor arrived, all of them wait; when there is none, none waits.
R11, R298, R112: a BAR instance completes once every thread of the group that has not exited has arrived, and not before: each then stands on its path
at the PC its wait holds, and no other thread moves. A GBAR instance completes once every thread of every group of the gang that has not ended has.
R299, R300, R171: the transaction barriers. TBINIT sets EXPECT and leaves the phase; TBEXP adds to the balance; each arrival of TBARV tells its thread
the phase before it, and the phase completes when all have arrived and the balance is zero; TBWAIT holds a thread whose predicate names the
present phase. A number at or above the group's count, a barrier that is not initialised, a count or a number of bytes out of range, and an arrival
beyond EXPECT raise ILL. -/
def Obligations.Barriers : Prop :=
  ((∀ p ∈ [(Instr.bar, 0x94#8, 1), (.gbar, 0x95#8, 2)], ∀ x s, Enabled p.2.1 x s → Owes s p.2.2 (active x s) → ∃ t, exec (p.1 x) s = .next t ∧ Stalls s t) ∧
  (∀ p ∈ [(Instr.bar, 0x94#8, 1), (.gbar, 0x95#8, 2)], ∀ x s g w gr, Enabled p.2.1 x s → s.cur.agent = .warp g w → s.group? g = some gr → OnPath s →
    ¬Owes s p.2.2 (active x s) →
    let run : Run := if p.2.1 = 0x94 then .bar (nextPc x s) false else if gr.gang.isSome then .gbar (nextPc x s) else .bar (nextPc x s) true
    ∃ t, exec (p.1 x) s = .next t ∧ t.mem = s.mem ∧ t.desc = s.desc ∧ (warpIn t g w).map arch = (gr.warp? w).map arch ∧
      (∀ u ∈ active x s, WaitsOrGoes x s t u run) ∧
      (∀ u ∈ (viewOf s).ths, guardTrue x.w2 u = false → ∃ k, threadIn t g u.tid = some k ∧ k.v = u.v ∧ k.run = .path ∧ k.pc = nextPc x s) ∧
      ((∃ k ∈ gr.threads, k.tid ∉ (active x s).map Thread.tid ∧ k.run = .path ∧ (gr.gang.isSome = true → p.2.1 = 0x94)) →
        ∀ u ∈ active x s, ∃ k, threadIn t g u.tid = some k ∧ k.run = run ∧ k.pc = s.cur.pc) ∧
      ((∀ k ∈ gr.threads, k.run ≠ .exited → k.tid ∈ (active x s).map Thread.tid ∨ ∃ n d, k.run = .bar n d) → (gr.gang.isSome = true → p.2.1 = 0x94) →
        ∀ u ∈ active x s, ∃ k, threadIn t g u.tid = some k ∧ k.run = .path ∧ k.pc = nextPc x s))) ∧
  ((∀ (s : State) (g : Nat) (gr : Group), s.group? g = some gr → (∃ u ∈ gr.threads, u.run ≠ .exited) → (∀ u ∈ gr.threads, u.run ≠ .exited → ∃ n d, u.run = .bar n d) →
    ∃ gr', (s.completeBar g).group? g = some gr' ∧ (s.completeBar g).mem = s.mem ∧
      gr'.threads = gr.threads.map fun u => match u.run with
        | .bar n _ => { u with run := .path, pc := n }
        | _ => u) ∧
  (∀ (s : State) (g : Nat) (gr : Group) (u : Thread), s.group? g = some gr → u ∈ gr.threads → u.run ≠ .exited → (∀ n d, u.run ≠ .bar n d) → s.completeBar g = s) ∧
  (∀ (s : State) (n : Nat) (gn : Gang), s.gangs.find? (fun g => g.id == n) = some gn →
    (∀ g ∈ gn.live, ∃ gr, s.group? g = some gr ∧ (∃ u ∈ gr.threads, u.run ≠ .exited) ∧ ∀ u ∈ gr.threads, u.run ≠ .exited → ∃ m, u.run = .gbar m) →
    ∀ g ∈ gn.live, ∀ gr, s.group? g = some gr → ∃ gr', (s.completeGbar n).group? g = some gr' ∧ (s.completeGbar n).mem = s.mem ∧
      gr'.threads = gr.threads.map fun u => match u.run with
        | .gbar m => { u with run := .path, pc := m }
        | _ => u) ∧
  (∀ (s : State) (n g : Nat) (gn : Gang) (gr : Group) (u : Thread), s.gangs.find? (fun g => g.id == n) = some gn → g ∈ gn.live → s.group? g = some gr →
    u ∈ gr.threads → u.run ≠ .exited → (∀ m, u.run ≠ .gbar m) → s.completeGbar n = s)) ∧
  (let tbAt (s : State) (n : Nat) : Option TBar := (s.group? (who s).gid).bind fun g => if n < g.tbars.length then some (g.tbar n) else none
  let completed (b : TBar) : TBar := if b.init = true ∧ b.arrived = b.want ∧ b.txbal = 0 then { b with phase := !b.phase, arrived := 0 } else b
  (∀ x s b, Enabled 0x96 x s → OnPath s → tbarOf s x.d.toNat = some b → active x s ≠ [] → 1 ≤ (bU x (viewOf s).warp).toNat → (bU x (viewOf s).warp).toNat ≤ 1024 →
    ∃ t, exec (.tbinit x) s = .next t ∧ EndsWith x s t (viewOf s).warp (viewOf s).ths ∧ KeepsMemory s t ∧
      ((t.group? (who s).gid).map fun g => g.tbar x.d.toNat) = some { b with init := true, want := (bU x (viewOf s).warp).toNat, arrived := 0, txbal := 0 } ∧
      ∀ n, n ≠ x.d.toNat → ((t.group? (who s).gid).map fun g => g.tbar n) = (s.group? (who s).gid).map fun g => g.tbar n) ∧
  (∀ x s b, Enabled 0x96 x s → tbarOf s x.d.toNat = some b → active x s ≠ [] → ((bU x (viewOf s).warp).toNat = 0 ∨ 1024 < (bU x (viewOf s).warp).toNat) →
    exec (.tbinit x) s = .next (takeFault (ownIll 0x96 x) s)) ∧
  (∀ x s b, Enabled 0x97 x s → OnPath s → tbarOf s x.d.toNat = some b → active x s ≠ [] → (bU x (viewOf s).warp).toNat < 2 ^ 40 → b.init = true →
    ∃ t, exec (.tbexp x) s = .next t ∧ EndsWith x s t (viewOf s).warp (viewOf s).ths ∧ KeepsMemory s t ∧
      (t.group? (who s).gid).map (fun g => g.tbar x.d.toNat) = some (completed { b with txbal := b.txbal + BitVec.ofNat 41 (bU x (viewOf s).warp).toNat }) ∧
      ∀ n, n ≠ x.d.toNat → ((t.group? (who s).gid).map fun g => g.tbar n) = (s.group? (who s).gid).map fun g => g.tbar n) ∧
  (∀ x s b, Enabled 0x97 x s → tbarOf s x.d.toNat = some b → active x s ≠ [] → (2 ^ 40 ≤ (bU x (viewOf s).warp).toNat ∨ b.init = false) →
    exec (.tbexp x) s = .next (takeFault (ownIll 0x97 x) s)) ∧
  (∀ x s b l, Enabled 0x98 x s → OnPath s → tbarOf s x.a.toNat = some b → active x s ≠ [] → b.init = true → tbArrive (active x s) b = some l →
    ∃ t, exec (.tbarv x) s = .next t ∧ KeepsMemory s t ∧
      EndsWith x s t (viewOf s).warp ((viewOf s).ths.map fun u => match l.find? (fun p => p.1 == u.tid) with
        | some (_, ph) => u.wrPf x.d ph
        | none => u) ∧
      ((t.group? (who s).gid).map fun g => g.tbar x.a.toNat) = some ((fun b : TBar => completed { b with arrived := b.arrived + 1 })^[l.length] b)) ∧
  (∀ x s b, Enabled 0x98 x s → tbarOf s x.a.toNat = some b → active x s ≠ [] → (b.init = false ∨ tbArrive (active x s) b = none) →
    exec (.tbarv x) s = .next (takeFault (ownIll 0x98 x) s)) ∧
  (∀ x s b, Enabled 0x99 x s → tbarOf s x.d.toNat = some b → active x s ≠ [] → b.init = true →
    ∃ t, exec (.tbwait x) s = .next t ∧ KeepsMemory s t ∧ (warpIn t (who s).gid (who s).wid).map arch = (warpIn s (who s).gid (who s).wid).map arch ∧
      ∀ u ∈ (viewOf s).ths, ∃ k, threadIn t (who s).gid u.tid = some k ∧ k.v = u.v ∧ k.preds = u.preds ∧
        (if guardTrue x.w2 u = true ∧ u.rdPf x.a = b.phase then k.run = .tbwait x.d.toNat b.phase (nextPc x s) ∧ k.pc = s.cur.pc
          else k.run = u.run ∧ k.pc = nextPc x s)) ∧
  (∀ x s b, Enabled 0x99 x s → tbarOf s x.d.toNat = some b → active x s ≠ [] → b.init = false → exec (.tbwait x) s = .next (takeFault (ownIll 0x99 x) s)) ∧
  (∀ p ∈ [(Instr.tbinit, 0x96#8, true), (.tbexp, 0x97#8, true), (.tbarv, 0x98#8, false), (.tbwait, 0x99#8, true)], ∀ x s, Enabled p.2.1 x s →
    let b := tbarOf s (if p.2.2 then x.d.toNat else x.a.toNat)
    (b = none → exec (p.1 x) s = .next (takeFault (ownIll p.2.1.toNat x) s)) ∧
    (b.isSome = true → active x s = [] → ∃ t, exec (p.1 x) s = .next t ∧ EndsView x s t (viewOf s))) ∧
  (∀ s n, tbarOf s n = tbAt s n) ∧
  -- arrivals: each thread is told the phase before its own arrival; one beyond EXPECT refuses all
  (∀ u us b, b.arrived ≠ b.want → tbArrive (u :: us) b = (tbArrive us (completed { b with arrived := b.arrived + 1 })).map fun l => (u.tid, b.phase) :: l) ∧
  (∀ u us b, b.arrived = b.want → tbArrive (u :: us) b = none) ∧
  -- a thread in TBWAIT goes on when the phase has passed, and not before
  (∀ (s : State) g gr n f u b ph pc, s.group? g = some gr → n < gr.tbars.length → u ∈ gr.threads → u.run = .tbwait b ph pc →
    ∃ gr', (s.updTbar g n f).group? g = some gr' ∧ gr'.tbar n = completed (f (gr.tbar n)) ∧
      (if (gr'.tbar b).phase ≠ ph then { u with run := .path, pc := pc } ∈ gr'.threads else u ∈ gr'.threads)))

/-! ## Memory -/

/-- R51, R82: bytes of a value written at an address read back as the value, the low byte at the lowest address, and every other byte reads as before;
forwarding of a chunk that is being moved does not show.
R69, R275: a block with bytes put over it holds them at their places, and the rest of the block is as it was. -/
def Obligations.ReadAfterWrite : Prop :=
  ((∀ (s : State) (pa n v : Nat), SMap.wf (0 : Byte) s.mem = true → pa % 65536 + n ≤ 65536 → (s.wrCells (cellsOf pa n v)).rdNat pa n = v % 256 ^ n) ∧
  (∀ (s : State) (cs : List (Nat × Byte)) (a : Nat), (∀ c ∈ cs, s.fwd c.1 ≠ s.fwd a) → (s.wrCells cs).rdByte a = s.rdByte a) ∧
  (∀ (s : State) (cs : List (Nat × Byte)), (s.wrCells cs).desc = s.desc ∧ (s.wrCells cs).groups = s.groups ∧ (s.wrCells cs).clusters = s.clusters)) ∧
  ((∀ (d : BitVec 512) (pa n v : Nat), pa % 64 + n ≤ 64 → blkNat (blkPut d (cellsOf pa n v)) (pa % 64) n = v % 256 ^ n) ∧
  (∀ (d : BitVec 512) (cs : List (Nat × Byte)) (i : Nat), i < 64 → (∀ c ∈ cs, c.1 % 64 ≠ i) → blkByte (blkPut d cs) i = blkByte d i))

/-- R269, R270, R276, R290, R292: a load of global memory all of whose accesses pass their checks writes what it read to D of each of its threads
and changes no memory; one that reads the fabric, or whose accesses are deferred, goes on with its registers as they were, and what it asked for is
outstanding.
R70, R104, R151, R443: a load of a block under no claim of its own reads the home at GANG scope or wider, but for an RO copy, and under the hints that
pass over L1; at WARP and GROUP scope it may hit its context's sector of the core's L1. Where another cluster holds a write claim, a read of the
home recalls it first. -/
def Obligations.GlobalLoads : Prop :=
  ((∀ x s as gs s2, Enabled 0x70 x s → LoadPasses 0x70 x s .load x.ty.bytes x.ty.bytes (fun w u => memAddr x w u x.ty.bytes) (fun _ _ => 0) as gs s2 →
    ∃ t, exec (.ld x) s = .next t ∧ LoadEnds .load x s t x.ty.bytes gs) ∧
  (∀ x s as gs s2, Enabled 0x71 x s → let n := 4 * wideOf 0x71 x.sub.toNat
    LoadPasses 0x71 x s .load n n (fun w u => memAddr x w u 4) (fun _ _ => 0) as gs s2 → ∃ t, exec (.ldw x) s = .next t ∧ LoadEnds .load x s t n gs) ∧
  (∀ x s as gs s2, Enabled 0x80 x s → x.sub.toNat ≠ 1 → LoadPasses 0x80 x s .dget 1 1 (fun w u => memAddr x w u 64) (fun _ _ => 0) as gs s2 →
    ∃ t, exec (.dget x) s = .next t ∧ LoadEnds .dget x s t 4 gs) ∧
  (∀ x s as gs s2, Enabled 0x82 x s → x.sub.toNat ≠ 1 →
    LoadPasses 0x82 x s .ldb 64 64 (fun w u => memAddr x w u 1) (fun w u => rdOp w u x.c 32 % 128) as gs s2 →
    ∃ t, exec (.ldb x) s = .next t ∧ LoadEnds .ldb x s t x.ty.bytes gs) ∧
  (∀ p ∈ [(Instr.ld, 0x70#8, LoadKind.load), (.ldw, 0x71#8, .load), (.dget, 0x80#8, .dget), (.ldb, 0x82#8, .ldb)], ∀ x s as, Enabled p.2.1 x s →
    (0x80#8 ≤ p.2.1 → x.sub.toNat ≠ 1) →
    let n := if p.2.1 = 0x70 then x.ty.bytes else if p.2.1 = 0x71 then 4 * wideOf 0x71 x.sub.toNat else if p.2.1 = 0x80 then 1 else 64
    let unit := if p.2.1 = 0x70 then x.ty.bytes else if p.2.1 = 0x71 then 4 else if p.2.1 = 0x80 then 64 else 1
    memThreads p.2.1.toNat x (viewOf s) ≠ [] →
    checkAll s (who s) (who s).owner (wantsOf p.2.1.toNat x s n 1 n fun w u => memAddr x w u unit) = .ok as →
    (xlatWait s (who s).core (who s).ctx as || blockWait s (who s) none as || loadsWait s (who s).core as || fabWait s (who s) x.w2.ch.toNat as) = false →
    (∀ a ∈ as, a.fab = none → s.poisonedAt a.pa = false) → ((∃ a ∈ as, a.fab.isSome = true) ∨ (s.cur.defer = true ∧ p.2.2 = .load)) →
    ∃ t o, exec (p.1 x) s = .next t ∧ EndsWith x s t (viewOf s).warp (viewOf s).ths ∧ KeepsMemory s t ∧
      t.loads.length = s.loads.length + 1 ∧ t.loads.getLast? = some o ∧ o.kind = p.2.2 ∧ o.gid = (who s).gid ∧ o.wid = (who s).wid ∧ o.d = x.d ∧ o.pc = s.cur.pc ∧
      o.parts.map (fun q => (q.tid, q.addr, q.value)) = (List.zip as (memThreads p.2.1.toNat x (viewOf s))).map fun a => (a.1.tid, a.1.va, none)) ∧
  (∀ p ∈ [(Instr.ld, 0x70#8), (.ldw, 0x71#8), (.lds, 0x72#8), (.ldk, 0x73#8), (.lr, 0x7B#8), (.dget, 0x80#8), (.ldb, 0x82#8)], ∀ x s, Enabled p.2 x s →
    active x s = [] → ∃ t, exec (p.1 x) s = .next t ∧ EndsView x s t (viewOf s))) ∧
  ((∀ (s : State) core ctx pa scope hint, s.waitsAt pa = false → isFlistad pa = true → s.frag? pa = none →
    (hint = 4 ∨ hint = 5 ∨ (2 ≤ scope ∧ ∀ l, s.l1Find core ctx pa = some l → l.ro = false)) →
    ∃ t, s.loadBlock core ctx pa scope hint true = .sec (s.homeSec pa) t ∧ t.mem = s.mem) ∧
  (∀ (s : State) core ctx pa scope hint l, s.waitsAt pa = false → isFlistad pa = true → s.frag? pa = none → s.l1Find core ctx pa = some l →
    scope < 2 → hint ≠ 4 → hint ≠ 5 → l.ctx = ctx ∧ ∃ t, s.loadBlock core ctx pa scope hint true = .sec ⟨l.data, l.desc⟩ t ∧ t.mem = s.mem) ∧
  (∀ (s : State) core ctx pa scope hint f useL1, s.waitsAt pa = false → isFlistad pa = true → State.frag? ((s.touch ctx pa).visitAt pa) pa = some f → f.holder.isSome = true →
    (State.cluster ((s.touch ctx pa).visitAt pa) (core / 4)).claim? f.id ctx = none → (useL1 = true → 2 ≤ scope) → s.loadBlock core ctx pa scope hint useL1 = .recall f.id) ∧
  (∀ (s : State) core ctx pa scope hint f, s.waitsAt pa = false → isFlistad pa = true → State.frag? ((s.touch ctx pa).visitAt pa) pa = some f → f.holder = none →
    (State.cluster ((s.touch ctx pa).visitAt pa) (core / 4)).claim? f.id ctx = none → ∃ t, s.loadBlock core ctx pa scope hint false = .sec (s.homeSec pa) t ∧
      (t.cluster (core / 4)).pts = tsMax (s.cluster (core / 4)).pts f.wts ∧ t.mem = s.mem))

/-- R270: a load of global memory one of whose accesses fails a check raises the fault of the earliest order, of the lowest slot that meets it, and
performs nothing; so does a store. -/
def Obligations.AccessFaults : Prop :=
  (∀ x s tid slot f, Enabled 0x70 x s → memThreads 0x70 x (viewOf s) ≠ [] →
    checkAll s (who s) (who s).owner (wantsOf 0x70 x s x.ty.bytes 1 x.ty.bytes fun w u => memAddr x w u x.ty.bytes) = .fault tid slot f →
    exec (.ld x) s = .next (raise tid slot f s)) ∧
  (∀ x s tid slot f, Enabled 0x74 x s → memThreads 0x74 x (viewOf s) ≠ [] →
    checkAll s (who s) (who s).owner (wantsOf 0x74 x s x.ty.bytes 2 x.ty.bytes fun w u => memAddr x w u x.ty.bytes) = .fault tid slot f →
    exec (.st x) s = .next (raise tid slot f s)) ∧
  -- the fault is that of the least order; of two of one order, the first thread's
  (∀ l f, firstFailure l = some f → f ∈ l ∧ (∀ g ∈ l, f.1 ≤ g.1) ∧ ∃ pre post, l = pre ++ f :: post ∧ ∀ g ∈ pre, f.1 < g.1) ∧
  (∀ l, firstFailure l = none → l = []) ∧
  -- alignment comes before translation
  (∀ s w owner want, want.va.toNat % want.align ≠ 0 → checkGlobal s w owner want = .bad 1 { code := cAlign, info := want.align, addr := want.va, acc := want.acc }) ∧
  (∀ s tid slot f, (raise tid slot f s).mem = s.mem ∧ (raise tid slot f s).desc = s.desc ∧ (raise tid slot f s).packets = s.packets ∧ (raise tid slot f s).loads = s.loads)

/-- R57 to R60, R63, R276, R283: the loads of scratch, of the constant block, and LR, all of whose accesses pass their checks. -/
def Obligations.ScratchAndConstantLoads : Prop :=
  (∀ p ∈ [(Instr.lds, 0x72#8, LoadKind.load), (.dget, 0x80#8, .dget), (.ldb, 0x82#8, .ldb)], ∀ x s g, Enabled p.2.1 x s → (p.2.2 ≠ .load → x.sub.toNat = 1) →
    s.group? (who s).gid = some g → memThreads p.2.1.toNat x (viewOf s) ≠ [] →
    let n := (scrSize 0x72 x).1
    let size := match p.2.2 with
      | .load => n
      | .dget => 4
      | _ => x.ty.bytes
    let asize := match p.2.2 with
      | .load => n
      | .dget => 1
      | _ => 64
    let off (u : Thread) : Nat := memAddr32 x (viewOf s).warp u (match p.2.2 with
      | .load => (scrSize 0x72 x).2
      | .dget => 64
      | _ => 1)
    let idx (u : Thread) : Nat := match p.2.2 with
      | .ldb => rdOp (viewOf s).warp u x.c 32 % 128
      | _ => 0
    ∀ own : Thread → Nat × Nat × Group, (∀ u ∈ memThreads p.2.1.toNat x (viewOf s), checkScratch s g (off u) asize 1 asize = .ok (own u).1 (own u).2.1 ∧
        s.group? (own u).1 = some (own u).2.2 ∧ (own u).2.2.scr.poison.contains ((own u).2.1 / 64) = false ∧ badFormat p.2.2 ((own u).2.2.scr.sec (own u).2.1) = false) →
      ∃ t, exec (p.1 x) s = .next t ∧ LoadEnds p.2.2 x s t size ((memThreads p.2.1.toNat x (viewOf s)).map fun u =>
        ⟨u.tid, (own u).2.1 % 64, idx u, s.carry.find? (scrKey (own u).1 (own u).2.1), (own u).2.2.scr.sec (own u).2.1⟩)) ∧
  (∀ x s g as gs s2, Enabled 0x73 x s → s.group? (who s).gid = some g → memThreads 0x73 x (viewOf s) ≠ [] →
    collect ((memThreads 0x73 x (viewOf s)).map fun u =>
      let o := memAddr32 x (viewOf s).warp u x.ty.bytes
      ({ tid := u.tid, slot := u.slot, va := BitVec.ofNat 64 o, size := x.ty.bytes, acc := 1, align := x.ty.bytes }, checkConst s (who s) g u o x.ty.bytes)) = .ok as →
    (∀ a ∈ as, a.fab = none ∧ s.poisonedAt a.pa = false) → readAll (who s) false 3 0 (as.map fun a => (a, 0)) (s.tlbFill (as.flatMap Acc.fills)) = .ok gs s2 →
    -- each value is the home's, one the cluster's constant cache holds, or the one the block had at launch (R64)
    let unit (d : BitVec 512) (pa : Nat) : BitVec 128 := d.extractLsb' (pa % 64 / 16 * 128) 128
    ∃ t gs', exec (.ldk x) s = .next t ∧ LoadEnds .load x s t x.ty.bytes gs' ∧ gs'.length = (as.zip gs).length ∧ (g.launch = none → gs' = ((as.zip gs).map Prod.snd)) ∧
      ∀ q ∈ (as.zip gs).zip gs', q.2.tid = q.1.2.tid ∧ q.2.off = q.1.2.off ∧
        ((∃ h ∈ as.zip gs, unit q.2.sec.data q.1.1.pa = unit h.2.sec.data h.1.pa) ∨
          (∃ e ∈ (s.cluster (who s).cl).konst, some e.1 = g.launch ∧ unit q.2.sec.data q.1.1.pa = e.2.2) ∨
          ∃ l ∈ s.launches, some l.id = g.launch ∧ l.konst.find? (s.fwd q.1.1.pa / 16) = some (unit q.2.sec.data q.1.1.pa))) ∧
  (∀ x s as gs s2, Enabled 0x7B x s → memThreads 0x7B x (viewOf s) ≠ [] →
    collect ((wantsOf 0x7B x s (x.bits / 8) 1 (x.bits / 8) fun w u => memAddr x w u (x.bits / 8)).map fun q => (q, checkRmw s (who s) (who s).owner true false q)) = .ok as →
    (xlatWait s (who s).core (who s).ctx as || blockWait s (who s) none as || loadsWait s (who s).core as) = false →
    (∀ a ∈ as, a.fab = none ∧ s.poisonedAt a.pa = false) →
    readAll (who s) false x.w2.scope.toNat x.w2.hint.toNat (as.map fun a => (a, 0)) (s.tlbFill (as.flatMap Acc.fills)) = .ok gs s2 →
    ∃ t, exec (.lr x) s = .next t ∧ KeepsMemory s t ∧
      -- each thread's value, and its reservation on the block it read
      (after s t).ths.map (fun u => u.resv) = (viewOf s).ths.map (fun u => match as.find? (fun a => a.tid == u.tid) with
        | some a => some (s.blk a.pa, s.cyclesOf ((who s).die % 8))
        | none => u.resv) ∧
      (after s t).ths.map (fun u => u.v) = ((viewOf s).place x x.d (x.bits / 8) (received .load x s (x.bits / 8) gs)).ths.map fun u => u.v)

/-- R269 to R271, R277, R291: a store of global memory all of whose accesses pass their checks, performed or sent block by block, moves its path on with
every register it had; a thread that stores to its reserved block loses the reservation. Of memory it changes only the bytes it stores: every
other byte reads as before. A store whose accesses wait at a home or for room leaves everything undone.
R69, R77, R124: one block of a store outside every fragment, homed on the issuing die with nothing before it on its channel, is performed at once: its bytes
are at the home, its descriptor is RAW, a whole-block write clears poison, and the execute tag of the chunk is gone. -/
def Obligations.GlobalStores : Prop :=
  ((∀ p ∈ [(Instr.st, 0x74#8), (.stw, 0x75#8), (.dset, 0x81#8)], ∀ x s as s2, Enabled p.2 x s → (p.2 = 0x81 → x.sub.toNat ≠ 1) →
    let op := p.2.toNat
    let n := if op = 0x74 then x.ty.bytes else if op = 0x75 then 4 * wideOf 0x75 x.sub.toNat else 1
    let unit := if op = 0x74 then x.ty.bytes else if op = 0x75 then 4 else 64
    let ps := List.zipWith (fun (a : Acc) u => if op = 0x81 then (⟨a, [], .put (BitVec.ofNat 16 (rdOp (viewOf s).warp u x.d 32))⟩ : Put)
      else ⟨a, cellsOf a.at n (rdData (viewOf s).warp u x.d n), .raw⟩) as (memThreads op x (viewOf s))
    StorePasses op x s as ps n n (fun w u => memAddr x w u unit) s2 →
    ∃ t, exec (p.1 x) s = .next t ∧ MovesOn x s t ∧ t.mem = s2.mem ∧ t.desc = s2.desc ∧ t.poison = s2.poison ∧ t.tags = s2.tags ∧ t.packets = s2.packets ∧
      (s.cur.agent.isWarp = true → ∀ u ∈ (after s t).ths, ∀ a ∈ as, a.fab = none → a.tid = u.tid → ∀ r, u.resv = some r → r.1 ≠ s.blk a.pa)) ∧
  -- a store of one thread, to a block of the issuing die outside every fragment with nothing before it on its channel, is there when it ends
  (∀ x s u a, Enabled 0x74 x s → memThreads 0x74 x (viewOf s) = [u] → Canonical s →
    checkAll s (who s) (who s).owner (wantsOf 0x74 x s x.ty.bytes 2 x.ty.bytes fun w u => memAddr x w u x.ty.bytes) = .ok [a] →
    (xlatWait s (who s).core (who s).ctx [a] || loadsWait s (who s).core [a]) = false → a.fab = none → s.poisonedAt a.pa = false →
    isFlistad a.pa = true → s.frag? a.pa = none → s.waitsAt a.pa = false → a.pa % 64 + x.ty.bytes ≤ 64 → s.destOf a = .die (who s).die → s.cur.defer = false →
    (∀ q ∈ s.packets, q.gid ≠ (who s).gid) → s.cmdsOn (who s).gid x.w2.ch.toNat = [] → s.joinsOf (who s).gid = [] → s.pairsOf (who s).gid = [] →
    (s.retained ((who s).core / 4)).length < 4096 →
    ∃ t, exec (.st x) s = .next t ∧ MovesOn x s t ∧ t.rdNat a.pa x.ty.bytes = rdData (viewOf s).warp u x.d x.ty.bytes % 256 ^ x.ty.bytes ∧
      t.descOf a.pa = rawDesc ∧ ∀ pa, (∀ i < x.ty.bytes, s.fwd pa ≠ s.fwd (a.pa + i)) → t.rdByte pa = s.rdByte pa) ∧
  (∀ p ∈ [(Instr.st, 0x74#8), (.stw, 0x75#8), (.dset, 0x81#8)], ∀ x s as t, Enabled p.2 x s → (p.2 = 0x81 → x.sub.toNat ≠ 1) →
    let op := p.2.toNat
    let n := if op = 0x74 then x.ty.bytes else if op = 0x75 then 4 * wideOf 0x75 x.sub.toNat else 1
    let unit := if op = 0x74 then x.ty.bytes else if op = 0x75 then 4 else 64
    checkAll s (who s) (who s).owner (wantsOf op x s n 2 n fun w u => memAddr x w u unit) = .ok as → exec (p.1 x) s = .next t →
    ∀ pa, (p.2 ≠ 0x81 → ∀ a ∈ as, a.fab = none → ∀ i < n, s.fwd pa ≠ s.fwd (a.pa + i)) → t.rdByte pa = s.rdByte pa) ∧
  (∀ p ∈ [(Instr.st, 0x74#8), (.stw, 0x75#8), (.sts, 0x76#8), (.stm, 0x77#8), (.dset, 0x81#8), (.qpack, 0x51#8)], ∀ x s, Enabled p.2 x s → active x s = [] →
    (p.2 = 0x51 → x.c.toNat ∈ [1, 2, 4, 8] ∧ 32 * x.c.toNat % blkElems (x.sub.toNat % 16) = 0) → ∃ t, exec (p.1 x) s = .next t ∧ EndsView x s t (viewOf s))) ∧
  ((∀ (s : State) core ctx pa n v pts, Canonical s → isFlistad pa = true → s.frag? pa = none → s.poisonedAt pa = false →
    pa % 64 + n ≤ 64 → 0 < n →
    (s.storeBlock core ctx pa (cellsOf pa n v) .raw pts).rdNat pa n = v % 256 ^ n ∧
    (s.storeBlock core ctx pa (cellsOf pa n v) .raw pts).descOf pa = rawDesc ∧
    (s.storeBlock core ctx pa (cellsOf pa n v) .raw pts).tags.find? (s.fwd pa / 65536) = none) ∧
  (∀ (s : State) core ctx pa cs pts d, Canonical s → isFlistad pa = true → s.frag? pa = none → s.poisonedAt pa = false →
    (s.storeBlock core ctx pa cs (.put d) pts).descOf pa = d) ∧
  -- a poisoned block takes no part of a store (R519)
  (∀ (s : State) place cs da pts, s.poisonedAt place = true → coversBlock cs = false → s.homeWrite place cs da pts = s))

/-- R57 to R62, R277, R278, R291: scratch stores, STM one to each member its mask names, move their path on with every register it had: the bytes a
thread stores, where no other thread of the instruction stores, are in the allocation it names, every other byte of scratch is as it was, and no
memory changes. A store waits for its threads' earlier stores to the die. -/
def Obligations.ScratchStores : Prop :=
  (∀ p ∈ [(Instr.sts, 0x76#8), (.stm, 0x77#8), (.dset, 0x81#8)], ∀ x s g, Enabled p.2 x s → (p.2 = 0x81 → x.sub.toNat = 1) → s.group? (who s).gid = some g →
    memThreads p.2.toNat x (viewOf s) ≠ [] → relWait s g.gid x (memThreads p.2.toNat x (viewOf s)) = true → ∃ t, exec (p.1 x) s = .next t ∧ Stalls s t) ∧
  (∀ p ∈ [(Instr.sts, 0x76#8), (.stm, 0x77#8), (.dset, 0x81#8)], ∀ x s g, Enabled p.2 x s → (p.2 = 0x81 → x.sub.toNat = 1) → s.group? (who s).gid = some g →
    let op := p.2.toNat
    let n := if op = 0x81 then 1 else (scrSize op x).1
    let off (u : Thread) : Nat := memAddr32 x (viewOf s).warp u (if op = 0x81 then 64 else (scrSize op x).2)
    let ths := memThreads op x (viewOf s)
    ths ≠ [] → relWait s g.gid x ths = false →
    -- the places each thread stores to: its own, or those of the members STM's mask names
    ∀ parts : Thread → List (Nat × Nat),
      (∀ u ∈ ths, if op = 0x77 then stmParts s g (off u) n ((rdU (viewOf s).warp x.c).toNat % 2 ^ 16) = .ok (parts u)
        else ∃ q, parts u = [q] ∧ checkScratch s g (off u) n 2 n = .ok q.1 q.2) →
      (∀ u ∈ ths, ∀ q ∈ parts u, ∃ h, s.group? q.1 = some h ∧ h.frameRun = none ∧ q.2 / 64 ∉ h.scr.poison) →
      ∃ t, exec (p.1 x) s = .next t ∧ MovesOn x s t ∧ t.mem = s.mem ∧ t.desc = s.desc ∧
        -- every other byte and descriptor of scratch is as it was
        (∀ h hr, s.group? h = some hr → ∃ hr', t.group? h = some hr' ∧
          (∀ o, (op = 0x81 ∨ ∀ u ∈ ths, ∀ q ∈ parts u, q.1 = h → o < q.2 ∨ q.2 + n ≤ o) → SMap.getD (0 : Byte) hr'.scr.bytes o = SMap.getD (0 : Byte) hr.scr.bytes o) ∧
          (∀ b, (∀ u ∈ ths, ∀ q ∈ parts u, q.1 = h → q.2 / 64 ≠ b) → hr'.scr.desc.getD rawDesc b = hr.scr.desc.getD rawDesc b)) ∧
        -- what one thread stores where no other does
        (∀ u, ths = [u] → ∀ q, parts u = [q] → ∀ hr, s.group? q.1 = some hr → (t.group? q.1).map (fun k => k.scr) =
          some (hr.scr.put (q.2 / 64) (if op = 0x81 then [] else cellsOf q.2 n (rdData (viewOf s).warp u x.d n))
            (if op = 0x81 then .put (BitVec.ofNat 16 (rdOp (viewOf s).warp u x.d 32)) else .raw)))) ∧
  -- bytes put in scratch are there, with their descriptor
  (∀ (c : Scratch) off n v d, SMap.wf (0 : Byte) c.bytes = true → (c.put (off / 64) (cellsOf off n v) .raw).num off n = v % 256 ^ n ∧
    (SMap.wf rawDesc c.desc = true → (c.put (off / 64) (cellsOf off n v) .raw).desc.getD rawDesc (off / 64) = rawDesc ∧
      (c.put (off / 64) [] (.put d)).desc.getD rawDesc (off / 64) = d)) ∧
  -- scratch writes of one group that is not parked change no memory
  (∀ (s : State) gid g blk cs da, s.group? gid = some g → g.frameRun = none → (s.putScr gid blk cs da).mem = s.mem ∧ (s.putScr gid blk cs da).desc = s.desc) ∧
  (∀ (c : Scratch) blk cs da off, (∀ q ∈ cs, q.1 ≠ off) → SMap.getD (0 : Byte) (c.put blk cs da).bytes off = SMap.getD (0 : Byte) c.bytes off)

/-- R261, R98: QPACK of a k that R261 refuses raises ILL; else the values of the warp's slots are quantised and written in whole blocks, each with its
descriptor, each thread's flags are set, and the path goes on. -/
def Obligations.QuantisedStore : Prop :=
  (∀ x s, Enabled 0x51 x s → (x.c.toNat ∉ [1, 2, 4, 8] ∨ 32 * x.c.toNat % blkElems (x.sub.toNat % 16) ≠ 0) → exec (.qpack x) s = .next (takeFault (ownIll 0x51 x) s)) ∧
  (∀ x s u us as, Enabled 0x51 x s → x.c.toNat ∈ [1, 2, 4, 8] → 32 * x.c.toNat % blkElems (x.sub.toNat % 16) = 0 → active x s = u :: us →
    let fmt := x.sub.toNat % 16
    let nb := 32 * x.c.toNat / blkElems fmt
    let va (j : Nat) : BitVec 64 := memAddr x (viewOf s).warp u 64 + BitVec.ofNat 64 (64 * j)
    checkAll s (who s) (who s).owner ((List.range nb).map fun j => { tid := u.tid, slot := u.slot, va := va j, size := 64, acc := 2, align := 64 }) = .ok as →
    let blocks := (groupsOf (blkElems fmt) nb (qpackValues x (viewOf s) x.c.toNat)).map
      (quantBlock fmt (x.sub.toNat / 16) (modeOf x (viewOf s).warp).1 (modeOf x (viewOf s).warp).2 (viewOf s).warp.dmode)
    let ps := List.zipWith (fun (a : Acc) (b : Nat × List (Nat × Flags)) =>
      (⟨a, (packCodes ((blkBits fmt).getD 32) (b.2.map (·.1))).mapIdx fun i c => (a.at + i, c), .put (BitVec.ofNat 16 (fmt * 256 + b.1))⟩ : Put)) as blocks
    let flags := blocks.flatMap fun b => b.2.map (·.2)
    let v' := (viewOf s).mapP x fun k => k.setFlag (((flags.drop (k.slot * x.c.toNat)).take x.c.toNat).foldl (· ||| ·) 0)
    ∀ s2, (xlatWait s (who s).core (who s).ctx as || loadsWait s (who s).core as) = false → (∀ a ∈ as, a.fab = none → s.poisonedAt a.pa = false) →
    putAll (who s) x.w2.ch.toNat x.w2.ord.toNat x.w2.scope x.w2.hint.toNat
      (fun tid => releasePts s (who s) ((viewOf s).ths.find? fun u => u.tid == tid) x.w2.ord.toNat x.w2.scope.toNat) (blockPuts ps)
      (s.tlbFill (as.flatMap Acc.fills)) = (.go, s2) →
    ∃ t, exec (.qpack x) s = .next t ∧ MovesTo x s t v' ∧ t.mem = s2.mem ∧ t.desc = s2.desc ∧ t.packets = s2.packets) ∧
  -- the scale: the least power of two that brings the largest finite magnitude into the target's range, within the scale's range (R98)
  (∀ fmt ∈ [0x01, 0x02, 0x03, 0x05, 0x06], ∀ xs : List FV, ∀ ty,
    let e := quantExp fmt ty xs
    let largest : ℚ := (FV.num false (quantMax fmt ty).1 (quantMax fmt ty).2).rat
    e ≤ 127 ∧ -127 ≤ e ∧ ((∀ y ∈ xs, y.rat = 0) → e = 0) ∧
    (e = 127 ∨ ∀ y ∈ xs, (abs y.rat) ≤ largest * (2 : ℚ) ^ e) ∧ (e = -127 ∨ (∀ y ∈ xs, y.rat = 0) ∨ ∃ y ∈ xs, largest * (2 : ℚ) ^ (e - 1) < (abs y.rat)))

/-- R280: the value an atomic writes, for each operation on an integer or a bit type.
R280, R281: an atomic of global memory all of whose threads' operations are performed at once puts the old values in D, unless it returns none, and
its path goes on; at one location the old value is answered and the new one written. -/
def Obligations.GlobalAtomics : Prop :=
  (∀ ty : Ty, ty.isInt = true → ∀ old c e : Nat, old < 2 ^ ty.bits → c < 2 ^ ty.bits → e < 2 ^ ty.bits →
    let i (n : Nat) : Int := exactInt ty.signed ty.bits n
    atomNew 0 ty old c e = (old + c) % 2 ^ ty.bits ∧
    i (atomNew 1 ty old c e) = (if i old ≤ i c then i old else i c) ∧
    i (atomNew 2 ty old c e) = (if i old ≤ i c then i c else i old) ∧
    (∀ k, (atomNew 3 ty old c e).testBit k = (old.testBit k && c.testBit k)) ∧
    (∀ k, (atomNew 4 ty old c e).testBit k = (old.testBit k || c.testBit k)) ∧
    (∀ k, (atomNew 5 ty old c e).testBit k = (old.testBit k != c.testBit k)) ∧
    atomNew 6 ty old c e = c ∧ atomNew 7 ty old c e = (if old = c then e else old) ∧
    atomNew 8 ty old c e = (if old < c then old + 1 else c) ∧ atomNew 9 ty old c e = (if c < old then old - 1 else c)) ∧
  ((∀ x s as rs s2, Enabled 0x78 x s → memThreads 0x78 x (viewOf s) ≠ [] →
    collect ((wantsOf 0x78 x s x.ty.bytes 3 x.ty.bytes fun w u => memAddr x w u x.ty.bytes).map fun q =>
      (q, checkRmw s (who s) (who s).owner false (hostAtomic (x.sub.toNat % 32) x.ty) q)) = .ok as →
    (xlatWait s (who s).core (who s).ctx as || loadsWait s (who s).core as) = false → (∀ a ∈ as, a.fab = none ∧ s.poisonedAt a.pa = false) →
    let nr := 32 ≤ x.sub.toNat
    let s1 := (s.tlbFill (as.flatMap Acc.fills)).fresh
    rmwAll (who s) x.w2.ch.toNat x.w2.ord.toNat x.w2.scope
      (fun tid => releasePts s (who s) ((viewOf s).ths.find? fun u => u.tid == tid) x.w2.ord.toNat x.w2.scope.toNat)
      (if nr ∧ ¬x.w2.ord.toNat % 2 = 1 then none else some s1.1)
      (List.zipWith (fun (a : Acc) u => (a, Pay.atom a.at (x.sub.toNat % 32) (fld x.mod 4 0) (BitVec.ofNat 64 (rdOp (viewOf s).warp u x.c x.bits))
        (BitVec.ofNat 64 (rdOp (viewOf s).warp u x.e x.bits)))) as (memThreads 0x78 x (viewOf s))) s1.2 = .ok rs s2 →
    (∀ r ∈ rs, r.2.1.isSome = true) →
    ∃ t, exec (.atom x) s = .next t ∧ t.mem = s2.mem ∧ t.desc = s2.desc ∧ t.loads.length = s2.loads.length ∧
      MovesTo x s t (if nr then viewOf s else (viewOf s).place x x.d x.ty.bytes (rs.map fun r => (r.1, r.2.1.getD 0, 0, r.2.2)))) ∧
  -- one location: the old value is answered and the new one written
  (∀ (s : State) core ctx pa op ty c e pts, SMap.wf (0 : Byte) s.mem = true → isFlistad pa = true → s.frag? pa = none → s.poisonedAt pa = false →
    pa % 64 + ty.bits / 8 ≤ 64 → 8 ≤ ty.bits →
    (s.atomAt core ctx pa op ty c e pts).1 = s.rdNat pa (ty.bits / 8) ∧
    (s.atomAt core ctx pa op ty c e pts).2.rdNat pa (ty.bits / 8) = atomNew op ty (s.rdNat pa (ty.bits / 8)) c e % 256 ^ (ty.bits / 8)) ∧
  (∀ p ∈ [(Instr.atom, 0x78#8), (.atoms, 0x79#8), (.atomp, 0x7A#8), (.sc, 0x7C#8)], ∀ x s, Enabled p.2 x s → active x s = [] →
    ∃ t, exec (p.1 x) s = .next t ∧ EndsView x s t (viewOf s)))

/-- R283, R284: SC performs the store of a thread that still holds its reservation on the block and answers true; of one that does not, it performs nothing
and answers false; either way the reservation has ended.
R281, R282: atomics of scratch act in slot order, each thread on what the one before it left, and put what each found in D or say it in a predicate;
one thread's word then holds its new value. -/
def Obligations.ReservationsAndScratchAtomics : Prop :=
  ((∀ (s : State) (p : Packet) pa size v, p.pay = .sc pa size v → s.holdsResv p.gid p.tid (s.blk pa) = false →
    (s.performPay p).1 = 0 ∧ (s.performPay p).2.mem = s.mem ∧ (s.performPay p).2.holdsResv p.gid p.tid (s.blk pa) = false) ∧
  (∀ (s : State) (p : Packet) pa size v, p.pay = .sc pa size v → s.holdsResv p.gid p.tid (s.blk pa) = true →
    (s.performPay p).1 = 1 ∧ (s.performPay p).2.mem = (s.storeBlock p.core p.ctx pa (cellsOf pa size v.toNat) .raw (s.carries p)).mem ∧
    (s.performPay p).2.holdsResv p.gid p.tid (s.blk pa) = false) ∧
  -- a reservation holds for 4,096 cycles
  (∀ (s : State) gid tid blk, s.holdsResv gid tid blk = true ↔ ∃ g u r, s.group? gid = some g ∧ g.thread? tid = some u ∧ u.resv = some r ∧ r.1 = blk ∧
    s.cyclesOf (gidDie gid) < r.2 + 4096) ∧
  (∀ x s as, Enabled 0x7C x s → memThreads 0x7C x (viewOf s) ≠ [] →
    collect ((wantsOf 0x7C x s (x.bits / 8) 2 (x.bits / 8) fun w u => memAddr x w u (x.bits / 8)).map fun q => (q, checkRmw s (who s) (who s).owner true false q)) = .ok as →
    (xlatWait s (who s).core (who s).ctx as || loadsWait s (who s).core as) = false →
    -- no thread holds its reservation
    (∀ a ∈ as, s.holdsResv (who s).gid a.tid (s.blk a.pa) = false) →
    ∃ t, exec (.sc x) s = .next t ∧ KeepsMemory s t ∧ t.packets = s.packets ∧ t.pairsOf (who s).gid = s.pairsOf (who s).gid ∧
      (after s t).ths.map (fun u => (u.pc, u.v)) = (viewOf s).ths.map (fun u => (nextPc x s, u.v)) ∧
      (after s t).ths.map Thread.preds = (viewOf s).ths.map fun u => if as.any fun a => a.tid == u.tid then (u.wrPf x.d false).preds else u.preds) ∧
  -- one thread that holds it, on a block outside every fragment with nothing before it
  (∀ x s u a, Enabled 0x7C x s → memThreads 0x7C x (viewOf s) = [u] → Canonical s →
    collect ((wantsOf 0x7C x s (x.bits / 8) 2 (x.bits / 8) fun w u => memAddr x w u (x.bits / 8)).map fun q => (q, checkRmw s (who s) (who s).owner true false q)) = .ok [a] →
    (xlatWait s (who s).core (who s).ctx [a] || loadsWait s (who s).core [a]) = false → s.holdsResv (who s).gid a.tid (s.blk a.pa) = true →
    isFlistad a.pa = true → s.poisonedAt a.pa = false → s.waitsAt a.pa = false → s.frag? a.pa = none → a.pa % 64 + x.bits / 8 ≤ 64 → x.bits ≤ 64 →
    s.pairRoom (who s) x.w2.ch.toNat (s.destOf a) 1 = true →
    s.chanDeps (who s) a.tid x.w2.ch.toNat (s.destOf a) (decide (2 ≤ x.w2.ord.toNat)) x.w2.scope.toNat a.pa none = [] →
    ∃ t, exec (.sc x) s = .next t ∧ t.rdNat a.pa (x.bits / 8) = rdOp (viewOf s).warp u x.c x.bits % 256 ^ (x.bits / 8) ∧
      (after s t).ths.map (fun u => (u.pc, u.v)) = (viewOf s).ths.map (fun u => (nextPc x s, u.v)) ∧
      (after s t).ths.map Thread.preds = (viewOf s).ths.map (fun k => if k.tid = a.tid then (k.wrPf x.d true).preds else k.preds) ∧
      t.holdsResv (who s).gid a.tid (s.blk a.pa) = false)) ∧
  ((∀ p ∈ [(Instr.atoms, 0x79#8), (.atomp, 0x7A#8)], ∀ x s g, Enabled p.2 x s → s.group? (who s).gid = some g → g.pure = none →
    let op := p.2.toNat
    let n := if op = 0x79 then x.ty.bytes else x.bits / 8
    let off (u : Thread) : Nat := memAddr32 x (viewOf s).warp u n
    let new (u : Thread) (old : Nat) : Option Nat := if op = 0x79 then
        some (atomNew (x.sub.toNat % 32) x.ty old (rdOp (viewOf s).warp u x.c x.bits) (rdOp (viewOf s).warp u x.e x.bits))
      else atompNew x (viewOf s).warp u old
    let ths := memThreads op x (viewOf s)
    ths ≠ [] → relWait s g.gid x ths = false →
    ∀ own : Thread → Nat × Nat, (∀ u ∈ ths, checkScratch s g (off u) n 3 n = .ok (own u).1 (own u).2 ∧
        ((s.group? (own u).1).any fun h => h.scr.poison.contains ((own u).2 / 64)) = false) →
    let r := scratchRmwAll n (fun tid => releasePts s (who s) ((viewOf s).ths.find? fun u => u.tid == tid) x.w2.ord.toNat x.w2.scope.toNat)
      (ths.map fun u => (u, (own u).1, (own u).2, new u)) s
    ∃ t, exec (p.1 x) s = .next t ∧ t.mem = r.2.mem ∧ t.desc = r.2.desc ∧
      MovesTo x s t (if op = 0x79 then (if 32 ≤ x.sub.toNat then viewOf s else (viewOf s).place x x.d n (r.1.map fun q => (q.1, q.2.1, 0, q.2.2)))
        else ⟨(viewOf s).warp, (viewOf s).ths.map fun u => match r.1.find? (fun q => q.1 == u.tid) with
          | some q => { u.wrPf x.d (atompResult x (viewOf s).warp u q.2.1) with seenPts := tsJoin u.seenPts q.2.2 }
          | none => u⟩) ∧
      (∀ h, (t.group? h).map (fun k => k.scr) = (r.2.group? h).map fun k => k.scr) ∧
      ∀ u h, ths = [u] → s.group? (own u).1 = some h → h.frameRun = none →
        r.1.map (fun q => (q.1, q.2.1)) = [(u.tid, h.scr.num (own u).2 n)] ∧ t.mem = s.mem ∧
        (t.group? (own u).1).map (fun k => k.scr) = some (match new u (h.scr.num (own u).2 n) with
          | some v => h.scr.put ((own u).2 / 64) (cellsOf (own u).2 n v) .raw
          | none => h.scr)) ∧
  -- R282's bits: set and clear one, or compare and swap; the predicate is the bit before, or whether the swap was made
  (∀ x w u old, x.sub.toNat = 0 → atompNew x w u old = some (old ||| 2 ^ (rdOp w u x.c 32 % x.bits)) ∧ atompResult x w u old = old.testBit (rdOp w u x.c 32 % x.bits)) ∧
  (∀ x w u old k, x.sub.toNat = 1 → ∃ r, atompNew x w u old = some r ∧ r.testBit k = (old.testBit k && k != rdOp w u x.c 32 % x.bits) ∧
    atompResult x w u old = old.testBit (rdOp w u x.c 32 % x.bits)) ∧
  (∀ x w u old, x.sub.toNat = 2 → atompNew x w u old = (if old = rdOp w u x.c x.bits then some (rdOp w u x.e x.bits) else none) ∧
    atompResult x w u old = decide (old = rdOp w u x.c x.bits)))

/-- R287 to R289: PREF, CINV and, where its addresses translate, CFLUSH complete; they change no register, and only CFLUSH, which writes back what the
cluster holds under its own write claim, may change memory. -/
def Obligations.CacheMaintenance : Prop :=
  (∀ p ∈ [(Instr.pref, 0x7D#8), (.cinvLine, 0x7F#8), (.cinvAll, 0x7F#8)], ∀ x s, Enabled p.2 x s →
    ∃ t, exec (p.1 x) s = .next t ∧ EndsWith x s t (viewOf s).warp (viewOf s).ths ∧ KeepsMemory s t) ∧
  (∀ x s as, Enabled 0x7E x s → collect ((memThreads 0x7E x (viewOf s)).map fun u =>
      let va := memAddr x (viewOf s).warp u 256
      (({ tid := u.tid, slot := u.slot, va := va, size := 1, acc := 1, align := 1 } : Want),
        if isFabric va then AccRes.ok { tid := u.tid, slot := u.slot, va := va, size := 1, pa := 0, fab := some (0, 0) }
        else if s.inDeadWin (who s).ctx va then .bad 2 (xlateFlt va 1 0 0 0)
        else match translate s (who s).owner ((who s).die % 8) (who s).ctx va 1 with
          | .ok r => .ok { tid := u.tid, slot := u.slot, va := va, size := 1, pa := r.pa, fills := r.fills }
          | .fail f => .bad 2 f
          | .recall f => .recall f
          | .blocked => .blocked)) = .ok as →
    ∃ t, exec (.cflush x) s = .next t ∧ EndsWith x s t (viewOf s).warp (viewOf s).ths ∧ t.frags = s.frags ∧ t.packets = s.packets ∧
      ∀ a ∈ as, a.fab = none → ∀ b ∈ lineBlocks a.pa, s.ownWrite (who s).core (who s).ctx (b * 64) = true →
        ∀ h ∈ (t.cluster (who s).cl).held, h.blk ≠ s.blk (b * 64)) ∧
  -- an own-claim line is written back and stays claimed
  (∀ (s : State) cl blocks, (s.writeBack cl blocks).frags = s.frags ∧ ∀ h ∈ ((s.writeBack cl blocks).cluster cl).held, h.blk ∉ blocks)

/-! ## Handles, claims, watchpoints -/

/-- R303, R306, R140, R304, R159: TMAKE and TSPLIT make a handle of a record that passes R140, under the lowest free ID, write the ID to D and leave every other
handle; TFREE ends the handle and what names it.
R302, R307: an instruction that names no live handle raises HANDLE, cause 5 for a value at or above 2^16 and 1 otherwise; TINFO writes the view its SUB names. -/
def Obligations.Handles : Prop :=
  (-- a handle of the record `rec`, made in `s'`: what TMAKE and TSPLIT do with a record that passes the checks of R140, and with one that does not
  let made (i : Instr) (x : Enc) (s s' : State) (rec : BitVec 512) (named : Nat) : Prop :=
    (rgnBad rec = true → exec i s = .next (takeFault (handleFlt named 2) s')) ∧
    ∀ s1 bs id, rgnBad rec = false → claimSet (who s') (rgnBlocks rec) s' = .ok bs s1 →
      let blocks := (bs.foldl (fun (m : SMap Unit) b => m.insert b ()) []).map (·.1)
      let h : Handle := { ctx := (who s').ctx, id := id, region := rec, blocks := blocks }
      (∀ b ∈ blocks, s'.waitsAt (b * 64) = false) → (s1.handles.filter fun h => h.ctx == (who s').ctx).length < 4096 → s1.freeId (who s').ctx = some id →
      (¬(s1.newFrags h = 0 ∨ (s1.fragsOfCtx h.ctx).length + s1.guestClaims h.ctx + s1.newFrags h ≤ fld (s1.context h.ctx).img 351 320) →
        exec i s = .next (takeFault (quotaFlt 2) s')) ∧
      (s1.newFrags h = 0 ∨ (s1.fragsOfCtx h.ctx).length + s1.guestClaims h.ctx + s1.newFrags h ≤ fld (s1.context h.ctx).img 351 320 →
        ∃ t, exec i s = .next t ∧ MovesTo x s t ⟨(viewOf s).warp.wrOp x.d 64 id, (viewOf s).ths⟩ ∧ t.handle? h.ctx id = some h ∧
          ∀ c j, ¬(c = h.ctx ∧ j = id) → t.handle? c j = s1.handle? c j)
  (∀ x s u us rec s', Enabled 0xA0 x s → active x s = u :: us → pureNow s = none → RecordRead s u (memAddr x (viewOf s).warp u 64) 64 64 rec s' →
    made (.tmake x) x s s' (BitVec.ofNat 512 rec) 0) ∧
  (∀ x s u us h rec s', Enabled 0xA4 x s → active x s = u :: us → pureNow s = none → s.handleAt (rdU (viewOf s).warp x.a) = .ok h →
    RecordRead s u (rdU (viewOf s).warp x.b) 32 32 rec s' →
    (subRegion h.region rec = none → exec (.tsplit x) s = .next (takeFault (handleFlt h.id 4) s')) ∧
    ∀ reg, subRegion h.region rec = some reg → made (.tsplit x) x s s' reg h.id) ∧
  (∀ (s : State) ctx id, s.freeId ctx = some id → 1 ≤ id ∧ id ≤ 65535 ∧ s.handle? ctx id = none ∧ ∀ j, 1 ≤ j → j < id → (s.handle? ctx j).isSome = true) ∧
  (∀ x s h, Enabled 0xA1 x s → active x s ≠ [] → pureNow s = none → s.handleAt (rdU (viewOf s).warp x.a) = .ok h →
    (∀ f ∈ s.freeDrops h, (∀ n c, f.holder ≠ some (.guest n, c)) ∧ ∀ b ∈ f.blocks, s.waitsAt (b * 64) = false) →
    ∃ t, exec (.tfree x) s = .next t ∧ MovesOn x s t ∧ t.handle? h.ctx h.id = none ∧ (∀ c j, ¬(c = h.ctx ∧ j = h.id) → t.handle? c j = s.handle? c j) ∧
      ∀ w ∈ (t.context h.ctx).watches, w.handle = h.id → w.handle = 0) ∧
  (∀ p ∈ [(Instr.tmake, 0xA0#8), (.tfree, 0xA1#8), (.tsplit, 0xA4#8)], ∀ x s, Enabled p.2 x s → active x s ≠ [] → (pureNow s).isSome = true →
    exec (p.1 x) s = .next (takeFault (pureFlt 7) s)) ∧
  (∀ p ∈ [(Instr.tmake, 0xA0#8), (.tfree, 0xA1#8), (.tclaimRd, 0xA2#8), (.tclaimWr, 0xA2#8), (.tdrop, 0xA3#8), (.tsplit, 0xA4#8), (.tinfo, 0xA5#8)], ∀ x s,
    Enabled p.2 x s → active x s = [] → ∃ t, exec (p.1 x) s = .next t ∧ EndsView x s t (viewOf s))) ∧
  ((∀ (s : State) (v : Word64), 2 ^ 16 ≤ v.toNat → s.handleAt v = .error (handleFlt (v.toNat % 2 ^ 16) 5)) ∧
  (∀ (s : State) (v : Word64), v.toNat < 2 ^ 16 → s.handle? (who s).ctx v.toNat = none → s.handleAt v = .error (handleFlt v.toNat 1)) ∧
  (∀ (s : State) (v : Word64) h, v.toNat < 2 ^ 16 → s.handle? (who s).ctx v.toNat = some h → s.handleAt v = .ok h) ∧
  (∀ p ∈ [(Instr.tfree, 0xA1#8), (.tdrop, 0xA3#8), (.tinfo, 0xA5#8)], ∀ x s f, Enabled p.2 x s → active x s ≠ [] → (p.2 = 0xA1 → pureNow s = none) →
    s.handleAt (rdU (viewOf s).warp x.a) = .error f → exec (p.1 x) s = .next (takeFault f s)) ∧
  (∀ x s h, Enabled 0xA5 x s → active x s ≠ [] → s.handleAt (rdU (viewOf s).warp x.a) = .ok h → ∃ t, exec (.tinfo x) s = .next t ∧
    EndsView x s t ⟨(viewOf s).warp.wrOp x.d 64 (match x.sub.toNat with
      | 0 => (s.handleVer h).toNat
      | 1 => fld h.region 71 64 * 2 ^ 8 + fld h.region 79 72
      | 2 => fld h.region 191 160 * 2 ^ 32 + fld h.region 159 128
      | 3 => fld h.region 255 224 * 2 ^ 32 + fld h.region 223 192
      | 4 => fld h.region 63 0
      | _ => (s.fragsOf h).length * 2 ^ 32 + (
        let cs := (s.fragsOf h).map fun f => (s.cluster (who s).cl).claim? f.id (who s).ctx
        if cs.all Option.isNone then 0 else if cs.all (fun c => c.any fun k => !k.write) then 1 else if cs.all (fun c => c.any Claim.write) then 2 else 3)), (viewOf s).ths⟩))

/-- R146, R149, R304, R305: a claim that meets no other write holder is granted on every fragment at once and its version written to D; one that does asks for
the recall and waits; TDROP drops what the cluster holds.
R145, R154: logical time compares by the shorter way round; the maximum of two is one of them. -/
def Obligations.Claims : Prop :=
  ((∀ p ∈ [(Instr.tclaimRd, false), (.tclaimWr, true)], ∀ x s h, Enabled 0xA2 x s → active x s ≠ [] → (p.2 = false → (bU x (viewOf s).warp).toNat ≤ 255) →
    s.handleAt (rdU (viewOf s).warp x.a) = .ok h → pureNow s = none →
    let s0 := s.visitHandle h
    let fs := byBlock (s0.fragsOf h)
    let w := who s
    fs.length ≤ 1024 → (∀ b ∈ h.blocks, s.waitsAt (b * 64) = false) →
    ((∀ f ∈ fs, f.holder = none ∨ f.holder = some (.cluster w.cl, w.ctx)) →
      let lease := if p.2 = false ∧ (bU x (viewOf s).warp).toNat ≠ 0 then (bU x (viewOf s).warp).toNat else (viewOf s).warp.lease.toNat
      let s1 := s0.makeRoom w.cl w.ctx (claimNeed (s0.cluster w.cl) w.ctx fs) (fs.map Frag.id) (s0.cluster w.cl).claims.length
      let s2 := if p.2 then claimWrite w.cl w.ctx lease fs s1 else claimRead w.cl w.ctx lease fs s1
      ∃ t, exec (p.1 x) s = .next t ∧ MovesTo x s t ⟨(viewOf s).warp.wrOp x.d 64 (t.handleVer h).toNat, (viewOf s).ths⟩ ∧
        t.frags = s2.frags ∧ (t.cluster w.cl).claims = (s2.cluster w.cl).claims ∧ (t.cluster w.cl).pts = (s2.cluster w.cl).pts ∧ t.handles = s2.handles) ∧
    ((∃ f ∈ fs, f.holder.isSome = true ∧ f.holder ≠ some (.cluster w.cl, w.ctx)) →
      ∃ t, exec (p.1 x) s = .next t ∧ Stalls s t ∧ (t.cluster w.cl).claims = (s.cluster w.cl).claims ∧
        ∀ f ∈ fs, f.holder.isSome = true → f.holder ≠ some (.cluster w.cl, w.ctx) → ∃ g ∈ t.frags, g.id = f.id ∧ g.recalled = true)) ∧
  (∀ (s : State) cl ctx lease fs, let t := fs.foldl (fun p (f : Frag) => tsMax p (f.rts + 1)) (s.cluster cl).pts
    ((claimWrite cl ctx lease fs s).cluster cl).pts = t ∧
    ∀ f ∈ fs, (s.frags.find? fun g => g.id == f.id).isSome = true → ∃ g, (claimWrite cl ctx lease fs s).frags.find? (fun g => g.id == f.id) = some g ∧
      g.holder = some (.cluster cl, ctx) ∧ g.wts = t ∧ g.rts = t) ∧
  (∀ (s : State) cl ctx lease fs, let fs' := fs.filter fun f : Frag => f.holder != some (.cluster cl, ctx)
    let t := fs'.foldl (fun p (f : Frag) => tsMax p f.wts) (s.cluster cl).pts
    ((claimRead cl ctx lease fs s).cluster cl).pts = t ∧
    ∀ f ∈ fs', ∀ f0, (s.frags.find? fun g => g.id == f.id) = some f0 → ∃ g, (claimRead cl ctx lease fs s).frags.find? (fun g => g.id == f.id) = some g ∧
      g.holder = f0.holder ∧ g.wts = f0.wts ∧ g.rts = tsMax f0.rts (t + BitVec.ofNat 24 lease)) ∧
  (∀ x s h, Enabled 0xA3 x s → active x s ≠ [] → s.handleAt (rdU (viewOf s).warp x.a) = .ok h →
    let w := who s
    let fs := (s.fragsOf h).filter fun f => ((s.cluster w.cl).claim? f.id w.ctx).isSome
    (∀ f ∈ fs, f.holder = some (.cluster w.cl, w.ctx) → ∀ b ∈ f.blocks, s.waitsAt (b * 64) = false) →
    ∃ t, exec (.tdrop x) s = .next t ∧ MovesOn x s t ∧ t.handles = s.handles ∧
      ∀ f ∈ fs, (t.cluster w.cl).claim? f.id w.ctx = none ∧ (f.holder = some (.cluster w.cl, w.ctx) →
        ∀ g, t.frags.find? (fun g => g.id == f.id) = some g → g.holder ≠ some (.cluster w.cl, w.ctx))) ∧
  (∀ x s h, Enabled 0xA3 x s → active x s ≠ [] → s.handleAt (rdU (viewOf s).warp x.a) = .ok h →
    (∃ f ∈ s.fragsOf h, ((s.cluster (who s).cl).claim? f.id (who s).ctx).isSome = true ∧ f.holder = some (.cluster (who s).cl, (who s).ctx) ∧ ∃ b ∈ f.blocks, s.waitsAt (b * 64) = true) →
    ∃ t, exec (.tdrop x) s = .next t ∧ Stalls s t)) ∧
  ((∀ a b : BitVec 24, tsLater a b = decide (1 ≤ (a.toNat + 2 ^ 24 - b.toNat) % 2 ^ 24 ∧ (a.toNat + 2 ^ 24 - b.toNat) % 2 ^ 24 ≤ 2 ^ 23 - 1)) ∧
  (∀ a b : BitVec 24, ¬(tsLater a b = true ∧ tsLater b a = true)) ∧ (∀ a : BitVec 24, tsLater a a = false) ∧
  (∀ a b : BitVec 24, tsLater (a + 1) a = true ∧ (tsMax a b = a ∨ tsMax a b = b) ∧ tsLater b (tsMax a b) = false))

/-- R309 to R312: WSET of a legal mode over a live handle sets the watchpoint, its hits at zero; WCLR clears it; WSTAT's fields. -/
def Obligations.Watchpoints : Prop :=
  (∀ m, watchModeOk m = true ↔ m < 128 ∧ (m.testBit 0 = true ∨ m.testBit 1 = true) ∧ 4 ≤ m ∧ (m.testBit 4 = true → m.testBit 0 = true) ∧
    (m.testBit 5 = true → m.testBit 1 = true)) ∧
  (∀ x s, Enabled 0xA8 x s → active x s ≠ [] → watchModeOk (bU x (viewOf s).warp).toNat = false → exec (.wset x) s = .next (takeFault (ownIll 0xA8 x) s)) ∧
  (∀ x s h, Enabled 0xA8 x s → active x s ≠ [] → watchModeOk (bU x (viewOf s).warp).toNat = true → s.handleAt (rdU (viewOf s).warp x.a) = .ok h →
    pureNow s = none → ((bU x (viewOf s).warp).toNat.testBit 6 = true → s.guestsOn h = []) →
    ∃ t, exec (.wset x) s = .next t ∧ (x.d.toNat < (s.context (who s).ctx).watches.length →
      (t.context (who s).ctx).watches.getD x.d.toNat {} = { handle := h.id, mode := BitVec.ofNat 7 (bU x (viewOf s).warp).toNat, hits := 0 }) ∧
      EndsWith x s t (viewOf s).warp (viewOf s).ths ∧ KeepsMemory s t) ∧
  (∀ x s, Enabled 0xA9 x s → active x s ≠ [] → pureNow s = none → ∃ t, exec (.wclr x) s = .next t ∧
    (t.context (who s).ctx).watches.getD x.d.toNat {} = {} ∧ EndsWith x s t (viewOf s).warp (viewOf s).ths ∧ KeepsMemory s t) ∧
  (∀ x s, Enabled 0xAA x s → active x s ≠ [] → let w := (s.context (who s).ctx).watches.getD x.a.toNat {}
    ∃ t, exec (.wstat x) s = .next t ∧ EndsView x s t ⟨(viewOf s).warp.wrOp x.d 64
      (w.handle + w.mode.toNat * 2 ^ 16 + (if w.handle = 0 then 0 else 2 ^ 23) + w.hits.toNat * 2 ^ 24), (viewOf s).ths⟩) ∧
  (∀ p ∈ [(Instr.wset, 0xA8#8), (.wclr, 0xA9#8), (.wstat, 0xAA#8)], ∀ x s, Enabled p.2 x s → active x s = [] →
    ∃ t, exec (p.1 x) s = .next t ∧ EndsView x s t (viewOf s)) ∧
  -- a reported hit counts, to 0xFFFF at most
  (∀ (s : State) ctx i w, ((s.context ctx).watches)[i]? = some w →
    (((s.countHit ctx i).context ctx).watches)[i]? = some { w with hits := if w.hits = 0xFFFF then 0xFFFF else w.hits + 1 })

/-! ## The engines and the queues -/

/-- R321, R322, R318, R326, R164: CPY and CPYM read their layout record, check it, and post a copy with what they captured: it stands last in the cluster's queue,
its registers are pending, and the warp goes on. A barrier the group does not have, a bad D of `.crc`, a bad layout and a coordinate beyond RANK
raise ILL, a misaligned scratch offset or destination ALIGN; with a full queue the warp waits.
R323, R164: CPYL checks its length and addresses and posts a linear copy. -/
def Obligations.Copies : Prop :=
  ((∀ p ∈ [(Instr.cpy, 0xB0#8), (.cpym, 0xB2#8)], ∀ x s, Enabled p.2 x s → active x s = [] → ∃ t, exec (p.1 x) s = .next t ∧
    EndsWith x s t (viewOf s).warp (viewOf s).ths ∧ KeepsMemory s t ∧ t.clusters.map (fun c => c.2.copyQ) = s.clusters.map fun c => c.2.copyQ) ∧
  (∀ p ∈ [(Instr.cpy, 0xB0#8), (.cpyl, 0xB1#8), (.cpym, 0xB2#8)], ∀ x s, Enabled p.2 x s → active x s ≠ [] → copyIll x s = true →
    exec (p.1 x) s = .next (takeFault (ownIll p.2.toNat x) s)) ∧
  (∀ p ∈ [(Instr.cpy, 0xB0#8, false), (.cpym, 0xB2#8, true)], ∀ x s u us rec s1, Enabled p.2.1 x s → active x s = u :: us → copyIll x s = false →
    RecordRead s u (rdU (viewOf s).warp x.a) 64 64 rec s1 →
    let l := BitVec.ofNat 512 rec
    let kind := if p.2.2 then .g2s else cpyKind x.subN
    let half (f : BitVec 8) (i : Nat) : Int := ((rdU (viewOf s).warp f).extractLsb' (32 * i) 32).toInt
    let co := [half x.b 0, half x.b 1, half x.c 0, half x.c 1]
    let e := rdU (viewOf s).warp x.e
    let bad := layBad l kind = true ∨ (kind = .s2g ∧ boxOver s1 (who s).gid l (e.toNat % 2 ^ 32) = true) ∨ (∃ n ∈ co.drop (layRank l), n ≠ 0)
    let odd := e.toNat % 64 ≠ 0 ∨ (kind = .s2s ∧ fld l 31 0 % 64 ≠ 0)
    (bad → exec (p.1 x) s = .next (takeFault (ownIll p.2.1.toNat x) s1)) ∧
    (¬bad → odd → exec (p.1 x) s = .next (takeFault (alignFlt e 0 64) s1)) ∧
    (¬bad → ¬odd → copyEntry s1 (who s1).gid = none → ∃ t, exec (p.1 x) s = .next t ∧ t.cur.stalled = true ∧ (after s t).ths = (viewOf s).ths ∧ t.mem = s1.mem ∧
      (t.cluster (gidCl (who s).gid)).copyQ = (s1.cluster (gidCl (who s).gid)).copyQ) ∧
    (∀ sh g w, ¬bad → ¬odd → s.cur.agent = .warp g w → copyEntry s1 g = some sh → ∃ t into, exec (p.1 x) s = .next t ∧ t.mem = s1.mem ∧ t.desc = s1.desc ∧
      (t.cluster (gidCl g)).copyQ = (s1.cluster (gidCl g)).copyQ ++ [
        { id := s1.nextId, gid := g, dreg := x.d.toNat - 0xC0, kind := kind, linear := false, isM := p.2.2, layout := l, coord := co
          dst := if kind = .g2g then e else BitVec.ofNat 64 (e.toNat % 2 ^ 32), crc := x.sub.getLsbD 2, ev := x.mod.getLsbD 7
          bar := if x.mod.getLsbD 6 then some (fld x.mod 5 0) else none, cap := captOf s1 x (viewOf s) u.tid, shared := sh, into := into }] ∧
      MovesTo x s t ⟨(viewOf s).warp.owe s1.nextId (if x.sub.getLsbD 2 then [x.d.toNat - 0xC0, x.d.toNat - 0xC0 + 1] else [x.d.toNat - 0xC0]), (viewOf s).ths⟩)) ∧
  -- what a command captures (R314)
  (∀ s x v tid, let k := captOf s x v tid
    k.rmode = v.warp.rmode ∧ k.dmode = v.warp.dmode ∧ k.ch = x.w2.ch.toNat ∧ k.scope = x.w2.scope ∧ k.ord = x.w2.ord ∧ k.hint = x.w2.hint ∧
    k.gs = (if x.w2.gse then some x.w2.gs.toNat else none) ∧ k.pc = s.cur.pc ∧ k.tid = tid ∧ k.wid = (who s).wid)) ∧
  ((∀ x s, Enabled 0xB1 x s → active x s = [] → ∃ t, exec (.cpyl x) s = .next t ∧ EndsView x s t (viewOf s)) ∧
  ∀ x s u us, Enabled 0xB1 x s → active x s = u :: us → copyIll x s = false →
    let a := rdU (viewOf s).warp x.a
    let b := rdU (viewOf s).warp x.b
    let n := (rdU (viewOf s).warp x.c).toNat
    let kind := cpylKind x.subN
    let bad := ¬(16 ≤ n ∧ n ≤ 2 ^ 40 - 16 ∧ n % 16 = 0)
    (bad → exec (.cpyl x) s = .next (takeFault (ownIll 0xB1 x) s)) ∧
    (¬bad → a.toNat % 16 ≠ 0 → exec (.cpyl x) s = .next (takeFault (alignFlt a 1 16) s)) ∧
    (¬bad → a.toNat % 16 = 0 → b.toNat % 16 ≠ 0 → exec (.cpyl x) s = .next (takeFault (alignFlt b 2 16) s)) ∧
    (¬bad → a.toNat % 16 = 0 → b.toNat % 16 = 0 → copyEntry s (who s).gid = none → ∃ t, exec (.cpyl x) s = .next t ∧ Stalls s t) ∧
    ∀ sh g w, ¬bad → a.toNat % 16 = 0 → b.toNat % 16 = 0 → s.cur.agent = .warp g w → copyEntry s g = some sh → ∃ t into, exec (.cpyl x) s = .next t ∧
      t.mem = s.mem ∧ t.desc = s.desc ∧
      (t.cluster (gidCl g)).copyQ = (s.cluster (gidCl g)).copyQ ++ [
        { id := s.nextId, gid := g, dreg := x.d.toNat - 0xC0, kind := kind, linear := true
          src := if kind = .g2g ∨ kind = .g2s then a else BitVec.ofNat 64 (a.toNat % 2 ^ 32)
          dst := if kind = .g2g ∨ kind = .s2g then b else BitVec.ofNat 64 (b.toNat % 2 ^ 32)
          len := n, crc := x.sub.getLsbD 2, ev := x.mod.getLsbD 7, bar := if x.mod.getLsbD 6 then some (fld x.mod 5 0) else none
          cap := captOf s x (viewOf s) u.tid, shared := sh, into := into }] ∧
      MovesTo x s t ⟨(viewOf s).warp.owe s.nextId (if x.sub.getLsbD 2 then [x.d.toNat - 0xC0, x.d.toNat - 0xC0 + 1] else [x.d.toNat - 0xC0]), (viewOf s).ths⟩)

/-- R327, R169: GSLOT sets a guard slot to true, false, unresolved, or the leader's predicate, and leaves the others; what a copy, pass, epilogue or guest
command of the group is held on the slot is decided at that moment.
R343, R344, R476, R169: GPOST reads 64 bytes of scratch, refuses a packet of the device's own opcodes, or of the tool opcodes in U mode, and otherwise posts the packet,
stamped with context, channel and order, its register pending: it goes out at once where nothing holds it, ends at once on a false guard slot or an absent guest, and else waits at
its site. -/
def Obligations.GuardsAndGuestPosts : Prop :=
  ((∀ p ∈ [(Instr.gslotT, 0), (.gslotF, 1), (.gslotU, 2), (.gslotP, 3)], ∀ x s u us gr, Enabled 0xB3 x s → active x s = u :: us → s.group? (who s).gid = some gr →
    gr.frameRun = none → x.d.toNat < gr.guards.length →
    let val : Option Bool := if p.2 = 0 then some true else if p.2 = 1 then some false else if p.2 = 2 then none else some (u.rdPf x.a)
    ∃ t, exec (p.1 x) s = .next t ∧ t.mem = s.mem ∧ t.desc = s.desc ∧
      (after s t).ths.map (fun u => (regsOf u, u.pc)) = (viewOf s).ths.map (fun u => (regsOf u, nextPc x s)) ∧
      (t.group? (who s).gid).map (fun k => k.guards) = some (gr.guards.set x.d.toNat val) ∧
      let c := t.cluster (gidCl (who s).gid)
      (val.isSome = true → (∀ k ∈ c.copyQ, k.gid = (who s).gid → k.cap.gs ≠ some x.d.toNat) ∧ (∀ k ∈ c.mma, k.gid = (who s).gid → k.cap.gs ≠ some x.d.toNat) ∧
        ∀ k ∈ c.epiQ, k.gid = (who s).gid → k.cap.gs ≠ some x.d.toNat) ∧
      (val ≠ some false → c.copyQ.map CopyCmd.id = (s.cluster (gidCl (who s).gid)).copyQ.map CopyCmd.id ∧ arch (after s t).warp = arch (viewOf s).warp)) ∧
  (∀ i ∈ [Instr.gslotT, .gslotF, .gslotU, .gslotP], ∀ x s, Enabled 0xB3 x s → active x s = [] → ∃ t, exec (i x) s = .next t ∧ EndsView x s t (viewOf s)) ∧
  (∀ (s : State) g (gr : Group) d val, s.group? g = some gr → d < gr.guards.length →
    ((s.setGuard g d val).group? g).map (fun k => k.guard d) = some val ∧
    (val.isSome = true → let c := (s.setGuard g d val).cluster (gidCl g)
      (∀ k ∈ c.copyQ, k.gid = g → k.cap.gs ≠ some d) ∧ (∀ k ∈ c.mma, k.gid = g → k.cap.gs ≠ some d) ∧ (∀ k ∈ c.epiQ, k.gid = g → k.cap.gs ≠ some d)))) ∧
  ((∀ x s, Enabled 0xD2 x s → active x s = [] → ∃ t, exec (.gpost x) s = .next t ∧ EndsView x s t (viewOf s)) ∧
  (∀ x s u us g gid o, Enabled 0xD2 x s → active x s = u :: us → s.group? (who s).gid = some g →
    let off := (rdU (viewOf s).warp x.a).toNat % 2 ^ 32
    let va := BitVec.ofNat 64 off
    checkScratch s g off 64 1 64 = .ok gid o →
    let scr := ((s.group? gid).map Group.scr).getD { base := 0, size := 0 }
    let img := (scr.sec o).data.toNat
    (g.pure.isSome = true → exec (.gpost x) s = .next (takeFaultAt u.tid u.slot (pureFlt 3) s)) ∧
    (g.pure = none → scr.poison.contains (o / 64) = true → exec (.gpost x) s = .next (takeFaultAt u.tid u.slot (poisonFlt va 1 2) s)) ∧
    (g.pure = none → scr.poison.contains (o / 64) = false → ((0x8000 ≤ img % 2 ^ 16 ∧ img % 2 ^ 16 < 0x8100) ∨ (0x8100 ≤ img % 2 ^ 16 ∧ (who s).level = 0)) →
      exec (.gpost x) s = .next (takeFaultAt u.tid u.slot (permFlt va 1 0 0) s)) ∧
    (g.pure = none → scr.poison.contains (o / 64) = false → (img % 2 ^ 16 < 0x8000 ∨ (0x8100 ≤ img % 2 ^ 16 ∧ (who s).level ≠ 0)) → g.frameRun = none →
      let pkt := stampPacket img (who s).ctx x.w2.ch.toNat x.w2.ord x.w2.scope
      let site (k : State) : Site := k.site x.subN
      let guard : Option Bool := if x.w2.gse then g.guard x.w2.gs.toNat else some true
      let d := x.d.toNat - 0xC0
      let moves (t : State) : Prop := (after s t).ths.map (fun u => (regsOf u, u.pc)) = (viewOf s).ths.map (fun u => (regsOf u, nextPc x s)) ∧ t.mem = s.mem
      let ended (t : State) (word : Word64) : Prop := moves t ∧ (site t).cmds.map GuestCmd.id = ((site s).cmds.map GuestCmd.id).filter (· != s.nextId) ∧
        (0 < d → d < (viewOf s).warp.s.length → ∃ k, warpIn t (who s).gid (who s).wid = some k ∧ k.rdS d = word)
      let ready := s.groupRuns (who s).gid = true ∧ (site s).st = 2
      let room := ((site s).cmds.filter fun k => k.st != .queued).length < 512 ∧ s.pairRoom (engineWho s (who s).gid (who s).wid) x.w2.ch.toNat (.site x.subN) 1 = true ∧
        ∀ k ∈ (site s).cmds, k.st = .queued → k.gid = (who s).gid → k.cap.ch = x.w2.ch.toNat → s.nextId ≤ k.id
      (guard = some false → ∃ t, exec (.gpost x) s = .next t ∧ ended t (BitVec.ofNat 64 (2 ^ 63 + 2 ^ 62))) ∧
      (guard = some true → s.groupRuns (who s).gid = true → (site s).st ≠ 2 → ∃ t, exec (.gpost x) s = .next t ∧ ended t (BitVec.ofNat 64 (2 ^ 63 + 2 * 2 ^ 56))) ∧
      (guard = none ∨ (guard = some true ∧ (s.groupRuns (who s).gid = false ∨ (ready ∧ ¬room))) → ∃ t c, exec (.gpost x) s = .next t ∧
        MovesTo x s t ⟨(viewOf s).warp.owe s.nextId [d], (viewOf s).ths⟩ ∧ t.packets = s.packets ∧ (site t).cmds = (site s).cmds ++ [c] ∧ c.id = s.nextId ∧ c.gid = (who s).gid ∧
        c.dreg = d ∧ c.pkt = pkt ∧ c.st = .queued) ∧
      (guard = some true → ready → room → ∃ t, exec (.gpost x) s = .next t ∧ MovesTo x s t ⟨(viewOf s).warp.owe s.nextId [d], (viewOf s).ths⟩ ∧
        (∃ c ∈ (site t).cmds, c.id = s.nextId ∧ c.pkt = pkt ∧ c.st = .outstanding) ∧
        ∃ p ∈ t.packets, p.cmd = some s.nextId ∧ p.dest = .site x.subN ∧ p.pay = .guest x.subN pkt ∧ p.ch = x.w2.ch.toNat ∧ p.gid = (who s).gid))) ∧
  -- R344: what the device writes of a packet
  (∀ img ctx ch ord scope, img < 2 ^ 512 → ctx < 2 ^ 10 → ch < 16 → let p := stampPacket img ctx ch ord scope
    p.extractLsb' 64 448 = (BitVec.ofNat 512 img).extractLsb' 64 448 ∧ p.extractLsb' 0 16 = BitVec.ofNat 16 img ∧ (p.extractLsb' 16 10).toNat = ctx ∧
    (p.extractLsb' 32 8).toNat = ch ∧ p.extractLsb' 40 2 = ord ∧ p.extractLsb' 42 3 = scope ∧ p.extractLsb' 48 16 = 0) ∧
  (∀ x s u us g n f, Enabled 0xD2 x s → active x s = u :: us → s.group? (who s).gid = some g → checkScratch s g ((rdU (viewOf s).warp x.a).toNat % 2 ^ 32) 64 1 64 = .bad n f →
    exec (.gpost x) s = .next (takeFaultAt u.tid u.slot f s)))

/-- R328, R329, R330, R173, R326: an MMA is checked at post, and takes an entry of the cluster's table, its slot FILLING; a full table stalls it. With `.follow` it is
bound to the CPYM before it, takes its entry when that copy has landed, and does nothing where the CPYM has posted none.
R331, R175, R336 to R339: ARING's three forms, APEEK and APATCH, MSTAT, on a slot in a state that allows them; in any other state RING, on a designator the group does not
own ILL. -/
def Obligations.MatrixPosts : Prop :=
  ((∀ x s, Enabled 0xC0 x s → active x s = [] → ∃ t, exec (.mma x) s = .next t ∧ EndsView x s t (viewOf s)) ∧
  (∀ x s g, Enabled 0xC0 x s → active x s ≠ [] → s.group? (who s).gid = some g → g.slotOf x.d.toNat = none → exec (.mma x) s = .next (takeFault (ownIll 0xC0 x) s)) ∧
  (∀ x s u us g i, Enabled 0xC0 x s → active x s = u :: us → s.group? (who s).gid = some g → g.slotOf x.d.toNat = some i → i < (s.cluster (who s).cl).ring.length →
    let c := s.cluster (who s).cl
    let r := c.slot i
    let w := (viewOf s).warp
    let follow := x.mod.getLsbD 5
    -- what the CPYM before it on the path has left: nothing, a CPYM without a copy, or a copy with its layout and coordinates
    let before := (w.cpym.find? fun p => p.1 == (viewOf s).ths.map Thread.tid).map fun p => p.2
    (follow = true → before = none → exec (.mma x) s = .next (takeFault (ownIll 0xC0 x) s)) ∧
    (follow = true → before = some none → ∃ t, exec (.mma x) s = .next t ∧ MovesOn x s t ∧ (t.cluster (who s).cl).mma = c.mma ∧ (t.cluster (who s).cl).ring = c.ring ∧
      KeepsMemory s t) ∧
    ∀ copy, (if follow = true then before = some (some copy) else True) →
      (∀ f, mmaBad x w g = some f → exec (.mma x) s = .next (takeFault f s)) ∧
      (mmaBad x w g = none → (r.sealing = true ∨ r.st = .ready ∨ r.st = .draining) → exec (.mma x) s = .next (takeFault (ringFlt x.d.toNat r) s)) ∧
      (mmaBad x w g = none → r.sealing = false → (r.st = .free ∨ r.st = .filling) →
        let waits : Bool := follow && c.copyQ.any fun q => q.id == copy.1
        (waits = false → 64 ≤ c.tabled.length → ∃ t, exec (.mma x) s = .next t ∧ Stalls s t ∧ (t.cluster (who s).cl).mma = c.mma) ∧
        (waits = true ∨ c.tabled.length < 64 → ∃ t, exec (.mma x) s = .next t ∧ MovesOn x s t ∧ KeepsMemory s t ∧
          let k := t.cluster (who s).cl
          k.slot i = { r with st := .filling } ∧ (∀ j, j ≠ i → k.slot j = c.slot j) ∧
          -- of a copy that has failed it is discarded (R326)
          ((follow = true ∧ copy.1 = 0) → k.mma = c.mma) ∧
          (¬(follow = true ∧ copy.1 = 0) → ∃ m, k.mma = c.mma ++ [m] ∧ m.id = s.nextId ∧ m.gid = (who s).gid ∧ m.slot = i ∧ m.zero = x.mod.getLsbD 4 ∧
            m.k = fld x.mod 1 0 ∧ m.running = false ∧ m.waitCopy = (if waits then some copy.1 else none) ∧
            (x.mod.getLsbD 2 = true → m.a = .scratch (fld (rdU w x.a) 31 0) (fld (rdU w x.a) 47 32) (fld (rdU w x.a) 63 48) (fld (rdU w x.c) 3 0)) ∧
            (x.mod.getLsbD 3 = true → m.b = .scratch (fld (rdU w x.b) 31 0) (fld (rdU w x.b) 47 32) (fld (rdU w x.b) 63 48) (fld (rdU w x.e) 3 0)) ∧
            (x.mod.getLsbD 2 = false → m.a = .lines (regLines g (who s).wid (x.subN % 8) (fld x.mod 1 0) x.a.toNat)) ∧
            (x.mod.getLsbD 3 = false → m.b = .lines (regLines g (who s).wid (x.subN / 8) (fld x.mod 1 0) x.b.toNat)) ∧
            m.cap.pc = s.cur.pc ∧ m.cap.tid = u.tid ∧ m.cap.gs = (if x.w2.gse then some x.w2.gs.toNat else none))))) ∧
  -- R329: line q of the thread in slot t is line 4t + q of a register operand; chunk c holds four of its registers, the lowest in the low bits
  (∀ g wid f k a i c th, i < 128 → c < 4 * (k + 1) →
    g.threads.find? (fun t => t.wid == wid && t.slot == i / 4 && t.run != .exited && t.run != .filed) = some th →
    ∃ ls p, (regLines g wid f k a)[i]? = some ls ∧ ls[c]? = some p ∧ ∀ j, j < 4 → p.1.extractLsb' (32 * j) 32 = th.rdV (a + 16 * (k + 1) * (i % 4) + 4 * c + j))) ∧
  ((∀ x s g i, Enabled 0xC1 x s → active x s ≠ [] → s.group? (who s).gid = some g → g.slotOf x.d.toNat = some i → i < (s.cluster (who s).cl).ring.length → i < 16 →
    let c := s.cluster (who s).cl
    let r := c.slot i
    let after (t : State) : RingSlot := (t.cluster (who s).cl).slot i
    (r.st = .free → ∃ t, exec (.aringOpen x) s = .next t ∧ MovesOn x s t ∧ KeepsMemory s t ∧ after t = { r with st := .filling } ∧
      ∀ j, j ≠ i → (t.cluster (who s).cl).slot j = c.slot j) ∧
    (r.st ≠ .free → exec (.aringOpen x) s = .next (takeFault (ringFlt x.d.toNat r) s)) ∧
    (r.st = .filling → r.sealing = false → ∃ t, exec (.aringSeal x) s = .next t ∧ MovesOn x s t ∧ KeepsMemory s t ∧ (after t).cells = r.cells ∧ (after t).lost = r.lost ∧
      (c.pending i = 0 → (after t).st = .ready ∧ (after t).sealing = false ∧ s.nextId ≤ (after t).sealT) ∧
      (c.pending i ≠ 0 → (after t).st = .filling ∧ (after t).sealing = true)) ∧
    (¬(r.st = .filling ∧ r.sealing = false) → exec (.aringSeal x) s = .next (takeFault (ringFlt x.d.toNat r) s)) ∧
    (r.st = .ready ∨ (r.st = .filling ∧ c.pending i = 0) → ∃ t, exec (.aringDrop x) s = .next t ∧ MovesOn x s t ∧ KeepsMemory s t ∧ (after t).st = .free ∧
      (∀ k, (after t).cell k = Config.freeCell s.free k) ∧ ∀ j, j ≠ i → (t.cluster (who s).cl).slot j = c.slot j) ∧
    (¬(r.st = .ready ∨ (r.st = .filling ∧ c.pending i = 0)) → exec (.aringDrop x) s = .next (takeFault (ringFlt x.d.toNat r) s))) ∧
  -- a seal: READY at once, or when the last pass of the slot completes, later than every seal before it
  (∀ (s : State) cl i, i < (s.cluster cl).ring.length → i < 16 → ((s.cluster cl).slot i).sealing = true →
    let r := (s.cluster cl).slot i
    let t := ((s.sealDone cl).cluster cl).slot i
    ((s.cluster cl).pending i = 0 → t.st = .ready ∧ t.sealing = false ∧ s.nextId ≤ t.sealT ∧ t.cells = r.cells) ∧ ((s.cluster cl).pending i ≠ 0 → t = r)) ∧
  (∀ p ∈ [(Instr.aringOpen, 0xC1#8, false), (.aringSeal, 0xC1#8, false), (.aringDrop, 0xC1#8, false), (.mstatSlot, 0xC5#8, true)], ∀ x s g, Enabled p.2.1 x s →
    s.group? (who s).gid = some g →
    (active x s ≠ [] → g.slotOf (if p.2.2 then x.a else x.d).toNat = none → exec (p.1 x) s = .next (takeFault (ownIll p.2.1.toNat x) s)) ∧
    (active x s = [] → ∃ t, exec (p.1 x) s = .next t ∧ EndsView x s t (viewOf s))) ∧
  -- APEEK and APATCH
  (∀ p ∈ [(Instr.apeek, 0xC3#8), (.apatch, 0xC4#8)], ∀ x s u us g, Enabled p.2 x s → active x s = u :: us → s.group? (who s).gid = some g →
    (x.subN = 0 → peekGroup x s (viewOf s) g = .ok g) ∧
    (∀ k, (active x s).find? (fun k => decide (4096 ≤ (k.rdV x.b.toNat).toNat)) = some k → exec (p.1 x) s = .next (takeFaultAt k.tid k.slot (ownIll p.2.toNat x) s)) ∧
    ((∀ k ∈ active x s, (k.rdV x.b.toNat).toNat < 4096) →
      (∀ f, peekGroup x s (viewOf s) g = .bad f → exec (p.1 x) s = .next (takeFaultAt u.tid u.slot f s)) ∧
      ((peekGroup x s (viewOf s) g = .blocked ∨ ∃ f, peekGroup x s (viewOf s) g = .recall f) → ∃ t, exec (p.1 x) s = .next t ∧ t.cur.stalled = true ∧ (after s t).ths = (viewOf s).ths) ∧
      (∀ pg, peekGroup x s (viewOf s) g = .ok pg → pg.slotOf x.a.toNat = none →
        exec (p.1 x) s = .next (takeFaultAt u.tid u.slot (if x.subN = 0 then ownIll p.2.toNat x else { code := cRing, info := x.a.toNat }) s)) ∧
      (∀ pg i, peekGroup x s (viewOf s) g = .ok pg → pg.slotOf x.a.toNat = some i →
        let c := s.cluster (gidCl pg.gid)
        let r := c.slot i
        (r.sealing = true ∨ ¬(r.st = .ready ∨ (r.st = .filling ∧ c.pending i = 0)) → exec (p.1 x) s = .next (takeFaultAt u.tid u.slot (ringFlt x.a.toNat r) s)) ∧
        (r.sealing = false → (r.st = .ready ∨ (r.st = .filling ∧ c.pending i = 0)) →
          (p.2 = 0xC3 → (r.poison = true → exec (p.1 x) s = .next (takeFault { code := cPoison, info := 1 + x.a.toNat * 16, acc := 1 } s)) ∧
            (r.poison = false → ∃ t, exec (p.1 x) s = .next t ∧ EndsView x s t ((viewOf s).mapP x fun k =>
              (List.range 4).foldl (fun k c => k.wrV (x.d.toNat + c) (r.cell (4 * quadOf k x + c))) k))) ∧
          (p.2 = 0xC4 → ∃ t, exec (p.1 x) s = .next t ∧ EndsWith x s t (viewOf s).warp (viewOf s).ths ∧ t.mem = s.mem ∧
            (i < c.ring.length → ((t.cluster (gidCl pg.gid)).slot i).cells =
              ((active x s).foldl (fun r k => (List.range 4).foldl (fun r c => r.setCell (4 * quadOf k x + c) (k.rdV (x.d.toNat + c))) r) r).cells)))))) ∧
  (∀ p ∈ [(Instr.apeek, 0xC3#8), (.apatch, 0xC4#8), (.mstatTab, 0xC5#8)], ∀ x s, Enabled p.2 x s → active x s = [] → ∃ t, exec (p.1 x) s = .next t ∧ EndsView x s t (viewOf s)) ∧
  -- MSTAT
  (∀ x s g i, Enabled 0xC5 x s → active x s ≠ [] → s.group? (who s).gid = some g → g.slotOf x.a.toNat = some i →
    let c := s.cluster (who s).cl
    let r := c.slot i
    let tail := if r.st = .ready then (g.ring.filter fun j => (c.slot j).st == .ready && decide ((c.slot j).sealT < r.sealT)).length else 31
    ∃ t, exec (.mstatSlot x) s = .next t ∧ EndsView x s t ⟨wrU (viewOf s).warp x.d (BitVec.ofNat 64 ((match r.st with
      | .free => 0
      | .filling => 1
      | .ready => 2
      | .draining => 3) + (if r.sealing then 4 else 0) + (if r.poison then 8 else 0) + min 64 (c.pending i) * 2 ^ 4 + tail * 2 ^ 11 + i * 2 ^ 16)), (viewOf s).ths⟩) ∧
  (∀ x s, Enabled 0xC5 x s → active x s ≠ [] →
    let tab := (s.cluster (who s).cl).tabled
    let own := tab.filter fun m => m.gid == (who s).gid
    ∃ t, exec (.mstatTab x) s = .next t ∧ EndsView x s t ⟨wrU (viewOf s).warp x.d
      (BitVec.ofNat 64 ((64 - tab.length) + own.length * 2 ^ 8 + (own.filter (mmaEligible s (who s).cl)).length * 2 ^ 16)), (viewOf s).ths⟩))

/-- R173, R174, R330, R100, R177: the matrix engine's events. An entry enters the table when its copy has landed; the arbiter grants the eligible entry of highest effective
priority; a pass on a false guard slot is freed; a completed pass has given every cell its value and leaves the table; a k-group adds its exact sum, rounded once; a NaN cell
keeps its bits; a parity error poisons its slot. -/
def Obligations.MatrixEngine : Prop :=
  (∀ (s : State) cl id m k, (s.cluster cl).mma.find? (fun x => x.id == id) = some m → m.waitCopy = some k →
    (∀ q, (s.cluster cl).copyQ.find? (fun q => q.id == k) = some q → q.plan.length ≤ q.done ∧ (q.crc = true → q.crcS = q.crcD)) →
    ((s.cluster cl).tabled.length < 64 → ∃ t, exec (.mmaEntryEnter cl id) s = .next t ∧ t.mem = s.mem ∧ (t.cluster cl).ring = (s.cluster cl).ring ∧
      (t.cluster cl).mma.find? (fun x => x.id == id) = some { m with waitCopy := none, enter := s.cyclesOf (cl / 24) } ∧
      (t.cluster cl).mma.map MmaEntry.id = (s.cluster cl).mma.map MmaEntry.id) ∧
    (64 ≤ (s.cluster cl).tabled.length → exec (.mmaEntryEnter cl id) s = .next s)) ∧
  (∀ (s : State) cl m, (s.cluster cl).mma.find? (fun m => m.waitCopy.isNone && !m.running && s.groupRuns m.gid && s.guardOf m.gid m.cap == some false) = some m →
    ∃ t, exec (.mmaGrant cl) s = .next t ∧ (t.cluster cl).mma = (s.cluster cl).mma.filter (fun k => k.id != m.id) ∧ t.mem = s.mem ∧
      ∀ i, ((t.cluster cl).slot i).cells = ((s.cluster cl).slot i).cells) ∧
  (∀ (s : State) cl m g, (∀ m ∈ (s.cluster cl).mma, m.running = false ∧ s.guardOf m.gid m.cap ≠ some false) → mmaPick s cl = some m → m.cap.ord.toNat % 2 = 0 → m.src = none →
    s.group? m.gid = some g →
    (∀ a b, mmaCapture g m = .ok (a, b) → m.slot < (s.cluster cl).ring.length → ∃ t, exec (.mmaGrant cl) s = .next t ∧ t.mem = s.mem ∧
      (∃ k ∈ (t.cluster cl).mma, k.id = m.id ∧ k.running = true ∧ k.a = a ∧ k.b = b ∧ k.cap.gs = none) ∧
      (m.zero = true → ((t.cluster cl).slot m.slot).poison = false ∧ ∀ k, ((t.cluster cl).slot m.slot).cell k = 0) ∧
      (m.zero = false → (t.cluster cl).ring = (s.cluster cl).ring)) ∧
    (∀ f, mmaCapture g m = .error f → f.code ≠ cWatch → f.code ≠ cPurity → ∃ t, exec (.mmaGrant cl) s = .next t ∧ EngineStopped t m.gid f 2 m.cap.pc ∧
      (t.cluster cl).mma = (s.cluster cl).mma ∧ (t.cluster cl).ring = (s.cluster cl).ring)) ∧
  (∀ (s : State) cl m, mmaPick s cl = some m → m ∈ (s.cluster cl).mma ∧ mmaEligible s cl m = true ∧
    ∀ k ∈ (s.cluster cl).mma, mmaEligible s cl k = true → mmaPrio s cl k ≤ mmaPrio s cl m) ∧
  (∀ (s : State) cl m, (s.cluster cl).mma.find? (fun m => m.running) = some m → m.slot < (s.cluster cl).ring.length → ∃ t, exec (.mmaPassComplete cl) s = .next t ∧
    (t.cluster cl).mma = (s.cluster cl).mma.filter (fun k => k.id != m.id) ∧ ((t.cluster cl).slot m.slot).cells = (passCells m ((s.cluster cl).slot m.slot)).cells ∧
    t.mem = s.mem ∧ t.desc = s.desc) ∧
  (∀ (r : RingSlot) f k, k < 16384 → (r.setAll f).cell k = f k) ∧
  -- R100: a k-group of numbers
  (∀ acc as bs, fF32.finite acc.toNat → as.length = bs.length → (∀ e ∈ as ++ bs, e.nanScale = false ∧ ∃ n m k, e.v = .num n m k) →
    let v : ℚ := fF32.val acc.toNat + (List.zipWith (fun a b => a.v.rat * b.v.rat) as bs).sum
    (2 : ℝ) ^ fF32.emin ≤ |(v : ℝ)| → |(v : ℝ)| ≤ ((FV.num false fF32.maxFin.1 fF32.maxFin.2).rat : ℝ) → RoundsTo fF32 .rne v (cellGroup acc as bs).toNat) ∧
  (∀ acc as bs, (fF32.decode acc.toNat).isNan = true → cellGroup acc as bs = acc) ∧
  (∀ (s : State) cl slot, slot < (s.cluster cl).ring.length → ∃ t, exec (.ringParityError cl slot) s = .next t ∧
    (t.cluster cl).slot slot = { (s.cluster cl).slot slot with poison := true, patched := [] } ∧ (∀ j, j ≠ slot → (t.cluster cl).slot j = (s.cluster cl).slot j) ∧ t.mem = s.mem)

/-- R332, R333, R176: an EPI is checked at post and queued; taking a slot it checks poison, translation, purity and watches in that order and issues its stores, the slot
DRAINING; the slot is FREE and the status word written when the last store is performed. -/
def Obligations.Epilogues : Prop :=
  (∀ x s, Enabled 0xC2 x s → active x s = [] → ∃ t, exec (.epi x) s = .next t ∧ EndsView x s t (viewOf s)) ∧
  (∀ x s u us g, Enabled 0xC2 x s → active x s = u :: us → s.group? (who s).gid = some g →
    let w := (viewOf s).warp
    let off := fld (rdU w x.c) 63 32
    let bias := x.sub.getLsbD 2
    let ty := (Ty.ofCode (fld x.mod 4 0)).getD .f32
    let row := 16 * (if ty = .blk then (blkBits (x.e.toNat % 16)).getD 32 else ty.bits)
    let ill := (ty = .blk ∧ quantCode x.e.toNat = false) ∨ (rdU w x.b).toNat < row ∨ 2 ^ 40 ≤ (rdU w x.b).toNat
    (ill → exec (.epi x) s = .next (takeFault (ownIll 0xC2 x) s)) ∧
    (¬ill → (rdU w x.a).toNat % 64 ≠ 0 → exec (.epi x) s = .next (takeFault (alignFlt (rdU w x.a) 2 64) s)) ∧
    (¬ill → (rdU w x.a).toNat % 64 = 0 → (rdU w x.b).toNat % 64 ≠ 0 → exec (.epi x) s = .next (takeFault (alignFlt (rdU w x.b) 2 64) s)) ∧
    (¬ill → (rdU w x.a).toNat % 64 = 0 → (rdU w x.b).toNat % 64 = 0 → bias = true → off % 16 ≠ 0 →
      exec (.epi x) s = .next (takeFault (alignFlt (BitVec.ofNat 64 off) 1 16) s)) ∧
    (¬ill → (rdU w x.a).toNat % 64 = 0 → (rdU w x.b).toNat % 64 = 0 → bias = true → off % 16 = 0 → g.scr.size < off + 512 →
      exec (.epi x) s = .next (takeFault (permFlt (BitVec.ofNat 64 off) 1 2 0) s)) ∧
    (¬ill → (rdU w x.a).toNat % 64 = 0 → (rdU w x.b).toNat % 64 = 0 → (bias = true → off % 16 = 0 ∧ off + 512 ≤ g.scr.size) →
      ∃ t c, exec (.epi x) s = .next t ∧ (t.cluster (who s).cl).epiQ = (s.cluster (who s).cl).epiQ ++ [c] ∧ c.gid = (who s).gid ∧ c.slot = none ∧ c.out = rdU w x.a ∧
        c.pitch = (rdU w x.b).toNat ∧ c.scale.toNat = fld (rdU w x.c) 31 0 ∧ c.biasOff = (if bias then some off else none) ∧ c.act.toNat = x.sub.toNat % 4 ∧ t.mem = s.mem ∧
        EndsWith x s t (w.owe c.id [x.d.toNat - 0xC0]) (viewOf s).ths)) ∧
  (∀ (s : State) cl c i g, epiNext s cl = some (c, i) → s.group? c.gid = some g → g.frameRun = none →
    -- a false guard slot discards it
    (s.guardOf c.gid c.cap = some false → ∃ t, exec (.epiTakeSlot cl) s = .next t ∧ (t.cluster cl).epiQ = (s.cluster cl).epiQ.filter (fun k => k.id != c.id) ∧
      (t.cluster cl).ring = (s.cluster cl).ring ∧ t.mem = s.mem ∧ Answered s t c.gid c.cap.wid c.dreg c.id (BitVec.ofNat 64 (2 ^ 63 + 2 ^ 62))) ∧
    (s.guardOf c.gid c.cap = some true → c.biasOff = none → ∀ w, w = engineWho s c.gid c.cap.wid →
      (((s.cluster cl).slot i).poison = true → ∃ t, exec (.epiTakeSlot cl) s = .next t ∧
        EngineStopped t c.gid { code := cPoison, info := 1 + (g.ring.findIdx? (· == i)).getD 0 * 16 } 3 c.cap.pc ∧ (t.cluster cl).ring = (s.cluster cl).ring ∧ t.mem = s.mem) ∧
      (∀ n, ((s.cluster cl).slot i).poison = false → epiAccs s w (c.blocks.map (·.2.2)) = .error (.code n) → ∃ t, exec (.epiTakeSlot cl) s = .next t ∧
        (t.cluster cl).epiQ = (s.cluster cl).epiQ.filter (fun k => k.id != c.id) ∧ (t.cluster cl).ring = (s.cluster cl).ring ∧ t.mem = s.mem ∧
        Answered s t c.gid c.cap.wid c.dreg c.id (BitVec.ofNat 64 (2 ^ 63 + 2 ^ 56))) ∧
      -- every check passes: the stores are issued, and the slot drains
      (∀ as s2, ((s.cluster cl).slot i).poison = false → epiAccs s w (c.blocks.map (·.2.2)) = .ok as → (∀ a ∈ as, enginePure s c.gid a 2 = none) →
        (c.passWatch = true ∨ ∀ a ∈ as, engineWatch s w.ctx 32 a 2 = none) → xlatWaitEngine s w.cl w.ctx as = false → c.cap.ord.toNat % 2 = 0 →
        epiStores w c (releasePts s w none c.cap.ord.toNat c.cap.scope.toNat) (List.zipWith (fun a (b : Nat × Nat × BitVec 64) =>
          let o := c.block ((s.cluster cl).slot i) (fun _ => none) b.1 b.2.1; (a, o.1, o.2)) as c.blocks) s = (.go, s2) → i < (s2.cluster cl).ring.length →
        ∃ t, exec (.epiTakeSlot cl) s = .next t ∧ t.mem = s2.mem ∧ t.desc = s2.desc ∧ t.packets = s2.packets ∧
          (t.cluster cl).slot i = { (s2.cluster cl).slot i with st := .draining }))) ∧
  -- R333: the value of a cell without bias, activation or flush is the accumulator times the scale, rounded once
  (∀ mode (sat : Bool) acc scale, fF32.finite acc → fF32.finite scale →
    let v : ℝ := (fF32.val acc : ℝ) * (fF32.val scale : ℝ)
    (2 : ℝ) ^ fF32.emin ≤ |v| → |v| ≤ ((FV.num false fF32.maxFin.1 fF32.maxFin.2).rat : ℝ) → RoundsTo fF32 mode v (epiY mode sat false acc scale none)) ∧
  (∀ (s : State) cl c i, epiOver s cl = some (c, i) → i < (s.cluster cl).ring.length → (∀ g, s.group? c.gid = some g → g.frameRun = none) → s.anyGroup c.gid = s.group? c.gid → ∃ t, exec (.epiDrainComplete cl) s = .next t ∧
    (t.cluster cl).slot i = { (s.cluster cl).slot i with st := .free, sealT := 0 } ∧ (t.cluster cl).epiQ = (s.cluster cl).epiQ.filter (fun k => k.id != c.id) ∧
    t.mem = s.mem ∧ t.desc = s.desc)

/-- R184, R345, R346: EVPOST appends a record to the cluster's queue, or waits while it is full; EVREAD takes the oldest record, or waits while there is none; EVREAD.nb then
gives zeros. A record that hardware posts to a full queue is lost and counted in the next. The management core, on no cluster, posts to none (log entry 31). -/
def Obligations.EventQueue : Prop :=
  (∀ x s, Enabled 0xD3 x s → active x s ≠ [] → pureNow s = none → (who s).phys = false → let c := s.cluster (who s).cl
    (256 ≤ c.evq.length → ∃ t, exec (.evpost x) s = .next t ∧ Stalls s t ∧ (t.cluster (who s).cl).evq = c.evq) ∧
    (c.evq.length < 256 → ∃ t, exec (.evpost x) s = .next t ∧ MovesOn x s t ∧ KeepsMemory s t ∧ (t.cluster (who s).cl).evLost = 0 ∧
      (t.cluster (who s).cl).evq = c.evq ++ [eventRec (rdU (viewOf s).warp x.a) (sourceOf (who s).gid) 0 c.evLost 3])) ∧
  (∀ x s, Enabled 0xD3 x s → active x s ≠ [] → pureNow s = none → (who s).phys = true → ∃ t, exec (.evpost x) s = .next t ∧ EndsView x s t (viewOf s)) ∧
  (∀ x s, Enabled 0xD3 x s → active x s ≠ [] → (pureNow s).isSome = true → exec (.evpost x) s = .next (takeFault { code := cPurity, info := 5 } s)) ∧
  (∀ (s : State) cl kind code src v, let c := s.cluster cl
    let c' := (s.postEvent cl kind code src v).cluster cl
    (c.evq.length < 256 → c'.evq = c.evq ++ [eventRec v src code c.evLost kind] ∧ c'.evLost = 0) ∧
    (256 ≤ c.evq.length → c'.evq = c.evq ∧ c'.evLost = min 255 (c.evLost + 1))) ∧
  -- the fields of a record
  (∀ (v : BitVec 64) src code lost kind, src < 2 ^ 32 → code < 2 ^ 16 → lost < 256 → kind < 256 → let e := eventRec v src code lost kind
    e.extractLsb' 64 64 = v ∧ (e.extractLsb' 32 32).toNat = src ∧ (e.extractLsb' 16 16).toNat = code ∧ (e.extractLsb' 8 8).toNat = lost ∧ (e.extractLsb' 0 8).toNat = kind) ∧
  (∀ x s, Enabled 0xD4 x s → active x s ≠ [] → (s.cluster (who s).cl).evq = [] → ∃ t, exec (.evread x) s = .next t ∧ Stalls s t) ∧
  (∀ x s e es, Enabled 0xD4 x s → active x s ≠ [] → (s.cluster (who s).cl).evq = e :: es → ∀ i ∈ [Instr.evread, .evreadNb], ∃ t, exec (i x) s = .next t ∧
    (t.cluster (who s).cl).evq = es ∧ t.mem = s.mem ∧
    EndsWith x s t (((viewOf s).warp.wrS (x.d.toNat - 0xC0) (e.extractLsb' 0 64)).wrS (x.d.toNat - 0xC0 + 1) (e.extractLsb' 64 64)) (viewOf s).ths) ∧
  (∀ x s, Enabled 0xD4 x s → active x s ≠ [] → (s.cluster (who s).cl).evq = [] → ∃ t, exec (.evreadNb x) s = .next t ∧ (t.cluster (who s).cl).evq = [] ∧ t.mem = s.mem ∧
    EndsWith x s t (((viewOf s).warp.wrS (x.d.toNat - 0xC0) 0).wrS (x.d.toNat - 0xC0 + 1) 0) (viewOf s).ths) ∧
  (∀ p ∈ [(Instr.evpost, 0xD3#8), (.evread, 0xD4#8), (.evreadNb, 0xD4#8), (.trel, 0xD5#8), (.ainvAll, 0xD6#8), (.ainvMeas, 0xD6#8)], ∀ x s, Enabled p.2 x s → active x s = [] →
    ∃ t, exec (p.1 x) s = .next t ∧ EndsView x s t (viewOf s))

/-- R341, R182, R342, R37, R347, R348, R192: TENQ enqueues all of its records or none; TDONE completes the task once; TREL releases the held records of the foreman's die and
partition that carry the tag; AINV purges the context's entries. A pure task takes PURITY of each. -/
def Obligations.TaskInstructions : Prop :=
  (∀ x s u us recs s1, Enabled 0xD0 x s → active x s = u :: us → pureNow s = none → let ths := if isUni x.a then [u] else u :: us
    RecordsRead x s ths recs s1 →
    (∀ r k, (List.zip recs ths).find? (fun p => recBad p.1) = some (r, k) → exec (.tenq x) s = .next (takeFaultAt k.tid k.slot (ownIll 0xD0 x) s1)) ∧
    ((∀ r ∈ recs, recBad r = false) →
      (Owes s1 2 ths → ∃ t, exec (.tenq x) s = .next t ∧ t.cur.stalled = true ∧ (after s t).ths = (viewOf s).ths ∧ t.queue = s1.queue) ∧
      (¬Owes s1 2 ths →
        let put := enqueueAll (who s).ctx (who s).part ((s.group? (who s).gid).bind Group.launch) (s1.clock (clockOf (who s).core)) recs s1
        ((who s).phys = true ∨ s1.hubWaits (who s).part = true ∨ put = none → exec (.tenq x) s = .next (takeFaultAt u.tid u.slot (quotaFlt 4) s1)) ∧
        (∀ s2, (who s).phys = false → s1.hubWaits (who s).part = false → put = some s2 → ∃ t, exec (.tenq x) s = .next t ∧ MovesOn x s t ∧ t.mem = s1.mem ∧
          t.queue = s2.queue ∧ t.launches = s2.launches)))) ∧
  -- every record enqueued: each stands last in the queue, in order, with its launch's step
  (∀ ctx part launch pts recs (s t : State), enqueueAll ctx part launch pts recs s = some t → ∃ qs : List QRec, t.queue = s.queue ++ qs ∧ qs.length = recs.length ∧
    ∀ q ∈ qs, q.ctx = ctx ∧ q.part = part ∧ q.kind = .normal ∧ q.pts = pts ∧ q.level = recPrio q.record ∧ q.waiting = false) ∧
  (∀ x s u us g, Enabled 0xD1 x s → active x s = u :: us → s.group? (who s).gid = some g →
    (g.pure.isSome = true → exec (.tdone x) s = .next (takeFault { code := cPurity, info := 5 } s)) ∧
    (g.pure = none → g.tdone = true → ∃ t, exec (.tdone x) s = .next t ∧ EndsView x s t (viewOf s)) ∧
    (g.pure = none → g.tdone = false → Owes s 2 [u] → ∃ t, exec (.tdone x) s = .next t ∧ Stalls s t ∧ (t.group? (who s).gid).map (fun k => k.tdone) = some false) ∧
    (g.pure = none → g.tdone = false → ¬Owes s 2 [u] →
      -- without a join cell: the task is done, and its event posted
      (recJoin g.task = 0 → ∃ t, exec (.tdone x) s = .next t ∧ MovesOn x s t ∧ t.mem = s.mem ∧ t.queue = s.queue ∧
        (∀ m ∈ s.mates g, ∀ k, t.group? m = some k → k.tdone = true) ∧ (recEvent g.task = false → (t.cluster (gidCl g.gid)).evq = (s.cluster (gidCl g.gid)).evq) ∧
        (recEvent g.task = true → (s.cluster (gidCl g.gid)).evq.length < 256 → (t.cluster (gidCl g.gid)).evq =
          (s.cluster (gidCl g.gid)).evq ++ [eventRec (recTag g.task) (sourceOf g.gid) 0 (s.cluster (gidCl g.gid)).evLost 2])) ∧
      -- a join cell that cannot be written: a KIND 3 service entry reports it
      (∀ n f, recJoin g.task ≠ 0 → engineXlate s (engineWho s g.gid 0) (recJoin g.task) 16 2 = .bad n f → ∃ t e, exec (.tdone x) s = .next t ∧ MovesOn x s t ∧ t.mem = s.mem ∧
        (t.part g.part).svc = (s.part g.part).svc ++ [e] ∧ e.kind = 3 ∧ e.arg = recJoin g.task ∧ e.ctx = g.ctx ∧ e.gid = g.gid) ∧
      -- a join cell: its count is decremented; at zero its successor is enqueued
      (∀ s1, completeTask s g (sourceOf g.gid) = .done s1 → ∃ t, exec (.tdone x) s = .next t ∧ t.mem = s1.mem ∧ t.queue = s1.queue ∧ t.parts = s1.parts ∧
        ∀ m ∈ s.mates g, ∀ k, t.group? m = some k → k.tdone = true))) ∧
  (∀ (s : State) (g : Group) a, let w := engineWho s g.gid 0
    recJoin g.task ≠ 0 → engineXlate s w (recJoin g.task) 16 2 = .ok a → a.fab = none → s.poisonedAt a.pa = false → s.homeWait w.core w.ctx a.pa = .go →
    s.ownWrite w.core w.ctx a.pa = false → a.pa % 4 = 0 → Sys2Proof.Memory.wf s.mem → s.rdNat a.pa 4 ≠ 1 →
    ∃ s1, joinDec s g = .done s1 ∧ s1.rdNat a.pa 4 = (s.rdNat a.pa 4 + 2 ^ 32 - 1) % 2 ^ 32 ∧ s1.queue = s.queue) ∧
  (∀ x s, Enabled 0xD1 x s → active x s = [] → ∃ t, exec (.tdone x) s = .next t ∧ EndsView x s t (viewOf s)) ∧
  (∀ x s, Enabled 0xD0 x s → (active x s = [] → ∃ t, exec (.tenq x) s = .next t ∧ EndsView x s t (viewOf s)) ∧
    (∀ u us, active x s = u :: us → (pureNow s).isSome = true → exec (.tenq x) s = .next (takeFaultAt u.tid u.slot { code := cPurity, info := 5 } s))) ∧
  (∀ x s, Enabled 0xD5 x s → active x s ≠ [] →
    let hit (q : QRec) : Bool := !(who s).phys && q.held && !q.waiting && q.part == (who s).part && q.seam / 16 == (who s).die && recTag q.record == rdU (viewOf s).warp x.a
    ∃ t, exec (.trel x) s = .next t ∧ t.mem = s.mem ∧
      t.queue = s.queue.map (fun q => if hit q then { q with held := false, since := s.ptime, aging := (s.part q.part).aging } else q) ∧
      EndsWith x s t (wrU (viewOf s).warp x.d (BitVec.ofNat 64 (min (s.queue.filter hit).length 0xFFFFFFFF))) (viewOf s).ths) ∧
  (∀ x s, Enabled 0xD6 x s → active x s ≠ [] → pureNow s = none →
    (∃ t, exec (.ainvAll x) s = .next t ∧ t.assay = s.assay.filter (fun a => a.ctx != (who s).ctx) ∧ t.mem = s.mem ∧ EndsWith x s t (viewOf s).warp (viewOf s).ths) ∧
    (∃ t, exec (.ainvMeas x) s = .next t ∧ t.assay = s.assay.filter (fun a => !(a.ctx == (who s).ctx && a.meas == rdU (viewOf s).warp x.a)) ∧ t.mem = s.mem ∧
      EndsWith x s t (viewOf s).warp (viewOf s).ths)) ∧
  (∀ i ∈ [Instr.ainvAll, .ainvMeas], ∀ x s, Enabled 0xD6 x s → active x s ≠ [] → (pureNow s).isSome = true → exec (i x) s = .next (takeFault { code := cPurity, info := 8 } s))

/-! ## Groups, partitions, system instructions -/

/-- R349, R386, R387, R388, R198, R199, R25: GRESUME, GKILL and UNPARK name a group by its park frame and write a result: 1 for no such frame, 3 for a group that is not the
caller's, 0 for a group resumed or killed, 2 for one whose frame does not pass its check; PARK parks a group and writes its frame's address, 0 for a group that is not there and 2
where its frame finds no room. A killed group is gone; a resumed group runs, its fairness timers at zero and its watchdog restarted; UNPARK.r of a foreman's record restarts it. -/
def Obligations.GroupControl : Prop :=
  (∀ i ∈ [(Instr.gresume, 0xD7#8), (.gkill, 0xD8#8), (.unparkR, 0xE4#8), (.unparkK, 0xE4#8), (.park, 0xE3#8)], ∀ x s, Enabled i.2 x s → active x s = [] →
    ∃ t, exec (i.1 x) s = .next t ∧ EndsView x s t (viewOf s)) ∧
  (∀ p ∈ [(Instr.gresume, 0xD7#8, false, true), (.gkill, 0xD8#8, true, true), (.unparkR, 0xE4#8, false, false), (.unparkK, 0xE4#8, true, false)], ∀ x s u us, Enabled p.2.1 x s →
    active x s = u :: us → (p.2.1 = 0xE4 → p.2.2.1 = false → ∀ n, foremanAt s (who s) n = none) →
    let named := namedFrame s (who s) (who s).owner (rdU (viewOf s).warp x.a)
    let D (n : Nat) : View := ⟨wrU (viewOf s).warp x.d (BitVec.ofNat 64 n), (viewOf s).ths⟩
    let waits : Prop := ∃ t, exec (p.1 x) s = .next t ∧ t.cur.stalled = true ∧ (after s t).ths = (viewOf s).ths ∧ t.mem = s.mem
    (Owes s 2 [u] → ∃ t, exec (p.1 x) s = .next t ∧ Stalls s t) ∧
    (¬Owes s 2 [u] → (named = .none → ∃ t, exec (p.1 x) s = .next t ∧ EndsView x s t (D 1)) ∧
      (named = .blocked ∨ (∃ f, named = .recall f) → waits) ∧
      (∀ g, named = .group g → g.gid ≠ (who s).gid →
        let no := if p.2.2.2 then (if g.parkCode = 0 then some 1 else if g.ctx ≠ (who s).ctx then some 3 else none)
          else if (who s).phys = false ∧ g.part ≠ (who s).part then some 3 else none
        (∀ n, no = some n → ∃ t, exec (p.1 x) s = .next t ∧ EndsView x s t (D n)) ∧
        (no = none → p.2.2.1 = true → ∃ t, exec (p.1 x) s = .next t ∧ MovesTo x s t (D 0) ∧ (s.groups.rising = true → t.group? g.gid = none) ∧
          (∀ k ∈ (t.cluster (gidCl g.gid)).copyQ, k.gid ≠ g.gid) ∧ (∀ k ∈ (t.cluster (gidCl g.gid)).mma, k.gid ≠ g.gid) ∧ ∀ k ∈ (t.cluster (gidCl g.gid)).epiQ, k.gid ≠ g.gid) ∧
        (no = none → p.2.2.1 = false → let act := resumeAct (s.acquire (who s) 3 []) g
          (∀ r, act = .ok r → (s.group? g.gid).isSome = true → ∃ t g', exec (p.1 x) s = .next t ∧ MovesTo x s t (D 0) ∧ t.group? g.gid = some g' ∧ g'.life = .running ∧
            (∀ w ∈ g'.warps, w.fair = 0) ∧ g'.wdogAt = s.ptime) ∧
          (act = .bad → ∃ t, exec (p.1 x) s = .next t ∧ MovesTo x s t (D 2) ∧ t.group? g.gid = s.group? g.gid ∧ t.mem = s.mem) ∧
          (act = .wait ∨ (∃ f, act = .recall f) → waits))))) ∧
  (∀ x s u us r c, Enabled 0xE4 x s → active x s = u :: us → ¬Owes s 2 [u] →
    (if (who s).phys then physXlate s (rdU (viewOf s).warp x.a) 0 else translate s (who s).owner ((who s).die % 8) (who s).ctx (rdU (viewOf s).warp x.a) 0) = .ok r →
    foremanAt s (who s) r.pa = some c → (∃ u t, physReady s ((List.range 16).map fun i => r.pa + 64 * i) = .ok u t) →
    ∃ t, exec (.unparkR x) s = .next t ∧ MovesTo x s t ⟨wrU (viewOf s).warp x.d 0, (viewOf s).ths⟩ ∧ t.mem = s.mem ∧
      let f := (t.cluster c).fore
      f.run = true ∧ f.faulted = none ∧ f.th.pc = BitVec.ofNat 64 (s.rdNat (r.pa + 64) 8) ∧ f.th.preds = BitVec.ofNat 15 (s.rdNat (r.pa + 72) 2) ∧ f.w.rdS 0 = 0 ∧
      ∀ i, 1 ≤ i → i < 64 → f.w.rdS i = BitVec.ofNat 64 (s.rdNat (r.pa + (80 + 8 * (i - 1))) 8)) ∧
  (∀ (s : State) g, s.groups.rising = true → (killAct s g).group? g.gid = none) ∧
  (∀ (s : State) g t, (s.group? g.gid).isSome = true → resumeAct s g = .ok t → ∃ g', t.group? g.gid = some g' ∧ g'.life = .running ∧ (∀ w ∈ g'.warps, w.fair = 0) ∧ g'.wdogAt = s.ptime) ∧
  (∀ s g gr sup, s.group? g = some gr → ∃ gr', (resumeGroup g sup s).group? g = some gr' ∧ gr'.life = .running ∧ gr'.threads = gr.threads ∧
    gr'.warps = gr.warps.map (fun w => { w with fair := 0 }) ∧ gr'.wdogAt = s.ptime ∧ gr'.wdogLim = (s.part gr.part).wdog ∧
    (resumeGroup g sup s).mem = s.mem ∧ ∀ k, k ≠ g → (resumeGroup g sup s).group? k = s.group? k) ∧
  -- PARK
  (∀ x s, Enabled 0xE3 x s → active x s ≠ [] →
    let a := rdU (viewOf s).warp x.a
    let gid := fld a 16 0
    let ctx := fld a 41 32
    let D (n : BitVec 64) : View := ⟨wrU (viewOf s).warp x.d n, (viewOf s).ths⟩
    let ends (n : BitVec 64) : Prop := ∃ t, exec (.park x) s = .next t ∧ EndsView x s t (D n)
    let bad := fld a 31 17 ≠ 0 ∨ fld a 63 42 ≠ 0
    let deny := (gid = (who s).gid ∧ ctx = (who s).ctx) ∨ ((who s).phys = false ∧ ((s.context ctx).st = .free ∨ fld (s.context ctx).img 115 110 ≠ (who s).part))
    (bad → exec (.park x) s = .next (takeFault (ownIll 0xE3 x) s)) ∧
    (¬bad → deny → exec (.park x) s = .next (takeFault (permFlt 0 0 8 0) s)) ∧
    (¬bad → ¬deny → s.group? gid = none → ends 0) ∧
    (∀ g, ¬bad → ¬deny → s.group? gid = some g → g.gid = gid → (g.ctx ≠ ctx → ends 0) ∧
      (g.ctx = ctx → gid ≠ (who s).gid → (∀ k va us n, g.life = .parked k → k.frame = some (va, us, n) → ends (va + 1)) ∧
        (∀ k, g.life = .parked k → k.frame = none → k.held = true → k.retry = false → ends 2) ∧
        (∀ k, g.life = .parked k → k.frame = none → (k.held = false ∨ k.retry = true) → ∃ t, exec (.park x) s = .next t ∧ Stalls s t) ∧
        (g.life = .running → roomForFrame s g = .fail → ∃ t, exec (.park x) s = .next t ∧ MovesTo x s t (D 2) ∧ t.mem = s.mem ∧
          (t.group? gid).map (fun k => k.life) = some .running) ∧
        -- what the group has issued completes first; it issues nothing more
        (∀ b t0, g.life = .running → roomForFrame s g = .ok b t0 → s.quiet gid = false → ∃ t, exec (.park x) s = .next t ∧ Stalls s t ∧
          ∃ f, (t.group? gid).map (fun k => k.life) = some (.stopping f true) ∧ f.code = 0 ∧ f.agent = 9) ∧
        (∀ b t0 k va s2, g.life = .running → roomForFrame s g = .ok b t0 → s.quiet gid = true → (s.parkNow gid (parkRec s g)).group? gid = some k →
          writeFrame (s.parkNow gid (parkRec s g)) k (parkRec s g) = .ok va s2 → ∃ t p, exec (.park x) s = .next t ∧ MovesTo x s t (D va) ∧ t.mem = s2.mem ∧
            (t.group? gid).map (fun k => k.life) = some (.parked p) ∧ p.fault.code = 0 ∧ p.fault.agent = 9 ∧ p.frame.map (fun r => r.1) = some va))))

/-- R373, R374, R375, R377: PRDS reads and PWRS writes each system register; a register that is not listed, or of partition scope in M mode, and a value out of range raise ILL;
ACCELID and RTIMEOUT raise PRIV outside M mode; AGING and WDOG keep their lowest values. -/
def Obligations.SystemRegisters : Prop :=
  (∀ i ∈ [(Instr.prds, 0xE0#8), (.pwrs, 0xE1#8), (.pwrsKsvcrd, 0xE1#8), (.pwrsKsvcarm, 0xE1#8)], ∀ x s, Enabled i.2 x s → active x s = [] →
    ∃ t, exec (i.1 x) s = .next t ∧ EndsView x s t (viewOf s)) ∧
  (∀ x s, Enabled 0xE0 x s → active x s ≠ [] → let p := s.part (who s).part
    (((who s).phys = true ∧ 5 ≤ x.a.toNat ∧ x.a.toNat ≤ 9) ∨ x.a.toNat ∉ [0, 1, 2, 5, 6, 7, 8, 9, 0x0A] → exec (.prds x) s = .next (takeFault (ownIll 0xE0 x) s)) ∧
    (x.a.toNat ∈ [0, 1, 2, 5, 6, 7, 8, 9, 0x0A] → ((who s).phys = true → x.a.toNat < 5 ∨ 9 < x.a.toNat) → ∃ t, exec (.prds x) s = .next t ∧ t.mem = s.mem ∧
      EndsWith x s t (wrU (viewOf s).warp x.d (BitVec.ofNat 64 (match x.a.toNat with
        | 0 => (who s).level
        | 1 => (who s).part
        | 2 => s.accelId.toNat
        | 5 => p.ksvcrd.toNat
        | 6 => p.ksvcwr.toNat
        | 7 => if p.ksvcarm then 1 else 0
        | 8 => p.aging
        | 9 => p.wdog
        | _ => s.rtimeout.toNat))) (viewOf s).ths)) ∧
  (∀ i ∈ [Instr.pwrs, .pwrsKsvcrd, .pwrsKsvcarm], ∀ x s, Enabled 0xE1 x s → active x s ≠ [] →
    let b := (bU x (viewOf s).warp).toNat
    let d := x.d.toNat
    let p := s.part (who s).part
    let ill := exec (i x) s = .next (takeFault (ownIll 0xE1 x) s)
    let sets (f : Part → Part) : Prop := ∃ t, exec (i x) s = .next t ∧ MovesOn x s t ∧ KeepsMemory s t ∧ t.part (who s).part = f p ∧ ∀ q, q ≠ (who s).part → t.part q = s.part q
    (d ∉ [2, 4, 5, 7, 8, 9, 0x0A] → ill) ∧ ((who s).phys = true → 5 ≤ d → d ≤ 9 → ill) ∧
    ((d = 2 ∨ d = 0x0A) → (who s).phys = false → exec (i x) s = .next (takeFault { code := cPriv } s)) ∧
    (d = 2 → (who s).phys = true → (b < 1024 → ∃ t, exec (i x) s = .next t ∧ MovesOn x s t ∧ KeepsMemory s t ∧ t.accelId = BitVec.ofNat 10 b) ∧ (1024 ≤ b → ill)) ∧
    (d = 0x0A → (who s).phys = true → (b / 2 ^ 40 % 2 ^ 23 ≠ 0 → ill) ∧
      (b / 2 ^ 40 % 2 ^ 23 = 0 → ∃ t, exec (i x) s = .next t ∧ MovesOn x s t ∧ KeepsMemory s t ∧ t.rtimeout.toNat = b / 2 ^ 63 * 2 ^ 63 + max 1000 (b % 2 ^ 40))) ∧
    ((who s).phys = false →
      (d = 5 → (b < 2 ^ 32 → (BitVec.ofNat 32 b - p.ksvcrd).toNat ≤ (p.ksvcwr - p.ksvcrd).toNat → sets fun p => { p with ksvcrd := BitVec.ofNat 32 b }) ∧
        (2 ^ 32 ≤ b ∨ (p.ksvcwr - p.ksvcrd).toNat < (BitVec.ofNat 32 b - p.ksvcrd).toNat → ill)) ∧
      (d = 7 → (1 < b → ill) ∧ (b = 0 → sets fun p => { p with ksvcarm := false }) ∧ (b = 1 → p.ksvcwr = p.ksvcrd → sets fun p => { p with ksvcarm := true }) ∧
        (∀ u t, b = 1 → p.ksvcwr ≠ p.ksvcrd → enqueueService s (who s).part = .ok u t →
          ∃ k, exec (i x) s = .next k ∧ MovesOn x s k ∧ k.queue = t.queue ∧ (k.part (who s).part).ksvcarm = false)) ∧
      (d = 8 → (2 ^ 40 ≤ b → ill) ∧ (b < 2 ^ 40 → sets fun p => { p with aging := if b = 0 then 0 else max 1024 b })) ∧
      (d = 9 → (2 ^ 40 ≤ b → ill) ∧ (b < 2 ^ 40 → sets fun p => { p with wdog := max 65536 b }))))

/-- R379, R381, R383, R372: PWRS of SYSCMD reads a command block, performs one command, and writes its RESULT and, of a READ command, the image, with a release; a table row of a
command is that write with the command it names. One that waits is under way. The result that an attempt outside the caller's right, on a free or taken object, or with a
malformed image has. -/
def Obligations.SystemCommands : Prop :=
  (∀ p ∈ [(Instr.pwrs, none), (.ctxcreate, some 0x01), (.ctxupdate, some 0x02), (.ctxread, some 0x03), (.ctxdestroy, some 0x04), (.partcreate, some 0x11), (.partupdate, some 0x12),
      (.partread, some 0x13), (.partdestroy, some 0x14)], ∀ x s u us as ds s1, Enabled 0xE1 x s → active x s = u :: us → (p.2 = none → x.d = 0x04) →
    let b := bU x (viewOf s).warp
    checkAll s (who s) (who s).owner ([b, b + 64].map fun va => { tid := u.tid, slot := u.slot, va := va, size := 64, acc := 3, align := 64 }) = .ok as → (∀ a ∈ as, a.fab = none) →
    (Owes s 2 [u] → ∃ t, exec (p.1 x) s = .next t ∧ Stalls s t) ∧
    (¬Owes s 2 [u] → (∀ a ∈ as, s.homeWait (who s).core (who s).ctx a.pa = .go) → BlocksRead s as ds s1 →
      let cmd := sysCommand (who s) (p.2.getD (fld (ds.getD 0 0) 7 0)) (ds.getD 0 0) (ds.getD 1 0) s1
      (∀ r img s2, cmd = .ok r img s2 →
        let pts := releasePts s2 (who s) (some u) 2 3
        let put (t : State) (pa : Nat) (bs : List Byte) : State :=
          t.storeBlock (who s).core (who s).ctx (pa / 64 * 64) (bs.mapIdx fun i y => (pa + i, y)) .raw pts
        let at' (i : Nat) : Nat := (as.map Acc.pa).getD i 0
        let s3 := match img with
          | some d => put s2 (at' 1) (leBytes 64 d.toNat)
          | none => s2
        ∃ t, exec (p.1 x) s = .next t ∧ MovesOn x s t ∧ t.mem = (put s3 (at' 0 + 8) [BitVec.ofNat 8 r]).mem ∧ t.parts = s2.parts ∧
          -- RESULT stands in byte 8 of the block
          (s3.poisonedAt (at' 0) = false → s3.ownWrite (who s).core (who s).ctx (at' 0) = false → at' 0 % 64 = 0 → Sys2Proof.Memory.wf s3.mem →
            t.rdByte (at' 0 + 8) = BitVec.ofNat 8 r)) ∧
      (∀ k, (cmd = .wait k ∨ ∃ f, cmd = .recall f k) → ∃ t, exec (p.1 x) s = .next t ∧ t.cur.stalled = true ∧ (after s t).ths = (viewOf s).ths ∧ t.mem = k.mem ∧
        (s.cur.agent.isWarp = true → (warpIn t (who s).gid (who s).wid).map (fun w => w.busy) = some (some s.cur.pc))))) ∧
  (∀ i ∈ [Instr.ctxcreate, .ctxupdate, .ctxread, .ctxdestroy, .partcreate, .partupdate, .partread, .partdestroy], ∀ x s, Enabled 0xE1 x s → active x s = [] →
    ∃ t, exec (i x) s = .next t ∧ EndsView x s t (viewOf s)) ∧
  -- contexts
  (∀ (w : Who) id img (s : State),
    (cmdCtxRead s w id = if w.phys = true ∨ ((s.context id).st ≠ .free ∧ (s.context id).part = w.part) then .ok 0 (some (s.context id).image) s else .ok 2 none s) ∧
    (w.phys = true ∨ fld img 115 110 = w.part → (s.context id).st ≠ .free →
      cmdCtxCreate s w id img = .ok (if w.phys = true ∨ (s.context id).part = w.part then 3 else 2) none s) ∧
    ((s.context id).st = .free → cmdCtxUpdate s w id img = .ok 3 none s ∧ cmdCtxDestroy s w id = .ok 3 none s) ∧
    (w.phys = false → fld img 115 110 ≠ w.part → cmdCtxCreate s w id img = .ok 2 none s)) ∧
  (∀ (w : Who) id img (s t : State) d, cmdCtxUpdate s w id img = .ok 0 d t → (t.context id).img = ctxStored img ∧ (t.context id).st = (s.context id).st ∧ t.mem = s.mem) ∧
  -- R380: STATE 3 while a destruction waits
  (∀ (w : Who) id (s t : State), (cmdCtxDestroy s w id = .wait t ∨ ∃ f, cmdCtxDestroy s w id = .recall f t) → (t.context id).st = .dying) ∧
  (∀ (w : Who) id (s t : State) d, cmdCtxDestroy s w id = .ok 0 d t → (t.context id).st = .free ∧ (∀ h ∈ t.handles, h.ctx ≠ id) ∧ (∀ a ∈ t.assay, a.ctx ≠ id) ∧ ∀ e ∈ t.tlb, e.ctx ≠ id) ∧
  (∀ (w : Who) id img (s t : State) d, cmdCtxCreate s w id img = .ok 0 d t → (s.context id).st = .free ∧ (t.context id).st = .active ∧ (t.context id).img = ctxStored img ∧
    (w.phys = false → fld img 109 108 = 0)) ∧
  -- partitions
  (∀ (w : Who) id img (s : State), w.phys = false → cmdPartCreate s w id img = .ok 6 none s ∧ cmdPartUpdate s w id img = .ok 6 none s ∧ cmdPartDestroy s w id = .ok 6 none s ∧
    cmdPartRead s w id = if id = w.part then .ok 0 (some (s.part id).image) s else .ok 2 none s) ∧
  -- the right to a command on partitions comes before its TARGET
  (∀ (w : Who) hdr img (s : State), w.phys = false → fld hdr 511 72 = 0 → fld hdr 63 42 = 0 → fld hdr 31 8 = 0 →
    ∀ c ∈ [0x11, 0x12, 0x14], sysCommand w c hdr img s = .ok 6 none s) ∧
  (∀ (w : Who) hdr img (s : State), (fld hdr 511 72 ≠ 0 ∨ fld hdr 63 42 ≠ 0 ∨ fld hdr 31 8 ≠ 0) → ∀ c, sysCommand w c hdr img s = .ok 4 none s) ∧
  (∀ (w : Who) id img (s t : State) d, cmdPartCreate s w id img = .ok 0 d t → (s.part id).st = .free ∧ (t.part id).st = .halted ∧ (t.part id).img = partStored img ∧
    (t.context (fld img 63 54)).st = .active ∧ (t.context (fld img 63 54)).level = 1) ∧
  (∀ (w : Who) id (s t : State) d, cmdPartDestroy s w id = .ok 0 d t → (s.part id).st = .halted ∧ (t.part id).st = .free)

/-- R378, R241: IRET answers the warp or the foreman that a KIND 1 entry of the ring names, while it waits with the entry's request number. -/
def Obligations.ServiceReturn : Prop :=
  (∀ x s, Enabled 0xE2 x s → active x s = [] → ∃ t, exec (.iret x) s = .next t ∧ EndsView x s t (viewOf s)) ∧
  (∀ x s u us as, Enabled 0xE2 x s → active x s = u :: us →
    checkAll s (who s) (who s).owner [{ tid := u.tid, slot := u.slot, va := rdU (viewOf s).warp x.a, size := 64, acc := 1, align := 64 }] = .ok as →
    (Owes s 2 [u] → ∃ t, exec (.iret x) s = .next t ∧ Stalls s t) ∧
    (∀ ds s1, ¬Owes s 2 [u] → (∀ a ∈ as, a.fab = none) → BlocksRead s as ds s1 →
      let a := (rdU (viewOf s).warp x.a).toNat
      let e := ds.getD 0 0
      let p := s1.part (who s).part
      let D (n : Nat) : View := ⟨wrU (viewOf s).warp x.d (BitVec.ofNat 64 n), (viewOf s).ths⟩
      let entry := (who s).phys = false ∧ (who s).ctx = p.kctx ∧ p.ksvcBase.toNat ≤ a ∧ a + 64 ≤ p.ksvcBase.toNat + 64 * p.ksvcEntries ∧ fld e 343 336 = 1
      let answer := answerEntry s1 (who s).part e (bU x (viewOf s).warp) (releasePts s1 (who s) (some u) 2 3)
      (¬entry → ∃ t, exec (.iret x) s = .next t ∧ MovesTo x s t (D 2) ∧ t.mem = s1.mem) ∧
      (entry → answer = none → ∃ t, exec (.iret x) s = .next t ∧ MovesTo x s t (D 1) ∧ t.mem = s1.mem) ∧
      (∀ s2, entry → answer = some s2 → ∃ t, exec (.iret x) s = .next t ∧ MovesTo x s t (D 0) ∧ t.mem = s1.mem ∧ (∀ g, g ≠ (who s).gid → t.group? g = s2.group? g) ∧
        ∀ c, (t.cluster c).fore = (s2.cluster c).fore))) ∧
  -- the answer: the warp's destination, its next request number, and its threads past the SYSCALL
  (∀ (s : State) gid g w q part e b pts, gid = fld e 319 303 → gid ≠ 0x1FFFF → s.group? gid = some g → g.life = .running → g.ctx = fld e 329 320 → g.warp? (fld e 302 298) = some w →
    g.gid = gid → w.sys = some q → w.reqno.toNat = fld e 383 352 → ∃ t g' w', answerEntry s part e b pts = some t ∧ t.group? gid = some g' ∧ g'.warp? w.wid = some w' ∧
      w' = { wrU w q.d b with sys := none, reqno := w.reqno + 1 } ∧ g'.threads = g.threads.map (fun u => if q.tids.contains u.tid then { u with pc := q.next } else u)) ∧
  (∀ (s : State) gid g w part e b pts, gid = fld e 319 303 → gid ≠ 0x1FFFF → s.group? gid = some g → g.warp? (fld e 302 298) = some w → (w.sys = none ∨ w.reqno.toNat ≠ fld e 383 352) →
    answerEntry s part e b pts = none) ∧
  -- a foreman's answer
  (∀ (s : State) cl q b pts, let f := ((answerForeman s cl q b pts).cluster cl).fore
    f.w = { wrU (s.cluster cl).fore.w q.d b with sys := none, reqno := (s.cluster cl).fore.w.reqno + 1 } ∧ f.th = { (s.cluster cl).fore.th with pc := q.next } ∧
    f.run = (s.cluster cl).fore.run ∧ (answerForeman s cl q b pts).mem = s.mem)

/-- R389, R390, R391, R444 to R446: HALT.s stops a partition and completes when nothing of it is under way; HALT.c lets it run again; VSAVE and VLOAD move a halted partition to and
from the vaults, with results 1 to 5 where they cannot; TLBLS drops the translations of its scope once none is in use. A partition or context that the caller may not name raises
PERM.
R392, R505, R507, R508, R510: PMCFG.ctr configures and zeroes a counter of a cluster, PMRD reads one, PMRD.clr zeroes it in the same step; PMCFG.smp starts or stops a cluster's
sampling unit. A cluster that is not there raises ILL, one that the caller may not name PERM, a die's event outside M mode PRIV. -/
def Obligations.PartitionControl : Prop :=
  ((∀ i ∈ [(Instr.haltS, 0xE8#8), (.haltC, 0xE8#8), (.vsave, 0xE5#8), (.vload, 0xE6#8), (.tlblsVa, 0xE7#8), (.tlblsCtx, 0xE7#8), (.tlblsAll, 0xE7#8)], ∀ x s, Enabled i.2 x s →
    active x s = [] → ∃ t, exec (i.1 x) s = .next t ∧ EndsView x s t (viewOf s)) ∧
  -- HALT
  (∀ i ∈ [Instr.haltS, .haltC], ∀ x s, Enabled 0xE8 x s → active x s ≠ [] → let A := rdU (viewOf s).warp x.a
    (64 ≤ A.toNat ∨ (s.part A.toNat).st = .free) → exec (i x) s = .next (takeFault (permFlt 0 0 0 0) s)) ∧
  (∀ x s, Enabled 0xE8 x s → active x s ≠ [] → let p := (rdU (viewOf s).warp x.a).toNat
    p < 64 → (s.part p).st ≠ .free →
    ((s.part p).st = .swapped → ∀ i ∈ [Instr.haltS, .haltC], ∃ t, exec (i x) s = .next t ∧ EndsView x s t (viewOf s)) ∧
    ((s.part p).st = .running ∨ (s.part p).st = .halted →
      let s1 := if (s.part p).st = .running then s.updPart p fun k => { k with st := .halted, haltAt := s.ptime } else s
      let s2 := preemptAll (mineOf s1 p) s1
      (haltBusy s2 p = true → ∃ t, exec (.haltS x) s = .next t ∧ Stalls s t ∧ (t.part p).st = .halted) ∧
      (haltBusy s2 p = false → ∃ t, exec (.haltS x) s = .next t ∧ MovesOn x s t ∧ t.mem = s.mem ∧ (t.part p).st = .halted ∧
        ∀ g k, s.group? g = some k → k.part = p → ∃ k', t.group? g = some k' ∧ (∀ w ∈ k'.warps, w.sys = none) ∧ (∀ u ∈ k'.threads, u.resv = none))) ∧
    ((s.part p).st = .running → ∃ t, exec (.haltC x) s = .next t ∧ EndsView x s t (viewOf s)) ∧
    ((s.part p).st = .halted → ∃ t, exec (.haltC x) s = .next t ∧ MovesOn x s t ∧ t.mem = s.mem ∧ (t.part p).st = .running ∧
      ∀ g k, s.group? g = some k → k.part = p → ∃ k', t.group? g = some k' ∧ ∀ w ∈ k'.warps, w.fair = 0)) ∧
  (∀ (s : State) p, ((restartPart s p).part p).st = .running ∧ ((withdrawPart s p).part p).st = (s.part p).st ∧ ((restartPart s p).mem = s.mem)) ∧
  -- no group, copy or foreman of a partition that does not run goes on
  (∀ (s : State) gid g, s.group? gid = some g → (s.part g.part).st ≠ .running → s.groupRuns gid = false) ∧
  -- VSAVE and VLOAD
  (∀ i ∈ [(Instr.vsave, 0xE5#8), (.vload, 0xE6#8)], ∀ x s, Enabled i.2 x s → active x s ≠ [] → let p := (rdU (viewOf s).warp x.a).toNat
    let ends (n : Nat) : Prop := ∃ t, exec (i.1 x) s = .next t ∧ EndsView x s t ⟨wrU (viewOf s).warp x.d (BitVec.ofNat 64 n), (viewOf s).ths⟩
    ((bU x (viewOf s).warp).toNat % 2 ^ 20 ≠ 0 → exec (i.1 x) s = .next (takeFault (ownIll i.2.toNat x) s)) ∧
    ((bU x (viewOf s).warp).toNat % 2 ^ 20 = 0 →
      (64 ≤ p ∨ (s.part p).st = .free → ends 3) ∧ (p < 64 → (s.part p).st = .running → ends 1) ∧
      (i.2 = 0xE5 → p < 64 → (s.part p).st = .swapped → ends 1) ∧ (i.2 = 0xE6 → p < 64 → ((s.part p).st = .halted ∨ (s.part p).st = .swapped) →
        s.vault.find? (fun v => v.part == p && v.off == (bU x (viewOf s).warp).toNat) = none → ends 4))) ∧
  (∀ x s, Enabled 0xE5 x s → active x s ≠ [] → let p := (rdU (viewOf s).warp x.a).toNat
    let b := (bU x (viewOf s).warp).toNat
    b % 2 ^ 20 = 0 → p < 64 → (s.part p).st = .halted → let sizes := imageSizes s p s.free
    let D (n : Word64) : View := ⟨wrU (viewOf s).warp x.d n, (viewOf s).ths⟩
    ((∃ d ∈ sizes, vaultBytes < b + d.2) → ∃ t, exec (.vsave x) s = .next t ∧ MovesTo x s t (D 2) ∧ t.mem = s.mem ∧ t.vault = s.vault ∧ (t.part p).st = .halted) ∧
    ((∀ d ∈ sizes, b + d.2 ≤ vaultBytes) → (∀ c ∈ s.clustersOf p, s.dirtyWaits c = false ∧ ∀ k ∈ s.packets, k.gid ≠ foreGid c) →
      -- the result: the largest die's image in MiB above the ticks the move took, at most what R446 allows
      ∃ t ticks, exec (.vsave x) s = .next t ∧ MovesTo x s t (D (BitVec.ofNat 64 ((largest sizes + 2 ^ 20 - 1) / 2 ^ 20 * 2 ^ 32 + ticks))) ∧
        ticks ≤ 3000 + (largest sizes + 3499) / 3500 ∧ s.ptime + ticks ≤ t.ptime ∧
        (t.part p).st = .swapped ∧ (∀ g ∈ t.groups, g.2.part ≠ p) ∧
        ∃ img ∈ t.vault, img.part = p ∧ img.off = b ∧ img.dies = sizes ∧ ∀ g ∈ s.groups, g.2.part = p → ∃ k ∈ img.groups, k.gid = g.2.gid ∧ k.suppress = []) ∧
    ((∀ d ∈ sizes, b + d.2 ≤ vaultBytes) → (∃ c ∈ s.clustersOf p, s.dirtyWaits c = true ∨ ∃ k ∈ s.packets, k.gid = foreGid c) → ∃ t, exec (.vsave x) s = .next t ∧ Stalls s t)) ∧
  (∀ (s : State) p off sizes, ((savePart s p off sizes).part p).st = .swapped ∧ (∀ g ∈ (savePart s p off sizes).groups, g.2.part ≠ p) ∧
    ∃ img ∈ (savePart s p off sizes).vault, img.part = p ∧ img.off = off ∧ img.dies = sizes ∧ ∀ g ∈ s.groups, g.2.part = p → ∃ k ∈ img.groups, k.gid = g.2.gid) ∧
  (∀ x s img, Enabled 0xE6 x s → active x s ≠ [] → let p := (rdU (viewOf s).warp x.a).toNat
    let b := (bU x (viewOf s).warp).toNat
    b % 2 ^ 20 = 0 → p < 64 → (s.part p).st = .halted ∨ (s.part p).st = .swapped → s.vault.find? (fun v => v.part == p && v.off == b) = some img →
    let D (n : Word64) : View := ⟨wrU (viewOf s).warp x.d n, (viewOf s).ths⟩
    let taken (c : Nat) : Prop := s.present c = false ∨ (∃ q ∈ s.parts, q.1 ≠ p ∧ q.2.st ≠ .free ∧ q.2.st ≠ .swapped ∧ bit q.2.img (320 + c) = true) ∨ ∃ g ∈ s.groups, gidCl g.1 = c
    ((∃ d ∈ img.dies, s.dieLost d.1 = true) → ∃ t, exec (.vload x) s = .next t ∧ EndsView x s t (D 5)) ∧
    ((∀ d ∈ img.dies, s.dieLost d.1 = false) → (∃ c ∈ s.clustersOf p, taken c) → ∃ t, exec (.vload x) s = .next t ∧ EndsView x s t (D 4)) ∧
    ((∀ d ∈ img.dies, s.dieLost d.1 = false) → (∀ c ∈ s.clustersOf p, ¬taken c) →
      ∃ t ticks, exec (.vload x) s = .next t ∧ MovesTo x s t (D (BitVec.ofNat 64 ((largest img.dies + 2 ^ 20 - 1) / 2 ^ 20 * 2 ^ 32 + ticks))) ∧
        ticks ≤ 3000 + (largest img.dies + 3499) / 3500 ∧ s.ptime + ticks ≤ t.ptime ∧ (t.part p).st = .halted ∧ t.mem = s.mem ∧
        (s.groups.rising = true → ∀ k ∈ img.groups, (t.group? k.gid).isSome = true))) ∧
  (∀ (s : State) p img, ((loadPart s p img).part p).st = .halted ∧ (loadPart s p img).mem = s.mem) ∧
  -- TLBLS
  (∀ p ∈ [(Instr.tlblsVa, 0), (.tlblsCtx, 1), (.tlblsAll, 2)], ∀ x s, Enabled 0xE7 x s → active x s ≠ [] → let c := (rdU (viewOf s).warp x.a).toNat
    (p.2 ≠ 2 → (s.context c).st = .free → ∃ t, exec (p.1 x) s = .next t ∧ EndsView x s t (viewOf s)) ∧
    (p.2 ≠ 2 → (s.context c).st ≠ .free → (who s).phys = false → (s.context c).part ≠ (who s).part → exec (p.1 x) s = .next (takeFault (permFlt 0 0 0 0) s)) ∧
    ((p.2 = 2 ∨ ((s.context c).st ≠ .free ∧ ((who s).phys = true ∨ (s.context c).part = (who s).part))) →
      ∀ r, s.dropXlat p.2 c (bU x (viewOf s).warp).toNat = r →
        (r.1 = true → ∃ t, exec (p.1 x) s = .next t ∧ MovesOn x s t ∧ t.mem = s.mem ∧
          ∀ e ∈ t.tlb, (p.2 = 2 ∨ e.ctx = c) → p.2 = 0 ∧ (bU x (viewOf s).warp).toNat / e.psize ≠ e.vpage) ∧
        (r.1 = false → ∃ t, exec (p.1 x) s = .next t ∧ t.cur.stalled = true ∧ (after s t).ths = (viewOf s).ths ∧ t.mem = s.mem))) ∧
  -- what a drop leaves: no translation, and no guest's grant, in the page, the context or at all
  (∀ (s t : State) scope c va, s.dropXlat scope c va = (true, t) → t.mem = s.mem ∧ (∀ e ∈ t.tlb, e ∈ s.tlb) ∧
    (∀ e ∈ s.tlb, ¬(scope = 2 ∨ e.ctx = c) → e ∈ t.tlb) ∧ (∀ e ∈ t.tlb, (scope = 2 ∨ e.ctx = c) → scope = 0 ∧ va / e.psize ≠ e.vpage) ∧
    let n := s.leafSize c va
    let base := va / n * n
    ∀ p ∈ s.sites, p.2.st = 2 → ∀ g ∈ p.2.grants, scope ≠ 2 ∧ (g.ctx = c → scope = 0 ∧ ¬(base ≤ g.va ∧ g.va + g.size ≤ base + n)))) ∧
  ((∀ i ∈ [(Instr.pmcfgCtr, 0xE9#8), (.pmcfgSmp, 0xE9#8), (.pmrd, 0xEA#8), (.pmrdClr, 0xEA#8)], ∀ x s, Enabled i.2 x s → active x s = [] →
    ∃ t, exec (i.1 x) s = .next t ∧ EndsView x s t (viewOf s)) ∧
  (∀ i ∈ [(Instr.pmcfgCtr, 0xE9#8), (.pmcfgSmp, 0xE9#8), (.pmrd, 0xEA#8), (.pmrdClr, 0xEA#8)], ∀ x s, Enabled i.2 x s → active x s ≠ [] → let A := rdU (viewOf s).warp x.a
    (191 < A.toNat → exec (i.1 x) s = .next (takeFault (ownIll i.2.toNat x) s)) ∧
    (A.toNat ≤ 191 → x.d.toNat ≤ 15 ∨ i.2 = 0xEA → x.c.toNat ≤ 15 → (∀ y, i.1 y = Instr.pmcfgSmp y → x.d = 0) →
      s.fenced.contains A.toNat = true ∨ s.dieLost (A.toNat / 24) = true ∨ ((who s).phys = false ∧ s.partOfCluster A.toNat ≠ (who s).part) →
      exec (i.1 x) s = .next (takeFault (permFlt 0 0 0 0) s))) ∧
  (∀ x s, Enabled 0xE9 x s → active x s ≠ [] → let cl := (rdU (viewOf s).warp x.a).toNat
    let cfg := bU x (viewOf s).warp
    cl ≤ 191 → s.fenced.contains cl = false → s.dieLost (cl / 24) = false → ((who s).phys = true ∨ s.partOfCluster cl = (who s).part) → x.d.toNat ≤ 15 →
    (cfg.toNat / 2 ^ 32 ≠ 0 ∨ evListed (cfg.toNat % 2 ^ 16) = false → exec (.pmcfgCtr x) s = .next (takeFault (ownIll 0xE9 x) s)) ∧
    (cfg.toNat / 2 ^ 32 = 0 → evListed (cfg.toNat % 2 ^ 16) = true → (who s).phys = false → evDie (cfg.toNat % 2 ^ 16) = true →
      exec (.pmcfgCtr x) s = .next (takeFault { code := cPriv } s)) ∧
    (cfg.toNat / 2 ^ 32 = 0 → evListed (cfg.toNat % 2 ^ 16) = true → ((who s).phys = true ∨ evDie (cfg.toNat % 2 ^ 16) = false) → ∃ t, exec (.pmcfgCtr x) s = .next t ∧
      (t.cluster cl).ctrs = (s.cluster cl).ctrs.set x.d.toNat { cfg := cfg, cnt := 0, part := if (who s).phys then none else some (who s).part } ∧ t.mem = s.mem ∧
      EndsWith x s t (viewOf s).warp (viewOf s).ths)) ∧
  (∀ x s, Enabled 0xEA x s → active x s ≠ [] → let cl := (rdU (viewOf s).warp x.a).toNat
    cl ≤ 191 → s.fenced.contains cl = false → s.dieLost (cl / 24) = false → ((who s).phys = true ∨ s.partOfCluster cl = (who s).part) → x.c.toNat ≤ 15 →
    let k := (s.cluster cl).ctrs.getD x.c.toNat {}
    (∃ t, exec (.pmrd x) s = .next t ∧ EndsView x s t ⟨wrU (viewOf s).warp x.d k.cnt, (viewOf s).ths⟩) ∧
    ∃ t, exec (.pmrdClr x) s = .next t ∧ (t.cluster cl).ctrs = (s.cluster cl).ctrs.set x.c.toNat { k with cnt := 0 } ∧ t.mem = s.mem ∧
      EndsWith x s t (wrU (viewOf s).warp x.d k.cnt) (viewOf s).ths) ∧
  -- a counter takes exactly the events that it counts
  (∀ evs (s : State) cl c, s.clusters.find? cl = some c → ((applyEvs evs s).cluster cl).ctrs = if c.counting then
    c.ctrs.map (fun k => { k with cnt := k.cnt + BitVec.ofNat 64 (((evs.filter (counts s cl k)).map Ev.n).foldl (· + ·) 0) }) else c.ctrs) ∧
  -- PMCFG.smp
  (∀ x s, Enabled 0xE9 x s → active x s ≠ [] → let cl := (rdU (viewOf s).warp x.a).toNat
    let b := bU x (viewOf s).warp
    cl ≤ 191 → s.fenced.contains cl = false → s.dieLost (cl / 24) = false → ((who s).phys = true ∨ s.partOfCluster cl = (who s).part) → x.d = 0 →
    (b = 0 → (∀ u t, stopSmp s cl 1 = .ok u t → ∃ k, exec (.pmcfgSmp x) s = .next k ∧ MovesOn x s k ∧ k.mem = t.mem ∧ (k.cluster cl).smp = none) ∧
      ((stopSmp s cl 1 = .wait ∨ ∃ f, stopSmp s cl 1 = .recall f) → ∃ t, exec (.pmcfgSmp x) s = .next t ∧ t.cur.stalled = true ∧ (after s t).ths = (viewOf s).ths ∧ t.mem = s.mem)) ∧
    (b ≠ 0 → b.toNat % 64 ≠ 0 ∨ b.toNat / 2 ^ 52 ≠ 0 → exec (.pmcfgSmp x) s = .next (takeFault (ownIll 0xE9 x) s)) ∧
    (∀ k ks as ds s1, b ≠ 0 → b.toNat % 64 = 0 → b.toNat / 2 ^ 52 = 0 → active x s = k :: ks →
      checkAll s (who s) (who s).owner [{ tid := k.tid, slot := k.slot, va := b, size := 64, acc := 1, align := 64 }] = .ok as → BlocksRead s as ds s1 →
      (smpBad (ds.getD 0 0) = true → exec (.pmcfgSmp x) s = .next (takeFault (ownIll 0xE9 x) s)) ∧
      (∀ u2 s2 u3 s3, smpBad (ds.getD 0 0) = false → stopSmp s1 cl 1 = .ok u2 s2 → startSmp s2 (who s) cl b (ds.getD 0 0) = .ok u3 s3 →
        ∃ t, exec (.pmcfgSmp x) s = .next t ∧ MovesOn x s t ∧ t.mem = s3.mem ∧ (t.cluster cl).smp = (s3.cluster cl).smp ∧
          ∀ u, (t.cluster cl).smp = some u → u.addr = b ∧ u.img = ds.getD 0 0 ∧ u.part = (if (who s).phys then none else some (who s).part)))))

/-! ## Events -/

/-- R22, R409, R29, R30, R284, R144, R154, R155: the events of the cores and of logical time, each where it is due; one that is not due changes nothing.
R149, R153, R209, R273, R275: a recall that was asked for ends a claim once its protected time is over; an access whose last part has answered leaves the list of what is
outstanding, writes its registers, sets RFAIL for a failed thread, and raises REMOTE, FORMAT or POISON where the answer asks for it. -/
def Obligations.CoreEvents : Prop :=
  ((∀ (s : State) gid wid g w, s.group? gid = some g → g.warp? wid = some w →
    (switchDue g w = true → ∃ t g' w', exec (.fairnessSwitch gid wid) s = .next t ∧ t.group? gid = some g' ∧ g'.warp? wid = some w' ∧ w' = { w with forced := pathPc g w, fair := 0 } ∧
      g'.threads = g.threads ∧ t.mem = s.mem) ∧
    (switchDue g w = false → exec (.fairnessSwitch gid wid) s = .next s)) ∧
  (∀ (s : State) core lane, core < 768 → lane < Config.lanes → (s.slotOrder core lane).any (awake s core lane) = false → ∃ t, exec (.laneIdleCycle core lane) s = .next t ∧
    t.now = s.now + s.cycleLen (core / 96) ∧ (∀ b ∈ (t.core core).bins, s.groupRuns b.gid = true → b.ready = true) ∧ (t.core core).bins.map (fun b => { b with ready := false }) =
      (s.core core).bins.map (fun b => { b with ready := false }) ∧ t.groups = s.groups ∧ t.mem = s.mem) ∧
  (∀ (s : State) core n b, (s.core core).bins[n]? = some b → ∃ t, exec (.binReady core n) s = .next t ∧
    (t.core core).bins = (if s.groupRuns b.gid = true ∧ 2048 ≤ binAge s core b then (s.core core).bins.set n { b with ready := true } else (s.core core).bins) ∧
    t.groups = s.groups ∧ t.mem = s.mem) ∧
  (∀ (s : State) gid g b slot, s.groupRuns gid = true → s.group? gid = some g → s.drawBin gid = some b → g.freeSlot = some slot → ∃ t, exec (.binDraw gid) s = .next t ∧
    t.group? gid = some (g.form slot b.pc ((b.filed.foldr insTid []).take Config.warpW)) ∧ t.mem = s.mem ∧
    (∀ c ∈ (t.core (gidCore gid)).bins, (c.gid = b.gid ∧ c.pc = b.pc ∧ c.key = b.key) → c.filed = (b.filed.foldr insTid []).drop Config.warpW ∧ c.filed ≠ [])) ∧
  (∀ (s : State) gid b, s.drawBin gid = some b → b.gid = gid ∧ b.ready = true ∧ ∀ c ∈ (s.core (gidCore gid)).bins, c.gid = gid → c.ready = true → c.filed ≠ [] →
    c.filed.length < b.filed.length ∨ (c.filed.length = b.filed.length ∧ b.pc.toNat ≤ c.pc.toNat)) ∧
  (∀ (g : Group) slot pc f fs, ∃ w, (g.form slot pc (f :: fs)).warps = g.warps ++ [w] ∧ w.wid = g.freeWid ∧ w.lane = slot.1 ∧ w.wslot = slot.2 ∧ w.s = f.s ∧ w.rmode = f.rmode ∧
    w.dmode = f.dmode ∧ w.lease = f.lease) ∧
  (∀ (s : State) gid tid g u b c, s.group? gid = some g → g.thread? tid = some u → u.resv = some (b, c) →
    (c + 4096 ≤ s.cyclesOf (gidDie gid) → ∃ t k, exec (.reservationTimeout gid tid) s = .next t ∧ threadIn t gid tid = some k ∧ k.resv = none ∧ k.v = u.v ∧ t.mem = s.mem) ∧
    (s.cyclesOf (gidDie gid) < c + 4096 → exec (.reservationTimeout gid tid) s = .next s)) ∧
  (∀ (s : State) cl, cl < 192 → s.present cl = true → let c := s.cluster cl
    (c.tickAt + c.tickLen ≤ s.cyclesOf (cl / 24) → ∃ t, exec (.selftick cl) s = .next t ∧ (t.cluster cl).pts = c.pts + 1 ∧ (t.cluster cl).tickAt = c.tickAt + c.tickLen ∧
      (t.cluster cl).tickLen = c.selftick ∧
      (∀ k, k ≠ cl → (t.cluster k).pts = (s.cluster k).pts) ∧ t.groups = s.groups ∧ t.mem = s.mem) ∧
    (s.cyclesOf (cl / 24) < c.tickAt + c.tickLen → exec (.selftick cl) s = .next s)) ∧
  (∀ (s : State) k, k < 192 → s.present k = true → let lags := tsLater s.pmax (s.cluster k).pts = true ∧ 2 ^ 21 ≤ (s.pmax - (s.cluster k).pts).toNat
    (lags → ∃ t, exec (.ptsLagAdvance k) s = .next t ∧ (t.cluster k).pts = s.pmax - 0x200000 ∧ (∀ j, j ≠ k → t.cluster j = s.cluster j) ∧ t.mem = s.mem) ∧
    (¬lags → exec (.ptsLagAdvance k) s = .next s)) ∧
  (∀ (s : State) n, n < 2 → (s.site n).st = 2 → let lags := tsLater s.pmax (s.site n).pts = true ∧ 2 ^ 21 ≤ (s.pmax - (s.site n).pts).toNat
    (lags → ∃ t, exec (.ptsLagAdvance (192 + n)) s = .next t ∧ (t.site n).pts = s.pmax - 0x200000 ∧ t.clusters = s.clusters ∧ t.mem = s.mem) ∧
    (¬lags → exec (.ptsLagAdvance (192 + n)) s = .next s)) ∧
  -- a fragment whose rts lags Pmin by 2^22 or more is rebased to just before Pmin
  (∀ (s : State) f x, s.frags.find? (fun y => y.id == f) = some x → let d := (s.pmin - x.rts).toNat
    (2 ^ 22 ≤ d ∧ d < 2 ^ 24 - 2 ^ 22 → ∃ t y, exec (.fragmentRebase f) s = .next t ∧ t.frags.find? (fun y => y.id == f) = some y ∧ y.wts = s.pmin - 1 ∧ y.rts = s.pmin - 1 ∧
      y.holder = x.holder ∧ y.blocks = x.blocks ∧ y.ver.toNat % 2 ^ 24 = (s.pmin - 1).toNat ∧ t.lastVer = some y.ver ∧ t.mem = s.mem) ∧
    (¬(2 ^ 22 ≤ d ∧ d < 2 ^ 24 - 2 ^ 22) → exec (.fragmentRebase f) s = .next s)) ∧
  -- R157: a version issued is the smallest later than every version before that carries its time
  (∀ (s : State) t l, s.lastVer = some l → l.toNat + 2 ^ 25 < 2 ^ 64 → let v := (s.issueVer t).1
    l.toNat < v.toNat ∧ v.toNat ≤ l.toNat + 2 ^ 24 ∧ v.toNat % 2 ^ 24 = t.toNat ∧ (s.issueVer t).2.lastVer = some v) ∧
  (∀ (s : State) t, s.lastVer = none → (s.issueVer t).1.toNat = t.toNat ∧ (s.issueVer t).2.lastVer = some (s.issueVer t).1)) ∧
  ((∀ (s : State) f x cl ctx, s.frags.find? (fun y => y.id == f) = some x → x.recalled = true → s.holdOver x = true → x.holder = some (.cluster cl, ctx) →
    (∀ b ∈ x.blocks, s.waitsAt (b * 64) = false) → ∃ t y, exec (.writebackDone f) s = .next t ∧ t.frags.find? (fun y => y.id == f) = some y ∧ y.holder = none ∧ y.recalled = false ∧
      (t.cluster cl).claim? f ctx = none ∧ (∀ b ∈ x.blocks, ∀ h ∈ (t.cluster cl).held, h.blk ≠ b)) ∧
  (∀ (s : State) f x, s.frags.find? (fun y => y.id == f) = some x → (x.recalled = false ∨ s.holdOver x = false) → exec (.writebackDone f) s = .next s) ∧
  (∀ (s : State) f x, s.frags.find? (fun y => y.id == f) = some x → ∃ y, (s.endHolder f).frags.find? (fun y => y.id == f) = some y ∧ y.holder = none ∧ y.recalled = false ∧
    y.blocks = x.blocks) ∧
  (∀ (s : State) f x, s.frags.find? (fun y => y.id == f) = some x →
    (x.holder.isSome = true → s.holdOver x = true → ∃ t, exec (.writeClaimHoldExpiry f) s = .next t ∧ t.frags.find? (fun y => y.id == f) = some { x with used := true } ∧ t.mem = s.mem) ∧
    (x.holder = none ∨ s.holdOver x = false → exec (.writeClaimHoldExpiry f) s = .next s)) ∧
  -- R153: a claim is protected until it is used, or for 256 core cycles of its holder's die
  (∀ (s : State) x cl ctx, x.holder = some (.cluster cl, ctx) → (s.holdOver x = true ↔ x.used = true ∨ x.grantAt + 256 ≤ s.cyclesOf (cl / 24))) ∧
  (∀ (s : State) n data, (∀ l ∈ s.loads, l.id ≠ n) → exec (.memoryResponse n data) s = .next s) ∧
  (∀ (s : State) n l data s1 ps l2 s2, s.loads.find? (fun l => l.id == n) = some l → l.kind ≠ .atomic → selfAll l (assign s.accelId.toNat l.parts data) s = (ps, s1) →
    localParts { l with parts := ps } s1 = .ok l2 s2 →
    -- a part still waits: the access stays outstanding, with what has come
    (l2.parts.any LoadPart.waits = true → ∃ t, exec (.memoryResponse n data) s = .next t ∧ t.groups = s2.groups ∧ t.mem = s2.mem ∧
      ((s2.loads.find? fun k => k.id == n).isSome = true → l2.id = n → t.loads.find? (fun k => k.id == n) = some l2)) ∧
    -- all have come: the registers are written
    (∀ v, l2.parts.any LoadPart.waits = false → l2.kind ≠ .copy → l2.kind ≠ .record → l2.noret = false → (l2.remote = true → ∀ p ∈ l2.parts, p.failed = false) →
      (∀ p ∈ l2.parts, partBad l2 p = false) → view { s2 with cur := l2.cur } = some v → ∃ t, exec (.memoryResponse n data) s = .next t ∧ (∀ k ∈ t.loads, k.id ≠ l2.id) ∧
        let w := v.place l2.enc l2.d l2.size (l2.parts.map fun p => (p.tid, (partValue l2 p).1, (partValue l2 p).2, p.seen))
        let r := viewOf { t with cur := l2.cur }
        r.ths.map (fun u => (u.tid, u.v, u.fpflags, u.pc)) = w.ths.map (fun u => (u.tid, u.v, u.fpflags, u.pc)) ∧ r.warp.s = w.warp.s ∧
        ∀ u ∈ r.ths, (∃ p ∈ l2.parts, p.tid = u.tid ∧ p.failed = true) → u.rfail = true)) ∧
  (∀ (s : State) n l data s1 ps p, s.loads.find? (fun l => l.id == n) = some l → l.kind ≠ .atomic → selfAll l (assign s.accelId.toNat l.parts data) s = (ps, s1) →
    localParts { l with parts := ps } s1 = .poison p → ∃ t, exec (.memoryResponse n data) s = .next t ∧ (∀ k ∈ t.loads, k.id ≠ n) ∧
      -- the fault is precise: the path stands at the instruction again
      ∀ g, l.gid < 131072 → s1.group? l.gid = some g → g.life = .running → ∃ g' r, t.group? l.gid = some g' ∧ g'.life = .stopping r false ∧ r.code = cPoison ∧ r.pc = l.pc ∧ r.tid = p.tid ∧
        r.addr = p.addr ∧ ∀ u ∈ g'.threads, u.tid ∈ l.path → u.run = .path → u.pc = l.pc) ∧
  (∀ l (s : State), ∀ k ∈ (completeLoad l s).loads, k.id ≠ l.id) ∧
  -- a failed access of an instruction that may raise REMOTE
  (∀ l (s : State) p g, l.kind ≠ .copy → l.remote = true → l.parts.find? LoadPart.failed = some p → l.gid < 131072 → s.group? l.gid = some g → g.life = .running →
    ∃ g' r, (completeLoad l s).group? l.gid = some g' ∧ g'.life = .stopping r false ∧ r.code = cRemote ∧ r.pc = l.pc ∧ r.tid = p.tid ∧ r.addr = p.addr ∧ r.aux = BitVec.ofNat 64 l.limit ∧
      (∀ a x, p.place = .fabric a x → r.info = BitVec.ofNat 32 a) ∧ ∀ u ∈ g'.threads, u.tid ∈ l.path → u.run = .path → u.pc = l.pc) ∧
  (∀ l p, p.failed = true → partValue l p = (2 ^ (8 * l.size) - 1, 0)))

/-- R164 to R169, R317, R320: COPY_START takes the earliest command that may start, at most four running; COPY_BLOCK performs the next block or ends, suspends or stops the command as
its failure asks; COPY_END ends a command with CODE 0, or 5 where its two CRCs differ; the end of a command writes the status word to a register that waits for it and leaves the
queue. -/
def Obligations.CopyEngine : Prop :=
  (∀ (s : State) cl, copyNext s cl = none → exec (.copyStart cl) s = .next s) ∧
  (∀ (s : State) cl c, copyNext s cl = some c → c ∈ (s.cluster cl).copyQ ∧ c.st = .queued ∧ s.groupRuns c.gid = true ∧ (s.guardOf c.gid c.cap).isSome = true ∧
    ((s.cluster cl).copyQ.filter fun k => k.st == .running).length < 4 ∧
    -- a false guard slot discards it; an error of its first checks ends it; else it runs
    (s.guardOf c.gid c.cap = some false → ∃ t, exec (.copyStart cl) s = .next t ∧ (t.cluster cl).copyQ = (s.cluster cl).copyQ.filter (fun k => k.id != c.id) ∧ t.mem = s.mem ∧
      (c.crc = false → Answered s t c.gid c.cap.wid c.dreg c.id (BitVec.ofNat 64 (2 ^ 63 + 2 ^ 62)))) ∧
    (∀ e, s.guardOf c.gid c.cap = some true → copyWidth s c = .error e → ∃ t, exec (.copyStart cl) s = .next t ∧
      (t.cluster cl).copyQ = (s.cluster cl).copyQ.filter (fun k => k.id != c.id) ∧ t.mem = s.mem ∧
      (c.crc = false → Answered s t c.gid c.cap.wid c.dreg c.id (BitVec.ofNat 64 (2 ^ 63 + e % 64 * 2 ^ 56 + c.bytes / 2 % 2 ^ 40)))) ∧
    (∀ w, s.guardOf c.gid c.cap = some true → (s.cluster cl).copyQ.find? (fun k => k.id == c.id) = some c → copyWidth s c = .ok w → ∃ t, exec (.copyStart cl) s = .next t ∧ t.mem = s.mem ∧
      (t.cluster cl).copyQ.map CopyCmd.id = (s.cluster cl).copyQ.map CopyCmd.id ∧
      ∃ k ∈ (t.cluster cl).copyQ, k.id = c.id ∧ k.st = .running ∧ k.width = w ∧ k.cap.gs = none ∧ (c.isM = false → k.bound = c.bound))) ∧
  (∀ (s : State) cl id c, (s.cluster cl).copyQ.find? (fun c => c.id == id) = some c → (c.st ≠ .running ∨ s.groupRuns c.gid = false) → exec (.copyBlock cl id) s = .next s) ∧
  (∀ (s : State) cl id c u, (s.cluster cl).copyQ.find? (fun c => c.id == id) = some c → c.st = .running → s.groupRuns c.gid = true → c.plan[c.done]? = some u →
    let w := engineWho s c.gid c.cap.wid
    let written := ((c.covers u).filter fun p => p.2).map (·.1)
    -- the MATRIX watch of a bound CPYM's region comes before its first block
    (∀ f, c.done = 0 → c.bound = true → c.passMatrix = false → matrixHit s w c.layout c.coord = some f → ∃ t, exec (.copyBlock cl id) s = .next t ∧
      EngineStopped t c.gid f 2 c.cap.pc ∧ t.mem = s.mem ∧ (∃ k ∈ (t.cluster cl).copyQ, k.id = id ∧ k.st = .suspended ∧ k.done = 0)) ∧
    ((c.done ≠ 0 ∨ c.bound = false ∨ c.passMatrix = true) →
      (∀ n, locateAll s w c.srcGlob 1 (blocksOf (c.reads u)) = .error (.code n) → ∃ t, exec (.copyBlock cl id) s = .next t ∧
        (t.cluster cl).copyQ = (s.cluster cl).copyQ.filter (fun k => k.id != c.id) ∧ t.mem = s.mem ∧
        (c.crc = false → Answered s t c.gid c.cap.wid c.dreg c.id (BitVec.ofNat 64 (2 ^ 63 + n % 64 * 2 ^ 56 + c.bytes / 2 % 2 ^ 40)))) ∧
      ∀ srcs dsts, locateAll s w c.srcGlob 1 (blocksOf (c.reads u)) = .ok srcs → locateAll s w c.dstGlob 2 (blocksOf written) = .ok dsts →
        let partly (b : Int) : Bool := decide ((written.filter fun n => n / 128 == b).length < 128)
        (∀ f, sideChecks s w c srcs dsts partly = some (.suspend f) → ∃ t, exec (.copyBlock cl id) s = .next t ∧ EngineStopped t c.gid f 1 c.cap.pc ∧ t.mem = s.mem ∧
          ∃ k ∈ (t.cluster cl).copyQ, k.id = id ∧ k.st = .suspended ∧ k.done = c.done) ∧
        (∀ f, sideChecks s w c srcs dsts partly = some (.pure f) → ∃ t, exec (.copyBlock cl id) s = .next t ∧ EngineStopped t c.gid f 1 c.cap.pc ∧ t.mem = s.mem ∧
          (t.cluster cl).copyQ = (s.cluster cl).copyQ.filter fun k => k.id != c.id) ∧
        (∀ bs s1 out da s2, sideChecks s w c srcs dsts partly = none → xlatWaitEngine s w.cl w.ctx (globsOf srcs ++ globsOf dsts) = false →
          (∀ a ∈ globsOf srcs, a.fab = none) → readSides w c srcs s = .ok (bs, s1) → c.outs bs u = some (out, da) →
          writeSides w c da (dsts.map fun p => (p, ((toBytes out (oldByte s w dsts)).filter fun q => q.1 / 64 == p.1).map fun q => ((q.1 % 64).toNat, q.2))) s1 = (.go, s2) →
          (s2.cluster cl).copyQ = (s.cluster cl).copyQ → ∃ t, exec (.copyBlock cl id) s = .next t ∧ t.mem = s2.mem ∧ t.desc = s2.desc ∧ t.packets = s2.packets ∧
            ∃ k, (t.cluster cl).copyQ.find? (fun k => k.id == id) = some k ∧ k.done = c.done + 1 ∧ k.bytes = c.bytes + (c.covers u).length ∧ k.st = .running))) ∧
  (∀ (s : State) cl id c, (s.cluster cl).copyQ.find? (fun c => c.id == id) = some c → (copyOver s c = true ↔ c.st = .running ∧ c.plan.length ≤ c.done ∧
      releaseHeld s c.gid c.cap c.id = false ∧ ∀ p ∈ s.packets, p.cmd = some c.id → p.st = .done) ∧
    (copyOver s c = false → exec (.copyEnd cl id) s = .next s) ∧
    (copyOver s c = true → (∀ g, s.group? c.gid = some g → g.frameRun = none) → s.anyGroup c.gid = s.group? c.gid → ∃ t, exec (.copyEnd cl id) s = .next t ∧
      (t.cluster cl).copyQ = (s.cluster cl).copyQ.filter (fun k => k.id != c.id) ∧ t.mem = s.mem ∧
      (c.crc = false → Answered s t c.gid c.cap.wid c.dreg c.id (BitVec.ofNat 64 (2 ^ 63 + c.bytes / 2 % 2 ^ 40))) ∧
      (c.crc = true → Answered s t c.gid c.cap.wid c.dreg c.id (BitVec.ofNat 64 (2 ^ 63 + (if c.crcS = c.crcD then 0 else 5) * 2 ^ 56 + c.bytes / 2 % 2 ^ 40))))) ∧
  (∀ (s : State) cl c code disc, ∀ k ∈ ((s.endCopy cl c code disc).cluster cl).copyQ, k.id ≠ c.id) ∧
  (∀ (s : State) gid wid reg cmd v g w, s.group? gid = some g → g.frameRun = none → g.warp? wid = some w → ∃ g' w', (s.writeStatus gid wid reg cmd v).group? gid = some g' ∧
    g'.warp? wid = some w' ∧ g'.threads = g.threads ∧ w' = if (reg, cmd) ∈ w.pend then { w.wrS reg v with pend := w.pend.filter (· ≠ (reg, cmd)) } else w)

/-- R37, R181, R182, R394 to R406: the scheduler's events. A task completes when all threads of its groups have exited; a record ages one level at a time; a waiting enqueue enters when
a place is free; a placement pass places at most one task in a package tick; launches are listed, accepted, run step by step, and end in their completion cell. -/
def Obligations.SchedulerEvents : Prop :=
  (∀ (s : State) gid g, s.group? gid = some g → ((∃ u ∈ g.threads, u.run ≠ .exited) ∨ g.life ≠ .running → exec (.taskComplete gid) s = .next s) ∧
    -- a task of one group
    ((∀ u ∈ g.threads, u.run = .exited) → g.life = .running → g.gang = none → g.gid = gid → s.groups.rising = true →
      (g.tdone = true → ∃ t, exec (.taskComplete gid) s = .next t ∧ t.group? gid = none ∧ t.launches = s.launches) ∧
      (g.tdone = false → s.taskInFlight g = true → exec (.taskComplete gid) s = .next s) ∧
      (g.tdone = false → s.taskInFlight g = false → recJoin g.task = 0 → ∃ t, exec (.taskComplete gid) s = .next t ∧ t.group? gid = none ∧
        (recEvent g.task = true → gid < 131072 → (s.cluster (gidCl gid)).evq.length < 256 → (s.cluster (gidCl gid)).evLost ≤ 255 → ∃ e, (t.cluster (gidCl gid)).evq =
          (s.cluster (gidCl gid)).evq ++ [e] ∧ fld e 7 0 = 2 ∧ fld e 63 32 = gid % 32768 ∧ e.extractLsb' 64 64 = recTag g.task) ∧
        (∀ i x, g.launch = some i → s.launches.find? (fun x => x.id == i) = some x → x.status = none → ∃ y, t.launches.find? (fun x => x.id == i) = some y ∧
          y.done = x.done + 1 ∧ y.killed = x.killed ∧ (x.opened ≠ 1 → 0 < x.opened → y.opened = x.opened - 1 ∧ y.steps = x.steps ∧ y.status = none) ∧
          (x.opened = 1 → x.started = true → y.steps = x.steps + 1 ∧ y.started = false ∧ (x.todo = [] ↔ y.status = some (1, 0))))))) ∧
  (∀ (s : State) g, ((s.freeGroup g).cluster (gidCl g.gid)).ring = (s.cluster (gidCl g.gid)).ring.map (fun r =>
      if r.owner.any (fun o => o.1 == g.gid) then { r with owner := none, st := .free, sealing := false } else r) ∧
    (s.groups.rising = true → (s.freeGroup g).group? g.gid = none)) ∧
  (∀ (s : State) part q, s.queue.find? (fun q => q.part == part && q.waiting) = some q → let s1 := { s with queue := s.queue.filter fun r => r.id != q.id }
    (s1.roomFor q.seam part 0 = .none → exec (.waitingEnqueueEnter part) s = .next s) ∧
    (∀ r, s1.roomFor q.seam part 0 = r → r ≠ .none → ∃ t, exec (.waitingEnqueueEnter part) s = .next t ∧ t.mem = s.mem ∧ t.groups = s.groups ∧
      t.queue = s1.queue ++ [{ q with entered := s.ptime, since := s.ptime, aging := (s.part part).aging, spilled := r == .spill, waiting := false }])) ∧
  (∀ (s : State) seam id q, s.queue.find? (fun q => q.seam == seam && q.id == id) = some q →
    let due := q.aging ≠ 0 ∧ q.level < 31 ∧ q.held = false ∧ q.waiting = false ∧ q.since + q.aging ≤ s.ptime ∧ (s.part q.part).st = .running
    (¬due → exec (.agingPromotion seam id) s = .next s) ∧ (due → ∃ t, exec (.agingPromotion seam id) s = .next t ∧ t.mem = s.mem ∧ t.groups = s.groups ∧
      t.queue = s.queue.filter (fun r => r.id != q.id) ++ [{ q with level := q.level + 1, entered := s.ptime, since := s.ptime, aging := (s.part q.part).aging }] ∧
      ∀ r ∈ t.reserves, r.qrec = q.id → r.prio = q.level + 1 ∧ r.entered = s.ptime)) ∧
  (∀ (s : State) die part, (SMap.getD 0 s.passes (64 * die + part) = 0 ∨ (s.part part).st ≠ .running ∨ s.dieLost die = true) → exec (.placementPass die part) s = .next s) ∧
  (∀ (s : State) die part, SMap.getD 0 s.passes (64 * die + part) ≠ 0 → (s.part part).st = .running → s.dieLost die = false →
    -- a pass that has placed a task in this package tick places no other
    (∀ p, s.passOn.find? die = some p → p.part = part → s.ptime < p.next → exec (.placementPass die part) s = .next s) ∧
    (s.passOn.find? die = none → candidates s die part = [] → idleCore s die part = false → s.passes.rising = true → ∃ t, exec (.placementPass die part) s = .next t ∧
      SMap.getD 0 t.passes (64 * die + part) = SMap.getD 0 s.passes (64 * die + part) - 1 ∧ t.queue = s.queue ∧ t.groups = s.groups ∧ t.mem = s.mem) ∧
    (∀ q rest o, s.passOn.find? die = none → candidates s die part = q :: rest → targetIn s (viewsFor s q) q.record q.level q.entered (clustersFor s q die) = some [o] →
      recPure q.record = false → recGang q.record = 1 → o.core < 768 → ∃ t, exec (.placementPass die part) s = .next t ∧ (∀ r ∈ t.queue, r.id ≠ q.id) ∧
        (∃ p, t.passOn.find? die = some p ∧ p.part = part ∧ p.rest = rest.map QRec.id ∧ p.next = s.ptime + 1) ∧
        ∃ gid g, t.group? gid = some g ∧ gidCore gid = o.core ∧ g.task = q.record ∧ g.ctx = q.ctx ∧ g.part = q.part ∧ g.launch = q.launch ∧ g.prio = q.level ∧
          g.threads.length = recWarps q.record * Config.warpW ∧ (∀ u ∈ g.threads, u.pc = recEntry q.record ∧ u.run = .path) ∧ g.life = .running)) ∧
  -- the candidates of a pass come by level, then by time of entry, then by seam
  (∀ (s : State) die part, (candidates s die part).Pairwise fun a b => candBefore b a = false) ∧
  -- LADDR and LAUNCH_ACCEPT
  (∀ (s : State) part v, ((64 ≤ part ∨ v.toNat % 64 ≠ 0 ∨ (s.part part).st = .free ∨ s.phase ≠ 15) → exec (.laddr part v) s = .next s) ∧
    (part < 64 → v.toNat % 64 = 0 → (s.part part).st ≠ .free → s.phase = 15 →
      (256 ≤ (s.part part).lq.length → ∃ t, exec (.laddr part v) s = .next t ∧ (t.part part).lq = (s.part part).lq ∧
        (t.part part).drops = min 0xFFFFFF ((s.part part).drops + 1) ∧ t.mem = s.mem) ∧
      ((s.part part).lq.length < 256 → ∃ t, exec (.laddr part v) s = .next t ∧ (t.part part).lq = (s.part part).lq ++ [v] ∧ (t.part part).drops = (s.part part).drops ∧
        t.mem = s.mem))) ∧
  (∀ (s : State) part a rest l s1 res s2, (s.part part).lq = a :: rest → (s.part part).st = .running → (s.launches.filter fun l => l.part == part).length < 16 → s.hubWaits part = false →
    hubPhys s a.toNat 64 = .ok l s1 → launchTasks s part (BitVec.ofNat 512 (leNat l)) = .ok res s2 → ∃ t x, exec (.launchAccept part) s = .next t ∧ t.launches = s.launches ++ [x] ∧
      (t.part part).lq = rest ∧ x.part = part ∧ x.record = BitVec.ofNat 512 (leNat l) ∧ x.ctx = lnCtx x.record ∧ x.started = false ∧
      (∀ rs, res = .ok rs → x.todo = rs ∧ x.status = none) ∧ (∀ e, res = .error e → x.todo = [] ∧ x.status = some e) ∧ t.mem = s.mem) ∧
  (∀ (s : State) part r, ((s.context (lnCtx r)).st ≠ .active ∨ (s.context (lnCtx r)).part ≠ part → launchTasks s part r = .ok (.error (4, 0)) s) ∧
    ((s.context (lnCtx r)).st = .active → (s.context (lnCtx r)).part = part → launchBad r = true → launchTasks s part r = .ok (.error (2, 0)) s)) ∧
  -- STEP_START and LAUNCH_END
  (∀ (s : State) n l, s.launches.find? (fun l => l.id == n) = some l →
    (l.started = true ∨ l.status.isSome = true ∨ l.todo = [] ∨ (s.part l.part).st ≠ .running → exec (.stepStart n) s = .next s) ∧
    (l.started = false → l.status = none → l.todo ≠ [] → (s.part l.part).st = .running → let E := (stepDies s l).1
      (E.length < fld l.record 259 256 → E.length + (stepDies s l).2.length < fld l.record 259 256 → exec (.stepStart n) s = .next s) ∧
      (E.length < fld l.record 259 256 → fld l.record 259 256 ≤ E.length + (stepDies s l).2.length → ∃ t, exec (.stepStart n) s = .next t ∧
        t.launches.find? (fun l => l.id == n) = some { l with status := some (5, 0) } ∧ t.queue = s.queue ∧ t.mem = s.mem) ∧
      (fld l.record 259 256 ≤ E.length → ∃ t l', exec (.stepStart n) s = .next t ∧ t.launches.find? (fun l => l.id == n) = some l' ∧ l'.started = true ∧
        l'.dset.length = min (fld l.record 263 260) E.length ∧ (∀ d ∈ l'.dset, d ∈ E) ∧ l'.todo = l.todo.filter (fun r => recStep r != l'.step) ∧
        l'.opened = (l.todo.filter fun r => recStep r == l'.step).length ∧ t.queue.length = s.queue.length + l'.opened ∧ t.mem = s.mem))) ∧
  (∀ (s : State) n l, s.launches.find? (fun l => l.id == n) = some l → (l.status = none → exec (.launchEnd n) s = .next s) ∧
    (∀ code index, l.status = some (code, index) →
      -- what every end of a launch does
      let ends (u t : State) : Prop := exec (.launchEnd n) s = .next t ∧ t.launches = u.launches.filter (fun x => x.id != n) ∧ t.mem = u.mem ∧
        t.msix = (if bit l.record 274 then u.msix ++ [l.part] else u.msix)
      (lnCompl l.record = 0 → ∃ t, ends s t ∧ (t.part l.part).nocell = (s.part l.part).nocell) ∧
      (lnCompl l.record ≠ 0 → code = 4 → ∃ t, ends s t ∧ (t.part l.part).nocell = min 0xFFFFFF ((s.part l.part).nocell + 1)) ∧
      (lnCompl l.record ≠ 0 → code ≠ 4 → ∀ r, r = hubWrite s l.ctx (lnCompl l.record)
          (leBytes 16 (code + index * 2 ^ 8 + l.steps % 2 ^ 16 * 2 ^ 48 + l.done % 2 ^ 32 * 2 ^ 64 + l.killed % 2 ^ 32 * 2 ^ 96)) →
        (∀ u, r = .ok () u → ∃ t, ends u t ∧ (t.part l.part).nocell = (u.part l.part).nocell) ∧
        (r = .fail → ∃ t, ends s t ∧ (t.part l.part).nocell = min 0xFFFFFF ((s.part l.part).nocell + 1)) ∧ (r = .wait → exec (.launchEnd n) s = .next s))))

/-- R194 to R196, R272, R377, R408, R429, R432 to R435: a group whose watchdog limit has passed stops with HANG; a stopping group parks once what it issued has completed, and issues
nothing; its frame is written and its fault delivered, to a handler task or to the service ring; a service entry is written in ring order; a foreman's fault becomes a record. -/
def Obligations.ParkingEvents : Prop :=
  (∀ (s : State) gid g, s.group? gid = some g →
    ((g.life ≠ .running ∨ (s.part g.part).st ≠ .running ∨ s.ptime < g.wdogAt + g.wdogLim ∨ wdogPaused s g = true) → exec (.watchdogHang gid) s = .next s) ∧
    (g.life = .running → (s.part g.part).st = .running → g.wdogAt + g.wdogLim ≤ s.ptime → wdogPaused s g = false → ∃ t r, exec (.watchdogHang gid) s = .next t ∧
      (t.group? gid).map (fun k => k.life) = some (.stopping r false) ∧ r.code = cHang ∧ r.agent = 8 ∧ r.aux = BitVec.ofNat 64 (s.ptime - g.wdogAt) ∧ t.mem = s.mem)) ∧
  (∀ (s : State) gid g f, s.group? gid = some g → g.life = .stopping f false → (s.quiet gid = false → exec (.faultPark gid) s = .next s) ∧
    (s.quiet gid = true → ∃ t g' p, exec (.faultPark gid) s = .next t ∧ t.group? gid = some g' ∧ g'.life = .parked p ∧ p.fault = f ∧ p.frame = none ∧
      g'.threads = g.threads.map Thread.withdraw ∧ t.mem = s.mem ∧ t.groupRuns gid = false)) ∧
  (∀ (s : State) gid g, s.group? gid = some g → (∀ f, g.life ≠ .stopping f false) → exec (.faultPark gid) s = .next s) ∧
  (∀ u : Thread, u.withdraw.resv = none ∧ u.withdraw.pc = u.pc ∧ u.withdraw.v = u.v ∧ u.withdraw.preds = u.preds ∧ (u.run = .exited → u.withdraw.run = .exited) ∧
    (∀ n b, u.run = .bar n b → u.withdraw.run = .path)) ∧
  (∀ (s : State) gid g p, s.group? gid = some g → g.gid = gid → g.life = .parked p → p.frame = none → p.retry = true →
    -- a fault of the partition's K context raises vector 66, once
    let alarmed (u t : State) : Prop := t.msix = if p.held = false ∧ (u.part g.part).kctx = g.ctx then u.msix ++ [66] else u.msix
    let entry (e : SvcEntry) (va : BitVec 64) : Prop := e.kind = 2 ∧ e.frame = va ∧ e.gid = gid ∧ e.ctx = g.ctx ∧ e.wid = p.fault.wid
    (∀ va s1 s2, writeFrame s g p.fault = .ok va s1 → handlerFor s1 g p.fault = .ok none s2 → ∃ t e, exec (.parkFrameWrite gid) s = .next t ∧ t.mem = s2.mem ∧
      (t.part g.part).svc = (s2.part g.part).svc ++ [e] ∧ entry e va ∧ t.queue = s2.queue ∧ alarmed s2 t) ∧
    (∀ va s1 r s2, writeFrame s g p.fault = .ok va s1 → handlerFor s1 g p.fault = .ok (some r) s2 → ∃ t q, exec (.parkFrameWrite gid) s = .next t ∧ t.mem = s2.mem ∧
      t.queue = s2.queue ++ [q] ∧ q.kind = .handler gid ∧ q.ctx = g.ctx ∧ q.level = 31 ∧ recArg q.record = va ∧ recEntry q.record = recEntry r ∧ alarmed s2 t ∧
      (p.held = false → (t.part g.part).svc = (s2.part g.part).svc) ∧ (p.held = true → ∃ e, (t.part g.part).svc = (s2.part g.part).svc ++ [e] ∧ entry e va)) ∧
    (writeFrame s g p.fault = .fail → ∃ t, exec (.parkFrameWrite gid) s = .next t ∧ t.mem = s.mem ∧
      (t.group? gid).map (fun k => k.life) = some (.parked { p with held := true, retry := false }) ∧ alarmed s t ∧
      (p.held = true → (t.part g.part).svc = (s.part g.part).svc) ∧ (p.held = false → ∃ e, (t.part g.part).svc = (s.part g.part).svc ++ [e] ∧ entry e 0))) ∧
  (∀ (s : State) part e rest s1, (s.part part).svc = e :: rest → (s.part part).st ≠ .free → (s.part part).st ≠ .swapped →
    ((s.part part).ksvcwr - (s.part part).ksvcrd).toNat < (s.part part).ksvcEntries →
    hubWrite s (s.part part).kctx ((s.part part).ksvcBase + BitVec.ofNat 64 ((s.part part).ksvcwr.toNat % (s.part part).ksvcEntries * 64)) (leBytes 64 (svcNat e)) = .ok () s1 →
    ((s.part part).ksvcarm = false → ∃ t, exec (.serviceEntryWrite part) s = .next t ∧ t.mem = s1.mem ∧ (t.part part).svc = rest ∧
      (t.part part).ksvcwr = (s1.part part).ksvcwr + 1 ∧ t.queue = s1.queue) ∧
    (∀ s3, (s.part part).ksvcarm = true → enqueueService (s1.updPart part fun p => { p with svc := rest, ksvcwr := p.ksvcwr + 1, wrPts := some s1.hubPts }) part = .ok () s3 →
      ∃ t, exec (.serviceEntryWrite part) s = .next t ∧ t.mem = s1.mem ∧ (t.part part).svc = rest ∧ (t.part part).ksvcwr = (s1.part part).ksvcwr + 1 ∧
        (t.part part).ksvcarm = false)) ∧
  (∀ (s : State) part l u, hubRead s (s.part part).kctx (s.part part).ksvcTask 64 = .ok l u → ∃ t, enqueueService s part = .ok () t ∧ (t.part part).ksvcarm = false ∧
    (recBad (recPut (recPut (BitVec.ofNat 512 (leNat l)) 320 5 31) 176 16 0) = true → t.queue = u.queue) ∧
    (recBad (recPut (recPut (BitVec.ofNat 512 (leNat l)) 320 5 31) 176 16 0) = false → ∃ q, t.queue = u.queue ++ [q] ∧ q.kind = .service ∧ q.ctx = (s.part part).kctx ∧
      q.level = 31 ∧ recEntry q.record = recEntry (BitVec.ofNat 512 (leNat l)))) ∧
  (∀ (s : State) part, (s.part part).svc = [] → exec (.serviceEntryWrite part) s = .next s) ∧
  (∀ (s : State) cl f, (s.cluster cl).fore.faulted = some (f, false, false) →
    let pn := s.partOfCluster cl
    let k := (s.part pn).kctx
    let a := s.foreRecord cl
    (65536 * (s.context k).parkSize < 1024 * (s.foreRank cl + 1) → ∃ t e, exec (.foremanFault cl) s = .next t ∧ t.mem = s.mem ∧
      (t.cluster cl).fore.faulted = some (f, false, true) ∧ (t.part pn).svc = (s.part pn).svc ++ [e] ∧ e.kind = 4 ∧ e.arg = 0 ∧ e.ctx = k) ∧
    (1024 * (s.foreRank cl + 1) ≤ 65536 * (s.context k).parkSize → (∀ r ∈ s.parkUsed k, a.toNat + 1024 ≤ r.1 ∨ r.1 + r.2 ≤ a.toNat) →
      ∀ u, hubWrite s k a (foreRecordBytes k (s.cluster cl).fore { f with wid := 0 }) = .ok () u → ∃ t e, exec (.foremanFault cl) s = .next t ∧ t.mem = u.mem ∧
        (t.cluster cl).fore.faulted = some (f, true, false) ∧ (t.part pn).svc = (u.part pn).svc ++ [e] ∧ e.kind = 4 ∧ e.arg = a ∧ e.ctx = k))

/-- R121 to R126, R422, R426, R478: a packet leaves its source when nothing holds it, taking its pair's next number; at its home the number its pair expects is performed, a later one
is held, or refused where 2,048 are held, and one of a blocked chunk is queued; a refused one is sent again; an acknowledged one leaves the list; what a region's move has made stale is
sent to the new home. -/
def Obligations.ChannelPackets : Prop :=
  (∀ (s : State) id, s.packet? id = none → (∀ q ∈ s.sites, ∀ c ∈ q.2.cmds, c.id ≠ id) → exec (.packetArrival id) s = .next s) ∧
  (∀ (s : State) id p, s.packet? id = some p → (p.refused = true ∨ s.stale p = true) → exec (.packetArrival id) s = .next s) ∧
  -- at the source
  (∀ (s : State) id p, s.packet? id = some p → p.refused = false → s.stale p = false → p.st = .source →
    (sourceHeld s p = true → exec (.packetArrival id) s = .next s) ∧
    (∀ q, sourceHeld s p = false → (s.pairsOf p.gid).find? (fun q => q.ch == p.ch && q.dest == p.dest) = some q → ∃ t k, exec (.packetArrival id) s = .next t ∧
      t.packet? id = some k ∧ k.st = .flying ∧ k.seq = q.next ∧ k.run = q.run ∧ k.rs = !q.opened ∧ k.pay = p.pay ∧ k.dest = p.dest ∧ t.mem = s.mem ∧
      (t.pairsOf p.gid).find? (fun q => q.ch == p.ch && q.dest == p.dest) = some { q with next := q.next + 1, opened := true })) ∧
  -- on the way to a die's home
  (∀ (s : State) id p d, s.packet? id = some p → (s.packets.map Packet.id).Nodup → p.refused = false → s.stale p = false → p.dest = .die d →
    (p.st = .flying → planeHeld s p = true → (∃ q ∈ p.waitsFor s, q.samePair p = false) → ∃ t, exec (.packetArrival id) s = .next t ∧
      t.packet? id = some { p with st := .plane } ∧ t.mem = s.mem) ∧
    (∀ e, p.st = .flying → (∀ q ∈ p.waitsFor s, q.samePair p = true) → s.expected p = some e →
      (32767 < (p.seq - e).toNat → exec (.packetArrival id) s = .next s) ∧
      (p.seq ≠ e → (p.seq - e).toNat ≤ 32767 → ∃ t, exec (.packetArrival id) s = .next t ∧ t.mem = s.mem ∧ t.packet? id = some (
        if (s.packets.filter fun q => q.dest == p.dest && q.st == .port).length < 2048 then { p with st := .port } else { p with refused := true }))) ∧
    (∀ pl cs da, (p.st = .flying ∨ p.st = .port) → planeHeld s p = false → p.pay = .write pl cs da → p.load = none →
      (s.expected p = none ∨ (s.expected p = some p.seq ∧ ∀ q ∈ s.packets, q ≠ p → q.samePair p = true → q.st ≠ .port)) →
      (s.homeWait p.core p.ctx pl = .go → s.poisonedAt pl = false → ∃ t k, exec (.packetArrival id) s = .next t ∧ t.packet? id = some k ∧ k.st = .done ∧
        t.mem = (s.storeBlock p.core p.ctx pl cs da (s.carries p)).mem ∧ t.desc = (s.storeBlock p.core p.ctx pl cs da (s.carries p)).desc) ∧
      (s.homeWait p.core p.ctx pl = .blocked → ∃ t, exec (.packetArrival id) s = .next t ∧ t.packet? id = some p ∧ Queued.packet id ∈ t.queued ∧ t.mem = s.mem)) ∧
    (p.st = .port → ((s.expected p ≠ some p.seq ∧ s.expected p ≠ none) ∨ planeHeld s p = true) → exec (.packetArrival id) s = .next s)) ∧
  -- on the way to another accelerator
  (∀ (s : State) id p a l, s.packet? id = some p → p.refused = false → p.st = .flying → p.dest = .fab a l → a ≠ s.accelId.toNat →
    (p.port.isSome = true → exec (.packetArrival id) s = .next s) ∧
    (p.port = none → ∃ t, exec (.packetArrival id) s = .next t ∧ t.packet? id = some { p with port := s.portFor p.pay.place } ∧ t.mem = s.mem)) ∧
  (∀ (s : State) id p l, s.packet? id = some p → p.refused = false → p.st = .flying → p.dest = .fab s.accelId.toNat l → (ingress (selfRequest s p) s).1 = [] →
    ∃ t, exec (.packetArrival id) s = .next t ∧ t.mem = (ingress (selfRequest s p) s).2.mem) ∧
  -- a release whose other planes have reported is performed and acknowledged
  (∀ (s : State) id p d pl cs da, s.packet? id = some p → (s.packets.map Packet.id).Nodup → p.st = .plane → s.stale p = false → p.dest = .die d →
    (planeHeld s p = true → exec (.planeReleaseDeliver id) s = .next s) ∧
    (planeHeld s p = false → p.pay = .write pl cs da → p.load = none → s.homeWait p.core p.ctx pl = .go → s.poisonedAt pl = false →
      (s.expected p = none ∨ (s.expected p = some p.seq ∧ ∀ q ∈ s.packets, q.samePair p = true → q.st ≠ .port)) → ∃ t, exec (.planeReleaseDeliver id) s = .next t ∧
        t.packet? id = none ∧ t.mem = (s.storeBlock p.core p.ctx pl cs da (s.carries p)).mem)) ∧
  (∀ (s : State) id p, s.packet? id = some p →
    let remote := ∃ a l, p.dest = .fab a l ∧ a ≠ s.accelId.toNat ∧ p.st = .flying ∧ p.port.isSome = true ∧ p.load = none
    ((p.st = .done ∧ s.awaited p = false) ∨ remote → ∃ t, exec (.packetAck id) s = .next t ∧ t.mem = s.mem ∧ t.packets = s.packets.filter (fun k => k.id != id) ∧
      ∀ j ∈ t.joinsOf p.gid, id ∉ j.2.2) ∧ (¬((p.st = .done ∧ s.awaited p = false) ∨ remote) → exec (.packetAck id) s = .next s)) ∧
  (∀ (s : State) id p, s.packet? id = some p → (∀ a l, p.dest ≠ .fab a l) → (p.refused = false → exec (.packetNack id) s = .next s) ∧
    (p.refused = true → ∃ t, exec (.packetNack id) s = .next t ∧ t.packet? id = some { p with refused := false } ∧ t.mem = s.mem)) ∧
  (∀ (s : State) p n pkt, (s.site n).st ≠ 2 → p.dest = .site n → p.pay = .guest n pkt → (performPacket p s).1 = true ∧ (performPacket p s).2.mem = s.mem) ∧
  -- an old generation
  (∀ (s : State) id p, s.packet? id = some p → s.stale p = false → exec (.generationNack id) s = .next s) ∧
  (∀ (s : State) id p, s.packet? id = some p → s.stale p = true → (s.packets.map Packet.id).Nodup → ∃ t, exec (.generationNack id) s = .next t ∧ t.mem = s.mem ∧
    t.packets.map Packet.id = s.packets.map Packet.id ∧ (∀ q ∈ s.packets, q.gid ≠ p.gid ∨ q.ch ≠ p.ch → q ∈ t.packets) ∧
    ∃ k, t.packet? id = some k ∧ k.st = .flying ∧ k.dest = .die (s.homeDie p.pay.place) ∧ k.pay = p.pay ∧ k.gen = s.gen)

/-- R126, R455 to R458, R460, R461: a request from another accelerator is performed when its pair expects its number, held or NACKed when it comes early, answered again when it
comes twice, dropped of another run; a pair is opened by a run start only and freed by PAIR_FREE or age; CHSYNC names the lowest outstanding number, SYNC answers with the number
expected, its reply ends the resynchronisation; what is not answered within the limit ends. -/
def Obligations.FabricIngress : Prop :=
  (∀ p (s : State), p.src = s.accelId.toNat → exec (.fabricIngressArrival p) s = .next s) ∧
  -- an untagged request is performed at once, or queued where its home makes it wait (R427)
  (∀ p (s : State), p.src ≠ s.accelId.toNat → p.tag = none →
    (∀ b r u, fabPerform p s = .ok (b, r) u → u.accelId = s.accelId → ∃ t, exec (.fabricIngressArrival p) s = .next t ∧ t.mem = u.mem ∧
      t.fabOut = u.fabOut ++ [{ dst := p.src, key := reqKey p 0, tag := none, body := b }]) ∧
    (fabPerform p s = .wait → ∃ t, exec (.fabricIngressArrival p) s = .next t ∧ Queued.request p ∈ t.queued ∧ t.mem = s.mem ∧ t.fabOut = s.fabOut)) ∧
  -- a packet of the number its pair expects, with nothing held behind it, is performed and answered; the pair expects the next
  (∀ p (s : State) tag q b u, p.src ≠ s.accelId.toNat → p.tag = some tag → reqRead p = false → tagRs tag = false → s.rpair? (reqKey p tag) = some q → q.run = tagRun tag →
    q.expect = tagSeq tag → q.held = [] → let s1 := s.updRpair (reqKey p tag) fun q => { q with seen := s.ptime }
    fabPerform p s1 = .ok (b, none) u → u.accelId = s.accelId → u.rpairs = s1.rpairs → ∃ t, exec (.fabricIngressArrival p) s = .next t ∧ t.mem = u.mem ∧
      t.rpair? (reqKey p tag) = some { q with seen := s.ptime, expect := q.expect + 1 } ∧ t.fabOut = u.fabOut ++ [{ dst := p.src, key := reqKey p tag, tag := some tag, body := b }]) ∧
  -- an atomic's result is kept for its pair; without a place for it the atomic is refused
  (∀ k p (s t : State) b v die, fabPerform p s = .ok (b, some (v, die)) t →
    (1024 ≤ s.keptOn die → ingressDo k p s = .answered (.nack false) s) ∧
    (s.keptOn die < 1024 → ∃ u, ingressDo k p s = .answered b u ∧ u.mem = t.mem ∧ u.kept = t.kept ++ [(k, reqSeq p, v, die)] ∧
      ∀ q, t.rpair? k = some q → u.rpair? k = some { q with expect := q.expect + 1 })) ∧
  (∀ k tag p (s : State), tagRs tag = false → s.rpair? k = none → ingressOp k tag p s = ([reqAnswer p (.nack true)], s)) ∧
  (∀ k tag p (s : State), tagRs tag = true → s.rpair? k = none → 4096 ≤ s.rpairs.length → ingressOp k tag p s = ([reqAnswer p (.nack false)], s)) ∧
  (∀ k tag p (s : State) q, tagRs tag = false → s.rpair? k = some q → let d := (tagSeq tag - q.expect).toNat
    (q.run ≠ tagRun tag → ingressOp k tag p s = ([], s)) ∧
    (q.run = tagRun tag → 0 < d → d ≤ 32767 → (∀ h ∈ q.held, reqRead h = true ∨ reqSeq h ≠ reqSeq p) → 2048 ≤ s.ingressHeld →
      (ingressOp k tag p s).1 = [reqAnswer p (.nack false)]) ∧
    (q.run = tagRun tag → 32767 < d → (∀ r ∈ s.kept, r.1 = k → r.2.1 ≠ reqSeq p) → (ingressOp k tag p s).1 = [reqAnswer p .done] ∧ (ingressOp k tag p s).2.mem = s.mem)) ∧
  -- what the export table does not allow is refused and counted
  (∀ p (s : State) n, p.kind = .read n → 0 < n → n ≤ 256 → s.exportEntry p.src p.xaddr = none → fabPerform p s = .ok (.refused, none) (s.countRefusal p.src)) ∧
  (∀ (s : State) src, (s.countRefusal src).expSrc = BitVec.ofNat 10 src ∧ (s.countRefusal src).expCount.toNat = min (2 ^ 32 - 1) (s.expCount.toNat + 1)) ∧
  (∀ k (s : State), ∃ t, exec (.pairFree k) s = .next t ∧ t.rpair? k = none ∧ (∀ j, j ≠ k → t.rpair? j = s.rpair? j) ∧ t.mem = s.mem ∧ t.kept = s.kept) ∧
  (∀ k (s : State), (∀ q, s.rpair? k = some q → q.held ≠ [] ∨ s.ptime < q.seen + 2 ^ 41) → exec (.ingressPairExpire k) s = .next s) ∧
  (∀ k (s : State) q, s.rpair? k = some q → q.held = [] → q.seen + 2 ^ 41 ≤ s.ptime → ∃ t, exec (.ingressPairExpire k) s = .next t ∧ t.rpair? k = none ∧
    (∀ j, j ≠ k → t.rpair? j = s.rpair? j) ∧ t.mem = s.mem) ∧
  (∀ k seq (s : State), ∃ t, exec (.atomicResultAck k seq) s = .next t ∧ t.mem = s.mem ∧ t.rpairs = s.rpairs ∧
    ∀ r, r ∈ t.kept ↔ r ∈ s.kept ∧ ¬(r.1 = k ∧ r.2.1.toNat = seq)) ∧
  (∀ gid ch accel lane (s : State) q p ps, (s.pairsOf gid).find? (fun p => p.ch == ch && p.dest == .fab accel lane) = some q →
    (s.packets.filter fun p => p.gid == gid && p.ch == ch && p.dest == .fab accel lane && p.st != .source) = p :: ps → accel ≠ s.accelId.toNat → ∃ t, exec (.chsync gid ch accel lane) s = .next t ∧
      t.fabOut = s.fabOut ++ [{ dst := accel, key := ⟨s.accelId.toNat, gid, ch, lane⟩, body := .sync q.run p.seq }] ∧
      ∀ k ∈ t.pairsOf gid, k.ch = ch → k.dest = .fab accel lane → k.resync = true) ∧
  (∀ k run low (s : State), (s.rpair? k).isSome = true ∨ s.rpairs.length < 4096 → ∃ t q, exec (.sync k run low) s = .next t ∧ t.rpair? k = some q ∧ q.run = BitVec.ofNat 8 run ∧
    (∀ o, s.rpair? k = some o → o.run = BitVec.ofNat 8 run → q = o) ∧ ((∀ o, s.rpair? k = some o → o.run ≠ BitVec.ofNat 8 run) → q.expect = BitVec.ofNat 16 low ∧ q.held = []) ∧
    ∃ more, t.fabOut = s.fabOut ++ { dst := k.src, key := k, body := .expect q.run q.expect } :: more ∧ more.length = (s.kept.filter fun p => p.1 == k).length) ∧
  (∀ gid ch accel lane e (s : State), (∀ k ∈ s.pairsOf gid, k.ch = ch → k.dest = .fab accel lane → k.resync = false) → exec (.syncReply gid ch accel lane e) s = .next s) ∧
  (∀ gid ch accel lane e (s : State), (∃ k ∈ s.pairsOf gid, k.ch = ch ∧ k.dest = .fab accel lane ∧ k.resync = true) → ∃ t, exec (.syncReply gid ch accel lane e) s = .next t ∧
    (∀ k ∈ t.pairsOf gid, k.ch = ch → k.dest = .fab accel lane → k.resync = false) ∧
    (∀ p ∈ s.packets, p.gid = gid → p.ch = ch → p.dest = .fab accel lane → p.st ≠ .source → seqPassed (BitVec.ofNat 16 e) p.seq = true → p.load = none → ∀ k ∈ t.packets, k.id ≠ p.id)) ∧
  (∀ id (s : State) p, s.packet? id = some p → (isFabDest p.dest = false ∨ (p.st ≠ .flying ∧ (p.st = .done → s.awaited p = false)) ∨ s.now < p.sent + 4 * p.limit → exec (.remoteTimeout id) s = .next s) ∧
    -- the operations of its pair that had been sent are over
    (isFabDest p.dest = true → p.st = .flying ∨ (p.st = .done ∧ s.awaited p = true) → p.sent + 4 * p.limit ≤ s.now → ∃ t, exec (.remoteTimeout id) s = .next t ∧ t.packet? id = none ∧
      ∀ k ∈ t.packets, k.samePair p = true → k.st = .source)) ∧
  (∀ id (s : State) l, s.packet? id = none → s.loads.find? (fun l => l.id == id) = some l → (s.now < l.sent + 4 * l.limit ∨ l.kind = .atomic → exec (.remoteTimeout id) s = .next s) ∧
    (l.kind ≠ .atomic → l.sent + 4 * l.limit ≤ s.now → (∃ q ∈ l.parts, q.waits = true) → (∀ q ∈ l.parts, q.waits = true → q.fabric = true) →
      ∃ t, exec (.remoteTimeout id) s = .next t ∧ ∀ k ∈ t.loads, k.id ≠ id)) ∧
  (∀ id (s : State), s.packet? id = none → s.loads.find? (fun l => l.id == id) = none → exec (.remoteTimeout id) s = .next s)

/-- R450 to R454, R462, R464 to R466: a lost laser or wavelength goes out on the ports it feeds, which stripe again; fewer than four wavelengths, a replay without an answer or PORT_DOWN
take a port down; a restored laser is added back; a replay counts and sends every outstanding flit with a counter value of its own; keys roll over before the counter runs out;
each recovery leaves one record in the host's ring. -/
def Obligations.FabricPorts : Prop :=
  (∀ i (s : State), (16 ≤ i ∨ bit s.light i = false) → exec (.wavelengthLoss (.laser i)) s = .next s) ∧
  (∀ i (s : State), i < 16 → bit s.light i = true → ∃ t, exec (.wavelengthLoss (.laser i)) s = .next t ∧ t.light = s.light &&& ~~~(1#16 <<< i) ∧ t.lost = s.lost ||| (1#16 <<< i) ∧
    (∀ n p, s.ports.find? n = some p → n / 24 = i / 4 → (t.port n).txLit = p.txLit &&& ~~~laserMask i ∧ (t.port n).rxLit = p.rxLit ∧
      (p.txUp = true → p.rxUp = true → (t.port n).restripe = true ∧ (t.port n).replayAt = some (s.ptime + 10000))) ∧
    (∀ n, n / 24 ≠ i / 4 → t.ports.find? n = s.ports.find? n)) ∧
  (∀ n tx m (s : State), (if tx then (s.port n).txLit &&& m else (s.port n).rxLit &&& m) = 0 → exec (.wavelengthLoss (.lambda n tx m)) s = .next s) ∧
  (∀ n tx m (s : State), ((s.port n).txUp && (s.port n).rxUp) = false → ∃ t, exec (.wavelengthLoss (.lambda n tx m)) s = .next t ∧
    (t.port n).txLit = (if tx then (s.port n).txLit &&& ~~~m else (s.port n).txLit) ∧ (t.port n).rxLit = (if tx then (s.port n).rxLit else (s.port n).rxLit &&& ~~~m) ∧
    t.incidents = s.incidents ∧ t.packets = s.packets ∧ t.mem = s.mem) ∧
  (∀ n tx m (s : State), (s.port n).txUp = true → (s.port n).rxUp = true → (if tx then (s.port n).txLit &&& m else (s.port n).rxLit &&& m) ≠ 0 →
    ∃ t i, exec (.wavelengthLoss (.lambda n tx m)) s = .next t ∧ (tx = true → (t.port n).txLit = (s.port n).txLit &&& ~~~m ∧ (t.port n).rxLit = (s.port n).rxLit) ∧
      (tx = false → (t.port n).rxLit = (s.port n).rxLit &&& ~~~m ∧ (t.port n).txLit = (s.port n).txLit) ∧ (t.port n).restripe = true ∧ (t.port n).replayAt = some (s.ptime + 10000) ∧
      (t.port n).txUp = true ∧ (t.port n).rxUp = true ∧ (t.port n).unacked = (s.port n).unacked ∧ (∀ k, k ≠ n → t.ports.find? k = s.ports.find? k) ∧
      t.incidents = s.incidents ++ [i] ∧ i.kind = 3 ∧ i.site = n ∧ i.start = s.ptime ∧ i.striping = [n] ∧ t.mem = s.mem) ∧
  (∀ n tx (s : State), (s.port n).restripe = false → exec (.stripeMarker n tx) s = .next s) ∧
  (∀ n tx (s : State), (s.port n).restripe = true → let lit := if tx then (s.port n).txLit else (s.port n).rxLit
    (4 ≤ litCount lit → ∃ t, exec (.stripeMarker n tx) s = .next t ∧ (tx = true → t.port n = { s.port n with txAct := (s.port n).txLit }) ∧
      (tx = false → t.port n = { s.port n with rxAct := (s.port n).rxLit }) ∧ t.mem = s.mem ∧ t.packets = s.packets) ∧
    (litCount lit < 4 → ∃ t, exec (.stripeMarker n tx) s = .next t ∧ (t.port n).txUp = ((s.port n).txUp && !tx) ∧ (t.port n).rxUp = ((s.port n).rxUp && tx) ∧
      (t.port n).usable = false)) ∧
  -- where the beats of a flit travel (R451), the two active sets of the rule among them
  (∀ m b, litCount m ≤ 32 ∧ (activeList m).length = litCount m ∧ (0 < litCount m → ∃ w, beatPlace m b = some (w, b / litCount m) ∧ w < 32 ∧ bit m w = true ∧
    (activeList m)[b % litCount m]? = some w) ∧ (4 ≤ litCount m → b < 160 → b / litCount m < flitRounds m)) ∧
  (litCount 0xFFFFFFFF = 32 ∧ flitRounds 0xFFFFFFFF = 5 ∧ litCount 0xFF0FFF0F = 24 ∧ flitRounds 0xFF0FFF0F = 7 ∧ beatPlace 0xFF0FFF0F 4 = some (8, 0) ∧
    beatPlace 0xFF0FFF0F 159 = some (16 + 3, 6)) ∧
  (∀ i (s : State), i < 16 → bit s.light i = false → ∃ t, exec (.laserRestored i) s = .next t ∧ t.light = s.light ||| (1#16 <<< i) ∧
    (∀ n p, s.ports.find? n = some p → n / 24 = i / 4 → (t.port n).txLit = p.txLit ||| laserMask i ∧ (p.txUp = true → p.rxUp = true → (t.port n).restripe = true))) ∧
  (∀ n (s : State), ((s.port n).txUp && (s.port n).rxUp) = false → exec (.flitReplay n) s = .next s ∧ (∀ tx, exec (.replayTimeout n tx) s = .next s) ∧
    ((s.port n).txUp = false → (s.port n).rxUp = false → exec (.portDown n) s = .next s)) ∧
  (∀ n (s : State), (s.port n).txUp = true → (s.port n).rxUp = true → let p := s.port n
    (∃ t, exec (.flitReplay n) s = .next t ∧ (t.port n).replays.toNat = min (2 ^ 32 - 1) (p.replays.toNat + 1) ∧ (t.port n).ctr = p.ctr + p.unacked ∧ (t.port n).unacked = p.unacked ∧
      (p.txAct = p.txLit → p.rxAct = p.rxLit → (t.port n).restripe = false ∧ (t.port n).replayAt = none) ∧
      (p.txAct ≠ p.txLit ∨ p.rxAct ≠ p.rxLit → (t.port n).restripe = p.restripe ∧ (t.port n).replayAt = p.replayAt)) ∧
    (∃ t, exec (.portDown n) s = .next t ∧ (t.port n).txUp = false ∧ (t.port n).rxUp = false ∧ (t.port n).unacked = 0 ∧ t.packets = s.packets ∧
      -- no load stays with the port
      ((s.loads.map OutLoad.id).Nodup → ∀ l ∈ t.loads, l.kind ≠ .atomic → ∀ q ∈ l.parts, q.waits = true → q.fabric = true → q.port ≠ some n)) ∧
    (∀ tx, ((∀ a, p.replayAt = some a → s.ptime < a) → exec (.replayTimeout n tx) s = .next s) ∧
      (∀ a, p.replayAt = some a → a ≤ s.ptime → ∃ t, exec (.replayTimeout n tx) s = .next t ∧ (t.port n).txUp = !tx ∧ (t.port n).rxUp = tx ∧ (t.port n).unacked = 0))) ∧
  (∀ (s : State) x n, s.portFor x = some n → ∃ p, s.ports.find? n = some p ∧ p.usable = true ∧ p.unacked < 2048) ∧
  -- the corrected symbols counted are a free value (R450)
  (∀ n k (s : State) p, s.ports.find? n = some p → ∃ t c, exec (.flitAck n k) s = .next t ∧ t.port n = { p with unacked := p.unacked - k, corrected := c } ∧ p.corrected ≤ c ∧
    t.mem = s.mem ∧ t.packets = s.packets) ∧
  (∀ n (s : State), s.ports.find? n = none → ∀ k, exec (.flitAck n k) s = .next s) ∧
  (∀ n (s : State), let p := s.port n
    ((p.txUp = true ∧ p.rxUp = true) ∨ n ∉ s.caps.ports ∨ Config.idTaken s.accelId n = true ∨ litCount p.txLit < 4 ∨ litCount p.rxLit < 4 ∨ p.kstate ≠ 0 → exec (.portUp n) s = .next s) ∧
    (¬(p.txUp = true ∧ p.rxUp = true) → n ∈ s.caps.ports → Config.idTaken s.accelId n = false → 4 ≤ litCount p.txLit → 4 ≤ litCount p.rxLit → p.kstate = 0 → ∃ t, exec (.portUp n) s = .next t ∧
      t.port n = { p with txUp := true, rxUp := true, txAct := p.txLit, rxAct := p.rxLit, restripe := false })) ∧
  (∀ n (s : State), ((s.port n).kstate ≠ 0 ∨ (s.port n).ctr < 2 ^ 48 - 2 ^ 40 → exec (.rekeyStart n) s = .next s) ∧
    ((s.port n).kstate = 0 → 2 ^ 48 - 2 ^ 40 ≤ (s.port n).ctr → ∃ t, exec (.rekeyStart n) s = .next t ∧ t.port n = { s.port n with kstate := 1 } ∧
      (∀ k, k ≠ n → t.ports.find? k = s.ports.find? k) ∧ t.packets = s.packets ∧ t.mem = s.mem)) ∧
  (∀ n (s : State), ((s.port n).kstate.toNat < 2 → 2 ^ 48 - 2 ^ 32 ≤ (s.port n).ctr → ∃ t, exec (.rekeyStop n) s = .next t ∧ t.port n = { s.port n with kstate := 2 } ∧ (t.port n).usable = false) ∧
    (2 ≤ (s.port n).kstate.toNat ∨ (s.port n).ctr < 2 ^ 48 - 2 ^ 32 → exec (.rekeyStop n) s = .next s)) ∧
  (∀ n (s : State), n < 96 → ∃ t, exec (.keyInstall n) s = .next t ∧ t.port n = { s.port n with kstate := 0, ctr := 0, keyIdx := (s.port n).keyIdx + 1 } ∧
    (∀ k, k ≠ n → t.ports.find? k = s.ports.find? k) ∧ t.packets = s.packets ∧ t.mem = s.mem) ∧
  -- the host's event ring
  (∀ r (s : State), let log := fld s.hevBase 4 0
    ((log = 0 ∨ 2 ^ log ≤ (s.hevWr - s.hevRd).toNat) → (hostEvent r s).hevSeq = s.hevSeq + 1 ∧ (hostEvent r s).hevDrops.toNat = min 0xFFFF (s.hevDrops.toNat + 1) ∧
      (hostEvent r s).hevWr = s.hevWr ∧ (hostEvent r s).mem = s.mem ∧ (hostEvent r s).msix = s.msix) ∧
    (log ≠ 0 → (s.hevWr - s.hevRd).toNat < 2 ^ log → (hostEvent r s).hevWr = s.hevWr + 1 ∧ (hostEvent r s).hevSeq = s.hevSeq + 1 ∧ (hostEvent r s).msix = s.msix ++ [67] ∧
      (hostEvent r s).mem = (s.wrCells (cellsOf (0x800000000000 + (fld s.hevBase 63 12 * 4096 + 32 * (s.hevWr.toNat % 2 ^ log)) % 2 ^ 47) 32 r.toNat)).mem)) ∧
  (∀ s i, fld (incidentRec s i) 7 0 = 1 ∧ (i.kind < 2 ^ 24 → fld (incidentRec s i) 31 8 = i.kind))

/-- R5, R7, R79, R130, R460, R463 to R465, R488, R492, R498, R501, R519: the host's reads, writes and registers, none of them before READY. -/
def Obligations.HostAccesses : Prop :=
  (∀ v (s : State), let log := fld v 4 0
    (s.phase ≠ 15 ∨ (1 ≤ log ∧ log ≤ 5) ∨ 16 ≤ log → exec (.hevbase v) s = .next s) ∧
    (s.phase = 15 → log = 0 ∨ (6 ≤ log ∧ log ≤ 15) → ∃ t, exec (.hevbase v) s = .next t ∧ fld t.hevBase 63 12 = fld v 63 12 ∧ fld t.hevBase 4 0 = log ∧ t.hevWr = 0 ∧ t.hevRd = 0 ∧
      t.hevSeq = s.hevSeq ∧ t.mem = s.mem)) ∧
  (∀ pa d n off (s : State), s.phase ≠ 15 → exec (.hostDataWrite pa d) s = .next s ∧ exec (.hostDataRead pa n) s = .next s ∧ exec (.hostDescriptorWrite off d) s = .next s ∧
    exec (.registerWrite off d) s = .next s ∧ ∀ a, exec (.loaddb a) s = .next s) ∧
  -- PCIe order: what finds another host access waiting, or must itself wait, waits in turn (R130, R422)
  (∀ pa d n off (s : State), s.phase = 15 → (∃ q ∈ s.queued, q.isHost = true) → (∃ t, exec (.hostDataWrite pa d) s = .next t ∧ t.queued = s.queued ++ [.hostWrite pa d] ∧ t.mem = s.mem) ∧
    (∃ t, exec (.hostDataRead pa n) s = .next t ∧ t.queued = s.queued ++ [.hostRead pa n] ∧ t.mem = s.mem ∧ t.hostOut = s.hostOut) ∧
    ∃ t, exec (.hostDescriptorWrite off d) s = .next t ∧ t.queued = s.queued ++ [.hostDesc off d] ∧ t.mem = s.mem ∧ t.desc = s.desc) ∧
  (∀ pa d (s : State), s.phase = 15 → (∀ q ∈ s.queued, q.isHost = false) → let cells := hostCells s (d.mapIdx fun i b => (pa + i, b))
    (physReady s (cells.map (·.1)) = .wait ∨ (∃ f, physReady s (cells.map (·.1)) = .recall f)) → ∃ t, exec (.hostDataWrite pa d) s = .next t ∧
      t.queued = s.queued ++ [.hostWrite pa d] ∧ t.mem = s.mem) ∧
  -- a host write of memory without poison
  (∀ pa d (s s1 : State), s.phase = 15 → (∀ q ∈ s.queued, q.isHost = false) → s.forward = [] → SMap.wf (0 : Byte) s.mem = true →
    (∀ i, i < d.length → isFlistad (pa + i) = true ∧ s.poisonedAt (pa + i) = false) → physReady s ((List.range d.length).map (pa + ·)) = .ok () s1 →
    ∃ t, exec (.hostDataWrite pa d) s = .next t ∧ ∀ a, t.rdByte a = if pa ≤ a ∧ a < pa + d.length then d.getD (a - pa) 0 else s.rdByte a) ∧
  -- no byte outside Flistad memory is written, and none of a poisoned block that the write does not cover
  (∀ (s : State) cs c, c ∈ hostCells s cs → isFlistad c.1 = true ∧ (s.poisonedAt c.1 = true → coversBlock (cs.filter fun d => d.1 / 64 == c.1 / 64) = true)) ∧
  (∀ pa n (s s1 : State), s.phase = 15 → (∀ q ∈ s.queued, q.isHost = false) → physReady s (((List.range n).map (pa + ·)).filter isFlistad) = .ok () s1 → ∃ t f, exec (.hostDataRead pa n) s = .next t ∧
    t.hostOut = ((List.range n).map fun i => hostByte s f (pa + i)) ∧ t.mem = s.mem ∧ t.groups = s.groups) ∧
  (∀ (s : State) f a, isFlistad a = true → s.poisonedAt a = false → hostByte s f a = s.rdByte a) ∧
  -- the descriptor of one block: both bytes of its pair, or one of them
  (∀ b x y (s s1 : State), s.phase = 15 → (∀ q ∈ s.queued, q.isHost = false) → s.forward = [] → SMap.wf rawDesc s.desc = true → isFlistad (b * 64) = true →
    s.poisonedAt (b * 64) = false → physReady s [b * 64] = .ok () s1 →
    (∃ t, exec (.hostDescriptorWrite (2 * b) [x, y]) s = .next t ∧ t.descOf (b * 64) = BitVec.ofNat 16 (x.toNat * 256 + y.toNat) ∧
      (∀ pa, pa / 64 ≠ b → t.descOf pa = s.descOf pa) ∧ t.mem = s.mem) ∧
    (∃ t, exec (.hostDescriptorWrite (2 * b) [x]) s = .next t ∧ t.descOf (b * 64) = BitVec.ofNat 16 (x.toNat * 256 + fld (s.descOf (b * 64)) 7 0) ∧ t.mem = s.mem) ∧
    ∃ t, exec (.hostDescriptorWrite (2 * b + 1) [y]) s = .next t ∧ t.descOf (b * 64) = BitVec.ofNat 16 (fld (s.descOf (b * 64)) 15 8 * 256 + y.toNat) ∧ t.mem = s.mem) ∧
  (∀ (s : State) b, (bar4Byte s (2 * b)).toNat = fld (s.descOf (b * 64)) 15 8 ∧ (bar4Byte s (2 * b + 1)).toNat = fld (s.descOf (b * 64)) 7 0) ∧
  (∀ d off b, (off % 2 = 0 → fld (descPut d off b) 15 8 = b.toNat ∧ fld (descPut d off b) 7 0 = fld d 7 0) ∧
    (off % 2 = 1 → fld (descPut d off b) 7 0 = b.toNat ∧ fld (descPut d off b) 15 8 = fld d 15 8)) ∧
  -- LOST: write 1 to clear; PROTERR: any 1 clears it; COUNT, RD and an entry of the export table: as written
  (∀ (s : State) x, s.phase = 15 → (∃ t, exec (.registerWrite 0x160602 [x]) s = .next t ∧ ∀ i, i < 8 → bit t.lost i = (bit s.lost i && !bit x i) ∧ bit t.lost (8 + i) = bit s.lost (8 + i)) ∧
    (∃ t, exec (.registerWrite 0x160603 [x]) s = .next t ∧ ∀ i, i < 8 → bit t.lost (8 + i) = (bit s.lost (8 + i) && !bit x i) ∧ bit t.lost i = bit s.lost i) ∧
    ∀ n, n < 2 → x ≠ 0 → ∃ t, exec (.registerWrite (0x170004 + 16 * n) [x]) s = .next t ∧ (t.site n).proterr = 0 ∧ (t.site n).st = (s.site n).st) ∧
  (∀ (s : State) v, s.phase = 15 → v < 2 ^ 32 → ∃ t, exec (.registerWrite 0x160608 (leBytes 4 v)) s = .next t ∧ t.expCount.toNat = v ∧ t.expSrc = s.expSrc ∧ t.mem = s.mem) ∧
  (∀ (s : State) v, s.phase = 15 → v < 2 ^ 16 → ∃ t, exec (.registerWrite 0x160708 (leBytes 2 v)) s = .next t ∧ t.hevRd.toNat = v ∧ t.hevWr = s.hevWr ∧ t.mem = s.mem) ∧
  (∀ (s : State) i (e : BitVec 256), s.phase = 15 → i < 4096 → SMap.wf (0 : BitVec 256) s.exports = true → ∃ t, exec (.registerWrite (0x140000 + 32 * i) (leBytes 32 e.toNat)) s = .next t ∧
    t.exports.getD 0 i = e ∧ (∀ j, j ≠ i → t.exports.getD 0 j = s.exports.getD 0 j) ∧ t.mem = s.mem) ∧
  -- MOVECMD: a command written whole starts (R419)
  (∀ (s : State) (c : BitVec 256), s.phase = 15 → s.move.state = 0 → let started (t : State) := exec (.registerWrite 0x110000 (leBytes 32 c.toNat)) s = .next t ∧ t.mem = s.mem
    ((fld c 63 8 ≠ 0 ∨ fld c 3 0 = 0 ∨ 3 < fld c 3 0) → ∃ t, started t ∧ t.move = { s.move with result := 2 } ∧ t.msix = s.msix) ∧
    (fld c 63 8 = 0 → fld c 3 0 = 1 → fld c 127 112 = 0 → fld c 255 176 = 0 → pageOk (fld c 7 4) (fld c 111 64) = true → pageOk (fld c 7 4) (fld c 175 128) = true →
      fld c 111 64 ≠ fld c 175 128 → ∃ t, started t ∧ t.msix = s.msix ++ [64] ∧
        t.move = { state := 1, op := 1, size := moveSize (fld c 7 4), src := fld c 111 64, dst := fld c 175 128 })) ∧
  (∀ (s : State) off x, off < 0x110000 ∨ 0x170020 ≤ off → exec (.registerWrite off [x]) s = .next s) ∧
  (∀ ctx nonce (s : State), let c := s.context ctx
    let body := leBytes 2 ctx ++ leBytes 4 c.attCount.toNat ++ leBytes 48 c.attExt.toNat ++ leBytes 32 nonce.toNat
    ∃ t, exec (.vendorDefinedRequest ctx nonce) s = .next t ∧ t.hostOut = body ++ Config.spdmSign body ∧ t.context ctx = c ∧ t.mem = s.mem) ∧
  -- LOADDB: RESULT written, vector 69 raised
  (∀ a (s s1 t t1 : State) bs r, s.phase = 15 → hubPhys s a.toNat 64 = .ok bs s1 → loadRequest (BitVec.ofNat 512 (leNat bs)) s = .ok r t → physReady t [a.toNat + 32] = .ok () t1 →
    ∃ u, exec (.loaddb a) s = .next u ∧ u.msix = t.msix ++ [69] ∧
      (t.forward = [] → SMap.wf (0 : Byte) t.mem = true → t.poisonedAt (a.toNat + 32) = false → u.rdByte (a.toNat + 32) = BitVec.ofNat 8 r ∧
        ∀ pa, pa ≠ a.toNat + 32 → u.rdByte pa = t.rdByte pa)) ∧
  (∀ a (s : State), s.phase = 15 → hubPhys s a.toNat 64 = .fail → exec (.loaddb a) s = .next s) ∧
  (∀ r (s : State), ((s.context (fld r 233 224)).st ≠ .active → loadRequest r s = .ok 1 s) ∧
    ((s.context (fld r 233 224)).st = .active → fld r 511 264 ≠ 0 ∨ fld r 191 128 % 65536 ≠ 0 → loadRequest r s = .ok 2 s))

/-- R419 to R426, R492, R493: MIGRATE, RETIRE and REGION start or are rejected with RESULT 1, 2 or 3; a chunk is blocked once no write claim is held on it, then copied, and its old
place forwards to the new; the last one ends the move in state 2; a region switches homes and GEN advances; a key change erases its region, which then reads as zero. -/
def Obligations.MemoryMoves : Prop :=
  (∀ size src dst e region (s : State), s.phase ≠ 15 → exec (.migrate size src dst) s = .next s ∧ exec (.retire size src) s = .next s ∧ exec (.region region e) s = .next s) ∧
  -- a start that is rejected changes RESULT alone
  (∀ size (src dst : BitVec 48) (s : State), s.phase = 15 →
    let rejected (n : Nat) := ∃ t, exec (.migrate size src dst) s = .next t ∧ t.move = { s.move with result := n } ∧ t.msix = s.msix ∧ t.mem = s.mem
    (s.move.state ≠ 0 → rejected 1) ∧ (s.move.state = 0 → pageOk size src.toNat = false ∨ pageOk size dst.toNat = false → rejected 2) ∧
    (s.move.state = 0 → pageOk size src.toNat = true → src = dst → rejected 3) ∧
    (s.move.state = 0 → pageOk size src.toNat = true → pageOk size dst.toNat = true → src ≠ dst → ∃ t, exec (.migrate size src dst) s = .next t ∧
      t.move = { state := 1, op := 1, size := moveSize size, src := src.toNat, dst := dst.toNat } ∧ t.msix = s.msix ++ [64] ∧ t.mem = s.mem ∧ t.forward = s.forward)) ∧
  (∀ size (src : BitVec 48) (s : State), s.phase = 15 →
    let rejected (n : Nat) := ∃ t, exec (.retire size src) s = .next t ∧ t.move = { s.move with result := n } ∧ t.forward = s.forward ∧ t.msix = s.msix ∧ t.mem = s.mem
    (s.move.state = 1 → rejected 1) ∧ (s.move.state ≠ 1 → pageOk size src.toNat = false → rejected 2) ∧
    (s.move.state ≠ 1 → pageOk size src.toNat = true → s.move.state ≠ 2 ∨ s.move.size ≠ moveSize size ∨ s.move.src ≠ src.toNat → rejected 3) ∧
    (s.move.state = 2 → pageOk size src.toNat = true → s.move.size = moveSize size → s.move.src = src.toNat → ∃ t, exec (.retire size src) s = .next t ∧ t.forward = [] ∧
      t.move.state = 0 ∧ t.move.result = 0 ∧ t.msix = s.msix ++ [64] ∧ t.mem = s.mem)) ∧
  (∀ region (e : BitVec 16) (s : State), s.phase = 15 →
    let rejected (n : Nat) := ∃ t, exec (.region region e) s = .next t ∧ t.move = { s.move with result := n } ∧ t.region = s.region ∧ t.msix = s.msix ∧ t.mem = s.mem
    (s.move.state ≠ 0 → rejected 1) ∧ (s.move.state = 0 → 1536 ≤ region ∨ fld e 15 6 ≠ 0 → rejected 2) ∧
    (s.move.state = 0 → region < 1536 → fld e 15 6 = 0 → ∃ t, exec (.region region e) s = .next t ∧ t.move = { state := 1, op := 3, region := region, entry := e } ∧
      t.region = s.region ∧ t.msix = s.msix ++ [64] ∧ t.mem = s.mem)) ∧
  -- MIGRATE_CHUNK
  (∀ (s : State), s.move.state ≠ 1 ∨ s.move.op ≠ 1 → exec .migrateChunk s = .next s) ∧
  (∀ (s : State), s.move.state = 1 → s.move.op = 1 → s.move.blocked = false → let src := s.move.src + 65536 * s.move.chunks
    let held := s.frags.filter fun f => f.holder.isSome && f.blocks.any fun b => b / 1024 == src / 65536
    (held = [] → ∃ t, exec .migrateChunk s = .next t ∧ t.move = { s.move with blocked := true } ∧ t.mem = s.mem ∧
      ∀ cl k x, k ∈ (t.cluster cl).cores → x ∈ k.l1 → ¬(src / 64 ≤ x.blk ∧ x.blk < src / 64 + 1024)) ∧
    (held ≠ [] → ∃ t, exec .migrateChunk s = .next t ∧ t.move = s.move ∧ t.mem = s.mem)) ∧
  (∀ (s : State), s.move.state = 1 → s.move.op = 1 → s.move.blocked = true → (∀ q ∈ s.rpairs, q.held = []) → s.queued = [] → let src := s.move.src + 65536 * s.move.chunks
    let dst := s.move.dst + 65536 * s.move.chunks
    ∃ t, exec .migrateChunk s = .next t ∧ t.mem = (s.moveChunk src dst).mem ∧ t.forward = s.forward.insert (src / 65536) (dst / 65536) ∧ t.move.chunks = s.move.chunks + 1 ∧ t.move.blocked = false ∧
      t.move.state = (if s.move.size ≤ 65536 * (s.move.chunks + 1) then 2 else 1) ∧ t.msix = (if s.move.size ≤ 65536 * (s.move.chunks + 1) then s.msix ++ [64] else s.msix)) ∧
  -- a chunk keeps its bytes, descriptors and marks; all other memory is as it was
  (∀ (s : State) src dst a, SMap.wf (0 : Byte) s.mem = true → src % 65536 = 0 → dst % 65536 = 0 → src ≠ dst →
    SMap.getD 0 (s.moveChunk src dst).mem a = (if dst ≤ a ∧ a < dst + 65536 then SMap.getD 0 s.mem (a - dst + src) else SMap.getD 0 s.mem a) ∧
    (SMap.wf rawDesc s.desc = true → SMap.getD rawDesc (s.moveChunk src dst).desc a =
      (if dst / 64 ≤ a ∧ a < dst / 64 + 1024 then SMap.getD rawDesc s.desc (a - dst / 64 + src / 64) else SMap.getD rawDesc s.desc a))) ∧
  -- REGION_SWITCH
  (∀ (s : State), s.move.state ≠ 1 ∨ s.move.op ≠ 3 → exec .regionSwitch s = .next s) ∧
  (∀ (s : State), s.move.state = 1 → s.move.op = 3 →
    let lost := (List.range 8).any fun d => s.dieLost d && (homesOf (s.region.getD 0 s.move.region) d || homesOf s.move.entry d)
    (lost = true → ∃ t, exec .regionSwitch s = .next t ∧ t.move = { s.move with state := 0, result := 5 } ∧ t.region = s.region ∧ t.gen = s.gen ∧ t.msix = s.msix ++ [64]) ∧
    (lost = false → ∃ t, exec .regionSwitch s = .next t ∧ t.region = s.region.insert s.move.region s.move.entry ∧ t.gen = s.gen + 1 ∧ t.move = { s.move with state := 0, result := 0 } ∧ t.mem = s.mem ∧ t.msix = s.msix ++ [64])) ∧
  -- KEYID and REGION_ERASE_DONE
  (∀ region v (s : State), let k : BitVec 7 := v.extractLsb' 0 7
    (s.phase ≠ 15 ∨ 1536 ≤ region ∨ 64 < k.toNat ∨ region ∈ s.busy ∨ s.keyid.getD 64 region = k → exec (.keyid region v) s = .next s) ∧
    (s.phase = 15 → region < 1536 → k.toNat ≤ 64 → region ∉ s.busy → s.keyid.getD 64 region ≠ k → ∃ t, exec (.keyid region v) s = .next t ∧ region ∈ t.busy ∧ t.mem = s.mem ∧
      t.keyid = s.keyid.setD 64 region k)) ∧
  (∀ region (s : State), region ∉ s.busy → exec (.regionEraseDone region) s = .next s) ∧
  (∀ region (s : State), region ∈ s.busy → (∀ q ∈ s.rpairs, q.held = []) → s.queued = [] → ∃ t, exec (.regionEraseDone region) s = .next t ∧ region ∉ t.busy ∧
    (∀ a, a / 2 ^ 30 = region → SMap.getD 0 t.mem a = 0) ∧ (∀ a, a / 2 ^ 30 ≠ region → SMap.getD 0 t.mem a = SMap.getD 0 s.mem a) ∧
    (∀ b, b / 2 ^ 24 = region → SMap.getD rawDesc t.desc b = rawDesc ∧ b ∉ t.poison) ∧ (∀ c, c / 2 ^ 14 = region → t.tags.find? c = none))

/-- R343, R474 to R488: what a guest sends and asks for. A reserved opcode, field or context is a protocol error; a packet that ends no command of its pair fences the site, and so does
an access outside a grant or an answer that is late; a fence takes everything the guest holds. -/
def Obligations.GuestSites : Prop :=
  -- a fence: the site holds nothing more, the host is told
  let fenced (n : Nat) (s t : State) : Prop := (t.site n).st = 3 ∧ (t.site n).fences.toNat = min 255 ((s.site n).fences.toNat + 1) ∧ (t.site n).grants = [] ∧
    (t.site n).claims = [] ∧ (t.site n).duties = [] ∧ (∀ c ∈ (t.site n).cmds, c.st = .queued) ∧ t.msix = s.msix ++ [68]
  -- a packet sent to the guest, with a field of its own
  let sends (n op : Nat) (p : BitVec 512) (s t : State) (hi lo v : Nat) : Prop := ∃ q, (t.site n).sent = (s.site n).sent ++ [q] ∧ pkOp q = op ∧ fld q 127 16 = fld p 127 16 ∧ fld q hi lo = v
  (∀ site ctx pa acc (s : State), (s.site site).st = 0 → exec (.guestRequest site ctx pa acc) s = .next s) ∧
  (∀ site ctx pa acc (s : State), (s.site site).st ≠ 2 → (s.site site).st ≠ 0 → ∃ t, exec (.guestRequest site ctx pa acc) s = .next t ∧ (t.site site).answer = none ∧
    (t.site site).lastRef = BitVec.ofNat 48 pa ∧ (t.site site).viol.toNat = min 0xFFFF ((s.site site).viol.toNat + 1) ∧ t.mem = s.mem) ∧
  (∀ site ctx pa n (s : State), (s.site site).st = 2 → 0 < n → pa % 64 + n ≤ 64 →
    (isFlistad pa = false ∨ ∀ g ∈ (s.site site).grants, g.ctx = ctx → s.ptime < g.expiry → g.pa ≤ pa → pa < g.pa + g.size → g.r = false) →
    ∃ t, exec (.guestRequest site ctx pa (.read n)) s = .next t ∧ fenced site s t ∧ (t.site site).lastRef = BitVec.ofNat 48 pa ∧
      (t.site site).viol.toNat = min 0xFFFF ((s.site site).viol.toNat + 1)) ∧
  (∀ site ctx pa n (s : State) g, (s.site site).st = 2 → 0 < n → pa % 64 + n ≤ 64 → isFlistad pa = true →
    g ∈ (s.site site).grants → g.ctx = ctx → s.ptime < g.expiry → g.pa ≤ pa → pa < g.pa + g.size → g.r = true →
    (s.site site).pass = [] → s.watchHit ctx 64 (accDirs 1) (s.blk pa) = none →
    (s.waitsAt pa = true → ∃ t, exec (.guestRequest site ctx pa (.read n)) s = .next t ∧ Queued.guest site ctx pa (.read n) ∈ t.queued ∧ t.mem = s.mem) ∧
    (s.waitsAt pa = false → s.recallFor (some (.guest site, ctx)) pa = none → s.frag? pa = none → s.poisonedAt pa = false →
      ∃ t, exec (.guestRequest site ctx pa (.read n)) s = .next t ∧ (t.site site).answer = some (s.rdBytes pa n) ∧ t.mem = s.mem)) ∧
  -- packets: of another opcode or at a site that is not up, nothing; a protocol error is counted
  (∀ site p (s : State), (s.site site).st ≠ 2 → exec (.complete site p) s = .next s ∧ exec (.errorI site p) s = .next s ∧ exec (.guestFault site p) s = .next s ∧ exec (.saved site p) s = .next s ∧
    exec (.discarded site p) s = .next s ∧ exec (.xlateReq site p) s = .next s ∧ exec (.invAck site p) s = .next s ∧ exec (.claimReq site p) s = .next s ∧ exec (.recallDone site p) s = .next s ∧
    exec (.protocolError site p) s = .next s) ∧
  (∀ e ∈ [(0x8001, Instr.complete), (0x8002, .errorI), (0x8003, .guestFault), (0x8012, .saved), (0x8013, .discarded), (0x8020, .xlateReq), (0x8023, .invAck), (0x8030, .claimReq), (0x8033, .recallDone)],
    ∀ site p (s : State), (s.site site).st = 2 → pkOp p = e.1 → protocolBad (s.siteNow site) p = true → ∀ i ∈ [e.2 site p, .protocolError site p], ∃ t, exec i s = .next t ∧
      (t.site site).proterr.toNat = min 0xFFFF ((s.site site).proterr.toNat + 1) ∧ (t.site site).st = 2 ∧ (t.site site).cmds = (s.site site).cmds ∧ t.mem = s.mem) ∧
  (∀ e ∈ [(0x8001, Instr.complete), (0x8002, .errorI), (0x8003, .guestFault)], ∀ site p (s : State), (s.site site).st = 2 → pkOp p = e.1 → protocolBad (s.siteNow site) p = false →
    ((∀ c ∈ (s.site site).cmds, c.arrived = true → ¬(pkCtx c.pkt = pkCtx p ∧ pkCh c.pkt = pkCh p)) → ∃ t, exec (e.2 site p) s = .next t ∧ fenced site s t) ∧
    (∀ c, (s.site site).cmds.find? (fun c => c.arrived && pkCtx c.pkt == pkCtx p && pkCh c.pkt == pkCh p) = some c → pkSeq c.pkt ≠ pkSeq p ∨ pkTag c.pkt ≠ pkTag p →
      ∃ t, exec (e.2 site p) s = .next t ∧ fenced site s t)) ∧
  (∀ site p (s : State) c, (s.site site).st = 2 → protocolBad (s.siteNow site) p = false →
    (s.site site).cmds.find? (fun c => c.arrived && pkCtx c.pkt == pkCtx p && pkCh c.pkt == pkCh p) = some c → pkSeq c.pkt = pkSeq p → pkTag c.pkt = pkTag p →
    let gone (t : State) : Prop := (t.site site).cmds = (s.site site).cmds.filter (fun k => k.id != c.id) ∧ ∀ d ∈ (t.site site).duties, d.1 ≠ .preempt c.id
    (pkOp p = 0x8001 → ∃ t, exec (.complete site p) s = .next t ∧ gone t ∧ Answered s t c.gid c.cap.wid c.dreg c.id (BitVec.ofNat 64 (2 ^ 63 + fld p 167 128))) ∧
    (pkOp p = 0x8002 → ∃ t, exec (.errorI site p) s = .next t ∧ gone t ∧ Answered s t c.gid c.cap.wid c.dreg c.id (BitVec.ofNat 64 (2 ^ 63 + 6 * 2 ^ 56))) ∧
    (pkOp p = 0x8003 → s.groupRuns c.gid = true →
      (fld p 199 192 = 0 → ∃ t, exec (.guestFault site p) s = .next t ∧ gone t ∧
        EngineStopped t c.gid { code := cGuest, info := site, addr := BitVec.ofNat 64 (fld p 191 128) } 4 c.cap.pc) ∧
      (fld p 199 192 = 1 → (∀ h ∈ (s.site site).watched, h.1 ≠ pkCtx p) → ∃ t, exec (.guestFault site p) s = .next t ∧
        (∀ k ∈ (t.site site).cmds, k.id = c.id → k.st = .suspended) ∧ EngineStopped t c.gid { code := cWatch, addr := BitVec.ofNat 64 (fld p 191 128) } 4 c.cap.pc))) ∧
  (∀ (s : State) site c code bytes, ∀ k ∈ ((s.endGuest site c code bytes false).site site).cmds, k.id ≠ c.id) ∧
  -- answers to PREEMPT
  (∀ e ∈ [(0x8012, Instr.saved), (0x8013, .discarded)], ∀ site p (s : State) c, (s.site site).st = 2 → pkOp p = e.1 → protocolBad (s.siteNow site) p = false →
    (s.site site).cmds.find? (fun c => c.arrived && fld c.pkt 127 16 == fld p 127 16 && (s.site site).duties.any fun d => d.1 == .preempt c.id) = some c →
    ∃ t, exec (e.2 site p) s = .next t ∧ (∀ k ∈ (t.site site).cmds, k.id = c.id → k.st = if e.1 = 0x8013 then .discarded else .saved (BitVec.ofNat 384 (fld p 511 128))) ∧
      ∀ d ∈ (t.site site).duties, d.1 ≠ .preempt c.id) ∧
  -- XLATE_REQ: an address out of range has no translation; a full grant table is busy
  (∀ site p (s : State), (s.site site).st = 2 → pkOp p = 0x8020 → protocolBad (s.siteNow site) p = false →
    (4096 ≤ (s.siteNow site).grants.length → ∃ t, exec (.xlateReq site p) s = .next t ∧ sends site 0x8021 p s t 343 336 3 ∧ (t.site site).grants = (s.site site).grants ∧ t.mem = s.mem) ∧
    ((s.siteNow site).grants.length < 4096 → 2 ^ 52 ≤ fld p 191 128 → ∃ t, exec (.xlateReq site p) s = .next t ∧ sends site 0x8021 p s t 343 336 1 ∧
      (t.site site).grants = (s.site site).grants ∧ t.mem = s.mem) ∧
    (∀ e l fs r, (s.siteNow site).grants.length < 4096 → fld p 191 128 < 2 ^ 52 → walk s false 0 (pkCtx p) (fld p 191 128) = .leaf e l fs →
      checkLeaf s (BitVec.ofNat 64 (fld p 191 128)) 0 e l [] = .ok r → (¬((bit p 192 = true ∨ bit p 194 = true) ∧ pteR e = false)) → (¬((bit p 193 = true ∨ bit p 194 = true) ∧ pteW e = false)) →
      ∃ t, exec (.xlateReq site p) s = .next t ∧ (t.site site).grants = (s.site site).grants ++
        [{ ctx := pkCtx p, va := fld p 191 128 / 2 ^ lvlShift l * 2 ^ lvlShift l, pa := r.ppage, size := 2 ^ lvlShift l, r := pteR e, w := pteW e, expiry := s.ptime + 2 ^ (16 + pteLsh e) }])) ∧
  (∀ site p (s : State), (s.site site).st = 2 → pkOp p = 0x8023 → protocolBad (s.siteNow site) p = false →
    (∀ d ∈ (s.site site).duties, ∀ n sc c va size, d.1 = .inv n sc c va size → n.toNat ≠ fld p 255 192) → exec (.invAck site p) s = .next s) ∧
  (∀ site (s : State), ∃ t, exec (.grantExpire site) s = .next t ∧ (∀ g ∈ (t.site site).grants, s.ptime < g.expiry) ∧ (t.site site).cmds = (s.site site).cmds ∧ t.mem = s.mem) ∧
  (∀ site p (s : State), (s.site site).st = 2 → pkOp p = 0x8030 → protocolBad (s.siteNow site) p = false → s.handle? (pkCtx p) (fld p 143 128) = none →
    ∃ t, exec (.claimReq site p) s = .next t ∧ sends site 0x8031 p s t 223 216 1 ∧ (t.site site).claims = (s.site site).claims ∧ t.mem = s.mem) ∧
  (∀ site p (s : State), (s.site site).st = 2 → pkOp p = 0x8033 → protocolBad (s.siteNow site) p = false →
    (∀ d ∈ (s.site site).duties, ∀ w, d.1 ≠ .recall (pkCtx p) (fld p 143 128) w) → exec (.recallDone site p) s = .next s) ∧
  (∀ site (s : State), ((s.site site).st ≠ 2 ∨ (∀ d ∈ (s.site site).duties, s.ptime < d.2) → exec (.guestDeadline site) s = .next s) ∧
    ((s.site site).st = 2 → (∃ d ∈ (s.site site).duties, d.2 ≤ s.ptime) → ∃ t, exec (.guestDeadline site) s = .next t ∧ fenced site s t)) ∧
  -- the fence
  (∀ site (s : State), let x := (fenceSite site s).site site
    x.st = 3 ∧ x.fences.toNat = min 255 ((s.site site).fences.toNat + 1) ∧ x.grants = [] ∧ x.claims = [] ∧ x.duties = [] ∧ (∀ c ∈ x.cmds, c.st = .queued) ∧
    (fenceSite site s).msix = s.msix ++ [68] ∧ (∀ id f c, s.frags.find? (fun f => f.id == id) = some f → f.holder = some (.guest site, c) →
      ∃ f', (fenceSite site s).frags.find? (fun f => f.id == id) = some f' ∧ f'.holder = none) ∧ ∀ q ∈ (fenceSite site s).packets, q.dest ≠ .site site) ∧
  -- reset and training
  (∀ site (s : State), ((s.site site).st ≠ 3 ∨ (s.site site).locked = true ∨ s.phase ≠ 15 → exec (.resetI site) s = .next s) ∧
    ((s.site site).st = 3 → (s.site site).locked = false → s.phase = 15 → ∃ t, exec (.resetI site) s = .next t ∧ t.site site = { s.site site with st := 4, since := s.ptime } ∧
      t.mem = s.mem ∧ t.packets = s.packets)) ∧
  (∀ site (s : State), ((s.site site).st ≠ 4 ∨ s.ptime < (s.site site).since + 10000 → exec (.siteResetHoldEnd site) s = .next s) ∧
    ((s.site site).st = 4 → (s.site site).since + 10000 ≤ s.ptime → ∃ t, exec (.siteResetHoldEnd site) s = .next t ∧ t.site site = { s.site site with st := 1, since := s.ptime } ∧
      t.mem = s.mem)) ∧
  (∀ site ident (s : State), ((s.site site).st ≠ 1 → exec (.siteTrainingDone site ident) s = .next s) ∧
    ((s.site site).st = 1 → (site, ident) ∈ s.caps.sites → ∃ t, exec (.siteTrainingDone site ident) s = .next t ∧ t.site site = { s.site site with st := 2 } ∧ t.mem = s.mem) ∧
    ((s.site site).st = 1 → (site, ident) ∉ s.caps.sites → ∃ t, exec (.siteTrainingDone site ident) s = .next t ∧ t.site site = { s.site site with st := 3, locked := true } ∧
      t.mem = s.mem)) ∧
  (∀ site (s : State), ((s.site site).st ≠ 1 ∨ s.ptime < (s.site site).since + 100000000 → exec (.siteTrainingTimeout site) s = .next s) ∧
    ((s.site site).st = 1 → (s.site site).since + 100000000 ≤ s.ptime → ∃ t, exec (.siteTrainingTimeout site) s = .next t ∧ t.site site = { s.site site with st := 3 } ∧
      t.mem = s.mem))

/-- R3, R424, R436 to R440, R490, R499 to R502, R504, R512: a die that is declared lost stays lost, its groups gone, the contexts that touched it trapped; an uncorrectable error poisons its
block or ends its group; device reset brings up an image that verifies, or waits in recovery for one; a throttled die's cycles get longer from now on. -/
def Obligations.DeviceEvents : Prop :=
  (∀ die (s : State), ∀ i ∈ [Instr.planeLinkSilent die, .dieFault die], (8 ≤ die ∨ s.dieLost die = true ∨ s.phase ≠ 15 → exec i s = .next s) ∧
    (die < 8 → s.dieLost die = false → s.phase = 15 → ∃ t, exec i s = .next t ∧ t.diestat = s.diestat ||| (1#8 <<< die) ∧ t.dieLost die = true ∧
      (s.groups.rising = true → (∀ n g, s.group? n = some g → g.gid = n) → ∀ n, n < 131072 → gidDie n = die → t.group? n = none))) ∧
  (∀ die (s : State), (∀ id f c ctx, s.frags.find? (fun f => f.id == id) = some f → f.holder = some (.cluster c, ctx) → c / 24 = die →
    ∃ f', (loseClaims die s).frags.find? (fun f => f.id == id) = some f' ∧ f'.holder = none) ∧ (loseClaims die s).mem = s.mem) ∧
  (∀ die (s : State), ∀ q ∈ (endLaunches die s).queue, s.trapped die q.ctx = false ∧ q.seam / 16 ≠ die) ∧
  (∀ die (s : State), ∀ l ∈ (endLaunches die s).launches, s.trapped die l.ctx = true → l.status.isSome = true) ∧
  (∀ b (s : State), isFlistad (b * 64) = false → exec (.uncorrectableError (.memory b)) s = .next s) ∧
  (∀ b (s : State), isFlistad (b * 64) = true → ∃ t, exec (.uncorrectableError (.memory b)) s = .next t ∧ b ∈ t.poison ∧ (∀ c, c ≠ b → (c ∈ t.poison ↔ c ∈ s.poison)) ∧
    t.mem = s.mem ∧ t.groups = s.groups) ∧
  (∀ gid b (s : State) g, s.group? gid = some g → g.gid = gid → b * 64 < g.scr.size → ∃ t g', exec (.uncorrectableError (.scratch gid b)) s = .next t ∧ t.group? gid = some g' ∧ b ∈ g'.scr.poison ∧
    g'.threads = g.threads) ∧
  (∀ gid b (s : State), s.group? gid = none → exec (.uncorrectableError (.scratch gid b)) s = .next s ∧ exec (.uncorrectableError (.register gid)) s = .next s) ∧
  (∀ gid (s : State) g, s.group? gid = some g → g.gid = gid → s.groups.rising = true → ∃ t e, exec (.uncorrectableError (.register gid)) s = .next t ∧ t.group? gid = none ∧
    e ∈ (t.part g.part).svc ∧ e.kind = 2 ∧ e.frame = 0 ∧ e.gid = gid ∧ e.ctx = g.ctx ∧ e.arg.toNat % 256 = cPoison.toNat ∧ ∀ l ∈ t.loads, l.gid ≠ gid) ∧
  (∀ cl b (s : State), cl < 192 → ∃ t, exec (.uncorrectableError (.dirtyLine cl b)) s = .next t ∧ (∀ h ∈ (t.cluster cl).held, h.blk ≠ b) ∧ (∀ k ∈ (t.cluster cl).cores, ∀ x ∈ k.l1, x.blk ≠ b) ∧
    ((∃ h ∈ (s.cluster cl).held, h.blk = b) → b ∈ t.poison) ∧ ((∀ h ∈ (s.cluster cl).held, h.blk ≠ b) → t.poison = s.poison) ∧ t.mem = s.mem) ∧
  (∀ die n (s : State), (8 ≤ die ∨ n = 0 → exec (.patrolScrub die n) s = .next s) ∧ (die < 8 → n ≠ 0 → ∃ t e, exec (.patrolScrub die n) s = .next t ∧ t.evs = s.evs ++ [e] ∧
    e.code = 0x80 ∧ e.n = n ∧ e.core = 96 * die ∧ e.owner = none ∧ t.mem = s.mem ∧ t.poison = s.poison)) ∧
  (∀ (s : State), s.phase ≠ 15 → exec .mgmtCoreFault s = .next s) ∧
  (∀ (s : State), s.phase = 15 → ∃ t, exec .mgmtCoreFault s = .next t ∧ t.mcresets = s.mcresets + 1 ∧ t.msix = s.msix ++ [69] ∧ t.mgmt.sram = s.mgmt.sram ∧ t.mgmt.th.pc = 0 ∧
    t.groups = s.groups ∧ t.clusters = s.clusters ∧ t.mem = s.mem) ∧
  (∀ (s : State), s.accepts s.flash = none → ∃ t, exec .deviceReset s = .next t ∧ t.phase = 2 ∧ t.recovery = true ∧ t.groups = [] ∧ t.ctxs = [] ∧ t.fuses = s.fuses ∧ t.flash = s.flash) ∧
  (∀ (s : State) v, s.accepts s.flash = some v → ∃ t, exec .deviceReset s = .next t ∧ t.phase = 15 ∧ t.recovery = false ∧ t.groups = [] ∧ t.ctxs = [] ∧ t.mem = [] ∧ t.fwsvn = v ∧
    t.fuses.toNat = max s.fuses.toNat v.toNat ∧ t.fenced = s.fenced) ∧
  (∀ image (s : State), (s.recovery = false ∨ s.accepts image = none) → exec (.recgo image) s = .next s) ∧
  (∀ image (s : State) v, s.recovery = true → s.accepts image = some v → ∃ t, exec (.recgo image) s = .next t ∧ t.flash = image ∧ t.phase = 15 ∧ t.recovery = false) ∧
  (∀ image (s : State) v, s.accepts image = some v → s.fuses.toNat ≤ v.toNat ∧ Config.firmwareOk image = some v) ∧
  (∀ die period (s : State), (8 ≤ die ∨ period = 0 → exec (.powerThrottle die period) s = .next s) ∧
    (die < 8 → 0 < period → ∃ t, exec (.powerThrottle die period) s = .next t ∧ t.cyclesOf die = s.cyclesOf die ∧ t.cycleLen die = period ∧ ∀ d, d ≠ die → t.cyclesOf d = s.cyclesOf d)) ∧
  (∀ cl (s : State), (192 ≤ cl ∨ cl ∈ s.fenced → exec (.clusterFailure cl) s = .next s) ∧
    (cl < 192 → cl ∉ s.fenced → ∃ t, exec (.clusterFailure cl) s = .next t ∧ t.fenced = s.fenced ++ [cl] ∧ (t.cluster cl).smp = none ∧ t.groups = s.groups ∧ ∀ d, d ≠ cl → t.cluster d = s.cluster d)) ∧
  -- SAMPLE_POINT
  (∀ cl (s : State), ((s.cluster cl).smp = none → exec (.samplePoint cl) s = .next s) ∧
    (∀ u, (s.cluster cl).smp = some u → s.cyclesOf (cl / 24) < u.nextAt → exec (.samplePoint cl) s = .next s) ∧
    (∀ u, (s.cluster cl).smp = some u → u.nextAt ≤ s.cyclesOf (cl / 24) → (s.part (s.partOfCluster cl)).st ≠ .running →
      ∃ t, exec (.samplePoint cl) s = .next t ∧ (t.cluster cl).smp = some { u with nextAt := u.nextAt + fld u.img 87 64 } ∧ t.mem = s.mem))
end

