-- ==== Sys2Proof/Laws/State.lean ====
section
/-!
SUPPORT. What each plain update of the state leaves of every field: one lemma per field per update, and the same for the writing of an
agent's registers, so that no proof unfolds a record update.
-/
namespace Sys2Proof.Machine
open Sys2Proof

/-! ## State.updCluster -/

@[simp] theorem State.updCluster_agenda (s : State) (c : Nat) (f : Cluster → Cluster) : (s.updCluster c f).agenda = s.agenda := rfl
@[simp] theorem State.updCluster_evs (s : State) (c : Nat) (f : Cluster → Cluster) : (s.updCluster c f).evs = s.evs := rfl
@[simp] theorem State.updCluster_cur (s : State) (c : Nat) (f : Cluster → Cluster) : (s.updCluster c f).cur = s.cur := rfl
@[simp] theorem State.updCluster_free (s : State) (c : Nat) (f : Cluster → Cluster) : (s.updCluster c f).free = s.free := rfl
@[simp] theorem State.updCluster_nextId (s : State) (c : Nat) (f : Cluster → Cluster) : (s.updCluster c f).nextId = s.nextId := rfl
@[simp] theorem State.updCluster_now (s : State) (c : Nat) (f : Cluster → Cluster) : (s.updCluster c f).now = s.now := rfl
@[simp] theorem State.updCluster_clocks (s : State) (c : Nat) (f : Cluster → Cluster) : (s.updCluster c f).clocks = s.clocks := rfl
@[simp] theorem State.updCluster_mem (s : State) (c : Nat) (f : Cluster → Cluster) : (s.updCluster c f).mem = s.mem := rfl
@[simp] theorem State.updCluster_desc (s : State) (c : Nat) (f : Cluster → Cluster) : (s.updCluster c f).desc = s.desc := rfl
@[simp] theorem State.updCluster_poison (s : State) (c : Nat) (f : Cluster → Cluster) : (s.updCluster c f).poison = s.poison := rfl
@[simp] theorem State.updCluster_tags (s : State) (c : Nat) (f : Cluster → Cluster) : (s.updCluster c f).tags = s.tags := rfl
@[simp] theorem State.updCluster_region (s : State) (c : Nat) (f : Cluster → Cluster) : (s.updCluster c f).region = s.region := rfl
@[simp] theorem State.updCluster_gen (s : State) (c : Nat) (f : Cluster → Cluster) : (s.updCluster c f).gen = s.gen := rfl
@[simp] theorem State.updCluster_keyid (s : State) (c : Nat) (f : Cluster → Cluster) : (s.updCluster c f).keyid = s.keyid := rfl
@[simp] theorem State.updCluster_busy (s : State) (c : Nat) (f : Cluster → Cluster) : (s.updCluster c f).busy = s.busy := rfl
@[simp] theorem State.updCluster_move (s : State) (c : Nat) (f : Cluster → Cluster) : (s.updCluster c f).move = s.move := rfl
@[simp] theorem State.updCluster_queued (s : State) (c : Nat) (f : Cluster → Cluster) : (s.updCluster c f).queued = s.queued := rfl
@[simp] theorem State.updCluster_forward (s : State) (c : Nat) (f : Cluster → Cluster) : (s.updCluster c f).forward = s.forward := rfl
@[simp] theorem State.updCluster_tlb (s : State) (c : Nat) (f : Cluster → Cluster) : (s.updCluster c f).tlb = s.tlb := rfl
@[simp] theorem State.updCluster_clusters (s : State) (c : Nat) (f : Cluster → Cluster) : (s.updCluster c f).clusters = (s.clusters.insert c (f (s.cluster c))) := rfl
@[simp] theorem State.updCluster_groups (s : State) (c : Nat) (f : Cluster → Cluster) : (s.updCluster c f).groups = s.groups := rfl
@[simp] theorem State.updCluster_gangs (s : State) (c : Nat) (f : Cluster → Cluster) : (s.updCluster c f).gangs = s.gangs := rfl
@[simp] theorem State.updCluster_handles (s : State) (c : Nat) (f : Cluster → Cluster) : (s.updCluster c f).handles = s.handles := rfl
@[simp] theorem State.updCluster_frags (s : State) (c : Nat) (f : Cluster → Cluster) : (s.updCluster c f).frags = s.frags := rfl
@[simp] theorem State.updCluster_lastVer (s : State) (c : Nat) (f : Cluster → Cluster) : (s.updCluster c f).lastVer = s.lastVer := rfl
@[simp] theorem State.updCluster_packets (s : State) (c : Nat) (f : Cluster → Cluster) : (s.updCluster c f).packets = s.packets := rfl
@[simp] theorem State.updCluster_carry (s : State) (c : Nat) (f : Cluster → Cluster) : (s.updCluster c f).carry = s.carry := rfl
@[simp] theorem State.updCluster_deadWin (s : State) (c : Nat) (f : Cluster → Cluster) : (s.updCluster c f).deadWin = s.deadWin := rfl
@[simp] theorem State.updCluster_loads (s : State) (c : Nat) (f : Cluster → Cluster) : (s.updCluster c f).loads = s.loads := rfl
@[simp] theorem State.updCluster_queue (s : State) (c : Nat) (f : Cluster → Cluster) : (s.updCluster c f).queue = s.queue := rfl
@[simp] theorem State.updCluster_reserves (s : State) (c : Nat) (f : Cluster → Cluster) : (s.updCluster c f).reserves = s.reserves := rfl
@[simp] theorem State.updCluster_passes (s : State) (c : Nat) (f : Cluster → Cluster) : (s.updCluster c f).passes = s.passes := rfl
@[simp] theorem State.updCluster_passOn (s : State) (c : Nat) (f : Cluster → Cluster) : (s.updCluster c f).passOn = s.passOn := rfl
@[simp] theorem State.updCluster_hostPts (s : State) (c : Nat) (f : Cluster → Cluster) : (s.updCluster c f).hostPts = s.hostPts := rfl
@[simp] theorem State.updCluster_launches (s : State) (c : Nat) (f : Cluster → Cluster) : (s.updCluster c f).launches = s.launches := rfl
@[simp] theorem State.updCluster_assay (s : State) (c : Nat) (f : Cluster → Cluster) : (s.updCluster c f).assay = s.assay := rfl
@[simp] theorem State.updCluster_segs (s : State) (c : Nat) (f : Cluster → Cluster) : (s.updCluster c f).segs = s.segs := rfl
@[simp] theorem State.updCluster_ctxs (s : State) (c : Nat) (f : Cluster → Cluster) : (s.updCluster c f).ctxs = s.ctxs := rfl
@[simp] theorem State.updCluster_parts (s : State) (c : Nat) (f : Cluster → Cluster) : (s.updCluster c f).parts = s.parts := rfl
@[simp] theorem State.updCluster_vault (s : State) (c : Nat) (f : Cluster → Cluster) : (s.updCluster c f).vault = s.vault := rfl
@[simp] theorem State.updCluster_accelId (s : State) (c : Nat) (f : Cluster → Cluster) : (s.updCluster c f).accelId = s.accelId := rfl
@[simp] theorem State.updCluster_rtimeout (s : State) (c : Nat) (f : Cluster → Cluster) : (s.updCluster c f).rtimeout = s.rtimeout := rfl
@[simp] theorem State.updCluster_ports (s : State) (c : Nat) (f : Cluster → Cluster) : (s.updCluster c f).ports = s.ports := rfl
@[simp] theorem State.updCluster_light (s : State) (c : Nat) (f : Cluster → Cluster) : (s.updCluster c f).light = s.light := rfl
@[simp] theorem State.updCluster_lost (s : State) (c : Nat) (f : Cluster → Cluster) : (s.updCluster c f).lost = s.lost := rfl
@[simp] theorem State.updCluster_incidents (s : State) (c : Nat) (f : Cluster → Cluster) : (s.updCluster c f).incidents = s.incidents := rfl
@[simp] theorem State.updCluster_rpairs (s : State) (c : Nat) (f : Cluster → Cluster) : (s.updCluster c f).rpairs = s.rpairs := rfl
@[simp] theorem State.updCluster_kept (s : State) (c : Nat) (f : Cluster → Cluster) : (s.updCluster c f).kept = s.kept := rfl
@[simp] theorem State.updCluster_fabOut (s : State) (c : Nat) (f : Cluster → Cluster) : (s.updCluster c f).fabOut = s.fabOut := rfl
@[simp] theorem State.updCluster_runs (s : State) (c : Nat) (f : Cluster → Cluster) : (s.updCluster c f).runs = s.runs := rfl
@[simp] theorem State.updCluster_exports (s : State) (c : Nat) (f : Cluster → Cluster) : (s.updCluster c f).exports = s.exports := rfl
@[simp] theorem State.updCluster_expCount (s : State) (c : Nat) (f : Cluster → Cluster) : (s.updCluster c f).expCount = s.expCount := rfl
@[simp] theorem State.updCluster_expSrc (s : State) (c : Nat) (f : Cluster → Cluster) : (s.updCluster c f).expSrc = s.expSrc := rfl
@[simp] theorem State.updCluster_hevBase (s : State) (c : Nat) (f : Cluster → Cluster) : (s.updCluster c f).hevBase = s.hevBase := rfl
@[simp] theorem State.updCluster_hevWr (s : State) (c : Nat) (f : Cluster → Cluster) : (s.updCluster c f).hevWr = s.hevWr := rfl
@[simp] theorem State.updCluster_hevRd (s : State) (c : Nat) (f : Cluster → Cluster) : (s.updCluster c f).hevRd = s.hevRd := rfl
@[simp] theorem State.updCluster_hevDrops (s : State) (c : Nat) (f : Cluster → Cluster) : (s.updCluster c f).hevDrops = s.hevDrops := rfl
@[simp] theorem State.updCluster_hevSeq (s : State) (c : Nat) (f : Cluster → Cluster) : (s.updCluster c f).hevSeq = s.hevSeq := rfl
@[simp] theorem State.updCluster_sites (s : State) (c : Nat) (f : Cluster → Cluster) : (s.updCluster c f).sites = s.sites := rfl
@[simp] theorem State.updCluster_moveCmd (s : State) (c : Nat) (f : Cluster → Cluster) : (s.updCluster c f).moveCmd = s.moveCmd := rfl
@[simp] theorem State.updCluster_diestat (s : State) (c : Nat) (f : Cluster → Cluster) : (s.updCluster c f).diestat = s.diestat := rfl
@[simp] theorem State.updCluster_fenced (s : State) (c : Nat) (f : Cluster → Cluster) : (s.updCluster c f).fenced = s.fenced := rfl
@[simp] theorem State.updCluster_caps (s : State) (c : Nat) (f : Cluster → Cluster) : (s.updCluster c f).caps = s.caps := rfl
@[simp] theorem State.updCluster_fwsvn (s : State) (c : Nat) (f : Cluster → Cluster) : (s.updCluster c f).fwsvn = s.fwsvn := rfl
@[simp] theorem State.updCluster_mcresets (s : State) (c : Nat) (f : Cluster → Cluster) : (s.updCluster c f).mcresets = s.mcresets := rfl
@[simp] theorem State.updCluster_recovery (s : State) (c : Nat) (f : Cluster → Cluster) : (s.updCluster c f).recovery = s.recovery := rfl
@[simp] theorem State.updCluster_phase (s : State) (c : Nat) (f : Cluster → Cluster) : (s.updCluster c f).phase = s.phase := rfl
@[simp] theorem State.updCluster_fuses (s : State) (c : Nat) (f : Cluster → Cluster) : (s.updCluster c f).fuses = s.fuses := rfl
@[simp] theorem State.updCluster_flash (s : State) (c : Nat) (f : Cluster → Cluster) : (s.updCluster c f).flash = s.flash := rfl
@[simp] theorem State.updCluster_mgmt (s : State) (c : Nat) (f : Cluster → Cluster) : (s.updCluster c f).mgmt = s.mgmt := rfl
@[simp] theorem State.updCluster_msix (s : State) (c : Nat) (f : Cluster → Cluster) : (s.updCluster c f).msix = s.msix := rfl
@[simp] theorem State.updCluster_hostOut (s : State) (c : Nat) (f : Cluster → Cluster) : (s.updCluster c f).hostOut = s.hostOut := rfl

/-! ## State.updGroup -/

@[simp] theorem State.updGroup_agenda (s : State) (g : Nat) (f : Group → Group) : (s.updGroup g f).agenda = s.agenda := rfl
@[simp] theorem State.updGroup_evs (s : State) (g : Nat) (f : Group → Group) : (s.updGroup g f).evs = s.evs := rfl
@[simp] theorem State.updGroup_cur (s : State) (g : Nat) (f : Group → Group) : (s.updGroup g f).cur = s.cur := rfl
@[simp] theorem State.updGroup_free (s : State) (g : Nat) (f : Group → Group) : (s.updGroup g f).free = s.free := rfl
@[simp] theorem State.updGroup_nextId (s : State) (g : Nat) (f : Group → Group) : (s.updGroup g f).nextId = s.nextId := rfl
@[simp] theorem State.updGroup_now (s : State) (g : Nat) (f : Group → Group) : (s.updGroup g f).now = s.now := rfl
@[simp] theorem State.updGroup_clocks (s : State) (g : Nat) (f : Group → Group) : (s.updGroup g f).clocks = s.clocks := rfl
@[simp] theorem State.updGroup_mem (s : State) (g : Nat) (f : Group → Group) : (s.updGroup g f).mem = s.mem := rfl
@[simp] theorem State.updGroup_desc (s : State) (g : Nat) (f : Group → Group) : (s.updGroup g f).desc = s.desc := rfl
@[simp] theorem State.updGroup_poison (s : State) (g : Nat) (f : Group → Group) : (s.updGroup g f).poison = s.poison := rfl
@[simp] theorem State.updGroup_tags (s : State) (g : Nat) (f : Group → Group) : (s.updGroup g f).tags = s.tags := rfl
@[simp] theorem State.updGroup_region (s : State) (g : Nat) (f : Group → Group) : (s.updGroup g f).region = s.region := rfl
@[simp] theorem State.updGroup_gen (s : State) (g : Nat) (f : Group → Group) : (s.updGroup g f).gen = s.gen := rfl
@[simp] theorem State.updGroup_keyid (s : State) (g : Nat) (f : Group → Group) : (s.updGroup g f).keyid = s.keyid := rfl
@[simp] theorem State.updGroup_busy (s : State) (g : Nat) (f : Group → Group) : (s.updGroup g f).busy = s.busy := rfl
@[simp] theorem State.updGroup_move (s : State) (g : Nat) (f : Group → Group) : (s.updGroup g f).move = s.move := rfl
@[simp] theorem State.updGroup_queued (s : State) (g : Nat) (f : Group → Group) : (s.updGroup g f).queued = s.queued := rfl
@[simp] theorem State.updGroup_forward (s : State) (g : Nat) (f : Group → Group) : (s.updGroup g f).forward = s.forward := rfl
@[simp] theorem State.updGroup_tlb (s : State) (g : Nat) (f : Group → Group) : (s.updGroup g f).tlb = s.tlb := rfl
@[simp] theorem State.updGroup_clusters (s : State) (g : Nat) (f : Group → Group) : (s.updGroup g f).clusters = s.clusters := rfl
theorem State.updGroup_groups (s : State) (g : Nat) (f : Group → Group) : (s.updGroup g f).groups = (match s.groups.find? g with
  | some x => s.groups.insert g (f x)
  | none => s.groups) := rfl
@[simp] theorem State.updGroup_gangs (s : State) (g : Nat) (f : Group → Group) : (s.updGroup g f).gangs = s.gangs := rfl
@[simp] theorem State.updGroup_handles (s : State) (g : Nat) (f : Group → Group) : (s.updGroup g f).handles = s.handles := rfl
@[simp] theorem State.updGroup_frags (s : State) (g : Nat) (f : Group → Group) : (s.updGroup g f).frags = s.frags := rfl
@[simp] theorem State.updGroup_lastVer (s : State) (g : Nat) (f : Group → Group) : (s.updGroup g f).lastVer = s.lastVer := rfl
@[simp] theorem State.updGroup_packets (s : State) (g : Nat) (f : Group → Group) : (s.updGroup g f).packets = s.packets := rfl
@[simp] theorem State.updGroup_carry (s : State) (g : Nat) (f : Group → Group) : (s.updGroup g f).carry = s.carry := rfl
@[simp] theorem State.updGroup_deadWin (s : State) (g : Nat) (f : Group → Group) : (s.updGroup g f).deadWin = s.deadWin := rfl
@[simp] theorem State.updGroup_loads (s : State) (g : Nat) (f : Group → Group) : (s.updGroup g f).loads = s.loads := rfl
@[simp] theorem State.updGroup_queue (s : State) (g : Nat) (f : Group → Group) : (s.updGroup g f).queue = s.queue := rfl
@[simp] theorem State.updGroup_reserves (s : State) (g : Nat) (f : Group → Group) : (s.updGroup g f).reserves = s.reserves := rfl
@[simp] theorem State.updGroup_passes (s : State) (g : Nat) (f : Group → Group) : (s.updGroup g f).passes = s.passes := rfl
@[simp] theorem State.updGroup_passOn (s : State) (g : Nat) (f : Group → Group) : (s.updGroup g f).passOn = s.passOn := rfl
@[simp] theorem State.updGroup_hostPts (s : State) (g : Nat) (f : Group → Group) : (s.updGroup g f).hostPts = s.hostPts := rfl
@[simp] theorem State.updGroup_launches (s : State) (g : Nat) (f : Group → Group) : (s.updGroup g f).launches = s.launches := rfl
@[simp] theorem State.updGroup_assay (s : State) (g : Nat) (f : Group → Group) : (s.updGroup g f).assay = s.assay := rfl
@[simp] theorem State.updGroup_segs (s : State) (g : Nat) (f : Group → Group) : (s.updGroup g f).segs = s.segs := rfl
@[simp] theorem State.updGroup_ctxs (s : State) (g : Nat) (f : Group → Group) : (s.updGroup g f).ctxs = s.ctxs := rfl
@[simp] theorem State.updGroup_parts (s : State) (g : Nat) (f : Group → Group) : (s.updGroup g f).parts = s.parts := rfl
@[simp] theorem State.updGroup_vault (s : State) (g : Nat) (f : Group → Group) : (s.updGroup g f).vault = s.vault := rfl
@[simp] theorem State.updGroup_accelId (s : State) (g : Nat) (f : Group → Group) : (s.updGroup g f).accelId = s.accelId := rfl
@[simp] theorem State.updGroup_rtimeout (s : State) (g : Nat) (f : Group → Group) : (s.updGroup g f).rtimeout = s.rtimeout := rfl
@[simp] theorem State.updGroup_ports (s : State) (g : Nat) (f : Group → Group) : (s.updGroup g f).ports = s.ports := rfl
@[simp] theorem State.updGroup_light (s : State) (g : Nat) (f : Group → Group) : (s.updGroup g f).light = s.light := rfl
@[simp] theorem State.updGroup_lost (s : State) (g : Nat) (f : Group → Group) : (s.updGroup g f).lost = s.lost := rfl
@[simp] theorem State.updGroup_incidents (s : State) (g : Nat) (f : Group → Group) : (s.updGroup g f).incidents = s.incidents := rfl
@[simp] theorem State.updGroup_rpairs (s : State) (g : Nat) (f : Group → Group) : (s.updGroup g f).rpairs = s.rpairs := rfl
@[simp] theorem State.updGroup_kept (s : State) (g : Nat) (f : Group → Group) : (s.updGroup g f).kept = s.kept := rfl
@[simp] theorem State.updGroup_fabOut (s : State) (g : Nat) (f : Group → Group) : (s.updGroup g f).fabOut = s.fabOut := rfl
@[simp] theorem State.updGroup_runs (s : State) (g : Nat) (f : Group → Group) : (s.updGroup g f).runs = s.runs := rfl
@[simp] theorem State.updGroup_exports (s : State) (g : Nat) (f : Group → Group) : (s.updGroup g f).exports = s.exports := rfl
@[simp] theorem State.updGroup_expCount (s : State) (g : Nat) (f : Group → Group) : (s.updGroup g f).expCount = s.expCount := rfl
@[simp] theorem State.updGroup_expSrc (s : State) (g : Nat) (f : Group → Group) : (s.updGroup g f).expSrc = s.expSrc := rfl
@[simp] theorem State.updGroup_hevBase (s : State) (g : Nat) (f : Group → Group) : (s.updGroup g f).hevBase = s.hevBase := rfl
@[simp] theorem State.updGroup_hevWr (s : State) (g : Nat) (f : Group → Group) : (s.updGroup g f).hevWr = s.hevWr := rfl
@[simp] theorem State.updGroup_hevRd (s : State) (g : Nat) (f : Group → Group) : (s.updGroup g f).hevRd = s.hevRd := rfl
@[simp] theorem State.updGroup_hevDrops (s : State) (g : Nat) (f : Group → Group) : (s.updGroup g f).hevDrops = s.hevDrops := rfl
@[simp] theorem State.updGroup_hevSeq (s : State) (g : Nat) (f : Group → Group) : (s.updGroup g f).hevSeq = s.hevSeq := rfl
@[simp] theorem State.updGroup_sites (s : State) (g : Nat) (f : Group → Group) : (s.updGroup g f).sites = s.sites := rfl
@[simp] theorem State.updGroup_moveCmd (s : State) (g : Nat) (f : Group → Group) : (s.updGroup g f).moveCmd = s.moveCmd := rfl
@[simp] theorem State.updGroup_diestat (s : State) (g : Nat) (f : Group → Group) : (s.updGroup g f).diestat = s.diestat := rfl
@[simp] theorem State.updGroup_fenced (s : State) (g : Nat) (f : Group → Group) : (s.updGroup g f).fenced = s.fenced := rfl
@[simp] theorem State.updGroup_caps (s : State) (g : Nat) (f : Group → Group) : (s.updGroup g f).caps = s.caps := rfl
@[simp] theorem State.updGroup_fwsvn (s : State) (g : Nat) (f : Group → Group) : (s.updGroup g f).fwsvn = s.fwsvn := rfl
@[simp] theorem State.updGroup_mcresets (s : State) (g : Nat) (f : Group → Group) : (s.updGroup g f).mcresets = s.mcresets := rfl
@[simp] theorem State.updGroup_recovery (s : State) (g : Nat) (f : Group → Group) : (s.updGroup g f).recovery = s.recovery := rfl
@[simp] theorem State.updGroup_phase (s : State) (g : Nat) (f : Group → Group) : (s.updGroup g f).phase = s.phase := rfl
@[simp] theorem State.updGroup_fuses (s : State) (g : Nat) (f : Group → Group) : (s.updGroup g f).fuses = s.fuses := rfl
@[simp] theorem State.updGroup_flash (s : State) (g : Nat) (f : Group → Group) : (s.updGroup g f).flash = s.flash := rfl
@[simp] theorem State.updGroup_mgmt (s : State) (g : Nat) (f : Group → Group) : (s.updGroup g f).mgmt = s.mgmt := rfl
@[simp] theorem State.updGroup_msix (s : State) (g : Nat) (f : Group → Group) : (s.updGroup g f).msix = s.msix := rfl
@[simp] theorem State.updGroup_hostOut (s : State) (g : Nat) (f : Group → Group) : (s.updGroup g f).hostOut = s.hostOut := rfl

/-! ## State.updPart -/

@[simp] theorem State.updPart_agenda (s : State) (p : Nat) (f : Part → Part) : (s.updPart p f).agenda = s.agenda := rfl
@[simp] theorem State.updPart_evs (s : State) (p : Nat) (f : Part → Part) : (s.updPart p f).evs = s.evs := rfl
@[simp] theorem State.updPart_cur (s : State) (p : Nat) (f : Part → Part) : (s.updPart p f).cur = s.cur := rfl
@[simp] theorem State.updPart_free (s : State) (p : Nat) (f : Part → Part) : (s.updPart p f).free = s.free := rfl
@[simp] theorem State.updPart_nextId (s : State) (p : Nat) (f : Part → Part) : (s.updPart p f).nextId = s.nextId := rfl
@[simp] theorem State.updPart_now (s : State) (p : Nat) (f : Part → Part) : (s.updPart p f).now = s.now := rfl
@[simp] theorem State.updPart_clocks (s : State) (p : Nat) (f : Part → Part) : (s.updPart p f).clocks = s.clocks := rfl
@[simp] theorem State.updPart_mem (s : State) (p : Nat) (f : Part → Part) : (s.updPart p f).mem = s.mem := rfl
@[simp] theorem State.updPart_desc (s : State) (p : Nat) (f : Part → Part) : (s.updPart p f).desc = s.desc := rfl
@[simp] theorem State.updPart_poison (s : State) (p : Nat) (f : Part → Part) : (s.updPart p f).poison = s.poison := rfl
@[simp] theorem State.updPart_tags (s : State) (p : Nat) (f : Part → Part) : (s.updPart p f).tags = s.tags := rfl
@[simp] theorem State.updPart_region (s : State) (p : Nat) (f : Part → Part) : (s.updPart p f).region = s.region := rfl
@[simp] theorem State.updPart_gen (s : State) (p : Nat) (f : Part → Part) : (s.updPart p f).gen = s.gen := rfl
@[simp] theorem State.updPart_keyid (s : State) (p : Nat) (f : Part → Part) : (s.updPart p f).keyid = s.keyid := rfl
@[simp] theorem State.updPart_busy (s : State) (p : Nat) (f : Part → Part) : (s.updPart p f).busy = s.busy := rfl
@[simp] theorem State.updPart_move (s : State) (p : Nat) (f : Part → Part) : (s.updPart p f).move = s.move := rfl
@[simp] theorem State.updPart_queued (s : State) (p : Nat) (f : Part → Part) : (s.updPart p f).queued = s.queued := rfl
@[simp] theorem State.updPart_forward (s : State) (p : Nat) (f : Part → Part) : (s.updPart p f).forward = s.forward := rfl
@[simp] theorem State.updPart_tlb (s : State) (p : Nat) (f : Part → Part) : (s.updPart p f).tlb = s.tlb := rfl
@[simp] theorem State.updPart_clusters (s : State) (p : Nat) (f : Part → Part) : (s.updPart p f).clusters = s.clusters := rfl
@[simp] theorem State.updPart_groups (s : State) (p : Nat) (f : Part → Part) : (s.updPart p f).groups = s.groups := rfl
@[simp] theorem State.updPart_gangs (s : State) (p : Nat) (f : Part → Part) : (s.updPart p f).gangs = s.gangs := rfl
@[simp] theorem State.updPart_handles (s : State) (p : Nat) (f : Part → Part) : (s.updPart p f).handles = s.handles := rfl
@[simp] theorem State.updPart_frags (s : State) (p : Nat) (f : Part → Part) : (s.updPart p f).frags = s.frags := rfl
@[simp] theorem State.updPart_lastVer (s : State) (p : Nat) (f : Part → Part) : (s.updPart p f).lastVer = s.lastVer := rfl
@[simp] theorem State.updPart_packets (s : State) (p : Nat) (f : Part → Part) : (s.updPart p f).packets = s.packets := rfl
@[simp] theorem State.updPart_carry (s : State) (p : Nat) (f : Part → Part) : (s.updPart p f).carry = s.carry := rfl
@[simp] theorem State.updPart_deadWin (s : State) (p : Nat) (f : Part → Part) : (s.updPart p f).deadWin = s.deadWin := rfl
@[simp] theorem State.updPart_loads (s : State) (p : Nat) (f : Part → Part) : (s.updPart p f).loads = s.loads := rfl
@[simp] theorem State.updPart_queue (s : State) (p : Nat) (f : Part → Part) : (s.updPart p f).queue = s.queue := rfl
@[simp] theorem State.updPart_reserves (s : State) (p : Nat) (f : Part → Part) : (s.updPart p f).reserves = s.reserves := rfl
@[simp] theorem State.updPart_passes (s : State) (p : Nat) (f : Part → Part) : (s.updPart p f).passes = s.passes := rfl
@[simp] theorem State.updPart_passOn (s : State) (p : Nat) (f : Part → Part) : (s.updPart p f).passOn = s.passOn := rfl
@[simp] theorem State.updPart_hostPts (s : State) (p : Nat) (f : Part → Part) : (s.updPart p f).hostPts = s.hostPts := rfl
@[simp] theorem State.updPart_launches (s : State) (p : Nat) (f : Part → Part) : (s.updPart p f).launches = s.launches := rfl
@[simp] theorem State.updPart_assay (s : State) (p : Nat) (f : Part → Part) : (s.updPart p f).assay = s.assay := rfl
@[simp] theorem State.updPart_segs (s : State) (p : Nat) (f : Part → Part) : (s.updPart p f).segs = s.segs := rfl
@[simp] theorem State.updPart_ctxs (s : State) (p : Nat) (f : Part → Part) : (s.updPart p f).ctxs = s.ctxs := rfl
@[simp] theorem State.updPart_parts (s : State) (p : Nat) (f : Part → Part) : (s.updPart p f).parts = (s.parts.insert p (f (s.part p))) := rfl
@[simp] theorem State.updPart_vault (s : State) (p : Nat) (f : Part → Part) : (s.updPart p f).vault = s.vault := rfl
@[simp] theorem State.updPart_accelId (s : State) (p : Nat) (f : Part → Part) : (s.updPart p f).accelId = s.accelId := rfl
@[simp] theorem State.updPart_rtimeout (s : State) (p : Nat) (f : Part → Part) : (s.updPart p f).rtimeout = s.rtimeout := rfl
@[simp] theorem State.updPart_ports (s : State) (p : Nat) (f : Part → Part) : (s.updPart p f).ports = s.ports := rfl
@[simp] theorem State.updPart_light (s : State) (p : Nat) (f : Part → Part) : (s.updPart p f).light = s.light := rfl
@[simp] theorem State.updPart_lost (s : State) (p : Nat) (f : Part → Part) : (s.updPart p f).lost = s.lost := rfl
@[simp] theorem State.updPart_incidents (s : State) (p : Nat) (f : Part → Part) : (s.updPart p f).incidents = s.incidents := rfl
@[simp] theorem State.updPart_rpairs (s : State) (p : Nat) (f : Part → Part) : (s.updPart p f).rpairs = s.rpairs := rfl
@[simp] theorem State.updPart_kept (s : State) (p : Nat) (f : Part → Part) : (s.updPart p f).kept = s.kept := rfl
@[simp] theorem State.updPart_fabOut (s : State) (p : Nat) (f : Part → Part) : (s.updPart p f).fabOut = s.fabOut := rfl
@[simp] theorem State.updPart_runs (s : State) (p : Nat) (f : Part → Part) : (s.updPart p f).runs = s.runs := rfl
@[simp] theorem State.updPart_exports (s : State) (p : Nat) (f : Part → Part) : (s.updPart p f).exports = s.exports := rfl
@[simp] theorem State.updPart_expCount (s : State) (p : Nat) (f : Part → Part) : (s.updPart p f).expCount = s.expCount := rfl
@[simp] theorem State.updPart_expSrc (s : State) (p : Nat) (f : Part → Part) : (s.updPart p f).expSrc = s.expSrc := rfl
@[simp] theorem State.updPart_hevBase (s : State) (p : Nat) (f : Part → Part) : (s.updPart p f).hevBase = s.hevBase := rfl
@[simp] theorem State.updPart_hevWr (s : State) (p : Nat) (f : Part → Part) : (s.updPart p f).hevWr = s.hevWr := rfl
@[simp] theorem State.updPart_hevRd (s : State) (p : Nat) (f : Part → Part) : (s.updPart p f).hevRd = s.hevRd := rfl
@[simp] theorem State.updPart_hevDrops (s : State) (p : Nat) (f : Part → Part) : (s.updPart p f).hevDrops = s.hevDrops := rfl
@[simp] theorem State.updPart_hevSeq (s : State) (p : Nat) (f : Part → Part) : (s.updPart p f).hevSeq = s.hevSeq := rfl
@[simp] theorem State.updPart_sites (s : State) (p : Nat) (f : Part → Part) : (s.updPart p f).sites = s.sites := rfl
@[simp] theorem State.updPart_moveCmd (s : State) (p : Nat) (f : Part → Part) : (s.updPart p f).moveCmd = s.moveCmd := rfl
@[simp] theorem State.updPart_diestat (s : State) (p : Nat) (f : Part → Part) : (s.updPart p f).diestat = s.diestat := rfl
@[simp] theorem State.updPart_fenced (s : State) (p : Nat) (f : Part → Part) : (s.updPart p f).fenced = s.fenced := rfl
@[simp] theorem State.updPart_caps (s : State) (p : Nat) (f : Part → Part) : (s.updPart p f).caps = s.caps := rfl
@[simp] theorem State.updPart_fwsvn (s : State) (p : Nat) (f : Part → Part) : (s.updPart p f).fwsvn = s.fwsvn := rfl
@[simp] theorem State.updPart_mcresets (s : State) (p : Nat) (f : Part → Part) : (s.updPart p f).mcresets = s.mcresets := rfl
@[simp] theorem State.updPart_recovery (s : State) (p : Nat) (f : Part → Part) : (s.updPart p f).recovery = s.recovery := rfl
@[simp] theorem State.updPart_phase (s : State) (p : Nat) (f : Part → Part) : (s.updPart p f).phase = s.phase := rfl
@[simp] theorem State.updPart_fuses (s : State) (p : Nat) (f : Part → Part) : (s.updPart p f).fuses = s.fuses := rfl
@[simp] theorem State.updPart_flash (s : State) (p : Nat) (f : Part → Part) : (s.updPart p f).flash = s.flash := rfl
@[simp] theorem State.updPart_mgmt (s : State) (p : Nat) (f : Part → Part) : (s.updPart p f).mgmt = s.mgmt := rfl
@[simp] theorem State.updPart_msix (s : State) (p : Nat) (f : Part → Part) : (s.updPart p f).msix = s.msix := rfl
@[simp] theorem State.updPart_hostOut (s : State) (p : Nat) (f : Part → Part) : (s.updPart p f).hostOut = s.hostOut := rfl

/-! ## State.updCtx -/

@[simp] theorem State.updCtx_agenda (s : State) (c : Nat) (f : Ctx → Ctx) : (s.updCtx c f).agenda = s.agenda := rfl
@[simp] theorem State.updCtx_evs (s : State) (c : Nat) (f : Ctx → Ctx) : (s.updCtx c f).evs = s.evs := rfl
@[simp] theorem State.updCtx_cur (s : State) (c : Nat) (f : Ctx → Ctx) : (s.updCtx c f).cur = s.cur := rfl
@[simp] theorem State.updCtx_free (s : State) (c : Nat) (f : Ctx → Ctx) : (s.updCtx c f).free = s.free := rfl
@[simp] theorem State.updCtx_nextId (s : State) (c : Nat) (f : Ctx → Ctx) : (s.updCtx c f).nextId = s.nextId := rfl
@[simp] theorem State.updCtx_now (s : State) (c : Nat) (f : Ctx → Ctx) : (s.updCtx c f).now = s.now := rfl
@[simp] theorem State.updCtx_clocks (s : State) (c : Nat) (f : Ctx → Ctx) : (s.updCtx c f).clocks = s.clocks := rfl
@[simp] theorem State.updCtx_mem (s : State) (c : Nat) (f : Ctx → Ctx) : (s.updCtx c f).mem = s.mem := rfl
@[simp] theorem State.updCtx_desc (s : State) (c : Nat) (f : Ctx → Ctx) : (s.updCtx c f).desc = s.desc := rfl
@[simp] theorem State.updCtx_poison (s : State) (c : Nat) (f : Ctx → Ctx) : (s.updCtx c f).poison = s.poison := rfl
@[simp] theorem State.updCtx_tags (s : State) (c : Nat) (f : Ctx → Ctx) : (s.updCtx c f).tags = s.tags := rfl
@[simp] theorem State.updCtx_region (s : State) (c : Nat) (f : Ctx → Ctx) : (s.updCtx c f).region = s.region := rfl
@[simp] theorem State.updCtx_gen (s : State) (c : Nat) (f : Ctx → Ctx) : (s.updCtx c f).gen = s.gen := rfl
@[simp] theorem State.updCtx_keyid (s : State) (c : Nat) (f : Ctx → Ctx) : (s.updCtx c f).keyid = s.keyid := rfl
@[simp] theorem State.updCtx_busy (s : State) (c : Nat) (f : Ctx → Ctx) : (s.updCtx c f).busy = s.busy := rfl
@[simp] theorem State.updCtx_move (s : State) (c : Nat) (f : Ctx → Ctx) : (s.updCtx c f).move = s.move := rfl
@[simp] theorem State.updCtx_queued (s : State) (c : Nat) (f : Ctx → Ctx) : (s.updCtx c f).queued = s.queued := rfl
@[simp] theorem State.updCtx_forward (s : State) (c : Nat) (f : Ctx → Ctx) : (s.updCtx c f).forward = s.forward := rfl
@[simp] theorem State.updCtx_tlb (s : State) (c : Nat) (f : Ctx → Ctx) : (s.updCtx c f).tlb = s.tlb := rfl
@[simp] theorem State.updCtx_clusters (s : State) (c : Nat) (f : Ctx → Ctx) : (s.updCtx c f).clusters = s.clusters := rfl
@[simp] theorem State.updCtx_groups (s : State) (c : Nat) (f : Ctx → Ctx) : (s.updCtx c f).groups = s.groups := rfl
@[simp] theorem State.updCtx_gangs (s : State) (c : Nat) (f : Ctx → Ctx) : (s.updCtx c f).gangs = s.gangs := rfl
@[simp] theorem State.updCtx_handles (s : State) (c : Nat) (f : Ctx → Ctx) : (s.updCtx c f).handles = s.handles := rfl
@[simp] theorem State.updCtx_frags (s : State) (c : Nat) (f : Ctx → Ctx) : (s.updCtx c f).frags = s.frags := rfl
@[simp] theorem State.updCtx_lastVer (s : State) (c : Nat) (f : Ctx → Ctx) : (s.updCtx c f).lastVer = s.lastVer := rfl
@[simp] theorem State.updCtx_packets (s : State) (c : Nat) (f : Ctx → Ctx) : (s.updCtx c f).packets = s.packets := rfl
@[simp] theorem State.updCtx_carry (s : State) (c : Nat) (f : Ctx → Ctx) : (s.updCtx c f).carry = s.carry := rfl
@[simp] theorem State.updCtx_deadWin (s : State) (c : Nat) (f : Ctx → Ctx) : (s.updCtx c f).deadWin = s.deadWin := rfl
@[simp] theorem State.updCtx_loads (s : State) (c : Nat) (f : Ctx → Ctx) : (s.updCtx c f).loads = s.loads := rfl
@[simp] theorem State.updCtx_queue (s : State) (c : Nat) (f : Ctx → Ctx) : (s.updCtx c f).queue = s.queue := rfl
@[simp] theorem State.updCtx_reserves (s : State) (c : Nat) (f : Ctx → Ctx) : (s.updCtx c f).reserves = s.reserves := rfl
@[simp] theorem State.updCtx_passes (s : State) (c : Nat) (f : Ctx → Ctx) : (s.updCtx c f).passes = s.passes := rfl
@[simp] theorem State.updCtx_passOn (s : State) (c : Nat) (f : Ctx → Ctx) : (s.updCtx c f).passOn = s.passOn := rfl
@[simp] theorem State.updCtx_hostPts (s : State) (c : Nat) (f : Ctx → Ctx) : (s.updCtx c f).hostPts = s.hostPts := rfl
@[simp] theorem State.updCtx_launches (s : State) (c : Nat) (f : Ctx → Ctx) : (s.updCtx c f).launches = s.launches := rfl
@[simp] theorem State.updCtx_assay (s : State) (c : Nat) (f : Ctx → Ctx) : (s.updCtx c f).assay = s.assay := rfl
@[simp] theorem State.updCtx_segs (s : State) (c : Nat) (f : Ctx → Ctx) : (s.updCtx c f).segs = s.segs := rfl
@[simp] theorem State.updCtx_ctxs (s : State) (c : Nat) (f : Ctx → Ctx) : (s.updCtx c f).ctxs = (s.ctxs.insert c (f (s.context c))) := rfl
@[simp] theorem State.updCtx_parts (s : State) (c : Nat) (f : Ctx → Ctx) : (s.updCtx c f).parts = s.parts := rfl
@[simp] theorem State.updCtx_vault (s : State) (c : Nat) (f : Ctx → Ctx) : (s.updCtx c f).vault = s.vault := rfl
@[simp] theorem State.updCtx_accelId (s : State) (c : Nat) (f : Ctx → Ctx) : (s.updCtx c f).accelId = s.accelId := rfl
@[simp] theorem State.updCtx_rtimeout (s : State) (c : Nat) (f : Ctx → Ctx) : (s.updCtx c f).rtimeout = s.rtimeout := rfl
@[simp] theorem State.updCtx_ports (s : State) (c : Nat) (f : Ctx → Ctx) : (s.updCtx c f).ports = s.ports := rfl
@[simp] theorem State.updCtx_light (s : State) (c : Nat) (f : Ctx → Ctx) : (s.updCtx c f).light = s.light := rfl
@[simp] theorem State.updCtx_lost (s : State) (c : Nat) (f : Ctx → Ctx) : (s.updCtx c f).lost = s.lost := rfl
@[simp] theorem State.updCtx_incidents (s : State) (c : Nat) (f : Ctx → Ctx) : (s.updCtx c f).incidents = s.incidents := rfl
@[simp] theorem State.updCtx_rpairs (s : State) (c : Nat) (f : Ctx → Ctx) : (s.updCtx c f).rpairs = s.rpairs := rfl
@[simp] theorem State.updCtx_kept (s : State) (c : Nat) (f : Ctx → Ctx) : (s.updCtx c f).kept = s.kept := rfl
@[simp] theorem State.updCtx_fabOut (s : State) (c : Nat) (f : Ctx → Ctx) : (s.updCtx c f).fabOut = s.fabOut := rfl
@[simp] theorem State.updCtx_runs (s : State) (c : Nat) (f : Ctx → Ctx) : (s.updCtx c f).runs = s.runs := rfl
@[simp] theorem State.updCtx_exports (s : State) (c : Nat) (f : Ctx → Ctx) : (s.updCtx c f).exports = s.exports := rfl
@[simp] theorem State.updCtx_expCount (s : State) (c : Nat) (f : Ctx → Ctx) : (s.updCtx c f).expCount = s.expCount := rfl
@[simp] theorem State.updCtx_expSrc (s : State) (c : Nat) (f : Ctx → Ctx) : (s.updCtx c f).expSrc = s.expSrc := rfl
@[simp] theorem State.updCtx_hevBase (s : State) (c : Nat) (f : Ctx → Ctx) : (s.updCtx c f).hevBase = s.hevBase := rfl
@[simp] theorem State.updCtx_hevWr (s : State) (c : Nat) (f : Ctx → Ctx) : (s.updCtx c f).hevWr = s.hevWr := rfl
@[simp] theorem State.updCtx_hevRd (s : State) (c : Nat) (f : Ctx → Ctx) : (s.updCtx c f).hevRd = s.hevRd := rfl
@[simp] theorem State.updCtx_hevDrops (s : State) (c : Nat) (f : Ctx → Ctx) : (s.updCtx c f).hevDrops = s.hevDrops := rfl
@[simp] theorem State.updCtx_hevSeq (s : State) (c : Nat) (f : Ctx → Ctx) : (s.updCtx c f).hevSeq = s.hevSeq := rfl
@[simp] theorem State.updCtx_sites (s : State) (c : Nat) (f : Ctx → Ctx) : (s.updCtx c f).sites = s.sites := rfl
@[simp] theorem State.updCtx_moveCmd (s : State) (c : Nat) (f : Ctx → Ctx) : (s.updCtx c f).moveCmd = s.moveCmd := rfl
@[simp] theorem State.updCtx_diestat (s : State) (c : Nat) (f : Ctx → Ctx) : (s.updCtx c f).diestat = s.diestat := rfl
@[simp] theorem State.updCtx_fenced (s : State) (c : Nat) (f : Ctx → Ctx) : (s.updCtx c f).fenced = s.fenced := rfl
@[simp] theorem State.updCtx_caps (s : State) (c : Nat) (f : Ctx → Ctx) : (s.updCtx c f).caps = s.caps := rfl
@[simp] theorem State.updCtx_fwsvn (s : State) (c : Nat) (f : Ctx → Ctx) : (s.updCtx c f).fwsvn = s.fwsvn := rfl
@[simp] theorem State.updCtx_mcresets (s : State) (c : Nat) (f : Ctx → Ctx) : (s.updCtx c f).mcresets = s.mcresets := rfl
@[simp] theorem State.updCtx_recovery (s : State) (c : Nat) (f : Ctx → Ctx) : (s.updCtx c f).recovery = s.recovery := rfl
@[simp] theorem State.updCtx_phase (s : State) (c : Nat) (f : Ctx → Ctx) : (s.updCtx c f).phase = s.phase := rfl
@[simp] theorem State.updCtx_fuses (s : State) (c : Nat) (f : Ctx → Ctx) : (s.updCtx c f).fuses = s.fuses := rfl
@[simp] theorem State.updCtx_flash (s : State) (c : Nat) (f : Ctx → Ctx) : (s.updCtx c f).flash = s.flash := rfl
@[simp] theorem State.updCtx_mgmt (s : State) (c : Nat) (f : Ctx → Ctx) : (s.updCtx c f).mgmt = s.mgmt := rfl
@[simp] theorem State.updCtx_msix (s : State) (c : Nat) (f : Ctx → Ctx) : (s.updCtx c f).msix = s.msix := rfl
@[simp] theorem State.updCtx_hostOut (s : State) (c : Nat) (f : Ctx → Ctx) : (s.updCtx c f).hostOut = s.hostOut := rfl

/-! ## State.updSite -/

@[simp] theorem State.updSite_agenda (s : State) (n : Nat) (f : Site → Site) : (s.updSite n f).agenda = s.agenda := rfl
@[simp] theorem State.updSite_evs (s : State) (n : Nat) (f : Site → Site) : (s.updSite n f).evs = s.evs := rfl
@[simp] theorem State.updSite_cur (s : State) (n : Nat) (f : Site → Site) : (s.updSite n f).cur = s.cur := rfl
@[simp] theorem State.updSite_free (s : State) (n : Nat) (f : Site → Site) : (s.updSite n f).free = s.free := rfl
@[simp] theorem State.updSite_nextId (s : State) (n : Nat) (f : Site → Site) : (s.updSite n f).nextId = s.nextId := rfl
@[simp] theorem State.updSite_now (s : State) (n : Nat) (f : Site → Site) : (s.updSite n f).now = s.now := rfl
@[simp] theorem State.updSite_clocks (s : State) (n : Nat) (f : Site → Site) : (s.updSite n f).clocks = s.clocks := rfl
@[simp] theorem State.updSite_mem (s : State) (n : Nat) (f : Site → Site) : (s.updSite n f).mem = s.mem := rfl
@[simp] theorem State.updSite_desc (s : State) (n : Nat) (f : Site → Site) : (s.updSite n f).desc = s.desc := rfl
@[simp] theorem State.updSite_poison (s : State) (n : Nat) (f : Site → Site) : (s.updSite n f).poison = s.poison := rfl
@[simp] theorem State.updSite_tags (s : State) (n : Nat) (f : Site → Site) : (s.updSite n f).tags = s.tags := rfl
@[simp] theorem State.updSite_region (s : State) (n : Nat) (f : Site → Site) : (s.updSite n f).region = s.region := rfl
@[simp] theorem State.updSite_gen (s : State) (n : Nat) (f : Site → Site) : (s.updSite n f).gen = s.gen := rfl
@[simp] theorem State.updSite_keyid (s : State) (n : Nat) (f : Site → Site) : (s.updSite n f).keyid = s.keyid := rfl
@[simp] theorem State.updSite_busy (s : State) (n : Nat) (f : Site → Site) : (s.updSite n f).busy = s.busy := rfl
@[simp] theorem State.updSite_move (s : State) (n : Nat) (f : Site → Site) : (s.updSite n f).move = s.move := rfl
@[simp] theorem State.updSite_queued (s : State) (n : Nat) (f : Site → Site) : (s.updSite n f).queued = s.queued := rfl
@[simp] theorem State.updSite_forward (s : State) (n : Nat) (f : Site → Site) : (s.updSite n f).forward = s.forward := rfl
@[simp] theorem State.updSite_tlb (s : State) (n : Nat) (f : Site → Site) : (s.updSite n f).tlb = s.tlb := rfl
@[simp] theorem State.updSite_clusters (s : State) (n : Nat) (f : Site → Site) : (s.updSite n f).clusters = s.clusters := rfl
@[simp] theorem State.updSite_groups (s : State) (n : Nat) (f : Site → Site) : (s.updSite n f).groups = s.groups := rfl
@[simp] theorem State.updSite_gangs (s : State) (n : Nat) (f : Site → Site) : (s.updSite n f).gangs = s.gangs := rfl
@[simp] theorem State.updSite_handles (s : State) (n : Nat) (f : Site → Site) : (s.updSite n f).handles = s.handles := rfl
@[simp] theorem State.updSite_frags (s : State) (n : Nat) (f : Site → Site) : (s.updSite n f).frags = s.frags := rfl
@[simp] theorem State.updSite_lastVer (s : State) (n : Nat) (f : Site → Site) : (s.updSite n f).lastVer = s.lastVer := rfl
@[simp] theorem State.updSite_packets (s : State) (n : Nat) (f : Site → Site) : (s.updSite n f).packets = s.packets := rfl
@[simp] theorem State.updSite_carry (s : State) (n : Nat) (f : Site → Site) : (s.updSite n f).carry = s.carry := rfl
@[simp] theorem State.updSite_deadWin (s : State) (n : Nat) (f : Site → Site) : (s.updSite n f).deadWin = s.deadWin := rfl
@[simp] theorem State.updSite_loads (s : State) (n : Nat) (f : Site → Site) : (s.updSite n f).loads = s.loads := rfl
@[simp] theorem State.updSite_queue (s : State) (n : Nat) (f : Site → Site) : (s.updSite n f).queue = s.queue := rfl
@[simp] theorem State.updSite_reserves (s : State) (n : Nat) (f : Site → Site) : (s.updSite n f).reserves = s.reserves := rfl
@[simp] theorem State.updSite_passes (s : State) (n : Nat) (f : Site → Site) : (s.updSite n f).passes = s.passes := rfl
@[simp] theorem State.updSite_passOn (s : State) (n : Nat) (f : Site → Site) : (s.updSite n f).passOn = s.passOn := rfl
@[simp] theorem State.updSite_hostPts (s : State) (n : Nat) (f : Site → Site) : (s.updSite n f).hostPts = s.hostPts := rfl
@[simp] theorem State.updSite_launches (s : State) (n : Nat) (f : Site → Site) : (s.updSite n f).launches = s.launches := rfl
@[simp] theorem State.updSite_assay (s : State) (n : Nat) (f : Site → Site) : (s.updSite n f).assay = s.assay := rfl
@[simp] theorem State.updSite_segs (s : State) (n : Nat) (f : Site → Site) : (s.updSite n f).segs = s.segs := rfl
@[simp] theorem State.updSite_ctxs (s : State) (n : Nat) (f : Site → Site) : (s.updSite n f).ctxs = s.ctxs := rfl
@[simp] theorem State.updSite_parts (s : State) (n : Nat) (f : Site → Site) : (s.updSite n f).parts = s.parts := rfl
@[simp] theorem State.updSite_vault (s : State) (n : Nat) (f : Site → Site) : (s.updSite n f).vault = s.vault := rfl
@[simp] theorem State.updSite_accelId (s : State) (n : Nat) (f : Site → Site) : (s.updSite n f).accelId = s.accelId := rfl
@[simp] theorem State.updSite_rtimeout (s : State) (n : Nat) (f : Site → Site) : (s.updSite n f).rtimeout = s.rtimeout := rfl
@[simp] theorem State.updSite_ports (s : State) (n : Nat) (f : Site → Site) : (s.updSite n f).ports = s.ports := rfl
@[simp] theorem State.updSite_light (s : State) (n : Nat) (f : Site → Site) : (s.updSite n f).light = s.light := rfl
@[simp] theorem State.updSite_lost (s : State) (n : Nat) (f : Site → Site) : (s.updSite n f).lost = s.lost := rfl
@[simp] theorem State.updSite_incidents (s : State) (n : Nat) (f : Site → Site) : (s.updSite n f).incidents = s.incidents := rfl
@[simp] theorem State.updSite_rpairs (s : State) (n : Nat) (f : Site → Site) : (s.updSite n f).rpairs = s.rpairs := rfl
@[simp] theorem State.updSite_kept (s : State) (n : Nat) (f : Site → Site) : (s.updSite n f).kept = s.kept := rfl
@[simp] theorem State.updSite_fabOut (s : State) (n : Nat) (f : Site → Site) : (s.updSite n f).fabOut = s.fabOut := rfl
@[simp] theorem State.updSite_runs (s : State) (n : Nat) (f : Site → Site) : (s.updSite n f).runs = s.runs := rfl
@[simp] theorem State.updSite_exports (s : State) (n : Nat) (f : Site → Site) : (s.updSite n f).exports = s.exports := rfl
@[simp] theorem State.updSite_expCount (s : State) (n : Nat) (f : Site → Site) : (s.updSite n f).expCount = s.expCount := rfl
@[simp] theorem State.updSite_expSrc (s : State) (n : Nat) (f : Site → Site) : (s.updSite n f).expSrc = s.expSrc := rfl
@[simp] theorem State.updSite_hevBase (s : State) (n : Nat) (f : Site → Site) : (s.updSite n f).hevBase = s.hevBase := rfl
@[simp] theorem State.updSite_hevWr (s : State) (n : Nat) (f : Site → Site) : (s.updSite n f).hevWr = s.hevWr := rfl
@[simp] theorem State.updSite_hevRd (s : State) (n : Nat) (f : Site → Site) : (s.updSite n f).hevRd = s.hevRd := rfl
@[simp] theorem State.updSite_hevDrops (s : State) (n : Nat) (f : Site → Site) : (s.updSite n f).hevDrops = s.hevDrops := rfl
@[simp] theorem State.updSite_hevSeq (s : State) (n : Nat) (f : Site → Site) : (s.updSite n f).hevSeq = s.hevSeq := rfl
@[simp] theorem State.updSite_sites (s : State) (n : Nat) (f : Site → Site) : (s.updSite n f).sites = (s.sites.insert n (f (s.sites.getD {} n))) := rfl
@[simp] theorem State.updSite_moveCmd (s : State) (n : Nat) (f : Site → Site) : (s.updSite n f).moveCmd = s.moveCmd := rfl
@[simp] theorem State.updSite_diestat (s : State) (n : Nat) (f : Site → Site) : (s.updSite n f).diestat = s.diestat := rfl
@[simp] theorem State.updSite_fenced (s : State) (n : Nat) (f : Site → Site) : (s.updSite n f).fenced = s.fenced := rfl
@[simp] theorem State.updSite_caps (s : State) (n : Nat) (f : Site → Site) : (s.updSite n f).caps = s.caps := rfl
@[simp] theorem State.updSite_fwsvn (s : State) (n : Nat) (f : Site → Site) : (s.updSite n f).fwsvn = s.fwsvn := rfl
@[simp] theorem State.updSite_mcresets (s : State) (n : Nat) (f : Site → Site) : (s.updSite n f).mcresets = s.mcresets := rfl
@[simp] theorem State.updSite_recovery (s : State) (n : Nat) (f : Site → Site) : (s.updSite n f).recovery = s.recovery := rfl
@[simp] theorem State.updSite_phase (s : State) (n : Nat) (f : Site → Site) : (s.updSite n f).phase = s.phase := rfl
@[simp] theorem State.updSite_fuses (s : State) (n : Nat) (f : Site → Site) : (s.updSite n f).fuses = s.fuses := rfl
@[simp] theorem State.updSite_flash (s : State) (n : Nat) (f : Site → Site) : (s.updSite n f).flash = s.flash := rfl
@[simp] theorem State.updSite_mgmt (s : State) (n : Nat) (f : Site → Site) : (s.updSite n f).mgmt = s.mgmt := rfl
@[simp] theorem State.updSite_msix (s : State) (n : Nat) (f : Site → Site) : (s.updSite n f).msix = s.msix := rfl
@[simp] theorem State.updSite_hostOut (s : State) (n : Nat) (f : Site → Site) : (s.updSite n f).hostOut = s.hostOut := rfl

/-! ## State.updFrag -/

@[simp] theorem State.updFrag_agenda (s : State) (i : Nat) (f : Frag → Frag) : (s.updFrag i f).agenda = s.agenda := rfl
@[simp] theorem State.updFrag_evs (s : State) (i : Nat) (f : Frag → Frag) : (s.updFrag i f).evs = s.evs := rfl
@[simp] theorem State.updFrag_cur (s : State) (i : Nat) (f : Frag → Frag) : (s.updFrag i f).cur = s.cur := rfl
@[simp] theorem State.updFrag_free (s : State) (i : Nat) (f : Frag → Frag) : (s.updFrag i f).free = s.free := rfl
@[simp] theorem State.updFrag_nextId (s : State) (i : Nat) (f : Frag → Frag) : (s.updFrag i f).nextId = s.nextId := rfl
@[simp] theorem State.updFrag_now (s : State) (i : Nat) (f : Frag → Frag) : (s.updFrag i f).now = s.now := rfl
@[simp] theorem State.updFrag_clocks (s : State) (i : Nat) (f : Frag → Frag) : (s.updFrag i f).clocks = s.clocks := rfl
@[simp] theorem State.updFrag_mem (s : State) (i : Nat) (f : Frag → Frag) : (s.updFrag i f).mem = s.mem := rfl
@[simp] theorem State.updFrag_desc (s : State) (i : Nat) (f : Frag → Frag) : (s.updFrag i f).desc = s.desc := rfl
@[simp] theorem State.updFrag_poison (s : State) (i : Nat) (f : Frag → Frag) : (s.updFrag i f).poison = s.poison := rfl
@[simp] theorem State.updFrag_tags (s : State) (i : Nat) (f : Frag → Frag) : (s.updFrag i f).tags = s.tags := rfl
@[simp] theorem State.updFrag_region (s : State) (i : Nat) (f : Frag → Frag) : (s.updFrag i f).region = s.region := rfl
@[simp] theorem State.updFrag_gen (s : State) (i : Nat) (f : Frag → Frag) : (s.updFrag i f).gen = s.gen := rfl
@[simp] theorem State.updFrag_keyid (s : State) (i : Nat) (f : Frag → Frag) : (s.updFrag i f).keyid = s.keyid := rfl
@[simp] theorem State.updFrag_busy (s : State) (i : Nat) (f : Frag → Frag) : (s.updFrag i f).busy = s.busy := rfl
@[simp] theorem State.updFrag_move (s : State) (i : Nat) (f : Frag → Frag) : (s.updFrag i f).move = s.move := rfl
@[simp] theorem State.updFrag_queued (s : State) (i : Nat) (f : Frag → Frag) : (s.updFrag i f).queued = s.queued := rfl
@[simp] theorem State.updFrag_forward (s : State) (i : Nat) (f : Frag → Frag) : (s.updFrag i f).forward = s.forward := rfl
@[simp] theorem State.updFrag_tlb (s : State) (i : Nat) (f : Frag → Frag) : (s.updFrag i f).tlb = s.tlb := rfl
@[simp] theorem State.updFrag_clusters (s : State) (i : Nat) (f : Frag → Frag) : (s.updFrag i f).clusters = s.clusters := rfl
@[simp] theorem State.updFrag_groups (s : State) (i : Nat) (f : Frag → Frag) : (s.updFrag i f).groups = s.groups := rfl
@[simp] theorem State.updFrag_gangs (s : State) (i : Nat) (f : Frag → Frag) : (s.updFrag i f).gangs = s.gangs := rfl
@[simp] theorem State.updFrag_handles (s : State) (i : Nat) (f : Frag → Frag) : (s.updFrag i f).handles = s.handles := rfl
@[simp] theorem State.updFrag_frags (s : State) (i : Nat) (f : Frag → Frag) : (s.updFrag i f).frags = (updFirst (fun x => x.id == i) f s.frags) := rfl
@[simp] theorem State.updFrag_lastVer (s : State) (i : Nat) (f : Frag → Frag) : (s.updFrag i f).lastVer = s.lastVer := rfl
@[simp] theorem State.updFrag_packets (s : State) (i : Nat) (f : Frag → Frag) : (s.updFrag i f).packets = s.packets := rfl
@[simp] theorem State.updFrag_carry (s : State) (i : Nat) (f : Frag → Frag) : (s.updFrag i f).carry = s.carry := rfl
@[simp] theorem State.updFrag_deadWin (s : State) (i : Nat) (f : Frag → Frag) : (s.updFrag i f).deadWin = s.deadWin := rfl
@[simp] theorem State.updFrag_loads (s : State) (i : Nat) (f : Frag → Frag) : (s.updFrag i f).loads = s.loads := rfl
@[simp] theorem State.updFrag_queue (s : State) (i : Nat) (f : Frag → Frag) : (s.updFrag i f).queue = s.queue := rfl
@[simp] theorem State.updFrag_reserves (s : State) (i : Nat) (f : Frag → Frag) : (s.updFrag i f).reserves = s.reserves := rfl
@[simp] theorem State.updFrag_passes (s : State) (i : Nat) (f : Frag → Frag) : (s.updFrag i f).passes = s.passes := rfl
@[simp] theorem State.updFrag_passOn (s : State) (i : Nat) (f : Frag → Frag) : (s.updFrag i f).passOn = s.passOn := rfl
@[simp] theorem State.updFrag_hostPts (s : State) (i : Nat) (f : Frag → Frag) : (s.updFrag i f).hostPts = s.hostPts := rfl
@[simp] theorem State.updFrag_launches (s : State) (i : Nat) (f : Frag → Frag) : (s.updFrag i f).launches = s.launches := rfl
@[simp] theorem State.updFrag_assay (s : State) (i : Nat) (f : Frag → Frag) : (s.updFrag i f).assay = s.assay := rfl
@[simp] theorem State.updFrag_segs (s : State) (i : Nat) (f : Frag → Frag) : (s.updFrag i f).segs = s.segs := rfl
@[simp] theorem State.updFrag_ctxs (s : State) (i : Nat) (f : Frag → Frag) : (s.updFrag i f).ctxs = s.ctxs := rfl
@[simp] theorem State.updFrag_parts (s : State) (i : Nat) (f : Frag → Frag) : (s.updFrag i f).parts = s.parts := rfl
@[simp] theorem State.updFrag_vault (s : State) (i : Nat) (f : Frag → Frag) : (s.updFrag i f).vault = s.vault := rfl
@[simp] theorem State.updFrag_accelId (s : State) (i : Nat) (f : Frag → Frag) : (s.updFrag i f).accelId = s.accelId := rfl
@[simp] theorem State.updFrag_rtimeout (s : State) (i : Nat) (f : Frag → Frag) : (s.updFrag i f).rtimeout = s.rtimeout := rfl
@[simp] theorem State.updFrag_ports (s : State) (i : Nat) (f : Frag → Frag) : (s.updFrag i f).ports = s.ports := rfl
@[simp] theorem State.updFrag_light (s : State) (i : Nat) (f : Frag → Frag) : (s.updFrag i f).light = s.light := rfl
@[simp] theorem State.updFrag_lost (s : State) (i : Nat) (f : Frag → Frag) : (s.updFrag i f).lost = s.lost := rfl
@[simp] theorem State.updFrag_incidents (s : State) (i : Nat) (f : Frag → Frag) : (s.updFrag i f).incidents = s.incidents := rfl
@[simp] theorem State.updFrag_rpairs (s : State) (i : Nat) (f : Frag → Frag) : (s.updFrag i f).rpairs = s.rpairs := rfl
@[simp] theorem State.updFrag_kept (s : State) (i : Nat) (f : Frag → Frag) : (s.updFrag i f).kept = s.kept := rfl
@[simp] theorem State.updFrag_fabOut (s : State) (i : Nat) (f : Frag → Frag) : (s.updFrag i f).fabOut = s.fabOut := rfl
@[simp] theorem State.updFrag_runs (s : State) (i : Nat) (f : Frag → Frag) : (s.updFrag i f).runs = s.runs := rfl
@[simp] theorem State.updFrag_exports (s : State) (i : Nat) (f : Frag → Frag) : (s.updFrag i f).exports = s.exports := rfl
@[simp] theorem State.updFrag_expCount (s : State) (i : Nat) (f : Frag → Frag) : (s.updFrag i f).expCount = s.expCount := rfl
@[simp] theorem State.updFrag_expSrc (s : State) (i : Nat) (f : Frag → Frag) : (s.updFrag i f).expSrc = s.expSrc := rfl
@[simp] theorem State.updFrag_hevBase (s : State) (i : Nat) (f : Frag → Frag) : (s.updFrag i f).hevBase = s.hevBase := rfl
@[simp] theorem State.updFrag_hevWr (s : State) (i : Nat) (f : Frag → Frag) : (s.updFrag i f).hevWr = s.hevWr := rfl
@[simp] theorem State.updFrag_hevRd (s : State) (i : Nat) (f : Frag → Frag) : (s.updFrag i f).hevRd = s.hevRd := rfl
@[simp] theorem State.updFrag_hevDrops (s : State) (i : Nat) (f : Frag → Frag) : (s.updFrag i f).hevDrops = s.hevDrops := rfl
@[simp] theorem State.updFrag_hevSeq (s : State) (i : Nat) (f : Frag → Frag) : (s.updFrag i f).hevSeq = s.hevSeq := rfl
@[simp] theorem State.updFrag_sites (s : State) (i : Nat) (f : Frag → Frag) : (s.updFrag i f).sites = s.sites := rfl
@[simp] theorem State.updFrag_moveCmd (s : State) (i : Nat) (f : Frag → Frag) : (s.updFrag i f).moveCmd = s.moveCmd := rfl
@[simp] theorem State.updFrag_diestat (s : State) (i : Nat) (f : Frag → Frag) : (s.updFrag i f).diestat = s.diestat := rfl
@[simp] theorem State.updFrag_fenced (s : State) (i : Nat) (f : Frag → Frag) : (s.updFrag i f).fenced = s.fenced := rfl
@[simp] theorem State.updFrag_caps (s : State) (i : Nat) (f : Frag → Frag) : (s.updFrag i f).caps = s.caps := rfl
@[simp] theorem State.updFrag_fwsvn (s : State) (i : Nat) (f : Frag → Frag) : (s.updFrag i f).fwsvn = s.fwsvn := rfl
@[simp] theorem State.updFrag_mcresets (s : State) (i : Nat) (f : Frag → Frag) : (s.updFrag i f).mcresets = s.mcresets := rfl
@[simp] theorem State.updFrag_recovery (s : State) (i : Nat) (f : Frag → Frag) : (s.updFrag i f).recovery = s.recovery := rfl
@[simp] theorem State.updFrag_phase (s : State) (i : Nat) (f : Frag → Frag) : (s.updFrag i f).phase = s.phase := rfl
@[simp] theorem State.updFrag_fuses (s : State) (i : Nat) (f : Frag → Frag) : (s.updFrag i f).fuses = s.fuses := rfl
@[simp] theorem State.updFrag_flash (s : State) (i : Nat) (f : Frag → Frag) : (s.updFrag i f).flash = s.flash := rfl
@[simp] theorem State.updFrag_mgmt (s : State) (i : Nat) (f : Frag → Frag) : (s.updFrag i f).mgmt = s.mgmt := rfl
@[simp] theorem State.updFrag_msix (s : State) (i : Nat) (f : Frag → Frag) : (s.updFrag i f).msix = s.msix := rfl
@[simp] theorem State.updFrag_hostOut (s : State) (i : Nat) (f : Frag → Frag) : (s.updFrag i f).hostOut = s.hostOut := rfl

/-! ## State.updLaunch -/

@[simp] theorem State.updLaunch_agenda (s : State) (i : Nat) (f : Launch → Launch) : (s.updLaunch i f).agenda = s.agenda := rfl
@[simp] theorem State.updLaunch_evs (s : State) (i : Nat) (f : Launch → Launch) : (s.updLaunch i f).evs = s.evs := rfl
@[simp] theorem State.updLaunch_cur (s : State) (i : Nat) (f : Launch → Launch) : (s.updLaunch i f).cur = s.cur := rfl
@[simp] theorem State.updLaunch_free (s : State) (i : Nat) (f : Launch → Launch) : (s.updLaunch i f).free = s.free := rfl
@[simp] theorem State.updLaunch_nextId (s : State) (i : Nat) (f : Launch → Launch) : (s.updLaunch i f).nextId = s.nextId := rfl
@[simp] theorem State.updLaunch_now (s : State) (i : Nat) (f : Launch → Launch) : (s.updLaunch i f).now = s.now := rfl
@[simp] theorem State.updLaunch_clocks (s : State) (i : Nat) (f : Launch → Launch) : (s.updLaunch i f).clocks = s.clocks := rfl
@[simp] theorem State.updLaunch_mem (s : State) (i : Nat) (f : Launch → Launch) : (s.updLaunch i f).mem = s.mem := rfl
@[simp] theorem State.updLaunch_desc (s : State) (i : Nat) (f : Launch → Launch) : (s.updLaunch i f).desc = s.desc := rfl
@[simp] theorem State.updLaunch_poison (s : State) (i : Nat) (f : Launch → Launch) : (s.updLaunch i f).poison = s.poison := rfl
@[simp] theorem State.updLaunch_tags (s : State) (i : Nat) (f : Launch → Launch) : (s.updLaunch i f).tags = s.tags := rfl
@[simp] theorem State.updLaunch_region (s : State) (i : Nat) (f : Launch → Launch) : (s.updLaunch i f).region = s.region := rfl
@[simp] theorem State.updLaunch_gen (s : State) (i : Nat) (f : Launch → Launch) : (s.updLaunch i f).gen = s.gen := rfl
@[simp] theorem State.updLaunch_keyid (s : State) (i : Nat) (f : Launch → Launch) : (s.updLaunch i f).keyid = s.keyid := rfl
@[simp] theorem State.updLaunch_busy (s : State) (i : Nat) (f : Launch → Launch) : (s.updLaunch i f).busy = s.busy := rfl
@[simp] theorem State.updLaunch_move (s : State) (i : Nat) (f : Launch → Launch) : (s.updLaunch i f).move = s.move := rfl
@[simp] theorem State.updLaunch_queued (s : State) (i : Nat) (f : Launch → Launch) : (s.updLaunch i f).queued = s.queued := rfl
@[simp] theorem State.updLaunch_forward (s : State) (i : Nat) (f : Launch → Launch) : (s.updLaunch i f).forward = s.forward := rfl
@[simp] theorem State.updLaunch_tlb (s : State) (i : Nat) (f : Launch → Launch) : (s.updLaunch i f).tlb = s.tlb := rfl
@[simp] theorem State.updLaunch_clusters (s : State) (i : Nat) (f : Launch → Launch) : (s.updLaunch i f).clusters = s.clusters := rfl
@[simp] theorem State.updLaunch_groups (s : State) (i : Nat) (f : Launch → Launch) : (s.updLaunch i f).groups = s.groups := rfl
@[simp] theorem State.updLaunch_gangs (s : State) (i : Nat) (f : Launch → Launch) : (s.updLaunch i f).gangs = s.gangs := rfl
@[simp] theorem State.updLaunch_handles (s : State) (i : Nat) (f : Launch → Launch) : (s.updLaunch i f).handles = s.handles := rfl
@[simp] theorem State.updLaunch_frags (s : State) (i : Nat) (f : Launch → Launch) : (s.updLaunch i f).frags = s.frags := rfl
@[simp] theorem State.updLaunch_lastVer (s : State) (i : Nat) (f : Launch → Launch) : (s.updLaunch i f).lastVer = s.lastVer := rfl
@[simp] theorem State.updLaunch_packets (s : State) (i : Nat) (f : Launch → Launch) : (s.updLaunch i f).packets = s.packets := rfl
@[simp] theorem State.updLaunch_carry (s : State) (i : Nat) (f : Launch → Launch) : (s.updLaunch i f).carry = s.carry := rfl
@[simp] theorem State.updLaunch_deadWin (s : State) (i : Nat) (f : Launch → Launch) : (s.updLaunch i f).deadWin = s.deadWin := rfl
@[simp] theorem State.updLaunch_loads (s : State) (i : Nat) (f : Launch → Launch) : (s.updLaunch i f).loads = s.loads := rfl
@[simp] theorem State.updLaunch_queue (s : State) (i : Nat) (f : Launch → Launch) : (s.updLaunch i f).queue = s.queue := rfl
@[simp] theorem State.updLaunch_reserves (s : State) (i : Nat) (f : Launch → Launch) : (s.updLaunch i f).reserves = s.reserves := rfl
@[simp] theorem State.updLaunch_passes (s : State) (i : Nat) (f : Launch → Launch) : (s.updLaunch i f).passes = s.passes := rfl
@[simp] theorem State.updLaunch_passOn (s : State) (i : Nat) (f : Launch → Launch) : (s.updLaunch i f).passOn = s.passOn := rfl
@[simp] theorem State.updLaunch_hostPts (s : State) (i : Nat) (f : Launch → Launch) : (s.updLaunch i f).hostPts = s.hostPts := rfl
@[simp] theorem State.updLaunch_launches (s : State) (i : Nat) (f : Launch → Launch) : (s.updLaunch i f).launches = (updFirst (fun x => x.id == i) f s.launches) := rfl
@[simp] theorem State.updLaunch_assay (s : State) (i : Nat) (f : Launch → Launch) : (s.updLaunch i f).assay = s.assay := rfl
@[simp] theorem State.updLaunch_segs (s : State) (i : Nat) (f : Launch → Launch) : (s.updLaunch i f).segs = s.segs := rfl
@[simp] theorem State.updLaunch_ctxs (s : State) (i : Nat) (f : Launch → Launch) : (s.updLaunch i f).ctxs = s.ctxs := rfl
@[simp] theorem State.updLaunch_parts (s : State) (i : Nat) (f : Launch → Launch) : (s.updLaunch i f).parts = s.parts := rfl
@[simp] theorem State.updLaunch_vault (s : State) (i : Nat) (f : Launch → Launch) : (s.updLaunch i f).vault = s.vault := rfl
@[simp] theorem State.updLaunch_accelId (s : State) (i : Nat) (f : Launch → Launch) : (s.updLaunch i f).accelId = s.accelId := rfl
@[simp] theorem State.updLaunch_rtimeout (s : State) (i : Nat) (f : Launch → Launch) : (s.updLaunch i f).rtimeout = s.rtimeout := rfl
@[simp] theorem State.updLaunch_ports (s : State) (i : Nat) (f : Launch → Launch) : (s.updLaunch i f).ports = s.ports := rfl
@[simp] theorem State.updLaunch_light (s : State) (i : Nat) (f : Launch → Launch) : (s.updLaunch i f).light = s.light := rfl
@[simp] theorem State.updLaunch_lost (s : State) (i : Nat) (f : Launch → Launch) : (s.updLaunch i f).lost = s.lost := rfl
@[simp] theorem State.updLaunch_incidents (s : State) (i : Nat) (f : Launch → Launch) : (s.updLaunch i f).incidents = s.incidents := rfl
@[simp] theorem State.updLaunch_rpairs (s : State) (i : Nat) (f : Launch → Launch) : (s.updLaunch i f).rpairs = s.rpairs := rfl
@[simp] theorem State.updLaunch_kept (s : State) (i : Nat) (f : Launch → Launch) : (s.updLaunch i f).kept = s.kept := rfl
@[simp] theorem State.updLaunch_fabOut (s : State) (i : Nat) (f : Launch → Launch) : (s.updLaunch i f).fabOut = s.fabOut := rfl
@[simp] theorem State.updLaunch_runs (s : State) (i : Nat) (f : Launch → Launch) : (s.updLaunch i f).runs = s.runs := rfl
@[simp] theorem State.updLaunch_exports (s : State) (i : Nat) (f : Launch → Launch) : (s.updLaunch i f).exports = s.exports := rfl
@[simp] theorem State.updLaunch_expCount (s : State) (i : Nat) (f : Launch → Launch) : (s.updLaunch i f).expCount = s.expCount := rfl
@[simp] theorem State.updLaunch_expSrc (s : State) (i : Nat) (f : Launch → Launch) : (s.updLaunch i f).expSrc = s.expSrc := rfl
@[simp] theorem State.updLaunch_hevBase (s : State) (i : Nat) (f : Launch → Launch) : (s.updLaunch i f).hevBase = s.hevBase := rfl
@[simp] theorem State.updLaunch_hevWr (s : State) (i : Nat) (f : Launch → Launch) : (s.updLaunch i f).hevWr = s.hevWr := rfl
@[simp] theorem State.updLaunch_hevRd (s : State) (i : Nat) (f : Launch → Launch) : (s.updLaunch i f).hevRd = s.hevRd := rfl
@[simp] theorem State.updLaunch_hevDrops (s : State) (i : Nat) (f : Launch → Launch) : (s.updLaunch i f).hevDrops = s.hevDrops := rfl
@[simp] theorem State.updLaunch_hevSeq (s : State) (i : Nat) (f : Launch → Launch) : (s.updLaunch i f).hevSeq = s.hevSeq := rfl
@[simp] theorem State.updLaunch_sites (s : State) (i : Nat) (f : Launch → Launch) : (s.updLaunch i f).sites = s.sites := rfl
@[simp] theorem State.updLaunch_moveCmd (s : State) (i : Nat) (f : Launch → Launch) : (s.updLaunch i f).moveCmd = s.moveCmd := rfl
@[simp] theorem State.updLaunch_diestat (s : State) (i : Nat) (f : Launch → Launch) : (s.updLaunch i f).diestat = s.diestat := rfl
@[simp] theorem State.updLaunch_fenced (s : State) (i : Nat) (f : Launch → Launch) : (s.updLaunch i f).fenced = s.fenced := rfl
@[simp] theorem State.updLaunch_caps (s : State) (i : Nat) (f : Launch → Launch) : (s.updLaunch i f).caps = s.caps := rfl
@[simp] theorem State.updLaunch_fwsvn (s : State) (i : Nat) (f : Launch → Launch) : (s.updLaunch i f).fwsvn = s.fwsvn := rfl
@[simp] theorem State.updLaunch_mcresets (s : State) (i : Nat) (f : Launch → Launch) : (s.updLaunch i f).mcresets = s.mcresets := rfl
@[simp] theorem State.updLaunch_recovery (s : State) (i : Nat) (f : Launch → Launch) : (s.updLaunch i f).recovery = s.recovery := rfl
@[simp] theorem State.updLaunch_phase (s : State) (i : Nat) (f : Launch → Launch) : (s.updLaunch i f).phase = s.phase := rfl
@[simp] theorem State.updLaunch_fuses (s : State) (i : Nat) (f : Launch → Launch) : (s.updLaunch i f).fuses = s.fuses := rfl
@[simp] theorem State.updLaunch_flash (s : State) (i : Nat) (f : Launch → Launch) : (s.updLaunch i f).flash = s.flash := rfl
@[simp] theorem State.updLaunch_mgmt (s : State) (i : Nat) (f : Launch → Launch) : (s.updLaunch i f).mgmt = s.mgmt := rfl
@[simp] theorem State.updLaunch_msix (s : State) (i : Nat) (f : Launch → Launch) : (s.updLaunch i f).msix = s.msix := rfl
@[simp] theorem State.updLaunch_hostOut (s : State) (i : Nat) (f : Launch → Launch) : (s.updLaunch i f).hostOut = s.hostOut := rfl

/-! ## State.pass -/

@[simp] theorem State.pass_agenda (s : State) (die n : Nat) : (s.pass die n).agenda = s.agenda := rfl
@[simp] theorem State.pass_evs (s : State) (die n : Nat) : (s.pass die n).evs = s.evs := rfl
@[simp] theorem State.pass_cur (s : State) (die n : Nat) : (s.pass die n).cur = s.cur := rfl
@[simp] theorem State.pass_free (s : State) (die n : Nat) : (s.pass die n).free = s.free := rfl
@[simp] theorem State.pass_nextId (s : State) (die n : Nat) : (s.pass die n).nextId = s.nextId := rfl
@[simp] theorem State.pass_now (s : State) (die n : Nat) : (s.pass die n).now = (s.now + n * s.cycleLen die) := rfl
@[simp] theorem State.pass_clocks (s : State) (die n : Nat) : (s.pass die n).clocks = s.clocks := rfl
@[simp] theorem State.pass_mem (s : State) (die n : Nat) : (s.pass die n).mem = s.mem := rfl
@[simp] theorem State.pass_desc (s : State) (die n : Nat) : (s.pass die n).desc = s.desc := rfl
@[simp] theorem State.pass_poison (s : State) (die n : Nat) : (s.pass die n).poison = s.poison := rfl
@[simp] theorem State.pass_tags (s : State) (die n : Nat) : (s.pass die n).tags = s.tags := rfl
@[simp] theorem State.pass_region (s : State) (die n : Nat) : (s.pass die n).region = s.region := rfl
@[simp] theorem State.pass_gen (s : State) (die n : Nat) : (s.pass die n).gen = s.gen := rfl
@[simp] theorem State.pass_keyid (s : State) (die n : Nat) : (s.pass die n).keyid = s.keyid := rfl
@[simp] theorem State.pass_busy (s : State) (die n : Nat) : (s.pass die n).busy = s.busy := rfl
@[simp] theorem State.pass_move (s : State) (die n : Nat) : (s.pass die n).move = s.move := rfl
@[simp] theorem State.pass_queued (s : State) (die n : Nat) : (s.pass die n).queued = s.queued := rfl
@[simp] theorem State.pass_forward (s : State) (die n : Nat) : (s.pass die n).forward = s.forward := rfl
@[simp] theorem State.pass_tlb (s : State) (die n : Nat) : (s.pass die n).tlb = s.tlb := rfl
@[simp] theorem State.pass_clusters (s : State) (die n : Nat) : (s.pass die n).clusters = s.clusters := rfl
@[simp] theorem State.pass_groups (s : State) (die n : Nat) : (s.pass die n).groups = s.groups := rfl
@[simp] theorem State.pass_gangs (s : State) (die n : Nat) : (s.pass die n).gangs = s.gangs := rfl
@[simp] theorem State.pass_handles (s : State) (die n : Nat) : (s.pass die n).handles = s.handles := rfl
@[simp] theorem State.pass_frags (s : State) (die n : Nat) : (s.pass die n).frags = s.frags := rfl
@[simp] theorem State.pass_lastVer (s : State) (die n : Nat) : (s.pass die n).lastVer = s.lastVer := rfl
@[simp] theorem State.pass_packets (s : State) (die n : Nat) : (s.pass die n).packets = s.packets := rfl
@[simp] theorem State.pass_carry (s : State) (die n : Nat) : (s.pass die n).carry = s.carry := rfl
@[simp] theorem State.pass_deadWin (s : State) (die n : Nat) : (s.pass die n).deadWin = s.deadWin := rfl
@[simp] theorem State.pass_loads (s : State) (die n : Nat) : (s.pass die n).loads = s.loads := rfl
@[simp] theorem State.pass_queue (s : State) (die n : Nat) : (s.pass die n).queue = s.queue := rfl
@[simp] theorem State.pass_reserves (s : State) (die n : Nat) : (s.pass die n).reserves = s.reserves := rfl
@[simp] theorem State.pass_passes (s : State) (die n : Nat) : (s.pass die n).passes = s.passes := rfl
@[simp] theorem State.pass_passOn (s : State) (die n : Nat) : (s.pass die n).passOn = s.passOn := rfl
@[simp] theorem State.pass_hostPts (s : State) (die n : Nat) : (s.pass die n).hostPts = s.hostPts := rfl
@[simp] theorem State.pass_launches (s : State) (die n : Nat) : (s.pass die n).launches = s.launches := rfl
@[simp] theorem State.pass_assay (s : State) (die n : Nat) : (s.pass die n).assay = s.assay := rfl
@[simp] theorem State.pass_segs (s : State) (die n : Nat) : (s.pass die n).segs = s.segs := rfl
@[simp] theorem State.pass_ctxs (s : State) (die n : Nat) : (s.pass die n).ctxs = s.ctxs := rfl
@[simp] theorem State.pass_parts (s : State) (die n : Nat) : (s.pass die n).parts = s.parts := rfl
@[simp] theorem State.pass_vault (s : State) (die n : Nat) : (s.pass die n).vault = s.vault := rfl
@[simp] theorem State.pass_accelId (s : State) (die n : Nat) : (s.pass die n).accelId = s.accelId := rfl
@[simp] theorem State.pass_rtimeout (s : State) (die n : Nat) : (s.pass die n).rtimeout = s.rtimeout := rfl
@[simp] theorem State.pass_ports (s : State) (die n : Nat) : (s.pass die n).ports = s.ports := rfl
@[simp] theorem State.pass_light (s : State) (die n : Nat) : (s.pass die n).light = s.light := rfl
@[simp] theorem State.pass_lost (s : State) (die n : Nat) : (s.pass die n).lost = s.lost := rfl
@[simp] theorem State.pass_incidents (s : State) (die n : Nat) : (s.pass die n).incidents = s.incidents := rfl
@[simp] theorem State.pass_rpairs (s : State) (die n : Nat) : (s.pass die n).rpairs = s.rpairs := rfl
@[simp] theorem State.pass_kept (s : State) (die n : Nat) : (s.pass die n).kept = s.kept := rfl
@[simp] theorem State.pass_fabOut (s : State) (die n : Nat) : (s.pass die n).fabOut = s.fabOut := rfl
@[simp] theorem State.pass_runs (s : State) (die n : Nat) : (s.pass die n).runs = s.runs := rfl
@[simp] theorem State.pass_exports (s : State) (die n : Nat) : (s.pass die n).exports = s.exports := rfl
@[simp] theorem State.pass_expCount (s : State) (die n : Nat) : (s.pass die n).expCount = s.expCount := rfl
@[simp] theorem State.pass_expSrc (s : State) (die n : Nat) : (s.pass die n).expSrc = s.expSrc := rfl
@[simp] theorem State.pass_hevBase (s : State) (die n : Nat) : (s.pass die n).hevBase = s.hevBase := rfl
@[simp] theorem State.pass_hevWr (s : State) (die n : Nat) : (s.pass die n).hevWr = s.hevWr := rfl
@[simp] theorem State.pass_hevRd (s : State) (die n : Nat) : (s.pass die n).hevRd = s.hevRd := rfl
@[simp] theorem State.pass_hevDrops (s : State) (die n : Nat) : (s.pass die n).hevDrops = s.hevDrops := rfl
@[simp] theorem State.pass_hevSeq (s : State) (die n : Nat) : (s.pass die n).hevSeq = s.hevSeq := rfl
@[simp] theorem State.pass_sites (s : State) (die n : Nat) : (s.pass die n).sites = s.sites := rfl
@[simp] theorem State.pass_moveCmd (s : State) (die n : Nat) : (s.pass die n).moveCmd = s.moveCmd := rfl
@[simp] theorem State.pass_diestat (s : State) (die n : Nat) : (s.pass die n).diestat = s.diestat := rfl
@[simp] theorem State.pass_fenced (s : State) (die n : Nat) : (s.pass die n).fenced = s.fenced := rfl
@[simp] theorem State.pass_caps (s : State) (die n : Nat) : (s.pass die n).caps = s.caps := rfl
@[simp] theorem State.pass_fwsvn (s : State) (die n : Nat) : (s.pass die n).fwsvn = s.fwsvn := rfl
@[simp] theorem State.pass_mcresets (s : State) (die n : Nat) : (s.pass die n).mcresets = s.mcresets := rfl
@[simp] theorem State.pass_recovery (s : State) (die n : Nat) : (s.pass die n).recovery = s.recovery := rfl
@[simp] theorem State.pass_phase (s : State) (die n : Nat) : (s.pass die n).phase = s.phase := rfl
@[simp] theorem State.pass_fuses (s : State) (die n : Nat) : (s.pass die n).fuses = s.fuses := rfl
@[simp] theorem State.pass_flash (s : State) (die n : Nat) : (s.pass die n).flash = s.flash := rfl
@[simp] theorem State.pass_mgmt (s : State) (die n : Nat) : (s.pass die n).mgmt = s.mgmt := rfl
@[simp] theorem State.pass_msix (s : State) (die n : Nat) : (s.pass die n).msix = s.msix := rfl
@[simp] theorem State.pass_hostOut (s : State) (die n : Nat) : (s.pass die n).hostOut = s.hostOut := rfl

/-! ## State.raiseMsi -/

@[simp] theorem State.raiseMsi_agenda (s : State) (v : Nat) : (s.raiseMsi v).agenda = s.agenda := rfl
@[simp] theorem State.raiseMsi_evs (s : State) (v : Nat) : (s.raiseMsi v).evs = s.evs := rfl
@[simp] theorem State.raiseMsi_cur (s : State) (v : Nat) : (s.raiseMsi v).cur = s.cur := rfl
@[simp] theorem State.raiseMsi_free (s : State) (v : Nat) : (s.raiseMsi v).free = s.free := rfl
@[simp] theorem State.raiseMsi_nextId (s : State) (v : Nat) : (s.raiseMsi v).nextId = s.nextId := rfl
@[simp] theorem State.raiseMsi_now (s : State) (v : Nat) : (s.raiseMsi v).now = s.now := rfl
@[simp] theorem State.raiseMsi_clocks (s : State) (v : Nat) : (s.raiseMsi v).clocks = s.clocks := rfl
@[simp] theorem State.raiseMsi_mem (s : State) (v : Nat) : (s.raiseMsi v).mem = s.mem := rfl
@[simp] theorem State.raiseMsi_desc (s : State) (v : Nat) : (s.raiseMsi v).desc = s.desc := rfl
@[simp] theorem State.raiseMsi_poison (s : State) (v : Nat) : (s.raiseMsi v).poison = s.poison := rfl
@[simp] theorem State.raiseMsi_tags (s : State) (v : Nat) : (s.raiseMsi v).tags = s.tags := rfl
@[simp] theorem State.raiseMsi_region (s : State) (v : Nat) : (s.raiseMsi v).region = s.region := rfl
@[simp] theorem State.raiseMsi_gen (s : State) (v : Nat) : (s.raiseMsi v).gen = s.gen := rfl
@[simp] theorem State.raiseMsi_keyid (s : State) (v : Nat) : (s.raiseMsi v).keyid = s.keyid := rfl
@[simp] theorem State.raiseMsi_busy (s : State) (v : Nat) : (s.raiseMsi v).busy = s.busy := rfl
@[simp] theorem State.raiseMsi_move (s : State) (v : Nat) : (s.raiseMsi v).move = s.move := rfl
@[simp] theorem State.raiseMsi_queued (s : State) (v : Nat) : (s.raiseMsi v).queued = s.queued := rfl
@[simp] theorem State.raiseMsi_forward (s : State) (v : Nat) : (s.raiseMsi v).forward = s.forward := rfl
@[simp] theorem State.raiseMsi_tlb (s : State) (v : Nat) : (s.raiseMsi v).tlb = s.tlb := rfl
@[simp] theorem State.raiseMsi_clusters (s : State) (v : Nat) : (s.raiseMsi v).clusters = s.clusters := rfl
@[simp] theorem State.raiseMsi_groups (s : State) (v : Nat) : (s.raiseMsi v).groups = s.groups := rfl
@[simp] theorem State.raiseMsi_gangs (s : State) (v : Nat) : (s.raiseMsi v).gangs = s.gangs := rfl
@[simp] theorem State.raiseMsi_handles (s : State) (v : Nat) : (s.raiseMsi v).handles = s.handles := rfl
@[simp] theorem State.raiseMsi_frags (s : State) (v : Nat) : (s.raiseMsi v).frags = s.frags := rfl
@[simp] theorem State.raiseMsi_lastVer (s : State) (v : Nat) : (s.raiseMsi v).lastVer = s.lastVer := rfl
@[simp] theorem State.raiseMsi_packets (s : State) (v : Nat) : (s.raiseMsi v).packets = s.packets := rfl
@[simp] theorem State.raiseMsi_carry (s : State) (v : Nat) : (s.raiseMsi v).carry = s.carry := rfl
@[simp] theorem State.raiseMsi_deadWin (s : State) (v : Nat) : (s.raiseMsi v).deadWin = s.deadWin := rfl
@[simp] theorem State.raiseMsi_loads (s : State) (v : Nat) : (s.raiseMsi v).loads = s.loads := rfl
@[simp] theorem State.raiseMsi_queue (s : State) (v : Nat) : (s.raiseMsi v).queue = s.queue := rfl
@[simp] theorem State.raiseMsi_reserves (s : State) (v : Nat) : (s.raiseMsi v).reserves = s.reserves := rfl
@[simp] theorem State.raiseMsi_passes (s : State) (v : Nat) : (s.raiseMsi v).passes = s.passes := rfl
@[simp] theorem State.raiseMsi_passOn (s : State) (v : Nat) : (s.raiseMsi v).passOn = s.passOn := rfl
@[simp] theorem State.raiseMsi_hostPts (s : State) (v : Nat) : (s.raiseMsi v).hostPts = s.hostPts := rfl
@[simp] theorem State.raiseMsi_launches (s : State) (v : Nat) : (s.raiseMsi v).launches = s.launches := rfl
@[simp] theorem State.raiseMsi_assay (s : State) (v : Nat) : (s.raiseMsi v).assay = s.assay := rfl
@[simp] theorem State.raiseMsi_segs (s : State) (v : Nat) : (s.raiseMsi v).segs = s.segs := rfl
@[simp] theorem State.raiseMsi_ctxs (s : State) (v : Nat) : (s.raiseMsi v).ctxs = s.ctxs := rfl
@[simp] theorem State.raiseMsi_parts (s : State) (v : Nat) : (s.raiseMsi v).parts = s.parts := rfl
@[simp] theorem State.raiseMsi_vault (s : State) (v : Nat) : (s.raiseMsi v).vault = s.vault := rfl
@[simp] theorem State.raiseMsi_accelId (s : State) (v : Nat) : (s.raiseMsi v).accelId = s.accelId := rfl
@[simp] theorem State.raiseMsi_rtimeout (s : State) (v : Nat) : (s.raiseMsi v).rtimeout = s.rtimeout := rfl
@[simp] theorem State.raiseMsi_ports (s : State) (v : Nat) : (s.raiseMsi v).ports = s.ports := rfl
@[simp] theorem State.raiseMsi_light (s : State) (v : Nat) : (s.raiseMsi v).light = s.light := rfl
@[simp] theorem State.raiseMsi_lost (s : State) (v : Nat) : (s.raiseMsi v).lost = s.lost := rfl
@[simp] theorem State.raiseMsi_incidents (s : State) (v : Nat) : (s.raiseMsi v).incidents = s.incidents := rfl
@[simp] theorem State.raiseMsi_rpairs (s : State) (v : Nat) : (s.raiseMsi v).rpairs = s.rpairs := rfl
@[simp] theorem State.raiseMsi_kept (s : State) (v : Nat) : (s.raiseMsi v).kept = s.kept := rfl
@[simp] theorem State.raiseMsi_fabOut (s : State) (v : Nat) : (s.raiseMsi v).fabOut = s.fabOut := rfl
@[simp] theorem State.raiseMsi_runs (s : State) (v : Nat) : (s.raiseMsi v).runs = s.runs := rfl
@[simp] theorem State.raiseMsi_exports (s : State) (v : Nat) : (s.raiseMsi v).exports = s.exports := rfl
@[simp] theorem State.raiseMsi_expCount (s : State) (v : Nat) : (s.raiseMsi v).expCount = s.expCount := rfl
@[simp] theorem State.raiseMsi_expSrc (s : State) (v : Nat) : (s.raiseMsi v).expSrc = s.expSrc := rfl
@[simp] theorem State.raiseMsi_hevBase (s : State) (v : Nat) : (s.raiseMsi v).hevBase = s.hevBase := rfl
@[simp] theorem State.raiseMsi_hevWr (s : State) (v : Nat) : (s.raiseMsi v).hevWr = s.hevWr := rfl
@[simp] theorem State.raiseMsi_hevRd (s : State) (v : Nat) : (s.raiseMsi v).hevRd = s.hevRd := rfl
@[simp] theorem State.raiseMsi_hevDrops (s : State) (v : Nat) : (s.raiseMsi v).hevDrops = s.hevDrops := rfl
@[simp] theorem State.raiseMsi_hevSeq (s : State) (v : Nat) : (s.raiseMsi v).hevSeq = s.hevSeq := rfl
@[simp] theorem State.raiseMsi_sites (s : State) (v : Nat) : (s.raiseMsi v).sites = s.sites := rfl
@[simp] theorem State.raiseMsi_moveCmd (s : State) (v : Nat) : (s.raiseMsi v).moveCmd = s.moveCmd := rfl
@[simp] theorem State.raiseMsi_diestat (s : State) (v : Nat) : (s.raiseMsi v).diestat = s.diestat := rfl
@[simp] theorem State.raiseMsi_fenced (s : State) (v : Nat) : (s.raiseMsi v).fenced = s.fenced := rfl
@[simp] theorem State.raiseMsi_caps (s : State) (v : Nat) : (s.raiseMsi v).caps = s.caps := rfl
@[simp] theorem State.raiseMsi_fwsvn (s : State) (v : Nat) : (s.raiseMsi v).fwsvn = s.fwsvn := rfl
@[simp] theorem State.raiseMsi_mcresets (s : State) (v : Nat) : (s.raiseMsi v).mcresets = s.mcresets := rfl
@[simp] theorem State.raiseMsi_recovery (s : State) (v : Nat) : (s.raiseMsi v).recovery = s.recovery := rfl
@[simp] theorem State.raiseMsi_phase (s : State) (v : Nat) : (s.raiseMsi v).phase = s.phase := rfl
@[simp] theorem State.raiseMsi_fuses (s : State) (v : Nat) : (s.raiseMsi v).fuses = s.fuses := rfl
@[simp] theorem State.raiseMsi_flash (s : State) (v : Nat) : (s.raiseMsi v).flash = s.flash := rfl
@[simp] theorem State.raiseMsi_mgmt (s : State) (v : Nat) : (s.raiseMsi v).mgmt = s.mgmt := rfl
@[simp] theorem State.raiseMsi_msix (s : State) (v : Nat) : (s.raiseMsi v).msix = (s.msix ++ [v]) := rfl
@[simp] theorem State.raiseMsi_hostOut (s : State) (v : Nat) : (s.raiseMsi v).hostOut = s.hostOut := rfl

/-! ## State.wrByte -/

@[simp] theorem State.wrByte_agenda (s : State) (pa : Nat) (b : Byte) : (s.wrByte pa b).agenda = s.agenda := rfl
@[simp] theorem State.wrByte_evs (s : State) (pa : Nat) (b : Byte) : (s.wrByte pa b).evs = s.evs := rfl
@[simp] theorem State.wrByte_cur (s : State) (pa : Nat) (b : Byte) : (s.wrByte pa b).cur = s.cur := rfl
@[simp] theorem State.wrByte_free (s : State) (pa : Nat) (b : Byte) : (s.wrByte pa b).free = s.free := rfl
@[simp] theorem State.wrByte_nextId (s : State) (pa : Nat) (b : Byte) : (s.wrByte pa b).nextId = s.nextId := rfl
@[simp] theorem State.wrByte_now (s : State) (pa : Nat) (b : Byte) : (s.wrByte pa b).now = s.now := rfl
@[simp] theorem State.wrByte_clocks (s : State) (pa : Nat) (b : Byte) : (s.wrByte pa b).clocks = s.clocks := rfl
@[simp] theorem State.wrByte_mem (s : State) (pa : Nat) (b : Byte) : (s.wrByte pa b).mem = (SMap.setD (0 : Byte) s.mem (s.fwd pa) b) := rfl
@[simp] theorem State.wrByte_desc (s : State) (pa : Nat) (b : Byte) : (s.wrByte pa b).desc = s.desc := rfl
@[simp] theorem State.wrByte_poison (s : State) (pa : Nat) (b : Byte) : (s.wrByte pa b).poison = s.poison := rfl
@[simp] theorem State.wrByte_tags (s : State) (pa : Nat) (b : Byte) : (s.wrByte pa b).tags = s.tags := rfl
@[simp] theorem State.wrByte_region (s : State) (pa : Nat) (b : Byte) : (s.wrByte pa b).region = s.region := rfl
@[simp] theorem State.wrByte_gen (s : State) (pa : Nat) (b : Byte) : (s.wrByte pa b).gen = s.gen := rfl
@[simp] theorem State.wrByte_keyid (s : State) (pa : Nat) (b : Byte) : (s.wrByte pa b).keyid = s.keyid := rfl
@[simp] theorem State.wrByte_busy (s : State) (pa : Nat) (b : Byte) : (s.wrByte pa b).busy = s.busy := rfl
@[simp] theorem State.wrByte_move (s : State) (pa : Nat) (b : Byte) : (s.wrByte pa b).move = s.move := rfl
@[simp] theorem State.wrByte_queued (s : State) (pa : Nat) (b : Byte) : (s.wrByte pa b).queued = s.queued := rfl
@[simp] theorem State.wrByte_forward (s : State) (pa : Nat) (b : Byte) : (s.wrByte pa b).forward = s.forward := rfl
@[simp] theorem State.wrByte_tlb (s : State) (pa : Nat) (b : Byte) : (s.wrByte pa b).tlb = s.tlb := rfl
@[simp] theorem State.wrByte_clusters (s : State) (pa : Nat) (b : Byte) : (s.wrByte pa b).clusters = s.clusters := rfl
@[simp] theorem State.wrByte_groups (s : State) (pa : Nat) (b : Byte) : (s.wrByte pa b).groups = s.groups := rfl
@[simp] theorem State.wrByte_gangs (s : State) (pa : Nat) (b : Byte) : (s.wrByte pa b).gangs = s.gangs := rfl
@[simp] theorem State.wrByte_handles (s : State) (pa : Nat) (b : Byte) : (s.wrByte pa b).handles = s.handles := rfl
@[simp] theorem State.wrByte_frags (s : State) (pa : Nat) (b : Byte) : (s.wrByte pa b).frags = s.frags := rfl
@[simp] theorem State.wrByte_lastVer (s : State) (pa : Nat) (b : Byte) : (s.wrByte pa b).lastVer = s.lastVer := rfl
@[simp] theorem State.wrByte_packets (s : State) (pa : Nat) (b : Byte) : (s.wrByte pa b).packets = s.packets := rfl
@[simp] theorem State.wrByte_carry (s : State) (pa : Nat) (b : Byte) : (s.wrByte pa b).carry = s.carry := rfl
@[simp] theorem State.wrByte_deadWin (s : State) (pa : Nat) (b : Byte) : (s.wrByte pa b).deadWin = s.deadWin := rfl
@[simp] theorem State.wrByte_loads (s : State) (pa : Nat) (b : Byte) : (s.wrByte pa b).loads = s.loads := rfl
@[simp] theorem State.wrByte_queue (s : State) (pa : Nat) (b : Byte) : (s.wrByte pa b).queue = s.queue := rfl
@[simp] theorem State.wrByte_reserves (s : State) (pa : Nat) (b : Byte) : (s.wrByte pa b).reserves = s.reserves := rfl
@[simp] theorem State.wrByte_passes (s : State) (pa : Nat) (b : Byte) : (s.wrByte pa b).passes = s.passes := rfl
@[simp] theorem State.wrByte_passOn (s : State) (pa : Nat) (b : Byte) : (s.wrByte pa b).passOn = s.passOn := rfl
@[simp] theorem State.wrByte_hostPts (s : State) (pa : Nat) (b : Byte) : (s.wrByte pa b).hostPts = s.hostPts := rfl
@[simp] theorem State.wrByte_launches (s : State) (pa : Nat) (b : Byte) : (s.wrByte pa b).launches = s.launches := rfl
@[simp] theorem State.wrByte_assay (s : State) (pa : Nat) (b : Byte) : (s.wrByte pa b).assay = s.assay := rfl
@[simp] theorem State.wrByte_segs (s : State) (pa : Nat) (b : Byte) : (s.wrByte pa b).segs = s.segs := rfl
@[simp] theorem State.wrByte_ctxs (s : State) (pa : Nat) (b : Byte) : (s.wrByte pa b).ctxs = s.ctxs := rfl
@[simp] theorem State.wrByte_parts (s : State) (pa : Nat) (b : Byte) : (s.wrByte pa b).parts = s.parts := rfl
@[simp] theorem State.wrByte_vault (s : State) (pa : Nat) (b : Byte) : (s.wrByte pa b).vault = s.vault := rfl
@[simp] theorem State.wrByte_accelId (s : State) (pa : Nat) (b : Byte) : (s.wrByte pa b).accelId = s.accelId := rfl
@[simp] theorem State.wrByte_rtimeout (s : State) (pa : Nat) (b : Byte) : (s.wrByte pa b).rtimeout = s.rtimeout := rfl
@[simp] theorem State.wrByte_ports (s : State) (pa : Nat) (b : Byte) : (s.wrByte pa b).ports = s.ports := rfl
@[simp] theorem State.wrByte_light (s : State) (pa : Nat) (b : Byte) : (s.wrByte pa b).light = s.light := rfl
@[simp] theorem State.wrByte_lost (s : State) (pa : Nat) (b : Byte) : (s.wrByte pa b).lost = s.lost := rfl
@[simp] theorem State.wrByte_incidents (s : State) (pa : Nat) (b : Byte) : (s.wrByte pa b).incidents = s.incidents := rfl
@[simp] theorem State.wrByte_rpairs (s : State) (pa : Nat) (b : Byte) : (s.wrByte pa b).rpairs = s.rpairs := rfl
@[simp] theorem State.wrByte_kept (s : State) (pa : Nat) (b : Byte) : (s.wrByte pa b).kept = s.kept := rfl
@[simp] theorem State.wrByte_fabOut (s : State) (pa : Nat) (b : Byte) : (s.wrByte pa b).fabOut = s.fabOut := rfl
@[simp] theorem State.wrByte_runs (s : State) (pa : Nat) (b : Byte) : (s.wrByte pa b).runs = s.runs := rfl
@[simp] theorem State.wrByte_exports (s : State) (pa : Nat) (b : Byte) : (s.wrByte pa b).exports = s.exports := rfl
@[simp] theorem State.wrByte_expCount (s : State) (pa : Nat) (b : Byte) : (s.wrByte pa b).expCount = s.expCount := rfl
@[simp] theorem State.wrByte_expSrc (s : State) (pa : Nat) (b : Byte) : (s.wrByte pa b).expSrc = s.expSrc := rfl
@[simp] theorem State.wrByte_hevBase (s : State) (pa : Nat) (b : Byte) : (s.wrByte pa b).hevBase = s.hevBase := rfl
@[simp] theorem State.wrByte_hevWr (s : State) (pa : Nat) (b : Byte) : (s.wrByte pa b).hevWr = s.hevWr := rfl
@[simp] theorem State.wrByte_hevRd (s : State) (pa : Nat) (b : Byte) : (s.wrByte pa b).hevRd = s.hevRd := rfl
@[simp] theorem State.wrByte_hevDrops (s : State) (pa : Nat) (b : Byte) : (s.wrByte pa b).hevDrops = s.hevDrops := rfl
@[simp] theorem State.wrByte_hevSeq (s : State) (pa : Nat) (b : Byte) : (s.wrByte pa b).hevSeq = s.hevSeq := rfl
@[simp] theorem State.wrByte_sites (s : State) (pa : Nat) (b : Byte) : (s.wrByte pa b).sites = s.sites := rfl
@[simp] theorem State.wrByte_moveCmd (s : State) (pa : Nat) (b : Byte) : (s.wrByte pa b).moveCmd = s.moveCmd := rfl
@[simp] theorem State.wrByte_diestat (s : State) (pa : Nat) (b : Byte) : (s.wrByte pa b).diestat = s.diestat := rfl
@[simp] theorem State.wrByte_fenced (s : State) (pa : Nat) (b : Byte) : (s.wrByte pa b).fenced = s.fenced := rfl
@[simp] theorem State.wrByte_caps (s : State) (pa : Nat) (b : Byte) : (s.wrByte pa b).caps = s.caps := rfl
@[simp] theorem State.wrByte_fwsvn (s : State) (pa : Nat) (b : Byte) : (s.wrByte pa b).fwsvn = s.fwsvn := rfl
@[simp] theorem State.wrByte_mcresets (s : State) (pa : Nat) (b : Byte) : (s.wrByte pa b).mcresets = s.mcresets := rfl
@[simp] theorem State.wrByte_recovery (s : State) (pa : Nat) (b : Byte) : (s.wrByte pa b).recovery = s.recovery := rfl
@[simp] theorem State.wrByte_phase (s : State) (pa : Nat) (b : Byte) : (s.wrByte pa b).phase = s.phase := rfl
@[simp] theorem State.wrByte_fuses (s : State) (pa : Nat) (b : Byte) : (s.wrByte pa b).fuses = s.fuses := rfl
@[simp] theorem State.wrByte_flash (s : State) (pa : Nat) (b : Byte) : (s.wrByte pa b).flash = s.flash := rfl
@[simp] theorem State.wrByte_mgmt (s : State) (pa : Nat) (b : Byte) : (s.wrByte pa b).mgmt = s.mgmt := rfl
@[simp] theorem State.wrByte_msix (s : State) (pa : Nat) (b : Byte) : (s.wrByte pa b).msix = s.msix := rfl
@[simp] theorem State.wrByte_hostOut (s : State) (pa : Nat) (b : Byte) : (s.wrByte pa b).hostOut = s.hostOut := rfl

end Sys2Proof.Machine
end

