-- ==== Sys2Proof/Laws/Issue.lean ====
section
/-!
SUPPORT. What the issue of an instruction and its end do, said once: `issue` where nothing stops it, what `putView`, `retire` and `finish`
leave of the issuing agent's registers and of everything else.
-/
namespace Sys2Proof.Machine
open Sys2Proof

/-! ## Lists and finite maps -/

theorem updFirst_find? {α : Type} (p : α → Bool) (f : α → α) (hf : ∀ a, p a = true → p (f a) = true) (l : List α) :
    (updFirst p f l).find? p = (l.find? p).map f := by
  induction l with
  | nil => rfl
  | cons a l ih =>
    by_cases h : p a = true
    · simp [updFirst, h, hf a h]
    · simp [updFirst, h, ih]

theorem SMap.find?_insert_self {α : Type} (m : SMap α) (i : Nat) (v : α) : SMap.find? (SMap.insert m i v) i = some v := by
  induction m with
  | nil => simp [SMap.insert, SMap.find?]
  | cons p m ih =>
    obtain ⟨k, w⟩ := p
    simp only [SMap.insert]
    split
    · simp [SMap.find?]
    · split
      · simp [SMap.find?]
      · rename_i h1 h2
        simp [SMap.find?, Ne.symm h2, ih]

theorem SMap.find?_insert_ne {α : Type} (m : SMap α) {i j : Nat} (v : α) (h : j ≠ i) : SMap.find? (SMap.insert m i v) j = SMap.find? m j := by
  induction m with
  | nil => simp [SMap.insert, SMap.find?, Ne.symm h]
  | cons p m ih =>
    obtain ⟨k, w⟩ := p
    simp only [SMap.insert]
    split
    · simp [SMap.find?, Ne.symm h]
    · split
      · rename_i h2; subst h2; simp [SMap.find?, Ne.symm h]
      · simp [SMap.find?, ih]

@[simp] theorem State.group?_updGroup_ne (s : State) {g k : Nat} (f : Group → Group) (h : k ≠ g) : (s.updGroup g f).group? k = s.group? k := by
  unfold State.group? State.updGroup
  dsimp only
  split
  · exact SMap.find?_insert_ne _ _ h
  · rfl

theorem State.group?_updGroup_self (s : State) (g : Nat) (f : Group → Group) : (s.updGroup g f).group? g = (s.group? g).map f := by
  unfold State.group? State.updGroup
  dsimp only
  split
  · rename_i x h; rw [SMap.find?_insert_self, h]; rfl
  · rename_i h; rw [h]; rfl

@[simp] theorem State.cluster_updCluster_self (s : State) (c : Nat) (f : Cluster → Cluster) : (s.updCluster c f).cluster c = f (s.cluster c) := by
  simp [State.cluster, SMap.getD, SMap.find?_insert_self, State.updCluster]

theorem State.cluster_updCluster_ne (s : State) {c d : Nat} (f : Cluster → Cluster) (h : d ≠ c) : (s.updCluster c f).cluster d = s.cluster d := by
  simp [State.cluster, SMap.getD, SMap.find?_insert_ne _ _ h, State.updCluster]

/-! ## The registers of the issuing agent -/

theorem Group.thread?_putThreads (g : Group) (ts : List Thread) (k : Nat) :
    (g.putThreads ts).thread? k = (g.thread? k).map fun t => (ts.find? (fun u => u.tid == t.tid)).getD t := by
  unfold Group.thread? Group.putThreads
  simp only [List.find?_map]
  congr 1
  congr 1
  funext t
  cases h : ts.find? (fun u => u.tid == t.tid) with
  | none => simp [h]
  | some u => have := List.find?_some h; simp_all

theorem Group.thread?_tid {g : Group} {k : Nat} {t : Thread} (h : g.thread? k = some t) : t.tid = k := by
  have := List.find?_some h; simpa using this

theorem Group.warp?_wid {g : Group} {k : Nat} {w : Warp} (h : g.warp? k = some w) : w.wid = k := by
  have := List.find?_some h; simpa using this

/-- The first path thread of a tid is the group's thread. -/
theorem find?_path (g : Group) (path : List Nat) {k : Nat} {t : Thread} (hk : k ∈ path) (h : g.thread? k = some t) :
    (path.filterMap g.thread?).find? (fun u => u.tid == k) = some t := by
  induction path with
  | nil => simp at hk
  | cons a path ih =>
    cases ha : g.thread? a with
    | none =>
      have : k ∈ path := by
        rcases List.mem_cons.1 hk with rfl | h'
        · rw [ha] at h; cases h
        · exact h'
      simp [ha, ih this]
    | some u =>
      have hu := Group.thread?_tid ha
      by_cases hak : a = k
      · subst hak; rw [ha] at h; cases h; simp [ha, hu]
      · have : k ∈ path := by
          rcases List.mem_cons.1 hk with rfl | h'
          · exact absurd rfl hak
          · exact h'
        have hne : (u.tid == k) = false := by simp [hu, hak]
        simp [ha, hne, ih this]

theorem filterMap_congr_mem {α β : Type} {f g : α → Option β} {l : List α} (h : ∀ a ∈ l, f a = g a) : l.filterMap f = l.filterMap g := by
  induction l with
  | nil => rfl
  | cons a l ih =>
    have h1 := h a (by simp)
    have h2 := ih fun b hb => h b (by simp [hb])
    simp [List.filterMap_cons, h1, h2]

/-- The path's threads after they have been written back are the ones written. -/
theorem path_putThreads (g : Group) (path : List Nat) (f : Thread → Thread) (hf : ∀ t, (f t).tid = t.tid) :
    path.filterMap (g.putThreads ((path.filterMap g.thread?).map f)).thread? = (path.filterMap g.thread?).map f := by
  conv => rhs; rw [List.map_filterMap]
  refine filterMap_congr_mem fun k hk => ?_
  rw [Group.thread?_putThreads]
  cases h : g.thread? k with
  | none => rfl
  | some t =>
    have e : ((fun u : Thread => u.tid == t.tid) ∘ f) = fun u => u.tid == k := by
      funext u; simp [hf, Group.thread?_tid h]
    have e2 : ((path.filterMap g.thread?).map f).find? (fun u => u.tid == t.tid) = some (f t) := by
      rw [List.find?_map, e, find?_path g path hk h]; rfl
    simp only [Option.map_some, e2, Option.getD_some]

theorem Group.thread?_updWarp (g : Group) (w k : Nat) (f : Warp → Warp) : (g.updWarp w f).thread? k = g.thread? k := rfl
theorem Group.warp?_putThreads (g : Group) (ts : List Thread) (w : Nat) : (g.putThreads ts).warp? w = g.warp? w := rfl

theorem Group.warp?_updWarp (g : Group) (w : Nat) (f : Warp → Warp) (hf : ∀ x, x.wid = w → (f x).wid = w) :
    (g.updWarp w f).warp? w = (g.warp? w).map f := by
  unfold Group.warp? Group.updWarp
  exact updFirst_find? _ _ (fun a ha => by simpa using hf a (by simpa using ha)) _

/-- What `view` reads of the state. -/
theorem view_congr {s t : State} (h1 : t.cur = s.cur) (h2 : t.groups = s.groups) (h3 : t.clusters = s.clusters) (h4 : t.mgmt = s.mgmt) :
    view t = view s := by
  unfold view State.group? State.cluster
  rw [h1, h2, h3, h4]

/-- The view of a warp. -/
theorem view_warp {s : State} {g w : Nat} (ha : s.cur.agent = .warp g w) {v : View} (hv : view s = some v) :
    ∃ gr wp, s.group? g = some gr ∧ gr.warp? w = some wp ∧ v = ⟨wp, s.cur.path.filterMap gr.thread?⟩ ∧ (s.cur.path.filterMap gr.thread?).isEmpty = false := by
  unfold view at hv
  rw [ha] at hv
  dsimp only at hv
  split at hv
  · cases hv
  · rename_i gr hg
    split at hv
    · cases hv
    · rename_i wp hw
      split at hv
      · cases hv
      · rename_i he
        cases hv
        exact ⟨gr, wp, hg, hw, rfl, by simpa using he⟩

theorem view_of_warp {s : State} {g w : Nat} (ha : s.cur.agent = .warp g w) {gr : Group} (hg : s.group? g = some gr) {wp : Warp}
    (hw : gr.warp? w = some wp) {l : List Thread} (hl : s.cur.path.filterMap gr.thread? = l) (hn : l ≠ []) : view s = some ⟨wp, l⟩ := by
  subst hl
  unfold view
  rw [ha]
  simp only [hg, hw]
  rw [if_neg (by simpa using hn)]

/-- A path is never empty where there is a view. -/
theorem view_ths_ne {s : State} {v : View} (hv : view s = some v) : v.ths ≠ [] := by
  cases ha : s.cur.agent with
  | none => unfold view at hv; rw [ha] at hv; cases hv
  | warp g w =>
    obtain ⟨gr, wp, -, -, rfl, he⟩ := view_warp ha hv
    intro h; dsimp only at h; rw [h] at he; cases he
  | foreman c => unfold view at hv; rw [ha] at hv; cases hv; simp
  | mgmt => unfold view at hv; rw [ha] at hv; cases hv; simp

@[simp] theorem putView_cur (s : State) (v : View) : (putView s v).cur = s.cur := by
  unfold putView; split <;> rfl

/-- The registers written are the registers read. -/
theorem view_putView {s : State} {v0 : View} (h : view s = some v0) (wp : Warp) (hw : wp.wid = v0.warp.wid) (f : Thread → Thread)
    (hf : ∀ t, (f t).tid = t.tid) : view (putView s ⟨wp, v0.ths.map f⟩) = some ⟨wp, v0.ths.map f⟩ := by
  cases ha : s.cur.agent with
  | none => unfold view at h; rw [ha] at h; cases h
  | warp g w =>
    obtain ⟨gr, wp0, hg, hw0, rfl, he⟩ := view_warp ha h
    have hwid := Group.warp?_wid hw0
    have hput : putView s ⟨wp, (s.cur.path.filterMap gr.thread?).map f⟩ =
        s.updGroup g fun gr' => (gr'.putThreads ((s.cur.path.filterMap gr.thread?).map f)).updWarp w fun _ => wp := by
      unfold putView; rw [ha]
    dsimp only
    rw [hput]
    refine view_of_warp (g := g) (w := w) (gr := (gr.putThreads ((s.cur.path.filterMap gr.thread?).map f)).updWarp w fun _ => wp)
      (by rw [State.updGroup_cur]; exact ha) (by rw [State.group?_updGroup_self, hg]; rfl) ?_ (path_putThreads gr s.cur.path f hf) ?_
    · rw [Group.warp?_updWarp _ _ _ (fun _ _ => hw.trans hwid), Group.warp?_putThreads, hw0]; rfl
    · intro h0; rw [List.map_eq_nil_iff] at h0; rw [h0] at he; cases he
  | foreman c =>
    unfold view at h; rw [ha] at h; cases h
    unfold putView view
    simp [ha]
  | mgmt =>
    unfold view at h; rw [ha] at h; cases h
    unfold putView view
    simp [ha]

theorem view_updGroup (s : State) (g : Nat) (f : Group → Group) (h1 : ∀ x, (f x).threads = x.threads) (h2 : ∀ x, (f x).warps = x.warps) :
    view (s.updGroup g f) = view s := by
  unfold view
  rw [State.updGroup_cur, State.updGroup_mgmt]
  cases ha : s.cur.agent with
  | warp k w =>
    dsimp only
    by_cases hk : k = g
    · subst hk
      rw [State.group?_updGroup_self]
      cases s.group? k with
      | none => rfl
      | some gr =>
        have e1 : (f gr).warp? w = gr.warp? w := by simp [Group.warp?, h2]
        have e2 : (f gr).thread? = gr.thread? := by funext n; simp [Group.thread?, h1]
        simp only [Option.map_some, e1, e2]
    · rw [State.group?_updGroup_ne _ _ hk]
  | _ => rfl

theorem view_updCluster (s : State) (c : Nat) (f : Cluster → Cluster) (h : ∀ x, (f x).fore = x.fore) : view (s.updCluster c f) = view s := by
  unfold view
  rw [State.updCluster_cur, State.updCluster_mgmt]
  cases ha : s.cur.agent with
  | foreman k =>
    dsimp only
    by_cases hk : k = c
    · subst hk; simp [h]
    · simp [State.cluster_updCluster_ne _ _ hk]
  | _ => rfl

theorem who_putView (s : State) (v : View) : who (putView s v) = who s := by
  unfold putView
  split
  · rfl
  · rename_i g w ha
    unfold who
    simp only [State.updGroup_cur, ha, State.group?_updGroup_self, State.context, State.updGroup_ctxs]
    cases s.group? g <;> rfl
  · rename_i c ha
    unfold who
    simp only [State.updCluster_cur, ha, State.part, State.updCluster_parts, State.partOfCluster]
  · rename_i ha
    unfold who
    simp [ha]

/-! ## The end of an issue -/

theorem State.note_eq (s : State) (code core n : Nat) (o : Option Nat) : s.note code core n o = { s with evs := (s.note code core n o).evs } := by
  unfold State.note; split <;> rfl

theorem view_note (s : State) (code core n : Nat) (o : Option Nat) : view (s.note code core n o) = view s := by
  rw [State.note_eq]; rfl

@[simp] theorem State.note_cur (s : State) (code core n : Nat) (o : Option Nat) : (s.note code core n o).cur = s.cur := by
  rw [State.note_eq]

theorem view_moveLane (s : State) : view (moveLane s) = view s := by
  unfold moveLane
  split
  · split
    · exact view_updCluster _ _ _ fun _ => rfl
    · rfl
  · rfl

@[simp] theorem moveLane_cur (s : State) : (moveLane s).cur = s.cur := by
  unfold moveLane
  split
  · split <;> rfl
  · rfl

theorem view_pass (s : State) (d n : Nat) : view (s.pass d n) = view s := rfl

theorem view_noteIssue (cost : Nat) (s : State) : view (noteIssue cost s) = view s := by
  unfold noteIssue; split
  · rw [view_note, view_note]
  · rfl

@[simp] theorem noteIssue_cur (cost : Nat) (s : State) : (noteIssue cost s).cur = s.cur := by
  unfold noteIssue; split
  · simp
  · rfl

theorem view_rewatch (s : State) (g : Nat) : view (s.rewatch g) = view s := view_updGroup _ _ _ (fun _ => rfl) fun _ => rfl

@[simp] theorem State.rewatch_cur (s : State) (g : Nat) : (s.rewatch g).cur = s.cur := rfl

/-- The end of an issue leaves every register of the agent. -/
theorem view_endIssue (cost : Nat) (s : State) : view { endIssue cost s with cur := s.cur } = view s := by
  have h : view (((moveLane (noteIssue cost s)).pass (who s).die cost).rewatch (who s).gid) = view s := by
    rw [view_rewatch, view_pass, view_moveLane, view_noteIssue]
  rw [← h]
  exact view_congr (t := { endIssue cost s with cur := s.cur }) (s := ((moveLane (noteIssue cost s)).pass (who s).die cost).rewatch (who s).gid)
    (by simp) rfl rfl rfl

theorem viewOf_some {s : State} {v : View} (h : view s = some v) : viewOf s = v := by unfold viewOf; rw [h]; rfl

theorem view_noteForced (v : View) (s : State) : view (noteForced v s) = view s := by
  unfold noteForced; split
  · rw [State.noteL1, view_note]
  · rfl

@[simp] theorem noteForced_cur (v : View) (s : State) : (noteForced v s).cur = s.cur := by
  unfold noteForced; split
  · rw [State.noteL1, State.note_cur]
  · rfl

theorem view_watchAgain (s : State) (g pc : Nat) (l : List Nat) : view (s.watchAgain g pc l) = view s :=
  view_updGroup _ _ _ (fun _ => rfl) fun _ => rfl

@[simp] theorem State.watchAgain_cur (s : State) (g pc : Nat) (l : List Nat) : (s.watchAgain g pc l).cur = s.cur := rfl

/-- What an agent's registers are once an instruction has ended: its threads stand at the next PC, and the warp's registers and modes are those
written; what else changes of the warp is the record of its issues. -/
theorem view_retire {x : Enc} {cost : Nat} {s : State} {v : View} (h : view s = some v) :
    view { retire x cost s with cur := s.cur } = some ⟨retireWarp s v cost, goOn (nextPc x s) s.now v.ths⟩ := by
  unfold retire
  rw [h]
  have h1 : view (noteForced v s) = some v := (view_noteForced v s).trans h
  have h2 := view_putView h1 (retireWarp s v cost) rfl (fun t => { t with pc := nextPc x s, lr := t.countLr, lastIssue := s.now + 1 }) fun _ => rfl
  have h3 := view_endIssue cost
    ((putView (noteForced v s) ⟨retireWarp s v cost, goOn (nextPc x s) s.now v.ths⟩).watchAgain (who s).gid s.cur.pc.toNat (v.ths.map Thread.tid))
  rw [view_watchAgain] at h3
  simp only [State.watchAgain_cur, putView_cur, noteForced_cur] at h3
  exact h3.trans h2

/-- The registers after an instruction that ends with `finish`: those it was given, at the next PC. -/
theorem after_finish {x : Enc} {cost : Nat} {s : State} {v0 : View} (h : view s = some v0) (wp : Warp) (hw : wp.wid = v0.warp.wid) (f : Thread → Thread)
    (hf : ∀ t, (f t).tid = t.tid) :
    after s (finish x cost s ⟨wp, v0.ths.map f⟩) =
      ⟨retireWarp (putView s ⟨wp, v0.ths.map f⟩) ⟨wp, v0.ths.map f⟩ cost, goOn (nextPc x s) s.now (v0.ths.map f)⟩ := by
  have hv := view_retire (x := x) (cost := cost) (view_putView h wp hw f hf)
  have hnow : (putView s ⟨wp, v0.ths.map f⟩).now = s.now := by unfold putView; split <;> rfl
  unfold nextPc at hv
  rw [putView_cur, hnow] at hv
  exact viewOf_some hv

@[simp] theorem retireWarp_s (s : State) (v : View) (cost : Nat) : (retireWarp s v cost).s = v.warp.s := rfl
@[simp] theorem retireWarp_rmode (s : State) (v : View) (cost : Nat) : (retireWarp s v cost).rmode = v.warp.rmode := rfl
@[simp] theorem retireWarp_dmode (s : State) (v : View) (cost : Nat) : (retireWarp s v cost).dmode = v.warp.dmode := rfl
@[simp] theorem retireWarp_lease (s : State) (v : View) (cost : Nat) : (retireWarp s v cost).lease = v.warp.lease := rfl
@[simp] theorem retireWarp_pend (s : State) (v : View) (cost : Nat) : (retireWarp s v cost).pend = v.warp.pend := rfl
@[simp] theorem retireWarp_sys (s : State) (v : View) (cost : Nat) : (retireWarp s v cost).sys = v.warp.sys := rfl

/-! ## An instruction that may execute -/

theorem issue_of_enabled {op : BitVec 8} {x : Enc} {s : State} (h : Enabled op x s) (body : View → State) : issue op x s body = .next (body (viewOf s)) := by
  obtain ⟨h1, h2, h3⟩ := h
  obtain ⟨v, hv⟩ := Option.isSome_iff_exists.1 h1
  rw [viewOf_some hv] at h3 ⊢
  unfold issue
  rw [hv]
  simp [h2, h3]

theorem view_of_enabled {op : BitVec 8} {x : Enc} {s : State} (h : Enabled op x s) : view s = some (viewOf s) := by
  obtain ⟨v, hv⟩ := Option.isSome_iff_exists.1 h.1
  rw [viewOf_some hv, hv]

/-! ## What the end of an instruction leaves as it was -/

/-- Between two states only what an agent of a group number, a warp number and path threads may write differs. -/
structure Local (a : Agent) (gid wid cl : Nat) (tids : List Nat) (s t : State) : Prop where
  rest : stateRest t = stateRest s
  group : ∀ g, (t.group? g).map groupRest = (s.group? g).map groupRest
  others : ∀ g, g ≠ gid → t.group? g = s.group? g
  thread : ∀ k, k ∉ tids → threadIn t gid k = threadIn s gid k
  warp : ∀ k, k ≠ wid → warpIn t gid k = warpIn s gid k
  cluster : ∀ c, clusterRest (t.cluster c) = clusterRest (s.cluster c)
  fore : ∀ c, a ≠ .foreman c → (t.cluster c).fore = (s.cluster c).fore
  mgmt : mgmtRest t.mgmt = mgmtRest s.mgmt
  mgmtAll : a ≠ .mgmt → t.mgmt = s.mgmt
  loads : (t.loads.map fun l => { l with look := 0 }) = s.loads.map fun l => { l with look := 0 }

theorem Local.refl (a : Agent) (gid wid cl : Nat) (tids : List Nat) (s : State) : Local a gid wid cl tids s s :=
  ⟨rfl, fun _ => rfl, fun _ _ => rfl, fun _ _ => rfl, fun _ _ => rfl, fun _ => rfl, fun _ _ => rfl, rfl, fun _ => rfl, rfl⟩

theorem Local.trans {a : Agent} {gid wid cl : Nat} {tids : List Nat} {s t u : State} (h : Local a gid wid cl tids s t) (k : Local a gid wid cl tids t u) :
    Local a gid wid cl tids s u :=
  ⟨k.rest.trans h.rest, fun g => (k.group g).trans (h.group g), fun g hg => (k.others g hg).trans (h.others g hg), fun n hn => (k.thread n hn).trans (h.thread n hn),
    fun n hn => (k.warp n hn).trans (h.warp n hn), fun c => (k.cluster c).trans (h.cluster c), fun c hc => (k.fore c hc).trans (h.fore c hc), k.mgmt.trans h.mgmt,
    fun hm => (k.mgmtAll hm).trans (h.mgmtAll hm), k.loads.trans h.loads⟩

/-- A change of events, time and the issue under way only. -/
theorem Local.of_same {a : Agent} {gid wid cl : Nat} {tids : List Nat} {s t : State} (h : stateRest t = stateRest s) (hg : t.groups = s.groups)
    (hc : t.clusters = s.clusters) (hm : t.mgmt = s.mgmt) (hl : t.loads = s.loads) : Local a gid wid cl tids s t := by
  have e1 : ∀ g, t.group? g = s.group? g := fun g => by unfold State.group?; rw [hg]
  have e2 : ∀ c, t.cluster c = s.cluster c := fun c => by unfold State.cluster; rw [hc]
  refine ⟨h, fun g => by rw [e1], fun g _ => e1 g, fun k _ => ?_, fun k _ => ?_, fun c => by rw [e2], fun c _ => by rw [e2], by rw [hm], fun _ => hm, by rw [hl]⟩
  · unfold threadIn; rw [e1]
  · unfold warpIn; rw [e1]

/-- A change of a group's threads of the path, its warp, and what `groupRest` leaves out. -/
theorem Local.updGroup {a : Agent} {gid wid cl : Nat} {tids : List Nat} (s : State) (f : Group → Group) (h1 : ∀ x, groupRest (f x) = groupRest x)
    (h2 : ∀ x k, k ∉ tids → (f x).thread? k = x.thread? k) (h3 : ∀ x k, k ≠ wid → (f x).warp? k = x.warp? k) :
    Local a gid wid cl tids s (s.updGroup gid f) := by
  refine ⟨rfl, fun g => ?_, fun g hg => State.group?_updGroup_ne _ _ hg, fun k hk => ?_, fun k hk => ?_, fun c => rfl, fun c _ => rfl, rfl, fun _ => rfl, rfl⟩
  · by_cases hg : g = gid
    · subst hg; rw [State.group?_updGroup_self]; cases s.group? g with
      | none => rfl
      | some x => simp [h1]
    · rw [State.group?_updGroup_ne _ _ hg]
  · unfold threadIn; rw [State.group?_updGroup_self]; cases s.group? gid with
    | none => rfl
    | some x => simp [h2 x k hk]
  · unfold warpIn; rw [State.group?_updGroup_self]; cases s.group? gid with
    | none => rfl
    | some x => simp [h3 x k hk]

/-- A change of what `clusterRest` leaves out of a cluster. -/
theorem Local.updCluster {a : Agent} {gid wid cl : Nat} {tids : List Nat} (s : State) (c : Nat) (f : Cluster → Cluster)
    (h1 : clusterRest (f (s.cluster c)) = clusterRest (s.cluster c)) (h2 : a ≠ .foreman c → (f (s.cluster c)).fore = (s.cluster c).fore) :
    Local a gid wid cl tids s (s.updCluster c f) := by
  refine ⟨rfl, fun g => rfl, fun g _ => rfl, fun k _ => rfl, fun k _ => rfl, fun d => ?_, fun d hd => ?_, rfl, fun _ => rfl, rfl⟩
  · by_cases hd : d = c
    · subst hd; rw [State.cluster_updCluster_self]; exact h1
    · rw [State.cluster_updCluster_ne _ _ hd]
  · by_cases hc : d = c
    · subst hc; rw [State.cluster_updCluster_self]; exact h2 hd
    · rw [State.cluster_updCluster_ne _ _ hc]

theorem Group.thread?_putThreads_of_not_mem (g : Group) (ts : List Thread) {k : Nat} (h : k ∉ ts.map Thread.tid) :
    (g.putThreads ts).thread? k = g.thread? k := by
  rw [Group.thread?_putThreads]
  cases e : g.thread? k with
  | none => rfl
  | some t =>
    have ht := Group.thread?_tid e
    have : ts.find? (fun u => u.tid == t.tid) = none := by
      rw [List.find?_eq_none]
      intro u hu hc
      exact h (List.mem_map.2 ⟨u, hu, by simpa [ht] using hc⟩)
    simp [this]

theorem Group.warp?_updWarp_ne (g : Group) {w k : Nat} (f : Warp → Warp) (hf : ∀ x, x.wid = w → (f x).wid = w) (h : k ≠ w) :
    (g.updWarp w f).warp? k = g.warp? k := by
  unfold Group.warp? Group.updWarp
  dsimp only
  induction g.warps with
  | nil => rfl
  | cons a l ih =>
    simp only [updFirst]
    by_cases ha : a.wid = w
    · have h1 : ((f a).wid == k) = false := by simp [hf a ha, Ne.symm h]
      have h2 : (w == k) = false := by simp [Ne.symm h]
      simp [ha, h1, h2]
    · simp [ha, List.find?_cons, ih]

/-- The writing of an agent's registers. -/
theorem Local.putView {s : State} {v0 : View} (h : view s = some v0) {cl : Nat} (wp : Warp) (hw : wp.wid = v0.warp.wid) (f : Thread → Thread)
    (hf : ∀ t, (f t).tid = t.tid) :
    Local s.cur.agent (who s).gid (who s).wid cl (v0.ths.map Thread.tid) s (putView s ⟨wp, v0.ths.map f⟩) := by
  unfold Machine.putView
  split
  · exact Local.refl ..
  · rename_i g w ha
    obtain ⟨gr, wp0, hg, hw0, rfl, he⟩ := view_warp ha h
    have hgid : (who s).gid = g := by unfold who; rw [ha]; dsimp only; cases s.group? g <;> rfl
    have hwid : (who s).wid = w := by unfold who; rw [ha]; dsimp only; cases s.group? g <;> rfl
    rw [hgid, hwid]
    have hwp : wp.wid = w := hw.trans (Group.warp?_wid hw0)
    refine Local.updGroup s _ (fun x => ?_) (fun x k hk => ?_) fun x k hk => ?_
    · rfl
    · rw [Group.thread?_updWarp]
      apply Group.thread?_putThreads_of_not_mem
      simpa [List.map_map, Function.comp_def, hf] using hk
    · rw [Group.warp?_updWarp_ne _ _ (fun _ _ => hwp) hk, Group.warp?_putThreads]
  · rename_i c ha
    refine Local.updCluster s c _ rfl fun hc => absurd ha hc
  · rename_i ha
    exact ⟨rfl, fun _ => rfl, fun _ _ => rfl, fun _ _ => rfl, fun _ _ => rfl, fun _ => rfl, fun _ _ => rfl, rfl, fun hm => absurd ha hm, rfl⟩

theorem Local.note {a : Agent} {gid wid cl : Nat} {tids : List Nat} (s : State) (code core n : Nat) (o : Option Nat) :
    Local a gid wid cl tids s (s.note code core n o) := by
  rw [State.note_eq]; exact Local.of_same rfl rfl rfl rfl rfl

theorem Local.noteForced {a : Agent} {gid wid cl : Nat} {tids : List Nat} (v : View) (s : State) : Local a gid wid cl tids s (noteForced v s) := by
  unfold Machine.noteForced; split
  · exact Local.note ..
  · exact Local.refl ..

theorem Local.noteIssue {a : Agent} {gid wid cl : Nat} {tids : List Nat} (cost : Nat) (s : State) : Local a gid wid cl tids s (noteIssue cost s) := by
  unfold Machine.noteIssue; split
  · exact (Local.note ..).trans (Local.note ..)
  · exact Local.refl ..

theorem Local.moveLane {a : Agent} {gid wid cl : Nat} {tids : List Nat} (s : State) : Local a gid wid cl tids s (moveLane s) := by
  unfold Machine.moveLane
  split
  · split
    · refine Local.updCluster s _ _ ?_ fun _ => rfl
      unfold clusterRest Cluster.updCore
      dsimp only
      congr 1
      rw [List.map_set]
      apply List.ext_getElem?
      intro i
      rw [List.getElem?_set]
      split
      · rename_i hi
        subst hi
        split
        · rename_i hl
          simp only [List.length_map] at hl
          simp [List.getElem?_map, List.getElem?_eq_getElem hl, Cluster.core, List.getD_eq_getElem?_getD]
        · rename_i hl
          simp only [List.length_map, Nat.not_lt] at hl
          simp [List.getElem?_eq_none hl]
      · rfl
    · exact Local.refl ..
  · exact Local.refl ..

theorem Local.rewatch {a : Agent} {wid cl : Nat} {tids : List Nat} (s : State) (gid : Nat) : Local a gid wid cl tids s (s.rewatch gid) :=
  Local.updGroup s _ (fun _ => rfl) (fun _ _ _ => rfl) fun _ _ _ => rfl

theorem Local.watchAgain {a : Agent} {wid cl : Nat} {tids : List Nat} (s : State) (gid pc : Nat) (l : List Nat) :
    Local a gid wid cl tids s (s.watchAgain gid pc l) :=
  Local.updGroup s _ (fun _ => rfl) (fun _ _ _ => rfl) fun _ _ _ => rfl

theorem Local.shrinkLooks {a : Agent} {gid wid cl : Nat} {tids : List Nat} (s : State) (g w : Nat) : Local a gid wid cl tids s (s.shrinkLooks g w) := by
  refine ⟨rfl, fun _ => rfl, fun _ _ => rfl, fun _ _ => rfl, fun _ _ => rfl, fun _ => rfl, fun _ _ => rfl, rfl, fun _ => rfl, ?_⟩
  unfold State.shrinkLooks
  rw [List.map_map]
  congr 1
  funext l
  dsimp only [Function.comp]
  split <;> rfl

theorem who_noteForced (v : View) (s : State) : who (noteForced v s) = who s := by
  unfold noteForced; split
  · rw [State.noteL1, State.note_eq]; rfl
  · rfl

theorem Local.endIssue {a : Agent} {cl : Nat} {tids : List Nat} (cost : Nat) (s : State) : Local a (who s).gid (who s).wid cl tids s (endIssue cost s) := by
  refine Local.trans (t := ((Machine.moveLane (Machine.noteIssue cost s)).pass (who s).die cost).rewatch (who s).gid) ?_ ?_
  · refine Local.trans ((Local.noteIssue cost s).trans (Local.moveLane _)) ?_
    refine Local.trans (t := (Machine.moveLane (Machine.noteIssue cost s)).pass (who s).die cost) ?_ (Local.rewatch ..)
    exact Local.of_same rfl rfl rfl rfl rfl
  · exact (Local.shrinkLooks _ (who s).gid (who s).wid).trans (Local.of_same rfl rfl rfl rfl rfl)

theorem who_watchAgain (s : State) (g pc : Nat) (l : List Nat) : (who (s.watchAgain g pc l)).gid = (who s).gid ∧ (who (s.watchAgain g pc l)).wid = (who s).wid := by
  unfold who
  rw [State.watchAgain_cur]
  cases s.cur.agent with
  | warp k w => dsimp only; cases (s.watchAgain g pc l).group? k <;> cases s.group? k <;> exact ⟨rfl, rfl⟩
  | _ => exact ⟨rfl, rfl⟩

theorem Local.retire {s : State} {v : View} (h : view s = some v) {cl : Nat} (x : Enc) (cost : Nat) :
    Local s.cur.agent (who s).gid (who s).wid cl (v.ths.map Thread.tid) s (retire x cost s) := by
  unfold Machine.retire
  rw [h]
  have h1 : view (Machine.noteForced v s) = some v := (view_noteForced v s).trans h
  have p := Local.putView (cl := cl) h1 (retireWarp s v cost) rfl (fun t => { t with pc := nextPc x s, lr := t.countLr, lastIssue := s.now + 1 }) fun _ => rfl
  rw [noteForced_cur, who_noteForced] at p
  refine (Local.noteForced v s).trans (p.trans ?_)
  refine (Local.watchAgain _ (who s).gid s.cur.pc.toNat (v.ths.map Thread.tid)).trans ?_
  have e := Local.endIssue (a := s.cur.agent) (cl := cl) (tids := v.ths.map Thread.tid) cost
    ((Machine.putView (Machine.noteForced v s) ⟨retireWarp s v cost, goOn (nextPc x s) s.now v.ths⟩).watchAgain (who s).gid s.cur.pc.toNat (v.ths.map Thread.tid))
  rw [(who_watchAgain _ _ _ _).1, (who_watchAgain _ _ _ _).2, who_putView, who_noteForced] at e
  exact e

theorem Local.keepsRest {s t : State} {v : View} (h : view s = some v) {cl : Nat} (k : Local s.cur.agent (who s).gid (who s).wid cl (v.ths.map Thread.tid) s t) :
    KeepsRest s t :=
  ⟨k.rest, k.group, k.others, by rw [viewOf_some h]; exact k.thread, k.warp, k.cluster, k.fore, k.mgmt, k.mgmtAll, k.loads⟩

theorem Local.finish {s : State} {v0 : View} (h : view s = some v0) {cl : Nat} (x : Enc) (cost : Nat) (wp : Warp) (hw : wp.wid = v0.warp.wid)
    (f : Thread → Thread) (hf : ∀ t, (f t).tid = t.tid) :
    Local s.cur.agent (who s).gid (who s).wid cl (v0.ths.map Thread.tid) s (finish x cost s ⟨wp, v0.ths.map f⟩) := by
  have r := Local.retire (cl := cl) (view_putView h wp hw f hf) x cost
  rw [who_putView, putView_cur] at r
  have e : (v0.ths.map f).map Thread.tid = v0.ths.map Thread.tid := by simp [List.map_map, Function.comp_def, hf]
  dsimp only at r
  rw [e] at r
  exact (Local.putView h wp hw f hf).trans r

/-- What `finish` does: the registers are those it was given, at the next PC, and nothing else changes. -/
theorem ends_finish {s : State} {v0 : View} (h : view s = some v0) (x : Enc) (cost : Nat) (wp : Warp) (hw : wp.wid = v0.warp.wid) (f : Thread → Thread)
    (hf : ∀ t, (f t).tid = t.tid) : Ends x s (finish x cost s ⟨wp, v0.ths.map f⟩) wp (v0.ths.map f) := by
  refine ⟨⟨?_, ?_⟩, (Local.finish (cl := 0) h x cost wp hw f hf).keepsRest h⟩
  · rw [after_finish h wp hw f hf]
  · rw [after_finish h wp hw f hf]; rfl

/-! ## Instructions that compute -/

theorem Thread.wrV_tid (t : Thread) (n : Nat) (v : Word32) : (t.wrV n v).tid = t.tid := rfl
@[simp] theorem Thread.wrOp_tid (t : Thread) (f : BitVec 8) (bits r : Nat) : (t.wrOp f bits r).tid = t.tid := by
  unfold Thread.wrOp; dsimp only; split <;> rfl
@[simp] theorem Thread.setFlag_tid (t : Thread) (f : Flags) : (t.setFlag f).tid = t.tid := rfl
@[simp] theorem Thread.wrP_tid (t : Thread) (n : Nat) (b : Bool) : (t.wrP n b).tid = t.tid := by
  unfold Thread.wrP; split <;> rfl
@[simp] theorem Thread.wrPf_tid (t : Thread) (n : BitVec 8) (b : Bool) : (t.wrPf n b).tid = t.tid := Thread.wrP_tid ..
@[simp] theorem Warp.wrS_wid (w : Warp) (i : Nat) (v : Word64) : (w.wrS i v).wid = w.wid := by
  unfold Warp.wrS; split <;> rfl

/-- The writes of `View.write` are those of some function of a thread, and of the warp. -/
theorem View.write_form (v : View) (x : Enc) (bits : Nat) (f : Warp → Thread → Nat × Flags) :
    (v.write x bits f).warp.wid = v.warp.wid ∧ ∃ g : Thread → Thread, (∀ t, (g t).tid = t.tid) ∧ (v.write x bits f).ths = v.ths.map g := by
  unfold View.write
  split
  · split
    · exact ⟨rfl, id, fun _ => rfl, by simp⟩
    · rename_i t _ _
      refine ⟨by simp [Warp.wrOp], fun u => if guardTrue x.w2 u then u.setFlag (f v.warp t).2 else u, fun u => ?_, rfl⟩
      dsimp only; split <;> rfl
  · refine ⟨rfl, fun t => if guardTrue x.w2 t then (t.wrOp x.d bits (f v.warp t).1).setFlag (f v.warp t).2 else t, fun t => ?_, rfl⟩
    dsimp only; split
    · simp
    · rfl

/-- `compute`, where the instruction may execute: D is written, nothing else changes. -/
theorem compute_ends {op : BitVec 8} {x : Enc} {s : State} (h : Enabled op x s) (bits : Nat) (f : Warp → Thread → Nat × Flags) :
    ∃ t, compute op x s bits f = .next t ∧ Ends x s t ((viewOf s).write x bits f).warp ((viewOf s).write x bits f).ths := by
  refine ⟨_, issue_of_enabled h _, ?_⟩
  obtain ⟨hw, g, hg, he⟩ := View.write_form (viewOf s) x bits f
  have hv : (viewOf s).write x bits f = ⟨((viewOf s).write x bits f).warp, (viewOf s).ths.map g⟩ := by rw [← he]
  rw [hv]
  exact ends_finish (view_of_enabled h) x _ _ hw g hg

/-- `computeP`, where the instruction may execute. -/
theorem computeP_ends {op : BitVec 8} {x : Enc} {s : State} (h : Enabled op x s) (f : Warp → Thread → Bool × Flags) :
    ∃ t, computeP op x s f = .next t ∧ Ends x s t (viewOf s).warp
      ((viewOf s).ths.map fun u => if guardTrue x.w2 u then (u.wrPf x.d (f (viewOf s).warp u).1).setFlag (f (viewOf s).warp u).2 else u) := by
  refine ⟨_, issue_of_enabled h _, ?_⟩
  exact ends_finish (view_of_enabled h) x _ (viewOf s).warp rfl _ fun t => by dsimp only; split <;> simp

end Sys2Proof.Machine
end

