-- ==== Sys2Proof/Laws/Memory.lean ====
section
/-!
SUPPORT. Finite maps and memory: what is read after a write, and that every operation on memory, descriptors and execute tags keeps the canonical
form.
-/
namespace Sys2Proof.Machine
open Sys2Proof

/-! ## Finite maps -/

theorem SMap.rising_cons {α : Type} {k : Nat} {v : α} {m : SMap α} :
    SMap.rising ((k, v) :: m) = true ↔ (∀ p ∈ m, k < p.1) ∧ SMap.rising m = true := by
  induction m generalizing k v with
  | nil => simp [SMap.rising]
  | cons q m ih =>
    obtain ⟨l, w⟩ := q
    simp only [SMap.rising, Bool.and_eq_true, decide_eq_true_eq, List.mem_cons, forall_eq_or_imp]
    rw [ih]
    constructor
    · rintro ⟨h1, h2, h3⟩
      exact ⟨⟨h1, fun p hp => Nat.lt_trans h1 (h2 p hp)⟩, h2, h3⟩
    · rintro ⟨⟨h1, -⟩, h2, h3⟩
      exact ⟨h1, h2, h3⟩

theorem SMap.mem_insert {α : Type} {m : SMap α} {i : Nat} {v : α} {p : Nat × α} (h : p ∈ m.insert i v) : p = (i, v) ∨ p ∈ m := by
  induction m with
  | nil => simpa [SMap.insert] using h
  | cons q m ih =>
    obtain ⟨k, w⟩ := q
    simp only [SMap.insert] at h
    split at h
    · simpa using h
    · split at h
      · rcases List.mem_cons.1 h with h | h
        · exact .inl h
        · exact .inr (List.mem_cons_of_mem _ h)
      · rcases List.mem_cons.1 h with h | h
        · exact .inr (h ▸ List.mem_cons_self)
        · exact (ih h).imp_right (List.mem_cons_of_mem _)

theorem SMap.mem_erase {α : Type} {m : SMap α} {i : Nat} {p : Nat × α} (h : p ∈ m.erase i) : p ∈ m := by
  induction m with
  | nil => simp [SMap.erase] at h
  | cons q m ih =>
    obtain ⟨k, w⟩ := q
    simp only [SMap.erase] at h
    split at h
    · exact List.mem_cons_of_mem _ h
    · rcases List.mem_cons.1 h with h | h
      · exact h ▸ List.mem_cons_self
      · exact List.mem_cons_of_mem _ (ih h)

theorem SMap.rising_insert {α : Type} {m : SMap α} (i : Nat) (v : α) (h : m.rising = true) : (m.insert i v).rising = true := by
  induction m with
  | nil => rfl
  | cons q m ih =>
    obtain ⟨k, w⟩ := q
    obtain ⟨h1, h2⟩ := SMap.rising_cons.1 h
    simp only [SMap.insert]
    split
    · rename_i hik
      refine SMap.rising_cons.2 ⟨?_, h⟩
      simp only [List.mem_cons, forall_eq_or_imp]
      exact ⟨hik, fun p hp => Nat.lt_trans hik (h1 p hp)⟩
    · split
      · rename_i hik; subst hik; exact SMap.rising_cons.2 ⟨h1, h2⟩
      · refine SMap.rising_cons.2 ⟨fun p hp => ?_, ih h2⟩
        rcases SMap.mem_insert hp with rfl | hp
        · show k < i; omega
        · exact h1 p hp

theorem SMap.rising_erase {α : Type} {m : SMap α} (i : Nat) (h : m.rising = true) : (m.erase i).rising = true := by
  induction m with
  | nil => rfl
  | cons q m ih =>
    obtain ⟨k, w⟩ := q
    obtain ⟨h1, h2⟩ := SMap.rising_cons.1 h
    simp only [SMap.erase]
    split
    · exact h2
    · exact SMap.rising_cons.2 ⟨fun p hp => h1 p (SMap.mem_erase hp), ih h2⟩

theorem SMap.rising_filter {α : Type} {m : SMap α} (f : Nat × α → Bool) (h : m.rising = true) : SMap.rising (m.filter f) = true := by
  induction m with
  | nil => rfl
  | cons q m ih =>
    obtain ⟨k, w⟩ := q
    obtain ⟨h1, h2⟩ := SMap.rising_cons.1 h
    rw [List.filter_cons]
    split
    · exact SMap.rising_cons.2 ⟨fun p hp => h1 p (List.mem_filter.1 hp).1, ih h2⟩
    · exact ih h2

theorem SMap.wf_iff {α : Type} [DecidableEq α] {d : α} {m : SMap α} : SMap.wf d m = true ↔ m.rising = true ∧ ∀ p ∈ m, p.2 ≠ d := by
  simp [SMap.wf]

theorem SMap.wf_insert {α : Type} [DecidableEq α] {d : α} {m : SMap α} (i : Nat) {v : α} (hv : v ≠ d) (h : SMap.wf d m = true) :
    SMap.wf d (m.insert i v) = true := by
  rw [SMap.wf_iff] at h ⊢
  refine ⟨SMap.rising_insert i v h.1, fun p hp => ?_⟩
  rcases SMap.mem_insert hp with rfl | hp
  · exact hv
  · exact h.2 p hp

theorem SMap.wf_erase {α : Type} [DecidableEq α] {d : α} {m : SMap α} (i : Nat) (h : SMap.wf d m = true) : SMap.wf d (m.erase i) = true := by
  rw [SMap.wf_iff] at h ⊢
  exact ⟨SMap.rising_erase i h.1, fun p hp => h.2 p (SMap.mem_erase hp)⟩

theorem SMap.wf_setD {α : Type} [DecidableEq α] {d : α} {m : SMap α} (i : Nat) (v : α) (h : SMap.wf d m = true) : SMap.wf d (m.setD d i v) = true := by
  unfold SMap.setD
  split
  · exact SMap.wf_erase i h
  · rename_i hv; exact SMap.wf_insert i hv h

theorem SMap.wf_filter {α : Type} [DecidableEq α] {d : α} {m : SMap α} (f : Nat × α → Bool) (h : SMap.wf d m = true) :
    SMap.wf d (m.filter f) = true := by
  rw [SMap.wf_iff] at h ⊢
  exact ⟨SMap.rising_filter f h.1, fun p hp => h.2 p (List.mem_filter.1 hp).1⟩

theorem SMap.wf_foldl_insert {α : Type} [DecidableEq α] {d : α} (key : Nat → Nat) (l : List (Nat × α)) (hl : ∀ p ∈ l, p.2 ≠ d) {m : SMap α}
    (h : SMap.wf d m = true) : SMap.wf d (l.foldl (fun m p => SMap.insert m (key p.1) p.2) m) = true := by
  induction l generalizing m with
  | nil => exact h
  | cons q l ih => exact ih (fun p hp => hl p (List.mem_cons_of_mem _ hp)) (SMap.wf_insert _ (hl q List.mem_cons_self) h)

/-- What a move of keys leaves in canonical form. -/
theorem SMap.wf_moveKeys {α : Type} [DecidableEq α] {d : α} {m : SMap α} (src dst n : Nat) (h : SMap.wf d m = true) :
    SMap.wf d (SMap.moveKeys m src dst n) = true :=
  SMap.wf_foldl_insert (fun k => k - src + dst) _ (fun p hp => (SMap.wf_iff.1 h).2 p (List.mem_filter.1 hp).1) (SMap.wf_filter _ h)

theorem SMap.find?_eq_none {α : Type} {m : SMap α} {i : Nat} (h : ∀ p ∈ m, p.1 ≠ i) : m.find? i = none := by
  induction m with
  | nil => rfl
  | cons q m ih =>
    obtain ⟨k, w⟩ := q
    simp only [SMap.find?]
    rw [if_neg (h (k, w) List.mem_cons_self)]
    exact ih fun p hp => h p (List.mem_cons_of_mem _ hp)

theorem SMap.find?_erase_self {α : Type} {m : SMap α} (i : Nat) (h : m.rising = true) : (m.erase i).find? i = none := by
  induction m with
  | nil => rfl
  | cons q m ih =>
    obtain ⟨k, w⟩ := q
    obtain ⟨h1, h2⟩ := SMap.rising_cons.1 h
    simp only [SMap.erase]
    split
    · rename_i hik; subst hik
      exact SMap.find?_eq_none fun p hp => Nat.ne_of_gt (h1 p hp)
    · rename_i hik
      simp only [SMap.find?]
      rw [if_neg (Ne.symm hik)]
      exact ih h2

theorem SMap.find?_erase_ne {α : Type} (m : SMap α) {i j : Nat} (h : j ≠ i) : (m.erase i).find? j = m.find? j := by
  induction m with
  | nil => rfl
  | cons q m ih =>
    obtain ⟨k, w⟩ := q
    simp only [SMap.erase]
    split
    · rename_i hik; subst hik; simp [SMap.find?, Ne.symm h]
    · simp [SMap.find?, ih]

/-- A value set is the value read; every other key reads as before. -/
theorem SMap.getD_setD_self {α : Type} [DecidableEq α] (d : α) {m : SMap α} (i : Nat) (v : α) (h : m.rising = true) : (m.setD d i v).getD d i = v := by
  unfold SMap.setD SMap.getD
  split
  · rename_i hv; subst hv; rw [SMap.find?_erase_self i h]; rfl
  · rw [SMap.find?_insert_self]; rfl

theorem SMap.getD_setD_ne {α : Type} [DecidableEq α] (d : α) (m : SMap α) {i j : Nat} (v : α) (h : j ≠ i) : (m.setD d i v).getD d j = m.getD d j := by
  unfold SMap.setD SMap.getD
  split
  · rw [SMap.find?_erase_ne m h]
  · rw [SMap.find?_insert_ne m v h]

/-! ## Bytes of memory -/

@[simp] theorem State.fwd_wrByte (s : State) (a : Nat) (b : Byte) (c : Nat) : (s.wrByte a b).fwd c = s.fwd c := rfl

theorem State.rdByte_wrByte_self (s : State) (a : Nat) (b : Byte) (h : Memory.wf s.mem) : (s.wrByte a b).rdByte a = b :=
  SMap.getD_setD_self (0 : Byte) _ b (SMap.wf_iff.1 h).1

theorem State.rdByte_wrByte_ne (s : State) {a c : Nat} (b : Byte) (h : s.fwd c ≠ s.fwd a) : (s.wrByte a b).rdByte c = s.rdByte c :=
  SMap.getD_setD_ne (0 : Byte) s.mem b h

theorem State.wf_wrByte (s : State) (a : Nat) (b : Byte) (h : Memory.wf s.mem) : Memory.wf (s.wrByte a b).mem := SMap.wf_setD _ _ h

theorem State.wrCells_cons (s : State) (c : Nat × Byte) (cs : List (Nat × Byte)) : s.wrCells (c :: cs) = (s.wrByte c.1 c.2).wrCells cs := rfl

theorem State.wf_wrCells (s : State) (cs : List (Nat × Byte)) (h : Memory.wf s.mem) : Memory.wf (s.wrCells cs).mem := by
  induction cs generalizing s with
  | nil => exact h
  | cons c cs ih => exact ih _ (State.wf_wrByte s _ _ h)

/-- Writing bytes changes nothing but memory. -/
theorem State.wrCells_eq (s : State) (cs : List (Nat × Byte)) : s.wrCells cs = { s with mem := (s.wrCells cs).mem } := by
  induction cs generalizing s with
  | nil => rfl
  | cons c cs ih => rw [State.wrCells_cons, ih]; rfl

@[simp] theorem State.wrCells_desc (s : State) (cs : List (Nat × Byte)) : (s.wrCells cs).desc = s.desc := by rw [State.wrCells_eq]
@[simp] theorem State.wrCells_tags (s : State) (cs : List (Nat × Byte)) : (s.wrCells cs).tags = s.tags := by rw [State.wrCells_eq]
@[simp] theorem State.wrCells_groups (s : State) (cs : List (Nat × Byte)) : (s.wrCells cs).groups = s.groups := by rw [State.wrCells_eq]
@[simp] theorem State.wrCells_clusters (s : State) (cs : List (Nat × Byte)) : (s.wrCells cs).clusters = s.clusters := by rw [State.wrCells_eq]

end Sys2Proof.Machine

namespace Sys2Proof
open Machine

/-! ## Every operation keeps the canonical form -/

/-- Only memory, descriptors and tags are asked about. -/
theorem Canonical.congr {s t : State} (h : Canonical s) (h1 : t.mem = s.mem) (h2 : t.desc = s.desc) (h3 : t.tags = s.tags) : Canonical t := by
  unfold Canonical; rw [h1, h2, h3]; exact h

theorem Canonical.reset : Canonical State.reset := ⟨rfl, rfl, rfl⟩

theorem Canonical.wrByte {s : State} (h : Canonical s) (a : Nat) (b : Byte) : Canonical (s.wrByte a b) := ⟨State.wf_wrByte s a b h.1, h.2⟩

theorem Canonical.wrCells {s : State} (h : Canonical s) (cs : List (Nat × Byte)) : Canonical (s.wrCells cs) := by
  refine ⟨State.wf_wrCells s cs h.1, ?_⟩
  rw [State.wrCells_desc, State.wrCells_tags]; exact h.2

theorem Canonical.setDesc {s : State} (h : Canonical s) (pa : Nat) (d : BitVec 16) : Canonical (s.setDesc pa d) := by
  unfold State.setDesc
  split
  · exact ⟨h.1, SMap.wf_setD _ _ h.2.1, h.2.2⟩
  · exact h

theorem Canonical.clearTag {s : State} (h : Canonical s) (pa : Nat) : Canonical (s.clearTag pa) := ⟨h.1, h.2.1, SMap.rising_erase _ h.2.2⟩

theorem Canonical.setPoison {s : State} (h : Canonical s) (b : Nat) : Canonical (s.setPoison b) := by
  unfold State.setPoison; split
  · exact h
  · exact h

theorem Canonical.clearPoison {s : State} (h : Canonical s) (pa : Nat) : Canonical (s.clearPoison pa) := h

theorem Canonical.setCarry {s : State} (h : Canonical s) (cs : List (Nat × Byte)) (p : Option (BitVec 24)) : Canonical (s.setCarry cs p) := h

theorem Canonical.loseResv {s : State} (h : Canonical s) (b : Nat) : Canonical (s.loseResv b) := by
  unfold State.loseResv; split
  · exact h
  · exact h

theorem Canonical.updGroup {s : State} (h : Canonical s) (g : Nat) (f : Group → Group) : Canonical (s.updGroup g f) := h.congr rfl rfl rfl
theorem Canonical.updCluster {s : State} (h : Canonical s) (c : Nat) (f : Cluster → Cluster) : Canonical (s.updCluster c f) := h.congr rfl rfl rfl

theorem Canonical.touch {s : State} (h : Canonical s) (ctx pa : Nat) : Canonical (s.touch ctx pa) := by
  unfold State.touch
  split
  · dsimp only
    split
    · exact h
    · exact h
  · exact h

theorem Canonical.winPut {s : State} (h : Canonical s) (place : Nat) (cs : List (Nat × Byte)) (da : DescAct) : Canonical (s.winPut place cs da) := by
  unfold State.winPut
  split
  · dsimp only
    split
    · exact h.updGroup _ _
    · exact h
  · exact h

theorem Canonical.putScr {s : State} (h : Canonical s) (gid blk : Nat) (cs : List (Nat × Byte)) (da : DescAct) : Canonical (s.putScr gid blk cs da) := by
  have h1 := h.updGroup gid fun g => { g with scr := g.scr.put blk cs da }
  unfold State.putScr
  dsimp only
  split
  · have h2 := h1.wrCells
    split <;> split
    all_goals first
      | exact ((h2 _).clearPoison _).setDesc _ _
      | exact (h2 _).setDesc _ _
      | exact (h2 _).clearPoison _
      | exact h2 _
  · exact h1

/-- Bytes of one block that reach its home. -/
theorem Canonical.homePut {s : State} (h : Canonical s) (place : Nat) (cs : List (Nat × Byte)) (da : DescAct) : Canonical (s.homePut place cs da) := by
  unfold State.homePut
  split
  · exact h
  · dsimp only
    have h1 : Canonical (if cs.isEmpty then s else s.clearTag place) := by
      split
      · exact h
      · exact h.clearTag _
    generalize (if cs.isEmpty then s else s.clearTag place) = s1 at h1 ⊢
    have h2 : Canonical (if coversBlock cs then s1.clearPoison place else s1) := by
      split
      · exact h1.clearPoison _
      · exact h1
    generalize (if coversBlock cs then s1.clearPoison place else s1) = s2 at h2 ⊢
    have h3 := (h2.winPut place cs da).wrCells cs
    split
    · exact h3.setDesc _ _
    · exact h3.setDesc _ _
    · exact h3

theorem Canonical.homeWrite {s : State} (h : Canonical s) (place : Nat) (cs : List (Nat × Byte)) (da : DescAct) (pts : Option (BitVec 24)) :
    Canonical (s.homeWrite place cs da pts) := by
  unfold State.homeWrite
  split
  · exact h
  · refine Canonical.homePut ?_ _ _ _
    split
    · exact h
    · exact (h.loseResv _).setCarry _ _

theorem Canonical.moveChunk {s : State} (h : Canonical s) (src dst : Nat) : Canonical (s.moveChunk src dst) :=
  ⟨SMap.wf_moveKeys _ _ _ h.1, SMap.wf_moveKeys _ _ _ h.2.1, SMap.rising_erase _ h.2.2⟩

/-- What erasing a region filters out. -/
theorem Canonical.filter {s : State} (h : Canonical s) (f : Nat × Byte → Bool) (g : Nat × BitVec 16 → Bool) (k : Nat × Nat → Bool) :
    Canonical { s with mem := s.mem.filter f, desc := s.desc.filter g, tags := s.tags.filter k } :=
  ⟨SMap.wf_filter _ h.1, SMap.wf_filter _ h.2.1, SMap.rising_filter _ h.2.2⟩

end Sys2Proof

namespace Sys2Proof.Machine
open Sys2Proof

/-! ## A record read as a load -/

/-- What `readRecord` does where a record is read: it goes on with the record, in the state after the read. -/
theorem readRecord_of_read {s : State} {u : Thread} {va : BitVec 64} {size align rec : Nat} {s1 : State} (h : RecordRead s u va size align rec s1)
    (x : Enc) (k : Nat → State → State) : readRecord x s (viewOf s) u va size align k = k rec s1 := by
  obtain ⟨as, h1, ⟨g, gs, h2, h3, h4, rfl⟩ | ⟨a, ha, hi, rfl, hg⟩⟩ := h
  · have hf : as.find? (fun a => a.fab.isSome) = none := by
      rw [List.find?_eq_none]; intro a ha; simp [(h2 a ha).1]
    have hp : as.find? (fun a => s.poisonedAt a.pa) = none := by
      rw [List.find?_eq_none]; intro a ha; simp [(h2 a ha).2]
    simp only [readRecord, h1, hf]
    rw [if_neg (by simpa using h3), hp]
    simp only [h4]
  · obtain ⟨b, hb⟩ : ∃ b, as.find? (fun a => a.fab.isSome) = some b :=
      Option.isSome_iff_exists.mp (List.find?_isSome.mpr ⟨a, ha, hi⟩)
    simp only [readRecord, h1, hb, hg]

end Sys2Proof.Machine
end

