-- ==== Sys2Proof/Laws/PerInstr.lean ====
section
/-!
SUPPORT. Facts of every instruction, constructor by constructor. Family Opcode: the opcode of an instruction is one that R214 assigns; an event has none.
-/
namespace Sys2Proof.Laws.Opcode
open Sys2Proof

/-- The instruction's opcode is assigned by R214. -/
def Statement (i : Instr) : Prop := ∀ p, i.parts = some p → opAssigned p.1.toNat = true

theorem of_parts {i : Instr} {op : BitVec 8} {x : Enc} (h : i.parts = some (op, x)) (ho : opAssigned op.toNat = true) : Statement i := by
  intro p hp; rw [h] at hp; cases hp; exact ho

theorem of_none {i : Instr} (h : i.parts = none) : Statement i := by
  intro p hp; rw [h] at hp; cases hp

theorem nop (x : Enc) : Statement (.nop x) := of_parts rfl (by decide)
theorem bra (x : Enc) : Statement (.bra x) := of_parts rfl (by decide)
theorem brx (x : Enc) : Statement (.brx x) := of_parts rfl (by decide)
theorem call (x : Enc) : Statement (.call x) := of_parts rfl (by decide)
theorem ret (x : Enc) : Statement (.ret x) := of_parts rfl (by decide)
theorem exit (x : Enc) : Statement (.exit x) := of_parts rfl (by decide)
theorem reform (x : Enc) : Statement (.reform x) := of_parts rfl (by decide)
theorem yield (x : Enc) : Statement (.yield x) := of_parts rfl (by decide)
theorem trap (x : Enc) : Statement (.trap x) := of_parts rfl (by decide)
theorem bkpt (x : Enc) : Statement (.bkpt x) := of_parts rfl (by decide)
theorem syscall (x : Enc) : Statement (.syscall x) := of_parts rfl (by decide)
theorem wsync (x : Enc) : Statement (.wsync x) := of_parts rfl (by decide)
theorem sread (x : Enc) : Statement (.sread x) := of_parts rfl (by decide)
theorem swrite (x : Enc) : Statement (.swrite x) := of_parts rfl (by decide)
theorem clock (x : Enc) : Statement (.clock x) := of_parts rfl (by decide)
theorem iadd (x : Enc) : Statement (.iadd x) := of_parts rfl (by decide)
theorem isub (x : Enc) : Statement (.isub x) := of_parts rfl (by decide)
theorem imul (x : Enc) : Statement (.imul x) := of_parts rfl (by decide)
theorem imulh (x : Enc) : Statement (.imulh x) := of_parts rfl (by decide)
theorem imad (x : Enc) : Statement (.imad x) := of_parts rfl (by decide)
theorem imadw (x : Enc) : Statement (.imadw x) := of_parts rfl (by decide)
theorem idiv (x : Enc) : Statement (.idiv x) := of_parts rfl (by decide)
theorem irem (x : Enc) : Statement (.irem x) := of_parts rfl (by decide)
theorem ineg (x : Enc) : Statement (.ineg x) := of_parts rfl (by decide)
theorem iabs (x : Enc) : Statement (.iabs x) := of_parts rfl (by decide)
theorem imin (x : Enc) : Statement (.imin x) := of_parts rfl (by decide)
theorem imax (x : Enc) : Statement (.imax x) := of_parts rfl (by decide)
theorem icmp (x : Enc) : Statement (.icmp x) := of_parts rfl (by decide)
theorem isel (x : Enc) : Statement (.isel x) := of_parts rfl (by decide)
theorem iaddc (x : Enc) : Statement (.iaddc x) := of_parts rfl (by decide)
theorem lea (x : Enc) : Statement (.lea x) := of_parts rfl (by decide)
theorem andI (x : Enc) : Statement (.andI x) := of_parts rfl (by decide)
theorem orI (x : Enc) : Statement (.orI x) := of_parts rfl (by decide)
theorem xorI (x : Enc) : Statement (.xorI x) := of_parts rfl (by decide)
theorem andn (x : Enc) : Statement (.andn x) := of_parts rfl (by decide)
theorem notI (x : Enc) : Statement (.notI x) := of_parts rfl (by decide)
theorem shl (x : Enc) : Statement (.shl x) := of_parts rfl (by decide)
theorem shr (x : Enc) : Statement (.shr x) := of_parts rfl (by decide)
theorem sar (x : Enc) : Statement (.sar x) := of_parts rfl (by decide)
theorem rot (x : Enc) : Statement (.rot x) := of_parts rfl (by decide)
theorem bfx (x : Enc) : Statement (.bfx x) := of_parts rfl (by decide)
theorem bfi (x : Enc) : Statement (.bfi x) := of_parts rfl (by decide)
theorem popc (x : Enc) : Statement (.popc x) := of_parts rfl (by decide)
theorem clz (x : Enc) : Statement (.clz x) := of_parts rfl (by decide)
theorem ctz (x : Enc) : Statement (.ctz x) := of_parts rfl (by decide)
theorem brev (x : Enc) : Statement (.brev x) := of_parts rfl (by decide)
theorem mov (x : Enc) : Statement (.mov x) := of_parts rfl (by decide)
theorem fadd (x : Enc) : Statement (.fadd x) := of_parts rfl (by decide)
theorem fsub (x : Enc) : Statement (.fsub x) := of_parts rfl (by decide)
theorem fmul (x : Enc) : Statement (.fmul x) := of_parts rfl (by decide)
theorem ffma (x : Enc) : Statement (.ffma x) := of_parts rfl (by decide)
theorem fmin (x : Enc) : Statement (.fmin x) := of_parts rfl (by decide)
theorem fmax (x : Enc) : Statement (.fmax x) := of_parts rfl (by decide)
theorem fabs (x : Enc) : Statement (.fabs x) := of_parts rfl (by decide)
theorem fneg (x : Enc) : Statement (.fneg x) := of_parts rfl (by decide)
theorem fcmp (x : Enc) : Statement (.fcmp x) := of_parts rfl (by decide)
theorem frnd (x : Enc) : Statement (.frnd x) := of_parts rfl (by decide)
theorem fclass (x : Enc) : Statement (.fclass x) := of_parts rfl (by decide)
theorem fdiv (x : Enc) : Statement (.fdiv x) := of_parts rfl (by decide)
theorem fsqrt (x : Enc) : Statement (.fsqrt x) := of_parts rfl (by decide)
theorem frcp (x : Enc) : Statement (.frcp x) := of_parts rfl (by decide)
theorem frsq (x : Enc) : Statement (.frsq x) := of_parts rfl (by decide)
theorem fexp2 (x : Enc) : Statement (.fexp2 x) := of_parts rfl (by decide)
theorem flog2 (x : Enc) : Statement (.flog2 x) := of_parts rfl (by decide)
theorem fsin (x : Enc) : Statement (.fsin x) := of_parts rfl (by decide)
theorem fcos (x : Enc) : Statement (.fcos x) := of_parts rfl (by decide)
theorem ftanh (x : Enc) : Statement (.ftanh x) := of_parts rfl (by decide)
theorem fsigm (x : Enc) : Statement (.fsigm x) := of_parts rfl (by decide)
theorem fdot2 (x : Enc) : Statement (.fdot2 x) := of_parts rfl (by decide)
theorem fscale (x : Enc) : Statement (.fscale x) := of_parts rfl (by decide)
theorem cvt (x : Enc) : Statement (.cvt x) := of_parts rfl (by decide)
theorem qpack (x : Enc) : Statement (.qpack x) := of_parts rfl (by decide)
theorem qunpk (x : Enc) : Statement (.qunpk x) := of_parts rfl (by decide)
theorem qscale (x : Enc) : Statement (.qscale x) := of_parts rfl (by decide)
theorem shfl (x : Enc) : Statement (.shfl x) := of_parts rfl (by decide)
theorem pushx (x : Enc) : Statement (.pushx x) := of_parts rfl (by decide)
theorem redx (x : Enc) : Statement (.redx x) := of_parts rfl (by decide)
theorem scanx (x : Enc) : Statement (.scanx x) := of_parts rfl (by decide)
theorem ballot (x : Enc) : Statement (.ballot x) := of_parts rfl (by decide)
theorem vote (x : Enc) : Statement (.vote x) := of_parts rfl (by decide)
theorem matchI (x : Enc) : Statement (.matchI x) := of_parts rfl (by decide)
theorem pset (x : Enc) : Statement (.pset x) := of_parts rfl (by decide)
theorem plop (x : Enc) : Statement (.plop x) := of_parts rfl (by decide)
theorem pmovGet (x : Enc) : Statement (.pmovGet x) := of_parts rfl (by decide)
theorem pmovPut (x : Enc) : Statement (.pmovPut x) := of_parts rfl (by decide)
theorem ld (x : Enc) : Statement (.ld x) := of_parts rfl (by decide)
theorem ldw (x : Enc) : Statement (.ldw x) := of_parts rfl (by decide)
theorem lds (x : Enc) : Statement (.lds x) := of_parts rfl (by decide)
theorem ldk (x : Enc) : Statement (.ldk x) := of_parts rfl (by decide)
theorem st (x : Enc) : Statement (.st x) := of_parts rfl (by decide)
theorem stw (x : Enc) : Statement (.stw x) := of_parts rfl (by decide)
theorem sts (x : Enc) : Statement (.sts x) := of_parts rfl (by decide)
theorem stm (x : Enc) : Statement (.stm x) := of_parts rfl (by decide)
theorem atom (x : Enc) : Statement (.atom x) := of_parts rfl (by decide)
theorem atoms (x : Enc) : Statement (.atoms x) := of_parts rfl (by decide)
theorem atomp (x : Enc) : Statement (.atomp x) := of_parts rfl (by decide)
theorem lr (x : Enc) : Statement (.lr x) := of_parts rfl (by decide)
theorem sc (x : Enc) : Statement (.sc x) := of_parts rfl (by decide)
theorem pref (x : Enc) : Statement (.pref x) := of_parts rfl (by decide)
theorem cflush (x : Enc) : Statement (.cflush x) := of_parts rfl (by decide)
theorem cinvLine (x : Enc) : Statement (.cinvLine x) := of_parts rfl (by decide)
theorem cinvAll (x : Enc) : Statement (.cinvAll x) := of_parts rfl (by decide)
theorem dget (x : Enc) : Statement (.dget x) := of_parts rfl (by decide)
theorem dset (x : Enc) : Statement (.dset x) := of_parts rfl (by decide)
theorem ldb (x : Enc) : Statement (.ldb x) := of_parts rfl (by decide)
theorem fence (x : Enc) : Statement (.fence x) := of_parts rfl (by decide)
theorem chjoin (x : Enc) : Statement (.chjoin x) := of_parts rfl (by decide)
theorem chdrain (x : Enc) : Statement (.chdrain x) := of_parts rfl (by decide)
theorem chstat (x : Enc) : Statement (.chstat x) := of_parts rfl (by decide)
theorem bar (x : Enc) : Statement (.bar x) := of_parts rfl (by decide)
theorem gbar (x : Enc) : Statement (.gbar x) := of_parts rfl (by decide)
theorem tbinit (x : Enc) : Statement (.tbinit x) := of_parts rfl (by decide)
theorem tbexp (x : Enc) : Statement (.tbexp x) := of_parts rfl (by decide)
theorem tbarv (x : Enc) : Statement (.tbarv x) := of_parts rfl (by decide)
theorem tbwait (x : Enc) : Statement (.tbwait x) := of_parts rfl (by decide)
theorem rstat (x : Enc) : Statement (.rstat x) := of_parts rfl (by decide)
theorem rstatPeek (x : Enc) : Statement (.rstatPeek x) := of_parts rfl (by decide)
theorem tmake (x : Enc) : Statement (.tmake x) := of_parts rfl (by decide)
theorem tfree (x : Enc) : Statement (.tfree x) := of_parts rfl (by decide)
theorem tclaimRd (x : Enc) : Statement (.tclaimRd x) := of_parts rfl (by decide)
theorem tclaimWr (x : Enc) : Statement (.tclaimWr x) := of_parts rfl (by decide)
theorem tdrop (x : Enc) : Statement (.tdrop x) := of_parts rfl (by decide)
theorem tsplit (x : Enc) : Statement (.tsplit x) := of_parts rfl (by decide)
theorem tinfo (x : Enc) : Statement (.tinfo x) := of_parts rfl (by decide)
theorem wset (x : Enc) : Statement (.wset x) := of_parts rfl (by decide)
theorem wclr (x : Enc) : Statement (.wclr x) := of_parts rfl (by decide)
theorem wstat (x : Enc) : Statement (.wstat x) := of_parts rfl (by decide)
theorem cpy (x : Enc) : Statement (.cpy x) := of_parts rfl (by decide)
theorem cpyl (x : Enc) : Statement (.cpyl x) := of_parts rfl (by decide)
theorem cpym (x : Enc) : Statement (.cpym x) := of_parts rfl (by decide)
theorem gslotT (x : Enc) : Statement (.gslotT x) := of_parts rfl (by decide)
theorem gslotF (x : Enc) : Statement (.gslotF x) := of_parts rfl (by decide)
theorem gslotU (x : Enc) : Statement (.gslotU x) := of_parts rfl (by decide)
theorem gslotP (x : Enc) : Statement (.gslotP x) := of_parts rfl (by decide)
theorem mma (x : Enc) : Statement (.mma x) := of_parts rfl (by decide)
theorem aringOpen (x : Enc) : Statement (.aringOpen x) := of_parts rfl (by decide)
theorem aringSeal (x : Enc) : Statement (.aringSeal x) := of_parts rfl (by decide)
theorem aringDrop (x : Enc) : Statement (.aringDrop x) := of_parts rfl (by decide)
theorem epi (x : Enc) : Statement (.epi x) := of_parts rfl (by decide)
theorem apeek (x : Enc) : Statement (.apeek x) := of_parts rfl (by decide)
theorem apatch (x : Enc) : Statement (.apatch x) := of_parts rfl (by decide)
theorem mstatSlot (x : Enc) : Statement (.mstatSlot x) := of_parts rfl (by decide)
theorem mstatTab (x : Enc) : Statement (.mstatTab x) := of_parts rfl (by decide)
theorem tenq (x : Enc) : Statement (.tenq x) := of_parts rfl (by decide)
theorem tdone (x : Enc) : Statement (.tdone x) := of_parts rfl (by decide)
theorem gpost (x : Enc) : Statement (.gpost x) := of_parts rfl (by decide)
theorem evpost (x : Enc) : Statement (.evpost x) := of_parts rfl (by decide)
theorem evread (x : Enc) : Statement (.evread x) := of_parts rfl (by decide)
theorem evreadNb (x : Enc) : Statement (.evreadNb x) := of_parts rfl (by decide)
theorem trel (x : Enc) : Statement (.trel x) := of_parts rfl (by decide)
theorem ainvAll (x : Enc) : Statement (.ainvAll x) := of_parts rfl (by decide)
theorem ainvMeas (x : Enc) : Statement (.ainvMeas x) := of_parts rfl (by decide)
theorem gresume (x : Enc) : Statement (.gresume x) := of_parts rfl (by decide)
theorem gkill (x : Enc) : Statement (.gkill x) := of_parts rfl (by decide)
theorem prds (x : Enc) : Statement (.prds x) := of_parts rfl (by decide)
theorem pwrs (x : Enc) : Statement (.pwrs x) := of_parts rfl (by decide)
theorem pwrsKsvcrd (x : Enc) : Statement (.pwrsKsvcrd x) := of_parts rfl (by decide)
theorem pwrsKsvcarm (x : Enc) : Statement (.pwrsKsvcarm x) := of_parts rfl (by decide)
theorem ctxcreate (x : Enc) : Statement (.ctxcreate x) := of_parts rfl (by decide)
theorem ctxupdate (x : Enc) : Statement (.ctxupdate x) := of_parts rfl (by decide)
theorem ctxread (x : Enc) : Statement (.ctxread x) := of_parts rfl (by decide)
theorem ctxdestroy (x : Enc) : Statement (.ctxdestroy x) := of_parts rfl (by decide)
theorem partcreate (x : Enc) : Statement (.partcreate x) := of_parts rfl (by decide)
theorem partupdate (x : Enc) : Statement (.partupdate x) := of_parts rfl (by decide)
theorem partread (x : Enc) : Statement (.partread x) := of_parts rfl (by decide)
theorem partdestroy (x : Enc) : Statement (.partdestroy x) := of_parts rfl (by decide)
theorem iret (x : Enc) : Statement (.iret x) := of_parts rfl (by decide)
theorem park (x : Enc) : Statement (.park x) := of_parts rfl (by decide)
theorem unparkR (x : Enc) : Statement (.unparkR x) := of_parts rfl (by decide)
theorem unparkK (x : Enc) : Statement (.unparkK x) := of_parts rfl (by decide)
theorem vsave (x : Enc) : Statement (.vsave x) := of_parts rfl (by decide)
theorem vload (x : Enc) : Statement (.vload x) := of_parts rfl (by decide)
theorem tlblsVa (x : Enc) : Statement (.tlblsVa x) := of_parts rfl (by decide)
theorem tlblsCtx (x : Enc) : Statement (.tlblsCtx x) := of_parts rfl (by decide)
theorem tlblsAll (x : Enc) : Statement (.tlblsAll x) := of_parts rfl (by decide)
theorem haltS (x : Enc) : Statement (.haltS x) := of_parts rfl (by decide)
theorem haltC (x : Enc) : Statement (.haltC x) := of_parts rfl (by decide)
theorem pmcfgCtr (x : Enc) : Statement (.pmcfgCtr x) := of_parts rfl (by decide)
theorem pmcfgSmp (x : Enc) : Statement (.pmcfgSmp x) := of_parts rfl (by decide)
theorem pmrd (x : Enc) : Statement (.pmrd x) := of_parts rfl (by decide)
theorem pmrdClr (x : Enc) : Statement (.pmrdClr x) := of_parts rfl (by decide)
theorem memoryResponse (n : Nat) (data : List FabAnswer) : Statement (.memoryResponse n data) := of_none rfl
theorem fairnessSwitch (gid wid : Nat) : Statement (.fairnessSwitch gid wid) := of_none rfl
theorem laneIdleCycle (core lane : Nat) : Statement (.laneIdleCycle core lane) := of_none rfl
theorem binReady (core bin : Nat) : Statement (.binReady core bin) := of_none rfl
theorem binDraw (gid : Nat) : Statement (.binDraw gid) := of_none rfl
theorem reservationTimeout (gid tid : Nat) : Statement (.reservationTimeout gid tid) := of_none rfl
theorem selftick (cl : Nat) : Statement (.selftick cl) := of_none rfl
theorem ptsLagAdvance (who : Nat) : Statement (.ptsLagAdvance who) := of_none rfl
theorem fragmentRebase (f : Nat) : Statement (.fragmentRebase f) := of_none rfl
theorem writebackDone (f : Nat) : Statement (.writebackDone f) := of_none rfl
theorem copyStart (cl : Nat) : Statement (.copyStart cl) := of_none rfl
theorem copyBlock (cl id : Nat) : Statement (.copyBlock cl id) := of_none rfl
theorem copyEnd (cl id : Nat) : Statement (.copyEnd cl id) := of_none rfl
theorem mmaEntryEnter (cl id : Nat) : Statement (.mmaEntryEnter cl id) := of_none rfl
theorem mmaGrant (cl : Nat) : Statement (.mmaGrant cl) := of_none rfl
theorem mmaPassComplete (cl : Nat) : Statement (.mmaPassComplete cl) := of_none rfl
theorem epiTakeSlot (cl : Nat) : Statement (.epiTakeSlot cl) := of_none rfl
theorem epiDrainComplete (cl : Nat) : Statement (.epiDrainComplete cl) := of_none rfl
theorem ringParityError (cl slot : Nat) : Statement (.ringParityError cl slot) := of_none rfl
theorem taskComplete (gid : Nat) : Statement (.taskComplete gid) := of_none rfl
theorem waitingEnqueueEnter (part : Nat) : Statement (.waitingEnqueueEnter part) := of_none rfl
theorem agingPromotion (seam id : Nat) : Statement (.agingPromotion seam id) := of_none rfl
theorem placementPass (die part : Nat) : Statement (.placementPass die part) := of_none rfl
theorem stepStart (launch : Nat) : Statement (.stepStart launch) := of_none rfl
theorem watchdogHang (gid : Nat) : Statement (.watchdogHang gid) := of_none rfl
theorem faultPark (gid : Nat) : Statement (.faultPark gid) := of_none rfl
theorem parkFrameWrite (gid : Nat) : Statement (.parkFrameWrite gid) := of_none rfl
theorem serviceEntryWrite (part : Nat) : Statement (.serviceEntryWrite part) := of_none rfl
theorem foremanFault (cl : Nat) : Statement (.foremanFault cl) := of_none rfl
theorem packetArrival (id : Nat) : Statement (.packetArrival id) := of_none rfl
theorem packetAck (id : Nat) : Statement (.packetAck id) := of_none rfl
theorem packetNack (id : Nat) : Statement (.packetNack id) := of_none rfl
theorem planeReleaseDeliver (id : Nat) : Statement (.planeReleaseDeliver id) := of_none rfl
theorem fabricIngressArrival (p : FabPacket) : Statement (.fabricIngressArrival p) := of_none rfl
theorem pairFree (k : PairKey) : Statement (.pairFree k) := of_none rfl
theorem ingressPairExpire (k : PairKey) : Statement (.ingressPairExpire k) := of_none rfl
theorem chsync (gid ch accel lane : Nat) : Statement (.chsync gid ch accel lane) := of_none rfl
theorem sync (k : PairKey) (run low : Nat) : Statement (.sync k run low) := of_none rfl
theorem syncReply (gid ch accel lane expected : Nat) : Statement (.syncReply gid ch accel lane expected) := of_none rfl
theorem remoteTimeout (id : Nat) : Statement (.remoteTimeout id) := of_none rfl
theorem wavelengthLoss (loss : LightLoss) : Statement (.wavelengthLoss loss) := of_none rfl
theorem stripeMarker (port : Nat) (tx : Bool) : Statement (.stripeMarker port tx) := of_none rfl
theorem laserRestored (input : Nat) : Statement (.laserRestored input) := of_none rfl
theorem flitReplay (port : Nat) : Statement (.flitReplay port) := of_none rfl
theorem flitAck (port n : Nat) : Statement (.flitAck port n) := of_none rfl
theorem replayTimeout (port : Nat) (tx : Bool) : Statement (.replayTimeout port tx) := of_none rfl
theorem portDown (port : Nat) : Statement (.portDown port) := of_none rfl
theorem portUp (port : Nat) : Statement (.portUp port) := of_none rfl
theorem rekeyStart (port : Nat) : Statement (.rekeyStart port) := of_none rfl
theorem rekeyStop (port : Nat) : Statement (.rekeyStop port) := of_none rfl
theorem hevbase (v : BitVec 64) : Statement (.hevbase v) := of_none rfl
theorem laddr (part : Nat) (v : BitVec 64) : Statement (.laddr part v) := of_none rfl
theorem launchAccept (part : Nat) : Statement (.launchAccept part) := of_none rfl
theorem launchEnd (launch : Nat) : Statement (.launchEnd launch) := of_none rfl
theorem hostDataWrite (pa : Nat) (data : List Byte) : Statement (.hostDataWrite pa data) := of_none rfl
theorem hostDataRead (pa n : Nat) : Statement (.hostDataRead pa n) := of_none rfl
theorem hostDescriptorWrite (off : Nat) (data : List Byte) : Statement (.hostDescriptorWrite off data) := of_none rfl
theorem migrate (size : Nat) (src dst : BitVec 48) : Statement (.migrate size src dst) := of_none rfl
theorem migrateChunk : Statement (.migrateChunk) := of_none rfl
theorem retire (size : Nat) (src : BitVec 48) : Statement (.retire size src) := of_none rfl
theorem region (region : Nat) (entry : BitVec 16) : Statement (.region region entry) := of_none rfl
theorem regionSwitch : Statement (.regionSwitch) := of_none rfl
theorem generationNack (id : Nat) : Statement (.generationNack id) := of_none rfl
theorem keyid (region : Nat) (v : BitVec 16) : Statement (.keyid region v) := of_none rfl
theorem regionEraseDone (region : Nat) : Statement (.regionEraseDone region) := of_none rfl
theorem loaddb (addr : BitVec 64) : Statement (.loaddb addr) := of_none rfl
theorem recgo (image : List Byte) : Statement (.recgo image) := of_none rfl
theorem resetI (site : Nat) : Statement (.resetI site) := of_none rfl
theorem siteResetHoldEnd (site : Nat) : Statement (.siteResetHoldEnd site) := of_none rfl
theorem siteTrainingDone (site : Nat) (ident : BitVec 64) : Statement (.siteTrainingDone site ident) := of_none rfl
theorem siteTrainingTimeout (site : Nat) : Statement (.siteTrainingTimeout site) := of_none rfl
theorem registerWrite (off : Nat) (data : List Byte) : Statement (.registerWrite off data) := of_none rfl
theorem guestRequest (site ctx : Nat) (pa : Nat) (acc : GuestAcc) : Statement (.guestRequest site ctx pa acc) := of_none rfl
theorem complete (site : Nat) (pkt : BitVec 512) : Statement (.complete site pkt) := of_none rfl
theorem errorI (site : Nat) (pkt : BitVec 512) : Statement (.errorI site pkt) := of_none rfl
theorem guestFault (site : Nat) (pkt : BitVec 512) : Statement (.guestFault site pkt) := of_none rfl
theorem saved (site : Nat) (pkt : BitVec 512) : Statement (.saved site pkt) := of_none rfl
theorem discarded (site : Nat) (pkt : BitVec 512) : Statement (.discarded site pkt) := of_none rfl
theorem xlateReq (site : Nat) (pkt : BitVec 512) : Statement (.xlateReq site pkt) := of_none rfl
theorem invAck (site : Nat) (pkt : BitVec 512) : Statement (.invAck site pkt) := of_none rfl
theorem claimReq (site : Nat) (pkt : BitVec 512) : Statement (.claimReq site pkt) := of_none rfl
theorem recallDone (site : Nat) (pkt : BitVec 512) : Statement (.recallDone site pkt) := of_none rfl
theorem guestDeadline (site : Nat) : Statement (.guestDeadline site) := of_none rfl
theorem grantExpire (site : Nat) : Statement (.grantExpire site) := of_none rfl
theorem planeLinkSilent (die : Nat) : Statement (.planeLinkSilent die) := of_none rfl
theorem dieFault (die : Nat) : Statement (.dieFault die) := of_none rfl
theorem uncorrectableError (place : ErrPlace) : Statement (.uncorrectableError place) := of_none rfl
theorem patrolScrub (die n : Nat) : Statement (.patrolScrub die n) := of_none rfl
theorem mgmtCoreFault : Statement (.mgmtCoreFault) := of_none rfl
theorem deviceReset : Statement (.deviceReset) := of_none rfl
theorem powerThrottle (die period : Nat) : Statement (.powerThrottle die period) := of_none rfl
theorem samplePoint (cl : Nat) : Statement (.samplePoint cl) := of_none rfl
theorem writeClaimHoldExpiry (f : Nat) : Statement (.writeClaimHoldExpiry f) := of_none rfl
theorem keyInstall (port : Nat) : Statement (.keyInstall port) := of_none rfl
theorem atomicResultAck (k : PairKey) (seq : Nat) : Statement (.atomicResultAck k seq) := of_none rfl
theorem protocolError (site : Nat) (pkt : BitVec 512) : Statement (.protocolError site pkt) := of_none rfl
theorem vendorDefinedRequest (ctx : Nat) (nonce : BitVec 256) : Statement (.vendorDefinedRequest ctx nonce) := of_none rfl
theorem clusterFailure (cl : Nat) : Statement (.clusterFailure cl) := of_none rfl

end Sys2Proof.Laws.Opcode
end

