-- ==== Sys2Proof/Tests/Slice0.lean ====
section
/-!
SUPPORT. The model's own tests: words written out from the spec's encodings, ill-formed terms that the checks refuse, single steps on a small
state, and for every statement values that meet its hypotheses.
-/
namespace Sys2Proof.Tests

set_option Elab.async false

open Sys2Proof Sys2Proof.Machine

/-! ## A small state: one group of two threads on core 0 of context 1, in a running partition, its memory mapped one to one -/

def thread (tid : Nat) : Thread :=
  { tid := tid, slot := tid, wid := 0, pc := 0x1000, v := (List.range 192).map fun i => BitVec.ofNat 32 (16 * i + tid) }

def warp : Warp := { wid := 0, lane := 0, wslot := 0, s := (List.range 64).map fun i => BitVec.ofNat 64 (64 * i) }

def group : Group :=
  { gid := 0, ctx := 1, part := 0, vregs := 192, sregs := 64, threads := [thread 0, thread 1], warps := [warp], ring := [0, 1]
    scr := { base := 0, size := 4096 }, tbars := [{ init := true, want := 2 }], cbase := 0x2000, clen := 256 }

/-- A leaf of level 2 at address 0 that allows everything, cached by the TLB of CD0. -/
def leaf : TlbEntry := { owner := tlbDie 0, ctx := 1, vpage := 0, psize := 2 ^ 30, leaf := 0x9F, level := 2, expiry := 10 ^ 12 }

/-- Context 1 at level `k` of partition 0, 16 fragments; partition 0 holds cluster 0. -/
def base (k : Nat) : State :=
  { State.reset with
    groups := [(0, group)]
    ctxs := [(1, { st := .active, img := BitVec.ofNat 512 (k * 2 ^ 108 + 16 * 2 ^ 320) })]
    parts := [(0, { st := .running, img := BitVec.ofNat 512 (2 ^ 320 + 2 ^ 54) })]
    tlb := [leaf] }

/-- The agents issue: the group's warp, the foreman of cluster 0, the management core. -/
def onWarp : State := { base 1 with cur := { agent := .warp 0 0, pc := 0x1000, path := [0, 1] } }
def onUser : State := { base 0 with cur := { agent := .warp 0 0, pc := 0x1000, path := [0, 1] } }
def onForeman : State := { base 1 with cur := { agent := .foreman 0, pc := 0x1000, path := [0] } }
def onMgmt : State := { base 1 with cur := { agent := .mgmt, pc := 0x1000, path := [0] } }

/-! ## Operands that fit -/

/-- An operand of a class: a register of the number given, a uniform one where the class asks for it. -/
def fitOp (k : Cls) (v n : BitVec 8) : BitVec 8 :=
  match k with
  | .unused => 0
  | .imm => n
  | .lim _ => n
  | .uni _ => v ||| 0xC0
  | _ => v

/-- Fields of an opcode that its entry accepts, small immediates `n`; uniform registers throughout with `u` 0xC0. -/
def sample (op : Nat) (form : Form) (sub : BitVec 6) (mod : BitVec 8) (u n : BitVec 8) : Enc :=
  let x : Enc := { form := form, d := n, a := n, sub := sub, b := 0, c := n, e := 0, mod := mod, w2 := { Word2.base with ord := if op = 0x90 then 2 else 0 }, lit := 0 }
  let k := fieldCls op x
  { x with d := fitOp k.1 (2 ||| u) n, a := fitOp k.2.1 (4 ||| u) n, b := fitOp k.2.2.1 (8 ||| u) n, c := fitOp k.2.2.2.1 (12 ||| u) n, e := fitOp k.2.2.2.2 (16 ||| u) n }

def bas (op : Nat) : BitVec 8 × Enc := (BitVec.ofNat 8 op, sample op .base 0 (baseMod op) 0 1)
def ext (mod : BitVec 8) (p : Nat × BitVec 6) : BitVec 8 × Enc := (BitVec.ofNat 8 p.1, sample p.1 .ext p.2 mod 0 1)

/-- One instruction of each row that a group's warp of a K context may run. -/
def warpRows : List (BitVec 8 × Enc) :=
  ([0x00, 0x01, 0x02, 0x03, 0x04, 0x05, 0x06, 0x07, 0x08, 0x09, 0x0C, 0x0E, 0x10, 0x11, 0x12, 0x13, 0x16, 0x17, 0x18, 0x19, 0x1A, 0x1B, 0x20, 0x21, 0x22, 0x23,
    0x24, 0x25, 0x26, 0x27, 0x28, 0x2B, 0x2C, 0x2D, 0x2E, 0x2F, 0x30, 0x31, 0x32, 0x34, 0x35, 0x36, 0x37, 0x39, 0x3A, 0x3B, 0x3C, 0x3D, 0x3E, 0x3F, 0x40, 0x41,
    0x42, 0x43, 0x44, 0x46, 0x5C, 0x60, 0x70, 0x71, 0x72, 0x73, 0x74, 0x75, 0x76, 0x7B, 0x7D, 0x7E, 0x7F, 0x80, 0x81, 0x91, 0x92, 0x93, 0x94, 0x95, 0x98, 0x99,
    0x9A, 0xA0, 0xA1, 0xA3, 0xA5, 0xA9, 0xAA, 0xB3, 0xC1, 0xC5, 0xD0, 0xD1, 0xD3, 0xD6, 0xD7, 0xD8, 0xE0, 0xE3, 0xE4] : List Nat).map bas ++
  ([(0x0A, 0), (0x0B, 0), (0x0D, 0), (0x14, 0), (0x15, 0), (0x1C, 0), (0x1F, 0), (0x50, 0), (0x5A, 0), (0x5B, 0), (0x5D, 0), (0x61, 0), (0x62, 0), (0x62, 1),
    (0x77, 0), (0x78, 0), (0x79, 0), (0x7F, 1), (0x90, 0), (0x96, 0), (0x97, 0), (0x9A, 1), (0xA2, 0), (0xA2, 1), (0xA4, 0), (0xA8, 0), (0xB0, 0), (0xB1, 0), (0xB2, 0),
    (0xB3, 1), (0xB3, 2), (0xB3, 3), (0xC1, 1), (0xC1, 2), (0xC3, 0), (0xC4, 0), (0xC5, 1), (0xD2, 0), (0xD6, 1), (0xE1, 0), (0xE2, 0), (0xE4, 1), (0xE7, 0),
    (0xE7, 1), (0xE9, 0), (0xE9, 1), (0xEA, 0), (0xEA, 1)] : List (Nat × BitVec 6)).map (ext 0) ++
  ([(0x1D, 0), (0x29, 0), (0x2A, 0), (0x58, 0), (0x59, 0), (0x5E, 0), (0x7A, 0), (0x7C, 0)] : List (Nat × BitVec 6)).map (ext 15) ++
  ([(0x38, 0), (0x52, 1), (0x82, 0), (0xC2, 0)] : List (Nat × BitVec 6)).map (ext 10) ++ ([(0x33, 0), (0x45, 0)] : List (Nat × BitVec 6)).map (ext 17) ++
  ([(0x51, 1), (0x53, 1)] : List (Nat × BitVec 6)).map (ext 19) ++ [ext 1 (0x1E, 0), ext 12 (0xC0, 0)]

/-- The rows that only a foreman or the management core may run, and those of the management core alone (R215, R371). -/
def foreRows : List (BitVec 8 × Enc) := [(0xD4, sample 0xD4 .base 0 (baseMod 0xD4) 0xC0 1), (0xD4, sample 0xD4 .ext 1 0 0xC0 1), (0xD5, sample 0xD5 .base 0 (baseMod 0xD5) 0xC0 1)]
def mgmtRows : List (BitVec 8 × Enc) :=
  [(0xE5, sample 0xE5 .ext 0 0 0xC0 1), (0xE6, sample 0xE6 .ext 0 0 0xC0 1), (0xE7, sample 0xE7 .ext 2 0 0xC0 1), (0xE8, sample 0xE8 .base 0 (baseMod 0xE8) 0xC0 1), (0xE8, sample 0xE8 .ext 1 0 0xC0 1)]

/-- Enabled, as a question that can be evaluated. -/
def enabledB (op : BitVec 8) (x : Enc) (s : State) : Bool :=
  (view s).isSome && (issueOrder s.cur.agent (who s).level op.toNat x (regCounts s).1 (regCounts s).2 == 0) && !stalled op.toNat x s (viewOf s)

theorem enabled_of {op : BitVec 8} {x : Enc} {s : State} (h : enabledB op x s = true) : Enabled op x s := by
  simpa [enabledB, Enabled, and_assoc] using h

/-- The hypothesis that every statement about a program instruction has is met, of each row. -/
theorem wit_enabled_warp : warpRows.all (fun p => enabledB p.1 p.2 onWarp) = true := by decide +kernel
theorem wit_enabled_foreman : foreRows.all (fun p => enabledB p.1 p.2 onForeman) = true := by decide +kernel
theorem wit_enabled_mgmt : mgmtRows.all (fun p => enabledB p.1 p.2 onMgmt) = true := by decide +kernel

/-! ## Ill-formed terms: one for each check of R216 that words decide, and for each other condition of well-formedness -/

/-- IADD.s32 v2, v4, v8 in the extended form. -/
def plain : Enc := { form := .ext, d := 2, a := 4, sub := 0, b := 8, c := 0, e := 0, mod := 0, w2 := Word2.base, lit := 0 }

theorem test_wf_plain : (Instr.iadd plain).wf = true := by decide +kernel
/-- Order 1: no constructor has an unassigned opcode; its words are refused. -/
theorem test_wf_order1 : checkWords 0x0F plain = 1 := by decide +kernel
/-- Order 4: WSYNC has no base form. -/
theorem test_wf_order4 : let x : Enc := { form := .base, d := 0, a := 0, sub := 0, b := 0, c := 0, e := 0, mod := baseMod 0x0B, w2 := Word2.base, lit := 0 }
    checkWords 0x0B x = 4 ∧ (Instr.wsync x).wf = false := by decide +kernel
/-- Order 5: IADD has no sub-operations. -/
theorem test_wf_order5 : let x := { plain with sub := 1 }; checkWords 0x10 x = 5 ∧ (Instr.iadd x).wf = false := by decide +kernel
/-- Order 6: type code 0x1F is reserved. -/
theorem test_wf_order6 : let x := { plain with mod := 0x1F }; checkWords 0x10 x = 6 ∧ (Instr.iadd x).wf = false := by decide +kernel
/-- Order 7: C is unused; a uniform D takes no vector source; a pair of vector registers is even. -/
theorem test_wf_order7 : let x := { plain with c := 1 }; let y := { plain with d := 0xC2 }; let z := { plain with mod := 2, a := 5 }
    checkWords 0x10 x = 7 ∧ (Instr.iadd x).wf = false ∧ (Instr.iadd y).wf = false ∧ (Instr.iadd z).wf = false := by decide +kernel
/-- Order 8: HINT on an instruction that accesses no memory. -/
theorem test_wf_order8 : let x := { plain with w2 := { Word2.base with hint := 1 } }; checkWords 0x10 x = 8 ∧ (Instr.iadd x).wf = false := by decide +kernel
/-- Order 9: SCOPE 6 of a load, and SCOPE 2 where the entry gives it no meaning. -/
theorem test_wf_order9 : let x := { plain with w2 := { Word2.base with scope := 2 } }; let y := { sample 0x70 .ext 0 15 0 1 with w2 := { Word2.base with scope := 6 } }
    checkWords 0x10 x = 9 ∧ (Instr.iadd x).wf = false ∧ checkWords 0x70 y = 9 ∧ (Instr.ld y).wf = false := by decide +kernel
/-- Order 10: a release on a load. -/
theorem test_wf_order10 : let y := { sample 0x70 .ext 0 15 0 1 with w2 := { Word2.base with ord := 2 } }; checkWords 0x70 y = 10 ∧ (Instr.ld y).wf = false := by decide +kernel
/-- Order 11: a channel on an instruction that sends nothing. -/
theorem test_wf_order11 : let x := { plain with w2 := { Word2.base with ch := 1 } }; checkWords 0x10 x = 11 ∧ (Instr.iadd x).wf = false := by decide +kernel
/-- Order 12: a guard slot that nothing enables. -/
theorem test_wf_order12 : let x := { plain with w2 := { Word2.base with gs := 3 } }; checkWords 0x10 x = 12 ∧ (Instr.iadd x).wf = false := by decide +kernel
/-- Order 13: B is not zero beside a literal; an immediate outside its type. -/
theorem test_wf_order13 : let x := { plain with form := .extLit }; let y := { plain with form := .extLit, b := 0, lit := 0x1_0000_0000 }
    checkWords 0x10 x = 13 ∧ (Instr.iadd x).wf = false ∧ checkWords 0x10 y = 13 ∧ (Instr.iadd y).wf = false := by decide +kernel
/-- A base form holds no MOD of its own; PWRS of KSVCARM is its own instruction; an event has no words. -/
theorem test_wf_form : (Instr.iadd { plain with form := .base, mod := 1 }).wf = false ∧ (Instr.pwrs (sample 0xE1 .ext 0 0 0 7)).wf = false ∧
    (Instr.selftick 0).wf = false := by decide +kernel

/-! ## Words written out from the spec: the worked encodings of its chapters (R201 to R206 and the examples of chapters 3 to 22) -/

/-- ICMP.lt.s32 p3, v4, v5. -/
theorem test_decode_integer_compare : decodeTableWord 96 0x7BC00080050000004700C102 = some (.icmp { form := .ext, d := 0x3, a := 0x4, sub := 0x2, b := 0x5, c := 0x0, e := 0x0, mod := 0x0, w2 := Word2.base, lit := 0x0 }) := by decide +kernel
/-- POPC.b64 of v15 from v14. -/
theorem test_decode_bits : decodeTableWord 96 0x7BC00080000000104AC3C400 = some (.popc { form := .ext, d := 0xF, a := 0x10, sub := 0x0, b := 0x0, c := 0x0, e := 0x0, mod := 0x10, w2 := Word2.base, lit := 0x0 }) := by decide +kernel
/-- a fused multiply-add under the guards p1 and NOT p2. -/
theorem test_decode_float : decodeTableWord 96 0xC800080CC0D00484CC282C0 = some (.ffma { form := .ext, d := 0xA, a := 0xB, sub := 0x0, b := 0xCC, c := 0xD, e := 0x0, mod := 0x48, w2 := ⟨1, 18, false, 0, 0, 0, 1, 0, false, 0⟩, lit := 0x0 }) := by decide +kernel
/-- SHFL.xorw v2, v3, 1. -/
theorem test_decode_cross_slot : decodeTableWord 96 0x7BC000800001000F560080C7 = some (.shfl { form := .ext, d := 0x2, a := 0x3, sub := 0x7, b := 0x0, c := 0x1, e := 0x0, mod := 0xf, w2 := Word2.base, lit := 0x0 }) := by decide +kernel
/-- BALLOT s20, p1. -/
theorem test_decode_ballot : decodeTableWord 32 0x17350040 = some (.ballot { form := .base, d := 0xD4, a := 0x1, sub := 0x0, b := 0x0, c := 0x0, e := 0x0, mod := baseMod 0x5C, w2 := Word2.base, lit := 0x0 }) := by decide +kernel
/-- a load with an acquire at DEVICE scope on channel 2, its address a literal. -/
theorem test_decode_load : decodeTableWord 160 0x10007BC009A00000000FDC057100 = some (.ld { form := .extLit, d := 0x15, a := 0xC4, sub := 0x0, b := 0x0, c := 0x0, e := 0x0, mod := 0xf, w2 := ⟨15, 15, false, 0, 0, 2, 3, 1, false, 0⟩, lit := 0x1000 }) := by decide +kernel
/-- LD s24, [s4]. -/
theorem test_decode_uniform_load : decodeTableWord 32 0x1C363100 = some (.ld { form := .base, d := 0xD8, a := 0xC4, sub := 0x0, b := 0x0, c := 0x0, e := 0x0, mod := baseMod 0x70, w2 := Word2.base, lit := 0x0 }) := by decide +kernel
/-- LDW.x4 v12, [s6 + 0x20]. -/
theorem test_decode_wide_load : decodeTableWord 32 0x1C433188 = some (.ldw { form := .base, d := 0xC, a := 0xC6, sub := 0x0, b := 0x8, c := 0x0, e := 0x0, mod := baseMod 0x71, w2 := Word2.base, lit := 0x0 }) := by decide +kernel
/-- ST [s4 + 0x40], v3. -/
theorem test_decode_store : decodeTableWord 32 0x1D00F110 = some (.st { form := .base, d := 0x3, a := 0xC4, sub := 0x0, b := 0x10, c := 0x0, e := 0x0, mod := baseMod 0x74, w2 := Word2.base, lit := 0x0 }) := by decide +kernel
/-- LDS.n32. -/
theorem test_decode_scratch_load : decodeTableWord 96 0x7BC00080C00000015CB2B240 = some (.lds { form := .ext, d := 0xCA, a := 0xC9, sub := 0x0, b := 0xC0, c := 0x0, e := 0x0, mod := 0x1, w2 := Word2.base, lit := 0x0 }) := by decide +kernel
/-- ATOM.add.n32. -/
theorem test_decode_atomic : decodeTableWord 96 0x7BC005E0090A00015E023100 = some (.atom { form := .ext, d := 0x8, a := 0xC4, sub := 0x0, b := 0x9, c := 0xA, e := 0x0, mod := 0x1, w2 := ⟨15, 15, false, 0, 0, 1, 3, 3, false, 0⟩, lit := 0x0 }) := by decide +kernel
/-- CHJOIN 2, 5. -/
theorem test_decode_ordering : decodeTableWord 96 0x7BC014800000000064408000 = some (.chjoin { form := .ext, d := 0x2, a := 0x0, sub := 0x0, b := 0x0, c := 0x0, e := 0x0, mod := 0x0, w2 := ⟨15, 15, false, 0, 0, 5, 1, 0, false, 0⟩, lit := 0x0 }) := by decide +kernel
/-- GBAR. -/
theorem test_decode_barrier : decodeTableWord 32 0x25400000 = some (.gbar { form := .base, d := 0x0, a := 0x0, sub := 0x0, b := 0x0, c := 0x0, e := 0x0, mod := baseMod 0x95, w2 := Word2.base, lit := 0x0 }) := by decide +kernel
/-- TCLAIM.rd with LEASE 10. -/
theorem test_decode_claim_read : decodeTableWord 160 0xA7BC0008000000000E8B33280 = some (.tclaimRd { form := .extLit, d := 0xCC, a := 0xCA, sub := 0x0, b := 0x0, c := 0x0, e := 0x0, mod := 0x0, w2 := Word2.base, lit := 0xA }) := by decide +kernel
/-- TCLAIM.wr. -/
theorem test_decode_claim_write : decodeTableWord 96 0x7BC000800000000068B33281 = some (.tclaimWr { form := .ext, d := 0xCC, a := 0xCA, sub := 0x1, b := 0x0, c := 0x0, e := 0x0, mod := 0x0, w2 := Word2.base, lit := 0x0 }) := by decide +kernel
/-- WSET w0, s10, 0x22. -/
theorem test_decode_watch : decodeTableWord 96 0x22AA003280 = some (.wset { form := .baseLit, d := 0x0, a := 0xCA, sub := 0x0, b := 0x0, c := 0x0, e := 0x0, mod := baseMod 0xA8, w2 := Word2.base, lit := 0x22 }) := by decide +kernel
/-- CPYM. -/
theorem test_decode_tensor_copy : decodeTableWord 96 0x7BC00080CCCED0436CB23280 = some (.cpym { form := .ext, d := 0xC8, a := 0xCA, sub := 0x0, b := 0xCC, c := 0xCE, e := 0xD0, mod := 0x43, w2 := Word2.base, lit := 0x0 }) := by decide +kernel
/-- CPYL.g2g. -/
theorem test_decode_linear_copy : decodeTableWord 96 0x7BC00600C6C800006C733100 = some (.cpyl { form := .ext, d := 0xCC, a := 0xC4, sub := 0x0, b := 0xC6, c := 0xC8, e := 0x0, mod := 0x0, w2 := ⟨15, 15, false, 0, 0, 1, 4, 0, false, 0⟩, lit := 0x0 }) := by decide +kernel
/-- GSLOT.t g3. -/
theorem test_decode_guard_true : decodeTableWord 32 0x2CC0C000 = some (.gslotT { form := .base, d := 0x3, a := 0x0, sub := 0x0, b := 0x0, c := 0x0, e := 0x0, mod := baseMod 0xB3, w2 := Word2.base, lit := 0x0 }) := by decide +kernel
/-- GSLOT.p. -/
theorem test_decode_guard_predicate : decodeTableWord 96 0x7BC00080000000006CC0C143 = some (.gslotP { form := .ext, d := 0x3, a := 0x5, sub := 0x3, b := 0x0, c := 0x0, e := 0x0, mod := 0x0, w2 := Word2.base, lit := 0x0 }) := by decide +kernel
/-- MMA.blk.blk.k3.follow. -/
theorem test_decode_matrix : decodeTableWord 96 0x7BC00080D6D5D72F7000B500 = some (.mma { form := .ext, d := 0x2, a := 0xD4, sub := 0x0, b := 0xD6, c := 0xD5, e := 0xD7, mod := 0x2f, w2 := Word2.base, lit := 0x0 }) := by decide +kernel
/-- APEEK.pk. -/
theorem test_decode_matrix_slot : decodeTableWord 96 0x13C000800100C20070C10001 = some (.apeek { form := .ext, d := 0x4, a := 0x0, sub := 0x1, b := 0x1, c := 0x0, e := 0xC2, mod := 0x0, w2 := ⟨2, 15, false, 0, 0, 0, 1, 0, false, 0⟩, lit := 0x0 }) := by decide +kernel
/-- EPI.bf16. -/
theorem test_decode_epilogue : decodeTableWord 96 0x7BC00080D8CA000A70B5B200 = some (.epi { form := .ext, d := 0xD6, a := 0xC8, sub := 0x0, b := 0xD8, c := 0xCA, e := 0x0, mod := 0xa, w2 := Word2.base, lit := 0x0 }) := by decide +kernel
/-- GPOST. -/
theorem test_decode_guest_post : decodeTableWord 96 0x7BC015C00000000074B33000 = some (.gpost { form := .ext, d := 0xCC, a := 0xC0, sub := 0x0, b := 0x0, c := 0x0, e := 0x0, mod := 0x0, w2 := ⟨15, 15, false, 0, 0, 5, 3, 2, false, 0⟩, lit := 0x0 }) := by decide +kernel
/-- GRESUME s10, s2. -/
theorem test_decode_group_control : decodeTableWord 32 0x35F2B080 = some (.gresume { form := .base, d := 0xCA, a := 0xC2, sub := 0x0, b := 0x0, c := 0x0, e := 0x0, mod := baseMod 0xD7, w2 := Word2.base, lit := 0x0 }) := by decide +kernel
/-- PRDS s10, KSVCWR. -/
theorem test_decode_system_read : decodeTableWord 32 0x38328180 = some (.prds { form := .base, d := 0xCA, a := 0x6, sub := 0x0, b := 0x0, c := 0x0, e := 0x0, mod := baseMod 0xE0, w2 := Word2.base, lit := 0x0 }) := by decide +kernel
/-- PWRS KSVCARM, 1. -/
theorem test_decode_system_write : decodeTableWord 96 0x1B841C000 = some (.pwrsKsvcarm { form := .baseLit, d := 0x7, a := 0x0, sub := 0x0, b := 0x0, c := 0x0, e := 0x0, mod := baseMod 0xE1, w2 := Word2.base, lit := 0x1 }) := by decide +kernel
/-- IRET. -/
theorem test_decode_service_return : decodeTableWord 96 0x7BC00080D400000078B5B300 = some (.iret { form := .ext, d := 0xD6, a := 0xCC, sub := 0x0, b := 0xD4, c := 0x0, e := 0x0, mod := 0x0, w2 := Word2.base, lit := 0x0 }) := by decide +kernel
/-- UNPARK.k. -/
theorem test_decode_unpark : decodeTableWord 96 0x7BC000800000000079323081 = some (.unparkK { form := .ext, d := 0xC8, a := 0xC2, sub := 0x1, b := 0x0, c := 0x0, e := 0x0, mod := 0x0, w2 := Word2.base, lit := 0x0 }) := by decide +kernel
/-- TLBLS.va. -/
theorem test_decode_invalidation : decodeTableWord 96 0x7BC00080C600000079C03100 = some (.tlblsVa { form := .ext, d := 0x0, a := 0xC4, sub := 0x0, b := 0xC6, c := 0x0, e := 0x0, mod := 0x0, w2 := Word2.base, lit := 0x0 }) := by decide +kernel
/-- PMCFG.ctr. -/
theorem test_decode_counter : decodeTableWord 160 0x100607BC0008000000000FA403100 = some (.pmcfgCtr { form := .extLit, d := 0x0, a := 0xC4, sub := 0x0, b := 0x0, c := 0x0, e := 0x0, mod := 0x0, w2 := Word2.base, lit := 0x10060 }) := by decide +kernel
/-- PMCFG.smp. -/
theorem test_decode_sampling : decodeTableWord 96 0x7BC00080C60000007A403101 = some (.pmcfgSmp { form := .ext, d := 0x0, a := 0xC4, sub := 0x1, b := 0xC6, c := 0x0, e := 0x0, mod := 0x0, w2 := Word2.base, lit := 0x0 }) := by decide +kernel
/-- PMRD.clr. -/
theorem test_decode_counter_read : decodeTableWord 96 0x7BC00080000300007AB53101 = some (.pmrdClr { form := .ext, d := 0xD4, a := 0xC4, sub := 0x1, b := 0x0, c := 0x3, e := 0x0, mod := 0x0, w2 := Word2.base, lit := 0x0 }) := by decide +kernel

/-- A reserved opcode, a truncated instruction, and an encoding of another form are refused. -/
theorem test_decode_refuses : decodeTableWord 32 0x03C00000 = none ∧ decodeTableWord 96 0x7BC00080_05000000_4700C106 = none ∧
    (decode (numBytes 8 0x4700C102)).toOption = none := by decide +kernel

/-! ## Values that meet the hypotheses of the statements

`enabledB` is `Enabled` (enabled_of). Of a statement with several clauses each is met, with values at the ends of the ranges where they meet. -/

def withV (s : State) (n : Nat) (k : Word32) : State := s.updGroup 0 fun g => { g with threads := g.threads.map fun t => t.wrV n k }
def withS (s : State) (n : Nat) (k : Word64) : State := s.updGroup 0 fun g => { g with warps := g.warps.map fun w => w.wrS n k }
/-- The same instruction with a guard that no thread meets: p0, which is false. -/
def off (x : Enc) : Enc := { x with w2 := { x.w2 with ga := 0 } }
def idle (s : State) (x : Enc) : Bool := (active x s).isEmpty
/-- The extended form of a row, its registers vectors, or uniform ones where the class asks for it. -/
def ex (op : Nat) (sub : BitVec 6) (mod : BitVec 8) (n : BitVec 8 := 1) : Enc := sample op .ext sub mod 0 n
def bs (op : Nat) (n : BitVec 8 := 1) : Enc := sample op .base 0 (baseMod op) 0 n
/-- Uniform registers where a class allows both. -/
def un (op : Nat) (sub : BitVec 6) (mod : BitVec 8) (n : BitVec 8 := 1) : Enc := sample op .ext sub mod 0xC0 n

/-- The form with a literal in place of B. -/
def lit (x : Enc) (l : BitVec 64) : Enc := { x with form := .extLit, b := 0, lit := l }

/-- Thread 1 stands elsewhere: the path is thread 0 alone. -/
def twoPaths (s : State) : State :=
  { s.updGroup 0 fun g => { g with threads := g.threads.map fun t => if t.tid = 1 then { t with pc := 0x2000 } else t } with cur := { s.cur with path := [0] } }

theorem wit_DecodeEncode : (Instr.iadd plain).wf = true ∧ (Instr.ld (lit (ex 0x70 0 15) 0x7FFFFFFFFFFFFFFF)).wf = true := by decide +kernel

def nexts (o : Out) : Bool := match o with
  | .next _ => true
  | _ => false

theorem nexts_spec {o : Out} (h : nexts o = true) : ∃ t, o = .next t := by
  cases o <;> simp_all [nexts]

/-- The issue `c` in `s` comes to an instruction that executes. -/
def runsAt (s : State) : Bool := match fetchInstr s with
  | .ok b s' => match decode b with
    | .ok p => nexts (precise s (exec p.1 s'))
    | _ => false
  | _ => false

theorem runsAt_spec {s : State} (h : runsAt s = true) : ∃ b s' i tail t, fetchInstr s = .ok b s' ∧ decode b = .ok (i, tail) ∧ precise s (exec i s') = .next t := by
  unfold runsAt at h
  split at h
  · rename_i b s' hf
    split at h
    · rename_i p hd
      obtain ⟨t, ht⟩ := nexts_spec h
      exact ⟨b, s', p.1, p.2, t, hf, hd, ht⟩
    · exact absurd h (by simp)
  · exact absurd h (by simp)

/-- The head of the agenda is an issue that comes to an instruction that executes. -/
def issues (s : State) : Bool :=
  match s.agenda with
  | .issue core lane defer :: rest => match State.slotOrder { s with agenda := rest, cur := {} } core lane with
    | slot :: _ => match State.pickSlot { s with agenda := rest, cur := {} } core lane slot defer with
      | some c => runsAt { s with agenda := rest, cur := c }
      | none => false
    | [] => false
  | .foreman n :: rest => State.foremanRuns { s with agenda := rest, cur := {} } n &&
    runsAt { s with agenda := rest, cur := { agent := .foreman n, pc := (s.cluster n).fore.th.pc, path := [0] } }
  | .mgmt :: rest => s.mgmtRuns && runsAt { s with agenda := rest, cur := { agent := .mgmt, pc := s.mgmt.th.pc, path := [0] } }
  | _ => false

theorem wit_StepRunsDecoded : issues (State.reset.withFetchWord 32 0x04008043) = true ∧ issues (State.reset.withFetchWord 96 0x7BC00080_05000000_4700C102) = true ∧
    -- EVPOP of the foreman, VSAVE of the management core
    (([wordBytes (encode (.evreadNb (sample 0xD4 .ext 1 0 0xC0 1))), wordBytes (encode (.vsave (sample 0xE5 .ext 0 0 0xC0 1)))] : List (List Byte)).all fun bs =>
      issues (placeBytes State.reset (bs ++ List.replicate 8 0))) = true ∧
    (∀ l ∈ State.reset.loads, l.gid ≠ 0) ∧ (Instr.selftick 0).parts = none := by
  decide +kernel

theorem wit_StepKeepsCanonical : Canonical State.reset ∧ nexts (step State.reset) = true ∧
    nexts (step (State.reset.withFetchWord 32 0x04008043)) = true := ⟨Canonical.reset, by decide +kernel, by decide +kernel⟩

theorem wit_NothingStops : (view onWarp).isSome = true ∧ (view onForeman).isSome = true ∧ (view onMgmt).isSome = true ∧ (Instr.selftick 0).parts = none := by
  decide +kernel

theorem wit_IntegerArithmetic : enabledB 0x16 (bs 0x16) onWarp ∧ enabledB 0x15 (ex 0x15 0 0) onWarp := by decide +kernel

theorem wit_IntegerSelect : enabledB 0x1E (ex 0x1E 0 1) onWarp ∧ isUni (ex 0x1E 0 1).d = false ∧
    (let x := off (un 0x1E 0 1); enabledB 0x1E x onWarp ∧ isUni x.d = true ∧ active x onWarp = []) ∧
    (let x := un 0x1E 0 1; enabledB 0x1E x onWarp ∧ isUni x.d = true ∧ (active x onWarp).length = 2) ∧
    (enabledB 0x1F (ex 0x1F 0 0 63) onWarp ∧ (ex 0x1F 0 0 63).c.toNat = 63) ∧ enabledB 0x1F (ex 0x1F 0 0 64) onWarp ∧ (ex 0x1F 0 0 64).c.toNat = 64 := by
  decide +kernel

theorem wit_BitOperations : enabledB 0x28 (bs 0x28) onWarp ∧ enabledB 0x29 (ex 0x29 0 15) onWarp := by decide +kernel

theorem wit_FloatArithmetic : enabledB 0x30 (bs 0x30) onWarp ∧ enabledB 0x45 (ex 0x45 0 17) onWarp := by decide +kernel

theorem wit_FloatBits : enabledB 0x3A (bs 0x3A) onWarp ∧ enabledB 0x38 (ex 0x38 6 10) onWarp ∧ enabledB 0x44 (bs 0x44) onWarp := by decide +kernel

/-- The least and the greatest finite code of E4M3, and of F64. -/
theorem wit_RoundingKeepsCodes : fE4M3.decode 1 = .num false 1 (-9) ∧ fE4M3.decode 0x7E = .num false 14 5 ∧ fF64.decode 0 = .num false 0 (-1074) := by decide +kernel

theorem wit_Conversions : enabledB 0x50 (ex 0x50 0 0) onWarp ∧
    (let x := ex 0x52 7 10; let s := withV onWarp 8 0x7F; enabledB 0x52 x s ∧ ∀ u ∈ active x s, rdB x (viewOf s).warp u 8 = 0x7F) ∧
    (let x := ex 0x52 7 10; enabledB 0x52 x onWarp ∧ ((active x onWarp).find? fun u => rdB x (viewOf onWarp).warp u 8 != 0x7F).isSome) ∧
    enabledB 0x53 (ex 0x53 1 19) onWarp := by decide +kernel

theorem wit_CrossSlotAndPredicates : enabledB 0x58 (ex 0x58 0 15) onWarp ∧ enabledB 0x5C (bs 0x5C) onWarp ∧ enabledB 0x62 (ex 0x62 1 0) onWarp ∧
    (0 < 63 ∧ 63 < warp.s.length) ∧ 191 < (thread 0).v.length := by decide +kernel

theorem wit_Branches : enabledB 0x01 (bs 0x01) onWarp ∧ enabledB 0x03 (bs 0x03) onWarp ∧
    (let x := bs 0x02; let s := withV (withV onWarp 4 0x40) 5 0; enabledB 0x02 x s ∧ ∀ u ∈ active x s, rdOp (viewOf s).warp u x.a 64 % 4 = 0) ∧
    (let x := bs 0x04; enabledB 0x04 x onWarp ∧ (active x onWarp).find? (fun u => decide (rdOp (viewOf onWarp).warp u x.a 64 % 4 ≠ 0)) = some ((viewOf onWarp).ths.getD 1 (thread 0))) ∧
    (let x := bs 0x07; let s := twoPaths onWarp; enabledB 0x07 x s ∧ active x s ≠ [] ∧ s.cur.agent = .warp 0 0 ∧
      (((finish x 1 s (viewOf s)).group? 0).bind fun gr => otherPath gr 0 (nextPc x s)) = some 0x2000) := by decide +kernel

theorem wit_ExitAndReform :
    (let x := bs 0x05; let s := twoPaths onWarp; enabledB 0x05 x s ∧ s.cur.agent = .warp 0 0 ∧
      ((s.group? 0).any fun gr => gr.threads.any fun u => u.run != .exited && !((active x s).map Thread.tid).contains u.tid)) ∧
    (let x := bs 0x05; let s := onWarp; enabledB 0x05 x s ∧ s.cur.agent = .warp 0 0 ∧ active x s ≠ [] ∧
      ((s.group? 0).any fun gr => gr.threads.all fun u => u.run == .exited || ((active x s).map Thread.tid).contains u.tid)) ∧
    (let x := bs 0x05; enabledB 0x05 x onForeman ∧ onForeman.cur.agent = .foreman 0 ∧ active x onForeman ≠ []) ∧
    (enabledB 0x06 (bs 0x06 0) onWarp ∧ (bs 0x06 0).d.toNat = 0 ∧ enabledB 0x06 (bs 0x06 65) onWarp ∧ 64 < (bs 0x06 65).d.toNat) ∧
    (enabledB 0x06 (bs 0x06 1) onWarp ∧ (bs 0x06 1).d.toNat = 1 ∧ enabledB 0x06 (bs 0x06 64) onWarp ∧ (bs 0x06 64).d.toNat = 64 ∧ 64 ≤ (regCounts onWarp).1) ∧
    (let b : Bin := ⟨0, 4, 5, 1, 0, false, []⟩;
      ([b].any fun b => b.gid == 0 && b.pc == 4 && b.key == 5) ∧ ([b].all fun b => !(b.gid == 0 && b.pc == 4 && b.key == 6)) ∧
      (List.replicate 15 b).length < 16 ∧ 16 ≤ (List.replicate 16 b).length) := by decide +kernel

theorem wit_TrapsAndFaultEntry : (enabledB 0x08 (bs 0x08) onWarp ∧ active (bs 0x08) onWarp ≠ []) ∧
    (let x := off (ex 0x09 0 0); enabledB 0x09 x onWarp ∧ active x onWarp = []) ∧
    (onWarp.cur.agent = .warp 0 0 ∧ (onWarp.group? 0).any fun g => g.life == .running) ∧
    (let s : State := { takeFault { code := cIll } onWarp with cur := onWarp.cur }; s.cur.agent = .warp 0 0 ∧ (s.group? 0).any fun g => match g.life with
      | .stopping _ _ => true
      | _ => false) ∧ onForeman.cur.agent = .foreman 0 ∧ (enabledB 0x08 (bs 0x08) onForeman ∧ active (bs 0x08) onForeman ≠ []) ∧ (enabledB 0x09 (bs 0x09) onMgmt ∧ active (bs 0x09) onMgmt ≠ []) := by decide +kernel

theorem wit_IssueChecks : (let x := ex 0x10 1 0; (view onWarp).isSome = true ∧ issueOrder onWarp.cur.agent (who onWarp).level 0x10 x (regCounts onWarp).1 (regCounts onWarp).2 = 5) ∧
    checkWords 0xE0 (bs 0xE0) ≠ 1 ∧ checkWords 0xEA (ex 0xEA 0 0) ≠ 1 ∧ checkWords 0xE5 (ex 0xE5 0 0) ≠ 1 ∧ (ex 0xE7 2 0).sub.toNat = 2 ∧ checkWords 0xE7 (ex 0xE7 2 0) ≠ 1 ∧
    checkWords 0xD5 (bs 0xD5) ≠ 1 := by decide +kernel

theorem wit_SyscallAndWsync : (let x := off (ex 0x0A 0 0); enabledB 0x0A x onWarp ∧ active x onWarp = []) ∧
    (let x := ex 0x0A 0 0; enabledB 0x0A x onWarp ∧ active x onWarp ≠ [] ∧ onWarp.cur.agent = .warp 0 0 ∧ (onWarp.group? 0).isSome) ∧
    (let x := off (lit (ex 0x0B 0 0) 3); enabledB 0x0B x onWarp ∧ active x onWarp = []) ∧
    (let x := lit (ex 0x0B 0 0) 0x100000003; enabledB 0x0B x onWarp ∧ active x onWarp ≠ [] ∧ 2 ^ 32 ≤ (bU x (viewOf onWarp).warp).toNat) ∧
    (let x := lit (ex 0x0B 0 0) 1; enabledB 0x0B x onWarp ∧ ∃ u ∈ active x onWarp, (bU x (viewOf onWarp).warp).toNat.testBit u.slot = false) ∧
    (let x := lit (ex 0x0B 0 0) 0xFFFFFFFF; enabledB 0x0B x onWarp ∧ active x onWarp ≠ [] ∧ (bU x (viewOf onWarp).warp).toNat < 2 ^ 32 ∧
      (∀ u ∈ active x onWarp, (bU x (viewOf onWarp).warp).toNat.testBit u.slot = true ∧ u.wid = 0) ∧ (active x onWarp).map Thread.tid = [0, 1]) ∧
    (let x := lit (ex 0x0B 0 0) 0xFFFFFFFF; let s := twoPaths onWarp; enabledB 0x0B x s ∧ (active x s).map Thread.tid = [0] ∧ (viewOf s).ths.map Thread.tid = [0] ∧
      ((s.group? 0).any fun g => g.threads.any fun k => k.tid == 1 && k.run == .path && k.wid == 0 && k.slot == 1)) ∧
    (let g : Group := { group with threads := [{ thread 0 with run := .wsync 3 4 }, { thread 1 with run := .wsync 3 4 }] }
     (g.threads.all fun u => u.run == .wsync 3 4) ∧ g.threads.all fun k => k.slot == 0 || k.slot == 1) := by decide +kernel

def sreadOf (d n : BitVec 8) : Enc := { bs 0x0C with d := d, a := n }
def swriteOf (n : BitVec 8) (l : BitVec 64) : Enc := { lit (ex 0x0D 0 0) l with d := n }
def clockOf' (n : BitVec 8) : Enc := { bs 0x0E with a := n }

theorem wit_StatusRegisters :
    (enabledB 0x0C (sreadOf 2 0x16) onWarp ∧ enabledB 0x0C (sreadOf 2 0x0E) onWarp ∧ enabledB 0x0C (sreadOf 0xC2 0x12) onWarp ∧ isUni (sreadOf 0xC2 0x12).d = true) ∧
    (enabledB 0x0C (sreadOf 2 0x15) onWarp ∧ enabledB 0x0C (sreadOf 2 0x0D) onWarp ∧ enabledB 0x0C (sreadOf 0xC2 0x07) onWarp ∧ onWarp.cur.agent = .warp 0 0 ∧
      (onWarp.group? 0).any fun g => g.pure.isNone) ∧
    (enabledB 0x0C (sreadOf 0xC2 0x03) onForeman ∧ active (sreadOf 0xC2 0x03) onForeman ≠ [] ∧ onForeman.cur.agent = .foreman 0 ∧
      ((onForeman.group? (foreGid 0)).bind Group.pure) = none) ∧
    (enabledB 0x0E (clockOf' 2) onWarp ∧ enabledB 0x0E (clockOf' 1) onWarp ∧ active (clockOf' 1) onWarp ≠ [] ∧ (who onWarp).phys = false ∧
      ((onWarp.group? (who onWarp).gid).bind Group.pure) = none) ∧
    (let x := off { ex 0x0E 0 0 with a := 1 }; enabledB 0x0E x onWarp ∧ active x onWarp = []) ∧
    (let s := onWarp.updGroup 0 fun g => { g with pure := some { ins := [], outs := [], digest := 0, meas := 0 } }
     enabledB 0x0E (clockOf' 0) s ∧ active (clockOf' 0) s ≠ [] ∧ ((s.group? (who s).gid).bind Group.pure).isSome = true) ∧
    (enabledB 0x0D (swriteOf 0x13 0) onWarp ∧ enabledB 0x0D (swriteOf 0x14 16) onUser ∧ (who onUser).level = 0 ∧ enabledB 0x0D (off (swriteOf 0x14 16)) onWarp ∧
      (who onWarp).level = 1 ∧ active (off (swriteOf 0x14 16)) onWarp = []) ∧
    (enabledB 0x0D (swriteOf 0x10 4) onWarp ∧ enabledB 0x0D (swriteOf 0x10 5) onWarp ∧ enabledB 0x0D (swriteOf 0x11 1) onWarp ∧ enabledB 0x0D (swriteOf 0x11 2) onWarp ∧
      enabledB 0x0D (swriteOf 0x15 255) onWarp ∧ enabledB 0x0D (swriteOf 0x15 256) onWarp ∧ enabledB 0x0D (swriteOf 0x12 31) onWarp ∧ enabledB 0x0D (swriteOf 0x14 65537) onWarp ∧
      active (swriteOf 0x10 4) onWarp ≠ [] ∧ (bU (swriteOf 0x15 256) (viewOf onWarp).warp).toNat = 256) ∧
    (enabledB 0x0D (swriteOf 0x14 65537) onMgmt ∧ active (swriteOf 0x14 65537) onMgmt ≠ []) := by decide +kernel

/-- A store of thread 0 that has not been performed. -/
def pkt : Packet :=
  { id := 9, gid := 0, core := 0, ctx := 1, tid := 0, ch := 1, dest := .die 1, seq := 0, run := 0, rs := false, rel := false, scope := 1, st := .flying, deps := []
    pay := .write 0 [(0, 1)] .raw, vpage := 0, ppage := 0, sent := 0 }
def sending (s : State) : State := { s with packets := [pkt] }
def word2 (x : Enc) (ch : BitVec 4) (scope : BitVec 3) (ord : BitVec 2) : Enc := { x with w2 := { x.w2 with ch := ch, scope := scope, ord := ord } }

/-- A release at this scope of these threads waits (the Bool of `Owes`). -/
def owes (s : State) (scope : Nat) (ths : List Thread) : Bool :=
  s.packets.any fun p => p.gid == (who s).gid && p.st != .done && (decide (2 ≤ scope) || isFabDest p.dest) && ths.any fun u => p.tid == u.tid || p.also.contains u.tid

theorem owes_spec (s : State) (scope : Nat) (ths : List Thread) : owes s scope ths = true ↔ Owes s scope ths := by
  simp [owes, Owes, and_assoc]

def fabbing (s : State) : State := { s with packets := [{ pkt with dest := .fab 0 3 }] }

theorem wit_FencesAndChannels :
    (let x := word2 (ex 0x90 0 0) 0 2 2; let s := sending onWarp; enabledB 0x90 x s ∧ active x s ≠ [] ∧ 2 ≤ x.w2.ord.toNat ∧ owes s x.w2.scope.toNat (active x s) = true) ∧
    (let x := word2 (ex 0x90 0 0) 0 1 2; let s := fabbing onWarp; enabledB 0x90 x s ∧ owes s x.w2.scope.toNat (active x s) = true ∧ owes (sending onWarp) x.w2.scope.toNat (active x s) = false) ∧
    (let x := word2 (ex 0x90 0 0) 0 2 3; let s := onWarp.updCore 0 fun c => { c with l1 := [⟨1, 66, 5, rawDesc, false⟩] }; enabledB 0x90 x s ∧ active x s ≠ [] ∧
      owes s x.w2.scope.toNat (active x s) = false ∧ s.cur.agent ≠ .mgmt) ∧
    (let x := word2 (ex 0x91 0 0) 2 1 0; enabledB 0x91 x (sending onWarp) ∧ active x (sending onWarp) ≠ []) ∧
    (let x := word2 (ex 0x92 0 0) 1 1 0; let s : State := { sending onWarp with nextId := 10 }; enabledB 0x92 x onWarp ∧ active x onWarp ≠ [] ∧ onWarp.cmdsOn 0 1 = [] ∧ onWarp.packets = [] ∧
      enabledB 0x92 x s ∧ (viewOf s).warp.drains = [] ∧ ∃ p ∈ s.packets, p.gid = (who s).gid ∧ p.ch = x.w2.ch.toNat ∧ p.cmd.getD p.id < s.nextId) ∧
    (let x := word2 (ex 0x93 0 0) 1 1 0; enabledB 0x93 x (sending onWarp) ∧ ((sending onWarp).pairsOf 0).length ≤ 64) ∧
    (let x := off (word2 (ex 0x91 0 0) 2 1 0); enabledB 0x91 x onWarp ∧ active x onWarp = []) ∧ enabledB 0x9A (ex 0x9A 1 0) onWarp := by decide +kernel

def tbarS (b : TBar) : State := onWarp.updTbar 0 0 fun _ => b
def d0 (x : Enc) : Enc := { x with d := 0 }
def a0 (x : Enc) : Enc := { x with a := 0 }

/-- Every thread of the issuing path is on it (the Bool of `OnPath`). -/
def onPath (s : State) : Bool := (viewOf s).ths.all fun u => u.run == .path

theorem onPath_spec (s : State) : onPath s = true ↔ OnPath s := by simp [onPath, OnPath]

theorem wit_Barriers : (let s := fabbing onWarp; enabledB 0x94 (bs 0x94) s ∧ owes s 1 (active (bs 0x94) s) = true) ∧
    (let s := sending onWarp; enabledB 0x95 (bs 0x95) s ∧ owes s 2 (active (bs 0x95) s) = true ∧ enabledB 0x94 (bs 0x94) s ∧ owes s 1 (active (bs 0x94) s) = false) ∧
    (let s := onWarp.updGroup 0 fun g => { g with gang := some (5, 0) }; enabledB 0x95 (bs 0x95) s ∧ owes s 2 (active (bs 0x95) s) = false ∧ onPath s = true ∧
      ((s.group? (who s).gid).bind Group.gang).isSome = true) ∧ ((onWarp.group? (who onWarp).gid).bind Group.gang) = none ∧
    (let s := twoPaths onWarp; enabledB 0x94 (bs 0x94) s ∧ owes s 1 (active (bs 0x94) s) = false ∧ onPath s = true ∧ (active (bs 0x94) s).map Thread.tid = [0] ∧
      ((s.group? 0).any fun g => g.threads.any fun k => k.tid == 1 && k.run == .path)) ∧
    (onPath onWarp = true ∧ (active (bs 0x94) onWarp).map Thread.tid = [0, 1]) ∧
    (let gr : Group := { group with threads := [{ thread 0 with run := .bar 4 false }, { thread 1 with run := .exited }] }
     (∃ u ∈ gr.threads, u.run ≠ .exited) ∧ (gr.threads.all fun u => u.run == .exited || u.run == .bar 4 false) ∧ ∃ u ∈ group.threads, u.run = .path) ∧
    (let s : State := { onWarp.updGroup 0 (fun g => { g with threads := g.threads.map fun u => { u with run := .gbar 4 } }) with gangs := [{ id := 5, size := 1, members := [(0, 0)] }] }
     (s.gangs.find? fun g => g.id == 5).any (fun gn => gn.live == [0]) ∧ (s.group? 0).any (fun g => g.threads.all fun u => u.run == .gbar 4) ∧ (onWarp.group? 0).any fun g => g.threads.any fun u => u.run == .path) ∧
    onPath onWarp = true ∧ (let x := d0 (lit (ex 0x96 0 0) 1024); enabledB 0x96 x onWarp ∧ (tbarOf onWarp x.d.toNat).isSome ∧ active x onWarp ≠ [] ∧ (bU x (viewOf onWarp).warp).toNat = 1024) ∧
    (let x := d0 (lit (ex 0x96 0 0) 1); enabledB 0x96 x onWarp ∧ (bU x (viewOf onWarp).warp).toNat = 1) ∧
    (let x := d0 (lit (ex 0x96 0 0) 1025); enabledB 0x96 x onWarp ∧ active x onWarp ≠ [] ∧ (bU x (viewOf onWarp).warp).toNat = 1025) ∧
    (let x := d0 (lit (ex 0x97 0 0) 0x10000000000); enabledB 0x97 x onWarp ∧ (tbarOf onWarp x.d.toNat).isSome ∧ active x onWarp ≠ []) ∧
    (let x := d0 (lit (ex 0x97 0 0) 0xFFFFFFFFFF); enabledB 0x97 x onWarp ∧ (tbarOf onWarp x.d.toNat).any (fun b => b.init) ∧ (tbarOf (tbarS {}) x.d.toNat).any fun b => !b.init) ∧
    (let x := a0 (bs 0x98); enabledB 0x98 x onWarp ∧ active x onWarp ≠ [] ∧ (tbarOf onWarp x.a.toNat).any (fun b => b.init && (tbArrive (active x onWarp) b).isSome) ∧
      (tbarOf (tbarS { init := true, want := 1, txbal := 1 }) x.a.toNat).any fun b => tbArrive (active x onWarp) b == none) ∧ (enabledB 0x99 (d0 (bs 0x99)) onWarp ∧ (tbarOf onWarp (d0 (bs 0x99)).d.toNat).isSome) ∧
    (let x := lit (ex 0x96 0 0) 1; enabledB 0x96 x onWarp ∧ tbarOf onWarp x.d.toNat = none) ∧ (let x := off (d0 (ex 0x99 0 0)); enabledB 0x99 x onWarp ∧ active x onWarp = []) ∧
    (let b : TBar := { init := true, want := 2, arrived := 1 }; b.init = true ∧ b.arrived < b.want ∧ b.arrived + 1 = b.want ∧ b.txbal = 0) ∧
    (let b : TBar := { init := true, want := 2, arrived := 2, txbal := 1 }; b.arrived = b.want) := by decide +kernel

/-! ### Accesses that pass: the Bool of each structure of hypotheses, and that it gives them -/

def loadOk (op : Nat) (x : Enc) (s : State) (kind : LoadKind) (asize align : Nat) (va : Warp → Thread → BitVec 64) (idx : Warp → Thread → Nat) : Bool :=
  match checkAll s (who s) (who s).owner (wantsOf op x s asize 1 align va) with
  | .ok as =>
    !(memThreads op x (viewOf s)).isEmpty &&
      !(xlatWait s (who s).core (who s).ctx as || blockWait s (who s) none as || loadsWait s (who s).core as || fabWait s (who s) x.w2.ch.toNat as) &&
      decide (∀ a ∈ as, a.fab = none ∧ s.poisonedAt a.pa = false) && !(s.cur.defer && kind == .load) &&
      match readAll (who s) true x.w2.scope.toNat x.w2.hint.toNat (List.zipWith (fun a u => (a, idx (viewOf s).warp u)) as (memThreads op x (viewOf s)))
        (s.tlbFill (as.flatMap Acc.fills)) with
      | .ok gs _ => ((List.zipWith (fun a g => (a, g)) as gs).find? fun p => badFormat kind p.2.sec).isNone
      | _ => false
  | _ => false

theorem loadOk_spec {op x s kind asize align va idx} (h : loadOk op x s kind asize align va idx = true) :
    ∃ as gs s2, LoadPasses op x s kind asize align va idx as gs s2 := by
  unfold loadOk at h
  split at h
  · rename_i as hc
    simp only [Bool.and_eq_true, Bool.not_eq_true', decide_eq_true_eq, List.isEmpty_eq_false_iff] at h
    obtain ⟨⟨⟨⟨h1, h2⟩, h3⟩, h4⟩, h5⟩ := h
    split at h5
    · rename_i gs s2 hr
      exact ⟨as, gs, s2, ⟨h1, hc, h2, h3, h4, hr, by simpa using h5⟩⟩
    · exact absurd h5 (by simp)
  · exact absurd h (by simp)

def storeOk (op : Nat) (x : Enc) (s : State) (put : List Acc → List Put) (size align : Nat) (va : Warp → Thread → BitVec 64) : Bool :=
  match checkAll s (who s) (who s).owner (wantsOf op x s size 2 align va) with
  | .ok as =>
    !(memThreads op x (viewOf s)).isEmpty && !(xlatWait s (who s).core (who s).ctx as || loadsWait s (who s).core as) &&
      decide (∀ a ∈ as, a.fab = none → s.poisonedAt a.pa = false) &&
      match putAll (who s) x.w2.ch.toNat x.w2.ord.toNat x.w2.scope x.w2.hint.toNat
        (fun tid => releasePts s (who s) ((viewOf s).ths.find? fun u => u.tid == tid) x.w2.ord.toNat x.w2.scope.toNat) (blockPuts (put as))
        (s.tlbFill (as.flatMap Acc.fills)) with
      | (.go, _) => true
      | _ => false
  | _ => false

theorem storeOk_spec {op x s put size align va} (h : storeOk op x s put size align va = true) : ∃ as s2, StorePasses op x s as (put as) size align va s2 := by
  unfold storeOk at h
  split at h
  · rename_i as hc
    simp only [Bool.and_eq_true, Bool.not_eq_true', decide_eq_true_eq, List.isEmpty_eq_false_iff] at h
    obtain ⟨⟨⟨h1, h2⟩, h3⟩, h4⟩ := h
    split at h4
    · rename_i s2 hp
      exact ⟨as, s2, ⟨h1, hc, h2, h3, hp⟩⟩
    · exact absurd h4 (by simp)
  · exact absurd h (by simp)

def recordOk (s : State) (u : Thread) (va : BitVec 64) (size align : Nat) : Bool :=
  match checkAll s (who s) (who s).owner [{ tid := u.tid, slot := u.slot, va := va, size := size, acc := 1, align := align }] with
  | .ok as => decide (∀ a ∈ as, a.fab = none ∧ s.poisonedAt a.pa = false) &&
      !(xlatWait s (who s).core (who s).ctx as || blockWait s (who s) none as || loadsWait s (who s).core as) &&
      match readAll (who s) true 1 0 (as.map fun a => (a, 0)) (s.tlbFill (as.flatMap Acc.fills)) with
      | .ok (_ :: _) _ => true
      | _ => false
  | _ => false

theorem recordOk_spec {s u va size align} (h : recordOk s u va size align = true) : ∃ rec s', RecordRead s u va size align rec s' := by
  unfold recordOk at h
  split at h
  · rename_i as hc
    simp only [Bool.and_eq_true, Bool.not_eq_true', decide_eq_true_eq] at h
    obtain ⟨⟨h1, h2⟩, h3⟩ := h
    split at h3
    · rename_i g gs s' hr
      exact ⟨_, s', as, hc, .inl ⟨g, gs, h1, h2, hr, rfl⟩⟩
    · exact absurd h3 (by simp)
  · exact absurd h (by simp)

/-- The accesses that passed their checks. -/
def accs (r : ChkRes Acc) : Option (List Acc) := match r with
  | .ok as => some as
  | _ => none

theorem accs_spec {r : ChkRes Acc} {as : List Acc} (h : accs r = some as) : r = .ok as := by
  cases r <;> simp_all [accs]

def oks {α : Type} (r : ChkRes α) : Bool := match r with
  | .ok _ => true
  | _ => false

theorem oks_spec {α : Type} {r : ChkRes α} (h : oks r = true) : ∃ as, r = .ok as := by
  cases r <;> simp_all [oks]

def faults {α : Type} (r : ChkRes α) : Bool := match r with
  | .fault _ _ _ => true
  | _ => false

theorem faults_spec {α : Type} {r : ChkRes α} (h : faults r = true) : ∃ tid slot f, r = .fault tid slot f := by
  cases r <;> simp_all [faults]

def yes (b : Bool) : Bool := b

/-! ### Memory -/

theorem wit_ReadAfterWrite : SMap.wf (0 : Byte) onWarp.mem = true ∧ 65535 % 65536 + 1 ≤ 65536 ∧ 65528 % 65536 + 8 ≤ 65536 ∧ (∀ c ∈ [(0x1000, 1)], onWarp.fwd c.1 ≠ onWarp.fwd 0x1001) ∧
    63 % 64 + 1 ≤ 64 ∧ ∀ c ∈ cellsOf 0 4 0, c.1 % 64 ≠ 4 := by decide +kernel

/-- A load through s4, which holds 256, and a vector load whose addresses are v5:v4. -/
def ldU : Enc := un 0x70 0 15 0
def ldwV : Enc := bs 0x71 0
def lowV (s : State) : State := withV (withV (withV s 4 0x100) 5 0) 8 0

/-- A fragment that cluster 3 holds for writing, one that nobody holds, and a sector in core 0's L1. -/
def fragW : Frag := { id := 7, blocks := [64], wts := 4, rts := 9, ver := 1, holder := some (.cluster 3, 1) }
def fragF : Frag := { id := 8, blocks := [65], wts := 4, rts := 9, ver := 1 }
def claimed' (s : State) : State := { s with frags := [fragW, fragF] }
def cached (s : State) : State := s.updCore 0 fun c => { c with l1 := [⟨1, 66, 5, rawDesc, false⟩] }

theorem wit_GlobalLoads : (enabledB 0x70 ldU onWarp ∧ loadOk 0x70 ldU onWarp .load ldU.ty.bytes ldU.ty.bytes (fun w u => memAddr ldU w u ldU.ty.bytes) (fun _ _ => 0)) ∧
    (let s := lowV onWarp; let x := ex 0x70 0 15 0; enabledB 0x70 x s ∧ loadOk 0x70 x s .load x.ty.bytes x.ty.bytes (fun w u => memAddr x w u x.ty.bytes) (fun _ _ => 0)) ∧
    (let s := lowV onWarp; enabledB 0x71 ldwV s ∧ let n := 4 * wideOf 0x71 ldwV.sub.toNat; loadOk 0x71 ldwV s .load n n (fun w u => memAddr ldwV w u 4) (fun _ _ => 0)) ∧
    (let x := un 0x80 0 0 0; enabledB 0x80 x onWarp ∧ x.sub.toNat ≠ 1 ∧ loadOk 0x80 x onWarp .dget 1 1 (fun w u => memAddr x w u 64) (fun _ _ => 0)) ∧
    (let x := { un 0x82 0 10 0 with b := 0xC0 }; let s := onWarp.setDesc 0x100 0x0281; enabledB 0x82 x s ∧ x.sub.toNat ≠ 1 ∧
      loadOk 0x82 x s .ldb 64 64 (fun w u => memAddr x w u 1) (fun w u => rdOp w u x.c 32 % 128)) ∧
    (let x := off (ex 0x70 0 15 0); enabledB 0x70 x onWarp ∧ active x onWarp = []) ∧
    (let s := cached (claimed' onWarp); s.waitsAt (66 * 64) = false ∧ isFlistad (66 * 64) = true ∧ s.frag? (66 * 64) = none ∧ (s.l1Find 0 1 (66 * 64)).any (fun l => !l.ro) ∧ s.l1Find 0 1 (67 * 64) = none ∧ s.l1Find 0 2 (66 * 64) = none ∧
      let v (pa : Nat) : State := (s.touch 1 pa).visitAt pa
      ((v (64 * 64)).frag? (64 * 64)).any (fun f => f.holder.isSome) ∧ ((v (64 * 64)).cluster 0).claim? 7 1 = none ∧ ((v (65 * 64)).frag? (65 * 64)).any (fun f => f.holder.isNone) ∧
      ((v (65 * 64)).cluster 0).claim? 8 1 = none) ∧
    -- a load that is deferred
    (let x := ldU; let s : State := { onWarp with cur := { onWarp.cur with defer := true } }; enabledB 0x70 x s ∧ memThreads 0x70 x (viewOf s) ≠ [] ∧
      yes (match checkAll s (who s) (who s).owner (wantsOf 0x70 x s x.ty.bytes 1 x.ty.bytes fun w u => memAddr x w u x.ty.bytes) with
      | .ok as => !(xlatWait s (who s).core (who s).ctx as || blockWait s (who s) none as || loadsWait s (who s).core as || fabWait s (who s) x.w2.ch.toNat as) &&
          as.all fun a => !s.poisonedAt a.pa
      | _ => false)) := by
  decide +kernel

theorem wit_AccessFaults : (let x := ex 0x70 0 15 0; enabledB 0x70 x onWarp ∧ memThreads 0x70 x (viewOf onWarp) ≠ [] ∧
      faults (checkAll onWarp (who onWarp) (who onWarp).owner (wantsOf 0x70 x onWarp x.ty.bytes 1 x.ty.bytes fun w u => memAddr x w u x.ty.bytes))) ∧
    (let x := ex 0x74 0 15 0; enabledB 0x74 x onWarp ∧ memThreads 0x74 x (viewOf onWarp) ≠ [] ∧
      faults (checkAll onWarp (who onWarp) (who onWarp).owner (wantsOf 0x74 x onWarp x.ty.bytes 2 x.ty.bytes fun w u => memAddr x w u x.ty.bytes))) ∧
    (0x101 % 4 ≠ 0) := by decide +kernel

def scratchOk (op : Nat) (x : Enc) (s : State) (acc size asize : Nat) (kind : LoadKind) (off : Thread → Nat) : Bool :=
  (s.group? (who s).gid).any fun g => !(memThreads op x (viewOf s)).isEmpty && (memThreads op x (viewOf s)).all fun u =>
    match checkScratch s g (off u) size acc asize with
    | .ok gid o => (s.group? gid).any fun h => !h.scr.poison.contains (o / 64) && !badFormat kind (h.scr.sec o)
    | _ => false

/-- The offset 256 in s4 and 260 in the vector form. -/
def ldsU : Enc := un 0x72 0 0 0

theorem wit_ScratchAndConstantLoads :
    (enabledB 0x72 ldsU onWarp ∧ scratchOk 0x72 ldsU onWarp 1 (scrSize 0x72 ldsU).1 (scrSize 0x72 ldsU).1 .load fun u => memAddr32 ldsU (viewOf onWarp).warp u (scrSize 0x72 ldsU).2) ∧
    (let x := un 0x80 1 0 0; enabledB 0x80 x onWarp ∧ x.sub.toNat = 1 ∧ scratchOk 0x80 x onWarp 1 1 1 .dget fun u => memAddr32 x (viewOf onWarp).warp u 64) ∧
    (let x := { un 0x82 1 10 0 with b := 0xC0 }; let s := onWarp.updGroup 0 fun g => { g with scr := { g.scr with desc := [(4, 0x0281)] } }
     enabledB 0x82 x s ∧ x.sub.toNat = 1 ∧ scratchOk 0x82 x s 1 64 64 .ldb fun u => memAddr32 x (viewOf s).warp u 1) ∧
    (let x := { un 0x73 0 0 0 with a := 0xC0, b := 0xC0 }; let s := onWarp; enabledB 0x73 x s ∧ memThreads 0x73 x (viewOf s) ≠ [] ∧ yes (match s.group? (who s).gid with
      | some g => match collect ((memThreads 0x73 x (viewOf s)).map fun u => let o := memAddr32 x (viewOf s).warp u x.ty.bytes
          (({ tid := u.tid, slot := u.slot, va := BitVec.ofNat 64 o, size := x.ty.bytes, acc := 1, align := x.ty.bytes } : Want), checkConst s (who s) g u o x.ty.bytes)) with
        | .ok as => (as.all fun a => !s.poisonedAt a.pa) && (match readAll (who s) false 3 0 (as.map fun a => (a, 0)) (s.tlbFill (as.flatMap Acc.fills)) with
          | .ok _ _ => true
          | _ => false)
        | _ => false
      | none => false)) ∧
    (let x := un 0x7B 0 15 0; let s := onWarp; enabledB 0x7B x s ∧ memThreads 0x7B x (viewOf s) ≠ [] ∧
      yes (match collect ((wantsOf 0x7B x s (x.bits / 8) 1 (x.bits / 8) fun w u => memAddr x w u (x.bits / 8)).map fun q => (q, checkRmw s (who s) (who s).owner true false q)) with
      | .ok as => !(xlatWait s (who s).core (who s).ctx as || blockWait s (who s) none as || loadsWait s (who s).core as) && decide (∀ a ∈ as, a.fab = none ∧ s.poisonedAt a.pa = false) &&
        (match readAll (who s) false x.w2.scope.toNat x.w2.hint.toNat (as.map fun a => (a, 0)) (s.tlbFill (as.flatMap Acc.fills)) with
        | .ok _ _ => true
        | _ => false)
      | _ => false)) := by decide +kernel

theorem wit_GlobalStores :
    (let x := un 0x74 0 15 0; let s := onWarp; enabledB 0x74 x s ∧ storeOk 0x74 x s (fun as => List.zipWith (fun (a : Acc) u =>
      (⟨a, cellsOf a.at x.ty.bytes (rdData (viewOf s).warp u x.d x.ty.bytes), .raw⟩ : Put)) as (memThreads 0x74 x (viewOf s))) x.ty.bytes x.ty.bytes (fun w u => memAddr x w u x.ty.bytes)) ∧
    (let x := un 0x81 0 0 0; let s := onWarp; enabledB 0x81 x s ∧ x.sub.toNat ≠ 1 ∧ storeOk 0x81 x s (fun as => List.zipWith (fun (a : Acc) u =>
      (⟨a, [], .put (BitVec.ofNat 16 (rdOp (viewOf s).warp u x.d 32))⟩ : Put)) as (memThreads 0x81 x (viewOf s))) 1 1 (fun w u => memAddr x w u 64)) ∧
    (let x := un 0x74 0 15 0; nexts (exec (.st x) onWarp)) ∧ (let x := off (un 0x76 0 0 0); enabledB 0x76 x onWarp ∧ active x onWarp = []) ∧
    (let x := off (ex 0x51 2 19); enabledB 0x51 x onWarp ∧ active x onWarp = [] ∧ x.c.toNat ∈ [1, 2, 4, 8] ∧ 32 * x.c.toNat % blkElems (x.sub.toNat % 16) = 0) ∧
    (let x := un 0x74 0 15 0; let s := onWarp; enabledB 0x74 x s ∧ yes (match memThreads 0x74 x (viewOf s), checkAll s (who s) (who s).owner (wantsOf 0x74 x s x.ty.bytes 2 x.ty.bytes fun w u => memAddr x w u x.ty.bytes) with
      | [_], .ok [a] => !(xlatWait s (who s).core (who s).ctx [a] || loadsWait s (who s).core [a]) && a.fab.isNone && !s.poisonedAt a.pa && isFlistad a.pa && (s.frag? a.pa).isNone && !s.waitsAt a.pa &&
          decide (a.pa % 64 + x.ty.bytes ≤ 64) && s.destOf a == .die (who s).die && !s.cur.defer
      | _, _ => false) ∧ s.packets = [] ∧ s.cmdsOn (who s).gid x.w2.ch.toNat = [] ∧ s.joinsOf (who s).gid = [] ∧ s.pairsOf (who s).gid = [] ∧ (s.retained ((who s).core / 4)).length < 4096 ∧
      Canonical s) ∧
    (Canonical State.reset ∧ isFlistad 60 = true ∧ State.reset.frag? 60 = none ∧ State.reset.poisonedAt 60 = false ∧ 60 % 64 + 4 ≤ 64) ∧
    ((State.reset.setPoison 3).poisonedAt (3 * 64) = true ∧ coversBlock (cellsOf (3 * 64) 4 0) = false) := by
  simp only [Canonical]
  decide +kernel

theorem wit_ScratchStores :
    (let x := un 0x76 0 0 0; let s := onWarp; enabledB 0x76 x s ∧ relWait s 0 x (memThreads 0x76 x (viewOf s)) = false ∧
      scratchOk 0x76 x s 2 (scrSize 0x76 x).1 (scrSize 0x76 x).1 .load fun u => memAddr32 x (viewOf s).warp u (scrSize 0x76 x).2) ∧
    (let x := un 0x81 1 0 0; let s := onWarp; enabledB 0x81 x s ∧ x.sub.toNat = 1 ∧ scratchOk 0x81 x s 2 1 1 .load fun u => memAddr32 x (viewOf s).warp u 64) ∧
    (let x := un 0x77 0 0 0; let s := withS (onWarp.updGroup 0 fun g => { g with gang := some (5, 0), gsize := 1 }) 12 1
     let s : State := { s with gangs := [{ id := 5, size := 1, members := [(0, 0)] }] }
     enabledB 0x77 x s ∧ memThreads 0x77 x (viewOf s) ≠ [] ∧ relWait s 0 x (memThreads 0x77 x (viewOf s)) = false ∧ yes (match s.group? 0 with
      | some g => ((memThreads 0x77 x (viewOf s)).all fun u => match stmParts s g (memAddr32 x (viewOf s).warp u (scrSize 0x77 x).2) (scrSize 0x77 x).1 ((rdU (viewOf s).warp x.c).toNat % 2 ^ 16) with
        | .ok _ => true
        | _ => false)
      | none => false)) ∧
    (let x := un 0x76 0 0 0; let s : State := { onWarp with packets := [{ pkt with dest := .die 0 }] }; enabledB 0x76 x s ∧ memThreads 0x76 x (viewOf s) ≠ [] ∧ relWait s 0 x (memThreads 0x76 x (viewOf s)) = true) ∧
    ((onWarp.group? 0).any fun g => g.frameRun.isNone) ∧ (∀ q ∈ cellsOf 0 4 0, q.1 ≠ 4) := by decide +kernel

theorem wit_QuantisedStore : (let x := ex 0x51 2 19 3; enabledB 0x51 x onWarp ∧ x.c.toNat ∉ [1, 2, 4, 8]) ∧
    (let x := { un 0x51 2 19 1 with d := 2 }; let s := withS onWarp 8 0; enabledB 0x51 x s ∧ x.c.toNat ∈ [1, 2, 4, 8] ∧ 32 * x.c.toNat % blkElems (x.sub.toNat % 16) = 0 ∧
      yes (match active x s with
      | u :: _ => oks (checkAll s (who s) (who s).owner ((List.range (32 * x.c.toNat / blkElems (x.sub.toNat % 16))).map fun j =>
          { tid := u.tid, slot := u.slot, va := memAddr x (viewOf s).warp u 64 + BitVec.ofNat 64 (64 * j), size := 64, acc := 2, align := 64 }))
      | [] => false)) := by decide +kernel

def rmwOk (op : Nat) (x : Enc) (s : State) (lr host : Bool) (n acc : Nat) : Option (List Acc) :=
  accs (collect ((wantsOf op x s n acc n fun w u => memAddr x w u n).map fun q => (q, checkRmw s (who s) (who s).owner lr host q)))

theorem wit_GlobalAtomics : Ty.isInt .n32 = true ∧ (2 ^ 32 - 1 < 2 ^ Ty.bits .n32) ∧
    (let x := { un 0x78 0 0 0 with d := 2, c := 12, e := 0 }; let s := onWarp; enabledB 0x78 x s ∧ memThreads 0x78 x (viewOf s) ≠ [] ∧
      yes (match rmwOk 0x78 x s false (hostAtomic (x.sub.toNat % 32) x.ty) x.ty.bytes 3 with
      | some as => !(xlatWait s (who s).core (who s).ctx as || loadsWait s (who s).core as) && decide (∀ a ∈ as, a.fab = none ∧ s.poisonedAt a.pa = false) &&
        (match rmwAll (who s) x.w2.ch.toNat x.w2.ord.toNat x.w2.scope
          (fun tid => releasePts s (who s) ((viewOf s).ths.find? fun u => u.tid == tid) x.w2.ord.toNat x.w2.scope.toNat) (some (s.tlbFill (as.flatMap Acc.fills)).fresh.1)
          (List.zipWith (fun (a : Acc) u => (a, Pay.atom a.at (x.sub.toNat % 32) (fld x.mod 4 0) (BitVec.ofNat 64 (rdOp (viewOf s).warp u x.c x.bits))
            (BitVec.ofNat 64 (rdOp (viewOf s).warp u x.e x.bits)))) as (memThreads 0x78 x (viewOf s))) (s.tlbFill (as.flatMap Acc.fills)).fresh.2 with
        | .ok rs _ => decide (∀ r ∈ rs, r.2.1.isSome = true)
        | _ => false)
      | none => false)) ∧
    (isFlistad 60 = true ∧ State.reset.frag? 60 = none ∧ 60 % 64 + Ty.bits .n32 / 8 ≤ 64) ∧ (let x := off (ex 0x78 0 0 0); enabledB 0x78 x onWarp ∧ active x onWarp = []) := by decide +kernel

theorem wit_ReservationsAndScratchAtomics :
    ((sending onWarp).holdsResv 0 0 5 = false) ∧ ((onWarp.updGroup 0 fun g => { g with threads := g.threads.map fun t => { t with resv := some (5, 0) } }).holdsResv 0 0 5 = true) ∧
    (let x := { un 0x7C 0 15 0 with c := 12 }; let s := onWarp; enabledB 0x7C x s ∧ memThreads 0x7C x (viewOf s) ≠ [] ∧ yes (match rmwOk 0x7C x s true false (x.bits / 8) 2 with
      | some as => !(xlatWait s (who s).core (who s).ctx as || loadsWait s (who s).core as) && decide (∀ a ∈ as, s.holdsResv (who s).gid a.tid (s.blk a.pa) = false)
      | none => false)) ∧
    (let x := { un 0x7C 0 15 0 with c := 12 }; let s := (twoPaths onWarp).updGroup 0 fun g => { g with threads := g.threads.map fun t => { t with resv := some (12, 0) } }
     enabledB 0x7C x s ∧ yes (match memThreads 0x7C x (viewOf s), rmwOk 0x7C x s true false (x.bits / 8) 2 with
      | [_], some [a] => !(xlatWait s (who s).core (who s).ctx [a] || loadsWait s (who s).core [a]) && s.holdsResv (who s).gid a.tid (s.blk a.pa) && isFlistad a.pa && !s.poisonedAt a.pa && !s.waitsAt a.pa &&
          (s.frag? a.pa).isNone && decide (a.pa % 64 + x.bits / 8 ≤ 64) && s.pairRoom (who s) x.w2.ch.toNat (s.destOf a) 1 &&
          (s.chanDeps (who s) a.tid x.w2.ch.toNat (s.destOf a) (decide (2 ≤ x.w2.ord.toNat)) x.w2.scope.toNat a.pa none).isEmpty
      | _, _ => false)) ∧
    (let x := un 0x79 0 0 0; let s := onWarp; enabledB 0x79 x s ∧ relWait s 0 x (memThreads 0x79 x (viewOf s)) = false ∧
      scratchOk 0x79 x s 3 x.ty.bytes x.ty.bytes .load fun u => memAddr32 x (viewOf s).warp u x.ty.bytes) ∧
    (let x := un 0x7A 2 15 0; let s := onWarp; enabledB 0x7A x s ∧ x.sub.toNat = 2 ∧
      scratchOk 0x7A x s 3 (x.bits / 8) (x.bits / 8) .load fun u => memAddr32 x (viewOf s).warp u (x.bits / 8)) := by decide +kernel

theorem wit_CacheMaintenance : enabledB 0x7D (bs 0x7D) onWarp ∧ enabledB 0x7F (bs 0x7F) onWarp ∧ enabledB 0x7F (ex 0x7F 1 0) onWarp ∧
    (let x := un 0x7E 0 0 0; let s := onWarp; enabledB 0x7E x s ∧ oks (collect ((memThreads 0x7E x (viewOf s)).map fun u =>
      let va := memAddr x (viewOf s).warp u 256
      (({ tid := u.tid, slot := u.slot, va := va, size := 1, acc := 1, align := 1 } : Want),
        if isFabric va then AccRes.ok { tid := u.tid, slot := u.slot, va := va, size := 1, pa := 0, fab := some (0, 0) }
        else if s.inDeadWin (who s).ctx va then .bad 2 (xlateFlt va 1 0 0 0)
        else match translate s (who s).owner ((who s).die % 8) (who s).ctx va 1 with
          | .ok r => .ok { tid := u.tid, slot := u.slot, va := va, size := 1, pa := r.pa, fills := r.fills }
          | .fail f => .bad 2 f
          | .recall f => .recall f
          | .blocked => .blocked))) = true) := by decide +kernel

/-! ### Handles, claims, watchpoints -/

def memAt (s : State) (pa n v : Nat) : State := s.wrCells (cellsOf pa n v)
/-- A region of 64 elements of four bytes at 0x400, in one dimension. -/
def rgn : BitVec 512 := BitVec.ofNat 512 (0x400 + 3 * 2 ^ 64 + 2 ^ 72 + 64 * 2 ^ 128 + 2 ^ 160 + 2 ^ 192 + 2 ^ 224 + 2 ^ 256)
def frag16 : Frag := { id := 11, blocks := [16, 17, 18, 19], wts := 4, rts := 9, ver := 1 }
def handle5 : Handle := { ctx := 1, id := 5, region := rgn, blocks := [16, 17, 18, 19] }
/-- s4 names the handle 5, whose fragment `f` is. -/
def handled (f : Frag) (s : State) : State := withS { s with handles := [handle5], frags := [f] } 4 5
def pureS (s : State) : State := s.updGroup 0 fun g => { g with pure := some { ins := [], outs := [], digest := 0, meas := 0 } }

/-- A register names this handle. -/
def names (s : State) (v : Word64) (h : Handle) : Bool := match s.handleAt v with
  | .ok k => k == h
  | _ => false

theorem names_spec {s : State} {v : Word64} {h : Handle} (e : names s v h = true) : s.handleAt v = .ok h := by
  unfold names at e
  split at e
  · rename_i k hk; rw [hk, eq_of_beq e]
  · exact absurd e (by simp)

theorem wit_Handles :
    (let x := { bs 0xA0 0 with a := 0xC4 }; let s := memAt onWarp 0x100 64 rgn.toNat; enabledB 0xA0 x s ∧ active x s ≠ [] ∧ pureNow s = none ∧
      (active x s).head?.any (fun u => recordOk s u (memAddr x (viewOf s).warp u 64) 64 64)) ∧
    (let x := un 0xA4 0 0; let s := withS (memAt (handled frag16 onWarp) 0x200 32 0) 8 0x200; enabledB 0xA4 x s ∧ active x s ≠ [] ∧
      names s (rdU (viewOf s).warp x.a) handle5 ∧ (active x s).head?.any (fun u => recordOk s u (rdU (viewOf s).warp x.b) 32 32)) ∧
    (rgnBad 0 = true ∧ rgnBad rgn = false ∧ (let w := who onWarp; yes (match claimSet w (rgnBlocks rgn) onWarp with
      | .ok l s1 => l == [16, 17, 18, 19] && l.all (fun b => !onWarp.waitsAt (b * 64)) && (s1.freeId w.ctx).any (fun id => s1.fragRoom { ctx := w.ctx, id := id, region := rgn, blocks := l } &&
          !(s1.updCtx 1 fun c => { c with img := 0 }).fragRoom { ctx := w.ctx, id := id, region := rgn, blocks := l })
      | _ => false))) ∧
    (onWarp.freeId 1 = some 1 ∧ (handled frag16 onWarp).freeId 1 = some 1) ∧
    (let x := un 0xA1 0 0; let s := handled frag16 onWarp; enabledB 0xA1 x s ∧ active x s ≠ [] ∧ pureNow s = none ∧ names s (rdU (viewOf s).warp x.a) handle5 ∧
      ∀ f ∈ s.freeDrops handle5, (f.holder.isNone ∧ ∀ b ∈ f.blocks, s.waitsAt (b * 64) = false)) ∧
    (let x := un 0xA0 0 0; let s := pureS onWarp; enabledB 0xA0 x s ∧ active x s ≠ [] ∧ (pureNow s).isSome = true) ∧
    (let x := off (un 0xA2 1 0); enabledB 0xA2 x onWarp ∧ active x onWarp = []) ∧
    (2 ^ 16 ≤ (0x10000 : Word64).toNat ∧ (0xFFFF : Word64).toNat < 2 ^ 16 ∧ onWarp.handle? (who onWarp).ctx 0xFFFF = none ∧ (handled frag16 onWarp).handle? 1 5 = some handle5) ∧
    (let x := un 0xA5 5 0; enabledB 0xA5 x onWarp ∧ active x onWarp ≠ [] ∧ (match onWarp.handleAt (rdU (viewOf onWarp).warp x.a) with
      | .error _ => true
      | _ => false) = true) ∧ (let x := un 0xA5 0 0; let s := handled frag16 onWarp; enabledB 0xA5 x s ∧ names s (rdU (viewOf s).warp x.a) handle5) := by decide +kernel

theorem wit_Claims :
    (let x := lit (un 0xA2 0 0) 255; let s := handled frag16 onWarp; enabledB 0xA2 x s ∧ active x s ≠ [] ∧ (bU x (viewOf s).warp).toNat = 255 ∧
      names s (rdU (viewOf s).warp x.a) handle5 ∧ pureNow s = none ∧ (byBlock ((s.visitHandle handle5).fragsOf handle5)).length ≤ 1024 ∧ (∀ b ∈ handle5.blocks, s.waitsAt (b * 64) = false) ∧
      ∀ f ∈ byBlock ((s.visitHandle handle5).fragsOf handle5), f.holder = none) ∧
    (let x := un 0xA2 1 0; let s := handled { frag16 with holder := some (.cluster 0, 1) } onWarp; enabledB 0xA2 x s ∧ names s (rdU (viewOf s).warp x.a) handle5 ∧
      ∀ f ∈ byBlock ((s.visitHandle handle5).fragsOf handle5), f.holder = some (.cluster (who s).cl, (who s).ctx)) ∧
    (let x := un 0xA2 1 0; let s := handled { frag16 with holder := some (.cluster 3, 1) } onWarp; enabledB 0xA2 x s ∧ names s (rdU (viewOf s).warp x.a) handle5 ∧
      ∃ f ∈ byBlock ((s.visitHandle handle5).fragsOf handle5), f.holder.isSome = true ∧ f.holder ≠ some (.cluster (who s).cl, (who s).ctx)) ∧
    (let s := handled frag16 onWarp; ∀ f ∈ [frag16], (s.frags.find? fun g => g.id == f.id).isSome = true ∧ f.holder ≠ some (.cluster 0, 1)) ∧
    (let x := un 0xA3 0 0; let s := handled frag16 onWarp; enabledB 0xA3 x s ∧ active x s ≠ [] ∧ names s (rdU (viewOf s).warp x.a) handle5 ∧
      ∀ b ∈ frag16.blocks, s.waitsAt (b * 64) = false) := by decide +kernel

theorem wit_Watchpoints : (let x := lit (ex 0xA8 0 0 7) 4; enabledB 0xA8 x onWarp ∧ active x onWarp ≠ [] ∧ watchModeOk (bU x (viewOf onWarp).warp).toNat = false) ∧
    (let x := { lit (ex 0xA8 0 0 7) 0x7F with a := 0xC4 }; let s := handled frag16 onWarp; enabledB 0xA8 x s ∧ watchModeOk (bU x (viewOf s).warp).toNat = true ∧
      names s (rdU (viewOf s).warp x.a) handle5 ∧ pureNow s = none ∧ (bU x (viewOf s).warp).toNat.testBit 6 = true ∧ s.guestsOn handle5 = [] ∧
      x.d.toNat < (s.context (who s).ctx).watches.length) ∧
    (enabledB 0xA9 (bs 0xA9 7) onWarp ∧ active (bs 0xA9 7) onWarp ≠ [] ∧ pureNow onWarp = none) ∧ (enabledB 0xAA (bs 0xAA 7) onWarp ∧ active (bs 0xAA 7) onWarp ≠ []) ∧
    (let x := off (ex 0xAA 0 0); enabledB 0xAA x onWarp ∧ active x onWarp = []) ∧ ((onWarp.context 1).watches)[7]?.isSome ∧ ((onWarp.context 1).watches)[8]?.isNone := by decide +kernel

/-! ### Engines -/

/-- A layout of 16 elements of four bytes at 0x400, and a destination at 0x200. -/
def lay : BitVec 512 := BitVec.ofNat 512 (0x400 + 16 * 2 ^ 64 + 2 ^ 96 + 2 ^ 128 + 2 ^ 160 + 15 * 2 ^ 312 + 3 * 2 ^ 368 + 2 ^ 371)
def laid (s : State) : State := withS (withS (withS (memAt s 0x100 64 lay.toNat) 8 0) 12 0) 16 0x200

/-- A copy of the group that guard slot 3 holds. -/
def heldCopy : CopyCmd :=
  { id := 40, gid := 0, dreg := 2, kind := .g2s, linear := true, len := 16, cap := { rmode := 0, dmode := false, ch := 0, scope := 1, ord := 0, hint := 0, gs := some 3, prio := 0, pc := 0, tid := 0, wid := 0 } }

theorem wit_Copies : (let x := off (un 0xB0 0 0); enabledB 0xB0 x onWarp ∧ active x onWarp = []) ∧
    (let x := un 0xB0 0 0x41; enabledB 0xB0 x onWarp ∧ active x onWarp ≠ [] ∧ copyIll x onWarp = true) ∧
    (let x := un 0xB0 0 0; let s := laid onWarp; enabledB 0xB0 x s ∧ copyIll x s = false ∧ layBad lay .g2s = false ∧
      (active x s).head?.any (fun u => recordOk s u (rdU (viewOf s).warp x.a) 64 64)) ∧
    (let x := un 0xB2 0 0; let s := laid onWarp; enabledB 0xB2 x s ∧ copyIll x s = false ∧ (active x s).head?.any (fun u => recordOk s u (rdU (viewOf s).warp x.a) 64 64)) ∧
    (onWarp.cur.agent = .warp 0 0 ∧ (view onWarp).isSome ∧ (copyEntry onWarp 0).isSome) ∧
    (let s := onWarp.updCluster 0 fun c => { c with copyQ := List.replicate 254 heldCopy ++ List.replicate 2 { heldCopy with shared := false } }; copyEntry s 0 = none) ∧
    (let x := un 0xB1 0 0; enabledB 0xB1 x onWarp ∧ active x onWarp ≠ [] ∧ copyIll x onWarp = false ∧ 16 ≤ (rdU (viewOf onWarp).warp x.c).toNat) := by decide +kernel

theorem wit_GuardsAndGuestPosts : (let x := bs 0xB3 3; enabledB 0xB3 x onWarp ∧ active x onWarp ≠ []) ∧ (let x := off (ex 0xB3 1 0 3); enabledB 0xB3 x onWarp ∧ active x onWarp = []) ∧
    ((onWarp.group? 0).any fun g => decide (15 < g.guards.length)) ∧
    (let x := off (un 0xD2 0 0); enabledB 0xD2 x onWarp ∧ active x onWarp = []) ∧
    (let x := un 0xD2 0 0; let s := onWarp; enabledB 0xD2 x s ∧ active x s ≠ [] ∧ yes (match s.group? 0 with
      | some g => (match checkScratch s g ((rdU (viewOf s).warp x.a).toNat % 2 ^ 32) 64 1 64 with
        | .ok gid o => g.pure.isNone && (s.group? gid).any fun h => !h.scr.poison.contains (o / 64) && decide ((h.scr.sec o).data.toNat % 2 ^ 16 < 0x8000)
        | _ => false)
      | none => false)) ∧
    (let x := un 0xD2 0 0; let s := withS onWarp 4 0x1000; enabledB 0xD2 x s ∧ active x s ≠ [] ∧ yes (match s.group? 0 with
      | some g => (match checkScratch s g ((rdU (viewOf s).warp x.a).toNat % 2 ^ 32) 64 1 64 with
        | .bad _ _ => true
        | _ => false)
      | none => false)) ∧
    (let s := onWarp.setGuard 0 3 (some false); s.guardOf 0 heldCopy.cap = some false) ∧ (let s := onWarp.setGuard 0 3 (some true); s.guardOf 0 heldCopy.cap = some true ∧ s.groupRuns 0 = true ∧ (s.site 0).st ≠ 2) ∧
    onWarp.guardOf 0 heldCopy.cap = none := by decide +kernel

/-- A pass of the group on slot 1 whose operands are captured, an epilogue of it, and a state with such on cluster 0. -/
def capt0 : Capt := { heldCopy.cap with gs := none }
def pass7 : MmaEntry := { id := 7, gid := 0, slot := 1, desig := 1, a := .lines [[(0, 0x027F)]], b := .lines [[(0, 0x027F)]], k := 0, zero := true, cap := capt0 }
def epi8 : EpiCmd := { id := 8, gid := 0, dreg := 2, out := 0x200, pitch := 512, scale := 0x3F800000, biasOff := none, act := 0, ty := 8, fmt := 0, mod := 0, cap := capt0 }
def onCl (f : Cluster → Cluster) (s : State) : State := s.updCluster 0 f
def slot1 (r : RingSlot) (s : State) : State := onCl (fun c => c.updSlot 1 fun _ => r) s
def mmaEnc (n : BitVec 8 := 1) : Enc := ex 0xC0 0 12 n
def mmaOk (s : State) : State := withS (withS s 12 0) 16 0
def epiEnc : Enc := { un 0xC2 0 8 with d := 0xC2 }
def epiOk (s : State) : State := withS (withS (withS s 4 0x200) 8 512) 12 0x3F800000
def parkedG (p : Park) (s : State) : State := s.updGroup 0 fun g => { g with life := .parked p }

theorem wit_MatrixPosts : (let x := off (mmaEnc); enabledB 0xC0 x onWarp ∧ active x onWarp = []) ∧
    (let x := mmaEnc 2; enabledB 0xC0 x onWarp ∧ active x onWarp ≠ [] ∧ group.slotOf x.d.toNat = none) ∧
    (let x := mmaEnc; enabledB 0xC0 x onWarp ∧ active x onWarp ≠ [] ∧ group.slotOf x.d.toNat = some 1 ∧ (mmaBad x (viewOf onWarp).warp group).isSome) ∧
    (let x := mmaEnc; let s := mmaOk onWarp; enabledB 0xC0 x s ∧ mmaBad x (viewOf s).warp group = none ∧ ((s.cluster 0).slot 1).st = .free) ∧
    (onWarp.cur.agent = .warp 0 0 ∧ (view onWarp).isSome ∧ 15 < (onWarp.cluster (gidCl 0)).ring.length ∧
      ((onCl (fun c => { c with mma := List.replicate 63 pass7 }) onWarp).cluster 0).tabled.length < 64 ∧
      64 ≤ ((onCl (fun c => { c with mma := List.replicate 64 pass7 }) onWarp).cluster 0).tabled.length) := by decide +kernel

theorem wit_MatrixPosts_rings : (let x := bs 0xC1; enabledB 0xC1 x onWarp ∧ active x onWarp ≠ [] ∧ group.slotOf x.d.toNat = some 1 ∧ ((onWarp.cluster 0).slot 1).st = .free) ∧
    (let x := ex 0xC1 1 0; let s := slot1 { st := .filling } onWarp; enabledB 0xC1 x s ∧ ((s.cluster 0).slot 1).st = .filling ∧ ((s.cluster 0).slot 1).sealing = false) ∧
    (let s := slot1 { st := .filling, sealing := true } onWarp; ((s.cluster 0).slot 1).sealing = true ∧ (s.cluster 0).pending 1 = 0 ∧
      ((onCl (fun c => { c with mma := [pass7] }) s).cluster 0).pending 1 ≠ 0) ∧
    (let x := bs 0xC1 2; enabledB 0xC1 x onWarp ∧ active x onWarp ≠ [] ∧ group.slotOf x.d.toNat = none) ∧ (let x := off (ex 0xC1 2 0); enabledB 0xC1 x onWarp ∧ active x onWarp = []) ∧
    (let x := ex 0xC3 0 0; let s := withV onWarp 8 4096; enabledB 0xC3 x s ∧ ((active x s).find? fun k => decide (4096 ≤ (k.rdV x.b.toNat).toNat)).isSome) ∧
    (let x := ex 0xC3 0 0; let s := withV onWarp 8 4095; enabledB 0xC3 x s ∧ (∀ k ∈ active x s, (k.rdV x.b.toNat).toNat < 4096) ∧ yes (match peekGroup x s (viewOf s) group with
      | .ok pg => pg.slotOf x.a.toNat == some 1
      | _ => false)) ∧
    (let x := { ex 0xC4 0 0 with a := 1 }; let s := slot1 { st := .ready, poison := true } onWarp; enabledB 0xC4 x s ∧ (∀ k ∈ active x s, (k.rdV x.b.toNat).toNat < 4096) ∧
      yes (match peekGroup x s (viewOf s) group with
      | .ok pg => pg.slotOf x.a.toNat == some 1
      | _ => false)) ∧
    (let x := ex 0xC4 1 0; enabledB 0xC4 x onWarp ∧ (∀ k ∈ active x onWarp, (k.rdV x.b.toNat).toNat < 4096) ∧ yes (match peekGroup x onWarp (viewOf onWarp) group with
      | .bad _ => true
      | _ => false)) ∧
    (let x := { bs 0xC5 with a := 1 }; enabledB 0xC5 x onWarp ∧ active x onWarp ≠ [] ∧ group.slotOf x.a.toNat = some 1) ∧ (enabledB 0xC5 (ex 0xC5 1 0) onWarp ∧ active (ex 0xC5 1 0) onWarp ≠ []) := by
  decide +kernel

theorem wit_MatrixEngine :
    (let s := onCl (fun c => { c with mma := [{ pass7 with waitCopy := some 40 }] }) onWarp; ((s.cluster 0).mma.find? fun x => x.id == 7).any (fun m => m.waitCopy == some 40) ∧
      (∀ q ∈ (s.cluster 0).copyQ, q.id ≠ 40) ∧ (s.cluster 0).tabled.length < 64) ∧
    (let s := (onCl (fun c => { c with mma := [{ pass7 with cap := heldCopy.cap }] }) onWarp).updGroup 0 fun g => { g with guards := g.guards.set 3 (some false) }
     ((s.cluster 0).mma.find? fun m => m.waitCopy.isNone && !m.running && s.groupRuns m.gid && s.guardOf m.gid m.cap == some false).isSome) ∧
    (let s := onCl (fun c => { c with mma := [pass7, { pass7 with id := 9, slot := 0 }] }) onWarp; (∀ m ∈ (s.cluster 0).mma, m.running = false ∧ s.guardOf m.gid m.cap ≠ some false) ∧
      mmaPick s 0 = some pass7 ∧ pass7.cap.ord.toNat % 2 = 0 ∧ pass7.src = none ∧ yes (match mmaCapture group pass7 with
      | .ok _ => true
      | _ => false)) ∧
    (let s := onCl (fun c => { c with mma := [{ pass7 with running := true }] }) onWarp; ((s.cluster 0).mma.find? fun m => m.running).isSome ∧ 1 < (s.cluster 0).ring.length) ∧
    (fF32.decode 0x7FC00000).isNan = true ∧ 15 < (onWarp.cluster 191).ring.length := by decide +kernel

theorem wit_Epilogues : (let x := off epiEnc; enabledB 0xC2 x onWarp ∧ active x onWarp = []) ∧
    (let x := epiEnc; let s := epiOk onWarp; let w := (viewOf s).warp; enabledB 0xC2 x s ∧ active x s ≠ [] ∧ Ty.ofCode (fld x.mod 4 0) ≠ some .blk ∧
      16 * ((Ty.ofCode (fld x.mod 4 0)).getD .f32).bits ≤ (rdU w x.b).toNat ∧ (rdU w x.b).toNat < 2 ^ 40 ∧ (rdU w x.a).toNat % 64 = 0 ∧ (rdU w x.b).toNat % 64 = 0) ∧
    (let x := epiEnc; let s := withS (epiOk onWarp) 8 (2 ^ 40); enabledB 0xC2 x s ∧ 2 ^ 40 ≤ (rdU (viewOf s).warp x.b).toNat) ∧
    (let x := epiEnc; let s := withS (epiOk onWarp) 4 0x210; enabledB 0xC2 x s ∧ (rdU (viewOf s).warp x.a).toNat % 64 ≠ 0) ∧
    (let x := { un 0xC2 4 8 with d := 0xC2 }; let s := withS (epiOk onWarp) 12 (0xE00 * 2 ^ 32); enabledB 0xC2 x s ∧ x.sub.getLsbD 2 = true ∧ fld (rdU (viewOf s).warp x.c) 63 32 + 512 = group.scr.size) ∧
    (let x := { un 0xC2 4 8 with d := 0xC2 }; let s := withS (epiOk onWarp) 12 (0xE10 * 2 ^ 32); enabledB 0xC2 x s ∧ fld (rdU (viewOf s).warp x.c) 63 32 % 16 = 0 ∧
      group.scr.size < fld (rdU (viewOf s).warp x.c) 63 32 + 512) ∧
    (let s := slot1 { st := .ready } (onCl (fun c => { c with epiQ := [epi8] }) onWarp); epiNext s 0 = some (epi8, 1) ∧ s.guardOf 0 epi8.cap = some true ∧ (∀ k ∈ s.cmdsOn 0 epi8.cap.ch, epi8.id ≤ k) ∧
      s.packets = [] ∧ ((s.cluster 0).slot 1).poison = false ∧ epi8.biasOff = none) ∧
    (let e := { epi8 with cap := heldCopy.cap }
     let s := (slot1 { st := .ready } (onCl (fun c => { c with epiQ := [e] }) onWarp)).updGroup 0 fun g => { g with guards := g.guards.set 3 (some false) }
     epiNext s 0 = some (e, 1) ∧ s.guardOf 0 e.cap = some false) ∧
    (let s := { onWarp with tlb := [] }; yes (match epiAccs s (engineWho s 0 0) (epi8.blocks.map (·.2.2)) with
      | .error (.code _) => true
      | _ => false)) ∧
    (let s := slot1 { st := .draining } (onCl (fun c => { c with epiQ := [{ epi8 with slot := some 1 }] }) onWarp); epiOver s 0 = some ({ epi8 with slot := some 1 }, 1)) := by decide +kernel

/-! ### Tasks, groups, system instructions -/

def recordsOk (x : Enc) (s : State) (ths : List Thread) : Bool :=
  match checkAll s (who s) (who s).owner (ths.map fun u => { tid := u.tid, slot := u.slot, va := memAddr x (viewOf s).warp u 64, size := 64, acc := 1, align := 64 }) with
  | .ok as => decide (∀ a ∈ as, a.fab = none ∧ s.poisonedAt a.pa = false) &&
      !(xlatWait s (who s).core (who s).ctx as || blockWait s (who s) none as || loadsWait s (who s).core as) &&
      match readAll (who s) true 1 0 (as.map fun a => (a, 0)) (s.tlbFill (as.flatMap Acc.fills)) with
      | .ok _ _ => true
      | _ => false
  | _ => false

theorem recordsOk_spec {x s ths} (h : recordsOk x s ths = true) : ∃ recs s', RecordsRead x s ths recs s' := by
  unfold recordsOk at h
  split at h
  · rename_i as hc
    simp only [Bool.and_eq_true, Bool.not_eq_true', decide_eq_true_eq] at h
    obtain ⟨⟨h1, h2⟩, h3⟩ := h
    split at h3
    · rename_i gs s' hr
      exact ⟨_, s', as, gs, hc, h1, h2, hr, rfl⟩
    · exact absurd h3 (by simp)
  · exact absurd h (by simp)

/-- Blocks at addresses that pass their checks, that nothing keeps from being read. -/
def blocksAt (s : State) (u : Thread) (vas : List (BitVec 64)) (acc : Nat) : Option (List (BitVec 512) × State) :=
  match checkAll s (who s) (who s).owner (vas.map fun va => { tid := u.tid, slot := u.slot, va := va, size := 64, acc := acc, align := 64 }) with
  | .ok as => if decide (∀ a ∈ as, a.fab = none ∧ s.poisonedAt a.pa = false ∧ s.homeWait (who s).core (who s).ctx a.pa = .go) &&
        !(xlatWait s (who s).core (who s).ctx as || blockWait s (who s) none as || loadsWait s (who s).core as) then
      match readAll (who s) true 3 0 (as.map fun a => (a, 0)) (s.tlbFill (as.flatMap Acc.fills)) with
      | .ok gs t => some (gs.map (fun g => g.sec.data), t.acquire (who s) 3 (gs.map Got.seen))
      | _ => none
    else none
  | _ => none

theorem blocksAt_spec {s u vas acc ds s'} (h : blocksAt s u vas acc = some (ds, s')) : ∃ as, checkAll s (who s) (who s).owner
      (vas.map fun va => { tid := u.tid, slot := u.slot, va := va, size := 64, acc := acc, align := 64 }) = .ok as ∧
    (∀ a ∈ as, a.fab = none) ∧ (∀ a ∈ as, s.homeWait (who s).core (who s).ctx a.pa = .go) ∧ BlocksRead s as ds s' := by
  unfold blocksAt at h
  split at h
  · rename_i as hc
    split at h
    · rename_i hif
      simp only [Bool.and_eq_true, Bool.not_eq_true', decide_eq_true_eq] at hif
      split at h
      · rename_i gs t hr
        simp only [Option.some.injEq, Prod.mk.injEq] at h
        exact ⟨as, hc, fun a ha => (hif.1 a ha).1, fun a ha => (hif.1 a ha).2.2, hif.2, fun a ha => (hif.1 a ha).2.1, gs, t, hr, h.1.symm, h.2.symm⟩
      · exact absurd h (by simp)
    · exact absurd h (by simp)
  · exact absurd h (by simp)

def evr (mod : BitVec 6) : Enc := sample 0xD4 .ext mod 0 0xC0 1
/-- An instruction of the management core, its registers uniform, with `k` in s4. -/
def mg (op : Nat) (sub : BitVec 6) : Enc := sample op .ext sub 0 0xC0 1
def mgS (n : Nat) (k : Word64) (s : State) : State := { s with mgmt := { s.mgmt with w := s.mgmt.w.wrS n k } }
def fill (n : Nat) (s : State) : State := onCl (fun c => { c with evq := List.replicate n 5 }) s
def heldRec : QRec := { id := 3, seam := 0, record := 0, ctx := 1, part := 0, launch := none, kind := .normal, level := 0, entered := 0, held := true, spilled := false, waiting := false }

theorem wit_EventQueue : (let x := un 0xD3 0 0; enabledB 0xD3 x (fill 255 onWarp) ∧ active x (fill 255 onWarp) ≠ [] ∧ pureNow (fill 255 onWarp) = none ∧ (who onWarp).phys = false ∧
      ((fill 255 onWarp).cluster 0).evq.length < 256 ∧ enabledB 0xD3 x (fill 256 onWarp) ∧ 256 ≤ ((fill 256 onWarp).cluster 0).evq.length) ∧
    (let x := un 0xD3 0 0; enabledB 0xD3 x (pureS onWarp) ∧ active x (pureS onWarp) ≠ [] ∧ (pureNow (pureS onWarp)).isSome = true) ∧
    (enabledB 0xD4 (evr 0) onForeman ∧ active (evr 0) onForeman ≠ [] ∧ (onForeman.cluster (who onForeman).cl).evq = []) ∧
    (let s := fill 2 onForeman; enabledB 0xD4 (evr 1) s ∧ active (evr 1) s ≠ [] ∧ (s.cluster (who s).cl).evq = [5, 5]) ∧
    (let x := off (evr 1); enabledB 0xD4 x onForeman ∧ active x onForeman = []) := by decide +kernel

theorem wit_TaskInstructions : (let x := un 0xD0 0 0; let s := onWarp; enabledB 0xD0 x s ∧ active x s ≠ [] ∧ pureNow s = none ∧ isUni x.a = true ∧
      (active x s).head?.any (fun u => recordsOk x s [u])) ∧
    (let x := ex 0xD0 0 0; let s := withV (withV onWarp 4 0x100) 5 0; enabledB 0xD0 x s ∧ isUni x.a = false ∧ recordsOk x s (active x s)) ∧
    ((enqueueAll 1 0 none 0 [0, 0] onWarp).isSome ∧ recBad 0 = false ∧ recBad (2 ^ 308) = true) ∧
    (let x := bs 0xD1; let s := onWarp; enabledB 0xD1 x s ∧ active x s ≠ [] ∧ (s.group? 0).any (fun g => g.pure.isNone && !g.tdone && yes (match completeTask s g (sourceOf g.gid) with
      | .done _ => true
      | _ => false)) ∧ inFlight s 0 [0] = false ∧ inFlight (sending s) 0 [0] = true) ∧
    (let x := off (un 0xD0 0 0); enabledB 0xD0 x onWarp ∧ active x onWarp = []) ∧ (let x := un 0xD0 0 0; enabledB 0xD0 x (pureS onWarp) ∧ active x (pureS onWarp) ≠ [] ∧ (pureNow (pureS onWarp)).isSome = true) ∧
    (let x := sample 0xD5 .base 0 (baseMod 0xD5) 0xC0 1; let s : State := { onForeman with queue := [heldRec] }; enabledB 0xD5 x s ∧ active x s ≠ [] ∧ (who s).phys = false ∧
      s.queue.filter (fun q => q.held && !q.waiting && q.part == (who s).part && q.seam / 16 == (who s).die && recTag q.record == rdU (viewOf s).warp x.a) ≠ []) ∧
    (let x := bs 0xD6; enabledB 0xD6 x onWarp ∧ active x onWarp ≠ [] ∧ pureNow onWarp = none ∧ enabledB 0xD6 x (pureS onWarp) ∧ active x (pureS onWarp) ≠ []) := by decide +kernel

def hubOk {α : Type} (r : HubRes α) : Bool := match r with
  | .ok _ _ => true
  | _ => false

theorem hubOk_spec {α : Type} {r : HubRes α} (h : hubOk r = true) : ∃ a s, r = .ok a s := by
  cases r <;> simp_all [hubOk]

def hubFails {α : Type} (r : HubRes α) : Bool := match r with
  | .fail => true
  | _ => false

theorem hubFails_spec {α : Type} {r : HubRes α} (h : hubFails r = true) : r = .fail := by
  cases r <;> simp_all [hubFails]

/-- A group of one thread and no scratch, and the same parked by a trap with its frame at 64 KiB; the context has a park area of one unit there. -/
def small : Group := { group with gid := 1, vregs := 16, sregs := 16, threads := [thread 0], warps := [{ warp with wslot := 1 }], scr := { base := 4096, size := 0 }, tbars := [], ring := [] }
def parked1 : Park := { fault := { code := cTrap }, since := 0, frame := some (0x10000, [0x10000], 2048) }
def plusG (g : Group) (s : State) : State := { s with groups := s.groups.insert 1 g }
def area (s : State) : State := s.updCtx 1 fun c => { c with img := c.img + BitVec.ofNat 512 (2 ^ 352 + 0x10000 * 2 ^ 384) }
/-- The warp's section of the frame holds LEASE 10, its threads' section zeros. -/
def framed (p : Park) (s : State) : State :=
  let s := plusG { small with life := .parked p } s
  memAt s (0x10000 + (s.frameLay small).ureg) 1 0xA0

def resumes (r : FrameAct) : Bool := match r with
  | .ok _ => true
  | _ => false

def namesGroup (r : NamedFrame) (gid : Nat) : Bool := match r with
  | .group g => g.gid == gid
  | _ => false

def parkEnc : Enc := mg 0xE3 0

theorem wit_GroupControl : (let x := off (mg 0xE4 1); enabledB 0xE4 x onMgmt ∧ active x onMgmt = []) ∧
    (let x := un 0xD7 0 0; let s := onWarp; enabledB 0xD7 x s ∧ active x s ≠ [] ∧ inFlight s (who s).gid [0] = false ∧ (match namedFrame s (who s) (who s).owner (rdU (viewOf s).warp x.a) with
      | .none => true
      | _ => false) = true) ∧
    (let x := un 0xD8 0 0; let s := withS (framed parked1 onWarp) 4 0x10000; enabledB 0xD8 x s ∧ namesGroup (namedFrame s (who s) (who s).owner (rdU (viewOf s).warp x.a)) 1 ∧
      parked1.fault.code ≠ 0 ∧ small.ctx = (who s).ctx ∧ resumes (resumeAct (s.acquire (who s) 3 []) { small with life := .parked parked1 })) ∧
    (let x := un 0xD7 0 0; let s := withS (memAt (framed parked1 onWarp) 0x10100 16 1) 4 0x10000; enabledB 0xD7 x s ∧ yes (match resumeAct (s.acquire (who s) 3 [])
      (let g : Group := { small with warps := [{ warp with wid := 1 }], threads := [{ thread 0 with slot := 3 }], life := .parked parked1 }; g) with
      | .bad => true
      | _ => false)) ∧
    (let x := mg 0xE4 0; let f : FaultRec := { code := cIll }; let s := area (onCl (fun c => { c with fore := { c.fore with faulted := some (f, true, false) } }) onMgmt)
     let s := mgS 4 0x10000 s
     enabledB 0xE4 x s ∧ active x s ≠ [] ∧ inFlight s (who s).gid [0] = false ∧ yes (match physXlate s (rdU (viewOf s).warp x.a) 0 with
      | .ok r => foremanAt s (who s) r.pa == some 0 && hubOk (physReady s ((List.range 16).map fun i => r.pa + 64 * i))
      | _ => false)) ∧
    ((framed parked1 onWarp).groups.rising = true) ∧
    (let x := parkEnc; let s := mgS 4 (2 ^ 17) onMgmt; enabledB 0xE3 x s ∧ active x s ≠ [] ∧ fld (rdU (viewOf s).warp x.a) 31 17 ≠ 0) ∧
    (let x := un 0xE3 0 0; let s := withS onWarp 4 (2 ^ 32); enabledB 0xE3 x s ∧ active x s ≠ [] ∧ fld (rdU (viewOf s).warp x.a) 16 0 = (who s).gid) ∧
    (let x := parkEnc; let s := mgS 4 (2 ^ 32 + 7) onMgmt; enabledB 0xE3 x s ∧ s.group? 7 = none ∧ fld (rdU (viewOf s).warp x.a) 16 0 = 7) ∧
    (let x := parkEnc; let s := mgS 4 (2 ^ 32 + 1) (plusG { small with life := .parked parked1 } onMgmt); enabledB 0xE3 x s ∧ fld (rdU (viewOf s).warp x.a) 41 32 = small.ctx) ∧
    (let s := mgS 4 (2 ^ 32 + 1) (plusG small onMgmt); enabledB 0xE3 parkEnc s ∧ small.life = .running ∧ hubFails (roomForFrame s small)) ∧
    (let s := area (mgS 4 (2 ^ 32 + 1) (plusG small onMgmt)); enabledB 0xE3 parkEnc s ∧ hubOk (roomForFrame s small) ∧ s.quiet 1 = true ∧
      ((s.parkNow 1 (parkRec s small)).group? 1).any fun k => hubOk (writeFrame (s.parkNow 1 (parkRec s small)) k (parkRec s small))) := by decide +kernel

def prdsOf (n : BitVec 8) : Enc := { un 0xE0 0 0 with a := n }
def pwrsOf (d : BitVec 8) (l : BitVec 64) : Enc := { lit (ex 0xE1 0 0) l with d := d }
def p0 (f : Part → Part) (s : State) : State := s.updPart 0 f

theorem wit_SystemRegisters : (let x := off (prdsOf 1); enabledB 0xE0 x onWarp ∧ active x onWarp = []) ∧ (let x := off (pwrsOf 7 0); enabledB 0xE1 x onWarp ∧ active x onWarp = []) ∧
    (([5, 9] : List (BitVec 8)).all fun n => enabledB 0xE0 (prdsOf n) onMgmt && !(active (prdsOf n) onMgmt).isEmpty && (who onMgmt).phys) ∧
    (([0, 1, 2, 5, 6, 7, 8, 9, 0x0A, 3, 4, 0x0B] : List (BitVec 8)).all fun n => enabledB 0xE0 (prdsOf n) onWarp && !(active (prdsOf n) onWarp).isEmpty && !(who onWarp).phys) ∧
    (([(2, 0), (0x0A, 0), (3, 0), (5, 0), (5, 2 ^ 32), (5, 1), (7, 2), (7, 0), (7, 1), (8, 2 ^ 40), (8, 2 ^ 40 - 1), (8, 0), (9, 2 ^ 40), (9, 2 ^ 40 - 1)] : List (BitVec 8 × BitVec 64)).all
      fun p => enabledB 0xE1 (pwrsOf p.1 p.2) onWarp && !(active (pwrsOf p.1 p.2) onWarp).isEmpty && (bU (pwrsOf p.1 p.2) (viewOf onWarp).warp == p.2)) ∧
    (([(2, 1023), (2, 1024), (0x0A, 2 ^ 40), (0x0A, 2 ^ 40 - 1), (5, 0), (9, 0)] : List (BitVec 8 × BitVec 64)).all fun p => enabledB 0xE1 (pwrsOf p.1 p.2) onMgmt && (who onMgmt).phys) ∧
    (let x := pwrsOf 7 1; let s := p0 (fun p => { p with ksvcwr := 1, ksvcarm := false }) onWarp; enabledB 0xE1 x s ∧ (s.part 0).ksvcwr ≠ (s.part 0).ksvcrd ∧ hubOk (enqueueService s 0)) := by
  decide +kernel

def cmdOk (r : CmdRes) (code : Nat) : Bool := match r with
  | .ok n _ _ => n == code
  | _ => false

/-- Well-formed images of a context of partition 0 and of a partition whose K context is 5. -/
def ctxImg : BitVec 512 := BitVec.ofNat 512 (2 ^ 320 + 2 ^ 352)
def partImg : BitVec 512 := BitVec.ofNat 512 (4 * 2 ^ 50 + 5 * 2 ^ 54 + 2 ^ 64 + 2 ^ 96)

/-- What CTXCREATE comes to when all else is well formed is for the key record to say, an open value: of it the earlier results are shown. -/
theorem wit_SystemCommands : (([(none, 3), (some 1, 1), (some 2, 2), (some 3, 3), (some 4, 4), (some 0x11, 0x11), (some 0x12, 0x12), (some 0x13, 0x13), (some 0x14, 0x14)] : List (Option Nat × Nat)).all fun p =>
      let x := pwrsOf 4 0x200
      let s := memAt onWarp 0x200 1 p.2
      enabledB 0xE1 x s && (active x s).head?.any (fun u => let b := bU x (viewOf s).warp; !inFlight s (who s).gid [u.tid] && match blocksAt s u [b, b + 64] 3 with
        | some (ds, s1) => yes (match sysCommand (who s) (p.1.getD (fld (ds.getD 0 0) 7 0)) (ds.getD 0 0) (ds.getD 1 0) s1 with
          | .ok _ _ _ => true
          | _ => false)
        | none => false)) ∧
    (let x := off (pwrsOf 4 0x200); enabledB 0xE1 x onWarp ∧ active x onWarp = []) ∧
    (let w := who onWarp; cmdOk (cmdCtxRead onWarp w 1) 0 ∧ cmdOk (cmdCtxRead onWarp w 7) 2 ∧ fld (0 : BitVec 512) 115 110 = w.part ∧ (onWarp.context 1).st ≠ .free ∧ (onWarp.context 7).st = .free ∧
      fld ctxImg 115 110 = 0 ∧ fld (BitVec.ofNat 512 (2 ^ 110)) 115 110 ≠ w.part ∧ w.phys = false) ∧
    (cmdOk (cmdCtxUpdate onWarp (who onWarp) 1 (recPut (onWarp.context 1).image 352 32 1)) 0) ∧
    (let s : State := { onWarp with groups := [] }.updCtx 7 fun c => { c with st := .active }; cmdOk (cmdCtxDestroy s (who onMgmt) 7) 0) ∧
    (cmdOk (cmdPartCreate onMgmt (who onMgmt) 1 partImg) 0 ∧ (who onMgmt).phys = true) ∧
    (let s : State := onMgmt.updPart 1 fun p => { p with st := .halted, img := partImg }; cmdOk (cmdPartDestroy s (who onMgmt) 1) 0) := by decide +kernel

def iretS (s : State) : State := withS (memAt s 40 4 (1 + 2 ^ 16)) 4 0
def waiting0 (s : State) : State := s.updGroup 0 fun g => { g with warps := g.warps.map fun w => { w with sys := some ⟨0xC2, [0, 1], 0x1004⟩ } }

theorem wit_ServiceReturn : (let x := off (un 0xE2 0 0); enabledB 0xE2 x onWarp ∧ active x onWarp = []) ∧
    (([iretS onWarp, memAt onWarp 0x100 4 0] : List State).all fun s => let x := un 0xE2 0 0
      enabledB 0xE2 x s && (active x s).head?.any (fun u => !inFlight s (who s).gid [u.tid] && (blocksAt s u [rdU (viewOf s).warp x.a] 1).isSome)) ∧
    (let s := iretS onWarp; (who s).phys = false ∧ (who s).ctx = (s.part 0).kctx ∧ (rdU (viewOf s).warp 0xC4).toNat + 64 = (s.part 0).ksvcBase.toNat + 64 * (s.part 0).ksvcEntries) ∧
    (let e : BitVec 512 := BitVec.ofNat 512 (0x10001 * 2 ^ 64 * 2 ^ 256); let s := waiting0 onWarp; fld e 319 303 = 0 ∧ (s.group? 0).any (fun g => g.life == .running && g.ctx == fld e 329 320 && g.gid == 0 &&
      (g.warp? (fld e 302 298)).any fun w => w.sys.isSome && w.reqno.toNat == fld e 383 352)) ∧
    ((onWarp.group? 0).any fun g => (g.warp? 0).any fun w => w.sys.isNone) := by decide +kernel

def partSt (n : Nat) (st : PartSt) (s : State) : State := s.updPart n fun p => { p with st := st }
/-- An image of partition 0 at offset 0, 6 MiB on die 0. -/
def image0 : VaultImg := { part := 0, off := 0, dies := [(0, 6 * 2 ^ 20)], groups := [], clusters := [] }

theorem wit_PartitionControl : (let x := off (mg 0xE8 1); enabledB 0xE8 x onMgmt ∧ active x onMgmt = []) ∧
    (let x := mg 0xE8 0; let s := mgS 4 64 onMgmt; enabledB 0xE8 x s ∧ active x s ≠ [] ∧ 64 ≤ (rdU (viewOf s).warp x.a).toNat ∧ (onMgmt.part 63).st = .free) ∧
    (([.running, .halted, .swapped] : List PartSt).all fun st => let s := partSt 0 st onMgmt; enabledB 0xE8 (mg 0xE8 1) s && !(active (mg 0xE8 1) s).isEmpty && (s.part (rdU (viewOf s).warp 0xC4).toNat).st == st) ∧
    (let s := partSt 0 .halted onMgmt; (s.group? 0).any fun g => (s.part g.part).st != .running) ∧
    (let x := lit (mg 0xE5 0) 1; enabledB 0xE5 x onMgmt ∧ active x onMgmt ≠ [] ∧ (bU x (viewOf onMgmt).warp).toNat % 2 ^ 20 ≠ 0) ∧
    (let x := lit (mg 0xE6 0) (2 ^ 20); let s := mgS 4 63 onMgmt; enabledB 0xE6 x s ∧ (bU x (viewOf s).warp).toNat % 2 ^ 20 = 0 ∧ (s.part (rdU (viewOf s).warp x.a).toNat).st = .free ∧
      enabledB 0xE6 x onMgmt ∧ (onMgmt.part (rdU (viewOf onMgmt).warp x.a).toNat).st = .running) ∧
    (let x := lit (mg 0xE5 0) (2 ^ 20); let s := mgS 4 1 (partSt 1 .halted onMgmt); enabledB 0xE5 x s ∧ (s.part 1).st = .halted ∧ (rdU (viewOf s).warp x.a).toNat = 1 ∧ imageSizes s 1 s.free = [] ∧ s.clustersOf 1 = []) ∧
    (let x := mg 0xE6 0; let s : State := { partSt 0 .halted onMgmt with vault := [image0] }; enabledB 0xE6 x s ∧ active x s ≠ [] ∧ (bU x (viewOf s).warp).toNat = 0 ∧
      (s.vault.find? fun v => v.part == 0 && v.off == 0) = some image0 ∧ (∀ d ∈ image0.dies, s.dieLost d.1 = false) ∧ (∃ c ∈ s.clustersOf 0, ∃ g ∈ s.groups, gidCl g.1 = c) ∧
      let t : State := { s with groups := [] }
      enabledB 0xE6 x t ∧ (∀ c ∈ t.clustersOf 0, t.present c = true ∧ (∀ q ∈ t.parts, q.1 = 0) ∧ t.groups = []) ∧ ({ s with diestat := 1 } : State).dieLost 0 = true) ∧
    (let x := un 0xE7 0 0; let s := withS onWarp 4 2; enabledB 0xE7 x s ∧ active x s ≠ [] ∧ (s.context (rdU (viewOf s).warp x.a).toNat).st = .free) ∧
    (let x := un 0xE7 1 0; let s := withS onWarp 4 1; enabledB 0xE7 x s ∧ (s.context 1).part = (who s).part ∧ (s.dropXlat 1 1 0).1 = true) ∧
    (let x := un 0xE7 0 0; let s := withS (onWarp.updCtx 2 fun _ => { st := .active, img := BitVec.ofNat 512 (2 ^ 110) }) 4 2; enabledB 0xE7 x s ∧ (s.context 2).st ≠ .free ∧ (who s).phys = false ∧
      (s.context 2).part ≠ (who s).part) ∧ (let x := mg 0xE7 2; enabledB 0xE7 x onMgmt ∧ active x onMgmt ≠ []) := by decide +kernel

/-- A partition whose image ends beyond its vaults. -/
theorem wit_PartitionControl_full : let s := partSt 0 .halted onMgmt; ∃ d ∈ imageSizes s 0 s.free, vaultBytes < 160 * 2 ^ 20 + d.2 := by
  refine ⟨(0, 6 * 2 ^ 20 * 1 + Config.vaultExtra (8 * 0 + 0)), ?_, by simp only [vaultBytes]; omega⟩
  have h : imageSizes (partSt 0 .halted onMgmt) 0 (partSt 0 .halted onMgmt).free = [(0, 6 * 2 ^ 20 * 1 + Config.vaultExtra (8 * 0 + 0))] := by rfl
  rw [h]; exact List.mem_singleton.mpr rfl

def pmc (sub : BitVec 6) (d : BitVec 8) (l : BitVec 64) : Enc := { lit (un 0xE9 sub 0) l with d := d }
def pmr (sub : BitVec 6) (c : BitVec 8) : Enc := { un 0xEA sub 0 with c := c }
/-- A descriptor of a sampling unit with a period of 16 cycles. -/
def smpImg : BitVec 512 := BitVec.ofNat 512 (16 * 2 ^ 64)

theorem wit_PartitionControl_counters : (let x := off (pmr 1 0); enabledB 0xEA x onWarp ∧ active x onWarp = []) ∧
    (let s := withS onWarp 4 192; enabledB 0xE9 (pmc 0 1 0) s ∧ active (pmc 0 1 0) s ≠ [] ∧ 191 < (rdU (viewOf s).warp (pmc 0 1 0).a).toNat) ∧
    (let s := withS onWarp 4 191; enabledB 0xEA (pmr 0 15) s ∧ (rdU (viewOf s).warp (pmr 0 15).a).toNat = 191 ∧ s.partOfCluster 191 ≠ (who s).part ∧ (who s).phys = false) ∧
    (let s := withS { onWarp with fenced := [0] } 4 0; enabledB 0xE9 (pmc 1 0 0) s ∧ s.fenced.contains 0 = true) ∧
    (let s := withS onWarp 4 0; s.fenced.contains 0 = false ∧ s.dieLost 0 = false ∧ s.partOfCluster 0 = (who s).part ∧
      (([pmc 0 15 0x100000000, pmc 0 15 0x5, pmc 0 15 0x80, pmc 0 15 0x10004] : List Enc).all fun x => enabledB 0xE9 x s && !(active x s).isEmpty) ∧
      evListed 5 = false ∧ evListed 4 = true ∧ evDie 0x80 = true ∧ evListed 0x80 = true ∧ evDie 4 = false) ∧
    (let s := withS onWarp 4 0; enabledB 0xEA (pmr 1 15) s ∧ active (pmr 1 15) s ≠ []) ∧
    (((onCl (fun c => { c with ctrs := c.ctrs.set 0 { cfg := 0x10004 } }) onWarp).clusters.find? 0).any fun c => c.counting) ∧
    (let s := withS onWarp 4 0; enabledB 0xE9 (pmc 1 0 0) s ∧ bU (pmc 1 0 0) (viewOf s).warp = 0 ∧ hubOk (stopSmp s 0 1)) ∧
    (let s := withS onWarp 4 0; enabledB 0xE9 (pmc 1 0 32) s ∧ (bU (pmc 1 0 32) (viewOf s).warp).toNat % 64 ≠ 0) ∧
    (let s := withS (memAt onWarp 0x200 64 smpImg.toNat) 4 0; let x := pmc 1 0 0x200; enabledB 0xE9 x s ∧ (active x s).head?.any fun u => match blocksAt s u [0x200] 1 with
      | some (ds, t) => !smpBad (ds.getD 0 0) && (match stopSmp t 0 1 with
        | .ok _ t2 => hubOk (startSmp t2 (who s) 0 0x200 (ds.getD 0 0))
        | _ => false)
      | none => false) ∧ smpBad 0 = true := by decide +kernel

/-! ### Events -/

def after (n : Nat) (s : State) : State := { s with now := n }
def filed (tid : Nat) : Filed := { th := { thread tid with run := .filed }, s := [], rmode := 0, dmode := false, lease := 10, reqno := 0 }
def binA : Bin := { gid := 0, pc := 0x1000, key := 1, n := 4, born := 0, ready := true, filed := [filed 0, filed 1] }
def binned (b : Bin) (s : State) : State := s.updCore 0 fun c => { c with bins := [b] }
def fragId (f : Frag) (s : State) : State := { s with frags := [f] }

theorem wit_CoreEvents : (let s := (twoPaths onWarp).updGroup 0 fun g => { g with warps := g.warps.map fun w => { w with fair := 10 ^ 6 } }; (s.group? 0).any fun g => (g.warp? 0).any fun w => switchDue g w) ∧
    ((onWarp.group? 0).any fun g => (g.warp? 0).any fun w => !switchDue g w) ∧ 
    (let s := binned binA onWarp; (s.core 0).bins[0]? = some binA ∧ binAge s 0 binA < 2048 ∧ 2048 ≤ binAge (after 2048 s) 0 binA) ∧
    (let s := (binned binA onWarp).updGroup 0 fun g => { g with slots := [(0, 0), (1, 0)] }; s.groupRuns 0 = true ∧ s.drawBin 0 = some binA ∧ (s.group? 0).any fun g => g.freeSlot.isSome) ∧
    (let s := onWarp.updGroup 0 fun g => { g with threads := [{ thread 0 with resv := some (5, 0) }] }; (s.group? 0).any (fun g => (g.thread? 0).any fun u => u.resv == some (5, 0)) ∧
      (after 4095 s).cyclesOf 0 < 0 + 4096 ∧ 0 + 4096 ≤ (after 4096 s).cyclesOf 0) ∧
    (191 < 192 ∧ onWarp.present 191 = true ∧ (after 256 onWarp).cyclesOf 7 = 256) ∧
    (let s := onCl (fun c => { c with pts := 0x200000 }) onWarp; tsLater s.pmax (s.cluster 191).pts = true ∧ 2 ^ 21 ≤ (s.pmax - (s.cluster 191).pts).toNat) ∧
    ((onWarp.updSite 1 fun x => { x with st := 2 }).site 1).st = 2 ∧ ((fragId { frag16 with rts := 0xBFFFFF } onWarp).frags.find? fun y => y.id == 11).isSome ∧
    (tsLater 0 0xC00000 = true ∧ 2 ^ 22 ≤ ((0 : BitVec 24) - 0xC00000).toNat) ∧ onWarp.lastVer = none := by decide +kernel

/-- A load of thread 0 of which one part is awaited. -/
def part0 : LoadPart := { tid := 0, slot := 0, addr := 0x100, place := .mem 0x100 }
def load6 : OutLoad :=
  { id := 6, gid := 0, wid := 0, core := 0, ctx := 1, kind := .load, enc := ex 0x70 0 15 0, rmode := 0, dmode := false, d := 2, size := 4, uni := false, parts := [part0], ord := 0, scope := 1
    sent := 0, pc := 0x1000, path := [0, 1] }
def loading (l : OutLoad) (s : State) : State := { s with loads := [l], cur := {} }

def locals (r : LocalRes) : Nat := match r with
  | .ok _ _ => 1
  | .poison _ => 2
  | _ => 3

theorem wit_CoreEvents_answers :
    (let f := { frag16 with holder := some (.cluster 0, 1), recalled := true, grantAt := 0, used := true }; let s := after (10 ^ 6) (fragId f onWarp); (s.frags.find? fun y => y.id == 11) = some f ∧
      f.recalled = true ∧ s.holdOver f = true ∧ ∀ b ∈ f.blocks, s.waitsAt (b * 64) = false) ∧
    (let f := { frag16 with holder := some (.cluster 0, 1), recalled := true, grantAt := 0, used := false }; let s := after 1 (fragId f onWarp); (s.frags.find? fun y => y.id == 11) = some f ∧ s.holdOver f = false) ∧
    (∀ l ∈ onWarp.loads, l.id ≠ 6) ∧
    (let s := loading load6 onWarp; let r := selfAll load6 (assign s.accelId.toNat load6.parts []) s; (s.loads.find? fun l => l.id == 6) = some load6 ∧ locals (localParts { load6 with parts := r.1 } r.2) = 1) ∧
    (let s := (loading load6 onWarp).setPoison 4; let r := selfAll load6 (assign s.accelId.toNat load6.parts []) s; locals (localParts { load6 with parts := r.1 } r.2) = 2) ∧
    (let l := { load6 with parts := [{ part0 with value := some 5 }] }; l.remote = false ∧ ∀ p ∈ l.parts, partBad l p = false) ∧
    (let l := { load6 with remote := true, parts := [{ part0 with failed := true }] }; l.remote = true ∧ (l.parts.find? LoadPart.failed).isSome) := by decide +kernel

def cmd40 : CopyCmd := { heldCopy with cap := capt0 }
def queued (c : CopyCmd) (s : State) : State := onCl (fun k => { k with copyQ := [c] }) s

theorem wit_CopyEngine : copyNext onWarp 0 = none ∧
    (let s := queued cmd40 onWarp; copyNext s 0 = some cmd40 ∧ s.guardOf 0 cmd40.cap = some true ∧ yes (match copyWidth s cmd40 with
      | .ok _ => true
      | _ => false)) ∧
    (let s := queued { heldCopy with linear := true } (onWarp.updGroup 0 fun g => { g with guards := g.guards.set 3 (some false) }); copyNext s 0 = some heldCopy ∧ s.guardOf 0 heldCopy.cap = some false) ∧
    (let c := { cmd40 with linear := false, kind := .s2g, layout := recPut 0 344 8 10, dst := 0x2000 }; let s := queued c onWarp; copyNext s 0 = some c ∧ layCfmt c.layout ≠ 0 ∧ yes (match copyWidth s c with
      | .error _ => true
      | _ => false)) ∧
    (let c := { cmd40 with st := .running }; let s := queued c onWarp; ((s.cluster 0).copyQ.find? fun c => c.id == 40) = some c ∧ s.groupRuns 0 = true ∧ (c.plan[c.done]?).isSome ∧ c.bound = false) ∧
    (let c := { cmd40 with st := .running, src := 0x400 }; let s : State := { queued c onWarp with tlb := [] }; yes (match locateAll s (engineWho s 0 0) c.srcGlob 1 (blocksOf (c.reads (.at 0))) with
      | .error (.code _) => true
      | _ => false)) ∧
    (let c := { cmd40 with st := .running, done := 1 }; c.plan.length ≤ c.done ∧ c.crc = false) ∧
    (let s := onWarp.updGroup 0 fun g => { g with warps := g.warps.map fun w => { w with pend := [(2, 40)] } }; (s.group? 0).any fun g => (g.warp? 0).any fun w => w.pend.contains (2, 40)) := by decide +kernel

def rec9 : QRec := { heldRec with id := 9, held := false, aging := 1024 }
def lnRec : BitVec 512 := BitVec.ofNat 512 (0x400 + 2 ^ 192 + 2 ^ 256 + 2 ^ 260 + 2 ^ 264 + 2 ^ 248)
def launch2 : Launch := { id := 2, part := 0, ctx := 1, record := lnRec, todo := [0] }
def launched (l : Launch) (s : State) : State := { s with launches := [l] }
def exited (s : State) : State := s.updGroup 0 fun g => { g with threads := g.threads.map fun u => { u with run := .exited } }

theorem wit_SchedulerEvents : ((onWarp.group? 0).any fun g => g.threads.any fun u => u.run != .exited) ∧ (((exited onWarp).group? 0).any fun g => g.threads.all (fun u => u.run == .exited) && g.life == .running) ∧
    (onWarp.groups.rising = true) ∧
    (let s : State := { onWarp with queue := [{ rec9 with waiting := true }] }; (s.queue.find? fun q => q.part == 0 && q.waiting).isSome) ∧
    (let s : State := { onWarp with queue := [rec9] }; (s.queue.find? fun q => q.seam == 0 && q.id == 9) = some rec9 ∧ (after 4092 s).ptime = 1023 ∧ (after 4096 s).ptime = 1024 ∧ (s.part 0).st = .running) ∧
    (SMap.getD 0 onWarp.passes 0 = 0 ∧ let s := onWarp.wantPass 7 0; SMap.getD 0 s.passes (64 * 7) ≠ 0 ∧ (s.part 0).st = .running ∧ s.dieLost 7 = false) ∧
    (onWarp.phase = 15 ∧ 64 % 64 = 0 ∧ (onWarp.part 0).st ≠ .free ∧ (onWarp.part 63).st = .free) ∧
    (let s := memAt (p0 (fun p => { p with lq := [0x300], img := recPut p.img 96 32 1 }) onWarp) 0x300 64 lnRec.toNat; (s.part 0).lq = [0x300] ∧ s.hubWaits 0 = false ∧ yes (match hubPhys s 0x300 64 with
      | .ok l s1 => hubOk (launchTasks s1 0 (BitVec.ofNat 512 (leNat l)))
      | _ => false)) ∧
    ((onWarp.context (lnCtx lnRec)).st = .active ∧ (onWarp.context (lnCtx lnRec)).part = 0 ∧ launchBad lnRec = false ∧ launchBad (lnRec + BitVec.ofNat 512 (2 ^ 275)) = true ∧ (onWarp.context 2).st = .free) ∧
    (let s := launched launch2 onWarp; (s.launches.find? fun l => l.id == 2) = some launch2 ∧ launch2.todo ≠ [] ∧ (s.part 0).st = .running ∧ fld lnRec 259 256 = 1 ∧ (stepDies s launch2).1 = [0]) ∧
    (let s := launched launch2 { onWarp with diestat := 1 }; (stepDies s launch2).1.length < fld lnRec 259 256) ∧
    (let l := { launch2 with status := some (0, 0) }; (launched l onWarp).launches = [l] ∧ lnCompl l.record = 0 ∧ lnCompl (lnRec + BitVec.ofNat 512 (0x800 * 2 ^ 128)) ≠ 0) := by decide +kernel

def entry1 : SvcEntry := { kind := 1, arg := 0, frame := 0, reqno := 0, service := 0, ctx := 1, gid := 0, wid := 0 }
def foreFault (s : State) : State := onCl (fun c => { c with fore := { c.fore with faulted := some ({ code := cIll }, false, false) } }) s

theorem wit_ParkingEvents : (((after (2 ^ 40) onWarp).group? 0).any fun g => wdogDue (after (2 ^ 40) onWarp) g) ∧ ((onWarp.group? 0).any fun g => !wdogDue onWarp g) ∧
    (let s := onWarp.updGroup 0 fun g => { g with life := .stopping { code := cIll } false }; s.quiet 0 = true ∧ (loading load6 s).quiet 0 = false) ∧
    (let g : Group := { small with life := .parked { parked1 with frame := none } }; let s := area (plusG g onWarp); (s.group? 1) = some g ∧ hubOk (handlerFor s g parked1.fault) ∧ hubOk (writeFrame s g parked1.fault) ∧
      hubFails (writeFrame (plusG g onWarp) g parked1.fault)) ∧
    (let s := p0 (fun p => { p with svc := [entry1], img := recPut p.img 256 64 0x800 }) onWarp; (s.part 0).svc = [entry1] ∧ ((s.part 0).ksvcwr - (s.part 0).ksvcrd).toNat < (s.part 0).ksvcEntries ∧ (s.part 0).ksvcarm = true ∧
      yes (match hubWrite s (s.part 0).kctx (s.part 0).ksvcBase (leBytes 64 (svcNat entry1)) with
      | .ok _ s1 => hubOk (enqueueService (s1.updPart 0 fun p => { p with svc := [], ksvcwr := p.ksvcwr + 1, wrPts := some s.pmax }) 0)
      | _ => false)) ∧
    ((onWarp.part 0).svc = []) ∧
    (let s := foreFault onWarp; (s.cluster 0).fore.faulted = some ({ code := cIll }, false, false) ∧ 65536 * (s.context 1).parkSize < 1024 * (s.foreRank 0 + 1)) ∧
    (let s := area (foreFault onWarp); 1024 * (s.foreRank 0 + 1) ≤ 65536 * (s.context (s.part (s.partOfCluster 0)).kctx).parkSize ∧ s.parkUsed 1 = [] ∧
      hubOk (hubWrite s 1 (s.foreRecord 0) (foreRecordBytes 1 (s.cluster 0).fore { code := cIll }))) := by decide +kernel

/-- An address whose home is die 1; packets of the group to it, whose pair expects number 5. -/
def far : Nat := 4096
def pkt1 (seq : BitVec 16) (st : PktSt) : Packet := { pkt with pay := .write far [(far, 1)] .raw, seq := seq, st := st }
def paired (p : Packet) (s : State) : State := { s.updGroup 0 fun g => { g with pairs := [{ ch := 1, dest := .die 1, next := 9, expect := 5, opened := true }] } with packets := [p] }

theorem wit_ChannelPackets : (onWarp.packet? 9 = none ∧ onWarp.sites = []) ∧ (let p := { pkt1 5 .port with refused := true }; (paired p onWarp).packet? 9 = some p) ∧
    (let p := { pkt1 5 .flying with dest := .die 0 }; (paired p onWarp).stale p = true) ∧
    (([.source, .flying, .plane, .port, .done] : List PktSt).all fun st => let p := pkt1 5 st; let s := paired p onWarp; s.packet? 9 == some p && !p.refused && !s.stale p && !planeHeld s p) ∧
    (let p := { pkt1 5 .flying with dest := .fab 0 3 }; (paired p onWarp).packet? 9 = some p ∧ p.dest = .fab onWarp.accelId.toNat 3) ∧
    (let p := pkt1 5 .flying; let s := paired p onWarp; s.expected p = some 5 ∧ (performPacket p s).1 = true ∧ s.expected (pkt1 (5 + 32767) .flying) = some 5 ∧ ((5 + 32767 : BitVec 16) - 5).toNat = 32767 ∧
      ((5 + 32768 : BitVec 16) - 5).toNat = 32768) ∧
    (let p := pkt1 5 .flying; let s := { paired p onWarp with frags := [{ frag16 with blocks := [far / 64], holder := some (.cluster 3, 1) }] }; s.expected p = some 5 ∧ (performPacket p s).1 = false) ∧
    (let p := { pkt with dest := .site 1, pay := .guest 1 0 }; (onWarp.site 1).st ≠ 2 ∧ p.dest = .site 1) := by decide +kernel

/-! ### The fabric, the host -/

/-- Accelerator 2 may do all in 64 KiB at address 0 of context 1. -/
def exported (s : State) : State := { s with exports := [(0, BitVec.ofNat 256 (2 ^ 96 + 2 ^ 56 + 7))] }
def key2 : PairKey := ⟨2, 7, 1, 0⟩
def tag2 (seq : BitVec 16) (rs : Bool) : BitVec 64 := tagOf 7 1 seq 3 rs none
def req2 (k : FabKind) (seq : BitVec 16 := 5) (rs : Bool := false) : FabPacket := { src := 2, xaddr := 0x400, kind := k, tag := some (tag2 seq rs) }
def rpaired (run : BitVec 8) (held : List FabPacket) (s : State) : State := { s with rpairs := [⟨key2, run, 5, held, 0⟩] }
def fabPair : Pair := { ch := 1, dest := .fab 2 0, next := 9, opened := true }
def fabbed (s : State) : State := { s.updGroup 0 fun g => { g with pairs := [fabPair] } with packets := [{ pkt with dest := .fab 2 0 }] }

theorem wit_FabricIngress : (let s := exported onWarp; yes (match fabPerform (req2 (.write [some 1])) s with
      | .ok (_, none) _ => true
      | _ => false) && yes (match fabPerform (req2 (.atomic 0 1 1 0)) s with
      | .ok (_, some _) _ => true
      | _ => false)) ∧
    (tagRs (tag2 5 false) = false ∧ onWarp.rpair? key2 = none) ∧ (let s : State := { onWarp with rpairs := List.replicate 4096 ⟨⟨3, 0, 0, 0⟩, 0, 0, [], 0⟩ }; tagRs (tag2 5 true) = true ∧ s.rpair? key2 = none ∧ 4096 ≤ s.rpairs.length) ∧
    (let s := rpaired 4 [] onWarp; (s.rpair? key2).any fun q => q.run != tagRun (tag2 5 false)) ∧
    (let h := req2 (.write [some 1]) 9; let s := rpaired 3 (List.replicate 2048 h) onWarp; (s.rpair? key2).any (fun q => q.run == tagRun (tag2 6 false) && q.held.all fun h => reqSeq h != 6) ∧ 2048 ≤ s.ingressHeld ∧
      (tagSeq (tag2 6 false) - 5).toNat = 1 ∧ (tagSeq (tag2 (5 + 32767) false) - 5).toNat = 32767) ∧
    (let s := rpaired 3 [] onWarp; (s.rpair? key2).isSome ∧ s.kept = [] ∧ 32767 < (tagSeq (tag2 (5 + 32768) false) - 5).toNat) ∧
    (onWarp.exportEntry 2 0x400 = none ∧ 0 < 256) ∧
    (let s := fabbed onWarp; (s.pairsOf 0).find? (fun p => p.ch == 1 && p.dest == .fab 2 0) = some fabPair ∧ s.packets ≠ [] ∧ 2 ≠ s.accelId.toNat) ∧
    ((rpaired 3 [] onWarp).rpairs.length < 4096) ∧ ((fabbed onWarp).pairsOf 0).all (fun k => !k.resync) = true ∧
    (let s := onWarp.updGroup 0 fun g => { g with pairs := [{ fabPair with resync := true }] }; (s.pairsOf 0).any fun k => k.ch == 1 && k.dest == .fab 2 0 && k.resync) ∧
    ((fabbed onWarp).packet? 9).isSome ∧ (onWarp.packet? 6 = none ∧ ((loading load6 onWarp).loads.find? fun l => l.id == 6).isSome) ∧ onWarp.loads = [] := by decide +kernel

def port5 : Port := { txLit := 0xF, rxLit := 0xF, txAct := 0xF, rxAct := 0xF, txUp := true, rxUp := true, kstate := 0 }
def withPort (p : Port) (s : State) : State := { s with ports := [(5, p)], light := 1, caps := { s.caps with ports := [5] } }

theorem wit_FabricPorts : bit onWarp.light 15 = false ∧ (let s := withPort port5 onWarp; bit s.light 0 = true ∧ s.ports.find? 5 = some port5 ∧ 5 / 24 = 0 / 4) ∧
    (let s := withPort port5 onWarp; (s.port 5).txUp = true ∧ (s.port 5).rxUp = true ∧ (s.port 5).txLit &&& 1 ≠ 0 ∧ (s.port 5).rxLit &&& 0x10 = 0 ∧ (s.port 5).restripe = false) ∧ (onWarp.port 5).txUp = false ∧ (onWarp.port 5).rxUp = false ∧
    (port5.txAct = port5.txLit ∧ port5.rxAct = port5.rxLit ∧ ({ port5 with txLit := 7 } : Port).txAct ≠ 7) ∧ 0 < litCount 0xF ∧
    (let s := withPort { port5 with txUp := false } onWarp; ((s.port 5).txUp && (s.port 5).rxUp) = false) ∧ onWarp.loads = [] ∧
    (litCount 0xF = 4 ∧ litCount 7 = 3 ∧ ((withPort { port5 with restripe := true } onWarp).port 5).restripe = true) ∧
    (let s := withPort { port5 with txUp := false } onWarp; 5 ∈ s.caps.ports ∧ 4 ≤ litCount (s.port 5).txLit ∧ 4 ≤ litCount (s.port 5).rxLit ∧ (s.port 5).kstate = 0) ∧
    (let s := withPort { port5 with ctr := 2 ^ 48 - 2 ^ 32, kstate := 1 } onWarp; (s.port 5).kstate.toNat < 2 ∧ 2 ^ 48 - 2 ^ 32 ≤ (s.port 5).ctr) ∧
    (let s := withPort { port5 with ctr := 2 ^ 48 - 2 ^ 32 - 1 } onWarp; (s.port 5).ctr < 2 ^ 48 - 2 ^ 32) ∧
    (let s : State := { onWarp with hevBase := 6, hevWr := 63 }; fld s.hevBase 4 0 ≠ 0 ∧ (s.hevWr - s.hevRd).toNat < 2 ^ fld s.hevBase 4 0) ∧
    (let s : State := { onWarp with hevBase := 6, hevWr := 64 }; 2 ^ fld s.hevBase 4 0 ≤ (s.hevWr - s.hevRd).toNat) ∧ fld onWarp.hevBase 4 0 = 0 := by decide +kernel

/-- A request to load a program of no bytes for a context that is not there. -/
theorem wit_HostAccesses : (([0, 6, 15] : List (BitVec 64)).all (fun v => let n := fld v 4 0; n == 0 || (6 ≤ n && n ≤ 15)) ∧ fld (5 : BitVec 64) 4 0 = 5 ∧ fld (16 : BitVec 64) 4 0 = 16) ∧
    (onWarp.phase = 15 ∧ ({ onWarp with phase := 2 } : State).phase ≠ 15) ∧ hubOk (physReady onWarp ((hostCells onWarp [(0x100, 1), (0x101, 2)]).map (·.1))) ∧
    (let s := handled { frag16 with holder := some (.cluster 3, 1) } onWarp; yes (match physReady s ((hostCells s [(0x400, 1)]).map (·.1)) with
      | .recall _ => true
      | _ => false)) ∧
    (let s : State := { onWarp with move := { state := 1, op := 1, size := 65536, src := 0, dst := 65536, blocked := true } }; yes (match physReady s ((hostCells s [(0x400, 1)]).map (·.1)) with
      | .wait => true
      | _ => false)) ∧
    (hostCells onWarp [(0x100, 1)] = [(0x100, 1)] ∧ isFlistad 0x100 = true ∧ onWarp.poisonedAt 0x100 = false) ∧ hubOk (physReady onWarp ((((List.range 4).map (0x100 + ·)).filter isFlistad))) ∧
    (2 % 2 = 0 ∧ 3 % 2 = 1) ∧ (7 < 8) ∧ ((1 : Byte) ≠ 0 ∧ 1 < 2) ∧ (0x13FFFF < 0x140000 ∧ 0x170020 ≤ 0x170020) ∧
    (let s := memAt onWarp 0x800 64 (5 * 2 ^ 224); yes (match hubPhys s 0x800 64 with
      | .ok bs _ => (match loadRequest (BitVec.ofNat 512 (leNat bs)) s with
        | .ok r t => r == 1 && hubOk (physReady t [0x800 + 32])
        | _ => false)
      | _ => false)) ∧ hubFails (hubPhys onWarp (2 ^ 48) 64) ∧ (onWarp.context (fld (0 : BitVec 512) 233 224)).st ≠ .active ∧
    (let r : BitVec 512 := BitVec.ofNat 512 (2 ^ 224 + 2 ^ 264); (onWarp.context (fld r 233 224)).st = .active ∧ fld r 511 264 ≠ 0) := by decide +kernel

/-! ### Memory that moves, the guests, the device -/

def moving (m : Move) (s : State) : State := { s with move := m }

theorem wit_MemoryMoves : ({ onWarp with phase := 2 } : State).phase ≠ 15 ∧ (onWarp.phase = 15 ∧ onWarp.move.state = 0) ∧
    (pageOk 0 0 = true ∧ pageOk 0 65536 = true ∧ pageOk 0 1 = false ∧ (0 : BitVec 48) ≠ 65536 ∧ moveSize 0 = 65536) ∧
    ((moving { state := 1, op := 1 } onWarp).move.state = 1) ∧ (let s := moving { state := 2, op := 1, size := 65536, src := 0, dst := 65536 } onWarp; s.move.state = 2 ∧ s.move.size = moveSize 0 ∧ s.move.src = (0 : BitVec 48).toNat) ∧
    (1535 < 1536 ∧ fld (0x3F : BitVec 16) 15 6 = 0 ∧ fld (0x40 : BitVec 16) 15 6 ≠ 0) ∧
    (let s := moving { state := 1, op := 1, size := 131072, src := 0, dst := 2 ^ 20, chunks := 1 } onWarp; s.move.blocked = false ∧ s.frags = [] ∧ ¬ 131072 ≤ 65536 * 1 ∧ 131072 ≤ 65536 * (s.move.chunks + 1)) ∧
    (let s := moving { state := 1, op := 1, size := 65536, src := 0, dst := 2 ^ 20 } (handled { frag16 with holder := some (.cluster 3, 1) } onWarp); s.frags.filter (fun f => f.holder.isSome && f.blocks.any fun b => b / 1024 == 0) ≠ []) ∧
    (let s := moving { state := 1, op := 1, size := 65536, src := 0, dst := 2 ^ 20, blocked := true } onWarp; s.move.blocked = true ∧ s.rpairs = []) ∧
    (SMap.wf (0 : Byte) onWarp.mem = true ∧ SMap.wf rawDesc onWarp.desc = true ∧ 65536 % 65536 = 0) ∧
    (let s := moving { state := 1, op := 3, region := 1535, entry := 1 } onWarp; s.move.op = 3 ∧ ((List.range 8).any fun d => s.dieLost d && (homesOf (s.region.getD 0 1535) d || homesOf 1 d)) = false ∧
      ((List.range 8).any fun d => ({ s with diestat := 1 } : State).dieLost d && (homesOf (s.region.getD 0 1535) d || homesOf 1 d)) = true) ∧
    (1535 ∉ onWarp.busy ∧ onWarp.keyid.getD 64 1535 = 64 ∧ (63 : BitVec 7).toNat ≤ 64 ∧ (64 : BitVec 7).toNat ≤ 64 ∧ 64 < (65 : BitVec 7).toNat) ∧
    ((5 ∈ ({ onWarp with busy := [5] } : State).busy) ∧ onWarp.rpairs = []) := by decide +kernel

/-- A site that is up, whose guest holds a grant on the first 64 KiB of context 1 for a long time and works on a command. -/
def grant0 : Grant := { ctx := 1, va := 0, pa := 0, size := 65536, r := true, w := false, expiry := 10 ^ 9 }
def guestCmd : GuestCmd := { id := 50, gid := 0, dreg := 2, pkt := BitVec.ofNat 512 (2 ^ 16 + 9 * 2 ^ 64), cap := capt0, st := .outstanding, arrived := true }
def site0 : Site := { st := 2, grants := [grant0], cmds := [guestCmd], duties := [(.preempt 50, 100)] }
def sited (x : Site) (s : State) : State := { s with sites := [(0, x)] }
/-- A packet about the command: CTXID 1, CH 0, SEQ 0, TAG 9. -/
def gpk (op : Nat) (payload : Nat := 0) : BitVec 512 := BitVec.ofNat 512 (op + 2 ^ 16 + 9 * 2 ^ 64 + payload * 2 ^ 128)

theorem wit_GuestSites : ((onWarp.site 0).st = 0) ∧ (let s := sited { site0 with st := 3 } onWarp; (s.site 0).st ≠ 2 ∧ (s.site 0).st ≠ 0) ∧
    (let s := sited site0 onWarp; (s.site 0).st = 2 ∧ 63 + 1 ≤ 64 ∧ (∀ g ∈ (s.site 0).grants, ¬(g.ctx = 1 ∧ g.pa ≤ 65536 ∧ 65536 < g.pa + g.size)) ∧ isFlistad (2 ^ 47) = false) ∧
    (let s := sited site0 onWarp; isFlistad 65535 = true ∧ grant0 ∈ (s.site 0).grants ∧ grant0.ctx = 1 ∧ s.ptime < grant0.expiry ∧ grant0.pa ≤ 65535 ∧ 65535 < grant0.pa + grant0.size ∧ grant0.r = true ∧
      (s.site 0).pass = [] ∧ s.watchHit 1 64 (accDirs 1) (s.blk 65535) = none ∧ s.waitsAt 65535 = false ∧ s.recallFor (some (.guest 0, 1)) 65535 = none ∧ s.frag? 65535 = none ∧ s.poisonedAt 65535 = false) ∧
    (([0x8001, 0x8002, 0x8003, 0x8012, 0x8013, 0x8020, 0x8023, 0x8030, 0x8033] : List Nat).all fun op => let s := sited site0 onWarp
      pkOp (gpk op) == op && protocolBad (s.siteNow 0) (gpk op + BitVec.ofNat 512 (2 ^ 26)) && (op == 0x8030 || !protocolBad (s.siteNow 0) (gpk op))) ∧
    (let s := sited site0 onWarp; (s.site 0).cmds.find? (fun c => c.arrived && pkCtx c.pkt == pkCtx (gpk 0x8001) && pkCh c.pkt == pkCh (gpk 0x8001)) = some guestCmd ∧ pkSeq guestCmd.pkt = pkSeq (gpk 0x8001) ∧
      pkTag guestCmd.pkt = pkTag (gpk 0x8001) ∧ pkTag guestCmd.pkt ≠ pkTag (gpk 0x8001 + BitVec.ofNat 512 (2 ^ 64)) ∧ fld (gpk 0x8003) 199 192 = 0) ∧
    (let s := sited { site0 with cmds := [] } onWarp; ∀ c ∈ (s.site 0).cmds, c.arrived = true → ¬(pkCtx c.pkt = pkCtx (gpk 0x8001) ∧ pkCh c.pkt = pkCh (gpk 0x8001))) ∧
    (let s := sited site0 onWarp; (s.site 0).cmds.find? (fun c => c.arrived && fld c.pkt 127 16 == fld (gpk 0x8012) 127 16 && (s.site 0).duties.any fun d => d.1 == .preempt c.id) = some guestCmd) ∧
    (let s := sited { site0 with grants := List.replicate 4096 grant0 } onWarp; protocolBad (s.siteNow 0) (gpk 0x8020) = false ∧ 4096 ≤ (s.siteNow 0).grants.length) ∧
    (let s := sited site0 onWarp; (s.siteNow 0).grants.length < 4096 ∧ protocolBad (s.siteNow 0) (gpk 0x8020 (2 ^ 52)) = false ∧ 2 ^ 52 ≤ fld (gpk 0x8020 (2 ^ 52)) 191 128) ∧
    (let pte (a v : Nat) (s : State) : State := memAt s a 8 v
     let s := pte 0x1000 0x9F (pte ((sited site0 onWarp).ptroot 1) 0x1001 (sited site0 onWarp))
     yes (match walk s false 0 1 0x400 with
      | .leaf e l _ => (match checkLeaf s 0x400 0 e l [] with
        | .ok _ => true
        | _ => false) && pteR e && pteW e
      | _ => false)) ∧
    (let s := sited site0 onWarp; (∀ d ∈ (s.site 0).duties, d.1 = .preempt 50) ∧ (s.handle? 1 0 = none)) ∧
    (let p := gpk 0x8030 (5 + 2 * 2 ^ 16); let s := sited site0 onWarp; protocolBad (s.siteNow 0) p = false ∧ s.handle? (pkCtx p) (fld p 143 128) = none) ∧
    ((∃ d ∈ site0.duties, d.2 ≤ (after 400 onWarp).ptime) ∧ (after 399 onWarp).ptime = 99) ∧
    ((fragId { frag16 with holder := some (.guest 0, 1) } onWarp).frags.find? fun f => f.id == 11).isSome := by decide +kernel

theorem wit_DeviceEvents : (8 ≤ 8 ∧ onWarp.dieLost 7 = false ∧ onWarp.phase = 15) ∧
    (let f := { frag16 with holder := some (.cluster 167, 1) }; ((fragId f onWarp).frags.find? fun f => f.id == 11) = some f ∧ 167 / 24 = 6) ∧
    ((launched launch2 (onWarp.updCtx 1 fun c => { c with touched := 0x80 })).trapped 7 1 = true) ∧ isFlistad (5 * 64) = true ∧
    ((onWarp.group? 0).any fun g => g.gid == 0 && decide (63 * 64 < g.scr.size) && !decide (64 * 64 < g.scr.size)) ∧ onWarp.group? 9 = none ∧
    (let s := onCl (fun c => { c with held := [{ blk := 5 }] }) onWarp; ∃ h ∈ (s.cluster 0).held, h.blk = 5) ∧ (onWarp.cluster 0).held = [] ∧ (7 < 8 ∧ 191 < 192) ∧ ({ onWarp with phase := 2 } : State).phase ≠ 15 ∧
    ({ onWarp with recovery := true } : State).recovery = true ∧ (191 ∉ onWarp.fenced ∧ 191 ∈ ({ onWarp with fenced := [191] } : State).fenced) ∧
    (let u : Sampler := { addr := 0x200, img := smpImg, ctx := none, part := none, wr := 0, nextAt := 16 }; let s := partSt 0 .halted (onCl (fun c => { c with smp := some u }) onWarp); (s.cluster 0).smp = some u ∧
      (after 15 s).cyclesOf 0 < u.nextAt ∧ u.nextAt ≤ (after 16 s).cyclesOf 0 ∧ (s.part (s.partOfCluster 0)).st ≠ .running ∧ (onWarp.cluster 0).smp = none) := by decide +kernel

/-- No image has a version of 64 ones, so the device goes into recovery. Which image verifies is an open value. -/
theorem wit_DeviceEvents_refused (image : List Byte) : State.accepts { onWarp with fuses := 0xFFFFFFFFFFFFFFFF } image = none := by
  have h : ∀ v : BitVec 32, ¬ (0xFFFFFFFFFFFFFFFF : BitVec 64).toNat ≤ v.toNat := fun v => by have := v.isLt; simp; omega
  cases e : Config.firmwareOk image <;> simp [State.accepts, e, Option.filter]
  rename_i v; have := v.isLt; omega

/-! ### Clauses of the larger statements that the witnesses above leave -/

theorem wit_Claims_waits : let x := un 0xA3 0 0
    let s := onCl (fun c => { c with claims := [⟨11, 1, true, 9, 1, 10, 0⟩] }) (handled { frag16 with holder := some (.cluster 0, 1) } { onWarp with move := { state := 1, op := 1, size := 65536, dst := 2 ^ 20, blocked := true } })
    enabledB 0xA3 x s ∧ names s (rdU (viewOf s).warp x.a) handle5 ∧ (s.fragsOf handle5).any (fun f => ((s.cluster 0).claim? f.id 1).isSome && f.blocks.any fun b => s.waitsAt (b * 64)) := by decide +kernel

theorem wit_Copies_refused : (let x := un 0xB0 0 0; let s := withS (withS (withS onWarp 8 0) 12 0) 16 0x200; enabledB 0xB0 x s ∧ copyIll x s = false ∧ layBad 0 .g2s = true ∧
      (active x s).head?.any (fun u => recordOk s u (rdU (viewOf s).warp x.a) 64 64)) ∧
    (let x := un 0xB0 0 0; let s := withS (laid onWarp) 16 0x201; enabledB 0xB0 x s ∧ copyIll x s = false ∧ (rdU (viewOf s).warp x.e).toNat % 64 ≠ 0 ∧
      (active x s).head?.any (fun u => recordOk s u (rdU (viewOf s).warp x.a) 64 64)) ∧
    (let x := { un 0xB1 0 0 with c := 0xC2 }; let s := withS onWarp 2 16; enabledB 0xB1 x s ∧ copyIll x s = false ∧ (rdU (viewOf s).warp x.c).toNat = 16 ∧ (rdU (viewOf s).warp x.a).toNat % 16 = 0 ∧
      (rdU (viewOf s).warp x.b).toNat % 16 = 0) := by decide +kernel

/-- MMA.follow after a CPYM of the path that left `c`. -/
def mmaFollow : Enc := ex 0xC0 0 0x2C
def copied (c : Option (Nat × BitVec 512 × List Int)) (s : State) : State := s.updGroup 0 fun g => { g with warps := g.warps.map fun w => { w with cpym := [([0, 1], c)] } }

theorem wit_MatrixPosts_follow : (let x := mmaFollow; let s := mmaOk onWarp; enabledB 0xC0 x s ∧ active x s ≠ [] ∧ x.mod.getLsbD 5 = true ∧ (viewOf s).warp.cpym = []) ∧
    (([none, some (0, lay, [0]), some (40, lay, [0])] : List (Option (Nat × BitVec 512 × List Int))).all fun c => let s := copied c (mmaOk onWarp)
      enabledB 0xC0 mmaFollow s && ((viewOf s).warp.cpym.find? fun p => p.1 == (viewOf s).ths.map Thread.tid).map (fun p => p.2) == some c && (mmaBad mmaFollow (viewOf s).warp group).isNone) ∧
    (([.ready, .draining] : List RingSt).all fun st => let s := slot1 { st := st } (mmaOk onWarp); enabledB 0xC0 mmaEnc s && (mmaBad mmaEnc (viewOf s).warp group).isNone && ((s.cluster 0).slot 1).st == st) ∧
    (let s := onCl (fun c => { c with mma := List.replicate 64 pass7 }) (mmaOk onWarp); enabledB 0xC0 mmaEnc s ∧ 64 ≤ (s.cluster 0).tabled.length) ∧
    (group.threads.find? (fun t => t.wid == 0 && t.slot == 5 / 4 && t.run != .exited && t.run != .filed) = some (thread 1)) := by decide +kernel

theorem wit_MatrixEngine_errors : let s := onCl (fun c => { c with mma := [{ pass7 with a := .scratch 0x10000 64 64 0 }] }) onWarp; mmaPick s 0 = some { pass7 with a := .scratch 0x10000 64 64 0 } ∧
    yes (match mmaCapture group { pass7 with a := .scratch 0x10000 64 64 0 } with
      | .error f => f.code != cWatch && f.code != cPurity
      | _ => false) := by decide +kernel

/-- The accesses of an epilogue's blocks pass; of its stores, which compute 16,384 cells, one block's is shown to be issued. -/
theorem wit_Epilogues_drain : let s := slot1 { st := .ready } (onCl (fun c => { c with epiQ := [epi8] }) onWarp); let w := engineWho s 0 0
    epi8.cap.ord.toNat % 2 = 0 ∧ yes (match epiAccs s w (epi8.blocks.map (·.2.2)) with
    | .ok (a :: as) => (a :: as).all (fun a => (enginePure s 0 a 2).isNone && (engineWatch s w.ctx 32 a 2).isNone) && !xlatWaitEngine s w.cl w.ctx (a :: as) &&
        (match epiStores w epi8 (releasePts s w none epi8.cap.ord.toNat epi8.cap.scope.toNat) [(a, List.replicate 64 0, .raw)] s with
        | (.go, s2) => decide (1 < (s2.cluster 0).ring.length)
        | _ => false)
    | _ => false) := by decide +kernel

theorem wit_TaskInstructions_more : (let x := un 0xD0 0 0; let s := { sending onWarp with cur := onWarp.cur }; enabledB 0xD0 x s ∧ (active x s).head?.any (fun u => recordsOk x s [u] && owes s 2 [u])) ∧
    (let x := un 0xD0 0 0; let s := memAt onWarp 0x300 64 (2 ^ 308); enabledB 0xD0 x s ∧ (active x s).head?.any (fun u => recordsOk x s [u] && memAddr x (viewOf s).warp u 64 == 0x300)) ∧
    (let x := bs 0xD1; let s := pureS onWarp; enabledB 0xD1 x s ∧ active x s ≠ [] ∧ (s.group? 0).any fun g => g.pure.isSome) ∧
    (let x := bs 0xD1; let s := onWarp.updGroup 0 fun g => { g with tdone := true }; enabledB 0xD1 x s ∧ (s.group? 0).any fun g => g.pure.isNone && g.tdone) ∧
    (let x := bs 0xD1; let s := sending onWarp; enabledB 0xD1 x s ∧ (active x s).head?.any (fun u => owes s 2 [u])) ∧
    (recJoin (0 : BitVec 512) = 0 ∧ let t : BitVec 512 := recPut 0 192 64 0x40; let g : Group := { group with task := t }; let s := memAt onWarp 0x40 4 2; recJoin t ≠ 0 ∧
      yes (match engineXlate s (engineWho s 0 0) (recJoin t) 16 2 with
      | .ok a => a.fab.isNone && !s.poisonedAt a.pa && s.homeWait (engineWho s 0 0).core (engineWho s 0 0).ctx a.pa == .go && !s.ownWrite (engineWho s 0 0).core (engineWho s 0 0).ctx a.pa && a.pa % 4 == 0 &&
          s.rdNat a.pa 4 == 2
      | _ => false) ∧ yes (match completeTask s g 0 with
      | .done _ => true
      | _ => false) ∧ yes (match engineXlate { s with tlb := [] } (engineWho s 0 0) (recJoin t) 16 2 with
      | .bad _ _ => true
      | _ => false)) := by decide +kernel

theorem wit_EventQueue_mgmt : let x := un 0xD3 0 0; enabledB 0xD3 x onMgmt ∧ active x onMgmt ≠ [] ∧ pureNow onMgmt = none ∧ (who onMgmt).phys = true := by decide +kernel

theorem wit_GuestPost_sent : (let x := un 0xD2 0 0; let s : State := { onWarp with sites := [(x.subN, { st := 2 })] }; enabledB 0xD2 x s ∧ active x s ≠ [] ∧ s.groupRuns 0 = true ∧ (s.site x.subN).st = 2 ∧
      s.pairRoom (engineWho s 0 0) x.w2.ch.toNat (.site x.subN) 1 = true ∧ x.w2.gse = false) ∧
    (let s := onWarp.updGroup 0 fun g => { g with pure := none, scr := { g.scr with poison := [4] } }; (s.group? 0).any fun g => g.scr.poison.contains 4) ∧
    (let s := onWarp.updGroup 0 fun g => { g with scr := { g.scr with bytes := [(0x101, 0x80)] } }; (s.group? 0).any fun g => (g.scr.sec 0x100).data.toNat % 2 ^ 16 == 0x8000) := by decide +kernel

theorem wit_CoreEvents_more : ((onWarp.slotOrder 1 0).any (awake onWarp 1 0) = false ∧ 0 < Config.lanes) ∧
    (let s := binned binA onWarp; s.groupRuns binA.gid = true ∧ 2048 ≤ binAge (after 2048 s) 0 binA) ∧
    (let s := { onWarp.updSite 1 (fun x => { x with st := 2, pts := 0 }) with clusters := (onCl (fun c => { c with pts := 0x200000 }) onWarp).clusters }; (s.site 1).st = 2 ∧ tsLater s.pmax (s.site 1).pts = true ∧
      2 ^ 21 ≤ (s.pmax - (s.site 1).pts).toNat) ∧
    (let x := { frag16 with rts := 0xC00000 }; let y := { frag16 with rts := 0xC00001 }; let s := fragId x onWarp; 2 ^ 22 ≤ (s.pmin - x.rts).toNat ∧ (s.pmin - x.rts).toNat < 2 ^ 24 - 2 ^ 22 ∧
      ¬ 2 ^ 22 ≤ ((fragId y onWarp).pmin - y.rts).toNat) ∧
    (let s : State := { onWarp with lastVer := some (2 ^ 64 - 2 ^ 25 - 1) }; s.lastVer.any fun l => l.toNat + 2 ^ 25 < 2 ^ 64) := by decide +kernel

theorem wit_CoreEvents_loads : (let l : OutLoad := { load6 with parts := [{ part0 with value := some 5 }, { part0 with tid := 1, slot := 1, place := .fabric 3 0x100 }] }
     let s := loading l onWarp; let r := selfAll l (assign s.accelId.toNat l.parts []) s; yes (match localParts { l with parts := r.1 } r.2 with
      | .ok l2 _ => l2.parts.any LoadPart.waits && l2.id == 6
      | _ => false)) ∧
    (let s := loading load6 onWarp; let r := selfAll load6 (assign s.accelId.toNat load6.parts []) s; yes (match localParts { load6 with parts := r.1 } r.2 with
      | .ok l2 s2 => !l2.parts.any LoadPart.waits && !l2.noret && !l2.remote && l2.parts.all (fun p => !partBad l2 p) && (view { s2 with cur := l2.cur }).isSome
      | _ => false)) ∧
    (let s := (loading load6 onWarp).setPoison 4; load6.gid < 131072 ∧ (s.group? load6.gid).any fun g => g.life == .running) := by decide +kernel

theorem wit_CopyEngine_blocks :
    (let c := { cmd40 with st := .running, src := 0x400, dst := 0 }; let s := queued c onWarp; let w := engineWho s 0 0; s.groupRuns 0 = true ∧ yes (match c.plan[c.done]? with
      | some u => let written := ((c.covers u).filter fun p => p.2).map (·.1)
        (match locateAll s w c.srcGlob 1 (blocksOf (c.reads u)), locateAll s w c.dstGlob 2 (blocksOf written) with
        | .ok srcs, .ok dsts => (sideChecks s w c srcs dsts fun b => decide ((written.filter fun n => n / 128 == b).length < 128)).isNone && !xlatWaitEngine s w.cl w.ctx (globsOf srcs ++ globsOf dsts) &&
            (match readSides w c srcs s with
            | .ok (bs, s1) => (match c.outs bs u with
              | some (out, da) => (match writeSides w c da (dsts.map fun p => (p, ((toBytes out (oldByte s w dsts)).filter fun q => q.1 / 64 == p.1).map fun q => ((q.1 % 64).toNat, q.2))) s1 with
                | (.go, s2) => (s2.cluster 0).copyQ == (s.cluster 0).copyQ
                | _ => false)
              | none => false)
            | _ => false)
        | _, _ => false)
      | none => false)) ∧
    (let c := { cmd40 with st := .running, done := 1 }; let s := queued c onWarp; ((s.cluster 0).copyQ.find? fun k => k.id == 40) = some c ∧ copyOver s c = true ∧ (s.anyGroup 0) = (s.group? 0) ∧
      (s.group? 0).any fun g => g.frameRun.isNone) ∧
    (let c := { cmd40 with st := .running, done := 1 }; copyOver (queued c { onWarp with packets := [{ pkt with cmd := some 40 }] }) c = false) := by decide +kernel

theorem wit_SchedulerEvents_more : (let s := exited onWarp; (s.group? 0).any fun g => g.gang.isNone && g.gid == 0 && !g.tdone && !s.taskInFlight g && recJoin g.task == 0) ∧
    (let s := exited (sending onWarp); (s.group? 0).any fun g => s.taskInFlight g) ∧ (let s := (exited onWarp).updGroup 0 fun g => { g with tdone := true }; (s.group? 0).any fun g => g.tdone) ∧
    (let s := (onWarp.wantPass 7 0); s.passOn.find? 7 = none ∧ candidates s 7 0 = [] ∧ idleCore s 7 0 = false ∧ s.passes.rising = true) ∧
    (let s : State := { onWarp.wantPass 7 0 with passOn := [(7, ⟨0, [], 1⟩)] }; s.passOn.find? 7 = some ⟨0, [], 1⟩ ∧ s.ptime < 1) ∧
    (let s : State := { onWarp.wantPass 0 0 with queue := [rec9] }; s.passOn.find? 0 = none ∧ candidates s 0 0 = [rec9] ∧ recPure rec9.record = false ∧ recGang rec9.record = 1 ∧
      yes (match targetIn s (viewsFor s rec9) rec9.record rec9.level rec9.entered (clustersFor s rec9 0) with
      | some [o] => decide (o.core < 768)
      | _ => false)) ∧
    (let s : State := { onWarp with queue := [{ rec9 with spilled := true }] }; yes (match s.roomFor 0 0 0 with
      | .none => true
      | _ => false)) ∧
    (let l := { launch2 with status := some (1, 0), record := lnRec + BitVec.ofNat 512 (0x800 * 2 ^ 128) }; let s := launched l onWarp; lnCompl l.record ≠ 0 ∧
      hubOk (hubWrite s l.ctx (lnCompl l.record) (leBytes 16 (1 + l.steps % 2 ^ 16 * 2 ^ 48))) ∧ hubFails (hubWrite { s with tlb := [] } l.ctx (lnCompl l.record) (leBytes 16 1))) := by decide +kernel

theorem wit_ParkingEvents_more : (let s := onWarp; (s.group? 0).any fun g => decide (s.ptime < g.wdogAt + g.wdogLim) || g.wdogLim == 0) ∧
    (let s := after (2 ^ 40) onWarp; (s.group? 0).any fun g => g.life == .running && decide (g.wdogAt + g.wdogLim ≤ s.ptime) && !wdogPaused s g) ∧
    (let g : Group := { small with life := .parked { parked1 with frame := none, retry := true, held := true } }; (plusG g onWarp).group? 1 = some g ∧ hubFails (writeFrame (plusG g onWarp) g parked1.fault)) ∧
    (let s := onWarp; hubOk (hubRead s (s.part 0).kctx (s.part 0).ksvcTask 64)) ∧
    (let s := area (foreFault onWarp); let k := (s.part (s.partOfCluster 0)).kctx; 1024 * (s.foreRank 0 + 1) ≤ 65536 * (s.context k).parkSize ∧
      hubOk (hubWrite s k (s.foreRecord 0) (foreRecordBytes k (s.cluster 0).fore { code := cIll }))) := by decide +kernel

theorem wit_ChannelPackets_more : ((paired (pkt1 5 .flying) onWarp).packets.map Packet.id).Nodup ∧
    (let p := pkt1 5 .source; let s := paired p onWarp; s.stale p = false ∧ sourceHeld s p = false ∧ (s.pairsOf p.gid).find? (fun q => q.ch == p.ch && q.dest == p.dest) = some { ch := 1, dest := .die 1, next := 9, expect := 5, opened := true }) ∧
    (let p := { pkt1 5 .source with deps := [10] }; let s : State := { paired p onWarp with packets := [p, { pkt1 4 .flying with id := 10, ch := 2 }] }; sourceHeld s p = true) ∧
    (let p := { pkt1 5 .flying with rel := true, deps := [10] }; let q := { pkt1 4 .flying with id := 10, dest := .die 2 }; let s : State := { paired p onWarp with packets := [p, q] }
     planeHeld s p = true ∧ (∃ q ∈ p.waitsFor s, q.samePair p = false) ∧ (s.packets.map Packet.id).Nodup) ∧
    (let p := pkt1 5 .flying; let s := paired p onWarp; s.stale p = false ∧ planeHeld s p = false ∧ p.load = none ∧ s.expected p = some p.seq ∧ s.homeWait p.core p.ctx far = .go ∧ s.poisonedAt far = false ∧
      (p.waitsFor s) = []) ∧
    (let p := pkt1 5 .flying; let s := { paired p onWarp with move := { state := 1, op := 1, size := 65536, dst := 2 ^ 20, blocked := true } }; s.homeWait p.core p.ctx far = .blocked ∧ planeHeld s p = false) ∧
    (let p := pkt1 5 .plane; let s := paired p onWarp; s.stale p = false ∧ planeHeld s p = false ∧ s.expected p = some p.seq ∧ s.homeWait p.core p.ctx far = .go) ∧
    (let p := { pkt1 5 .flying with dest := .fab 2 3 }; let s := paired p onWarp; s.stale p = false ∧ 2 ≠ s.accelId.toNat ∧ p.port = none) ∧
    (let p := { pkt1 5 .flying with dest := .fab 0 3, pay := .write 0x100 [(0x100, 1)] .raw }; let s := paired p onWarp; p.dest = .fab s.accelId.toNat 3 ∧ (ingress (selfRequest s p) s).1.length ≤ 1) ∧
    (let p := pkt1 5 .done; (paired p onWarp).packet? 9 = some p) ∧ (let p := { pkt1 5 .flying with dest := .fab 2 3, port := some 5 }; (paired p onWarp).packet? 9 = some p ∧ 2 ≠ onWarp.accelId.toNat ∧ p.load = none) := by decide +kernel

theorem wit_FabricIngress_more : (let s := exported onWarp; let p : FabPacket := { src := 2, xaddr := 0x400, kind := .write [some 1], tag := none }; p.src ≠ s.accelId.toNat ∧ yes (match fabPerform p s with
      | .ok (_, _) u => u.accelId == s.accelId
      | _ => false)) ∧
    (let s : State := { exported onWarp with move := { state := 1, op := 1, size := 65536, dst := 2 ^ 20, blocked := true } }; let p : FabPacket := { src := 2, xaddr := 0x400, kind := .write [some 1], tag := none }; yes (match fabPerform p s with
      | .wait => true
      | _ => false)) ∧
    (let s := rpaired 3 [] (exported onWarp); let p := req2 (.write [some 1]); reqRead p = false ∧ tagRs (tag2 5 false) = false ∧ (s.rpair? (reqKey p (tag2 5 false))).any (fun q => q.run == tagRun (tag2 5 false) && q.expect == tagSeq (tag2 5 false) && q.held.isEmpty) ∧
      yes (match fabPerform p (s.updRpair (reqKey p (tag2 5 false)) fun q => { q with seen := s.ptime }) with
      | .ok (_, none) u => u.accelId == s.accelId && u.rpairs == (s.updRpair (reqKey p (tag2 5 false)) fun q => { q with seen := s.ptime }).rpairs
      | _ => false)) ∧
    (onWarp.keptOn 0 < 1024) ∧ (let s := rpaired 3 [] onWarp; (s.rpair? key2).any (fun q => q.held.isEmpty) ∧ (after (2 ^ 44) s).ptime ≥ 2 ^ 41) ∧
    (let p := { pkt with dest := .fab 2 0, limit := 10 }; let s := after 100 { onWarp with packets := [p] }; s.packet? 9 = some p ∧ p.sent + 4 * p.limit ≤ s.now ∧ p.st = .flying) ∧
    (let p := { pkt with dest := .fab 2 0, st := .done, load := some 6 }; let s : State := { loading load6 onWarp with packets := [p] }; s.packet? 9 = some p ∧ s.awaited p = true ∧ (loading load6 onWarp).awaited pkt = false) ∧
    (let l := { load6 with limit := 10, parts := [{ part0 with place := .fabric 3 0x100 }] }; let s := after 100 (loading l onWarp); s.packet? 6 = none ∧ (s.loads.find? fun l => l.id == 6) = some l ∧ l.sent + 4 * l.limit ≤ s.now ∧
      l.parts.all fun q => q.waits && q.fabric) := by decide +kernel

/-- The one port that is usable carries every address, whatever the hash. -/
theorem wit_FabricPorts_port : (withPort port5 onWarp).portFor 0 = some 5 := by
  have h : ((withPort port5 onWarp).ports.filter fun p => p.2.usable) = [(5, port5)] := by decide +kernel
  have e : Config.spray 0 % 1 = 0 := by omega
  simp only [State.portFor, h]
  simp [port5, e]

/-- Whether a switch reports the device's ID as taken at a port is an open value; a port comes up where it does not. -/
theorem wit_FabricPorts_up : (let s := withPort { port5 with txUp := false } onWarp; ¬((s.port 5).txUp = true ∧ (s.port 5).rxUp = true) ∧ 5 ∈ s.caps.ports ∧ 4 ≤ litCount (s.port 5).txLit ∧ (s.port 5).kstate = 0) ∧
    (let s := withPort { port5 with ctr := 2 ^ 48 - 2 ^ 40 } onWarp; (s.port 5).kstate = 0 ∧ 2 ^ 48 - 2 ^ 40 ≤ (s.port 5).ctr) ∧ (let s := withPort { port5 with ctr := 2 ^ 48 - 2 ^ 40 - 1 } onWarp; (s.port 5).ctr < 2 ^ 48 - 2 ^ 40) ∧
    (let s := withPort { port5 with restripe := true, replayAt := some 5 } onWarp; (s.port 5).replayAt = some 5 ∧ s.ptime < 5 ∧ 5 ≤ (after 20 s).ptime) := by decide +kernel

theorem wit_HostAccesses_more : (∀ q ∈ onWarp.queued, q.isHost = false) ∧ onWarp.forward = [] ∧ (({ onWarp with queued := [.hostRead 0 8] } : State).queued.any fun q => q.isHost) ∧
    ((List.range 4).all fun i => isFlistad (0x100 + i) && !onWarp.poisonedAt (0x100 + i)) ∧ hubOk (physReady onWarp ((List.range 4).map (0x100 + ·))) ∧
    (SMap.wf rawDesc onWarp.desc = true ∧ isFlistad (5 * 64) = true ∧ hubOk (physReady onWarp [5 * 64])) ∧ SMap.wf (0 : BitVec 256) onWarp.exports = true ∧ onWarp.move.state = 0 ∧
    (let c : BitVec 256 := BitVec.ofNat 256 (1 + 65536 * 2 ^ 128); fld c 63 8 = 0 ∧ fld c 3 0 = 1 ∧ fld c 127 112 = 0 ∧ fld c 255 176 = 0 ∧ pageOk (fld c 7 4) (fld c 111 64) = true ∧ pageOk (fld c 7 4) (fld c 175 128) = true ∧
      fld c 111 64 ≠ fld c 175 128) ∧ 3 < fld (4 : BitVec 256) 3 0 := by decide +kernel

theorem wit_MemoryMoves_more : (let s := moving { state := 1, op := 1, size := 65536, src := 0, dst := 2 ^ 20, blocked := true } onWarp; s.queued = [] ∧ s.rpairs = []) ∧
    (let s := moving { state := 1 } onWarp; s.move.state ≠ 0 ∧ s.phase = 15) ∧ (let s := moving { state := 2, size := 65536, src := 65536 } onWarp; s.move.state ≠ 1 ∧ s.move.src ≠ (0 : BitVec 48).toNat) ∧
    (({ onWarp with busy := [5] } : State).queued = []) := by decide +kernel

theorem wit_GuestSites_more : (let s := { sited site0 onWarp with move := { state := 1, op := 1, size := 65536, dst := 2 ^ 20, blocked := true } }; s.waitsAt 65535 = true ∧ s.watchHit 1 64 (accDirs 1) (s.blk 65535) = none) ∧
    (let s := sited site0 onWarp; s.groupRuns guestCmd.gid = true ∧ fld (gpk 0x8003 (2 ^ 64)) 199 192 = 1 ∧ protocolBad (s.siteNow 0) (gpk 0x8003 (2 ^ 64)) = false ∧ ∀ h ∈ (s.site 0).watched, h.1 ≠ pkCtx (gpk 0x8003)) ∧
    (let s := sited { site0 with duties := [(.preempt 50, 100)] } onWarp; ∀ d ∈ (s.site 0).duties, s.ptime < d.2) ∧
    (let s := sited { st := 3 } onWarp; (s.site 0).locked = false ∧ s.phase = 15) ∧ (let s := after 40000 (sited { st := 4 } onWarp); (s.site 0).st = 4 ∧ (s.site 0).since + 10000 ≤ s.ptime) ∧
    (let s : State := { sited { st := 1 } onWarp with caps := { onWarp.caps with sites := [(0, 7)] } }; (s.site 0).st = 1 ∧ (0, 7) ∈ s.caps.sites ∧ (0, 8) ∉ s.caps.sites) ∧
    (let s := after 400000000 (sited { st := 1 } onWarp); (s.site 0).since + 100000000 ≤ s.ptime) := by decide +kernel

theorem wit_DeviceEvents_more : (onWarp.groups.rising = true ∧ ∀ q ∈ onWarp.groups, q.2.gid = q.1) ∧ ((onWarp.group? 0).any fun g => g.gid == 0) ∧ (∀ h ∈ (onWarp.cluster 0).held, h.blk ≠ 5) ∧
    (let u : Sampler := { addr := 0x200, img := smpImg, ctx := none, part := none, wr := 0, nextAt := 16 }; let s := onCl (fun c => { c with smp := some u }) onWarp; (s.cluster 0).smp = some u ∧ s.cyclesOf 0 < u.nextAt) := by decide +kernel

theorem wit_GroupControl_more : ((onWarp.group? 0).isSome = true) ∧
    (let x := un 0xD7 0 0; let s := sending onWarp; enabledB 0xD7 x s ∧ (active x s).head?.any (fun u => owes s 2 [u])) ∧
    (let x := parkEnc; let s := mgS 4 (2 ^ 32) onMgmt; enabledB 0xE3 x s ∧ s.quiet 0 = true ∧ fld (rdU (viewOf s).warp x.a) 16 0 = 0 ∧ (who s).gid ≠ 0) ∧
    (let x := parkEnc; let s := mgS 4 (2 * 2 ^ 32) onMgmt; enabledB 0xE3 x s ∧ fld (rdU (viewOf s).warp x.a) 41 32 ≠ group.ctx ∧ (s.group? 0).isSome) ∧
    (let s := area (mgS 4 (2 ^ 32) { onMgmt with loads := [load6] }); enabledB 0xE3 parkEnc s ∧ hubOk (roomForFrame s group) ∧ s.quiet 0 = false) := by decide +kernel

theorem wit_SystemCommands_more : (let x := pwrsOf 4 0x200; let s := sending (memAt onWarp 0x200 1 3); enabledB 0xE1 x s ∧ (active x s).head?.any fun u => owes s 2 [u]) ∧
    ((who onWarp).phys = false ∧ fld (0 : BitVec 512) 511 72 = 0 ∧ fld (BitVec.ofNat 512 (2 ^ 8)) 31 8 ≠ 0) := by decide +kernel

theorem wit_ServiceReturn_more : (let x := un 0xE2 0 0; let s := sending onWarp; enabledB 0xE2 x s ∧ (active x s).head?.any (fun u => owes s 2 [u])) ∧
    (let e : BitVec 512 := BitVec.ofNat 512 (0x10001 * 2 ^ 64 * 2 ^ 256); let s := waiting0 onWarp; fld e 319 303 ≠ 0x1FFFF ∧ (s.group? 0).any fun g => g.gid == 0 && g.life == .running) := by decide +kernel

theorem wit_PartitionControl_more : (([.running, .halted] : List PartSt).all fun st => let s := partSt 0 st onMgmt; let s1 := if st == .running then s.updPart 0 (fun k => { k with st := .halted, haltAt := s.ptime }) else s
      !haltBusy (preemptAll (mineOf s1 0) s1) 0) ∧
    (let s := loading load6 onMgmt; let s1 := s.updPart 0 fun k => { k with st := .halted, haltAt := s.ptime }; haltBusy (preemptAll (mineOf s1 0) s1) 0 = true) ∧
    (let s := mgS 4 1 (partSt 1 .halted onMgmt); (s.part 1).st = .halted ∧ (∀ c ∈ s.clustersOf 1, s.dirtyWaits c = false) ∧ s.packets = []) ∧
    (let s : State := { partSt 0 .halted onMgmt with packets := [{ pkt with gid := foreGid 0 }] }; ∃ c ∈ s.clustersOf 0, ∃ k ∈ s.packets, k.gid = foreGid c) := by decide +kernel

/-! ## Single steps, their results worked out by hand from the rules -/

/-- What a step leaves: register `n` and FPFLAGS of thread `t`, uniform register `n`, the PC of thread `t`, bytes of memory; none where it stops. -/
def vOut (o : Out) (t n : Nat) : Option Nat := match o with
  | .next s => ((s.group? 0).bind fun g => g.thread? t).map fun u => (u.rdV n).toNat
  | _ => none
def flOut (o : Out) (t : Nat) : Option Nat := match o with
  | .next s => ((s.group? 0).bind fun g => g.thread? t).map fun u => u.fpflags.toNat
  | _ => none
def pOut (o : Out) (t n : Nat) : Option Bool := match o with
  | .next s => ((s.group? 0).bind fun g => g.thread? t).map fun u => u.preds.getLsbD n
  | _ => none
def sOut (o : Out) (n : Nat) : Option Nat := match o with
  | .next s => ((s.group? 0).bind fun g => g.warp? 0).map fun w => (w.rdS n).toNat
  | _ => none
def pcOut (o : Out) (t : Nat) : Option Nat := match o with
  | .next s => ((s.group? 0).bind fun g => g.thread? t).map fun u => u.pc.toNat
  | _ => none
def memOut (o : Out) (a n : Nat) : Option (List Nat) := match o with
  | .next s => some ((s.rdBytes a n).map BitVec.toNat)
  | _ => none
/-- What a fault's record holds while the group stops: code, INFO, PC. -/
def faultOut (o : Out) : Option (Nat × Nat × Nat) := match o with
  | .next s => (s.group? 0).bind fun g => match g.life with
    | .stopping f _ => some (f.code.toNat, f.info.toNat, f.pc.toNat)
    | _ => none
  | _ => none

/-- v4 and v8 of both threads. -/
def ab (a b : Word32) : State := withV (withV onWarp 4 a) 8 b

/-- R246: −2^31 − 1 wraps, and saturates under `.sat` (MOD[7:5] 110). -/
theorem test_isub_wraps : vOut (exec (.isub (bs 0x11)) (ab 0x80000000 1)) 0 2 = some 0x7FFFFFFF ∧ vOut (exec (.isub (ex 0x11 0 0xC0)) (ab 0x80000000 1)) 1 2 = some 0x80000000 := by decide +kernel
/-- R246: −2^31 × 2 = −2^32, whose upper half is −1 signed and 1 unsigned (2^31 × 2). -/
theorem test_imulh_signs : vOut (exec (.imulh (bs 0x13)) (ab 0x80000000 2)) 0 2 = some 0xFFFFFFFF ∧ vOut (exec (.imulh (ex 0x13 0 1)) (ab 0x80000000 2)) 0 2 = some 1 := by decide +kernel
/-- R247: −7 / 2 = −3, remainder −1; by zero all ones and a. -/
theorem test_idiv_rounds_to_zero : vOut (exec (.idiv (bs 0x16)) (ab 0xFFFFFFF9 2)) 0 2 = some 0xFFFFFFFD ∧ vOut (exec (.idiv (bs 0x16)) (ab 7 0)) 0 2 = some 0xFFFFFFFF := by decide +kernel
theorem test_irem_sign_of_a : vOut (exec (.irem (bs 0x17)) (ab 0xFFFFFFF9 2)) 0 2 = some 0xFFFFFFFF ∧ vOut (exec (.irem (bs 0x17)) (ab 7 0)) 0 2 = some 7 := by decide +kernel
/-- R246: |−2^31| is itself without `.sat`. -/
theorem test_iabs_least : vOut (exec (.iabs (bs 0x19)) (ab 0x80000000 0)) 0 2 = some 0x80000000 := by decide +kernel
/-- R248: a + b + 1 with `pt`, the carry in predicate E. -/
theorem test_iaddc_carry : let x := { ex 0x1D 0 1 with c := 15, e := 3 }; vOut (exec (.iaddc x) (ab 0xFFFFFFFF 0)) 0 2 = some 0 ∧ pOut (exec (.iaddc x) (ab 0xFFFFFFFF 0)) 0 3 = some true := by decide +kernel
/-- R248: −1 is less than 1 signed, not unsigned. -/
theorem test_icmp_signs : pOut (exec (.icmp { ex 0x1C 2 0 with d := 3 }) (ab 0xFFFFFFFF 1)) 0 3 = some true ∧ pOut (exec (.icmp { ex 0x1C 2 1 with d := 3 }) (ab 0xFFFFFFFF 1)) 0 3 = some false := by decide +kernel
/-- R250: counts of the width and above; only the low 8 bits count. -/
theorem test_shifts_by_width : vOut (exec (.shl (bs 0x25)) (ab 1 32)) 0 2 = some 0 ∧ vOut (exec (.shl (bs 0x25)) (ab 1 0x11F)) 0 2 = some 0x80000000 := by decide +kernel
theorem test_sar_fills : vOut (exec (.sar (bs 0x27)) (ab 0x80000000 255)) 0 2 = some 0xFFFFFFFF := by decide +kernel
theorem test_rot_wraps : vOut (exec (.rot (bs 0x28)) (ab 0x80000001 33)) 0 2 = some 3 := by decide +kernel
theorem test_clz_of_zero : vOut (exec (.clz (bs 0x2C)) (ab 0 0)) 0 2 = some 32 ∧ vOut (exec (.ctz (bs 0x2D)) (ab 8 0)) 0 2 = some 3 := by decide +kernel
/-- R251: bits 7 to 4 of 0xF3, as a number and signed. -/
theorem test_bfx_signed : let s := withV (ab 0xF3 4) 12 4; vOut (exec (.bfx { ex 0x29 0 15 with c := 12 }) s) 0 2 = some 15 ∧ vOut (exec (.bfx { ex 0x29 1 15 with c := 12 }) s) 0 2 = some 0xFFFFFFFF := by decide +kernel
theorem test_bfi_replaces : let s := withV (withV (ab 5 0xFFFFFFFF) 12 4) 16 4; vOut (exec (.bfi { ex 0x2A 0 15 with c := 12, e := 16 }) s) 0 2 = some 0xFFFFFF5F := by decide +kernel

/-- R253: 1 + 2^−24 is a tie and rounds to even, which is inexact. -/
theorem test_fadd_ties_to_even : vOut (exec (.fadd (bs 0x30)) (ab 0x3F800000 0x33800000)) 0 2 = some 0x3F800000 ∧ flOut (exec (.fadd (bs 0x30)) (ab 0x3F800000 0x33800000)) 0 = some 1 := by decide +kernel
/-- R94, R95: ∞ − ∞ is the default NaN and sets invalid. -/
theorem test_fsub_infinities : vOut (exec (.fsub (bs 0x31)) (ab 0x7F800000 0x7F800000)) 0 2 = some 0x7FC00000 ∧ flOut (exec (.fsub (bs 0x31)) (ab 0x7F800000 0x7F800000)) 1 = some 16 := by decide +kernel
/-- The least subnormal times 1/2 is a tie that rounds to 0: underflow and inexact. -/
theorem test_fmul_underflow : vOut (exec (.fmul (bs 0x32)) (ab 1 0x3F000000)) 0 2 = some 0 ∧ flOut (exec (.fmul (bs 0x32)) (ab 1 0x3F000000)) 0 = some 3 := by decide +kernel
/-- 1/0 is infinite and sets divide by zero; 1/3 to nearest. -/
theorem test_fdiv_by_zero : vOut (exec (.fdiv (bs 0x3B)) (ab 0x3F800000 0x80000000)) 0 2 = some 0xFF800000 ∧ flOut (exec (.fdiv (bs 0x3B)) (ab 0x3F800000 0x80000000)) 0 = some 8 := by decide +kernel
theorem test_fdiv_third : vOut (exec (.fdiv (bs 0x3B)) (ab 0x3F800000 0x40400000)) 0 2 = some 0x3EAAAAAB := by decide +kernel
/-- √2 to nearest; the root of −1 is invalid. -/
theorem test_fsqrt : vOut (exec (.fsqrt (bs 0x3C)) (ab 0x40000000 0)) 0 2 = some 0x3FB504F3 ∧ vOut (exec (.fsqrt (bs 0x3C)) (ab 0xBF800000 0)) 0 2 = some 0x7FC00000 := by decide +kernel
/-- R95: the first NaN in order A, B, its quiet bit set. -/
theorem test_fadd_first_nan : vOut (exec (.fadd (bs 0x30)) (ab 0x7F800001 0x7FC00005)) 0 2 = some 0x7FC00001 ∧ flOut (exec (.fadd (bs 0x30)) (ab 0x7F800001 0x7FC00005)) 0 = some 16 := by decide +kernel
/-- R257: the exact cases of the special functions. -/
theorem test_fexp2_exact : vOut (exec (.fexp2 (bs 0x3F)) (ab 0x40400000 0)) 0 2 = some 0x41000000 ∧ flOut (exec (.fexp2 (bs 0x3F)) (ab 0x40400000 0)) 0 = some 0 := by decide +kernel
theorem test_frcp_of_zero : vOut (exec (.frcp (bs 0x3D)) (ab 0x80000000 0)) 0 2 = some 0xFF800000 ∧ flOut (exec (.frcp (bs 0x3D)) (ab 0x80000000 0)) 0 = some 8 := by decide +kernel
/-- R97, R260: −1.5 as S32 to nearest even is −2; 3e9 as S32 is the end of the range, invalid. -/
theorem test_cvt_to_integer : vOut (exec (.cvt (ex 0x50 8 0)) (ab 0xBFC00000 0)) 0 2 = some 0xFFFFFFFE ∧ vOut (exec (.cvt (ex 0x50 8 0)) (ab 0x4F32D05E 0)) 0 2 = some 0x7FFFFFFF ∧
    flOut (exec (.cvt (ex 0x50 8 0)) (ab 0x4F32D05E 0)) 0 = some 16 := by decide +kernel
/-- R98, R99: the elements of the worked block to N4 E2M1: the scale, the codes. -/
theorem test_quant_block : let d (n : Int) (k : Nat) : FV := .num (n < 0) n.natAbs (-(k : Int))
    let r := quantBlock 8 1 .rne false false ([d 11 0, d 0x299999A 24, d (-3) 2, d 1 0, d 5 0, d (-12) 0] ++ List.replicate 122 (d 0 0))
    r.1 = 0x41 ∧ (r.2.map (·.1)).take 7 = [7, 3, 9, 1, 4, 15, 0] := by decide +kernel

/-- Four threads in slots 0 to 3 whose v4 is given. -/
def four (l : List Word32) : State :=
  { onWarp.updGroup 0 (fun g => { g with threads := (List.range 4).map fun i => (thread i).wrV 4 (l.getD i 0) }) with cur := { onWarp.cur with path := [0, 1, 2, 3] } }
def tree : List Word32 := [0x4B800000, 0x3F800000, 0x3F800000, 0xCB800000]

/-- R266: the worked sum of 2^24, 1, 1 and −2^24: REDX gives 1, SCANX 2^24, 2^24, 2^24 + 2, 1. -/
theorem test_redx_tree : vOut (exec (.redx (ex 0x5A 0 8)) (four tree)) 0 2 = some 0x3F800000 := by decide +kernel
theorem test_scanx_tree : (List.range 4).map (fun t => vOut (exec (.scanx (ex 0x5B 0 8)) (four tree)) t 2) = [some 0x4B800000, some 0x4B800000, some 0x4B800001, some 0x3F800000] := by decide +kernel
/-- R265: `.up` by 1: slot 0 keeps its own, slot t reads slot t − 1. -/
theorem test_shfl_up : let x := { ex 0x58 1 15 with c := 0 }; let s := withV (four [10, 20, 30, 40]) 8 1; (List.range 4).map (fun t => vOut (exec (.shfl x) s) t 2) = [some 10, some 10, some 20, some 30] := by decide +kernel
/-- R267: the lowest slot that holds the same. -/
theorem test_match_first : (List.range 4).map (fun t => vOut (exec (.matchI (ex 0x5E 1 15)) (four [7, 9, 7, 9])) t 2) = [some 0, some 1, some 0, some 1] := by decide +kernel
/-- R268: `.andn` is pa AND NOT pb. -/
theorem test_pset_plop : pOut (exec (.pset { bs 0x60 with d := 3 }) (ab 5 0)) 0 3 = some true ∧ pOut (exec (.pset { bs 0x60 with d := 3 }) (ab 0 0)) 0 3 = some false := by decide +kernel

/-- R100, R101: 2^25, 1, 1 and −2^25 in one k-group give 2; each in a group of its own, +0. -/
theorem test_matrix_groups : let e (n : Bool) (k : Nat) : MElem := ⟨.num n 1 k, false⟩
    cellGroup 0 [e false 12, e false 0, e false 0, e true 12] [e false 13, e false 0, e false 0, e false 13] = 0x40000000 ∧
    ([(e false 12, e false 13), (e false 0, e false 0), (e false 0, e false 0), (e true 12, e false 13)].foldl (fun a p => cellGroup a [p.1] [p.2]) 0) = 0 := by decide +kernel
/-- R96: a NaN element outranks 0 × ∞. -/
theorem test_matrix_causes : let z : MElem := ⟨.num false 0 0, false⟩; let i : MElem := ⟨.inf false, false⟩; let n : MElem := ⟨.nan false true 0 2, false⟩
    cellGroup 0 [z, n] [i, z] = 0x7FC00001 ∧ cellGroup 0 [z] [i] = 0x7FC00004 := by decide +kernel

/-- R271, R77: a store is little-endian; R45: what is written to s0 is lost. -/
theorem test_st_little_endian : memOut (exec (.st { un 0x74 0 15 0 with d := 2 }) (withS (withV onWarp 2 0x11223344) 8 0)) 0x100 4 = some [0x44, 0x33, 0x22, 0x11] := by decide +kernel
theorem test_mov_to_s0 : sOut (exec (.mov { un 0x2F 0 15 with d := 0xC0 }) onWarp) 0 = some 0 ∧ sOut (exec (.mov { un 0x2F 0 16 with d := 0xC2 }) onWarp) 2 = some 512 := by decide +kernel
/-- R88: a load of 16 bits is written with zeros above, signed or not. -/
theorem test_ld_narrow : let s := withS (memAt onWarp 0x100 4 0xFFFF8001) 8 0; vOut (exec (.ld { un 0x70 0 4 0 with d := 2 }) s) 0 2 = some 0x8001 ∧ sOut (exec (.ld (un 0x70 0 1 0)) s) 2 = some 0xFFFF8001 := by decide +kernel
/-- R280, R281: each thread gets what the slots below it left; `.inclim` stays at its limit. -/
theorem test_atoms_in_slot_order : let x := { ex 0x79 0 1 0 with a := 0xC4, b := 0xC8, d := 2, c := 12 }; let s := withV (withS onWarp 8 0) 12 3
    vOut (exec (.atoms x) s) 0 2 = some 0 ∧ vOut (exec (.atoms x) s) 1 2 = some 3 ∧ vOut (exec (.atoms { x with sub := 8, c := 13 }) (withV s 13 1)) 1 2 = some 1 := by decide +kernel
/-- R280: `.add` on memory; the bytes are there once it is performed. -/
theorem test_atom_performs : memOut (exec (.atom { ex 0x78 0 1 0 with a := 0xC4, b := 0xC8, d := 2, c := 12 }) (withV (withS (memAt onWarp 0x100 4 0xFFFFFFFF) 8 0) 12 1)) 0x100 4 = some [1, 0, 0, 0] := by decide +kernel
/-- R282: `.tset` of bit 33 mod 32 answers the old bit. -/
theorem test_atomp_tset : let x := { ex 0x7A 0 15 0 with a := 0xC4, b := 0xC8, d := 3, c := 12 }; let s := withV (withS onWarp 8 0) 12 33
    pOut (exec (.atomp x) s) 0 3 = some false ∧ pOut (exec (.atomp x) s) 1 3 = some true := by decide +kernel

/-- R213, R235: BRA by −1 word; CALL by 3 words leaves the address of the instruction after its three words. -/
theorem test_bra_back : pcOut (exec (.bra { ex 0x01 0 0 0 with d := 0, a := 0, b := 0xFF, c := 0xFF, e := 0xFF }) onWarp) 0 = some 0xFFC := by decide +kernel
theorem test_call_links : let o := exec (.call { ex 0x03 0 0 0 with d := 0, a := 0, b := 0, c := 0, e := 3 }) onWarp; pcOut o 1 = some 0x100C ∧ vOut o 1 0 = some 0x100C ∧ vOut o 1 1 = some 0 := by decide +kernel
/-- R236: a target that is no multiple of 4 raises ALIGN at the BRX. -/
theorem test_brx_misaligned : (faultOut (exec (.brx (un 0x02 0 0 0)) (withS onWarp 4 0x402))).map (·.2.2) = some 0x1000 ∧ pcOut (exec (.brx (un 0x02 0 0 0)) (withS onWarp 4 0x400)) 0 = some 0x400 := by decide +kernel
/-- R240: the record names TRAP and its PC, the immediate is in it; the threads stand behind. -/
theorem test_trap_parks : faultOut (exec (.trap (bs 0x08 77)) onWarp) = some (cTrap.toNat, 77, 0x1000) ∧ pcOut (exec (.trap (bs 0x08 77)) onWarp) 0 = some 0x1004 := by decide +kernel
/-- R216, R47: a read of an index that is not there raises ILL and writes nothing. -/
theorem test_sread_unlisted : (faultOut (exec (.sread { ex 0x0C 0 0 0 with d := 2, a := 0x16 }) onWarp)).map (·.1) = some cIll.toNat ∧ vOut (exec (.sread { ex 0x0C 0 0 0 with d := 2, a := 0x16 }) onWarp) 0 2 = some 32 := by decide +kernel
/-- R242: a thread whose slot its mask leaves out raises ILL. -/
theorem test_wsync_outside : (faultOut (exec (.wsync (lit (ex 0x0B 0 0 0) 1)) onWarp)).map (·.1) = some cIll.toNat := by decide +kernel

/-- R231: where the guard is false nothing is written, and the PC goes on (R208). -/
theorem test_guard_false : vOut (exec (.iadd (off (ex 0x10 0 0))) (ab 1 1)) 0 2 = some 32 ∧ pcOut (exec (.iadd (off (ex 0x10 0 0))) (ab 1 1)) 0 = some 0x100C := by decide +kernel
/-- R202: a base form is one word. -/
theorem test_base_form_is_one_word : pcOut (exec (.iadd (bs 0x10)) (ab 1 1)) 0 = some 0x1004 := by decide +kernel

end Sys2Proof.Tests
end

-- ==== Sys2Proof/Proofs/CanonicalReset.lean ====
/-!
The canonical form of memory, of the descriptors and of the execute tags (R4, R410) at reset.
-/
section
namespace Sys2Proof
open Machine

/-- Settles O5: the three maps are empty at reset. -/
theorem resetInvariant : Obligations.ResetInvariant := by
  unfold Obligations.ResetInvariant
  exact Canonical.reset

end Sys2Proof
end

-- ==== Sys2Proof/Proofs/CanonicalKeeps.lean ====
/-!
# What it means that a function keeps a property of the state

A function that answers a state keeps a property when that state has it; most functions of the model answer a result that may hold a state.
`R.Keeps P r` says of a result type `R` that the state in `r`, if there is one, satisfies `P`. With it every function of the model has one lemma
`Canonical.f : Canonical s → R.Keeps Canonical (f s)`, and the lemma of a caller is assembled from those of what it calls, down to `step`.
-/
section
namespace Sys2Proof.Machine
open Sys2Proof

/-- Of a machine's outcome: its next state satisfies `P`. -/
def Out.Keeps (P : State → Prop) : Out → Prop
  | .next t => P t
  | _ => True

/-- Of a hub access. -/
def HubRes.Keeps {α : Type} (P : State → Prop) : HubRes α → Prop
  | .ok _ t => P t
  | _ => True

/-- Of a management command: also where it recalls a claim or waits. -/
def CmdRes.Keeps (P : State → Prop) : CmdRes → Prop
  | .ok _ _ t => P t
  | .recall _ t => P t
  | .wait t => P t

/-- Of a load of one sector. -/
def LoadRes.Keeps (P : State → Prop) : LoadRes → Prop
  | .sec _ t => P t
  | _ => True

/-- Of an engine's reads. -/
def RdRes.Keeps (P : State → Prop) : RdRes → Prop
  | .ok _ t => P t
  | _ => True

/-- Of one atomic: performed, or sent as a packet. -/
def RmwRes.Keeps (P : State → Prop) : RmwRes → Prop
  | .done _ _ t => P t
  | .sent t => P t
  | _ => True

/-- Of the atomics of a warp. -/
def RmwAll.Keeps (P : State → Prop) : RmwAll → Prop
  | .ok _ t => P t
  | _ => True

/-- Of the conditional stores of a warp. -/
def ScAll.Keeps (P : State → Prop) : ScAll → Prop
  | .ok _ t => P t
  | _ => True

/-- Of a write of a system register. -/
def SetRes.Keeps (P : State → Prop) : SetRes → Prop
  | .ok _ t => P t
  | _ => True

/-- Of an instruction fetch. -/
def FetchRes.Keeps (P : State → Prop) : FetchRes → Prop
  | .ok _ t => P t
  | _ => True

/-- Of a join. -/
def JoinRes.Keeps (P : State → Prop) : JoinRes → Prop
  | .done t => P t
  | _ => True

/-- Of a packet at its home: answered, or waiting there. -/
def Arrived.Keeps (P : State → Prop) : Arrived → Prop
  | .answered _ t => P t
  | .waits t => P t

/-- Of an access that stays on the device. -/
def LocalRes.Keeps (P : State → Prop) : LocalRes → Prop
  | .ok _ t => P t
  | _ => True

/-- Of an assay copy. -/
def AssayCopy.Keeps (P : State → Prop) : AssayCopy → Prop
  | .ok t => P t
  | _ => True

/-- Of the lookup of a pure task's result. -/
def PureRes.Keeps (P : State → Prop) : PureRes → Prop
  | .hit t => P t
  | _ => True

/-- Of what is done with a park frame. -/
def FrameAct.Keeps (P : State → Prop) : FrameAct → Prop
  | .ok t => P t
  | _ => True

/-- Of a packet that leaves. -/
def Leaving.Keeps (P : State → Prop) (r : Leaving) : Prop := P r.state

/-- Of a function that may leave the state alone. -/
def OptKeeps (P : State → Prop) : Option State → Prop
  | some t => P t
  | none => True

/-- Of an engine's read of a sector. -/
def SecKeeps (P : State → Prop) : Except BlkStop (Sec × State) → Prop
  | .ok r => P r.2
  | .error _ => True

/-- Of an engine's read of its source blocks. -/
def SrcKeeps (P : State → Prop) : Except BlkStop (List SrcBlk × State) → Prop
  | .ok r => P r.2
  | .error _ => True

/-- Of a list of events: each keeps the canonical form of the state it meets. -/
def EventsKeep (l : List (State → Out)) : Prop := ∀ e ∈ l, ∀ s, Canonical s → Out.Keeps Canonical (e s)

/-- Of an event that may be absent. -/
def OptEventKeeps : Option (State → Out) → Prop
  | some e => ∀ s, Canonical s → Out.Keeps Canonical (e s)
  | none => True

end Sys2Proof.Machine

namespace Sys2Proof
open Machine

/-! ### Through a conditional, a fold and a pair

The lemmas about a result `a` speak of `P a` with `P` one of the predicates above. -/

theorem keeps_of_eq {α : Type} {P : α → Prop} {a b : α} (k : P a) (e : a = b) : P b := e ▸ k

theorem keeps_ite {α : Type} {P : α → Prop} {c : Prop} {_ : Decidable c} {a b : α} (ha : P a) (hb : P b) : P (if c then a else b) := by
  split
  · exact ha
  · exact hb

theorem keeps_foldl {α β : Type} {P : α → Prop} {f : α → β → α} {l : List β} {a : α} (h : P a) (hf : ∀ a b, P a → P (f a b)) : P (l.foldl f a) := by
  induction l generalizing a with
  | nil => exact h
  | cons b l ih => exact ih (hf a b h)

theorem keeps_ite_snd {α : Type} {P : State → Prop} {c : Prop} {_ : Decidable c} {a b : α × State} (ha : P a.2) (hb : P b.2) :
    P (if c then a else b).2 := by
  split
  · exact ha
  · exact hb

theorem keeps_foldl_snd {α β : Type} {P : State → Prop} {f : α × State → β → α × State} {l : List β} {a : α × State} (h : P a.2)
    (hf : ∀ (a : α × State) (b : β), P a.2 → P (f a b).2) : P (l.foldl f a).2 :=
  keeps_foldl (P := fun a : α × State => P a.2) h hf

theorem Canonical.snd {α : Type} {p : α × State} {a : α} {t : State} (k : Canonical p.2) (e : p = (a, t)) : Canonical t := by
  subst e
  exact k

theorem Canonical.fst {α : Type} {p : State × α} {a : α} {t : State} (k : Canonical p.1) (e : p = (t, a)) : Canonical t := by
  subst e
  exact k

/-! ### Lists of events and states that may be absent -/

theorem Machine.EventsKeep.append {l m : List (State → Out)} (hl : EventsKeep l) (hm : EventsKeep m) : EventsKeep (l ++ m) := by
  intro e he
  rcases List.mem_append.mp he with he | he
  · exact hl e he
  · exact hm e he

theorem Machine.EventsKeep.one {e : State → Out} (k : ∀ s, Canonical s → (e s).Keeps Canonical) : EventsKeep [e] := by
  intro f hf
  obtain rfl := List.mem_singleton.mp hf
  exact k

theorem Machine.EventsKeep.cons {e : State → Out} {l : List (State → Out)} (k : ∀ s, Canonical s → (e s).Keeps Canonical) (hl : EventsKeep l) :
    EventsKeep (e :: l) :=
  .append (.one k) hl

theorem Machine.EventsKeep.map {α : Type} {f : α → State → Out} {l : List α} (k : ∀ a s, Canonical s → (f a s).Keeps Canonical) : EventsKeep (l.map f) := by
  intro e he
  obtain ⟨a, -, rfl⟩ := List.mem_map.mp he
  exact k a

theorem Machine.EventsKeep.flatMap {α : Type} {f : α → List (State → Out)} {l : List α} (k : ∀ a, EventsKeep (f a)) : EventsKeep (l.flatMap f) := by
  intro e he
  obtain ⟨a, -, he⟩ := List.mem_flatMap.mp he
  exact k a e he

theorem Machine.EventsKeep.filterMap {α : Type} {f : α → Option (State → Out)} {l : List α} (k : ∀ a, OptEventKeeps (f a)) :
    EventsKeep (l.filterMap f) := by
  intro e he
  obtain ⟨a, -, he⟩ := List.mem_filterMap.mp he
  exact keeps_of_eq (k a) he

theorem Machine.OptKeeps.map {α : Type} {P : State → Prop} {o : Option α} {f : α → State} (h : ∀ a, P (f a)) : OptKeeps P (o.map f) := by
  cases o with
  | none => trivial
  | some a => exact h a

theorem Machine.OptKeeps.bind {α : Type} {P : State → Prop} {o : Option α} {f : α → Option State} (h : ∀ a, OptKeeps P (f a)) : OptKeeps P (o.bind f) := by
  cases o with
  | none => trivial
  | some a => exact h a

theorem Machine.OptKeeps.findSome? {α : Type} {P : State → Prop} {l : List α} {f : α → Option State} (h : ∀ a ∈ l, OptKeeps P (f a)) : OptKeeps P (l.findSome? f) := by
  cases e : l.findSome? f with
  | none => trivial
  | some t =>
    obtain ⟨a, ha, e⟩ := List.exists_of_findSome?_eq_some e
    exact keeps_of_eq (h a ha) e

theorem Canonical.state {r : Leaving} (h : r.Keeps Canonical) : Canonical r.state := h

/-! ### The execute tags -/

theorem Canonical.setTags {s : State} (h : Canonical s) {m : SMap Nat} (hm : m.rising = true) : Canonical { s with tags := m } := ⟨h.1, h.2.1, hm⟩

theorem Canonical.eraseTags {s : State} (h : Canonical s) {l : List Nat} : Canonical { s with tags := l.foldl SMap.erase s.tags } :=
  h.setTags (keeps_foldl (P := fun m => SMap.rising m = true) h.2.2 fun _ _ => SMap.rising_erase _)

theorem Canonical.insertTags {s : State} (h : Canonical s) (l : List Nat) (ctx : Nat) :
    Canonical { s with tags := l.foldl (fun m c => m.insert c ctx) s.tags } :=
  h.setTags (keeps_foldl (P := fun m => SMap.rising m = true) h.2.2 fun _ _ => SMap.rising_insert _ _)

end Sys2Proof
end

-- ==== Sys2Proof/Proofs/CanonicalState.lean ====
/-!
# What moves bytes, descriptors, clocks and claims keeps the canonical form

One lemma per function of the model, in the model's order.
-/
section
namespace Sys2Proof
open Machine

/-! ### Machine/Ops -/

theorem Canonical.pass {s : State} {die n : Nat} (h : Canonical s) : Canonical (s.pass die n) := h

theorem Canonical.mapThreads {s : State} {g : Nat} {f : Thread → Thread} (h : Canonical s) : Canonical (s.mapThreads g f) := h

theorem Canonical.updPart {s : State} {p : Nat} {f : Machine.Part → Machine.Part} (h : Canonical s) : Canonical (s.updPart p f) := h

theorem Canonical.updCtx {s : State} {c : Nat} {f : Ctx → Ctx} (h : Canonical s) : Canonical (s.updCtx c f) := h

theorem Canonical.updCore {s : State} {core : Nat} {f : Core → Core} (h : Canonical s) : Canonical (s.updCore core f) := h

theorem Canonical.fresh {s : State} (h : Canonical s) : Canonical s.fresh.2 := h

theorem Canonical.draw {s : State} (h : Canonical s) : Canonical s.draw.2 := h

theorem Canonical.raiseMsi {s : State} {v : Nat} (h : Canonical s) : Canonical (s.raiseMsi v) := h

theorem Canonical.note {s : State} {code core n : Nat} {owner : Option Nat} (h : Canonical s) : Canonical (s.note code core n owner) :=
  keeps_ite h h

theorem Canonical.putView {s : State} {v : View} (h : Canonical s) : Canonical (putView s v) := by
  unfold Machine.putView
  split
  · exact h
  · exact h
  · exact h
  · exact h

theorem Canonical.noteL1 {s : State} {code core n : Nat} (h : Canonical s) : Canonical (s.noteL1 code core n) :=
  .note h

theorem Canonical.groupFault {g : Nat} {f : FaultRec} {s : State} (h : Canonical s) : Canonical (groupFault g f s) := h

theorem Canonical.takeFaultAt {tid slot : Nat} {f : Flt} {s : State} (h : Canonical s) : Canonical (takeFaultAt tid slot f s) := by
  unfold Machine.takeFaultAt
  extract_lets +onlyGivenNames r t
  extract_lets +onlyGivenNames s1
  have h1 : Canonical s1 := by
    unfold s1
    split
    · exact h
    · exact h
    · exact h
    · exact h
  exact h1

theorem Canonical.takeFault {f : Flt} {s : State} (h : Canonical s) : Canonical (takeFault f s) := by
  unfold Machine.takeFault
  split
  · split
    · exact .takeFaultAt h
    · exact .takeFaultAt h
  · exact .takeFaultAt h

theorem Canonical.resumeGroup {g : Nat} {sup : List (Nat × Nat × Nat)} {s : State} (h : Canonical s) : Canonical (resumeGroup g sup s) := h

theorem Canonical.moveLane {s : State} (h : Canonical s) : Canonical (moveLane s) := by
  unfold Machine.moveLane
  split
  · split
    · exact h
    · exact h
  · exact h

theorem Canonical.stall {s : State} (h : Canonical s) : Canonical (stall s) := by
  unfold Machine.stall
  extract_lets +onlyGivenNames s1
  have h1 : Canonical s1 := by
    unfold s1
    split
    · exact h
    · exact h
  exact h1

theorem Canonical.underWay {s t : State} (h : Canonical t) : Canonical (underWay s t) := by
  unfold Machine.underWay
  split
  · split
    · exact h
    · exact h
    · exact h
  · exact h

theorem Canonical.noteIssue {cost : Nat} {s : State} (h : Canonical s) : Canonical (noteIssue cost s) :=
  keeps_ite (.note (.note h)) h

theorem Canonical.rewatch {s : State} {gid : Nat} (h : Canonical s) : Canonical (s.rewatch gid) := h

theorem Canonical.shrinkLooks {s : State} {gid wid : Nat} (h : Canonical s) : Canonical (s.shrinkLooks gid wid) := h

theorem Canonical.endIssue {cost : Nat} {s : State} (h : Canonical s) : Canonical (endIssue cost s) := by
  unfold Machine.endIssue
  extract_lets +onlyGivenNames s1
  have h1 : Canonical s1 := .shrinkLooks (.rewatch (.pass (.moveLane (.noteIssue h))))
  exact h1

theorem Canonical.noteForced {v : View} {s : State} (h : Canonical s) : Canonical (noteForced v s) :=
  keeps_ite (.noteL1 h) h

theorem Canonical.watchAgain {s : State} {gid pc : Nat} {tids : List Nat} (h : Canonical s) : Canonical (s.watchAgain gid pc tids) := h

theorem Canonical.retire {x : Enc} {cost : Nat} {s : State} (h : Canonical s) : Canonical (retire x cost s) := by
  unfold Machine.retire
  split
  · exact h
  · exact .endIssue (.watchAgain (.putView (.noteForced h)))

theorem Canonical.issue {op : BitVec 8} {x : Enc} {s : State} {body : View → State} (h : Canonical s) (hbody : ∀ (a : View), Canonical (body a)) :
    (issue op x s body).Keeps Canonical := by
  unfold Machine.issue
  split
  · trivial
  · exact keeps_ite (Canonical.takeFault h) (keeps_ite (Canonical.stall h) (hbody _))

/-! ### Machine/Operands -/

theorem Canonical.finish {x : Enc} {cost : Nat} {s : State} {v : View} (h : Canonical s) : Canonical (finish x cost s v) :=
  .retire (.putView h)

theorem Canonical.mapPath {s : State} {f : Thread → Thread} (h : Canonical s) : Canonical (mapPath s f) := by
  unfold Machine.mapPath
  split
  · exact .putView h
  · exact h

theorem Canonical.mapWarp {s : State} {f : Warp → Warp} (h : Canonical s) : Canonical (mapWarp s f) := by
  unfold Machine.mapWarp
  split
  · exact .putView h
  · exact h

theorem Canonical.compute {op : BitVec 8} {x : Enc} {s : State} {bits : Nat} {f : Warp → Thread → Nat × Flags} (h : Canonical s) :
    (compute op x s bits f).Keeps Canonical :=
  Canonical.issue h (fun _ => .finish h)

theorem Canonical.computeP {op : BitVec 8} {x : Enc} {s : State} {f : Warp → Thread → Bool × Flags} (h : Canonical s) : (computeP op x s f).Keeps Canonical :=
  Canonical.issue h (fun _ => .finish h)

theorem Canonical.issueS {op : BitVec 8} {x : Enc} {s : State} {body : View → State} (h : Canonical s) (hbody : ∀ (a : View), Canonical (body a)) :
    (issueS op x s body).Keeps Canonical :=
  Canonical.issue h (fun _ => keeps_ite (.finish h) (hbody _))

/-! ### Machine/Claims -/

theorem Canonical.issueVer {s : State} {t : BitVec 24} (h : Canonical s) : Canonical (s.issueVer t).2 := h

theorem Canonical.updFrag {s : State} {id : Nat} {f : Frag → Frag} (h : Canonical s) : Canonical (s.updFrag id f) := h

theorem Canonical.useClaim {s : State} {cl frag ctx : Nat} (h : Canonical s) : Canonical (s.useClaim cl frag ctx) := h

theorem Canonical.l1Drop {s : State} {core ctx pa : Nat} (h : Canonical s) : Canonical (s.l1Drop core ctx pa) :=
  keeps_ite h h

theorem Canonical.l1Fill {s : State} {core pa : Nat} {sec : L1Sec} (h : Canonical s) : Canonical (s.l1Fill core pa sec) := h

theorem Canonical.l1Store {s : State} {core ctx pa : Nat} {cs : List (Nat × Byte)} {d : BitVec 16} {hint : Nat} (h : Canonical s) : Canonical
    (s.l1Store core ctx pa cs d hint) :=
  keeps_ite (.l1Drop h) (keeps_ite h h)

theorem Canonical.l1Inval {s : State} {core ctx : Nat} {p : L1Sec → Bool} (h : Canonical s) : Canonical (s.l1Inval core ctx p) :=
  keeps_foldl h fun _ _ h1 => h1

theorem Canonical.l1Acquire {s : State} {core ctx scope : Nat} (h : Canonical s) : Canonical (s.l1Acquire core ctx scope) :=
  keeps_ite h (.updCluster (.noteL1 (.l1Inval h)) _ _)

theorem Canonical.writeBack {s : State} {cl : Nat} {blocks : List Nat} (h : Canonical s) : Canonical (s.writeBack cl blocks) :=
  .updCluster (keeps_foldl h fun _ _ h1 => .homePut h1 _ _ _) _ _

theorem Canonical.endHolder {s : State} {fid : Nat} (h : Canonical s) : Canonical (s.endHolder fid) := by
  unfold State.endHolder
  split
  · extract_lets +onlyGivenNames s1
    have h1 : Canonical s1 := by
      unfold s1
      split
      · exact .updCluster (.writeBack h) _ _
      · exact h
      · exact h
    exact h1
  · exact h

theorem Canonical.recallHolder {s : State} {fid : Nat} (h : Canonical s) : Canonical (s.recallHolder fid) := by
  unfold State.recallHolder
  split
  · exact keeps_foldl (.endHolder h) fun s1 _ h1 => .loseResv h1 _
  · exact h

theorem Canonical.askRecall {s : State} {fid : Nat} (h : Canonical s) : Canonical (s.askRecall fid) := h

theorem Canonical.visit {s : State} {fid : Nat} (h : Canonical s) : Canonical (s.visit fid) := by
  unfold State.visit
  split
  · split
    · extract_lets +onlyGivenNames t
      split
      rename_i s1 e1
      have h1 := Canonical.snd h e1
      exact h1
    · exact h
  · exact h

theorem Canonical.visitAt {s : State} {pa : Nat} (h : Canonical s) : Canonical (s.visitAt pa) := by
  unfold State.visitAt
  split
  · exact .visit h
  · exact h

theorem Canonical.visitAll {s : State} (h : Canonical s) : Canonical s.visitAll :=
  keeps_foldl h fun _ _ h1 => .visit h1

theorem Canonical.setClock {s : State} {c : Clock} {t : BitVec 24} (h : Canonical s) : Canonical (s.setClock c t) := by
  unfold State.setClock
  split
  · exact h
  · exact h
  · exact h

theorem Canonical.plainLoad {s : State} {c : Clock} {pa : Nat} (h : Canonical s) : Canonical (s.plainLoad c pa) := by
  unfold State.plainLoad
  extract_lets +onlyGivenNames s1
  have h1 : Canonical s1 := .visitAt h
  split
  · exact .setClock h1
  · exact h1

theorem Canonical.plainStore {s : State} {c : Clock} {pa : Nat} (h : Canonical s) : Canonical (s.plainStore c pa) := by
  unfold State.plainStore
  extract_lets +onlyGivenNames s1
  have h1 : Canonical s1 := .visitAt h
  split
  · extract_lets +onlyGivenNames t
    split
    rename_i s2 e1
    have h2 := Canonical.snd (.issueVer (.setClock h1)) e1
    exact h2
  · exact h1

theorem Canonical.fillAfter {s : State} {core ctx pa hint : Nat} {x : Sec} (h : Canonical s) : Canonical (s.fillAfter core ctx pa hint x) :=
  keeps_ite (keeps_ite h (.l1Drop h)) h

theorem Canonical.grantRead {s : State} {cl ctx : Nat} {f : Frag} {lease : Nat} (h : Canonical s) : Canonical (s.grantRead cl ctx f lease) := h

theorem Canonical.dropSectors {s : State} {cl ctx : Nat} {blocks : List Nat} (h : Canonical s) : Canonical (s.dropSectors cl ctx blocks) := h

theorem Canonical.loadBlock {s : State} {core ctx pa scope hint : Nat} {useL1 : Bool} (h : Canonical s) :
    (s.loadBlock core ctx pa scope hint useL1).Keeps Canonical := by
  unfold State.loadBlock
  extract_lets +onlyGivenNames cl s1 fromHome
  have h1 : Canonical s1 := .visitAt (h.touch _ _)
  have hh : ∀ t, Canonical t → (fromHome t).Keeps Canonical := fun _ ht => keeps_ite (P := Canonical) (.fillAfter ht) ht
  have hn : ∀ t n, Canonical t → Canonical (t.noteL1 0x20 n 1) := fun _ _ ht => .noteL1 ht
  split
  · trivial
  · split
    · exact h
    · split
      · split
        · split
          · exact hn _ _ h1
          · exact hh _ h1
        · exact hh _ h1
      · split
        · split
          · exact hn _ _ h1
          · split
            · trivial
            · exact hh _ (.plainLoad h1)
        · extract_lets +onlyGivenNames s2
          have h2 : Canonical s2 := .useClaim h1
          split
          · exact h2
          · extract_lets +onlyGivenNames hit renew keep s3 renewNew
            have hr : ∀ t, Canonical t → Canonical (renew t) := fun _ ht => .note ht
            have hhit : ∀ t r, Canonical t → r.Keeps Canonical → ((hit t).getD r).Keeps Canonical := by
              intro t r ht hr
              unfold hit
              split
              · cases t.l1Find core ctx pa with
                | none => exact hr
                | some l => exact hn _ _ ht
              · exact hr
            have hk : ∀ t, Canonical t → (keep t).Keeps Canonical := fun t ht => hhit t _ ht (keeps_ite (P := Canonical) (.l1Fill ht) ht)
            have hw : renewNew.Keeps Canonical := by
              unfold renewNew
              split
              · trivial
              · exact hk _ (hr _ (.dropSectors (.grantRead (.setClock h2))))
            split
            · split
              · exact hk _ h2
              · exact hhit _ _ h2 hw
            · split
              · exact hk _ (hr _ (.grantRead h2))
              · exact hw

/-! ### Machine/Translate -/

theorem Canonical.walkAcquire {s : State} {fs : List TlbEntry} (h : Canonical s) : Canonical (s.walkAcquire fs) := by
  unfold State.walkAcquire
  extract_lets +onlyGivenNames reads s1
  have h1 : Canonical s1 := keeps_foldl h fun s2 _ h1 => .visitAt (.touch h1 _ _)
  split
  · exact h1
  · extract_lets +onlyGivenNames cl seen s2
    have h2 : Canonical s2 := keeps_ite (.l1Acquire h1) h1
    clear_value seen
    split
    · exact .setClock h2
    · exact h2

theorem Canonical.tlbFill {s : State} {fs : List TlbEntry} (h : Canonical s) : Canonical (s.tlbFill fs) :=
  keeps_foldl (.walkAcquire h) fun _ _ h1 => h1

/-! ### Machine/Access -/

theorem Canonical.raise {tid slot : Nat} {f : Flt} {s : State} (h : Canonical s) : Canonical (raise tid slot f s) :=
  .takeFaultAt (keeps_ite h h)

theorem Canonical.stallRecall {frag : Nat} {s : State} (h : Canonical s) : Canonical (stallRecall frag s) :=
  .stall h

end Sys2Proof
end

-- ==== Sys2Proof/Proofs/CanonicalAccess.lean ====
/-!
# The instructions that load, store, synchronise and branch keep the canonical form

One lemma per function of the model, in the model's order.
-/
section
namespace Sys2Proof
open Machine

/-! ### Machine/Channel -/

theorem Canonical.storeBlock {s : State} {core ctx place : Nat} {cs : List (Nat × Byte)} {da : DescAct} {pts : Option (BitVec 24)} (h : Canonical s) :
    Canonical (s.storeBlock core ctx place cs da pts) := by
  unfold State.storeBlock
  extract_lets +onlyGivenNames s1
  have h1 : Canonical s1 := keeps_ite (.touch h _ _) h
  split
  · extract_lets +onlyGivenNames s2 s3
    have h2 : Canonical s2 := by
      unfold s2
      split
      · exact h1
      · exact h1
    have h3 : Canonical s3 := .setCarry (.loseResv h2 _) _ _
    exact h3
  · exact .homeWrite (.plainStore h1) _ _ _ _

theorem Canonical.atomAt {s : State} {core ctx pa op : Nat} {ty : Ty} {c e : Nat} {pts : Option (BitVec 24)} (h : Canonical s) : Canonical
    (s.atomAt core ctx pa op ty c e pts).2 :=
  .storeBlock h

theorem Canonical.endResv {s : State} {gid tid : Nat} (h : Canonical s) : Canonical (s.endResv gid tid) := h

theorem Canonical.performPay {s : State} {p : Packet} (h : Canonical s) : Canonical (s.performPay p).2 := by
  unfold State.performPay
  split
  · exact keeps_ite_snd h (.storeBlock h)
  · exact .atomAt h
  · exact keeps_ite_snd (.endResv (.storeBlock h)) h
  · exact h

theorem Canonical.inherit {s : State} {gid : Nat} {tids : List Nat} (h : Canonical s) : Canonical (s.inherit gid tids) := h

theorem Canonical.updAny {s : State} {gid : Nat} {f : Machine.Group → Machine.Group} (h : Canonical s) : Canonical (s.updAny gid f) :=
  keeps_ite h (keeps_ite h h)

theorem Canonical.setPairs {s : State} {gid : Nat} {f : List Pair → List Pair} (h : Canonical s) : Canonical (s.setPairs gid f) :=
  keeps_ite (.updAny h) (keeps_ite h h)

theorem Canonical.setJoins {s : State} {gid : Nat} {f : List (Nat × Nat × List Nat) → List (Nat × Nat × List Nat)} (h : Canonical s) : Canonical
    (s.setJoins gid f) :=
  keeps_ite (.updAny h) (keeps_ite h h)

theorem Canonical.openPair {s : State} {gid ch : Nat} {d : Dest} (h : Canonical s) : Canonical (s.openPair gid ch d) :=
  keeps_ite h (.setPairs h)

theorem Canonical.sendFlit {s : State} {port : Option Nat} (h : Canonical s) : Canonical (s.sendFlit port) := by
  unfold State.sendFlit
  split
  · exact h
  · exact h

theorem Canonical.sendMsg {s : State} {m : FabMsg} (h : Canonical s) : Canonical (s.sendMsg m) :=
  .sendFlit h

theorem Canonical.sendOut {s : State} {d : Dest} {x : Nat} (h : Canonical s) : Canonical (s.sendOut d x).2 := by
  unfold State.sendOut
  split
  · exact keeps_ite_snd h (.sendFlit h)
  · exact h

theorem Canonical.freePair {s : State} {gid ch : Nat} {dest : Dest} (h : Canonical s) : Canonical (s.freePair gid ch dest) := by
  unfold State.freePair
  split
  · exact h
  · split
    · exact h
    · extract_lets +onlyGivenNames s1 rest s2
      have h1 : Canonical s1 := .setPairs h
      have h2 : Canonical s2 := h1
      split
      · exact keeps_ite h2 (.sendMsg h2)
      · exact h2

theorem Canonical.ackPacket {s : State} {id : Nat} (h : Canonical s) : Canonical (s.ackPacket id) := by
  unfold State.ackPacket
  split
  · exact h
  · exact .freePair (.setJoins h)

theorem Canonical.depart {s : State} {id : Nat} (h : Canonical s) : Canonical (s.depart id) := by
  unfold State.depart
  split
  · exact h
  · extract_lets +onlyGivenNames s1 q s2
    have h1 : Canonical s1 := .openPair h
    have h2 : Canonical s2 := .setPairs h1
    split
    rename_i s3 e1
    have h3 := Canonical.snd (.sendOut h2) e1
    exact h3

theorem Canonical.send {s : State} {w : Who} {tid ch : Nat} {d : Dest} {rel : Bool} {scope : BitVec 3} {pay : Pay} {a : Machine.Acc}
    {load cmd : Option Nat} {pts : Option (BitVec 24)} (h : Canonical s) : Canonical (s.send w tid ch d rel scope pay a load cmd pts) := by
  unfold State.send
  split
  rename_i s1 e1
  have h1 := Canonical.snd (.fresh (.openPair h)) e1
  exact keeps_ite h1 (.depart h1)

/-! ### Machine/LoadInstr -/

theorem Canonical.seePast {s : State} {w : Who} {pa : Nat} {x : Sec} (h : Canonical s) : Canonical (s.seePast w pa x).2 := by
  unfold State.seePast
  extract_lets u
  split
  · exact h
  · split
    rename_i n s1 e1
    have h1 := Canonical.snd (Canonical.draw h) e1
    split
    · exact h1
    · exact .updCluster h1 _ _

theorem Canonical.readAll {w : Who} {useL1 : Bool} {scope hint : Nat} {x1 : List (Machine.Acc × Nat)} {x2 : State} (h : Canonical x2) :
    (readAll w useL1 scope hint x1 x2).Keeps Canonical := by
  induction x1 generalizing x2 with
  | nil => exact h
  | cons a as ih =>
    unfold Machine.readAll
    extract_lets +onlyGivenNames r
    have h1 : r.Keeps Canonical := by
      unfold r
      split
      · split
        · trivial
        · exact keeps_ite trivial h
      · exact Canonical.loadBlock h
    clear_value r
    split
    · exact h1
    · exact h1
    · split
      rename_i s1 e1
      have h2 := Canonical.snd (.seePast h1) e1
      split
      · rename_i s2 e2
        have h3 := keeps_of_eq (ih h2) e2
        exact h3
      · exact ih h2

theorem Canonical.joinGroup {s : State} {w : Who} (h : Canonical s) : Canonical (s.joinGroup w) := by
  unfold State.joinGroup
  split
  · exact h
  · exact h

theorem Canonical.acquire {s : State} {w : Who} {scope : Nat} {seen : List (Option (BitVec 24))} (h : Canonical s) : Canonical
    (s.acquire w scope seen) := by
  unfold State.acquire
  split
  · exact h
  · split
    · exact .joinGroup h
    · extract_lets +onlyGivenNames s1
      have h1 : Canonical s1 := .l1Acquire (.joinGroup h)
      split
      · exact .setClock h1
      · exact h1

theorem Canonical.loadDone {x : Enc} {scope : Nat} {kind : LoadKind} {size : Nat} {v : View} {gs : List Got} {s : State} (h : Canonical s) : Canonical
    (loadDone x scope kind size v gs s) :=
  .finish (keeps_ite (.acquire h) h)

theorem Canonical.sendParts {s : State} {kind : LoadKind} {ps : List LoadPart} (h : Canonical s) : Canonical (s.sendParts kind ps).2 := by
  unfold State.sendParts
  refine keeps_foldl_snd h ?_
  intro a1 a2 h1
  split
  · split
    · exact h1
    · split
      rename_i s1 e1
      have h2 := Canonical.snd (.sendOut h1) e1
      exact h2
  · exact h1

theorem Canonical.outstanding {s : State} {w : Who} {v : View} {x : Enc} {kind : LoadKind} {d : BitVec 8} {size : Nat} {noret : Bool}
    {as : List (Machine.Acc × Nat)} (h : Canonical s) : Canonical (s.outstanding w v x kind d size noret as).2 := by
  unfold State.outstanding
  split
  rename_i s1 e1
  have h1 := Canonical.snd h e1
  extract_lets +onlyGivenNames fab look parts
  split
  rename_i s2 e2
  have h2 := Canonical.snd (.sendParts h1) e2
  exact h2

theorem Canonical.globalLoad {op : Nat} {x : Enc} {s : State} {v : View} {kind : LoadKind} {size asize align : Nat} {va : Thread → BitVec 64}
    {idx : Thread → Nat} (h : Canonical s) : Canonical (globalLoad op x s v kind size asize align va idx) := by
  unfold Machine.globalLoad
  extract_lets +onlyGivenNames ths
  split
  · exact .finish h
  · extract_lets +onlyGivenNames w
    split
    · exact .raise h
    · exact .stallRecall h
    · exact .stall h
    · split
      · exact .stall h
      · split
        · exact .raise h
        · extract_lets +onlyGivenNames s1 withIdx
          have h1 : Canonical s1 := .tlbFill h
          split
          · exact .retire (.outstanding h1)
          · split
            · exact .stallRecall h
            · exact .stall h
            · rename_i s2 e1
              have h2 := keeps_of_eq (Canonical.readAll h1) e1
              split
              · exact .raise h
              · exact .loadDone h2

theorem Canonical.scratchLoad {op : Nat} {x : Enc} {s : State} {v : View} {kind : LoadKind} {size asize align : Nat} {idx off : Thread → Nat}
    (h : Canonical s) : Canonical (scratchLoad op x s v kind size asize align idx off) := by
  unfold Machine.scratchLoad
  extract_lets +onlyGivenNames ths
  split
  · exact .finish h
  · split
    · exact .finish h
    · extract_lets +onlyGivenNames rs fails
      split
      · exact .raise h
      · extract_lets +onlyGivenNames gs bad
        clear_value bad
        split
        · exact .raise h
        · split
          · exact .raise h
          · exact .loadDone h

theorem Canonical.execLds {x : Enc} {s : State} (h : Canonical s) : (execLds x s).Keeps Canonical := by
  unfold Machine.execLds
  refine Canonical.issue h ?_
  intro a1
  split
  exact .scratchLoad h

theorem Canonical.constUnit {s : State} {cl : Nat} {g : Machine.Group} {u : Nat} {home : BitVec 128} (h : Canonical s) : Canonical
    (constUnit s cl g u home).2 := by
  unfold Machine.constUnit
  split
  · exact h
  · split
    rename_i s1 e1
    have h1 := Canonical.snd h e1
    extract_lets +onlyGivenNames cached fill
    have h2 : ∀ (s : State), Canonical s → Canonical (fill s) := fun s2 h2 => h2
    split
    · clear_value cached
      split
      · exact h1
      · exact h2 _ h1
    · exact keeps_ite_snd (h2 _ h1) h1

theorem Canonical.constAll {cl : Nat} {g : Machine.Group} {x1 : List (Machine.Acc × Got)} {x2 : State} (h : Canonical x2) : Canonical
    (constAll cl g x1 x2).2 := by
  induction x1 generalizing x2 with
  | nil => exact h
  | cons a as ih =>
    unfold Machine.constAll
    exact ih (.constUnit h)

theorem Canonical.execLdk {x : Enc} {s : State} (h : Canonical s) : (execLdk x s).Keeps Canonical := by
  unfold Machine.execLdk
  refine Canonical.issue h ?_
  intro a1
  extract_lets +onlyGivenNames w n ths
  split
  · exact .finish h
  · split
    · exact .finish h
    · split
      · exact .raise h
      · exact .stallRecall h
      · exact .stall h
      · split
        · exact .raise h
        · split
          · exact .retire (.outstanding h)
          · split
            · exact .stallRecall h
            · exact .stall h
            · rename_i s1 e1
              have h1 := keeps_of_eq (Canonical.readAll (.tlbFill h)) e1
              exact .loadDone (.constAll h1)

theorem Canonical.refill {w : Who} {hint : Nat} {as : List Machine.Acc} {gs : List Got} {s : State} (h : Canonical s) : Canonical
    (refill w hint as gs s) :=
  keeps_foldl h fun _ _ h1 => keeps_ite h1 (.fillAfter h1)

theorem Canonical.execLr {x : Enc} {s : State} (h : Canonical s) : (execLr x s).Keeps Canonical := by
  unfold Machine.execLr
  refine Canonical.issue h ?_
  intro a1
  extract_lets +onlyGivenNames w n ths
  split
  · exact .finish h
  · extract_lets +onlyGivenNames check
    split
    · exact .raise h
    · exact .stallRecall h
    · exact .stall h
    · split
      · exact .stall h
      · split
        · exact .raise h
        · split
          · exact .stallRecall h
          · exact .stall h
          · rename_i s1 e1
            have h1 := keeps_of_eq (Canonical.readAll (.tlbFill h)) e1
            exact .loadDone (.refill h1)

/-! ### Machine/StoreInstr -/

theorem Canonical.putOne {w : Who} {tid ch ord : Nat} {scope : BitVec 3} {hint : Nat} {pts : Option (BitVec 24)} {cmd : Option Nat} {p : Put}
    {s : State} (h : Canonical s) : Canonical (putOne w tid ch ord scope hint pts cmd p s).2 := by
  unfold Machine.putOne
  extract_lets +onlyGivenNames rel d place
  split
  · exact h
  · split
    · exact h
    · split
      · exact .storeBlock h
      · extract_lets +onlyGivenNames l1
        have h1 : ∀ (s : State), Canonical s → Canonical (l1 s) := fun s1 h1 => keeps_ite (.l1Store h1) h1
        split
        · split
          · exact h
          · exact h
          · exact .storeBlock (h1 _ h)
        · exact .send (h1 _ h)

theorem Canonical.putAll {w : Who} {ch ord : Nat} {scope : BitVec 3} {hint : Nat} {pts : Nat → Option (BitVec 24)} {x1 : List Put} {x2 : State}
    (h : Canonical x2) : Canonical (putAll w ch ord scope hint pts x1 x2).2 := by
  induction x1 generalizing x2 with
  | nil => exact h
  | cons a as ih =>
    unfold Machine.putAll
    split
    · rename_i s1 e1
      have h1 := Canonical.snd (.putOne h) e1
      exact ih h1
    · exact .putOne h

theorem Canonical.loseOwn {gid : Nat} {ps : List Put} {s : State} (h : Canonical s) : Canonical (loseOwn gid ps s) := h

theorem Canonical.storePuts {x : Enc} {s : State} {v : View} {cost : Nat} {as : List Machine.Acc} {ps : List Put} {after : State → State}
    (h : Canonical s) (hafter : ∀ (a : State), Canonical a → Canonical (after a)) : Canonical (storePuts x s v cost as ps after) := by
  unfold Machine.storePuts
  extract_lets +onlyGivenNames w ch
  split
  · exact .stall h
  · extract_lets +onlyGivenNames blocks bad
    clear_value bad
    split
    · exact .raise h
    · extract_lets +onlyGivenNames s1 pts
      have h1 : Canonical s1 := .tlbFill h
      split
      · rename_i s2 e1
        have h2 := Canonical.snd (.putAll h1) e1
        exact .retire (.loseOwn (hafter _ h2))
      · exact .stall h
      · exact .stall h
      · exact .stallRecall h

theorem Canonical.globalStore {op : Nat} {x : Enc} {s : State} {v : View} {size align : Nat} {va : Thread → BitVec 64}
    {data : Thread → Acc → List (Nat × Byte) × DescAct} (h : Canonical s) : Canonical (globalStore op x s v size align va data) := by
  unfold Machine.globalStore
  extract_lets ths w
  split
  · exact .finish h
  · split
    · exact .raise h
    · exact .stallRecall h
    · exact .stall h
    · exact .storePuts h fun _ h1 => h1

theorem Canonical.apply {s : State} {p : SPut} (h : Canonical s) : Canonical (SPut.apply s p) :=
  .putScr h _ _ _ _

theorem Canonical.scratchPuts {x : Enc} {s : State} {cost : Nat} {whole : Bool} {ps : List SPut} (h : Canonical s) : Canonical
    (scratchPuts x s cost whole ps) := by
  unfold Machine.scratchPuts
  extract_lets +onlyGivenNames all bad
  clear_value bad
  split
  · exact .raise h
  · exact .retire (keeps_foldl (keeps_foldl (keeps_foldl h fun _ _ h1 => .apply h1) fun _ _ h1 => h1)
      fun _ _ h1 => keeps_ite (.putScr h1 _ _ _ _) h1)

theorem Canonical.scratchStore {op : Nat} {x : Enc} {s : State} {v : View} {size align : Nat} {off : Thread → Nat}
    {data : Thread → Nat → List (Nat × Byte) × DescAct} (h : Canonical s) : Canonical (scratchStore op x s v size align off data) := by
  unfold Machine.scratchStore
  extract_lets +onlyGivenNames ths
  split
  · exact .finish h
  · split
    · exact .finish h
    · split
      · exact .stall h
      · extract_lets +onlyGivenNames rs fails
        split
        · exact .raise h
        · exact .scratchPuts h

theorem Canonical.execSts {x : Enc} {s : State} (h : Canonical s) : (execSts x s).Keeps Canonical := by
  unfold Machine.execSts
  refine Canonical.issue h ?_
  intro a1
  split
  exact .scratchStore h

theorem Canonical.execStm {x : Enc} {s : State} (h : Canonical s) : (execStm x s).Keeps Canonical := by
  unfold Machine.execStm
  refine Canonical.issue h ?_
  intro a1
  split
  extract_lets +onlyGivenNames ths
  split
  · exact .finish h
  · split
    · exact .finish h
    · split
      · exact .stall h
      · extract_lets +onlyGivenNames rs fails
        split
        · exact .raise h
        · exact .scratchPuts h

theorem Canonical.execQpack {x : Enc} {s : State} (h : Canonical s) : (execQpack x s).Keeps Canonical := by
  unfold Machine.execQpack
  refine Canonical.issue h ?_
  intro a1
  extract_lets +onlyGivenNames k fmt ty n
  split
  · exact .takeFault h
  · split
    · exact .finish h
    · extract_lets +onlyGivenNames w nb va wants
      split
      · exact .raise h
      · exact .stallRecall h
      · exact .stall h
      · split
        exact .storePuts h (fun s1 h1 => h1)

/-! ### Machine/Atomic -/

theorem Canonical.rmwOne {w : Who} {ch ord : Nat} {scope : BitVec 3} {pts : Option (BitVec 24)} {load : Option Nat} {a : Machine.Acc} {pay : Pay}
    {s : State} (h : Canonical s) : (rmwOne w ch ord scope pts load a pay s).Keeps Canonical := by
  unfold Machine.rmwOne
  extract_lets +onlyGivenNames rel d place p now
  have h1 : ∀ (s : State), Canonical s → (now s).Keeps Canonical := fun s1 h1 => Canonical.performPay h1
  split
  · trivial
  · split
    · exact h1 _ h
    · extract_lets +onlyGivenNames s1
      have h2 : Canonical s1 := keeps_ite (.l1Drop h) h
      split
      · split
        · trivial
        · trivial
        · exact h1 _ h2
      · exact keeps_ite trivial (Canonical.send h2)

theorem Canonical.rmwAll {w : Who} {ch ord : Nat} {scope : BitVec 3} {pts : Nat → Option (BitVec 24)} {load : Option Nat}
    {x1 : List (Machine.Acc × Pay)} {x2 : State} (h : Canonical x2) : (rmwAll w ch ord scope pts load x1 x2).Keeps Canonical := by
  induction x1 generalizing x2 with
  | nil => exact h
  | cons a as ih =>
    unfold Machine.rmwAll
    extract_lets +onlyGivenNames go
    have h1 : ∀ (r : Option Nat) (seen : Option (BitVec 24)) (s : State), Canonical s → (go r seen s).Keeps Canonical := by
      unfold go
      intro a1 a2 s1 h1
      split
      · rename_i s2 e1
        have h2 := keeps_of_eq (ih h1) e1
        exact h2
      · exact ih h1
    split
    · rename_i s1 e1
      have h2 := keeps_of_eq (Canonical.rmwOne h) e1
      exact h1 _ _ _ h2
    · rename_i s1 e1
      have h2 := keeps_of_eq (Canonical.rmwOne h) e1
      exact h1 _ _ _ h2
    · trivial
    · trivial
    · trivial

theorem Canonical.execAtom {x : Enc} {s : State} (h : Canonical s) : (execAtom x s).Keeps Canonical := by
  unfold Machine.execAtom
  refine Canonical.issue h ?_
  intro a1
  extract_lets +onlyGivenNames w op nr n ths ord acq
  split
  · exact .finish h
  · split
    · exact .raise h
    · exact .stallRecall h
    · exact .stall h
    · split
      · exact .stall h
      · split
        · exact .raise h
        · split
          rename_i s1 e1
          have h1 := Canonical.snd (.fresh (.tlbFill h)) e1
          extract_lets +onlyGivenNames pts l free
          split
          · exact .stall h
          · exact .stall h
          · exact .stallRecall h
          · rename_i s2 e2
            have h2 := keeps_of_eq (Canonical.rmwAll h1) e2
            extract_lets +onlyGivenNames s3
            have h3 : Canonical s3 := h2
            split
            · extract_lets +onlyGivenNames s4 place
              have h4 : Canonical s4 := keeps_ite (.acquire h3) h3
              have h5 : ∀ (s : State), Canonical s → Canonical (place s) := by
                unfold place
                intro s5 h5
                split
                · exact .putView h5
                · exact h5
              exact .retire (keeps_ite h4 (h5 _ h4))
            · exact .retire h3

theorem Canonical.scOne {w : Who} {ch ord : Nat} {scope : BitVec 3} {pts : Option (BitVec 24)} {a : Machine.Acc} {pay : Pay} {s : State}
    (h : Canonical s) : (scOne w ch ord scope pts a pay s).Keeps Canonical := by
  unfold Machine.scOne
  split
  · exact h
  · extract_lets +onlyGivenNames d
    split
    · trivial
    · split
      · trivial
      · split
        · trivial
        · trivial
        · exact Canonical.setPairs (.performPay (keeps_ite (.l1Drop h) h))

theorem Canonical.scAll {w : Who} {ch ord : Nat} {scope : BitVec 3} {pts : Nat → Option (BitVec 24)} {x1 : List (Machine.Acc × Pay)} {x2 : State}
    (h : Canonical x2) : (scAll w ch ord scope pts x1 x2).Keeps Canonical := by
  induction x1 generalizing x2 with
  | nil => exact h
  | cons a as ih =>
    unfold Machine.scAll
    split
    · rename_i s1 e1
      have h1 := keeps_of_eq (Canonical.scOne h) e1
      split
      · rename_i s2 e2
        have h2 := keeps_of_eq (ih h1) e2
        exact h2
      · exact ih h1
    · trivial
    · trivial
    · trivial
    · trivial

theorem Canonical.execSc {x : Enc} {s : State} (h : Canonical s) : (execSc x s).Keeps Canonical := by
  unfold Machine.execSc
  refine Canonical.issue h ?_
  intro a1
  extract_lets +onlyGivenNames w n ths ord
  split
  · exact .finish h
  · split
    · exact .raise h
    · exact .stallRecall h
    · exact .stall h
    · split
      · exact .stall h
      · split
        · exact .raise h
        · extract_lets +onlyGivenNames pts l
          split
          · exact .stall h
          · exact .stall h
          · exact .stallRecall h
          · rename_i s1 e1
            have h1 := keeps_of_eq (Canonical.scAll (.tlbFill h)) e1
            exact .retire (.mapPath h1)

theorem Canonical.scratchRmw {s : State} {gid off n : Nat} {pts : Option (BitVec 24)} {f : Nat → Option Nat} (h : Canonical s) : Canonical
    (scratchRmw s gid off n pts f).2 := by
  unfold Machine.scratchRmw
  split
  · exact h
  · extract_lets +onlyGivenNames old
    split
    · exact h
    · exact .congr (.putScr h _ _ _ _) rfl rfl rfl

theorem Canonical.scratchRmwAll {n : Nat} {pts : Nat → Option (BitVec 24)} {x1 : List (Thread × Nat × Nat × (Nat → Option Nat))} {x2 : State}
    (h : Canonical x2) : Canonical (scratchRmwAll n pts x1 x2).2 := by
  induction x1 generalizing x2 with
  | nil => exact h
  | cons a as ih =>
    unfold Machine.scratchRmwAll
    exact ih (.scratchRmw h)

theorem Canonical.scratchAtomic {op : Nat} {x : Enc} {s : State} {v : View} {n : Nat} {f : Thread → Nat → Option Nat}
    {fin : List (Nat × Nat × Option (BitVec 24)) → View → View} (h : Canonical s) : Canonical (scratchAtomic op x s v n f fin) := by
  unfold Machine.scratchAtomic
  extract_lets +onlyGivenNames ths off
  split
  · exact .finish h
  · split
    · exact .finish h
    · split
      · exact .stall h
      · extract_lets +onlyGivenNames rs fails
        split
        · exact .raise h
        · split
          · exact .raise h
          · extract_lets +onlyGivenNames ps
            split
            · exact .raise h
            · extract_lets +onlyGivenNames ord
              split
              rename_i s1 e1
              have h1 := Canonical.snd (.scratchRmwAll h) e1
              exact .finish (keeps_ite (.acquire h1) h1)

/-! ### Machine/Settle -/

theorem Canonical.completeBar {s : State} {gid : Nat} (h : Canonical s) : Canonical (s.completeBar gid) := by
  unfold State.completeBar
  split
  · exact h
  · exact keeps_ite h (.updGroup (.inherit (keeps_ite (.l1Acquire h) h)) _ _)

theorem Canonical.completeGbar {s : State} {gang : Nat} (h : Canonical s) : Canonical (s.completeGbar gang) := by
  unfold State.completeGbar
  split
  · exact h
  · exact keeps_ite h (keeps_foldl (keeps_foldl h fun s1 _ h1 => .setClock (.l1Acquire h1)) fun s1 _ h1 => h1)

theorem Canonical.settle {s : State} {gid : Nat} (h : Canonical s) : Canonical (s.settle gid) := by
  unfold State.settle
  extract_lets +onlyGivenNames s1
  have h1 : Canonical s1 := .completeBar h
  split
  · exact .completeGbar h1
  · exact h1

/-! ### Machine/Barrier -/

theorem Canonical.waitIn {x : Enc} {cost : Nat} {s : State} {v : View} {run : Thread → Run} (h : Canonical s) : Canonical (waitIn x cost s v run) :=
  .settle (.mapThreads (.retire h))

theorem Canonical.execGbar {x : Enc} {s : State} (h : Canonical s) : (execGbar x s).Keeps Canonical := by
  unfold Machine.execGbar
  refine Canonical.issue h ?_
  intro a1
  extract_lets +onlyGivenNames w
  split
  · exact .stall h
  · split
    · exact .waitIn h
    · exact .waitIn h

theorem Canonical.execTbexp {x : Enc} {s : State} (h : Canonical s) : (execTbexp x s).Keeps Canonical := by
  unfold Machine.execTbexp
  refine Canonical.issue h ?_
  intro a1
  split
  · exact .takeFault h
  · exact keeps_ite (.finish h) (keeps_ite (.takeFault h) (.retire h))

theorem Canonical.execTbarv {x : Enc} {s : State} (h : Canonical s) : (execTbarv x s).Keeps Canonical := by
  unfold Machine.execTbarv
  refine Canonical.issue h ?_
  intro a1
  split
  · exact .takeFault h
  · extract_lets +onlyGivenNames P
    split
    · exact .finish h
    · split
      · exact .takeFault h
      · split
        · exact .takeFault h
        · exact keeps_foldl (.retire (.mapPath h)) fun s1 _ h1 => h1

theorem Canonical.execTbwait {x : Enc} {s : State} (h : Canonical s) : (execTbwait x s).Keeps Canonical := by
  unfold Machine.execTbwait
  refine Canonical.issue h ?_
  intro a1
  split
  · exact .takeFault h
  · exact keeps_ite (.finish h) (keeps_ite (.takeFault h) (.mapThreads (.retire h)))

/-! ### Machine/Cache -/

theorem Canonical.prefSector {w : Who} {hint : Nat} {s : State} {b : Nat} (h : Canonical s) : Canonical (prefSector w hint s b) := by
  unfold Machine.prefSector
  extract_lets +onlyGivenNames pa
  split
  · exact h
  · extract_lets +onlyGivenNames x fill
    have h1 : ∀ (s : State), Canonical s → Canonical (fill s) := fun s1 h1 => h1
    split
    · exact h1 _ h
    · split
      · exact keeps_ite (h1 _ h) h
      · exact h

theorem Canonical.execPref {x : Enc} {s : State} (h : Canonical s) : (execPref x s).Keeps Canonical := by
  unfold Machine.execPref
  refine Canonical.issue h (fun _ => .retire (keeps_foldl h ?_))
  intro s1 a1 h1
  split
  · exact keeps_ite h1 (keeps_foldl (.tlbFill h1) fun s2 _ h2 => .prefSector h2)
  · exact h1

theorem Canonical.flushLine {w : Who} {inv : Bool} {s : State} {pa : Nat} (h : Canonical s) : Canonical (flushLine w inv s pa) :=
  keeps_foldl h fun _ _ h1 => keeps_ite (.writeBack h1) (keeps_ite (.l1Drop h1) h1)

theorem Canonical.execCflush {x : Enc} {s : State} (h : Canonical s) : (execCflush x s).Keeps Canonical := by
  unfold Machine.execCflush
  refine Canonical.issue h ?_
  intro a1
  extract_lets +onlyGivenNames w ths check
  split
  · exact .raise h
  · exact .stallRecall h
  · exact .stall h
  · exact .retire (keeps_foldl h fun s1 _ h1 => keeps_ite h1 (.flushLine (.tlbFill h1)))

theorem Canonical.execCinvLine {x : Enc} {s : State} (h : Canonical s) : (execCinvLine x s).Keeps Canonical := by
  unfold Machine.execCinvLine
  refine Canonical.issue h (fun _ => .retire (keeps_foldl h ?_))
  intro s1 a1 h1
  split
  · exact keeps_ite h1 (keeps_foldl h1 fun s2 _ h2 => keeps_ite h2 (.l1Drop h2))
  · exact h1

/-! ### Machine/Engines -/

theorem Canonical.frameWord {s : State} {gid wid reg cmd : Nat} {v : BitVec 64} (h : Canonical s) : Canonical (s.frameWord gid wid reg cmd v) := by
  unfold State.frameWord
  split
  · exact h
  · split
    · extract_lets +onlyGivenNames pa s1
      have h1 : Canonical s1 := by
        unfold s1
        split
        · exact .recallHolder h
        · exact h
      exact .homeWrite (.plainStore h1) _ _ _ _
    · exact h

theorem Canonical.writeStatus {s : State} {gid wid reg cmd : Nat} {v : BitVec 64} (h : Canonical s) : Canonical (s.writeStatus gid wid reg cmd v) :=
  keeps_ite (.updGroup (.frameWord h) _ _) (.congr (.frameWord h) rfl rfl rfl)

theorem Canonical.postEvent {s : State} {cl kind code source : Nat} {value : BitVec 64} (h : Canonical s) : Canonical
    (s.postEvent cl kind code source value) := h

theorem Canonical.sealDone {s : State} {cl : Nat} (h : Canonical s) : Canonical (s.sealDone cl) := by
  unfold State.sealDone
  refine keeps_foldl h ?_
  intro s1 a1 h1
  split
  · split
    rename_i s2 e1
    have h2 := Canonical.snd h1 e1
    exact h2
  · exact h1

theorem Canonical.dropMma {s : State} {cl id : Nat} (h : Canonical s) : Canonical (s.dropMma cl id) :=
  .sealDone h

theorem Canonical.endCopy {s : State} {cl : Nat} {c : CopyCmd} {code : Nat} {disc : Bool} (h : Canonical s) : Canonical (s.endCopy cl c code disc) := by
  unfold State.endCopy
  extract_lets w s1 s2 s3 s4 s5
  have h1 : Canonical s1 := keeps_ite (.writeStatus h) h
  have h3 : Canonical s3 := .updCluster (.writeStatus h1) _ _
  have h4 : Canonical s4 := keeps_ite (.postEvent h3) h3
  have h5 : Canonical s5 := keeps_ite (.updGroup h4 _ _) h4
  exact keeps_ite (keeps_foldl h5 fun _ _ ht => .dropMma ht) h4

theorem Canonical.updInbound {s : State} {t : Nat} {f : Nat → Nat} (h : Canonical s) : Canonical (s.updInbound t f) := by
  unfold State.updInbound
  split
  · exact h
  · exact h

theorem Canonical.finishCopy {s : State} {cl : Nat} {c : CopyCmd} {code : Nat} {disc : Bool} (h : Canonical s) : Canonical
    (s.finishCopy cl c code disc) := by
  unfold State.finishCopy
  extract_lets +onlyGivenNames s1
  have h1 : Canonical s1 := by
    unfold s1
    split
    · exact .updInbound h
    · exact h
  exact .endCopy h1

theorem Canonical.endEpi {s : State} {cl : Nat} {c : EpiCmd} {code bytes : Nat} {disc : Bool} (h : Canonical s) : Canonical
    (s.endEpi cl c code bytes disc) :=
  .updCluster (.writeStatus h) _ _

theorem Canonical.updSite {s : State} {n : Nat} {f : Site → Site} (h : Canonical s) : Canonical (s.updSite n f) := h

theorem Canonical.siteSend {s : State} {n : Nat} {p : BitVec 512} (h : Canonical s) : Canonical (s.siteSend n p) := h

theorem Canonical.ptsSet {s : State} {n : Nat} {t : BitVec 24} (h : Canonical s) : Canonical (s.ptsSet n t) := h

theorem Canonical.recallGuest {s : State} {n ctx handle : Nat} {watch : Bool} (h : Canonical s) : Canonical (s.recallGuest n ctx handle watch) :=
  keeps_ite (keeps_ite h h) h

theorem Canonical.endGuest {s : State} {site : Nat} {c : GuestCmd} {code bytes : Nat} {disc : Bool} (h : Canonical s) : Canonical
    (s.endGuest site c code bytes disc) :=
  .updSite (.writeStatus h)

theorem Canonical.discardHeld {s : State} {gid : Nat} {p : Nat → Bool} (h : Canonical s) : Canonical (s.discardHeld gid p) :=
  keeps_foldl (keeps_foldl (keeps_foldl (keeps_foldl h fun _ _ h1 => .finishCopy h1) fun _ _ h1 => .dropMma h1) fun _ _ h1 => .endEpi h1)
    fun _ _ h1 => keeps_foldl h1 fun _ _ h2 => .endGuest h2

theorem Canonical.setGuard {s : State} {gid g : Nat} {v : Option Bool} (h : Canonical s) : Canonical (s.setGuard gid g v) := by
  unfold State.setGuard
  extract_lets +onlyGivenNames s1
  have h1 : Canonical s1 := h
  split
  · exact h1
  · exact .discardHeld h1
  · exact h1

/-! ### Machine/Handle -/

theorem Canonical.visitHandle {s : State} {h : Handle} (hs : Canonical s) : Canonical (s.visitHandle h) :=
  keeps_foldl hs fun _ _ h1 => .visit h1

theorem Canonical.dropClaims {s : State} {f : Frag} (h : Canonical s) : Canonical (s.dropClaims f) :=
  .congr (keeps_ite (.endHolder h) h) rfl rfl rfl

theorem Canonical.dropClaim {s : State} {cl ctx : Nat} {f : Frag} (h : Canonical s) : Canonical (s.dropClaim cl ctx f) :=
  keeps_ite (.endHolder h) h

theorem Canonical.makeRoom {s : State} {cl ctx n : Nat} {keep : List Nat} {x1 : Nat} (h : Canonical s) : Canonical (s.makeRoom cl ctx n keep x1) := by
  induction x1 generalizing s with
  | zero => exact h
  | succ n ih =>
    unfold State.makeRoom
    extract_lets +onlyGivenNames c
    split
    · exact h
    · split
      · exact h
      · split
        · exact ih (keeps_ite (keeps_foldl (.dropClaim h) fun s1 _ h1 => .loseResv h1 _) (.dropClaim h))
        · exact ih h

theorem Canonical.splitFrag {s : State} {f : Frag} {blocks : List Nat} (h : Canonical s) : Canonical (s.splitFrag f blocks) := by
  unfold State.splitFrag
  extract_lets +onlyGivenNames inB out
  split
  · exact h
  · split
    rename_i s1 e1
    have h1 := Canonical.snd h e1
    exact keeps_foldl h1 fun s2 _ h2 => keeps_ite (.makeRoom h2) h2

theorem Canonical.addHandle {s : State} {h : Handle} (hs : Canonical s) : Canonical (s.addHandle h) := by
  unfold State.addHandle
  extract_lets +onlyGivenNames met s1 fresh s2
  have h1 : Canonical s1 := by
    unfold s1
    refine keeps_foldl hs ?_
    intro s3 a1 h1
    split
    · exact .splitFrag h1
    · exact h1
  extract_lets +onlyGivenNames s3
  have h2 : Canonical s3 := by
    unfold s3
    split
    · exact h1
    · split
      rename_i s4 e1
      have h2 := Canonical.snd h1 e1
      split
      rename_i s5 e2
      have h3 := Canonical.snd h2 e2
      exact h3
  exact h2

theorem Canonical.freeHandle {s : State} {h : Handle} (hs : Canonical s) : Canonical (s.freeHandle h) :=
  .updCtx (.congr (.congr (keeps_foldl hs fun _ _ h1 => .dropClaims h1) rfl rfl rfl) rfl rfl rfl)

/-! ### Machine/ClaimInstr -/

theorem Canonical.sendRecord {s : State} {v : View} {t : Thread} {x : Enc} {size : Nat} {a : Machine.Acc} (h : Canonical s) : Canonical
    (sendRecord s v t x size a) := by
  unfold Machine.sendRecord
  extract_lets +onlyGivenNames parts
  split
  rename_i s1 e1
  have h1 := Canonical.snd (.outstanding h) e1
  exact .stall h1

theorem Canonical.readRecord {x : Enc} {s : State} {v : View} {t : Thread} {va : BitVec 64} {size align : Nat} {k : Nat → State → State}
    (h : Canonical s) (hk : ∀ (a : Nat) (a_1 : State), Canonical a_1 → Canonical (k a a_1)) : Canonical (readRecord x s v t va size align k) := by
  unfold Machine.readRecord
  extract_lets +onlyGivenNames w
  split
  · exact .raise h
  · exact .stallRecall h
  · exact .stall h
  · split
    · exact hk _ _ h
    · exact .sendRecord h
    · split
      · exact .stall h
      · split
        · exact .raise h
        · split
          · exact .stallRecall h
          · exact .stall h
          · rename_i s1 e1
            have h1 := keeps_of_eq (Canonical.readAll (.tlbFill h)) e1
            split
            · exact hk _ _ h1
            · exact h1

theorem Canonical.claimSet {w : Who} {x1 : List Nat} {x2 : State} (h : Canonical x2) : (claimSet w x1 x2).Keeps Canonical := by
  induction x1 generalizing x2 with
  | nil => exact h
  | cons a as ih =>
    unfold Machine.claimSet
    extract_lets +onlyGivenNames va
    split
    · trivial
    · trivial
    · trivial
    · split
      · trivial
      · split
        · rename_i s1 e1
          have h1 := keeps_of_eq (ih (.touch (.tlbFill h) _ _)) e1
          exact h1
        · exact ih (.touch (.tlbFill h) _ _)

theorem Canonical.makeHandle {x : Enc} {rec : BitVec 512} {named : Nat} {s : State} (h : Canonical s) : Canonical (makeHandle x rec named s) := by
  unfold Machine.makeHandle
  extract_lets +onlyGivenNames w
  split
  · exact .takeFault h
  · split
    · exact .takeFault h
    · exact .stallRecall h
    · exact .stall h
    · rename_i s1 e1
      have h1 := keeps_of_eq (Canonical.claimSet h) e1
      extract_lets +onlyGivenNames blocks
      split
      · exact .stall h
      · split
        · exact .takeFault h
        · split
          · exact .takeFault h
          · exact keeps_ite (.takeFault h) (.retire (.mapWarp (.addHandle h1)))

theorem Canonical.execTmake {x : Enc} {s : State} (h : Canonical s) : (execTmake x s).Keeps Canonical := by
  unfold Machine.execTmake
  refine Canonical.issueS h ?_
  intro a1
  split
  · exact .finish h
  · exact keeps_ite (.takeFault h) (.readRecord h (fun _ s1 h1 => .makeHandle h1))

theorem Canonical.execTfree {x : Enc} {s : State} (h : Canonical s) : (execTfree x s).Keeps Canonical := by
  unfold Machine.execTfree
  refine Canonical.issueS h ?_
  intro a1
  split
  · exact .takeFault h
  · split
    · exact .takeFault h
    · extract_lets +onlyGivenNames drops
      split
      · exact .stallRecall h
      · exact keeps_ite (.stall h) (.retire (.freeHandle h))

theorem Canonical.claimRead {cl ctx lease : Nat} {fs : List Frag} {s : State} (h : Canonical s) : Canonical (claimRead cl ctx lease fs s) :=
  keeps_foldl (.setClock h) fun _ _ h1 => .grantRead (keeps_ite h1 h1)

theorem Canonical.claimWrite {cl ctx lease : Nat} {fs : List Frag} {s : State} (h : Canonical s) : Canonical (claimWrite cl ctx lease fs s) := by
  unfold Machine.claimWrite
  extract_lets +onlyGivenNames t s1
  have h1 : Canonical s1 := .setClock h
  refine keeps_foldl h1 ?_
  intro s2 a1 h2
  split
  rename_i s3 e1
  have h3 := Canonical.snd h2 e1
  extract_lets +onlyGivenNames own s4 s5 c
  have h4 : Canonical s4 := keeps_ite h3 h3
  have h5 : Canonical s5 := h4
  exact h5

theorem Canonical.tclaim {write : Bool} {x : Enc} {s : State} (h : Canonical s) : (tclaim write x s).Keeps Canonical := by
  unfold Machine.tclaim
  refine Canonical.issueS h fun v => ?_
  extract_lets +onlyGivenNames w b
  split
  · exact .takeFault h
  · split
    · exact .takeFault h
    · extract_lets declared s1 fs held lease s2 s3 s4
      have h1 : Canonical s1 := .visitHandle h
      have h3 : Canonical s3 := keeps_ite (.claimWrite (.makeRoom h1)) (.claimRead (.makeRoom h1))
      have h4 : Canonical s4 := keeps_foldl h3 fun _ _ ht => .touch ht _ _
      have hr : ∀ fs : List Frag, Canonical (fs.foldl (fun s f => s.askRecall f.id) s1) := fun _ => keeps_foldl h1 fun _ _ ht => ht
      clear_value s1 s4
      refine keeps_ite (.takeFault h) (keeps_ite (.takeFault h1) (keeps_ite (.stall h1) ?_))
      exact keeps_ite (.stall (hr _)) (.retire (.mapWarp h4))

theorem Canonical.execTdrop {x : Enc} {s : State} (h : Canonical s) : (execTdrop x s).Keeps Canonical := by
  unfold Machine.execTdrop
  refine Canonical.issueS h ?_
  intro a1
  split
  · exact .takeFault h
  · exact keeps_ite (.stall h) (.retire (keeps_foldl h fun s1 _ h1 => .dropClaim (keeps_ite h1 h1)))

theorem Canonical.execTsplit {x : Enc} {s : State} (h : Canonical s) : (execTsplit x s).Keeps Canonical := by
  unfold Machine.execTsplit
  refine Canonical.issueS h ?_
  intro a1
  split
  · exact .finish h
  · split
    · exact .takeFault h
    · split
      · exact .takeFault h
      · refine .readRecord h ?_
        intro a2 s1 h1
        split
        · exact .takeFault h1
        · exact .makeHandle h1

theorem Canonical.execTinfo {x : Enc} {s : State} (h : Canonical s) : (execTinfo x s).Keeps Canonical := by
  unfold Machine.execTinfo
  refine Canonical.issueS h ?_
  intro a1
  split
  · exact .takeFault h
  · exact .finish h

/-! ### Machine/Control -/

theorem Canonical.branchTo {x : Enc} {s : State} {v : View} {link : Bool} {target : Thread → BitVec 64} (h : Canonical s) :
    Canonical (branchTo x s v link target) := by
  unfold Machine.branchTo
  extract_lets nx ts v1 gone agent s1
  have h1 : Canonical s1 := .retire (.putView h)
  have hg : ∀ t, Canonical t → Canonical (gone t) := by
    intro t ht
    unfold gone
    split
    · exact ht.updGroup _ _
    · exact ht.updCluster _ _
    · exact ht.congr rfl rfl rfl
    · exact ht
  exact (hg _ (h1.congr (t := { s1 with cur := { agent := agent } }) rfl rfl rfl)).congr rfl rfl rfl

theorem Canonical.branchReg {op : BitVec 8} {x : Enc} {s : State} (h : Canonical s) : (branchReg op x s).Keeps Canonical := by
  unfold Machine.branchReg
  refine Canonical.issue h ?_
  intro a1
  extract_lets +onlyGivenNames off target
  split
  · exact .takeFaultAt h
  · exact .branchTo h

theorem Canonical.execExit {x : Enc} {s : State} (h : Canonical s) : (execExit x s).Keeps Canonical := by
  unfold Machine.execExit
  refine Canonical.issue h ?_
  intro a1
  extract_lets +onlyGivenNames gid tids
  split
  · exact keeps_ite (.stall (keeps_ite (.discardHeld h) h)) (.settle (.updGroup (.mapThreads (.retire (keeps_ite (.discardHeld h) h))) _ _))
  · exact keeps_ite (.finish h) (.updCluster (.retire h) _ _)
  · exact keeps_ite (.finish h) (.congr (.retire h) rfl rfl rfl)
  · exact .finish h

theorem Canonical.execReform {x : Enc} {s : State} (h : Canonical s) : (execReform x s).Keeps Canonical := by
  unfold Machine.execReform
  refine Canonical.issue h ?_
  intro a1
  extract_lets +onlyGivenNames w n
  split
  · exact .takeFault h
  · extract_lets +onlyGivenNames nx mk
    split
    exact .note (.settle (.updGroup (.mapThreads (.updCore (.retire h))) _ _))

theorem Canonical.execYield {x : Enc} {s : State} (h : Canonical s) : (execYield x s).Keeps Canonical := by
  unfold Machine.execYield
  refine Canonical.issue h ?_
  intro a1
  extract_lets +onlyGivenNames w s1
  have h1 : Canonical s1 := .finish h
  split
  · exact h1
  · split
    · split
      · exact h1
      · exact h1
    · exact h1

theorem Canonical.trapWith {op code : BitVec 8} {x : Enc} {s : State} (h : Canonical s) : (trapWith op code x s).Keeps Canonical := by
  unfold Machine.trapWith
  refine Canonical.issue h ?_
  intro a1
  split
  · exact .finish h
  · exact .takeFaultAt (.pass (.noteIssue (.putView h)))

theorem Canonical.execSread {x : Enc} {s : State} (h : Canonical s) : (execSread x s).Keeps Canonical := by
  unfold Machine.execSread
  refine Canonical.issue h ?_
  intro a1
  extract_lets +onlyGivenNames i listed bits
  split
  · exact .takeFault h
  · split
    · exact .finish h
    · split
      · exact .takeFault h
      · split
        · split
          rename_i s1 e1
          have h1 := Canonical.snd h e1
          exact .finish h1
        · exact .finish h

theorem Canonical.execSwrite {x : Enc} {s : State} (h : Canonical s) : (execSwrite x s).Keeps Canonical := by
  refine Canonical.issue h fun v => ?_
  extract_lets +onlyGivenNames i b w illegal setW
  have hi : Canonical illegal := .takeFault h
  have hw : ∀ f, Canonical (setW f) := fun _ => .finish h
  clear_value illegal setW
  split
  · exact hi
  · split
    · exact .takeFault h
    · split
      · exact .finish h
      · clear_value i
        split
        · exact keeps_ite (P := Canonical) hi (hw _)
        · exact keeps_ite (P := Canonical) hi (hw _)
        · exact .finish h
        · exact .finish (keeps_ite (P := Canonical) h (h.updCluster _ _))
        · exact keeps_ite (P := Canonical) hi (hw _)

theorem Canonical.execClock {x : Enc} {s : State} (h : Canonical s) : (execClock x s).Keeps Canonical := by
  unfold Machine.execClock
  refine Canonical.issue h ?_
  intro a1
  extract_lets +onlyGivenNames w
  split
  · exact .takeFault h
  · split
    · exact .finish h
    · split
      · exact .takeFault h
      · split
        · split
          rename_i s1 e1
          have h1 := Canonical.snd h e1
          exact .finish h1
        · exact .finish h

end Sys2Proof
end

-- ==== Sys2Proof/Proofs/CanonicalEngines.lean ====
/-!
# Copies, matrix passes, epilogues and records keep the canonical form

One lemma per function of the model, in the model's order.
-/
section
namespace Sys2Proof
open Machine

/-! ### Machine/Convert -/

theorem Canonical.execQunpk {x : Enc} {s : State} (h : Canonical s) : (execQunpk x s).Keeps Canonical := by
  unfold Machine.execQunpk
  refine Canonical.issue h ?_
  intro a1
  extract_lets +onlyGivenNames fmt scale bad
  clear_value bad
  split
  · exact .takeFaultAt h
  · exact .finish h

/-! ### Machine/EngineAcc -/

theorem Canonical.engineFault {gid agent : Nat} {k : Capt} {cmd : Option Nat} {f : Flt} {s : State} (h : Canonical s) : Canonical
    (engineFault gid agent k cmd f s) :=
  .groupFault (keeps_ite h h)

theorem Canonical.alive {s : State} {gid : Nat} (h : Canonical s) : Canonical (s.alive gid) := h

/-! ### Machine/Fetch -/

theorem Canonical.fetchWord {s : State} {w : Who} {va : BitVec 64} (h : Canonical s) : (fetchWord s w va).Keeps Canonical := by
  unfold Machine.fetchWord
  split
  · exact h
  · split
    · trivial
    · split
      · trivial
      · trivial
      · trivial
      · exact keeps_ite trivial (keeps_ite trivial (keeps_ite trivial (Canonical.tlbFill (.touch h _ _))))

theorem Canonical.fetchWords {w : Who} {x1 : Nat} {x2 : BitVec 64} {x3 : State} (h : Canonical x3) : (fetchWords w x1 x2 x3).Keeps Canonical := by
  induction x1 generalizing x2 x3 with
  | zero => exact h
  | succ n ih =>
    unfold Machine.fetchWords
    split
    · rename_i s1 e1
      have h1 := keeps_of_eq (Canonical.fetchWord h) e1
      split
      · rename_i s2 e2
        have h2 := keeps_of_eq (ih h1) e2
        exact h2
      · exact ih h1
    · exact Canonical.fetchWord h

theorem Canonical.fetchInstr {s : State} (h : Canonical s) : (fetchInstr s).Keeps Canonical := by
  unfold Machine.fetchInstr
  extract_lets +onlyGivenNames w
  split
  · rename_i s1 e1
    have h1 := keeps_of_eq (Canonical.fetchWord h) e1
    split
    · split
      · rename_i s2 e2
        have h2 := keeps_of_eq (Canonical.fetchWords h1) e2
        exact h2
      · exact Canonical.fetchWords h1
    · trivial
  · exact Canonical.fetchWord h

/-! ### Machine/Copy -/

theorem Canonical.markCpym {s : State} {gid wid : Nat} {path : List Nat} {c : Option (Nat × BitVec 512 × List Int)} (h : Canonical s) : Canonical
    (s.markCpym gid wid path c) := h

theorem Canonical.postCopy {x : Enc} {s : State} {t : Thread} {c : Nat → Bool → Capt → CopyCmd} (h : Canonical s) : Canonical (postCopy x s t c) := by
  unfold Machine.postCopy
  extract_lets +onlyGivenNames gid
  split
  · split
    rename_i s1 e1
    have h1 := Canonical.snd h e1
    extract_lets +onlyGivenNames c1 c2 s2 s3 d s4 path wid s5
    have h2 : Canonical s2 := by
      unfold s2
      split
      · exact .updInbound h1
      · exact h1
    have h3 : Canonical s3 := h2
    have h4 : Canonical s4 := .mapWarp h3
    have h5 : Canonical s5 := .retire h4
    exact keeps_ite h5 h5
  · exact .stall h

theorem Canonical.cpyWith {op : BitVec 8} {isM : Bool} {kind : CopyKind} {x : Enc} {s : State} (h : Canonical s) : (cpyWith op isM kind x s).Keeps Canonical :=
    by
  unfold Machine.cpyWith
  refine Canonical.issue h ?_
  intro a1
  split
  · exact .takeFault h
  · split
    · exact keeps_ite (.markCpym (.finish h)) (.finish h)
    · exact .readRecord h (fun _ s1 h1 => keeps_ite (.takeFault h1) (keeps_ite (.takeFault h1) (.postCopy h1)))

theorem Canonical.execCpyl {x : Enc} {s : State} (h : Canonical s) : (execCpyl x s).Keeps Canonical := by
  unfold Machine.execCpyl
  refine Canonical.issue h ?_
  intro a1
  split
  · exact .takeFault h
  · split
    · exact .finish h
    · exact keeps_ite (.takeFault h) (keeps_ite (.takeFault h) (keeps_ite (.takeFault h) (.postCopy h)))

theorem Canonical.updCopy {s : State} {cl id : Nat} {f : CopyCmd → CopyCmd} (h : Canonical s) : Canonical (s.updCopy cl id f) := h

theorem Canonical.execCopyStart {cl : Nat} {s : State} (h : Canonical s) : (execCopyStart cl s).Keeps Canonical := by
  unfold Machine.execCopyStart
  split
  · exact h
  · split
    · exact Canonical.finishCopy h
    · split
      · exact Canonical.finishCopy h
      · exact Canonical.updCopy (keeps_ite (.acquire h) h)

theorem Canonical.readSides {w : Who} {c : CopyCmd} {x1 : List (Int × Side)} {x2 : State} (h : Canonical x2) : SrcKeeps Canonical (readSides w c x1 x2) := by
  induction x1 generalizing x2 with
  | nil => exact h
  | cons a as ih =>
    unfold Machine.readSides
    extract_lets +onlyGivenNames r
    have h1 : SecKeeps Canonical r := by
      unfold r
      split
      · split
        · exact h
        · trivial
      · split
        · exact h
        · split
          · trivial
          · split
            · rename_i s1 e1
              have h1 := keeps_of_eq (Canonical.loadBlock h) e1
              exact Canonical.tlbFill h1
            · trivial
            · trivial
    clear_value r
    split
    · exact h1
    · split
      · rename_i s1 e1
        have h2 := keeps_of_eq (ih h1) e1
        exact h2
      · exact ih h1

theorem Canonical.fetchRemote {s : State} {w : Who} {cl : Nat} {c : CopyCmd} {ns : List Int} (h : Canonical s) : Canonical (fetchRemote s w cl c ns) :=
    by
  unfold Machine.fetchRemote
  split
  rename_i s1 e1
  have h1 := Canonical.snd h e1
  extract_lets +onlyGivenNames part whole parts x
  split
  rename_i s2 e2
  have h2 := Canonical.snd (.sendParts h1) e2
  exact h2

theorem Canonical.writeSide {w : Who} {c : CopyCmd} {p : Side} {cells : List (Nat × Byte)} {da : DescAct} {s : State} (h : Canonical s) : Canonical
    (writeSide w c p cells da s).2 := by
  unfold Machine.writeSide
  split
  · exact .congr (.putScr h _ _ _ _) rfl rfl rfl
  · exact keeps_ite_snd h (.putOne (.tlbFill h))

theorem Canonical.writeSides {w : Who} {c : CopyCmd} {da : DescAct} {x1 : List ((Int × Side) × List (Nat × Byte))} {x2 : State} (h : Canonical x2) :
    Canonical (writeSides w c da x1 x2).2 := by
  induction x1 generalizing x2 with
  | nil => exact h
  | cons a as ih =>
    unfold Machine.writeSides
    split
    · rename_i s1 e1
      have h1 := Canonical.snd (.writeSide h) e1
      exact ih h1
    · exact .writeSide h

theorem Canonical.stopCopy {cl : Nat} {c : CopyCmd} {e : BlkStop} {agent : Nat} {s : State} (h : Canonical s) : Canonical (stopCopy cl c e agent s) :=
    by
  unfold Machine.stopCopy
  split
  · exact h
  · exact h
  · exact .finishCopy h
  · exact .engineFault h
  · exact .engineFault (.finishCopy h)

theorem Canonical.copyBlock {cl : Nat} {c : CopyCmd} {u : DstBlk} {s : State} (h : Canonical s) : Canonical (copyBlock cl c u s) := by
  unfold Machine.copyBlock
  extract_lets +onlyGivenNames w ns cov written
  split
  · exact .stopCopy h
  · exact .stopCopy h
  · extract_lets +onlyGivenNames partly
    split
    · exact .stopCopy h
    · extract_lets +onlyGivenNames remote
      split
      · exact h
      · split
        · exact keeps_ite h (.fetchRemote h)
        · split
          · exact .stopCopy h
          · rename_i s1 e1
            have h1 := keeps_of_eq (Canonical.readSides h) e1
            split
            · exact .stopCopy h
            · extract_lets +onlyGivenNames bytes puts
              split
              · exact h
              · rename_i s2 e2
                have h2 := Canonical.snd (.writeSides h1) e2
                extract_lets +onlyGivenNames half s3 crcData
                have h3 : Canonical s3 := by
                  unfold s3
                  split
                  · exact h2
                  · exact h2
                exact .updCopy (.note h3)
              · exact h

theorem Canonical.execCopyBlock {cl id : Nat} {s : State} (h : Canonical s) : (execCopyBlock cl id s).Keeps Canonical := by
  unfold Machine.execCopyBlock
  split
  · exact h
  · split
    · exact h
    · split
      · exact h
      · extract_lets +onlyGivenNames hit
        clear_value hit
        split
        · exact Canonical.stopCopy h
        · exact Canonical.copyBlock h

theorem Canonical.execCopyEnd {cl id : Nat} {s : State} (h : Canonical s) : (execCopyEnd cl id s).Keeps Canonical := by
  unfold Machine.execCopyEnd
  split
  · exact h
  · exact keeps_ite (Canonical.finishCopy h) h

theorem Canonical.gslotWith {x : Enc} {s : State} {val : Thread → Option Bool} (h : Canonical s) : (gslotWith x s val).Keeps Canonical := by
  unfold Machine.gslotWith
  refine Canonical.issue h ?_
  intro a1
  split
  · exact .finish h
  · exact .retire (.setGuard h)

/-! ### Machine/CoreEvents -/

theorem Canonical.execFairnessSwitch {gid wid : Nat} {s : State} (h : Canonical s) : (execFairnessSwitch gid wid s).Keeps Canonical := by
  unfold Machine.execFairnessSwitch
  split
  · exact keeps_ite (Canonical.updGroup (.note h) _ _) h
  · exact h

theorem Canonical.idleLane {core lane : Nat} {s : State} (h : Canonical s) : Canonical (idleLane core lane s) :=
  keeps_ite h h

theorem Canonical.pointLane {s : State} {core lane slot : Nat} (h : Canonical s) : Canonical (s.pointLane core lane slot) := h

theorem Canonical.precise {s : State} {x1 : Out} (h : Canonical s) (hx1 : x1.Keeps Canonical) : (precise s x1).Keeps Canonical := by
  unfold Machine.precise
  split
  · show Canonical _
    exact keeps_ite (.stall h) hx1
  · exact hx1

theorem Canonical.execBinReady {core bin : Nat} {s : State} (h : Canonical s) : (execBinReady core bin s).Keeps Canonical := by
  unfold Machine.execBinReady
  split
  · exact keeps_ite h h
  · exact h

theorem Canonical.execBinDraw {gid : Nat} {s : State} (h : Canonical s) : (execBinDraw gid s).Keeps Canonical := by
  unfold Machine.execBinDraw
  split
  · exact h
  · split
    · split
      · exact h
      · exact h
    · exact h

theorem Canonical.drawCore {s : State} {core : Nat} (h : Canonical s) : Canonical (s.drawCore core) := by
  unfold State.drawCore
  extract_lets +onlyGivenNames s1
  have h1 : Canonical s1 := h
  refine keeps_foldl h1 ?_
  intro s2 a1 h2
  split
  · split
    · rename_i s3 e1
      have h3 := keeps_of_eq (Canonical.execBinDraw h2) e1
      exact h3
    · exact h2
  · exact h2

theorem Canonical.drawDue {s : State} (h : Canonical s) : Canonical s.drawDue :=
  keeps_foldl h fun _ _ h1 => keeps_foldl h1 fun _ _ h2 => .drawCore h2

theorem Canonical.execReservationTimeout {gid tid : Nat} {s : State} (h : Canonical s) : (execReservationTimeout gid tid s).Keeps Canonical := by
  unfold Machine.execReservationTimeout
  split
  · exact keeps_ite h h
  · exact h

theorem Canonical.execSelftick {cl : Nat} {s : State} (h : Canonical s) : (execSelftick cl s).Keeps Canonical :=
  keeps_ite (Canonical.visitAll h) h

theorem Canonical.execPtsLagAdvance {who : Nat} {s : State} (h : Canonical s) : (execPtsLagAdvance who s).Keeps Canonical := by
  unfold Machine.execPtsLagAdvance
  extract_lets top lags n
  split
  · split
    · exact Canonical.setClock h
    · exact h
  · clear_value n
    split
    · exact Canonical.ptsSet h
    · exact h

theorem Canonical.execFragmentRebase {f : Nat} {s : State} (h : Canonical s) : (execFragmentRebase f s).Keeps Canonical :=
  Canonical.visit h

theorem Canonical.execWriteClaimHoldExpiry {f : Nat} {s : State} (h : Canonical s) : (execWriteClaimHoldExpiry f s).Keeps Canonical := by
  unfold Machine.execWriteClaimHoldExpiry
  split
  · exact keeps_ite h h
  · exact h

/-! ### Machine/Matrix -/

theorem Canonical.withSlot {op : BitVec 8} {x : Enc} {d : Nat} {s : State} {body : View → Thread → Machine.Group → Nat → RingSlot → State}
    (h : Canonical s) (hbody : ∀ (a : View) (a_1 : Thread) (a_2 : Machine.Group) (a_3 : Nat) (a_4 : RingSlot), Canonical (body a a_1 a_2 a_3 a_4)) :
    (withSlot op x d s body).Keeps Canonical := by
  unfold Machine.withSlot
  refine Canonical.issue h ?_
  intro a1
  split
  · split
    · exact hbody _ _ _ _ _
    · exact .takeFault h
  · exact .finish h

theorem Canonical.execAringDrop {x : Enc} {s : State} (h : Canonical s) : (execAringDrop x s).Keeps Canonical := by
  unfold Machine.execAringDrop
  refine Canonical.withSlot h ?_
  intro a1 a2 a3 a4 a5
  split
  · split
    rename_i s1 e1
    have h1 := Canonical.snd h e1
    exact .retire h1
  · exact .takeFault h

theorem Canonical.postMma {x : Enc} {s : State} {v : View} {t : Thread} {g : Machine.Group} {i : Nat} {copy : Option (Nat × BitVec 512 × List Int)}
    (h : Canonical s) : Canonical (postMma x s v t g i copy) := by
  unfold Machine.postMma
  extract_lets +onlyGivenNames w k c waits
  split
  · exact .stall h
  · split
    rename_i s1 e1
    have h1 := Canonical.snd h e1
    exact .retire h1

theorem Canonical.execMma {x : Enc} {s : State} (h : Canonical s) : (execMma x s).Keeps Canonical := by
  unfold Machine.execMma
  refine Canonical.withSlot h ?_
  intro a1 a2 a3 a4 a5
  extract_lets +onlyGivenNames follow path copy
  split
  · exact .takeFault h
  · split
    · exact .retire h
    · split
      · exact .takeFault h
      · exact keeps_ite (.takeFault h) (.postMma h)

theorem Canonical.execMmaEntryEnter {cl id : Nat} {s : State} (h : Canonical s) : (execMmaEntryEnter cl id s).Keeps Canonical := by
  unfold Machine.execMmaEntryEnter
  extract_lets +onlyGivenNames c
  split
  · exact h
  · exact keeps_ite h h

theorem Canonical.grantMma {cl : Nat} {m : MmaEntry} {s : State} (h : Canonical s) : Canonical (grantMma cl m s) := by
  unfold Machine.grantMma
  extract_lets +onlyGivenNames w s1 hit
  have h1 : Canonical s1 := keeps_ite (.acquire h) h
  split
  · exact h1
  · split
    · exact .engineFault h1
    · exact .engineFault h1
    · exact h1

theorem Canonical.execMmaGrant {cl : Nat} {s : State} (h : Canonical s) : (execMmaGrant cl s).Keeps Canonical := by
  unfold Machine.execMmaGrant
  split
  · exact Canonical.dropMma h
  · split
    · exact h
    · split
      · exact Canonical.grantMma h
      · exact h

theorem Canonical.execMmaPassComplete {cl : Nat} {s : State} (h : Canonical s) : (execMmaPassComplete cl s).Keeps Canonical := by
  unfold Machine.execMmaPassComplete
  split
  · exact h
  · exact Canonical.note (.alive (.dropMma h))

theorem Canonical.peekWith {op : BitVec 8} {x : Enc} {s : State} {body : View → Nat → Nat → RingSlot → State} (h : Canonical s)
    (hbody : ∀ (a : View) (a_1 a_2 : Nat) (a_3 : RingSlot), Canonical (body a a_1 a_2 a_3)) : (peekWith op x s body).Keeps Canonical := by
  unfold Machine.peekWith
  refine Canonical.issue h ?_
  intro a1
  extract_lets +onlyGivenNames d
  split
  · split
    · exact .takeFaultAt h
    · split
      · exact .takeFaultAt h
      · exact .stallRecall h
      · exact .stall h
      · split
        · exact .takeFaultAt h
        · exact keeps_ite (.takeFaultAt h) (hbody _ _ _ _)
  · exact .finish h

/-! ### Machine/Epi -/

theorem Canonical.execEpi {x : Enc} {s : State} (h : Canonical s) : (execEpi x s).Keeps Canonical := by
  unfold Machine.execEpi
  refine Canonical.issue h ?_
  intro a1
  extract_lets +onlyGivenNames w
  split
  · split
    rename_i s1 e1
    have h1 := Canonical.snd h e1
    exact keeps_ite (.takeFault h) (keeps_ite (.takeFault h) (keeps_ite (.takeFault h)
      (keeps_ite (.takeFault h) (keeps_ite (.takeFault h) (.retire (.mapWarp h1))))))
  · exact .finish h

theorem Canonical.suspendEpi {cl : Nat} {c : EpiCmd} {f : Flt} {s : State} (h : Canonical s) : Canonical (suspendEpi cl c f s) :=
  .engineFault h

theorem Canonical.epiStores {w : Who} {c : EpiCmd} {pts : Option (BitVec 24)} {x1 : List (Machine.Acc × List Byte × DescAct)} {x2 : State}
    (h : Canonical x2) : Canonical (epiStores w c pts x1 x2).2 := by
  induction x1 generalizing x2 with
  | nil => exact h
  | cons a as ih =>
    unfold Machine.epiStores
    extract_lets +onlyGivenNames cells
    split
    · rename_i s1 e1
      have h1 := Canonical.snd (.putOne (.tlbFill h)) e1
      exact ih h1
    · exact .putOne (.tlbFill h)

theorem Canonical.takeSlot {cl : Nat} {c : EpiCmd} {i : Nat} {g : Machine.Group} {s : State} (h : Canonical s) : Canonical (takeSlot cl c i g s) := by
  unfold Machine.takeSlot
  extract_lets +onlyGivenNames w r desig biasBad
  split
  · exact .suspendEpi h
  · split
    · exact .suspendEpi h
    · extract_lets +onlyGivenNames bs
      split
      · exact h
      · exact h
      · exact .alive (.endEpi h)
      · split
        · exact .engineFault (.endEpi h)
        · split
          · exact .suspendEpi h
          · split
            · exact h
            · extract_lets +onlyGivenNames s1 bias puts
              have h1 : Canonical s1 := keeps_ite (.acquire h) h
              split
              · rename_i s2 e1
                have h2 := Canonical.snd (.epiStores h1) e1
                exact h2
              · exact h
              · exact h

theorem Canonical.execEpiTakeSlot {cl : Nat} {s : State} (h : Canonical s) : (execEpiTakeSlot cl s).Keeps Canonical := by
  unfold Machine.execEpiTakeSlot
  split
  · exact h
  · split
    · exact Canonical.endEpi h
    · split
      · exact Canonical.takeSlot h
      · exact h

theorem Canonical.execEpiDrainComplete {cl : Nat} {s : State} (h : Canonical s) : (execEpiDrainComplete cl s).Keeps Canonical := by
  unfold Machine.execEpiDrainComplete
  split
  · exact Canonical.note (.alive (.endEpi h))
  · exact h

/-! ### Machine/Records -/

theorem Canonical.touchDie {s : State} {ctx die : Nat} (h : Canonical s) : Canonical (s.touchDie ctx die) := h

theorem Canonical.wantPass {s : State} {die part : Nat} (h : Canonical s) : Canonical (s.wantPass die part) := h

theorem Canonical.endReserves {s : State} {p : Reserve → Bool} (h : Canonical s) : Canonical (s.endReserves p) :=
  keeps_foldl h fun _ _ h1 => h1

theorem Canonical.putRec {s : State} {q : QRec} {r : Room} (h : Canonical s) : Canonical (s.putRec q r) := by
  unfold State.putRec
  extract_lets +onlyGivenNames s1 s2
  have h1 : Canonical s1 := h
  have h2 : Canonical s2 := keeps_ite h1 h1
  exact h2

theorem Canonical.refillSeam {s : State} {seam x1 : Nat} (h : Canonical s) : Canonical (s.refill seam x1) := by
  induction x1 generalizing s with
  | zero => exact h
  | succ n ih =>
    unfold State.refill
    split
    · split
      · exact ih h
      · exact h
    · exact h

theorem Canonical.leaveSeam {s : State} {q : QRec} (h : Canonical s) : Canonical (s.leaveSeam q) :=
  .refillSeam (.endReserves h)

theorem Canonical.execWaitingEnqueueEnter {part : Nat} {s : State} (h : Canonical s) : (execWaitingEnqueueEnter part s).Keeps Canonical := by
  unfold Machine.execWaitingEnqueueEnter
  split
  · exact h
  · extract_lets +onlyGivenNames s1
    have h1 : Canonical s1 := h
    split
    · exact h
    · exact Canonical.putRec h1

theorem Canonical.execAgingPromotion {seam id : Nat} {s : State} (h : Canonical s) : (execAgingPromotion seam id s).Keeps Canonical := by
  unfold Machine.execAgingPromotion
  split
  · exact h
  · exact keeps_ite h h

theorem Canonical.openTask {s : State} {l : Option Nat} (h : Canonical s) : Canonical (s.openTask l) := by
  unfold State.openTask
  split
  · exact h
  · exact h

theorem Canonical.closeTask {s : State} {l : Option Nat} {killed : Bool} {pts : BitVec 24} (h : Canonical s) : Canonical (s.closeTask l killed pts) :=
    by
  unfold State.closeTask
  split
  · exact keeps_ite h h
  · exact h

theorem Canonical.service {s : State} {part : Nat} {e : SvcEntry} (h : Canonical s) : Canonical (s.service part e) := h

theorem Canonical.enqueueSucc {s : State} {g : Machine.Group} {join succ : BitVec 64} {pts : BitVec 24} (h : Canonical s) :
    (enqueueSucc s g join succ pts).Keeps Canonical := by
  unfold Machine.enqueueSucc
  extract_lets +onlyGivenNames w s1
  have h1 : Canonical s1 := h
  split
  · exact h1
  · trivial
  · trivial
  · split
    · exact h1
    · split
      · trivial
      · trivial
      · rename_i s2 e1
        have h2 := keeps_of_eq (Canonical.loadBlock (.tlbFill h)) e1
        exact keeps_ite h1 (Canonical.openTask (.putRec h2))

theorem Canonical.joinDec {s : State} {g : Machine.Group} (h : Canonical s) : (joinDec s g).Keeps Canonical := by
  unfold Machine.joinDec
  extract_lets +onlyGivenNames join w s1
  have h1 : Canonical s1 := h
  split
  · exact h
  · split
    · exact h1
    · trivial
    · trivial
    · split
      · exact h1
      · split
        · trivial
        · trivial
        · extract_lets +onlyGivenNames s2 pts succ
          have h2 : Canonical s2 := .tlbFill h
          split
          rename_i s3 e1
          have h3 := Canonical.snd (.atomAt h2) e1
          exact keeps_ite (Canonical.enqueueSucc h3) h3

theorem Canonical.completeTask {s : State} {g : Machine.Group} {src : Nat} (h : Canonical s) : (completeTask s g src).Keeps Canonical := by
  unfold Machine.completeTask
  split
  · rename_i s1 e1
    have h1 := keeps_of_eq (Canonical.joinDec h) e1
    exact Canonical.closeTask (keeps_ite h1 h1)
  · exact Canonical.joinDec h

theorem Canonical.putAssay {s : State} {e : Assay} (h : Canonical s) : Canonical (s.putAssay e) := by
  unfold State.putAssay
  extract_lets +onlyGivenNames quota
  split
  · exact h
  · split
    rename_i s1 e1
    have h1 := Canonical.snd h e1
    extract_lets +onlyGivenNames e2 here set mine swap
    have h2 : ∀ (o : Assay), Canonical (swap o) := fun _ => h1
    split
    · exact h2 _
    · split
      · split
        · exact h2 _
        · exact h1
      · split
        · exact h1
        · split
          · exact h2 _
          · exact h1

theorem Canonical.assayDone {s : State} {g : Machine.Group} {spoiled : Bool} (h : Canonical s) : Canonical (s.assayDone g spoiled) := by
  unfold State.assayDone
  split
  · exact h
  · split
    · split
      exact .putAssay h
    · exact h

theorem Canonical.freeGroup {s : State} {g : Group} (h : Canonical s) : Canonical (s.freeGroup g) := by
  unfold State.freeGroup
  extract_lets cl fab old s1 s2 s3 freed
  have h1 : Canonical s1 := h
  have h2 : Canonical s2 := .wrCells (.wantPass h1) _
  have h3 : Canonical s3 := .updCore h2
  exact h3.updCluster _ _

theorem Canonical.leaveGang {s : State} {g : Group} {killed : Bool} (h : Canonical s) : (s.leaveGang g killed).Keeps Canonical := by
  unfold State.leaveGang
  split
  · exact h
  · split
    · exact h
    · exact h

theorem Canonical.endGroup {s : State} {g : Group} (h : Canonical s) : (s.endGroup g).Keeps Canonical := by
  unfold State.endGroup
  extract_lets l fin
  have hl : Canonical l.state := .state (.leaveGang h)
  have hf : ∀ t, Canonical t → Canonical (fin t) := by
    intro t ht
    unfold fin
    extract_lets t1
    have h1 : Canonical t1 := .freeGroup ht
    split
    · exact .completeGbar h1
    · exact h1
  split
  · exact hf _ hl
  · split
    · exact hf _ (.closeTask hl)
    · split
      · trivial
      · split
        · rename_i s2 e2
          have h2 := keeps_of_eq (Canonical.completeTask (.assayDone hl)) e2
          exact hf _ h2
        · exact Canonical.completeTask (.assayDone hl)

theorem Canonical.execTaskComplete {gid : Nat} {s : State} (h : Canonical s) : (execTaskComplete gid s).Keeps Canonical := by
  unfold Machine.execTaskComplete
  split
  · exact h
  · split
    · split
      · rename_i s1 e1
        have h1 := keeps_of_eq (Canonical.endGroup h) e1
        exact h1
      · exact h
      · exact h
    · exact h

/-! ### Machine/TaskInstr -/

theorem Canonical.readRecs {x : Enc} {s : State} {v : View} {ths : List Thread} {k : List (BitVec 512) → State → State} (h : Canonical s)
    (hk : ∀ (a : List (BitVec 512)) (a_1 : State), Canonical a_1 → Canonical (k a a_1)) : Canonical (readRecs x s v ths k) := by
  unfold Machine.readRecs
  extract_lets +onlyGivenNames w wants
  split
  · exact .raise h
  · exact .stallRecall h
  · exact .stall h
  · extract_lets +onlyGivenNames got
    split
    · exact .sendRecord h
    · extract_lets +onlyGivenNames locals
      split
      · exact .stall h
      · split
        · exact .raise h
        · split
          · exact .stallRecall h
          · exact .stall h
          · rename_i s1 e1
            have h1 := keeps_of_eq (Canonical.readAll (.tlbFill h)) e1
            exact hk _ _ h1

theorem Canonical.enqueueAll {ctx part : Nat} {launch : Option Nat} {pts : BitVec 24} {x1 : List (BitVec 512)} {x2 : State} (h : Canonical x2) :
    OptKeeps Canonical (enqueueAll ctx part launch pts x1 x2) := by
  induction x1 generalizing x2 with
  | nil => exact h
  | cons a as ih =>
    unfold Machine.enqueueAll
    split
    extract_lets +onlyGivenNames seam
    split
    · trivial
    · exact ih (.openTask (.putRec h))

theorem Canonical.execTenq {x : Enc} {s : State} (h : Canonical s) : (execTenq x s).Keeps Canonical := by
  unfold Machine.execTenq
  refine Canonical.issue h ?_
  intro a1
  extract_lets +onlyGivenNames w ths
  split
  · exact .finish h
  · split
    · exact .takeFaultAt h
    · refine .readRecs h ?_
      intro a2 s1 h1
      split
      · exact .takeFaultAt h1
      · split
        · exact .stall h1
        · extract_lets +onlyGivenNames launch
          split
          · exact .takeFaultAt h1
          · rename_i s2 e1
            have h2 := keeps_of_eq (keeps_ite trivial (Canonical.enqueueAll h1)) e1
            exact .retire h2

theorem Canonical.execTdone {x : Enc} {s : State} (h : Canonical s) : (execTdone x s).Keeps Canonical := by
  unfold Machine.execTdone
  refine Canonical.issue h ?_
  intro a1
  split
  · split
    · exact .takeFault h
    · split
      · exact .finish h
      · split
        · exact .stall h
        · split
          · exact .stallRecall h
          · exact .stall h
          · rename_i s1 e1
            have h1 := keeps_of_eq (Canonical.completeTask h) e1
            exact .retire (keeps_foldl h1 fun s2 _ h2 => h2)
  · exact .finish h

theorem Canonical.takeEvent {x : Enc} {s : State} {v : View} {e : BitVec 128} (h : Canonical s) : Canonical (takeEvent x s v e) :=
  .finish h

theorem Canonical.execEvread {x : Enc} {s : State} (h : Canonical s) : (execEvread x s).Keeps Canonical := by
  unfold Machine.execEvread
  refine Canonical.issueS h ?_
  intro a1
  split
  · exact .stall h
  · exact .takeEvent h

theorem Canonical.execEvreadNb {x : Enc} {s : State} (h : Canonical s) : (execEvreadNb x s).Keeps Canonical := by
  unfold Machine.execEvreadNb
  refine Canonical.issueS h ?_
  intro a1
  split
  · exact .takeEvent h
  · exact .takeEvent h

theorem Canonical.purgeAssay {s : State} {ctx : Nat} {p : Assay → Bool} (h : Canonical s) : Canonical (s.purgeAssay ctx p) := h

theorem Canonical.ainvWith {x : Enc} {s : State} {p : View → Assay → Bool} (h : Canonical s) : (ainvWith x s p).Keeps Canonical :=
  Canonical.issueS h (fun _ => keeps_ite (.takeFault h) (.retire h))

end Sys2Proof
end

-- ==== Sys2Proof/Proofs/CanonicalHub.lean ====
/-!
# Hub, ingress and guest socket keep the canonical form

One lemma per function of the model, in the model's order.
-/
section
namespace Sys2Proof
open Machine

/-! ### Machine/Hub -/

theorem Canonical.hubAddrs {s : State} {ctx acc x1 : Nat} {x2 : BitVec 64} (h : Canonical s) : (hubAddrs s ctx acc x1 x2).Keeps Canonical := by
  induction x1 generalizing s x2 with
  | zero => exact h
  | succ n ih =>
    unfold Machine.hubAddrs
    split
    · trivial
    · split
      · trivial
      · trivial
      · trivial
      · split
        · trivial
        · split
          · trivial
          · split
            · trivial
            · split
              · rename_i s1 e1
                have h1 := keeps_of_eq (ih h) e1
                exact h1
              · exact ih h

theorem Canonical.hubRead {s : State} {ctx : Nat} {va : BitVec 64} {n : Nat} (h : Canonical s) : (hubRead s ctx va n).Keeps Canonical := by
  unfold Machine.hubRead
  split
  · rename_i s1 e1
    have h1 := keeps_of_eq (Canonical.hubAddrs h) e1
    show Canonical _
    exact keeps_foldl h1 fun s2 _ h2 => .touch h2 _ _
  · trivial
  · trivial
  · trivial

theorem Canonical.hubBlock {s : State} {pa : Nat} {cs : List (Nat × Byte)} {da : DescAct} (h : Canonical s) : Canonical (s.hubBlock pa cs da) := by
  unfold State.hubBlock
  extract_lets +onlyGivenNames s1
  have h1 : Canonical s1 := .storeBlock h
  split
  · exact h1
  · exact h1

theorem Canonical.hubStore {s : State} {cells : List (Nat × Byte)} (h : Canonical s) : Canonical (hubStore s cells) :=
  keeps_foldl h fun _ _ h1 => .hubBlock h1

theorem Canonical.physReady {s : State} {pas : List Nat} (h : Canonical s) : (physReady s pas).Keeps Canonical := by
  unfold Machine.physReady
  split
  · trivial
  · split
    · trivial
    · exact h

theorem Canonical.enqueue {s : State} {q : Queued} (h : Canonical s) : Canonical (s.enqueue q) :=
  keeps_ite h h

theorem Canonical.hubWrite {s : State} {ctx : Nat} {va : BitVec 64} {bs : List Byte} (h : Canonical s) : (hubWrite s ctx va bs).Keeps Canonical := by
  unfold Machine.hubWrite
  split
  · rename_i s1 e1
    have h1 := keeps_of_eq (Canonical.hubAddrs h) e1
    exact Canonical.hubStore (keeps_foldl h1 fun s2 _ h2 => .touch h2 _ _)
  · trivial
  · trivial
  · trivial

theorem Canonical.hubPhys {s : State} {pa n : Nat} (h : Canonical s) : (hubPhys s pa n).Keeps Canonical := by
  unfold Machine.hubPhys
  extract_lets +onlyGivenNames l
  split
  · trivial
  · split
    · trivial
    · split
      · trivial
      · exact h

theorem Canonical.waits {α : Type} {s : State} {x1 : HubRes α} (h : Canonical s) (hx1 : x1.Keeps Canonical) : Canonical (HubRes.waits s x1) := by
  unfold HubRes.waits
  split
  · exact h
  · exact h

/-! ### Machine/Ingress -/

theorem Canonical.exportAt {s : State} {src x size acc : Nat} (h : Canonical s) : (exportAt s src x size acc).Keeps Canonical := by
  unfold Machine.exportAt
  split
  · trivial
  · extract_lets +onlyGivenNames ctx va allowed
    split
    · trivial
    · split
      · trivial
      · trivial
      · trivial
      · split
        · trivial
        · split
          · trivial
          · split
            · trivial
            · split
              · trivial
              · exact Canonical.touch (.tlbFill h) _ _

theorem Canonical.exportAll {src acc : Nat} {x1 : List (Nat × Nat)} {x2 : State} (h : Canonical x2) : (exportAll src acc x1 x2).Keeps Canonical := by
  induction x1 generalizing x2 with
  | nil => exact h
  | cons a as ih =>
    unfold Machine.exportAll
    split
    · rename_i s1 e1
      have h1 := keeps_of_eq (Canonical.exportAt h) e1
      split
      · rename_i s2 e2
        have h2 := keeps_of_eq (ih h1) e2
        exact h2
      · exact ih h1
    · trivial
    · trivial
    · trivial

theorem Canonical.putPieces {da : DescAct} {x1 : List (Nat × Nat)} {x2 : List (Option Byte)} {x3 : State} (h : Canonical x3) : Canonical
    (putPieces da x1 x2 x3) := by
  induction x1 generalizing x2 x3 with
  | nil => exact h
  | cons a as ih =>
    unfold Machine.putPieces
    exact ih (.hubBlock h)

theorem Canonical.fabPerform {p : FabPacket} {s : State} (h : Canonical s) : (fabPerform p s).Keeps Canonical := by
  unfold Machine.fabPerform
  extract_lets +onlyGivenNames refuse
  have h1 : refuse.Keeps Canonical := h
  split
  · split
    · exact h1
    · split
      · rename_i s1 e1
        have h2 := keeps_of_eq (Canonical.exportAll h) e1
        exact h2
      · exact h1
      · trivial
      · trivial
  · split
    · exact h1
    · split
      · rename_i s1 e1
        have h2 := keeps_of_eq (Canonical.exportAll h) e1
        exact Canonical.putPieces h2
      · exact h1
      · trivial
      · trivial
  · extract_lets +onlyGivenNames t
    split
    · exact h1
    · split
      · rename_i s1 e1
        have h2 := keeps_of_eq (Canonical.exportAt h) e1
        exact keeps_ite h1 (Canonical.atomAt h2)
      · exact h1
      · trivial
      · trivial

theorem Canonical.ingressDo {k : PairKey} {p : FabPacket} {s : State} (h : Canonical s) : (ingressDo k p s).Keeps Canonical := by
  unfold Machine.ingressDo
  extract_lets +onlyGivenNames next
  have h1 : ∀ (t : State), Canonical t → Canonical (next t) := fun s1 h1 => h1
  split
  · rename_i s1 e1
    have h2 := keeps_of_eq (Canonical.fabPerform h) e1
    exact keeps_ite h (h1 _ h2)
  · rename_i s1 e1
    have h2 := keeps_of_eq (Canonical.fabPerform h) e1
    exact h1 _ h2
  · exact Canonical.enqueue h
  · exact Canonical.enqueue h

theorem Canonical.ingressDrain {k : PairKey} {x1 : Nat} {x2 : State} (h : Canonical x2) : Canonical (ingressDrain k x1 x2).2 := by
  induction x1 generalizing x2 with
  | zero => exact h
  | succ n ih =>
    unfold Machine.ingressDrain
    split
    · exact h
    · split
      · exact h
      · extract_lets +onlyGivenNames drop r
        have h1 : ∀ (t : State), Canonical t → Canonical (drop t) := fun s1 h1 => h1
        have h2 : r.Keeps Canonical := by
          unfold r
          split
          · split
            · rename_i s1 e1
              have h2 := keeps_of_eq (Canonical.fabPerform h) e1
              exact h2
            · exact h
            · exact h
          · split
            · rename_i s1 e1
              have h2 := keeps_of_eq (Canonical.ingressDo h) e1
              exact h2
            · exact Canonical.ingressDo h
        clear_value r
        split
        · exact h2
        · exact ih (h1 _ h2)

theorem Canonical.ingressHold {k : PairKey} {p : FabPacket} {s : State} (h : Canonical s) : Canonical (ingressHold k p s).2 :=
  keeps_ite_snd h h

theorem Canonical.ingressRead {k : PairKey} {tag : BitVec 64} {p : FabPacket} {s : State} (h : Canonical s) : Canonical (ingressRead k tag p s).2 :=
    by
  unfold Machine.ingressRead
  extract_lets +onlyGivenNames s1 hold
  have h1 : Canonical s1 := h
  split
  · exact .ingressHold h1
  · split
    · rename_i s2 e1
      have h2 := keeps_of_eq (Canonical.fabPerform h1) e1
      exact h2
    · exact .enqueue h1
    · exact .enqueue h1

theorem Canonical.ingressRun {k : PairKey} {tag : BitVec 64} {s : State} (h : Canonical s) : OptKeeps Canonical (ingressRun k tag s) := by
  unfold Machine.ingressRun
  split
  · exact h
  · split
    · exact keeps_ite h h
    · exact keeps_ite trivial h

theorem Canonical.ingressOp {k : PairKey} {tag : BitVec 64} {p : FabPacket} {s : State} (h : Canonical s) : Canonical (ingressOp k tag p s).2 := by
  unfold Machine.ingressOp
  split
  · exact h
  · rename_i s1 e1
    have h1 := keeps_of_eq (Canonical.ingressRun h) e1
    split
    · exact h1
    · split
      · exact h1
      · extract_lets +onlyGivenNames s2 d
        have h2 : Canonical s2 := h1
        split
        · split
          · rename_i s3 e2
            have h3 := keeps_of_eq (Canonical.ingressDo h2) e2
            exact h3
          · rename_i s3 e2
            have h3 := keeps_of_eq (Canonical.ingressDo h2) e2
            exact .ingressDrain h3
        · split
          · exact keeps_ite_snd h2 (.ingressHold h2)
          · split
            · exact h2
            · exact h2

theorem Canonical.ingress {p : FabPacket} {s : State} (h : Canonical s) : Canonical (ingress p s).2 := by
  unfold Machine.ingress
  split
  · split
    · rename_i s1 e1
      have h1 := keeps_of_eq (Canonical.fabPerform h) e1
      exact h1
    · exact .enqueue h
    · exact .enqueue h
  · exact keeps_ite_snd (.ingressRead h) (.ingressOp h)

/-! ### Machine/Respond -/

theorem Canonical.answerPart {s : State} {p : Packet} {f : LoadPart → LoadPart} (h : Canonical s) : Canonical (s.answerPart p f) := by
  unfold State.answerPart
  split
  · exact h
  · exact h

theorem Canonical.failPacket {s : State} {p : Packet} (h : Canonical s) : Canonical (s.failPacket p) := by
  unfold State.failPacket
  split
  · exact h
  · exact .answerPart h

theorem Canonical.selfRead {s : State} {l : OutLoad} {p : LoadPart} {x : Nat} (h : Canonical s) : (selfRead s l p x).Keeps Canonical := by
  unfold Machine.selfRead
  extract_lets ask block
  have h1 : ∀ x n f, (ask x n f).Keeps Canonical := by
    intro x n f
    unfold ask
    split
    · rename_i e
      have h1 := keeps_of_eq (Canonical.fabPerform h) e
      exact h1
    · rename_i e
      have h1 := keeps_of_eq (Canonical.fabPerform h) e
      exact h1
    all_goals trivial
  have h2 : ∀ f, (block f).Keeps Canonical := fun f => h1 _ _ f
  clear_value ask block
  split
  · exact h2 _
  · exact h2 _
  · exact keeps_ite (h2 _) (h1 _ _ _)
  · exact h1 _ _ _

theorem Canonical.selfAll {l : OutLoad} {x1 : List LoadPart} {x2 : State} (h : Canonical x2) : Canonical (selfAll l x1 x2).2 := by
  induction x1 generalizing x2 with
  | nil => exact h
  | cons a as ih =>
    unfold Machine.selfAll
    extract_lets +onlyGivenNames r rest
    have h1 : Canonical r.2 := by
      unfold r
      split
      · split
        · exact h
        · split
          · rename_i s1 e1
            have h1 := keeps_of_eq (Canonical.selfRead h) e1
            exact h1
          · exact h
          · exact h
      · exact h
    exact ih h1

theorem Canonical.backTo {l : OutLoad} {s : State} (h : Canonical s) : Canonical (backTo l s) :=
  keeps_ite h (keeps_ite h h)

theorem Canonical.markFail {l : OutLoad} {s : State} (h : Canonical s) : Canonical (markFail l s) := by
  unfold Machine.markFail
  extract_lets +onlyGivenNames bad
  split
  · exact h
  · split
    · exact .putView h
    · exact h

theorem Canonical.deliverLoad {l : OutLoad} {rs : List (Nat × Nat × Flags × Option (BitVec 24))} {s : State} (h : Canonical s) : Canonical
    (deliverLoad l rs s) := by
  unfold Machine.deliverLoad
  split
  · exact h
  · exact keeps_ite (keeps_ite (.acquire h) h) (.putView (keeps_ite (.acquire h) h))

theorem Canonical.copyArrived {l : OutLoad} {s : State} (h : Canonical s) : Canonical (copyArrived l s) := by
  unfold Machine.copyArrived
  extract_lets +onlyGivenNames cl
  split
  · exact h
  · exact keeps_ite (.finishCopy h) h

theorem Canonical.completeLoad {l : OutLoad} {s : State} (h : Canonical s) : Canonical (completeLoad l s) := by
  unfold Machine.completeLoad
  extract_lets +onlyGivenNames s1
  have h1 : Canonical s1 := h
  split
  · exact .copyArrived h1
  · extract_lets +onlyGivenNames s2 failed t
    have h2 : Canonical s2 := h1
    extract_lets +onlyGivenNames t1
    extract_lets +onlyGivenNames s3
    have h3 : Canonical s3 := by
      unfold s3
      split
      · exact .takeFaultAt (.backTo h2)
      · split
        · exact .takeFaultAt (.backTo h2)
        · exact keeps_ite (.mapWarp (.markFail h2)) (.deliverLoad (.markFail h2))
    exact h3

theorem Canonical.localParts {l : OutLoad} {s : State} (h : Canonical s) : (localParts l s).Keeps Canonical := by
  unfold Machine.localParts
  extract_lets +onlyGivenNames dead ps all todo s1 acc
  have h1 : Canonical s1 := keeps_ite h h
  split
  · trivial
  · split
    · trivial
    · trivial
    · rename_i s2 e1
      have h2 := keeps_of_eq (Canonical.readAll h1) e1
      exact h2

theorem Canonical.execMemoryResponse {n : Nat} {data : List FabAnswer} {s : State} (h : Canonical s) : (execMemoryResponse n data s).Keeps Canonical := by
  unfold Machine.execMemoryResponse
  split
  · exact h
  · extract_lets +onlyGivenNames own parts answered hit s1
    have h1 : Canonical s1 := by
      unfold s1
      split
      · refine keeps_foldl h ?_
        intro s2 a1 h1
        split
        · exact .sendMsg h1
        · exact h1
      · exact h
    split
    rename_i s2 e1
    have h2 := Canonical.snd (.selfAll h1) e1
    split
    rename_i s3 e2
    have h3 := Canonical.snd (.sendParts h2) e2
    extract_lets +onlyGivenNames l keep
    have h4 : ∀ (l : OutLoad) (s : State), Canonical s → Canonical (keep l s) := fun _ s4 h4 => h4
    split
    · exact h4 _ _ h3
    · exact h4 _ _ h3
    · exact Canonical.takeFaultAt (.backTo h3)
    · rename_i s4 e3
      have h5 := keeps_of_eq (Canonical.localParts h3) e3
      exact keeps_ite (h4 _ _ h5) (.completeLoad h5)

/-! ### Machine/WatchInstr -/

theorem Canonical.execWset {x : Enc} {s : State} (h : Canonical s) : (execWset x s).Keeps Canonical := by
  unfold Machine.execWset
  refine Canonical.issueS h ?_
  intro a1
  extract_lets +onlyGivenNames m
  split
  · exact .takeFault h
  · split
    · exact .takeFault h
    · exact keeps_ite (.takeFault h) (keeps_ite (.stall (keeps_foldl h fun s1 _ h1 => .recallGuest h1)) (.retire h))

/-! ### Machine/Guest -/

theorem Canonical.guestTry {site : Nat} {c : GuestCmd} {s : State} (h : Canonical s) : Canonical (guestTry site c s) := by
  unfold Machine.guestTry
  split
  · exact h
  · exact .endGuest h
  · exact keeps_ite h (keeps_ite (.endGuest h) (keeps_ite h (.updSite (.send (keeps_ite (.acquire h) h)))))

theorem Canonical.execGpost {x : Enc} {s : State} (h : Canonical s) : (execGpost x s).Keeps Canonical := by
  unfold Machine.execGpost
  refine Canonical.issue h ?_
  intro a1
  extract_lets +onlyGivenNames w
  split
  · extract_lets +onlyGivenNames off va
    split
    · exact .takeFaultAt h
    · exact .finish h
    · split
      · exact .takeFaultAt h
      · extract_lets +onlyGivenNames scr img op
        split
        · exact .takeFaultAt h
        · split
          · exact .takeFaultAt h
          · split
            rename_i s1 e1
            have h1 := Canonical.snd h e1
            exact .guestTry (.retire (.mapWarp h1))
  · exact .finish h

theorem Canonical.deliverGuest {p : Packet} {site : Nat} {pkt : BitVec 512} {s : State} (h : Canonical s) : Canonical (deliverGuest p site pkt s) :=
  .updSite (.siteSend (keeps_ite h h))

theorem Canonical.poisonBlock {s : State} {b : Nat} (h : Canonical s) : Canonical (s.poisonBlock b) :=
  .note (.setPoison h _)

theorem Canonical.fenceSite {n : Nat} {s : State} (h : Canonical s) : Canonical (fenceSite n s) := by
  unfold Machine.fenceSite
  extract_lets +onlyGivenNames x s1 held s2 s3 here s4 s5
  have h1 : Canonical s1 := h
  have h2 : Canonical s2 := keeps_foldl h1 fun s6 _ h2 => .updFrag (keeps_foldl h2 fun s7 _ h3 => .loseResv (.poisonBlock h3) _)
  have h3 : Canonical s3 := keeps_foldl h2 fun s6 _ h3 => .endGuest h3
  have h4 : Canonical s4 := h3
  have h5 : Canonical s5 := keeps_foldl h4 fun s6 _ h5 => .ackPacket (keeps_ite h5 (.failPacket h5))
  exact h5

theorem Canonical.guestPacket {site op : Nat} {p : BitVec 512} {s : State} {k : Site → State} (h : Canonical s) (hk : ∀ (a : Site), Canonical (k a)) :
    (guestPacket site op p s k).Keeps Canonical :=
  keeps_ite h (keeps_ite h (hk _))

theorem Canonical.terminate {site op : Nat} {p : BitVec 512} {s : State} {f : GuestCmd → State → State} (h : Canonical s)
    (hf : ∀ (a : GuestCmd) (a_1 : State), Canonical a_1 → Canonical (f a a_1)) : (terminate site op p s f).Keeps Canonical := by
  unfold Machine.terminate
  refine Canonical.guestPacket h ?_
  intro a1
  split
  · exact keeps_ite (.fenceSite h) (hf _ _ h)
  · exact .fenceSite h

theorem Canonical.execGuestFault {site : Nat} {pkt : BitVec 512} {s : State} (h : Canonical s) : (execGuestFault site pkt s).Keeps Canonical := by
  unfold Machine.execGuestFault
  refine Canonical.terminate h ?_
  intro a1 s1 h1
  extract_lets +onlyGivenNames addr
  split
  · exact .engineFault (.endGuest h1)
  · extract_lets +onlyGivenNames hit s2
    have h2 : Canonical s2 := h1
    clear_value hit
    split
    · exact .engineFault h2
    · exact .engineFault h2

theorem Canonical.preemptReply {site op : Nat} {p : BitVec 512} {s : State} {st : GuestSt} (h : Canonical s) : (preemptReply site op p s st).Keeps Canonical :=
    by
  unfold Machine.preemptReply
  refine Canonical.guestPacket h ?_
  intro a1
  split
  · exact h
  · exact h

theorem Canonical.preemptAll {mine : Nat → Bool} {s : State} (h : Canonical s) : Canonical (preemptAll mine s) :=
  keeps_foldl h fun _ _ h1 => keeps_foldl h1 fun _ _ h2 => h2

theorem Canonical.unpreemptAll {mine : Nat → Bool} {s : State} (h : Canonical s) : Canonical (unpreemptAll mine s) := by
  unfold Machine.unpreemptAll
  refine keeps_foldl h fun s1 p h1 => keeps_foldl h1 fun s2 c h2 => ?_
  extract_lets go
  have hg : ∀ pkt, Canonical (go pkt) := fun pkt => by unfold go; exact h2
  cases c.st with
  | saved t => exact hg _
  | discarded => exact hg _
  | _ => exact h2

theorem Canonical.execXlateReq {site : Nat} {pkt : BitVec 512} {s : State} (h : Canonical s) : (execXlateReq site pkt s).Keeps Canonical := by
  unfold Machine.execXlateReq
  refine Canonical.guestPacket h ?_
  intro a1
  extract_lets +onlyGivenNames va acc ctx answer
  have h1 : ∀ (s : State), Canonical s → ∀ (status payload : Nat), Canonical (answer s status payload) := fun s1 h1 _ _ => h1
  split
  · exact h1 _ h _ _
  · split
    · exact h1 _ h _ _
    · split
      · exact .enqueue h
      · exact .enqueue h
      · exact h1 _ h _ _
      · split
        · exact keeps_ite (h1 _ h _ _) (.updSite (h1 _ h _ _))
        · exact h1 _ h _ _

theorem Canonical.execInvAck {site : Nat} {pkt : BitVec 512} {s : State} (h : Canonical s) : (execInvAck site pkt s).Keeps Canonical := by
  unfold Machine.execInvAck
  refine Canonical.guestPacket h ?_
  intro a1
  extract_lets +onlyGivenNames num is
  split
  · exact h
  · exact h

theorem Canonical.invalidateGuests {scope ctx va size : Nat} {s : State} (h : Canonical s) : Canonical (invalidateGuests scope ctx va size s).2 :=
  keeps_foldl h fun _ _ h1 => keeps_ite h1 h1

theorem Canonical.execGrantExpire {site : Nat} {s : State} (h : Canonical s) : (execGrantExpire site s).Keeps Canonical :=
  keeps_ite h h

theorem Canonical.dropGuestClaims {site ctx : Nat} {fs : List Frag} {s : State} (h : Canonical s) : Canonical (dropGuestClaims site ctx fs s) :=
  .updSite (keeps_foldl h fun _ _ h1 => .endHolder h1)

theorem Canonical.grantGuest {site ctx lease : Nat} {write : Bool} {pts0 : BitVec 24} {fs : List Frag} {s : State} (h : Canonical s) : Canonical
    (grantGuest site ctx lease write pts0 fs s) := by
  unfold Machine.grantGuest
  extract_lets +onlyGivenNames p0 fs1 t s1
  have h1 : Canonical s1 := h
  refine keeps_foldl h1 ?_
  intro s2 a1 h2
  split
  rename_i s3 e1
  have h3 := Canonical.snd (keeps_ite_snd h2 h2) e1
  exact h3

theorem Canonical.execClaimReq {site : Nat} {pkt : BitVec 512} {s : State} (h : Canonical s) : (execClaimReq site pkt s).Keeps Canonical := by
  unfold Machine.execClaimReq
  refine Canonical.guestPacket h fun x => ?_
  extract_lets +onlyGivenNames ctx kind answer
  have ha : ∀ t ver status, Canonical t → Canonical (answer t ver status) := fun _ _ _ ht => ht
  split
  · exact ha _ _ _ h
  · extract_lets s1 fs s2 more held s3 s4
    have h1 : Canonical s1 := .visitHandle h
    have h2 : Canonical s2 := .dropGuestClaims h1
    have h4 : Canonical s4 := keeps_foldl (Canonical.grantGuest h1) fun _ _ ht => .touch ht _ _
    have hq : Canonical (s1.enqueue (.claimReq site pkt)) := .enqueue h1
    have hr : ∀ fs : List Frag, Canonical (fs.foldl (fun s f => s.askRecall f.id) (s1.enqueue (.claimReq site pkt))) :=
      fun _ => keeps_foldl hq fun _ _ ht => ht
    clear_value answer s1 s2 s4
    refine keeps_ite (P := Canonical) (ha _ _ _ h2) (keeps_ite (ha _ _ _ h1) (keeps_ite (ha _ _ _ h1) (keeps_ite hq ?_)))
    exact keeps_ite (hr _) (ha _ _ _ h4)

theorem Canonical.execWritebackDone {f : Nat} {s : State} (h : Canonical s) : (execWritebackDone f s).Keeps Canonical := by
  unfold Machine.execWritebackDone
  split
  · split
    · exact h
    · split
      · exact keeps_ite h (Canonical.note (.recallHolder h))
      · split
        · exact Canonical.recallGuest h
        · exact Canonical.recallHolder h
      · exact h
  · exact h

theorem Canonical.refuseGuest {site pa : Nat} {watched : Bool} {s : State} (h : Canonical s) : Canonical (refuseGuest site pa watched s) := h

theorem Canonical.execGuestRequest {site ctx pa : Nat} {acc : GuestAcc} {s : State} (h : Canonical s) :
    (execGuestRequest site ctx pa acc s).Keeps Canonical := by
  unfold Machine.execGuestRequest
  extract_lets +onlyGivenNames x n k
  split
  · exact keeps_ite h (.refuseGuest h)
  · split
    · exact h
    · extract_lets +onlyGivenNames ok
      split
      · exact Canonical.fenceSite (.refuseGuest h)
      · extract_lets +onlyGivenNames b passes
        split
        · exact Canonical.updSite (.refuseGuest h)
        · split
          · exact Canonical.enqueue h
          · split
            · exact Canonical.enqueue (.askRecall h)
            · extract_lets +onlyGivenNames own s1 s2
              have h1 : Canonical s1 := (Canonical.updSite h).touch _ _
              have h2 : Canonical s2 := by
                refine keeps_ite ?_ h1
                split
                · exact .updFrag h1
                · exact h1
              split
              · exact Canonical.updSite (keeps_ite h2 (.plainLoad h2))
              · exact Canonical.homeWrite (keeps_ite h2 (.plainStore h2)) _ _ _ _

theorem Canonical.execGuestDeadline {site : Nat} {s : State} (h : Canonical s) : (execGuestDeadline site s).Keeps Canonical :=
  keeps_ite (Canonical.fenceSite h) h

theorem Canonical.execSiteResetHoldEnd {site : Nat} {s : State} (h : Canonical s) : (execSiteResetHoldEnd site s).Keeps Canonical :=
  keeps_ite h h

theorem Canonical.execSiteTrainingTimeout {site : Nat} {s : State} (h : Canonical s) : (execSiteTrainingTimeout site s).Keeps Canonical :=
  keeps_ite h h

end Sys2Proof
end

-- ==== Sys2Proof/Proofs/CanonicalSched.lean ====
/-!
# Placement, launches, park frames and system registers keep the canonical form

One lemma per function of the model, in the model's order.
-/
section
namespace Sys2Proof
open Machine

/-! ### Machine/Place -/

theorem Canonical.makeReserve {s : State} {q : QRec} {die : Nat} (h : Canonical s) : Canonical (makeReserve s q die) := by
  unfold Machine.makeReserve
  extract_lets +onlyGivenNames others w
  split
  · exact h
  · split
    · exact h
    · split
      · exact h
      · exact .endReserves h

theorem Canonical.setFusion {s : State} {cl : Nat} {fuse : Bool} (h : Canonical s) : Canonical (s.setFusion cl fuse) :=
  keeps_ite h (.updCluster (.writeBack h) _ _)

theorem Canonical.placeGroupAt {d : Dispatch} {gang : Option (Nat × Nat)} {o : Occ} {s : State} (h : Canonical s) :
    Canonical (placeGroupAt d gang o s) := by
  unfold Machine.placeGroupAt
  extract_lets +onlyGivenNames cl gid slots
  split
  rename_i n s1 e1
  have h1 := Canonical.snd (Canonical.draw h) e1
  extract_lets s2 ring g own s3 s4
  have h2 : Canonical s2 := .touchDie (.setFusion h1)
  have h3 : Canonical s3 := by
    unfold s3
    have hg : Canonical { s2 with groups := s2.groups.insert gid g } := h2
    exact hg.wrCells _
  have h4 : Canonical s4 := .l1Acquire (.updCluster h3 _ _)
  exact .setClock h4

theorem Canonical.placeTask {d : Dispatch} {os : List Occ} {s : State} (h : Canonical s) : Canonical (placeTask d os s).2 := by
  unfold Machine.placeTask
  extract_lets gids
  split
  · split
    · exact .placeGroupAt h
    · exact h
  · split
    rename_i gi s1 e1
    have h1 := Canonical.snd (Canonical.fresh h) e1
    extract_lets first r s2
    have h2 : Canonical s2 := keeps_foldl (P := fun a : State × List (Nat × Nat) => Canonical a.1) h1 fun _ _ ha => .placeGroupAt ha
    exact h2.congr rfl rfl rfl

/-! ### Machine/Sched -/

/-- A side that cannot be located stops without a state. -/
def SideKeeps : Except AssayCopy (List (Int × Acc)) → Prop
  | .ok _ => True
  | .error e => e.Keeps Canonical

theorem SideKeeps.assaySide {s : State} {w : Who} {acc : Nat} {l : List (Int × Int)} : SideKeeps (assaySide s w acc l) := by
  induction l with
  | nil => trivial
  | cons p l ih =>
    unfold Machine.assaySide
    split
    · trivial
    · trivial
    · trivial
    · split
      · trivial
      · split
        · trivial
        · trivial
        · split
          · trivial
          · exact ih

theorem Canonical.assayCopy {w : Who} {src dst : BitVec 512} {s : State} (h : Canonical s) : (assayCopy w src dst s).Keeps Canonical := by
  unfold Machine.assayCopy
  extract_lets per pairs
  split
  · rename_i e _ he
    have h1 := keeps_of_eq SideKeeps.assaySide he
    exact h1
  · rename_i e he _
    have h1 := keeps_of_eq SideKeeps.assaySide he
    exact h1
  · have h1 : ∀ ss : List (Int × Acc), Canonical (ss.foldl (fun t p => t.plainLoad (.cluster w.cl) p.2.pa) s) :=
      fun _ => keeps_foldl h fun _ _ ht => .plainLoad ht
    exact keeps_foldl (h1 _) fun _ _ ht => .storeBlock ht

theorem Canonical.assayCopies {w : Who} {x1 : List (BitVec 512 × BitVec 512)} {x2 : State} (h : Canonical x2) : (assayCopies w x1 x2).Keeps Canonical := by
  induction x1 generalizing x2 with
  | nil => exact h
  | cons a as ih =>
    unfold Machine.assayCopies
    split
    · rename_i s1 e1
      have h1 := keeps_of_eq (Canonical.assayCopy h) e1
      exact ih h1
    · exact Canonical.assayCopy h

theorem Canonical.assayHit {s : State} {w : Who} {e : Assay} {outs : List Handle} {miss : PureRes} (h : Canonical s) (hmiss : miss.Keeps Canonical) :
    (assayHit s w e outs miss).Keeps Canonical := by
  unfold Machine.assayHit
  extract_lets +onlyGivenNames s1
  have h1 : Canonical s1 := h
  split
  · exact h1
  · extract_lets +onlyGivenNames recs
    split
    · exact hmiss
    · split
      · rename_i s2 e1
        have h2 := keeps_of_eq (Canonical.assayCopies h1) e1
        exact h2
      · exact hmiss
      · trivial
      · trivial

theorem Canonical.dispatchPure {s : State} {q : QRec} {cl : Nat} (h : Canonical s) : (dispatchPure s q cl).Keeps Canonical := by
  unfold Machine.dispatchPure
  extract_lets +onlyGivenNames w bad
  have h1 : ∀ (id : Nat) (l : Option (List Nat × List Nat)), (bad id l).Keeps Canonical := fun _ _ => trivial
  split
  · trivial
  · trivial
  · trivial
  · trivial
  · exact h1 _ _
  · trivial
  · split
    · exact h1 _ _
    · split
      · exact h1 _ _
      · extract_lets +onlyGivenNames hi ho
        split
        · trivial
        · extract_lets +onlyGivenNames d meas miss
          have h4 : miss.Keeps Canonical := trivial
          split
          split
          · exact h4
          · split
            · exact Canonical.assayHit h h4
            · exact h4

theorem Canonical.retirePure {s : State} {q : QRec} {cl : Nat} (h : Canonical s) : (retirePure s q cl).Keeps Canonical := by
  unfold Machine.retirePure
  split
  rename_i s1 e1
  have h1 := Canonical.snd h e1
  exact Canonical.completeTask (.leaveSeam h1)

theorem Canonical.dispatchTask {s : State} {q : QRec} {os : List Occ} (h : Canonical s) : Canonical (dispatchTask s q os).1 := by
  unfold Machine.dispatchTask
  extract_lets +onlyGivenNames cl go
  have h1 : ∀ (p : Option Machine.Pure), Canonical (go p).2 := fun _ => .placeTask (.leaveSeam h)
  split
  · exact h1 _
  · split
    · exact h
    · exact h
    · exact h1 _
    · split
      rename_i s1 e1
      have h2 := Canonical.snd (h1 _) e1
      exact h2
    · rename_i s1 e1
      have h2 := keeps_of_eq (Canonical.dispatchPure h) e1
      split
      · rename_i s2 e2
        have h3 := keeps_of_eq (Canonical.retirePure h2) e2
        exact h3
      · exact h
      · exact h

theorem Canonical.passRest {die : Nat} {x1 : List QRec} {x2 : State} (h : Canonical x2) : Canonical (passRest die x1 x2).1 := by
  induction x1 generalizing x2 with
  | nil => exact h
  | cons a as ih =>
    unfold Machine.passRest
    split
    · exact .dispatchTask h
    · exact ih (.makeReserve h)

theorem Canonical.keepPass {s : State} {die part : Nat} {rest : List QRec} {next : Nat} (h : Canonical s) : Canonical (s.keepPass die part rest next)
    := h

theorem Canonical.endPass {s : State} {die part : Nat} (h : Canonical s) : Canonical (s.endPass die part) := h

theorem Canonical.passTail {s : State} {die part : Nat} (h : Canonical s) : Canonical (passTail s die part) := by
  unfold Machine.passTail
  split
  · exact h
  · exact keeps_ite (.keepPass (.dispatchTask h)) (.endPass (.dispatchTask h))

theorem Canonical.execPlacementPass {die part : Nat} {s : State} (h : Canonical s) : (execPlacementPass die part s).Keeps Canonical := by
  unfold Machine.execPlacementPass
  split
  · exact h
  · split
    · exact h
    · split
      · rename_i s1 _ e1
        have h1 := Canonical.fst (.passRest h) e1
        exact h1
      · rename_i s1 _ e1
        have h1 := Canonical.fst (.passRest h) e1
        exact h1
      · rename_i s1 e1
        have h1 := Canonical.fst (.passRest h) e1
        exact Canonical.passTail h1

theorem Canonical.execLaunchAccept {part : Nat} {s : State} (h : Canonical s) : (execLaunchAccept part s).Keeps Canonical := by
  unfold Machine.execLaunchAccept
  extract_lets +onlyGivenNames p
  split
  · exact h
  · split
    · exact h
    · extract_lets +onlyGivenNames pop
      have h1 : ∀ (s : State), Canonical s → Canonical (pop s) := fun s1 h1 => h1
      split
      · exact h
      · exact h
      · exact Canonical.updPart (h1 _ h)
      · extract_lets +onlyGivenNames r
        split
        · exact h
        · exact h
        · exact h
        · exact Canonical.congr (.fresh (h1 _ h)) rfl rfl rfl

theorem Canonical.execStepStart {launch : Nat} {s : State} (h : Canonical s) : (execStepStart launch s).Keeps Canonical := by
  unfold Machine.execStepStart
  split
  · exact h
  · split
    · exact h
    · split
      extract_lets +onlyGivenNames min
      split
      · exact keeps_ite h h
      · extract_lets +onlyGivenNames load D step now s1
        have h1 : Canonical s1 := h
        refine keeps_foldl h1 ?_
        intro s2 a1 h2
        extract_lets +onlyGivenNames seam
        split
        rename_i s3 e1
        have h3 := Canonical.snd h2 e1
        exact .putRec h3

theorem Canonical.execLaunchEnd {launch : Nat} {s : State} (h : Canonical s) : (execLaunchEnd launch s).Keeps Canonical := by
  unfold Machine.execLaunchEnd
  split
  · exact h
  · split
    · exact h
    · extract_lets +onlyGivenNames fin s1
      have h1 : ∀ (s : State), Canonical s → Canonical (fin s) := fun s2 h1 => keeps_ite h1 h1
      have h2 : Canonical s1 := h
      split
      · exact h1 _ h
      · split
        · exact h1 _ h2
        · extract_lets +onlyGivenNames w
          split
          · rename_i s2 e1
            have h3 := keeps_of_eq (Canonical.hubWrite h) e1
            exact h1 _ h3
          · exact h1 _ h2
          · exact h
          · exact h

/-! ### Machine/Park -/

theorem Canonical.withdrawGroup {s : State} {gid : Nat} (h : Canonical s) : Canonical (s.withdrawGroup gid) := h

theorem Canonical.parkNow {s : State} {gid : Nat} {f : FaultRec} (h : Canonical s) : Canonical (s.parkNow gid f) :=
  .updGroup (.withdrawGroup h) _ _

theorem Canonical.execFaultPark {gid : Nat} {s : State} (h : Canonical s) : (execFaultPark gid s).Keeps Canonical := by
  unfold Machine.execFaultPark
  split
  · exact keeps_ite (Canonical.parkNow h) h
  · exact h

theorem Canonical.writeFrame {s : State} {g : Group} {f : FaultRec} (h : Canonical s) : (writeFrame s g f).Keeps Canonical := by
  unfold Machine.writeFrame
  extract_lets +onlyGivenNames c l n
  split
  · trivial
  · extract_lets +onlyGivenNames va
    split
    · trivial
    · trivial
    · trivial
    · extract_lets +onlyGivenNames blocks
      split
      · trivial
      · trivial
      · trivial
      · split
        rename_i free s1 e1
        have h1 := Canonical.snd (Canonical.draw h) e1
        extract_lets body scr s2 s3 win s4 s5 past s6
        have h2 : Canonical s2 := keeps_foldl h1 fun _ _ ht => ht.touch _ _
        have h3 : Canonical s3 := .hubStore h2
        have h4 : Canonical s4 := keeps_foldl h3 fun _ _ ht => ht.setDesc _ _
        have h5 : Canonical s5 := keeps_foldl h4 fun _ _ ht => ht.setPoison _
        have h6 : Canonical s6 := h5
        exact h6.updGroup _ _

theorem Canonical.kAlarm {s : State} {ctx part : Nat} (h : Canonical s) : Canonical (s.kAlarm ctx part) :=
  keeps_ite h h

theorem Canonical.handlerFor {s : State} {g : Machine.Group} {f : FaultRec} (h : Canonical s) : (handlerFor s g f).Keeps Canonical := by
  unfold Machine.handlerFor
  extract_lets +onlyGivenNames a
  split
  · exact h
  · split
    · rename_i s1 e1
      have h1 := keeps_of_eq (Canonical.hubRead h) e1
      exact h1
    · exact h
    · trivial
    · trivial

theorem Canonical.enqueueHandler {s : State} {g : Machine.Group} {r : BitVec 512} {frame : BitVec 64} (h : Canonical s) : Canonical
    (s.enqueueHandler g r frame) := by
  unfold State.enqueueHandler
  extract_lets +onlyGivenNames r1 seam
  split
  rename_i s1 e1
  have h1 := Canonical.snd h e1
  exact .putRec h1

theorem Canonical.execParkFrameWrite {gid : Nat} {s : State} (h : Canonical s) : (execParkFrameWrite gid s).Keeps Canonical := by
  unfold Machine.execParkFrameWrite
  split
  · exact h
  · split
    · extract_lets +onlyGivenNames alarm
      have h1 : ∀ (s : State), Canonical s → Canonical (alarm s) := fun s1 h1 => keeps_ite h1 (.kAlarm h1)
      split
      · exact h
      · split
        · exact h
        · exact h
        · extract_lets +onlyGivenNames s1
          have h2 : Canonical s1 := h
          exact keeps_ite h2 (h1 _ h2)
        · rename_i s1 e1
          have h2 := keeps_of_eq (Canonical.writeFrame h) e1
          split
          · exact h
          · rename_i s2 e2
            have h3 := keeps_of_eq (Canonical.handlerFor h2) e2
            exact h1 _ (.enqueueHandler (keeps_ite h3 h3))
          · rename_i s2 e2
            have h3 := keeps_of_eq (Canonical.handlerFor h2) e2
            exact h1 _ h3
          · exact h
    · exact h

theorem Canonical.wakeCmds {s : State} {g : Machine.Group} {f : FaultRec} (h : Canonical s) : Canonical (s.wakeCmds g f) :=
  keeps_foldl h fun _ _ h1 => keeps_foldl h1 fun _ _ h2 => h2

theorem Canonical.shiftBins {s : State} {gid since : Nat} (h : Canonical s) : Canonical (s.shiftBins gid since) := h

theorem Canonical.endFrame {s : State} {g : Machine.Group} (h : Canonical s) : Canonical (s.endFrame g) := by
  unfold State.endFrame
  split
  · exact h
  · exact h

theorem Canonical.resumeAct {s : State} {g : Machine.Group} (h : Canonical s) : (resumeAct s g).Keeps Canonical := by
  unfold Machine.resumeAct
  split
  · extract_lets +onlyGivenNames l
    split
    · trivial
    · trivial
    · trivial
    · extract_lets +onlyGivenNames rd
      split
      · trivial
      · split
        · trivial
        · exact Canonical.wakeCmds (.resumeGroup (.updGroup (.updCore (.shiftBins (.endFrame h))) _ _))
  · trivial

theorem Canonical.killAct {s : State} {g : Group} (h : Canonical s) : Canonical (killAct s g) := by
  unfold Machine.killAct
  extract_lets cl s1 s2 s3 s4 l s5 s6
  have h2 : Canonical s2 := by
    refine keeps_foldl (.endFrame h) fun t c ht => ?_
    split
    · exact .updInbound ht
    · exact ht
  have h3 : Canonical s3 := .updCluster h2 _ _
  have h4 : Canonical s4 := h3.congr rfl rfl rfl
  have h5 : Canonical s5 := .freeGroup (.state (.leaveGang h4))
  have h6 : Canonical s6 := by
    unfold s6
    split
    · exact .completeGbar h5
    · exact h5
  exact keeps_ite (.closeTask h6) h6

theorem Canonical.frameRequest {x : Enc} {kill : Bool} {refuse : Machine.Group → Option Nat} {s : State} {v : View} (h : Canonical s) : Canonical
    (frameRequest x kill refuse s v) := by
  unfold Machine.frameRequest
  extract_lets +onlyGivenNames w put
  have h1 : ∀ (n : Nat) (s : State), Canonical s → Canonical (put n s) := fun _ s1 h1 => .finish h1
  split
  · exact .stall h
  · split
    · exact h1 _ _ h
    · exact .stallRecall h
    · exact .stall h
    · split
      · exact h1 _ _ h
      · extract_lets +onlyGivenNames s1
        have h2 : Canonical s1 := .acquire h
        split
        · exact h1 _ _ (.killAct h2)
        · split
          · rename_i s2 e1
            have h3 := keeps_of_eq (Canonical.resumeAct h2) e1
            exact h1 _ _ h3
          · exact h1 _ _ h2
          · exact .stallRecall h
          · exact .stall h

theorem Canonical.execPark {x : Enc} {s : State} (h : Canonical s) : (execPark x s).Keeps Canonical := by
  refine Canonical.issueS h fun v => .underWay ?_
  extract_lets +onlyGivenNames w a gid ctx put c
  have hp : ∀ n t, Canonical t → Canonical (put n t) := fun _ _ ht => .finish ht
  split
  · exact .takeFault h
  · split
    · exact .takeFault h
    · split
      · exact hp _ _ h
      · split
        · exact hp _ _ h
        · split
          · split
            · exact hp _ _ h
            · exact keeps_ite (hp _ _ h) (.stall h)
          · exact .stall h
          · extract_lets +onlyGivenNames f
            split
            · exact hp _ _ (h.updGroup _ _)
            · exact .stallRecall h
            · exact .stall h
            · split
              · exact .stall (h.updGroup _ _)
              · extract_lets s1
                have h1 : Canonical s1 := .parkNow h
                split
                · rename_i va s2 e
                  obtain ⟨k, -, e⟩ := Option.map_eq_some_iff.mp e
                  have h2 := keeps_of_eq (Canonical.writeFrame h1) e
                  exact hp _ _ h2
                · exact .stall h

theorem Canonical.restartForeman {cl pa : Nat} {s : State} (h : Canonical s) : Canonical (restartForeman cl pa s) := h

theorem Canonical.unparkWith {kill : Bool} {x : Enc} {s : State} (h : Canonical s) : (unparkWith kill x s).Keeps Canonical := by
  unfold Machine.unparkWith
  refine Canonical.issueS h (fun _ => .underWay ?_)
  extract_lets +onlyGivenNames w a pa
  split
  · split
    · exact .stall h
    · split
      · exact .stallRecall h
      · exact .finish (.restartForeman (.acquire h))
      · exact .stall h
  · exact .frameRequest h

theorem Canonical.enqueueService {s : State} {part : Nat} (h : Canonical s) : (enqueueService s part).Keeps Canonical := by
  unfold Machine.enqueueService
  extract_lets +onlyGivenNames p arm
  have h1 : ∀ (t : State), Canonical t → Canonical (arm t) := fun s1 h1 => h1
  split
  · trivial
  · trivial
  · exact h1 _ h
  · rename_i s1 e1
    have h2 := keeps_of_eq (Canonical.hubRead h) e1
    exact keeps_ite (h1 _ h2) (h1 _ (.putRec h2))

theorem Canonical.execServiceEntryWrite {part : Nat} {s : State} (h : Canonical s) : (execServiceEntryWrite part s).Keeps Canonical := by
  unfold Machine.execServiceEntryWrite
  extract_lets +onlyGivenNames p
  split
  · exact h
  · split
    · exact h
    · split
      · exact h
      · exact h
      · exact h
      · rename_i s1 e1
        have h1 := keeps_of_eq (Canonical.hubWrite h) e1
        extract_lets +onlyGivenNames s2
        have h2 : Canonical s2 := h1
        split
        · split
          · rename_i s3 e2
            have h3 := keeps_of_eq (Canonical.enqueueService h2) e2
            exact h3
          · exact h
          · exact h
        · exact h2

theorem Canonical.execForemanFault {cl : Nat} {s : State} (h : Canonical s) : (execForemanFault cl s).Keeps Canonical := by
  unfold Machine.execForemanFault
  split
  · extract_lets +onlyGivenNames pn k a mark
    have h1 : ∀ (written : Bool) (s : State), Canonical s → Canonical (mark written s) := fun _ s1 h1 => h1
    split
    · exact h1 _ _ h
    · split
      · exact h
      · split
        · rename_i s1 e1
          have h2 := keeps_of_eq (Canonical.hubWrite h) e1
          exact h1 _ _ h2
        · exact h1 _ _ h
        · exact h
        · exact h
  · exact h

theorem Canonical.pauseDogs {s t : State} (h : Canonical t) : Canonical (s.pauseDogs t) :=
  keeps_ite h (keeps_foldl h fun _ _ h2 => h2)

theorem Canonical.execWatchdogHang {gid : Nat} {s : State} (h : Canonical s) : (execWatchdogHang gid s).Keeps Canonical := by
  unfold Machine.execWatchdogHang
  split
  · exact keeps_ite h h
  · exact h

/-! ### Machine/SysReg -/

theorem Canonical.dropClusterClaims {s : State} {cl : Nat} (h : Canonical s) : Canonical (s.dropClusterClaims cl) := by
  unfold State.dropClusterClaims
  refine keeps_foldl h ?_
  intro s1 a1 h1
  split
  · exact .dropClaim h1
  · exact h1

theorem Canonical.emptyCluster {s : State} {cl : Nat} (h : Canonical s) : Canonical (s.emptyCluster cl) :=
  .updCluster (.dropClusterClaims h) _ _

theorem Canonical.dropXlat {s : State} {scope ctx va : Nat} (h : Canonical s) : Canonical (s.dropXlat scope ctx va).2 := by
  unfold State.dropXlat
  extract_lets +onlyGivenNames mine n base
  split
  rename_i s1 e1
  have h1 := Canonical.snd (.invalidateGuests h) e1
  exact keeps_ite_snd h1 h1

theorem Canonical.ctxCreate {s : State} {id : Nat} {r : BitVec 512} (h : Canonical s) : (ctxCreate s id r).Keeps Canonical := by
  unfold Machine.ctxCreate
  split
  rename_i s1 e1
  have h1 := Canonical.snd h e1
  extract_lets +onlyGivenNames s2 att
  have h2 : Canonical s2 := h1
  split
  · exact h
  · split
    · exact h
    · exact h
    · exact h
    · rename_i s3 e2
      have h3 := keeps_of_eq (Canonical.hubRead h2) e2
      extract_lets +onlyGivenNames k
      split
      · exact h
      · split
        · exact h
        · exact Canonical.hubStore h3
        · exact h

theorem Canonical.cmdCtxCreate {s : State} {w : Who} {id : Nat} {r : BitVec 512} (h : Canonical s) : (cmdCtxCreate s w id r).Keeps Canonical :=
  keeps_ite h (keeps_ite h (keeps_ite h (keeps_ite h (keeps_ite h (Canonical.ctxCreate h)))))

theorem Canonical.cmdCtxUpdate {s : State} {w : Who} {id : Nat} {r : BitVec 512} (h : Canonical s) : (cmdCtxUpdate s w id r).Keeps Canonical :=
  keeps_ite h (keeps_ite h (keeps_ite h (keeps_ite h h)))

theorem Canonical.cmdCtxRead {s : State} {w : Who} {id : Nat} (h : Canonical s) : (cmdCtxRead s w id).Keeps Canonical :=
  keeps_ite h h

theorem Canonical.ctxDestroy {s : State} {id : Nat} (h : Canonical s) : (ctxDestroy s id).Keeps Canonical := by
  unfold Machine.ctxDestroy
  extract_lets +onlyGivenNames dying hs drops
  have h1 : ∀ (s : State), Canonical s → Canonical (dying s) := fun s1 h1 => h1
  split
  · exact h1 _ h
  · split
    · exact h1 _ h
    · split
      · rename_i s1 e1
        have h2 := Canonical.snd (.dropXlat h) e1
        exact h1 _ h2
      · rename_i s1 e1
        have h2 := Canonical.snd (.dropXlat h) e1
        extract_lets +onlyGivenNames s2
        have h3 : Canonical s2 := .purgeAssay (keeps_foldl h2 fun s3 _ h3 => .freeHandle h3)
        exact h3

theorem Canonical.cmdCtxDestroy {s : State} {w : Who} {id : Nat} (h : Canonical s) : (cmdCtxDestroy s w id).Keeps Canonical :=
  keeps_ite h (keeps_ite h (keeps_ite h (Canonical.ctxDestroy h)))

theorem Canonical.cmdPartCreate {s : State} {w : Who} {id : Nat} {r : BitVec 512} (h : Canonical s) : (cmdPartCreate s w id r).Keeps Canonical :=
  keeps_ite h (keeps_ite h (keeps_ite h (keeps_ite h h)))

theorem Canonical.cmdPartUpdate {s : State} {w : Who} {id : Nat} {r : BitVec 512} (h : Canonical s) : (cmdPartUpdate s w id r).Keeps Canonical :=
  keeps_ite h (keeps_ite h (keeps_ite h (keeps_ite h (keeps_ite h (keeps_ite h
    (Canonical.updPart (keeps_ite (.endReserves (keeps_foldl h fun _ _ h1 => .emptyCluster h1)) h)))))))

theorem Canonical.cmdPartRead {s : State} {w : Who} {id : Nat} (h : Canonical s) : (cmdPartRead s w id).Keeps Canonical :=
  keeps_ite h h

theorem Canonical.eraseRegions {s : State} {id : Nat} (h : Canonical s) : Canonical (s.eraseRegions id) := h

theorem Canonical.cmdPartDestroy {s : State} {w : Who} {id : Nat} (h : Canonical s) : (cmdPartDestroy s w id).Keeps Canonical := by
  unfold Machine.cmdPartDestroy
  extract_lets +onlyGivenNames p k
  split
  · exact h
  · split
    · exact h
    · split
      · exact h
      · extract_lets +onlyGivenNames fin
        have h1 : ∀ (s : State), Canonical s → Canonical (fin s) := fun s1 h1 =>
          .updPart (.eraseRegions (.congr (keeps_foldl h1 fun s2 _ h2 => .emptyCluster h2) rfl rfl rfl))
        split
        · exact h1 _ h
        · split
          · rename_i s1 e1
            have h2 := keeps_of_eq (Canonical.ctxDestroy h) e1
            exact h1 _ h2
          · exact Canonical.ctxDestroy h

theorem Canonical.sysCommand {w : Who} {cmd : Nat} {hdr img : BitVec 512} {s : State} (h : Canonical s) : (sysCommand w cmd hdr img s).Keeps Canonical := by
  unfold Machine.sysCommand
  split
  · exact h
  · split
    · exact Canonical.cmdCtxCreate h
    · exact Canonical.cmdCtxUpdate h
    · exact Canonical.cmdCtxRead h
    · exact Canonical.cmdCtxDestroy h
    · exact keeps_ite h (Canonical.cmdPartCreate h)
    · exact keeps_ite h (Canonical.cmdPartUpdate h)
    · exact keeps_ite h (Canonical.cmdPartRead h)
    · exact keeps_ite h (Canonical.cmdPartDestroy h)
    · exact h

theorem Canonical.readBlocks {w : Who} {as : List Machine.Acc} {s : State} {k : List (BitVec 512) → State → State} (h : Canonical s)
    (hk : ∀ (a : List (BitVec 512)) (a_1 : State), Canonical a_1 → Canonical (k a a_1)) : Canonical (readBlocks w as s k) := by
  unfold Machine.readBlocks
  split
  · exact .stall h
  · split
    · exact .raise h
    · split
      · exact .stallRecall h
      · exact .stall h
      · rename_i s1 e1
        have h1 := keeps_of_eq (Canonical.readAll (.tlbFill h)) e1
        exact hk _ _ (.acquire h1)

theorem Canonical.sysCmd {x : Enc} {force : Option Nat} {s : State} {v : View} {b : BitVec 64} (h : Canonical s) : Canonical (sysCmd x force s v b) :=
    by
  unfold Machine.sysCmd
  split
  · exact h
  · extract_lets +onlyGivenNames w wants
    split
    · exact .raise h
    · exact .stallRecall h
    · exact .stall h
    · split
      · exact .takeFaultAt h
      · split
        · exact .stall h
        · split
          · exact .stallRecall h
          · exact .stall h
          · refine .readBlocks h fun ds s1 h1 => ?_
            extract_lets +onlyGivenNames hdr
            split
            · rename_i s2 e2
              have h2 := keeps_of_eq (Canonical.sysCommand h1) e2
              exact .stallRecall h2
            · rename_i s2 e2
              have h2 := keeps_of_eq (Canonical.sysCommand h1) e2
              exact .stall h2
            · rename_i img s2 e2
              have h2 := keeps_of_eq (Canonical.sysCommand h1) e2
              extract_lets pts at1 put s3
              have h3 : Canonical s3 := by
                unfold s3
                split
                · exact .storeBlock h2
                · exact h2
              exact .retire (.storeBlock h3)

theorem Canonical.execPrds {x : Enc} {s : State} (h : Canonical s) : (execPrds x s).Keeps Canonical := by
  unfold Machine.execPrds
  refine Canonical.issueS h ?_
  intro a1
  extract_lets +onlyGivenNames w
  split
  · exact .takeFault h
  · exact .finish (keeps_ite (.acquire h) h)

theorem Canonical.pwrsWith {x : Enc} {s : State} (h : Canonical s) : (pwrsWith x s).Keeps Canonical := by
  unfold Machine.pwrsWith
  refine Canonical.issueS h ?_
  intro a1
  extract_lets +onlyGivenNames w i b s1 setPart
  have h1 : Canonical s1 := .takeFault h
  have h2 : ∀ (f : Machine.Part → Machine.Part), Canonical (setPart f) := fun _ => .retire h
  split
  · exact h1
  · clear_value i
    split
    · exact .underWay (.sysCmd h)
    · exact keeps_ite (.takeFault h) (keeps_ite h1 (.retire h))
    · exact keeps_ite h1 (h2 _)
    · extract_lets +onlyGivenNames p
      split
      · exact h1
      · split
        · split
          · rename_i s2 e1
            have h3 := keeps_of_eq (Canonical.enqueueService h) e1
            exact .retire h3
          · exact .stallRecall h
          · exact .stall h
        · exact h2 _
    · exact keeps_ite h1 (h2 _)
    · exact keeps_ite h1 (h2 _)
    · exact keeps_ite (.takeFault h) (keeps_ite h1 (.retire h))
    · exact h1

theorem Canonical.sysRow {cmd : Nat} {x : Enc} {s : State} (h : Canonical s) : (sysRow cmd x s).Keeps Canonical :=
  Canonical.issueS h (fun _ => .underWay (.sysCmd h))

/-! ### Machine/System -/

theorem Canonical.answerWarp {s : State} {g : Machine.Group} {w : Warp} {q : SysWait} {b : BitVec 64} {pts : Option (BitVec 24)} (h : Canonical s) :
    Canonical (answerWarp s g w q b pts) :=
  .acquire h

theorem Canonical.answerForeman {s : State} {cl : Nat} {q : SysWait} {b : BitVec 64} {pts : Option (BitVec 24)} (h : Canonical s) : Canonical
    (answerForeman s cl q b pts) :=
  .updCluster (.acquire h) _ _

theorem Canonical.answerEntry {s : State} {part : Nat} {e : BitVec 512} {b : BitVec 64} {pts : Option (BitVec 24)} (h : Canonical s) :
    OptKeeps Canonical (answerEntry s part e b pts) := by
  unfold Machine.answerEntry
  extract_lets +onlyGivenNames gid reqno waits
  split
  · exact OptKeeps.findSome? fun c _ => OptKeeps.map fun q => .answerForeman h
  · split
    · extract_lets parked
      split
      · trivial
      · exact OptKeeps.bind fun w => OptKeeps.map fun q => .answerWarp h
    · trivial

theorem Canonical.execIret {x : Enc} {s : State} (h : Canonical s) : (execIret x s).Keeps Canonical := by
  unfold Machine.execIret
  refine Canonical.issueS h ?_
  intro a1
  split
  · exact h
  · extract_lets +onlyGivenNames w a put
    have h1 : ∀ (n : Nat) (s : State), Canonical s → Canonical (put n s) := fun _ s1 h1 => .finish h1
    split
    · exact .raise h
    · exact .stallRecall h
    · exact .stall h
    · split
      · exact .stall h
      · split
        · exact h1 _ _ h
        · refine .readBlocks h ?_
          intro a2 s1 h2
          extract_lets +onlyGivenNames e p inRing
          split
          · exact h1 _ _ h2
          · split
            · rename_i s2 e1
              have h3 := keeps_of_eq (Canonical.answerEntry h2) e1
              exact h1 _ _ h3
            · exact h1 _ _ h2

theorem Canonical.withdrawPart {s : State} {part : Nat} (h : Canonical s) : Canonical (withdrawPart s part) :=
  keeps_foldl (.updPart (keeps_foldl h fun _ _ h1 => h1)) fun _ _ h1 => h1

theorem Canonical.execHaltS {x : Enc} {s : State} (h : Canonical s) : (execHaltS x s).Keeps Canonical := by
  unfold Machine.execHaltS
  refine Canonical.issueS h ?_
  intro a1
  split
  · exact .takeFault h
  · exact keeps_ite (.retire h) (keeps_ite (.stall (.preemptAll (keeps_ite h h))) (.retire (.withdrawPart (.preemptAll (keeps_ite h h)))))

theorem Canonical.restartPart {s : State} {p : Nat} (h : Canonical s) : Canonical (restartPart s p) :=
  .unpreemptAll (keeps_foldl h fun _ _ h1 => h1)

theorem Canonical.execHaltC {x : Enc} {s : State} (h : Canonical s) : (execHaltC x s).Keeps Canonical := by
  unfold Machine.execHaltC
  refine Canonical.issueS h ?_
  intro a1
  split
  · exact .takeFault h
  · exact .retire (keeps_ite (.restartPart h) h)

theorem Canonical.moveResult {sizes : List (Nat × Nat)} {n : Nat} {s : State} (h : Canonical s) : Canonical (moveResult sizes n s).2 := h

theorem Canonical.savePart {s : State} {p off : Nat} {sizes : List (Nat × Nat)} (h : Canonical s) : Canonical (savePart s p off sizes) :=
  .updPart (keeps_foldl (.congr (keeps_foldl h fun _ _ h1 => .dropClusterClaims h1) rfl rfl rfl) fun _ _ h1 => h1)

theorem Canonical.execVsave {x : Enc} {s : State} (h : Canonical s) : (execVsave x s).Keeps Canonical := by
  unfold Machine.execVsave
  refine Canonical.issueS h ?_
  intro a1
  extract_lets +onlyGivenNames p b put
  have h1 : ∀ (n : BitVec 64) (s : State), Canonical s → Canonical (put n s) := fun _ s1 h1 => .finish h1
  split
  · exact .takeFault h
  · split
    · exact h1 _ _ h
    · split
      · exact h1 _ _ h
      · split
        rename_i s1 e1
        have h2 := Canonical.snd h e1
        exact keeps_ite (h1 _ _ h2) (keeps_ite (.stall h) (h1 _ _ (.moveResult (.savePart h2))))

theorem Canonical.loadPart {s : State} {p : Nat} {img : VaultImg} (h : Canonical s) : Canonical (loadPart s p img) :=
  .updPart (keeps_foldl h fun _ _ h1 => h1)

theorem Canonical.execVload {x : Enc} {s : State} (h : Canonical s) : (execVload x s).Keeps Canonical := by
  unfold Machine.execVload
  refine Canonical.issueS h ?_
  intro a1
  extract_lets +onlyGivenNames p b put taken
  have h1 : ∀ (n : BitVec 64) (s : State), Canonical s → Canonical (put n s) := fun _ s1 h1 => .finish h1
  split
  · exact .takeFault h
  · split
    · exact h1 _ _ h
    · split
      · exact h1 _ _ h
      · split
        · exact h1 _ _ h
        · exact keeps_ite (h1 _ _ h) (keeps_ite (h1 _ _ h) (h1 _ _ (.moveResult (.loadPart h))))

theorem Canonical.tlblsWith {x : Enc} {scope : Nat} {s : State} (h : Canonical s) : (tlblsWith x scope s).Keeps Canonical := by
  unfold Machine.tlblsWith
  refine Canonical.issueS h (fun _ => .underWay ?_)
  extract_lets +onlyGivenNames w ctx s1
  have h1 : Canonical s1 := by
    unfold s1
    split
    · rename_i s2 e1
      have h1 := Canonical.snd (.dropXlat h) e1
      exact .retire h1
    · rename_i s2 e1
      have h1 := Canonical.snd (.dropXlat h) e1
      exact .stall h1
  exact keeps_ite h1 (keeps_ite (.retire h) (keeps_ite (.takeFault h) h1))

/-! ### Machine/Counters -/

theorem Canonical.tally {s t : State} (h : Canonical t) : Canonical (s.tally t) :=
  keeps_ite h h

theorem Canonical.execPmcfgCtr {x : Enc} {s : State} (h : Canonical s) : (execPmcfgCtr x s).Keeps Canonical := by
  unfold Machine.execPmcfgCtr
  refine Canonical.issueS h ?_
  intro a1
  split
  · exact .takeFault h
  · exact keeps_ite (.takeFault h) (keeps_ite (.takeFault h) (.retire h))

theorem Canonical.pmrdWith {x : Enc} {clr : Bool} {s : State} (h : Canonical s) : (pmrdWith x clr s).Keeps Canonical := by
  unfold Machine.pmrdWith
  refine Canonical.issueS h ?_
  intro a1
  split
  · exact .takeFault h
  · exact .finish (keeps_ite h h)

theorem Canonical.physAddrs {s : State} {acc x1 : Nat} {x2 : BitVec 64} (h : Canonical s) : (physAddrs s acc x1 x2).Keeps Canonical := by
  induction x1 generalizing s x2 with
  | zero => exact h
  | succ n ih =>
    unfold Machine.physAddrs
    split
    · split
      · trivial
      · split
        · trivial
        · split
          · trivial
          · split
            · rename_i s1 e1
              have h1 := keeps_of_eq (ih h) e1
              exact h1
            · exact ih h
    · trivial

theorem Canonical.smpAddrs {s : State} {ctx : Option Nat} {acc n : Nat} {va : BitVec 64} (h : Canonical s) : (smpAddrs s ctx acc n va).Keeps Canonical := by
  unfold Machine.smpAddrs
  split
  · exact Canonical.hubAddrs h
  · exact Canonical.physAddrs h

theorem Canonical.smpWrite {s : State} {ctx : Option Nat} {va : BitVec 64} {bs : List Byte} (h : Canonical s) : (smpWrite s ctx va bs).Keeps Canonical := by
  unfold Machine.smpWrite
  split
  · rename_i s1 e1
    have h1 := keeps_of_eq (Canonical.smpAddrs h) e1
    refine Canonical.hubStore ?_
    split
    · exact keeps_foldl h1 fun s2 _ h2 => .touch h2 _ _
    · exact h1
  · trivial
  · trivial
  · trivial

theorem Canonical.smpStatus {s : State} {u : Sampler} {st : Nat} (h : Canonical s) : (smpStatus s u st).Keeps Canonical :=
  Canonical.smpWrite h

theorem Canonical.stopSmp {s : State} {cl st : Nat} (h : Canonical s) : (stopSmp s cl st).Keeps Canonical := by
  unfold Machine.stopSmp
  split
  · exact h
  · split
    · rename_i s1 e1
      have h1 := keeps_of_eq (Canonical.smpStatus h) e1
      exact h1
    · exact h
    · trivial
    · trivial

theorem Canonical.startSmp {s : State} {w : Who} {cl : Nat} {addr : BitVec 64} {r : BitVec 512} (h : Canonical s) : (startSmp s w cl addr r).Keeps Canonical :=
    by
  unfold Machine.startSmp
  extract_lets +onlyGivenNames u
  split
  · rename_i s1 e1
    have h1 := keeps_of_eq (Canonical.smpStatus h) e1
    exact h1
  · exact h
  · trivial
  · trivial

theorem Canonical.execPmcfgSmp {x : Enc} {s : State} (h : Canonical s) : (execPmcfgSmp x s).Keeps Canonical := by
  unfold Machine.execPmcfgSmp
  refine Canonical.issueS h ?_
  intro a1
  split
  · exact h
  · extract_lets +onlyGivenNames w b
    split
    · exact .takeFault h
    · split
      · split
        · rename_i s1 e1
          have h1 := keeps_of_eq (Canonical.stopSmp h) e1
          exact .retire (.acquire h1)
        · exact .stallRecall h
        · exact .stall h
      · split
        · exact .takeFault h
        · split
          · exact .raise h
          · exact .stallRecall h
          · exact .stall h
          · refine .readBlocks h ?_
            intro a2 s1 h1
            extract_lets +onlyGivenNames r
            split
            · exact .takeFault h
            · split
              · exact .stallRecall h
              · rename_i s2 e1
                have h2 := keeps_of_eq (Canonical.stopSmp h1) e1
                split
                · rename_i s3 e2
                  have h3 := keeps_of_eq (Canonical.startSmp h2) e2
                  exact .retire h3
                · exact .stallRecall h
                · exact .stall h
              · exact .stall h

theorem Canonical.execSamplePoint {cl : Nat} {s : State} (h : Canonical s) : (execSamplePoint cl s).Keeps Canonical := by
  unfold Machine.execSamplePoint
  split
  · exact h
  · extract_lets +onlyGivenNames die
    split
    · exact h
    · extract_lets +onlyGivenNames now later s1
      have h1 : Canonical s1 := by
        unfold s1
        split
        · rename_i s2 e1
          have h1 := keeps_of_eq (Canonical.stopSmp h) e1
          exact h1
        · exact h
        · exact h
      split
      · exact h
      · extract_lets +onlyGivenNames u1 own
        extract_lets +onlyGivenNames own1
        split
        · exact h1
        · exact h
        · exact h
        · extract_lets +onlyGivenNames rd
          split
          · extract_lets +onlyGivenNames u2
            split
            · rename_i s3 e2
              have h3 := keeps_of_eq (Canonical.smpStatus h) e2
              exact Canonical.note (.note h3)
            · exact h1
            · exact h
            · exact h
          · split
            · exact h1
            · exact h
            · exact h
            · rename_i s3 e2
              have h3 := keeps_of_eq (Canonical.smpWrite h) e2
              extract_lets +onlyGivenNames u2
              split
              · rename_i s4 e3
                have h4 := keeps_of_eq (Canonical.smpStatus h3) e3
                exact Canonical.note h4
              · exact h1
              · exact h
              · exact h

end Sys2Proof
end

-- ==== Sys2Proof/Proofs/CanonicalFabric.lean ====
/-!
# Crossing traffic, moves, host and device events keep the canonical form

One lemma per function of the model, in the model's order.
-/
section
namespace Sys2Proof
open Machine

/-! ### Machine/Cross -/

theorem Canonical.execRedx {x : Enc} {s : State} (h : Canonical s) : (execRedx x s).Keeps Canonical := by
  unfold Machine.execRedx
  refine Canonical.issue h ?_
  intro a1
  split
  exact .finish h

theorem Canonical.execScanx {x : Enc} {s : State} (h : Canonical s) : (execScanx x s).Keeps Canonical := by
  unfold Machine.execScanx
  refine Canonical.issue h ?_
  intro a1
  split
  exact .finish h

/-! ### Machine/Network -/

theorem Canonical.updPacket {s : State} {id : Nat} {f : Packet → Packet} (h : Canonical s) : Canonical (s.updPacket id f) := h

theorem Canonical.performPacket {p : Packet} {s : State} (h : Canonical s) : Canonical (performPacket p s).2 := by
  unfold Machine.performPacket
  extract_lets +onlyGivenNames mark lost
  have h1 : ∀ (s : State), Canonical s → Canonical (mark s) := fun s1 h1 => h1
  split
  · exact h1 _ (.failPacket h)
  · split
    · exact h1 _ (.deliverGuest h)
    · split
      · exact .enqueue h
      · exact h
      · extract_lets +onlyGivenNames seen s1
        have h2 : Canonical s1 := by
          unfold s1
          split
          · exact keeps_ite h h
          · exact h
        exact h1 _ (.answerPart (keeps_ite (.l1Drop (.performPay h2)) (.performPay h2)))

theorem Canonical.bumpExpected {s : State} {p : Packet} (h : Canonical s) : Canonical (s.bumpExpected p) :=
  .setPairs h

theorem Canonical.portDrain {p : Packet} {x1 : Nat} {x2 : State} (h : Canonical x2) : Canonical (portDrain p x1 x2) := by
  induction x1 generalizing x2 with
  | zero => exact h
  | succ n ih =>
    unfold Machine.portDrain
    split
    · exact h
    · split
      · rename_i s1 e1
        have h1 := Canonical.snd (.performPacket h) e1
        exact ih (.bumpExpected h1)
      · rename_i s1 e1
        have h1 := Canonical.snd (.performPacket h) e1
        exact h1

theorem Canonical.atPort {p : Packet} {s : State} (h : Canonical s) : Canonical (atPort p s) := by
  unfold Machine.atPort
  split
  · split
    · exact h
    · split
      · rename_i s1 e1
        have h1 := Canonical.snd (.performPacket h) e1
        exact .bumpExpected h1
      · rename_i s1 e1
        have h1 := Canonical.snd (.performPacket h) e1
        exact h1
  · extract_lets +onlyGivenNames d
    split
    · split
      · rename_i s1 e1
        have h1 := Canonical.snd (.performPacket h) e1
        exact .portDrain (.bumpExpected h1)
      · rename_i s1 e1
        have h1 := Canonical.snd (.performPacket h) e1
        exact h1
    · exact keeps_ite (keeps_ite h h) h

theorem Canonical.applyReply {m : FabMsg} {s : State} (h : Canonical s) : Canonical (applyReply m s) := by
  unfold Machine.applyReply
  extract_lets +onlyGivenNames own
  split
  · exact .sendMsg h
  · split
    · exact h
    · split
      · exact h
      · extract_lets +onlyGivenNames past
        have h1 : ∀ (s : State), Canonical s → Canonical (past s) := fun s1 h1 => .ackPacket h1
        split
        · exact h
        · exact h1 _ (.answerPart h)
        · exact h1 _ (.failPacket h)
        · exact h1 _ h

theorem Canonical.applyReplies {ms : List FabMsg} {s : State} (h : Canonical s) : Canonical (applyReplies ms s) :=
  keeps_foldl h fun _ _ h1 => .applyReply h1

theorem Canonical.execPacketArrival {id : Nat} {s : State} (h : Canonical s) : (execPacketArrival id s).Keeps Canonical := by
  unfold Machine.execPacketArrival
  split
  · split
    · exact Canonical.guestTry h
    · exact h
  · split
    · exact h
    · split
      · exact keeps_ite h (Canonical.depart h)
      · split
        · exact keeps_ite (Canonical.applyReplies (.ingress h)) (keeps_ite (Canonical.updPacket (.sendOut h)) h)
        · exact keeps_ite h (Canonical.atPort h)
      · exact keeps_ite (Canonical.atPort h) h
      · exact h

theorem Canonical.execPlaneReleaseDeliver {id : Nat} {s : State} (h : Canonical s) : (execPlaneReleaseDeliver id s).Keeps Canonical := by
  unfold Machine.execPlaneReleaseDeliver
  split
  · split
    · exact h
    · extract_lets +onlyGivenNames s1
      have h1 : Canonical s1 := .atPort h
      exact keeps_ite (.ackPacket h1) h1
  · exact h

theorem Canonical.execPacketAck {id : Nat} {s : State} (h : Canonical s) : (execPacketAck id s).Keeps Canonical := by
  unfold Machine.execPacketAck
  split
  · exact keeps_ite (Canonical.ackPacket h) h
  · exact h

theorem Canonical.execPacketNack {id : Nat} {s : State} (h : Canonical s) : (execPacketNack id s).Keeps Canonical := by
  unfold Machine.execPacketNack
  split
  · extract_lets +onlyGivenNames s1
    have h1 : Canonical s1 := .note h
    split
    · exact keeps_ite h (keeps_ite h1 (Canonical.updPacket (.sendOut h1)))
    · show Canonical _
      exact keeps_ite h1 h
  · exact h

theorem Canonical.retryPacket {id : Nat} {s : State} (h : Canonical s) : Canonical (retryPacket id s) := by
  unfold Machine.retryPacket
  split
  · exact keeps_ite h (.atPort h)
  · exact h

theorem Canonical.retryIngress {s : State} (h : Canonical s) : Canonical s.retryIngress :=
  keeps_foldl h fun _ _ h1 => .applyReplies (.ingressDrain h1)

theorem Canonical.execIngressPairExpire {k : PairKey} {s : State} (h : Canonical s) : (execIngressPairExpire k s).Keeps Canonical := by
  unfold Machine.execIngressPairExpire
  split
  · exact keeps_ite h h
  · exact h

/-! ### Machine/Fabric -/

theorem Canonical.hostEvent {rec : BitVec 256} {s : State} (h : Canonical s) : Canonical (hostEvent rec s) := by
  unfold Machine.hostEvent
  extract_lets log s1 pa s2
  have h1 : Canonical s1 := h.congr rfl rfl rfl
  have h2 : Canonical s2 := h1.wrCells _
  clear_value s1 s2
  split
  · exact h1.congr rfl rfl rfl
  · exact h2.congr rfl rfl rfl

theorem Canonical.closeIncidents {s : State} (h : Canonical s) : Canonical (closeIncidents s) :=
  keeps_foldl h fun _ _ h1 => .hostEvent h1

theorem Canonical.portSettled {port : Nat} {s : State} (h : Canonical s) : Canonical (portSettled port s) :=
  .closeIncidents h

theorem Canonical.execChsync {gid ch accel lane : Nat} {s : State} (h : Canonical s) : (execChsync gid ch accel lane s).Keeps Canonical := by
  unfold Machine.execChsync
  extract_lets +onlyGivenNames d mine
  split
  · exact keeps_ite h (Canonical.sendMsg (.setPairs h))
  · exact Canonical.closeIncidents h

theorem Canonical.execSync {k : PairKey} {run low : Nat} {s : State} (h : Canonical s) : (execSync k run low s).Keeps Canonical := by
  unfold Machine.execSync
  extract_lets +onlyGivenNames r known
  split
  · exact h
  · extract_lets +onlyGivenNames s1 e s2
    have h1 : Canonical s1 := keeps_ite h h
    have h2 : Canonical s2 := .sendMsg h1
    exact keeps_foldl h2 fun s3 _ h3 => .sendMsg h3

theorem Canonical.execSyncReply {gid ch accel lane expected : Nat} {s : State} (h : Canonical s) : (execSyncReply gid ch accel lane expected s).Keeps Canonical
    := by
  unfold Machine.execSyncReply
  extract_lets +onlyGivenNames d e
  split
  · exact h
  · extract_lets +onlyGivenNames mine below again s1 s2 s3 s4 key ended
    have h1 : Canonical s1 := keeps_foldl h fun s5 _ h1 => h1
    have h2 : Canonical s2 := by
      unfold s2
      refine keeps_foldl h1 ?_
      intro s5 a1 h2
      split
      rename_i s6 e1
      have h3 := Canonical.snd (.sendOut h2) e1
      exact h3
    have h3 : Canonical s3 := .setPairs h2
    have h4 : Canonical s4 := keeps_foldl h3 fun s5 _ h4 => .ackPacket h4
    exact Canonical.closeIncidents h4

theorem Canonical.endRemote {gid : Nat} {ps : List Packet} {s : State} (h : Canonical s) : Canonical (endRemote gid ps s) := by
  unfold Machine.endRemote
  extract_lets +onlyGivenNames cl c cells hit s1
  have h1 : Canonical s1 := keeps_foldl h fun s2 _ h1 => .finishCopy h1
  refine keeps_foldl h1 fun s2 _ h2 => .endEpi ?_
  split
  · exact h2
  · exact h2

theorem Canonical.finishLoads {s : State} (h : Canonical s) : Canonical (finishLoads s) :=
  keeps_foldl h fun _ _ h1 => .completeLoad h1

theorem Canonical.endRun {p : Packet} {s : State} (h : Canonical s) : Canonical (endRun p s) :=
  .finishLoads (.setPairs (keeps_foldl (.endRemote (keeps_foldl h fun _ _ h1 => .failPacket h1)) fun _ _ h1 => .ackPacket h1))

theorem Canonical.execRemoteTimeout {id : Nat} {s : State} (h : Canonical s) : (execRemoteTimeout id s).Keeps Canonical := by
  unfold Machine.execRemoteTimeout
  split
  · exact keeps_ite (Canonical.endRun h) h
  · extract_lets +onlyGivenNames due
    split
    · exact h
    · split
      · extract_lets +onlyGivenNames cl s1
        have h1 : Canonical s1 := h
        split
        · exact Canonical.finishCopy h1
        · exact h1
      · exact Canonical.finishLoads h
  · exact h

theorem Canonical.resendLoads {n : Nat} {s : State} (h : Canonical s) : Canonical (resendLoads n s) := by
  unfold Machine.resendLoads
  refine keeps_foldl h ?_
  intro s1 a1 h1
  split
  · split
    rename_i s2 e1
    have h2 := Canonical.snd (.sendParts h1) e1
    exact h2
  · exact h1

theorem Canonical.portDownAct {n : Nat} {tx rx : Bool} {s : State} (h : Canonical s) : Canonical (portDownAct n tx rx s) := by
  unfold Machine.portDownAct
  extract_lets +onlyGivenNames s1 i
  have h1 : Canonical s1 := .resendLoads h
  exact .portSettled h1

theorem Canonical.execWavelengthLoss {loss : LightLoss} {s : State} (h : Canonical s) : (execWavelengthLoss loss s).Keeps Canonical := by
  unfold Machine.execWavelengthLoss
  extract_lets +onlyGivenNames stripe
  have h1 : ∀ (ps : List Nat) (f : Port → Port) (s : State), Canonical s → Canonical (stripe ps f s) := fun _ _ s1 h1 =>
    keeps_foldl h1 fun s2 _ h2 => h2
  split
  · split
    · exact h
    · extract_lets +onlyGivenNames ps s1 all s2 s3
      have h2 : Canonical s1 := h
      have h3 : Canonical s2 := keeps_foldl h2 fun s4 _ h3 => h3
      exact Canonical.closeIncidents (.congr (h1 _ _ _ h3) rfl rfl rfl)
  · exact keeps_ite h (keeps_ite h (Canonical.congr (h1 _ _ _ h) rfl rfl rfl))

theorem Canonical.execStripeMarker {port : Nat} {tx : Bool} {s : State} (h : Canonical s) : (execStripeMarker port tx s).Keeps Canonical := by
  unfold Machine.execStripeMarker
  extract_lets +onlyGivenNames p
  split
  · exact h
  · extract_lets +onlyGivenNames s1
    have h1 : Canonical s1 := h
    exact keeps_ite (.portDownAct h1) h1

theorem Canonical.execLaserRestored {input : Nat} {s : State} (h : Canonical s) : (execLaserRestored input s).Keeps Canonical := by
  unfold Machine.execLaserRestored
  split
  · exact h
  · extract_lets +onlyGivenNames ps all s1 s2
    have h1 : Canonical s1 := keeps_foldl h fun s3 _ h1 => h1
    have h2 : Canonical s2 := keeps_foldl h1 fun s3 _ h2 => h2
    exact Canonical.closeIncidents h2

theorem Canonical.execFlitReplay {port : Nat} {s : State} (h : Canonical s) : (execFlitReplay port s).Keeps Canonical := by
  unfold Machine.execFlitReplay
  extract_lets +onlyGivenNames p
  split
  · exact h
  · extract_lets +onlyGivenNames striped s1 s2
    have h1 : Canonical s1 := h
    have h2 : Canonical s2 := h1
    exact keeps_ite (.portSettled h2) h2

theorem Canonical.execReplayTimeout {port : Nat} {tx : Bool} {s : State} (h : Canonical s) : (execReplayTimeout port tx s).Keeps Canonical :=
  keeps_ite (Canonical.portDownAct h) h

theorem Canonical.execRekeyStart {port : Nat} {s : State} (h : Canonical s) : (execRekeyStart port s).Keeps Canonical :=
  keeps_ite h h

theorem Canonical.execRekeyStop {port : Nat} {s : State} (h : Canonical s) : (execRekeyStop port s).Keeps Canonical := by
  unfold Machine.execRekeyStop
  extract_lets +onlyGivenNames p
  split
  · extract_lets +onlyGivenNames s1
    have h1 : Canonical s1 := .resendLoads h
    exact Canonical.closeIncidents h1
  · exact h

/-! ### Machine/Aperture -/

theorem Canonical.hostAccess {q : Queued} {pas : List Nat} {s : State} {f : State → State} (h : Canonical s)
    (hf : ∀ (a : State), Canonical a → Canonical (f a)) : (hostAccess q pas s f).Keeps Canonical := by
  unfold Machine.hostAccess
  split
  · exact h
  · split
    · exact h
    · split
      · exact hf _ h
      · exact h
      · exact h

theorem Canonical.execHostDataWrite {pa : Nat} {data : List Byte} {s : State} (h : Canonical s) : (execHostDataWrite pa data s).Keeps Canonical := by
  unfold Machine.execHostDataWrite
  exact Canonical.hostAccess h (fun s1 h1 => .hubStore h1)

theorem Canonical.execHostDataRead {pa n : Nat} {s : State} (h : Canonical s) : (execHostDataRead pa n s).Keeps Canonical := by
  unfold Machine.execHostDataRead
  refine Canonical.hostAccess h ?_
  intro s1 h1
  split
  rename_i s2 e1
  have h2 := Canonical.snd h1 e1
  exact h2

theorem Canonical.execHostDescriptorWrite {off : Nat} {data : List Byte} {s : State} (h : Canonical s) : (execHostDescriptorWrite off data s).Keeps Canonical :=
    by
  unfold Machine.execHostDescriptorWrite
  exact Canonical.hostAccess h (fun s1 h1 => keeps_foldl h1 fun s2 _ h2 => .hubBlock h2)

/-! ### Machine/Moves -/

theorem Canonical.outState {s : State} {x1 : Out} (h : Canonical s) (hx1 : x1.Keeps Canonical) : Canonical (outState s x1) := by
  unfold Machine.outState
  split
  · exact hx1
  · exact h

theorem Canonical.requeue {q : Queued} {s : State} (h : Canonical s) : Canonical (requeue q s) := by
  unfold Machine.requeue
  split
  · exact .retryPacket h
  · exact .applyReplies (.ingress h)
  · exact .outState h (Canonical.execGuestRequest h)
  · exact .outState h (Canonical.execClaimReq h)
  · exact .outState h (Canonical.execXlateReq h)
  · exact .outState h (Canonical.execHostDataWrite h)
  · exact .outState h (Canonical.execHostDataRead h)
  · exact .outState h (Canonical.execHostDescriptorWrite h)

theorem Canonical.replay {s : State} (h : Canonical s) : Canonical s.replay :=
  .retryIngress (keeps_foldl h fun _ _ h1 => .requeue h1)

theorem Canonical.setMove {s : State} {m : Move} (h : Canonical s) : Canonical (s.setMove m) := h

theorem Canonical.execMigrate {size : Nat} {src dst : BitVec 48} {s : State} (h : Canonical s) : (execMigrate size src dst s).Keeps Canonical :=
  keeps_ite h (keeps_ite h (keeps_ite h (keeps_ite h h)))

theorem Canonical.execRetire {size : Nat} {src : BitVec 48} {s : State} (h : Canonical s) : (execRetire size src s).Keeps Canonical :=
  keeps_ite h (keeps_ite h (keeps_ite h (keeps_ite h h)))

theorem Canonical.execRegion {region : Nat} {entry : BitVec 16} {s : State} (h : Canonical s) : (execRegion region entry s).Keeps Canonical :=
  keeps_ite h (keeps_ite h (keeps_ite h h))

theorem Canonical.execMigrateChunk {s : State} (h : Canonical s) : (execMigrateChunk s).Keeps Canonical :=
  keeps_ite h (keeps_ite (keeps_ite h (keeps_foldl h fun _ _ h1 => h1))
    (Canonical.replay (keeps_ite (.setMove (.moveChunk h _ _)) (.congr (.moveChunk h _ _) rfl rfl rfl))))

theorem Canonical.resend {s : State} {p : Packet} (h : Canonical s) : Canonical (s.resend p) :=
  .depart (.congr (.openPair h) rfl rfl rfl)

theorem Canonical.reroute {s : State} {p : Packet} (h : Canonical s) : Canonical (s.reroute p) := by
  unfold State.reroute
  split
  · exact h
  · exact keeps_ite h (.freePair (.congr (.openPair h) rfl rfl rfl))
  · exact h

theorem Canonical.execRegionSwitch {s : State} (h : Canonical s) : (execRegionSwitch s).Keeps Canonical :=
  keeps_ite h (keeps_ite h (Canonical.setMove (keeps_foldl h fun _ _ h1 => .reroute h1)))

theorem Canonical.execGenerationNack {id : Nat} {s : State} (h : Canonical s) : (execGenerationNack id s).Keeps Canonical := by
  unfold Machine.execGenerationNack
  split
  · exact h
  · split
    · exact h
    · extract_lets +onlyGivenNames mine late s1 s2
      have h1 : Canonical s1 := .setPairs h
      have h2 : Canonical s2 := keeps_foldl h1 fun s3 _ h2 => .resend (.note h2)
      exact keeps_foldl h2 fun s3 _ h3 => .freePair h3

theorem Canonical.execRegionEraseDone {region : Nat} {s : State} (h : Canonical s) : (execRegionEraseDone region s).Keeps Canonical := by
  unfold Machine.execRegionEraseDone
  split
  · exact h
  · extract_lets out s1 s2
    have h1 : Canonical s1 := (h.filter (fun c => out 1 c.1) (fun c => out 64 c.1) fun c => out 65536 c.1).congr rfl rfl rfl
    have h2 : Canonical s2 := keeps_foldl h1 fun t f ht => .plainStore ht
    exact Canonical.replay h2

/-! ### Machine/Host -/

theorem Canonical.startMove {s : State} (h : Canonical s) : Canonical (startMove s) := by
  unfold Machine.startMove
  extract_lets +onlyGivenNames c op size bad
  split
  · exact h
  · split
    · exact h
    · clear_value op
      split
      · exact .outState h (Canonical.execMigrate h)
      · exact .outState h (Canonical.execRetire h)
      · exact .outState h (Canonical.execRegion h)

theorem Canonical.regByte {s : State} {off : Nat} {b : Byte} (h : Canonical s) : Canonical (regByte s off b) := by
  unfold Machine.regByte
  refine keeps_ite (h.congr rfl rfl rfl) <| keeps_ite (h.congr rfl rfl rfl) <| keeps_ite (h.congr rfl rfl rfl) <|
    keeps_ite (h.congr rfl rfl rfl) <| keeps_ite (h.congr rfl rfl rfl) <| keeps_ite (.updSite h) h

theorem Canonical.execRegisterWrite {off : Nat} {data : List Byte} {s : State} (h : Canonical s) : (execRegisterWrite off data s).Keeps Canonical :=
  keeps_ite h (keeps_ite (.startMove (keeps_foldl h fun _ _ h1 => .regByte h1)) (keeps_foldl h fun _ _ h1 => .regByte h1))

/-! ### Machine/Loader -/

theorem Canonical.extendAtt {ctx : Nat} {m : List Byte} {s : State} (h : Canonical s) : (extendAtt ctx m s).Keeps Canonical := by
  unfold Machine.extendAtt
  extract_lets +onlyGivenNames att s1
  have h1 : Canonical s1 := h
  split
  · exact Canonical.hubStore h1
  · exact Canonical.physReady h1

theorem Canonical.loadSeg {ctx : Nat} {base : BitVec 64} {g : CodeSeg} {s : State} (h : Canonical s) : (loadSeg ctx base g s).Keeps Canonical := by
  unfold Machine.loadSeg
  extract_lets +onlyGivenNames va key
  split
  · trivial
  · trivial
  · exact h
  · rename_i pas t e
    have ht := keeps_of_eq (Canonical.hubAddrs h) e
    extract_lets +onlyGivenNames s1 m s2 chunks
    have h1 : Canonical s1 := .hubStore (keeps_foldl ht fun t pa h => h.touch _ _)
    have h2 : Canonical s2 := .hubStore h1
    split
    · exact h1
    · split
      · exact h1
      · split
        rename_i n s3 e3
        have h3 := Canonical.snd (Canonical.draw h2) e3
        split
        · exact Canonical.eraseTags h3
        · extract_lets s4
          have h4 : Canonical s4 := (h3.insertTags chunks ctx).congr rfl rfl rfl
          split
          · rename_i _ s5 e5
            have h5 := keeps_of_eq (Canonical.extendAtt h4) e5
            exact h5
          · trivial
          · trivial
          · trivial

theorem Canonical.loadSegs {ctx : Nat} {base : BitVec 64} {x1 : List CodeSeg} {x2 : State} (h : Canonical x2) : (loadSegs ctx base x1 x2).Keeps Canonical := by
  induction x1 generalizing x2 with
  | nil => exact h
  | cons a as ih =>
    unfold Machine.loadSegs
    split
    · rename_i s1 e1
      have h1 := keeps_of_eq (Canonical.loadSeg h) e1
      exact ih h1
    · rename_i s1 e1
      have h1 := keeps_of_eq (Canonical.loadSeg h) e1
      exact h1
    · trivial
    · trivial
    · trivial

theorem Canonical.loadRequest {r : BitVec 512} {s : State} (h : Canonical s) : (loadRequest r s).Keeps Canonical := by
  unfold Machine.loadRequest
  extract_lets +onlyGivenNames ctx base
  split
  · exact h
  · split
    · exact h
    · split
      · trivial
      · trivial
      · exact h
      · split
        · exact h
        · exact Canonical.loadSegs h

theorem Canonical.execLoaddb {addr : BitVec 64} {s : State} (h : Canonical s) : (execLoaddb addr s).Keeps Canonical := by
  unfold Machine.execLoaddb
  split
  · exact h
  · split
    · split
      · rename_i s2 e2
        have h2 := keeps_of_eq (Canonical.loadRequest h) e2
        split
        · exact Canonical.raiseMsi (.hubStore h2)
        · exact Canonical.waits h (Canonical.physReady h2)
      · exact Canonical.waits h (Canonical.loadRequest h)
    · exact Canonical.waits h (Canonical.hubPhys h)

/-! ### Machine/Device -/

theorem Canonical.survivors (s : State) : Canonical s.survivors :=
  .reset

theorem Canonical.bringUp (s : State) (image : List Byte) (svn : BitVec 32) : Canonical (s.bringUp image svn) :=
  .congr (.survivors s) rfl rfl rfl

theorem Canonical.execDeviceReset (s : State) : (execDeviceReset s).Keeps Canonical := by
  unfold Machine.execDeviceReset
  split
  · exact Canonical.bringUp s _ _
  · exact Canonical.congr (.survivors s) rfl rfl rfl

theorem Canonical.execRecgo {image : List Byte} {s : State} (h : Canonical s) : (execRecgo image s).Keeps Canonical := by
  unfold Machine.execRecgo
  split
  · exact h
  · split
    · rename_i v _
      have hb := Canonical.bringUp s image v
      exact hb
    · exact h

theorem Canonical.loseClaims {die : Nat} {s : State} (h : Canonical s) : Canonical (loseClaims die s) :=
  keeps_foldl h fun _ _ h1 => .updFrag (keeps_foldl h1 fun _ _ h2 => .loseResv (.poisonBlock h2) _)

theorem Canonical.holdLaunches {die : Nat} {s : State} (h : Canonical s) : Canonical (holdLaunches die s) := h

theorem Canonical.endLaunches {die : Nat} {s : State} (h : Canonical s) : Canonical (endLaunches die s) :=
  .congr (.endReserves h) rfl rfl rfl

theorem Canonical.loseGroups {die : Nat} {s : State} (h : Canonical s) : Canonical (loseGroups die s) :=
  keeps_foldl h fun _ _ h1 => .killAct h1

theorem Canonical.lossEntry {s : State} {ctx : Nat} (h : Canonical s) : Canonical (s.lossEntry ctx) :=
  .kAlarm h

theorem Canonical.trapContexts {die : Nat} {s : State} (h : Canonical s) : Canonical (trapContexts die s) := by
  unfold Machine.trapContexts
  extract_lets +onlyGivenNames rec0 hit whole survives alone s1 stop img s2
  have h1 : Canonical s1 := keeps_foldl h fun s3 _ h1 => h1
  have h2 : Canonical s2 := h1
  exact keeps_foldl h2 fun s3 _ h3 => .lossEntry h3

theorem Canonical.dropPacket {s : State} {p : Packet} (h : Canonical s) : Canonical (dropPacket s p) := by
  unfold Machine.dropPacket
  extract_lets +onlyGivenNames hit s1
  have h1 : Canonical s1 := by
    unfold s1
    clear_value hit
    split
    · exact h
    · exact .takeFaultAt h
  exact .ackPacket h1

theorem Canonical.losePackets {die : Nat} {s : State} (h : Canonical s) : Canonical (losePackets die s) := by
  unfold Machine.losePackets
  split
  rename_i keep s1 e1
  have h1 : Canonical s1 := by
    refine Canonical.snd (keeps_foldl_snd h fun r p hr => ?_) e1
    split
    · exact hr
    · split
      · exact hr
      · exact keeps_ite_snd hr hr
      · exact hr
  exact h1.congr rfl rfl rfl

theorem Canonical.dropTraffic {die : Nat} {s : State} (h : Canonical s) : Canonical (dropTraffic die s) :=
  keeps_foldl (keeps_foldl h fun _ _ h1 => .endRemote h1) fun _ _ h1 => .dropPacket h1

theorem Canonical.loseMove {die : Nat} {s : State} (h : Canonical s) : Canonical (loseMove die s) :=
  keeps_ite (.replay h) h

theorem Canonical.loseDie {die : Nat} {s : State} (h : Canonical s) : Canonical (loseDie die s) := by
  unfold Machine.loseDie
  split
  · exact h
  · extract_lets s1 s2 s3
    have h1 : Canonical s1 := h.congr rfl rfl rfl
    have h2 : Canonical s2 := .endLaunches (.loseGroups (.holdLaunches (.loseClaims h1)))
    clear_value s2
    have h3 : Canonical s3 := h2.congr rfl rfl rfl
    exact .loseMove (.dropTraffic (.losePackets (.trapContexts h3)))

theorem Canonical.poisonScratch {s : State} {g : Machine.Group} {b : Nat} (h : Canonical s) : Canonical (poisonScratch s g b) := by
  unfold Machine.poisonScratch
  extract_lets +onlyGivenNames s1 s2
  have h1 : Canonical s1 := h
  have h2 : Canonical s2 := by
    unfold s2
    split
    · exact .poisonBlock h1
    · exact h1
  exact .note h2

theorem Canonical.killWithEntry {s : State} {g : Machine.Group} (h : Canonical s) : Canonical (killWithEntry s g) := by
  unfold Machine.killWithEntry
  split
  rename_i s1 e1
  have h1 := Canonical.snd h e1
  exact .kAlarm (.service (.killAct h1))

theorem Canonical.execUncorrectableError {place : ErrPlace} {s : State} (h : Canonical s) : (execUncorrectableError place s).Keeps Canonical := by
  unfold Machine.execUncorrectableError
  split
  · exact keeps_ite (Canonical.poisonBlock h) h
  · split
    · exact keeps_ite (Canonical.poisonScratch h) h
    · exact h
  · exact keeps_ite h (keeps_ite (Canonical.poisonBlock h) h)
  · split
    · exact Canonical.killWithEntry h
    · exact h

end Sys2Proof
end

-- ==== Sys2Proof/Proofs/CanonicalStep.lean ====
/-!
# Every step keeps the canonical form

One lemma per function of the model, in the model's order.
-/
section
namespace Sys2Proof
open Machine

/-! ### Machine/FloatInstr -/

theorem Canonical.float2 {op : BitVec 8} {x : Enc} {s : State} {g : FOp2} (h : Canonical s) : (float2 op x s g).Keeps Canonical :=
  Canonical.compute h

theorem Canonical.float1 {op : BitVec 8} {x : Enc} {s : State} {g : FOp} (h : Canonical s) : (float1 op x s g).Keeps Canonical :=
  Canonical.compute h

theorem Canonical.special {op : BitVec 8} {x : Enc} {s : State} {fn : SpecFn} (h : Canonical s) : (special op x s fn).Keeps Canonical :=
  Canonical.float1 h

/-! ### Machine/Integer -/

theorem Canonical.int2 {op : BitVec 8} {x : Enc} {s : State} {f : Int → Int → Nat} (h : Canonical s) : (int2 op x s f).Keeps Canonical :=
  Canonical.compute h

theorem Canonical.int1 {op : BitVec 8} {x : Enc} {s : State} {f : Int → Nat} (h : Canonical s) : (int1 op x s f).Keeps Canonical :=
  Canonical.compute h

theorem Canonical.bit2 {op : BitVec 8} {x : Enc} {s : State} {f : Nat → Nat → Nat} (h : Canonical s) : (bit2 op x s f).Keeps Canonical :=
  Canonical.compute h

theorem Canonical.shift {op : BitVec 8} {x : Enc} {s : State} {f : Nat → Nat → Nat → Nat} (h : Canonical s) : (shift op x s f).Keeps Canonical :=
  Canonical.compute h

theorem Canonical.count {op : BitVec 8} {x : Enc} {s : State} {f : Nat → Nat → Nat} (h : Canonical s) : (count op x s f).Keeps Canonical :=
  Canonical.compute h

/-! ### Machine/Dispatch -/

theorem Canonical.exec {i : Instr} {s : State} (h : Canonical s) : Out.Keeps Canonical (exec i s) := by
  unfold Machine.exec
  split
  · exact Canonical.issue h (fun _ => .finish h)
  · exact Canonical.issue h (fun _ => .branchTo h)
  · exact Canonical.branchReg h
  · exact Canonical.issue h (fun _ => .branchTo h)
  · exact Canonical.branchReg h
  · exact Canonical.execExit h
  · exact Canonical.execReform h
  · exact Canonical.execYield h
  · exact Canonical.trapWith h
  · exact Canonical.trapWith h
  · exact Canonical.issue h (fun _ => keeps_ite (.finish h) (.endIssue (keeps_ite (.putView h) (.updPart (.putView h)))))
  · exact Canonical.issue h (fun _ => keeps_ite (.finish h) (keeps_ite (.takeFault h) (.waitIn h)))
  · exact Canonical.execSread h
  · exact Canonical.execSwrite h
  · exact Canonical.execClock h
  · exact Canonical.int2 h
  · exact Canonical.int2 h
  · exact Canonical.int2 h
  · exact Canonical.int2 h
  · exact Canonical.compute h
  · exact Canonical.compute h
  · exact Canonical.int2 h
  · exact Canonical.int2 h
  · exact Canonical.int1 h
  · exact Canonical.int1 h
  · exact Canonical.int2 h
  · exact Canonical.int2 h
  · exact Canonical.computeP h
  · exact Canonical.compute h
  · exact Canonical.issue h (fun _ => .finish h)
  · exact Canonical.issue h (fun _ => keeps_ite (.takeFault h) (.finish h))
  · exact Canonical.bit2 h
  · exact Canonical.bit2 h
  · exact Canonical.bit2 h
  · exact Canonical.bit2 h
  · exact Canonical.compute h
  · exact Canonical.shift h
  · exact Canonical.shift h
  · exact Canonical.shift h
  · exact Canonical.shift h
  · exact Canonical.compute h
  · exact Canonical.compute h
  · exact Canonical.count h
  · exact Canonical.count h
  · exact Canonical.count h
  · exact Canonical.compute h
  · exact Canonical.compute h
  · exact Canonical.float2 h
  · exact Canonical.float2 h
  · exact Canonical.float2 h
  · exact Canonical.compute h
  · exact Canonical.compute h
  · exact Canonical.compute h
  · exact Canonical.compute h
  · exact Canonical.compute h
  · exact Canonical.computeP h
  · exact Canonical.float1 h
  · exact Canonical.compute h
  · exact Canonical.float2 h
  · exact Canonical.float1 h
  · exact Canonical.special h
  · exact Canonical.special h
  · exact Canonical.special h
  · exact Canonical.special h
  · exact Canonical.special h
  · exact Canonical.special h
  · exact Canonical.special h
  · exact Canonical.special h
  · exact Canonical.compute h
  · exact Canonical.compute h
  · exact Canonical.compute h
  · exact Canonical.execQpack h
  · exact Canonical.execQunpk h
  · exact Canonical.issue h (fun _ => .finish h)
  · exact Canonical.issue h (fun _ => .finish h)
  · exact Canonical.issue h (fun _ => .finish h)
  · exact Canonical.execRedx h
  · exact Canonical.execScanx h
  · exact Canonical.issue h (fun _ => .finish h)
  · exact Canonical.issue h (fun _ => .finish h)
  · exact Canonical.issue h (fun _ => .finish h)
  · exact Canonical.computeP h
  · exact Canonical.computeP h
  · exact Canonical.compute h
  · exact Canonical.issue h (fun _ => .finish h)
  · exact Canonical.issue h (fun _ => .globalLoad h)
  · exact Canonical.issue h (fun _ => .globalLoad h)
  · exact Canonical.execLds h
  · exact Canonical.execLdk h
  · exact Canonical.issue h (fun _ => .globalStore h)
  · exact Canonical.issue h (fun _ => .globalStore h)
  · exact Canonical.execSts h
  · exact Canonical.execStm h
  · exact Canonical.execAtom h
  · exact Canonical.issue h (fun _ => .scratchAtomic h)
  · exact Canonical.issue h (fun _ => .scratchAtomic h)
  · exact Canonical.execLr h
  · exact Canonical.execSc h
  · exact Canonical.execPref h
  · exact Canonical.execCflush h
  · exact Canonical.execCinvLine h
  · exact Canonical.issue h (fun _ => .retire (keeps_ite h (.l1Inval h)))
  · exact Canonical.issue h (fun _ => keeps_ite (.scratchLoad h) (.globalLoad h))
  · exact Canonical.issue h (fun _ => keeps_ite (.scratchStore h) (.globalStore h))
  · exact Canonical.issue h (fun _ => keeps_ite (.scratchLoad h) (.globalLoad h))
  · exact Canonical.issueS h (fun _ => keeps_ite (.stall h) (.finish (keeps_ite (.acquire h) h)))
  · exact Canonical.issueS h (fun _ => .retire (keeps_ite h (.setJoins h)))
  · exact Canonical.issueS h (fun _ => keeps_ite (.retire h) (keeps_ite (.stall h) (.stall (.mapWarp h))))
  · exact Canonical.issueS h (fun _ => .finish h)
  · exact Canonical.issue h (fun _ => keeps_ite (.stall h) (.waitIn h))
  · exact Canonical.execGbar h
  · exact Canonical.issue h (fun _ => keeps_ite (.takeFault h) (keeps_ite (.finish h) (keeps_ite (.takeFault h) (.retire h))))
  · exact Canonical.execTbexp h
  · exact Canonical.execTbarv h
  · exact Canonical.execTbwait h
  · exact Canonical.issue h (fun _ => .finish h)
  · exact Canonical.issue h (fun _ => .finish h)
  · exact Canonical.execTmake h
  · exact Canonical.execTfree h
  · exact Canonical.tclaim h
  · exact Canonical.tclaim h
  · exact Canonical.execTdrop h
  · exact Canonical.execTsplit h
  · exact Canonical.execTinfo h
  · exact Canonical.execWset h
  · exact Canonical.issueS h (fun _ => keeps_ite (.takeFault h) (.retire h))
  · exact Canonical.issueS h (fun _ => .finish h)
  · exact Canonical.cpyWith h
  · exact Canonical.execCpyl h
  · exact Canonical.cpyWith h
  · exact Canonical.gslotWith h
  · exact Canonical.gslotWith h
  · exact Canonical.gslotWith h
  · exact Canonical.gslotWith h
  · exact Canonical.execMma h
  · exact Canonical.withSlot h (fun _ _ _ _ _ => keeps_ite (.retire h) (.takeFault h))
  · exact Canonical.withSlot h (fun _ _ _ _ _ => keeps_ite (.retire (.sealDone h)) (.takeFault h))
  · exact Canonical.execAringDrop h
  · exact Canonical.execEpi h
  · exact Canonical.peekWith h (fun _ _ _ _ => keeps_ite (.takeFault h) (.finish h))
  · exact Canonical.peekWith h (fun _ _ _ _ => .retire h)
  · exact Canonical.withSlot h (fun _ _ _ _ _ => .finish h)
  · exact Canonical.issueS h (fun _ => .finish h)
  · exact Canonical.execTenq h
  · exact Canonical.execTdone h
  · exact Canonical.execGpost h
  · exact Canonical.issueS h (fun _ => keeps_ite (.takeFault h) (keeps_ite (.finish h) (keeps_ite (.stall h) (.retire h))))
  · exact Canonical.execEvread h
  · exact Canonical.execEvreadNb h
  · exact Canonical.issueS h (fun _ => .finish (keeps_foldl h fun s1 _ h1 => h1))
  · exact Canonical.ainvWith h
  · exact Canonical.ainvWith h
  · exact Canonical.issueS h (fun _ => .frameRequest h)
  · exact Canonical.issueS h (fun _ => .frameRequest h)
  · exact Canonical.execPrds h
  · exact Canonical.pwrsWith h
  · exact Canonical.pwrsWith h
  · exact Canonical.pwrsWith h
  · exact Canonical.sysRow h
  · exact Canonical.sysRow h
  · exact Canonical.sysRow h
  · exact Canonical.sysRow h
  · exact Canonical.sysRow h
  · exact Canonical.sysRow h
  · exact Canonical.sysRow h
  · exact Canonical.sysRow h
  · exact Canonical.execIret h
  · exact Canonical.execPark h
  · exact Canonical.unparkWith h
  · exact Canonical.unparkWith h
  · exact Canonical.execVsave h
  · exact Canonical.execVload h
  · exact Canonical.tlblsWith h
  · exact Canonical.tlblsWith h
  · exact Canonical.tlblsWith h
  · exact Canonical.execHaltS h
  · exact Canonical.execHaltC h
  · exact Canonical.execPmcfgCtr h
  · exact Canonical.execPmcfgSmp h
  · exact Canonical.pmrdWith h
  · exact Canonical.pmrdWith h
  · exact Canonical.execMemoryResponse h
  · exact Canonical.execFairnessSwitch h
  · exact keeps_ite h (Canonical.idleLane h)
  · exact Canonical.execBinReady h
  · exact Canonical.execBinDraw h
  · exact Canonical.execReservationTimeout h
  · exact Canonical.execSelftick h
  · exact Canonical.execPtsLagAdvance h
  · exact Canonical.execFragmentRebase h
  · exact Canonical.execWritebackDone h
  · exact Canonical.execCopyStart h
  · exact Canonical.execCopyBlock h
  · exact Canonical.execCopyEnd h
  · exact Canonical.execMmaEntryEnter h
  · exact Canonical.execMmaGrant h
  · exact Canonical.execMmaPassComplete h
  · exact Canonical.execEpiTakeSlot h
  · exact Canonical.execEpiDrainComplete h
  · exact Canonical.note h
  · exact Canonical.execTaskComplete h
  · exact Canonical.execWaitingEnqueueEnter h
  · exact Canonical.execAgingPromotion h
  · exact Canonical.execPlacementPass h
  · exact Canonical.execStepStart h
  · exact Canonical.execWatchdogHang h
  · exact Canonical.execFaultPark h
  · exact Canonical.execParkFrameWrite h
  · exact Canonical.execServiceEntryWrite h
  · exact Canonical.execForemanFault h
  · exact Canonical.execPacketArrival h
  · exact Canonical.execPacketAck h
  · exact Canonical.execPacketNack h
  · exact Canonical.execPlaneReleaseDeliver h
  · exact keeps_ite h (Canonical.applyReplies (.ingress h))
  · exact h
  · exact Canonical.execIngressPairExpire h
  · exact Canonical.execChsync h
  · exact Canonical.execSync h
  · exact Canonical.execSyncReply h
  · exact Canonical.execRemoteTimeout h
  · exact Canonical.execWavelengthLoss h
  · exact Canonical.execStripeMarker h
  · exact Canonical.execLaserRestored h
  · exact Canonical.execFlitReplay h
  · exact keeps_ite h h
  · exact Canonical.execReplayTimeout h
  · exact keeps_ite (Canonical.portDownAct h) h
  · exact keeps_ite h (Canonical.closeIncidents h)
  · exact Canonical.execRekeyStart h
  · exact Canonical.execRekeyStop h
  · exact keeps_ite h h
  · exact keeps_ite h (keeps_ite h h)
  · exact Canonical.execLaunchAccept h
  · exact Canonical.execLaunchEnd h
  · exact Canonical.execHostDataWrite h
  · exact Canonical.execHostDataRead h
  · exact Canonical.execHostDescriptorWrite h
  · exact Canonical.execMigrate h
  · exact Canonical.execMigrateChunk h
  · exact Canonical.execRetire h
  · exact Canonical.execRegion h
  · exact Canonical.execRegionSwitch h
  · exact Canonical.execGenerationNack h
  · exact keeps_ite h h
  · exact Canonical.execRegionEraseDone h
  · exact Canonical.execLoaddb h
  · exact Canonical.execRecgo h
  · exact keeps_ite h h
  · exact Canonical.execSiteResetHoldEnd h
  · exact keeps_ite h (keeps_ite h h)
  · exact Canonical.execSiteTrainingTimeout h
  · exact Canonical.execRegisterWrite h
  · exact Canonical.execGuestRequest h
  · exact Canonical.terminate h (fun _ s1 h1 => .endGuest h1)
  · exact Canonical.terminate h (fun _ s1 h1 => .endGuest h1)
  · exact Canonical.execGuestFault h
  · exact Canonical.preemptReply h
  · exact Canonical.preemptReply h
  · exact Canonical.execXlateReq h
  · exact Canonical.execInvAck h
  · exact Canonical.execClaimReq h
  · exact Canonical.guestPacket h (fun _ => keeps_ite h (keeps_foldl (.dropGuestClaims h) fun s1 _ h1 => .loseResv h1 _))
  · exact Canonical.execGuestDeadline h
  · exact Canonical.execGrantExpire h
  · exact Canonical.loseDie h
  · exact Canonical.loseDie h
  · exact Canonical.execUncorrectableError h
  · exact keeps_ite (Canonical.note h) h
  · exact keeps_ite h h
  · exact Canonical.execDeviceReset s
  · exact keeps_ite h h
  · exact Canonical.execSamplePoint h
  · exact Canonical.execWriteClaimHoldExpiry h
  · exact keeps_ite h h
  · exact h
  · exact keeps_ite h h
  · exact h
  · exact keeps_ite h h

/-! ### Machine/Due -/

theorem Canonical.groupEvents {g : Group} : EventsKeep (groupEvents g) := by
  unfold Machine.groupEvents
  refine .append (.append ?_ (.map fun w _ h => Canonical.execFairnessSwitch h)) (.map fun t _ h => Canonical.execReservationTimeout h)
  exact .cons (fun _ h => Canonical.execFaultPark h) <| .cons (fun _ h => Canonical.execParkFrameWrite h) <|
    .cons (fun _ h => Canonical.execTaskComplete h) <|
    .cons (fun _ h => Canonical.execWatchdogHang h) <| .one fun _ h => Canonical.execBinDraw h

theorem Canonical.clusterEvents {cl : Nat} {c : Cluster} : EventsKeep (clusterEvents cl c) := by
  unfold Machine.clusterEvents
  refine .append (.append (.append (.append (.append ?_ ?_) ?_) ?_) ?_) ?_
  · exact .map fun k _ h => Canonical.execCopyEnd h
  · exact .one fun _ h => Canonical.execCopyStart h
  · exact .map fun k _ h => Canonical.execCopyBlock h
  · exact .map fun m _ h => Canonical.execMmaEntryEnter h
  · exact .cons (fun _ h => Canonical.execMmaPassComplete h) <| .cons (fun _ h => Canonical.execMmaGrant h) <|
      .cons (fun _ h => Canonical.execEpiDrainComplete h) <| .cons (fun _ h => Canonical.execEpiTakeSlot h) <|
      .cons (fun _ h => Canonical.execForemanFault h) <| .one fun _ h => Canonical.execSamplePoint h
  · exact .flatMap fun i => .map fun b _ h => Canonical.execBinReady h

theorem Canonical.trafficEvents {s : State} : EventsKeep (trafficEvents s) := by
  unfold Machine.trafficEvents
  refine .append (.append (.flatMap fun p => ?_) (.flatMap fun l => ?_)) (.flatMap fun f => ?_)
  · exact .cons (fun _ h => Canonical.execGenerationNack h) <| .cons (fun _ h => Canonical.execPacketAck h) <|
      .cons (fun _ h => Canonical.execPlaneReleaseDeliver h) <|
      .cons (fun _ h => Canonical.execPacketNack h) <|
      .cons (fun _ h => Canonical.execPacketArrival h) <| .one fun _ h => Canonical.execRemoteTimeout h
  · exact .cons (fun _ h => Canonical.execMemoryResponse h) <| .one fun _ h => Canonical.execRemoteTimeout h
  · exact .cons (fun _ h => Canonical.execWritebackDone h) <|
      .cons (fun _ h => Canonical.execWriteClaimHoldExpiry h) <| .one fun _ h => Canonical.execFragmentRebase h

theorem Canonical.schedEvents {s : State} : EventsKeep (schedEvents s) := by
  unfold Machine.schedEvents
  refine .append (.append (.append (.flatMap fun l => ?_) (.flatMap fun p => ?_)) ?_) ?_
  · exact .cons (fun _ h => Canonical.execLaunchEnd h) <| .one fun _ h => Canonical.execStepStart h
  · exact .cons (fun _ h => Canonical.execServiceEntryWrite h) <| .cons (fun _ h => Canonical.execWaitingEnqueueEnter h) <|
      .one fun _ h => Canonical.execLaunchAccept h
  · exact .map fun p _ h => Canonical.execPlacementPass h
  · exact .map fun q _ h => Canonical.execAgingPromotion h

theorem Canonical.hubEvents {s : State} : EventsKeep (hubEvents s) := by
  unfold Machine.hubEvents
  refine .append (.append (.append (.append (.append (.append (.append ?_ ?_) ?_) ?_) ?_) ?_) ?_) ?_
  · exact .cons (fun _ h => Canonical.execMigrateChunk h) <| .one fun _ h => Canonical.execRegionSwitch h
  · exact .map fun n _ h => Canonical.execRegionEraseDone h
  · exact .map fun q _ h => Canonical.execIngressPairExpire h
  · refine .flatMap fun i => .filterMap fun p => ?_
    split
    · split
      · trivial
      · exact fun _ h => Canonical.execChsync h
    · trivial
  · exact .flatMap fun p => .cons (fun _ h => Canonical.execRekeyStop h) <| .cons (fun _ h => Canonical.execRekeyStart h) <|
      .one fun _ h => Canonical.execReplayTimeout h
  · exact .flatMap fun p => .cons (fun _ h => Canonical.execSiteResetHoldEnd h) <| .cons (fun _ h => Canonical.execSiteTrainingTimeout h) <|
      .cons (fun _ h => Canonical.execGuestDeadline h) <| .one fun _ h => Canonical.execGrantExpire h
  · exact .map fun c _ h => Canonical.execPtsLagAdvance h
  · exact .map fun c _ h => Canonical.execSelftick h

theorem Canonical.internal {s : State} : EventsKeep s.internal := by
  unfold State.internal
  exact .append (.append (.append (.append Canonical.trafficEvents (.flatMap fun _ => Canonical.groupEvents))
    (.flatMap fun _ => Canonical.clusterEvents)) Canonical.schedEvents) Canonical.hubEvents

theorem Canonical.changed {s : State} {e : State → Out} (h : Canonical s) (he : ∀ (a : State), Canonical a → (e a).Keeps Canonical) : OptKeeps Canonical (s.changed e) :=
    by
  unfold State.changed
  split
  · rename_i s1 e1
    have h1 := keeps_of_eq (he _ h) e1
    exact keeps_ite trivial h1
  · trivial

theorem Canonical.due {s : State} (h : Canonical s) : OptKeeps Canonical s.due :=
  OptKeeps.findSome? fun e he => Canonical.changed h (Canonical.internal e he)

/-! ### Machine/Step -/

theorem Canonical.runFetched {s : State} (h : Canonical s) : Out.Keeps Canonical (runFetched s) := by
  unfold Machine.runFetched
  split
  · exact Canonical.stall h
  · exact Canonical.stallRecall h
  · exact Canonical.takeFault h
  · rename_i s1 e1
    have h1 := keeps_of_eq (Canonical.fetchInstr h) e1
    split
    · exact Canonical.exec h1
    · exact Canonical.takeFault h1
    · exact Canonical.stall h1

theorem Canonical.runIssue {s : State} (h : Canonical s) : Out.Keeps Canonical (runIssue s) :=
  Canonical.precise h (Canonical.runFetched h)

theorem Canonical.laneTurn {core lane : Nat} {defer : Bool} {l : List Nat} {s : State} (h : Canonical s) : Out.Keeps Canonical
    (Machine.laneTurn core lane defer l s) := by
  induction l generalizing s with
  | nil => exact Canonical.idleLane h
  | cons i l ih =>
    unfold Machine.laneTurn
    split
    · exact ih h
    · rename_i c _
      have hr : Out.Keeps Canonical (Machine.runIssue { s with cur := c }) := Canonical.runIssue (h.congr rfl rfl rfl)
      split
      · rename_i t e
        have ht : Canonical t := by rw [e] at hr; exact hr
        split
        · exact ih (ht.congr rfl rfl rfl)
        · exact Canonical.pointLane ht
      · exact hr

theorem Canonical.soloTurn {die : Nat} {c : Cur} {s : State} (h : Canonical s) : Out.Keeps Canonical (Machine.soloTurn die c s) := by
  have hr : Out.Keeps Canonical (Machine.runIssue { s with cur := c }) := Canonical.runIssue (h.congr rfl rfl rfl)
  unfold Machine.soloTurn
  split
  · rename_i t e
    have ht : Canonical t := by rw [e] at hr; exact hr
    have hn : Canonical { t with cur := {} } := ht
    exact keeps_ite (P := Canonical) (.pass hn) ht
  · exact hr

theorem Canonical.turn {t : Turn} {s : State} (h : Canonical s) : Out.Keeps Canonical (turn t s) := by
  unfold Machine.turn
  split
  · exact Canonical.laneTurn h
  · exact keeps_ite (Canonical.soloTurn h) h
  · exact keeps_ite (Canonical.soloTurn h) h
  · exact keeps_ite (Canonical.exec h) h
  · exact h
  · exact h
  · exact h

theorem Canonical.tallied {s : State} {x1 : Host.Outcome State Fault Refusal} (hx1 : Out.Keeps Canonical x1) : Out.Keeps Canonical (tallied s x1) := by
  unfold Machine.tallied
  split
  · exact Canonical.tally (.pauseDogs (.drawDue (keeps_ite hx1 (.replay hx1))))
  · exact hx1

theorem Canonical.unscheduled {s : State} (h : Canonical s) : Out.Keeps Canonical (unscheduled s) := by
  unfold Machine.unscheduled
  split
  · rename_i s1 e1
    have h1 := keeps_of_eq (Canonical.due h) e1
    exact h1
  · exact Canonical.turn h

theorem Canonical.step {s : State} (h : Canonical s) : Out.Keeps Canonical (step s) := by
  unfold Machine.step
  split
  · exact Canonical.tallied (Canonical.turn h)
  · exact Canonical.tallied (Canonical.unscheduled h)

/-- Settles O6: `Canonical.step`, one lemma per function that a step runs through. -/
theorem stepKeepsCanonical : Obligations.StepKeepsCanonical := by
  unfold Obligations.StepKeepsCanonical
  intro s t h e
  have ht := keeps_of_eq (Canonical.step h) e
  exact ht

end Sys2Proof
end

-- ==== Sys2Proof/Proofs/HubStore.lean ====
/-!
# What a store of HUB does to memory

HUB stores block by block, and each block's store also moves timestamps, reservations, windows and tags. `KeepsData` says what all of that leaves
alone; `State.rdByte_hubStore` then reads a byte back from the cells that were stored.
-/
section
namespace Sys2Proof.Machine
open Sys2Proof

/-- Addresses and interrupts are as they were, and no block is newly poisoned. -/
structure KeepsRoute (s t : State) : Prop where
  forward : t.forward = s.forward := by rfl
  region : t.region = s.region := by rfl
  diestat : t.diestat = s.diestat := by rfl
  msix : t.msix = s.msix := by rfl
  poison : ∀ b, b ∈ t.poison → b ∈ s.poison := by exact fun _ h => h

/-- So are the data: memory and descriptors. -/
structure KeepsData (s t : State) : Prop extends KeepsRoute s t where
  mem : t.mem = s.mem := by rfl
  desc : t.desc = s.desc := by rfl

theorem KeepsRoute.trans {s t u : State} (h : KeepsRoute s t) (k : KeepsRoute t u) : KeepsRoute s u where
  forward := k.forward.trans h.forward
  region := k.region.trans h.region
  diestat := k.diestat.trans h.diestat
  msix := k.msix.trans h.msix
  poison := fun b hb => h.poison b (k.poison b hb)

theorem KeepsData.trans {s t u : State} (h : KeepsData s t) (k : KeepsData t u) : KeepsData s u where
  toKeepsRoute := h.toKeepsRoute.trans k.toKeepsRoute
  mem := k.mem.trans h.mem
  desc := k.desc.trans h.desc

theorem KeepsRoute.fwd {s t : State} (h : KeepsRoute s t) (pa : Nat) : t.fwd pa = s.fwd pa := by
  unfold State.fwd
  rw [h.forward]

theorem KeepsRoute.blk {s t : State} (h : KeepsRoute s t) (pa : Nat) : t.blk pa = s.blk pa := by
  unfold State.blk
  rw [h.fwd]

theorem KeepsRoute.dieLost_homeDie {s t : State} (h : KeepsRoute s t) (pa : Nat) :
    t.dieLost (t.homeDie (t.fwd pa)) = s.dieLost (s.homeDie (s.fwd pa)) := by
  unfold State.dieLost State.homeDie State.regionOf
  rw [h.fwd, h.region, h.diestat]

theorem State.poisonedAt_eq_false {s : State} {pa : Nat} :
    s.poisonedAt pa = false ↔ isFlistad pa = true → s.blk pa ∉ s.poison ∧ s.dieLost (s.homeDie (s.fwd pa)) = false := by
  unfold State.poisonedAt
  cases isFlistad pa <;> simp

theorem KeepsRoute.not_poisonedAt {s t : State} (h : KeepsRoute s t) {pa : Nat} (hp : s.poisonedAt pa = false) : t.poisonedAt pa = false := by
  rw [State.poisonedAt_eq_false] at hp ⊢
  rw [h.dieLost_homeDie, h.blk]
  exact fun hf => ⟨fun hb => (hp hf).1 (h.poison _ hb), (hp hf).2⟩

theorem KeepsData.rdByte {s t : State} (h : KeepsData s t) (pa : Nat) : t.rdByte pa = s.rdByte pa := by
  unfold State.rdByte
  rw [h.fwd, h.mem]

/-! ### The operations that keep all data -/

theorem keepsData_setClock (s : State) (c : Clock) (t : BitVec 24) : KeepsData s (s.setClock c t) := by
  cases c with
  | cluster cl => exact {}
  | guest n => exact {}
  | dir => exact {}

theorem keepsData_visit (s : State) (i : Nat) : KeepsData s (s.visit i) := by
  unfold State.visit
  split
  · split
    · exact {}
    · exact {}
  · exact {}

theorem keepsData_visitAt (s : State) (pa : Nat) : KeepsData s (s.visitAt pa) := by
  unfold State.visitAt
  split
  · exact keepsData_visit s _
  · exact {}

theorem keepsData_plainStore (s : State) (c : Clock) (pa : Nat) : KeepsData s (s.plainStore c pa) := by
  unfold State.plainStore
  extract_lets s1
  have h1 : KeepsData s s1 := keepsData_visitAt s pa
  split
  · extract_lets t
    have h2 := h1.trans (keepsData_setClock s1 c t)
    exact { h2 with }
  · exact h1

theorem keepsData_loseResv (s : State) (b : Nat) : KeepsData s (s.loseResv b) := by
  unfold State.loseResv
  split
  · exact {}
  · exact {}

theorem keepsData_setCarry (s : State) (cs : List (Nat × Byte)) (p : Option (BitVec 24)) : KeepsData s (s.setCarry cs p) := {}

theorem keepsData_clearPoison (s : State) (pa : Nat) : KeepsData s (s.clearPoison pa) :=
  { poison := fun _ h => (List.mem_filter.mp h).1 }

theorem keepsData_winPut (s : State) (place : Nat) (cs : List (Nat × Byte)) (da : DescAct) : KeepsData s (s.winPut place cs da) := by
  unfold State.winPut
  split
  · extract_lets win b
    split
    · exact {}
    · exact {}
  · exact {}

theorem keepsData_ite {s t u : State} {c : Prop} {_ : Decidable c} (ht : KeepsData s t) (hu : KeepsData s u) : KeepsData s (if c then t else u) := by
  split
  · exact ht
  · exact hu

/-! ### A block's store -/

/-- The descriptor that a store leaves, where it sets one. -/
def DescAct.put? : DescAct → Option (BitVec 16)
  | .raw => some rawDesc
  | .put d => some d
  | .keep => none

/-- The descriptor of the block at `place` as a store leaves it. -/
def State.putDesc (s : State) (place : Nat) (da : DescAct) : State :=
  match da.put? with
  | some d => s.setDesc place d
  | none => s

theorem State.setDesc_mem (s : State) (pa : Nat) (d : BitVec 16) : (s.setDesc pa d).mem = s.mem := by
  unfold State.setDesc
  split
  · rfl
  · rfl

/-- A store that poison does not stop moves marks, then writes its bytes and sets its descriptor. -/
theorem State.homePut_eq {s : State} {place : Nat} (cs : List (Nat × Byte)) (da : DescAct) (hp : s.poisonedAt place = false) :
    ∃ u, KeepsData s u ∧ s.homePut place cs da = (u.wrCells cs).putDesc place da := by
  unfold State.homePut
  rw [if_neg (by simp [hp])]
  extract_lets s1 s2 s3
  have h1 : KeepsData s s1 := keepsData_ite {} {}
  have h2 : KeepsData s s2 := h1.trans (keepsData_ite (keepsData_clearPoison _ _) {})
  refine ⟨_, h2.trans (keepsData_winPut _ place cs da), ?_⟩
  cases da with
  | raw => rfl
  | put d => rfl
  | keep => rfl

theorem keepsRoute_ite {s t u : State} {c : Prop} {_ : Decidable c} (ht : KeepsRoute s t) (hu : KeepsRoute s u) :
    KeepsRoute s (if c then t else u) := by
  split
  · exact ht
  · exact hu

theorem keepsRoute_wrCells (s : State) (cs : List (Nat × Byte)) : KeepsRoute s (s.wrCells cs) := by
  rw [State.wrCells_eq]
  exact {}

theorem keepsRoute_putDesc (s : State) (place : Nat) (da : DescAct) : KeepsRoute s (s.putDesc place da) := by
  unfold State.putDesc State.setDesc
  split
  · exact keepsRoute_ite {} {}
  · exact {}

theorem State.putDesc_mem (s : State) (place : Nat) (da : DescAct) : (s.putDesc place da).mem = s.mem := by
  unfold State.putDesc
  split
  · exact State.setDesc_mem s place _
  · rfl

theorem State.homeWrite_eq {s : State} {place : Nat} (cs : List (Nat × Byte)) (da : DescAct) (pts : Option (BitVec 24)) (hp : s.poisonedAt place = false) :
    ∃ u, KeepsData s u ∧ s.homeWrite place cs da pts = (u.wrCells cs).putDesc place da := by
  unfold State.homeWrite
  rw [if_neg (by simp [hp])]
  have h1 : KeepsData s (if cs.isEmpty then s else (s.loseResv (s.blk place)).setCarry cs pts) :=
    keepsData_ite {} ((keepsData_loseResv s _).trans (keepsData_setCarry _ cs pts))
  obtain ⟨u, hu, e⟩ := State.homePut_eq cs da (h1.not_poisonedAt hp)
  exact ⟨u, h1.trans hu, e⟩

/-- No claim makes HUB the owner of a block. -/
theorem State.ownWrite_hub (s : State) (place : Nat) : s.ownWrite 768 0 place = false := by
  unfold State.ownWrite
  split
  · simp
  · rfl

theorem State.storeBlock_hub (s : State) (place : Nat) (cs : List (Nat × Byte)) (da : DescAct) (pts : Option (BitVec 24)) :
    s.storeBlock 768 0 place cs da pts = (s.plainStore (clockOf 768) place).homeWrite place cs da pts := by
  unfold State.storeBlock
  extract_lets s1
  have h1 : s1 = s := if_neg (by decide)
  clear_value s1
  subst h1
  rw [if_neg (by simp [State.ownWrite_hub])]

/-- HUB's store of one block: marks move, then the bytes are written and the descriptor set. -/
theorem State.hubBlock_eq {s : State} {place : Nat} (cs : List (Nat × Byte)) (da : DescAct) (hp : s.poisonedAt place = false) :
    ∃ u, KeepsData s u ∧ KeepsData ((u.wrCells cs).putDesc place da) (s.hubBlock place cs da) := by
  have h1 := keepsData_plainStore s (clockOf 768) place
  obtain ⟨u, hu, e⟩ := State.homeWrite_eq cs da (some s.hubPts) (h1.not_poisonedAt hp)
  refine ⟨u, h1.trans hu, ?_⟩
  unfold State.hubBlock
  rw [State.storeBlock_hub, e]
  extract_lets t
  split
  · exact {}
  · exact {}

theorem keepsRoute_homePut (s : State) (place : Nat) (cs : List (Nat × Byte)) (da : DescAct) : KeepsRoute s (s.homePut place cs da) := by
  unfold State.homePut
  split
  · exact {}
  · extract_lets s1 s2 s3
    have h1 : KeepsData s s1 := keepsData_ite {} {}
    have h2 : KeepsData s s2 := h1.trans (keepsData_ite (keepsData_clearPoison _ _) {})
    have h3 : KeepsRoute s s3 := (h2.trans (keepsData_winPut _ place cs da)).toKeepsRoute.trans (keepsRoute_wrCells _ cs)
    have h4 := h3.trans (keepsRoute_putDesc s3 place da)
    cases da with
    | raw => exact h4
    | put d => exact h4
    | keep => exact h4

theorem keepsRoute_homeWrite (s : State) (place : Nat) (cs : List (Nat × Byte)) (da : DescAct) (pts : Option (BitVec 24)) :
    KeepsRoute s (s.homeWrite place cs da pts) := by
  unfold State.homeWrite
  have h1 : KeepsData s (if cs.isEmpty then s else (s.loseResv (s.blk place)).setCarry cs pts) :=
    keepsData_ite {} ((keepsData_loseResv s _).trans (keepsData_setCarry _ cs pts))
  exact keepsRoute_ite {} (h1.toKeepsRoute.trans (keepsRoute_homePut _ place cs da))

theorem keepsRoute_hubBlock (s : State) (place : Nat) (cs : List (Nat × Byte)) (da : DescAct) : KeepsRoute s (s.hubBlock place cs da) := by
  unfold State.hubBlock
  rw [State.storeBlock_hub]
  extract_lets t
  have ht : KeepsRoute s t := (keepsData_plainStore s (clockOf 768) place).toKeepsRoute.trans (keepsRoute_homeWrite _ place cs da _)
  split
  · exact { ht with }
  · exact ht

theorem State.hubBlock_mem {s : State} {place : Nat} (cs : List (Nat × Byte)) (da : DescAct) (hp : s.poisonedAt place = false) :
    ∃ u, KeepsData s u ∧ (s.hubBlock place cs da).mem = (u.wrCells cs).mem := by
  obtain ⟨u, hu, ht⟩ := State.hubBlock_eq cs da hp
  exact ⟨u, hu, ht.mem.trans (State.putDesc_mem _ place da)⟩

/-! ### Reading back -/

/-- The byte that the last of the cells at `a` writes. -/
def lastCell (cs : List (Nat × Byte)) (a : Nat) : Option Byte := (cs.reverse.find? fun c => c.1 == a).map (·.2)

theorem lastCell_nil (a : Nat) : lastCell [] a = none := rfl

theorem lastCell_append (cs ds : List (Nat × Byte)) (a : Nat) : lastCell (cs ++ ds) a = (lastCell ds a).or (lastCell cs a) := by
  simp [lastCell, List.find?_append, Option.map_or]

theorem lastCell_cons (c : Nat × Byte) (cs : List (Nat × Byte)) (a : Nat) :
    lastCell (c :: cs) a = (lastCell cs a).or (if c.1 = a then some c.2 else none) := by
  rw [show c :: cs = [c] ++ cs from rfl, lastCell_append]
  congr 1
  by_cases h : c.1 = a <;> simp [lastCell, h]

theorem lastCell_eq_none {cs : List (Nat × Byte)} {a : Nat} (h : ∀ c ∈ cs, c.1 ≠ a) : lastCell cs a = none := by
  simpa [lastCell] using h

theorem lastCell_filter (cs : List (Nat × Byte)) (p : Nat → Bool) (a : Nat) :
    lastCell (cs.filter fun c => p c.1) a = if p a then lastCell cs a else none := by
  induction cs with
  | nil => simp [lastCell_nil]
  | cons c cs ih =>
    by_cases hc : p c.1 = true
    · rw [List.filter_cons_of_pos (p := fun c : Nat × Byte => p c.1) hc, lastCell_cons, lastCell_cons, ih]
      by_cases ha : p a
      · simp [ha]
      · have hne : c.1 ≠ a := fun e => ha (e ▸ hc)
        simp [ha, hne]
    · rw [List.filter_cons_of_neg (p := fun c : Nat × Byte => p c.1) hc, lastCell_cons, ih]
      by_cases ha : p a
      · have hne : c.1 ≠ a := fun e => hc (e ▸ ha)
        simp [ha, hne]
      · simp [ha]

theorem State.fwd_of_nil {s : State} (h : s.forward = []) (pa : Nat) : s.fwd pa = pa := by
  unfold State.fwd
  rw [h]
  rfl

theorem State.rdByte_wrCells {s : State} (hf : s.forward = []) (hw : Memory.wf s.mem) (cs : List (Nat × Byte)) (a : Nat) :
    (s.wrCells cs).rdByte a = (lastCell cs a).getD (s.rdByte a) := by
  induction cs generalizing s with
  | nil => rfl
  | cons c cs ih =>
    rw [State.wrCells_cons, ih (s := s.wrByte c.1 c.2) hf (State.wf_wrByte s _ _ hw), lastCell_cons]
    by_cases h : c.1 = a
    · subst h
      rw [State.rdByte_wrByte_self s _ _ hw]
      cases lastCell cs c.1 <;> simp
    · rw [State.rdByte_wrByte_ne s _ (by rw [State.fwd_of_nil hf, State.fwd_of_nil hf]; exact fun e => h e.symm)]
      simp [h]

theorem State.rdByte_hubBlock {s : State} {place : Nat} (hf : s.forward = []) (hw : Memory.wf s.mem) (cs : List (Nat × Byte)) (da : DescAct)
    (hp : s.poisonedAt place = false) (a : Nat) : (s.hubBlock place cs da).rdByte a = (lastCell cs a).getD (s.rdByte a) := by
  obtain ⟨u, hu, e⟩ := State.hubBlock_mem cs da hp
  have hfu : u.forward = [] := hu.forward.trans hf
  have hft := (keepsRoute_hubBlock s place cs da).forward.trans hf
  calc (s.hubBlock place cs da).rdByte a
      = (u.wrCells cs).rdByte a := by
        unfold State.rdByte
        rw [e, State.fwd_of_nil hft, State.fwd_of_nil ((keepsRoute_wrCells u cs).forward.trans hfu)]
    _ = (lastCell cs a).getD (s.rdByte a) := by
        rw [State.rdByte_wrCells hfu (by rw [hu.mem]; exact hw), hu.rdByte]

theorem State.wf_hubBlock {s : State} {place : Nat} (hw : Memory.wf s.mem) (cs : List (Nat × Byte)) (da : DescAct) (hp : s.poisonedAt place = false) :
    Memory.wf (s.hubBlock place cs da).mem := by
  obtain ⟨u, hu, e⟩ := State.hubBlock_mem cs da hp
  rw [e]
  exact State.wf_wrCells u cs (by rw [hu.mem]; exact hw)

/-- HUB's store, one block of `blocks` after another. -/
def hubBlocks (cells : List (Nat × Byte)) (blocks : List Nat) (s : State) : State :=
  blocks.foldl (fun s b => s.hubBlock (b * 64) (cells.filter fun c => c.1 / 64 == b) .raw) s

theorem hubStore_eq (s : State) (cells : List (Nat × Byte)) :
    hubStore s cells = hubBlocks cells ((cells.foldl (fun (m : SMap Unit) c => m.insert (c.1 / 64) ()) []).map (·.1)) s := rfl

theorem keepsRoute_hubBlocks (s : State) (cells : List (Nat × Byte)) (blocks : List Nat) : KeepsRoute s (hubBlocks cells blocks s) := by
  induction blocks generalizing s with
  | nil => exact {}
  | cons b bs ih => exact (keepsRoute_hubBlock s _ _ _).trans (ih _)

theorem keepsRoute_hubStore (s : State) (cells : List (Nat × Byte)) : KeepsRoute s (hubStore s cells) := keepsRoute_hubBlocks s cells _

theorem rdByte_hubBlocks {s : State} {cells : List (Nat × Byte)} {blocks : List Nat} (hf : s.forward = []) (hw : Memory.wf s.mem)
    (hp : ∀ b ∈ blocks, s.poisonedAt (b * 64) = false) (a : Nat) :
    (hubBlocks cells blocks s).rdByte a = if a / 64 ∈ blocks then (lastCell cells a).getD (s.rdByte a) else s.rdByte a := by
  induction blocks generalizing s with
  | nil => rfl
  | cons b bs ih =>
    have hb := hp b List.mem_cons_self
    have h1 := keepsRoute_hubBlock s (b * 64) (cells.filter fun c => c.1 / 64 == b) .raw
    have hr := ih (h1.forward.trans hf) (State.wf_hubBlock hw _ _ hb) fun c hc => h1.not_poisonedAt (hp c (List.mem_cons_of_mem _ hc))
    have hs : hubBlocks cells (b :: bs) s = hubBlocks cells bs (s.hubBlock (b * 64) (cells.filter fun c => c.1 / 64 == b) .raw) := rfl
    rw [hs, hr, State.rdByte_hubBlock hf hw _ _ hb, lastCell_filter cells (fun x => x / 64 == b)]
    by_cases hab : a / 64 = b
    · subst hab
      cases lastCell cells a <;> simp
    · simp [hab]

theorem SMap.find?_isSome {α : Type} {m : SMap α} {i : Nat} : (m.find? i).isSome = true ↔ i ∈ m.map (·.1) := by
  induction m with
  | nil => simp [SMap.find?]
  | cons p m ih =>
    obtain ⟨k, v⟩ := p
    by_cases h : k = i
    · simp [SMap.find?, h]
    · have hne : i ≠ k := fun e => h e.symm
      simp [SMap.find?, h, hne, ih]

theorem SMap.mem_keys_insert {α : Type} {m : SMap α} {i j : Nat} {v : α} : j ∈ (m.insert i v).map (·.1) ↔ j = i ∨ j ∈ m.map (·.1) := by
  rw [← SMap.find?_isSome, ← SMap.find?_isSome]
  by_cases h : j = i
  · subst h
    simp [SMap.find?_insert_self]
  · simp [SMap.find?_insert_ne _ _ h, h]

theorem mem_blocks {cells : List (Nat × Byte)} {m : SMap Unit} {b : Nat} :
    b ∈ (cells.foldl (fun (m : SMap Unit) c => m.insert (c.1 / 64) ()) m).map (·.1) ↔ b ∈ m.map (·.1) ∨ ∃ c ∈ cells, c.1 / 64 = b := by
  induction cells generalizing m with
  | nil => simp
  | cons c cs ih =>
    rw [List.foldl_cons, ih, SMap.mem_keys_insert]
    simp only [List.mem_cons, exists_eq_or_imp, eq_comm (a := b)]
    tauto

theorem lastCell_ne_none {cs : List (Nat × Byte)} {a : Nat} (h : lastCell cs a ≠ none) : ∃ c ∈ cs, c.1 = a := by
  by_contra hc
  exact h (lastCell_eq_none fun c hm e => hc ⟨c, hm, e⟩)

section
variable {s : State} {cells : List (Nat × Byte)} (hp : ∀ c ∈ cells, s.poisonedAt (c.1 / 64 * 64) = false)
include hp

theorem blocks_not_poisoned : ∀ b ∈ (cells.foldl (fun (m : SMap Unit) c => m.insert (c.1 / 64) ()) []).map (·.1), s.poisonedAt (b * 64) = false := by
  intro b hb
  obtain h | ⟨c, hc, rfl⟩ := mem_blocks.mp hb
  · simp at h
  · exact hp c hc

/-- A byte of memory after HUB's store: the last cell at its address, or what it was. -/
theorem State.rdByte_hubStore (hf : s.forward = []) (hw : Memory.wf s.mem) (a : Nat) :
    (hubStore s cells).rdByte a = (lastCell cells a).getD (s.rdByte a) := by
  rw [hubStore_eq, rdByte_hubBlocks hf hw (blocks_not_poisoned hp)]
  split
  · rfl
  · rename_i hn
    have hnone : lastCell cells a = none := by
      by_contra h
      obtain ⟨c, hc, rfl⟩ := lastCell_ne_none h
      exact hn (mem_blocks.mpr (.inr ⟨c, hc, rfl⟩))
    rw [hnone]
    rfl

end

/-! ### A block lies in one place -/

theorem isFlistad_block (pa : Nat) : isFlistad (pa / 64 * 64) = isFlistad pa := by
  have h (n : Nat) : pa / 64 * 64 < 64 * n ↔ pa < 64 * n := by omega
  have h1 := h (0x018000000000 / 64)
  have h2 := h (0x020000000000 / 64)
  have h3 := h (0x040000000000 / 64)
  have h4 := h (0x060000000000 / 64)
  have h5 := h (0x800000000000 / 64)
  norm_num at h1 h2 h3 h4 h5
  unfold isFlistad targetOf
  simp only [h1, h2, h3, h4, h5]

theorem State.homeDie_block (s : State) (pa : Nat) : s.homeDie (pa / 64 * 64) = s.homeDie pa := by
  have h1 : pa / 64 * 64 / 2 ^ 30 = pa / 2 ^ 30 := by omega
  have h2 : pa / 64 * 64 / 4096 = pa / 4096 := by omega
  unfold State.homeDie State.regionOf
  rw [h1, h2]

theorem State.poisonedAt_block {s : State} (hf : s.forward = []) (pa : Nat) : s.poisonedAt (pa / 64 * 64) = s.poisonedAt pa := by
  unfold State.poisonedAt State.blk
  rw [State.fwd_of_nil hf, State.fwd_of_nil hf, isFlistad_block, State.homeDie_block, show pa / 64 * 64 / 64 = pa / 64 by omega]

end Sys2Proof.Machine
end

-- ==== Sys2Proof/Proofs/HostRegisters.lean ====
/-!
# The registers that the host writes (R419, R459, R460, R464, R465, R488)

A write is performed byte by byte; `putBytes` is what the bytes of a number make of a register.
-/
section
namespace Sys2Proof.Machine
open Sys2Proof

/-- The first `n` bytes of `v` in place of those of `x`. -/
def putBytes (n x v : Nat) : Nat := x / 256 ^ n * 256 ^ n + v % 256 ^ n

theorem putBytes_zero (x v : Nat) : putBytes 0 x v = x := by simp [putBytes, Nat.mod_one]

theorem putBytes_all {n x v : Nat} (hx : x < 256 ^ n) (hv : v < 256 ^ n) : putBytes n x v = v := by
  simp [putBytes, Nat.div_eq_of_lt hx, Nat.mod_eq_of_lt hv]

theorem putByte_putBytes (n x v : Nat) : putByte (putBytes n x v) n (BitVec.ofNat 8 (v / 256 ^ n)) = putBytes (n + 1) x v := by
  have hpos : 0 < 256 ^ n := Nat.pow_pos (by decide)
  have hlt : v % 256 ^ n < 256 ^ n := Nat.mod_lt _ hpos
  have hdiv : putBytes n x v / 256 ^ (n + 1) = x / 256 ^ (n + 1) := by
    rw [putBytes, Nat.pow_succ, ← Nat.div_div_eq_div_mul, ← Nat.div_div_eq_div_mul, Nat.mul_comm, Nat.mul_add_div hpos, Nat.div_eq_of_lt hlt, Nat.add_zero]
  have hmod : putBytes n x v % 256 ^ n = v % 256 ^ n := by
    rw [putBytes, Nat.mul_comm, Nat.mul_add_mod, Nat.mod_mod]
  have hbyte : (BitVec.ofNat 8 (v / 256 ^ n)).toNat = v / 256 ^ n % 256 := by simp
  unfold putByte
  rw [hdiv, hmod, hbyte]
  unfold putBytes
  rw [Nat.pow_succ, Nat.mod_mul, Nat.mul_comm (256 ^ n) (v / 256 ^ n % 256)]
  omega

theorem putBytes_lt {m n x v : Nat} (h : n ≤ m) (hx : x < 256 ^ m) : putBytes n x v < 256 ^ m := by
  obtain ⟨k, rfl⟩ := Nat.exists_eq_add_of_le h
  have hpos : 0 < 256 ^ n := Nat.pow_pos (by decide)
  have h1 : x / 256 ^ n < 256 ^ k := Nat.div_lt_of_lt_mul (by rw [← Nat.pow_add]; exact hx)
  have h2 : v % 256 ^ n < 256 ^ n := Nat.mod_lt _ hpos
  calc putBytes n x v < x / 256 ^ n * 256 ^ n + 256 ^ n := Nat.add_lt_add_left h2 _
    _ = (x / 256 ^ n + 1) * 256 ^ n := by rw [Nat.add_mul, Nat.one_mul]
    _ ≤ 256 ^ k * 256 ^ n := Nat.mul_le_mul_right _ h1
    _ = 256 ^ (n + k) := by rw [← Nat.pow_add, Nat.add_comm]

/-- A register of `m` bytes that holds the first `n` of them takes the next. -/
theorem ofNat_putByte {w m n : Nat} (hw : 2 ^ w = 256 ^ m) (hn : n ≤ m) (x : BitVec w) (v : Nat) :
    BitVec.ofNat w (putByte (BitVec.ofNat w (putBytes n x.toNat v)).toNat n (BitVec.ofNat 8 (v / 256 ^ n))) = BitVec.ofNat w (putBytes (n + 1) x.toNat v) := by
  have hlt : putBytes n x.toNat v < 2 ^ w := hw ▸ putBytes_lt hn (hw ▸ x.isLt)
  rw [BitVec.toNat_ofNat, Nat.mod_eq_of_lt hlt, putByte_putBytes]

/-- The cells of a write of `n` bytes of `v`. -/
def numCells (off n v : Nat) : List (Nat × Byte) := (leBytes n v).mapIdx fun i b => (off + i, b)

theorem numCells_succ (off n v : Nat) : numCells off (n + 1) v = numCells off n v ++ [(off + n, BitVec.ofNat 8 (v / 256 ^ n))] := by
  simp [numCells, leBytes, List.range_succ, List.mapIdx_append]

theorem numCells_zero (off v : Nat) : numCells off 0 v = [] := rfl

/-- What a write of cells makes of the registers. -/
def regCells (s : State) (cells : List (Nat × Byte)) : State := cells.foldl (fun s c => regByte s c.1 c.2) s

theorem regCells_numCells_succ (s : State) (off n v : Nat) :
    regCells s (numCells off (n + 1) v) = regByte (regCells s (numCells off n v)) (off + n) (BitVec.ofNat 8 (v / 256 ^ n)) := by
  simp [regCells, numCells_succ]

theorem leBytes_length (n v : Nat) : (leBytes n v).length = n := by simp [leBytes]

/-- A write of a number that is no start of MOVECMD. -/
theorem execRegisterWrite_num {s : State} (h : s.phase = 15) {off n v : Nat} (hoff : off ≠ 0x110000) :
    execRegisterWrite off (leBytes n v) s = .next (regCells s (numCells off n v)) := by
  unfold execRegisterWrite
  simp [h, hoff, regCells, numCells]

theorem execRegisterWrite_byte {s : State} (h : s.phase = 15) (off : Nat) (x : Byte) :
    execRegisterWrite off [x] s = .next (regByte s off x) := by
  unfold execRegisterWrite
  rw [if_neg (by simp [h])]
  simp

theorem execRegisterWrite_not_ready {s : State} (h : s.phase ≠ 15) (off : Nat) (d : List Byte) : execRegisterWrite off d s = .next s := by
  unfold execRegisterWrite
  rw [if_pos (by simpa using h)]

/-! ### Byte by byte -/

theorem regByte_other {s : State} {off : Nat} (h : off < 0x110000 ∨ 0x170020 ≤ off) (b : Byte) : regByte s off b = s := by
  unfold regByte
  repeat rw [if_neg (by omega)]

theorem regByte_lost {s : State} {i : Nat} (h : i < 2) (b : Byte) :
    regByte s (0x160602 + i) b = { s with lost := s.lost &&& ~~~(BitVec.ofNat 16 (b.toNat * 256 ^ i)) } := by
  unfold regByte
  rw [if_neg (by omega), if_neg (by omega), if_pos (by omega), Nat.add_sub_cancel_left]

theorem regByte_proterr {s : State} {n : Nat} (h : n < 2) {b : Byte} (hb : b ≠ 0) :
    regByte s (0x170004 + 16 * n) b = s.updSite n fun x => { x with proterr := 0 } := by
  unfold regByte
  rw [if_neg (by omega), if_neg (by omega), if_neg (by omega), if_neg (by omega), if_neg (by omega), if_pos ⟨by omega, hb⟩,
    show (0x170004 + 16 * n - 0x170000) / 16 = n by omega]

theorem regByte_expCount {s : State} {i : Nat} (h : i < 4) (b : Byte) :
    regByte s (0x160608 + i) b = { s with expCount := BitVec.ofNat 32 (putByte s.expCount.toNat i b) } := by
  unfold regByte
  rw [if_neg (by omega), if_neg (by omega), if_neg (by omega), if_pos (by omega), Nat.add_sub_cancel_left]

theorem regByte_hevRd {s : State} {i : Nat} (h : i < 2) (b : Byte) :
    regByte s (0x160708 + i) b = { s with hevRd := BitVec.ofNat 16 (putByte s.hevRd.toNat i b) } := by
  unfold regByte
  rw [if_neg (by omega), if_neg (by omega), if_neg (by omega), if_neg (by omega), if_pos (by omega), Nat.add_sub_cancel_left]

theorem regByte_moveCmd {s : State} {i : Nat} (h : i < 32) (b : Byte) :
    regByte s (0x110000 + i) b = { s with moveCmd := BitVec.ofNat 256 (putByte s.moveCmd.toNat i b) } := by
  unfold regByte
  rw [if_neg (by omega), if_pos (by omega), Nat.add_sub_cancel_left]

theorem regByte_exports {s : State} {k i : Nat} (hk : k < 4096) (h : i < 32) (b : Byte) :
    regByte s (0x140000 + 32 * k + i) b = { s with exports := s.exports.setD 0 k (BitVec.ofNat 256 (putByte (s.exports.getD 0 k).toNat i b)) } := by
  unfold regByte
  rw [if_pos (by omega), show (0x140000 + 32 * k + i - 0x140000) / 32 = k by omega, show (0x140000 + 32 * k + i) % 32 = i by omega]

/-! ### Numbers -/

theorem regCells_expCount (s : State) (v : Nat) {n : Nat} (hn : n ≤ 4) :
    regCells s (numCells 0x160608 n v) = { s with expCount := BitVec.ofNat 32 (putBytes n s.expCount.toNat v) } := by
  induction n with
  | zero => simp [numCells_zero, regCells, putBytes_zero]
  | succ n ih =>
    rw [regCells_numCells_succ, ih (by omega), regByte_expCount (by omega)]
    dsimp only
    rw [ofNat_putByte (m := 4) rfl (by omega)]

theorem regCells_hevRd (s : State) (v : Nat) {n : Nat} (hn : n ≤ 2) :
    regCells s (numCells 0x160708 n v) = { s with hevRd := BitVec.ofNat 16 (putBytes n s.hevRd.toNat v) } := by
  induction n with
  | zero => simp [numCells_zero, regCells, putBytes_zero]
  | succ n ih =>
    rw [regCells_numCells_succ, ih (by omega), regByte_hevRd (by omega)]
    dsimp only
    rw [ofNat_putByte (m := 2) rfl (by omega)]

theorem regCells_moveCmd (s : State) (v : Nat) {n : Nat} (hn : n ≤ 32) :
    regCells s (numCells 0x110000 n v) = { s with moveCmd := BitVec.ofNat 256 (putBytes n s.moveCmd.toNat v) } := by
  induction n with
  | zero => simp [numCells_zero, regCells, putBytes_zero]
  | succ n ih =>
    rw [regCells_numCells_succ, ih (by omega), regByte_moveCmd (by omega)]
    dsimp only
    rw [ofNat_putByte (m := 32) rfl (by omega)]

/-- An entry of the table of exports while it is written: the other entries and memory stay. -/
theorem regCells_exports {s : State} {k : Nat} (hk : k < 4096) (hw : SMap.wf (0 : BitVec 256) s.exports = true) (v : Nat) {n : Nat} (hn : n ≤ 32) :
    let t := regCells s (numCells (0x140000 + 32 * k) n v)
    SMap.wf (0 : BitVec 256) t.exports = true ∧ t.exports.getD 0 k = BitVec.ofNat 256 (putBytes n (s.exports.getD 0 k).toNat v) ∧
      (∀ j, j ≠ k → t.exports.getD 0 j = s.exports.getD 0 j) ∧ t.mem = s.mem := by
  induction n with
  | zero => exact ⟨hw, by simp [numCells_zero, regCells, putBytes_zero], fun _ _ => rfl, rfl⟩
  | succ n ih =>
    obtain ⟨hwt, hself, hne, hmem⟩ := ih (by omega)
    intro t
    have ht : t = _ := (regCells_numCells_succ s _ n v).trans (regByte_exports hk (by omega) _)
    rw [hself, ofNat_putByte (m := 32) rfl (by omega)] at ht
    rw [ht]
    exact ⟨SMap.wf_setD _ _ hwt, SMap.getD_setD_self _ _ _ (SMap.wf_iff.mp hwt).1, fun j hj => (SMap.getD_setD_ne _ _ _ hj).trans (hne j hj), hmem⟩

end Sys2Proof.Machine
end

-- ==== Sys2Proof/Proofs/HostAccesses.lean ====
/-!
# What the host reads, writes and commands (O56)
-/
section
namespace Sys2Proof.Machine
open Sys2Proof

/-! ### When an access is performed, and when it waits (R130, R422, R502) -/

section
variable {q : Queued} {pas : List Nat} {s : State} {f : State → State}

theorem hostAccess_not_ready (h : s.phase ≠ 15) : hostAccess q pas s f = .next s := by
  unfold hostAccess
  rw [if_pos (by simpa using h)]

theorem hostAccess_behind (h : s.phase = 15) (hq : ∃ p ∈ s.queued, p.isHost = true) : hostAccess q pas s f = .next { s with queued := s.queued ++ [q] } := by
  unfold hostAccess
  rw [if_neg (by simp [h]), if_pos (List.any_eq_true.mpr hq)]

theorem hostAccess_ready (h : s.phase = 15) (hq : ∀ p ∈ s.queued, p.isHost = false) {s1 : State} (hr : physReady s pas = .ok () s1) :
    hostAccess q pas s f = .next (f s) := by
  unfold hostAccess
  rw [if_neg (by simp [h]), if_neg (by simpa using hq)]
  simp only [hr]

theorem hostAccess_waits (h : s.phase = 15) (hq : ∀ p ∈ s.queued, p.isHost = false)
    (hr : physReady s pas = .wait ∨ ∃ fr, physReady s pas = .recall fr) :
    ∃ t, hostAccess q pas s f = .next t ∧ t.queued = s.queued ++ [q] ∧ t.mem = s.mem := by
  unfold hostAccess
  rw [if_neg (by simp [h]), if_neg (by simpa using hq)]
  obtain hr | ⟨fr, hr⟩ := hr
  · simp only [hr]
    exact ⟨_, rfl, rfl, rfl⟩
  · simp only [hr]
    exact ⟨_, rfl, rfl, rfl⟩

end

/-! ### Data and descriptors -/

theorem exec_hostDataWrite (pa : Nat) (d : List Byte) (s : State) :
    exec (.hostDataWrite pa d) s = hostAccess (.hostWrite pa d) ((hostCells s (d.mapIdx fun i b => (pa + i, b))).map (·.1)) s fun t =>
      hubStore t (hostCells s (d.mapIdx fun i b => (pa + i, b))) := rfl

theorem exec_hostDataRead (pa n : Nat) (s : State) :
    exec (.hostDataRead pa n) s = hostAccess (.hostRead pa n) (((List.range n).map (pa + ·)).filter isFlistad) s fun t =>
      { t.draw.2 with hostOut := ((List.range n).map (pa + ·)).map (hostByte t.draw.2 t.draw.1) } := rfl

/-- The descriptor of block `b` with the bytes of a write at `off` in place. -/
def descPuts (s : State) (off : Nat) (data : List Byte) (b : Nat) : BitVec 16 :=
  ((data.mapIdx fun i x => (off + i, x)).filter fun c => c.1 / 2 == b).foldl (fun d c => descPut d c.1 c.2) (s.descOf (b * 64))

/-- The blocks that a write of descriptors names and that take it. -/
def descBlocks (s : State) (off : Nat) (data : List Byte) : List Nat :=
  (((data.mapIdx fun i x => (off + i, x)).map fun c => c.1 / 2).eraseDups).filter fun b => isFlistad (b * 64) && !s.poisonedAt (b * 64)

theorem exec_hostDescriptorWrite (off : Nat) (data : List Byte) (s : State) :
    exec (.hostDescriptorWrite off data) s = hostAccess (.hostDesc off data) ((descBlocks s off data).map (· * 64)) s fun t =>
      (descBlocks s off data).foldl (fun u b => u.hubBlock (b * 64) [] (.put (descPuts t off data b))) t := rfl

theorem lastCell_mapIdx (pa : Nat) (d : List Byte) (a : Nat) :
    lastCell (d.mapIdx fun i b => (pa + i, b)) a = if pa ≤ a ∧ a < pa + d.length then some (d.getD (a - pa) 0) else none := by
  induction d using List.reverseRecOn with
  | nil =>
    rw [if_neg (by rw [List.length_nil]; omega)]
    rfl
  | append_singleton d b ih =>
    rw [List.mapIdx_append, lastCell_append, ih]
    simp only [List.mapIdx_cons, List.mapIdx_nil, lastCell_cons, lastCell_nil, Nat.zero_add, List.length_append, List.length_singleton]
    by_cases h : pa + d.length = a
    · subst h
      simp [List.getD]
    · by_cases hin : pa ≤ a ∧ a < pa + d.length
      · rw [if_neg h, if_pos hin, if_pos (by omega)]
        simp [List.getD, List.getElem?_append_left (show a - pa < d.length by omega)]
      · rw [if_neg h, if_neg hin, if_neg (by omega)]
        rfl

theorem mem_hostCells {s : State} {cs : List (Nat × Byte)} {c : Nat × Byte} (h : c ∈ hostCells s cs) :
    isFlistad c.1 = true ∧ (s.poisonedAt c.1 = true → coversBlock (cs.filter fun d => d.1 / 64 == c.1 / 64) = true) := by
  obtain ⟨-, h⟩ := List.mem_filter.mp h
  obtain ⟨hf, hp⟩ := Bool.and_eq_true_iff.mp h
  refine ⟨hf, fun hc => ?_⟩
  rw [hc] at hp
  simp only [Bool.not_true, Bool.false_or, Bool.and_eq_true] at hp
  exact hp.2

theorem hostCells_eq {s : State} {cs : List (Nat × Byte)} (h : ∀ c ∈ cs, isFlistad c.1 = true ∧ s.poisonedAt c.1 = false) : hostCells s cs = cs := by
  refine List.filter_eq_self.mpr fun c hc => ?_
  obtain ⟨hf, hp⟩ := h c hc
  simp [hf, hp]

theorem mem_dataCells {pa : Nat} {d : List Byte} {c : Nat × Byte} (h : c ∈ d.mapIdx fun i b => (pa + i, b)) : ∃ i, i < d.length ∧ c.1 = pa + i := by
  obtain ⟨i, hi, rfl⟩ := List.mem_mapIdx.mp h
  exact ⟨i, hi, rfl⟩

theorem map_fst_dataCells (pa : Nat) (d : List Byte) : (d.mapIdx fun i b => (pa + i, b)).map (·.1) = (List.range d.length).map (pa + ·) := by
  refine List.ext_getElem (by simp) fun i h1 h2 => ?_
  simp

/-- R130: a write of memory without poison. -/
theorem hostDataWrite_stores {pa : Nat} {d : List Byte} {s s1 : State} (hph : s.phase = 15) (hq : ∀ q ∈ s.queued, q.isHost = false) (hf : s.forward = [])
    (hw : SMap.wf (0 : Byte) s.mem = true) (hd : ∀ i, i < d.length → isFlistad (pa + i) = true ∧ s.poisonedAt (pa + i) = false)
    (hr : physReady s ((List.range d.length).map (pa + ·)) = .ok () s1) :
    ∃ t, exec (.hostDataWrite pa d) s = .next t ∧ ∀ a, t.rdByte a = if pa ≤ a ∧ a < pa + d.length then d.getD (a - pa) 0 else s.rdByte a := by
  have hgood : ∀ c ∈ d.mapIdx fun i b => (pa + i, b), isFlistad c.1 = true ∧ s.poisonedAt c.1 = false := by
    intro c hc
    obtain ⟨i, hi, e⟩ := mem_dataCells hc
    rw [e]
    exact hd i hi
  have hcells := hostCells_eq hgood
  rw [← map_fst_dataCells] at hr
  refine ⟨hubStore s (d.mapIdx fun i b => (pa + i, b)), ?_, fun a => ?_⟩
  · rw [exec_hostDataWrite, hcells]
    exact hostAccess_ready hph hq hr
  · rw [State.rdByte_hubStore (fun c hc => (State.poisonedAt_block hf c.1).trans (hgood c hc).2) hf hw, lastCell_mapIdx]
    split
    · rfl
    · rfl

theorem hostByte_of_flistad {s : State} {f a : Nat} (hf : isFlistad a = true) (hp : s.poisonedAt a = false) : hostByte s f a = s.rdByte a := by
  unfold hostByte
  rw [hf, hp]
  rfl

theorem hostDataRead_answers {pa n : Nat} {s s1 : State} (hph : s.phase = 15) (hq : ∀ q ∈ s.queued, q.isHost = false)
    (hr : physReady s (((List.range n).map (pa + ·)).filter isFlistad) = .ok () s1) :
    ∃ t f, exec (.hostDataRead pa n) s = .next t ∧ t.hostOut = ((List.range n).map fun i => hostByte s f (pa + i)) ∧ t.mem = s.mem ∧ t.groups = s.groups := by
  refine ⟨{ s.draw.2 with hostOut := ((List.range n).map (pa + ·)).map (hostByte s.draw.2 s.free) }, s.free, ?_, ?_, rfl, rfl⟩
  · rw [exec_hostDataRead]
    exact hostAccess_ready hph hq hr
  · rw [List.map_map]
    rfl

/-! ### The descriptor of one block (R79) -/

theorem descPut_even {d : BitVec 16} {off : Nat} (h : off % 2 = 0) (b : Byte) : fld (descPut d off b) 15 8 = b.toNat ∧ fld (descPut d off b) 7 0 = fld d 7 0 := by
  have hb := b.isLt
  unfold descPut fld
  rw [if_pos h, BitVec.toNat_ofNat]
  omega

theorem descPut_odd {d : BitVec 16} {off : Nat} (h : off % 2 = 1) (b : Byte) : fld (descPut d off b) 7 0 = b.toNat ∧ fld (descPut d off b) 15 8 = fld d 15 8 := by
  have hb := b.isLt
  have hd := d.isLt
  unfold descPut fld
  rw [if_neg (by omega), BitVec.toNat_ofNat]
  omega

theorem bar4Byte_even (s : State) (b : Nat) : (bar4Byte s (2 * b)).toNat = fld (s.descOf (b * 64)) 15 8 := by
  unfold bar4Byte fld
  rw [show 2 * b / 2 = b by omega, if_pos (by omega)]
  simp [Nat.shiftRight_eq_div_pow]

theorem bar4Byte_odd (s : State) (b : Nat) : (bar4Byte s (2 * b + 1)).toNat = fld (s.descOf (b * 64)) 7 0 := by
  unfold bar4Byte fld
  rw [show (2 * b + 1) / 2 = b by omega, if_neg (by omega)]
  simp

section
variable {b : Nat} {s s1 : State} (hph : s.phase = 15) (hq : ∀ q ∈ s.queued, q.isHost = false) (hf : s.forward = [])
  (hw : SMap.wf rawDesc s.desc = true) (hfl : isFlistad (b * 64) = true) (hp : s.poisonedAt (b * 64) = false)

include hf hw hfl hp in
/-- HUB's store of a descriptor alone. -/
theorem hubBlock_put (d : BitVec 16) : (s.hubBlock (b * 64) [] (.put d)).descOf (b * 64) = d ∧
    (∀ pa, pa / 64 ≠ b → (s.hubBlock (b * 64) [] (.put d)).descOf pa = s.descOf pa) ∧ (s.hubBlock (b * 64) [] (.put d)).mem = s.mem := by
  obtain ⟨u, hu, ht⟩ := State.hubBlock_eq [] (.put d) hp
  have hdesc : (s.hubBlock (b * 64) [] (.put d)).desc = s.desc.setD rawDesc b d := by
    rw [ht.desc]
    change (u.setDesc (b * 64) d).desc = _
    unfold State.setDesc
    rw [if_pos hfl, ← hu.desc]
    dsimp only
    rw [State.blk, State.fwd_of_nil (hu.forward.trans hf), Nat.mul_div_cancel _ (by decide)]
  have hroute := (keepsRoute_hubBlock s (b * 64) [] (.put d)).forward.trans hf
  refine ⟨?_, fun pa hpa => ?_, ht.mem.trans ((State.putDesc_mem _ _ _).trans hu.mem)⟩
  · unfold State.descOf State.blk
    rw [if_pos hfl, hdesc, State.fwd_of_nil hroute, Nat.mul_div_cancel _ (by decide), SMap.getD_setD_self _ _ _ (SMap.wf_iff.mp hw).1]
  · unfold State.descOf State.blk
    rw [hdesc, State.fwd_of_nil hroute, State.fwd_of_nil hf, SMap.getD_setD_ne _ _ _ hpa]

include hph hq hf hw hfl hp in
/-- A write of bytes that all name one block. -/
theorem hostDescriptorWrite_one (hr : physReady s [b * 64] = .ok () s1) {off : Nat} {data : List Byte}
    (hblocks : ((data.mapIdx fun i x => (off + i, x)).map fun c => c.1 / 2).eraseDups = [b]) :
    ∃ t, exec (.hostDescriptorWrite off data) s = .next t ∧ t.descOf (b * 64) = descPuts s off data b ∧
      (∀ pa, pa / 64 ≠ b → t.descOf pa = s.descOf pa) ∧ t.mem = s.mem := by
  have hb : descBlocks s off data = [b] := by
    unfold descBlocks
    rw [hblocks]
    simp [hfl, hp]
  refine ⟨s.hubBlock (b * 64) [] (.put (descPuts s off data b)), ?_, hubBlock_put hf hw hfl hp _⟩
  rw [exec_hostDescriptorWrite, hb]
  exact hostAccess_ready hph hq hr

end

theorem descPuts_pair (s : State) (b : Nat) (x y : Byte) : descPuts s (2 * b) [x, y] b = BitVec.ofNat 16 (x.toNat * 256 + y.toNat) := by
  have hx := x.isLt
  have h0 : 2 * b % 2 = 0 := by omega
  have h1 : (2 * b + 1) % 2 = 1 := by omega
  have hd : (2 * b + 1) / 2 = b := by omega
  have hput := descPut_even (d := s.descOf (b * 64)) h0 x
  unfold descPuts
  simp only [List.mapIdx_cons, List.mapIdx_nil, Nat.add_zero, Nat.zero_add, Nat.mul_div_cancel_left b (show 0 < 2 by decide), hd, beq_self_eq_true,
    List.filter_cons_of_pos, List.filter_nil, List.foldl_cons, List.foldl_nil]
  generalize descPut (s.descOf (b * 64)) (2 * b) x = d at hput
  have hd16 := d.isLt
  unfold fld at hput
  unfold descPut
  rw [if_neg (by omega), show d.toNat / 256 = x.toNat by omega]

theorem descPuts_first (s : State) (b : Nat) (x : Byte) :
    descPuts s (2 * b) [x] b = BitVec.ofNat 16 (x.toNat * 256 + fld (s.descOf (b * 64)) 7 0) := by
  simp [descPuts, descPut, fld]

theorem descPuts_second (s : State) (b : Nat) (y : Byte) :
    descPuts s (2 * b + 1) [y] b = BitVec.ofNat 16 (fld (s.descOf (b * 64)) 15 8 * 256 + y.toNat) := by
  have hd : (2 * b + 1) / 2 = b := by omega
  have hlt := (s.descOf (b * 64)).isLt
  have hdiv : (s.descOf (b * 64)).toNat / 256 % 256 = (s.descOf (b * 64)).toNat / 256 := by omega
  simp [descPuts, descPut, fld, hd, hdiv]

/-! ### Commands -/

/-- R419: a start of MOVECMD's command that the register's layout forbids. -/
theorem startMove_malformed {s : State} (hm : s.move.state = 0) (h : fld s.moveCmd 63 8 ≠ 0 ∨ fld s.moveCmd 3 0 = 0 ∨ 3 < fld s.moveCmd 3 0) :
    startMove s = s.rejectMove 2 := by
  unfold startMove
  extract_lets c op size bad
  rw [if_neg (by simp [hm])]
  refine if_pos ?_
  unfold bad
  obtain h | h | h := h
  · simp [c, h]
  · simp [op, c, h]
  · refine Bool.or_eq_true_iff.mpr (.inr ?_)
    have hop : 3 < op := h
    clear_value op
    split
    · omega
    · omega
    · omega
    · rfl

/-- R419: MIGRATE by MOVECMD. -/
theorem startMove_migrate {s : State} (hph : s.phase = 15) (hm : s.move.state = 0) (h8 : fld s.moveCmd 63 8 = 0) (hop : fld s.moveCmd 3 0 = 1)
    (h112 : fld s.moveCmd 127 112 = 0) (h176 : fld s.moveCmd 255 176 = 0) (hsrc : pageOk (fld s.moveCmd 7 4) (fld s.moveCmd 111 64) = true)
    (hdst : pageOk (fld s.moveCmd 7 4) (fld s.moveCmd 175 128) = true) (hne : fld s.moveCmd 111 64 ≠ fld s.moveCmd 175 128) :
    startMove s = s.setMove { state := 1, op := 1, size := moveSize (fld s.moveCmd 7 4), src := fld s.moveCmd 111 64, dst := fld s.moveCmd 175 128 } := by
  have hs : (s.moveCmd.extractLsb' 64 48).toNat = fld s.moveCmd 111 64 := by simp [fld, Nat.shiftRight_eq_div_pow]
  have hd : (s.moveCmd.extractLsb' 128 48).toNat = fld s.moveCmd 175 128 := by simp [fld, Nat.shiftRight_eq_div_pow]
  have hsd : s.moveCmd.extractLsb' 64 48 ≠ s.moveCmd.extractLsb' 128 48 := fun e => hne (by rw [← hs, ← hd, e])
  have hsize : fld s.moveCmd 7 4 ≤ 2 := by
    unfold pageOk at hsrc
    simp only [Bool.and_eq_true, decide_eq_true_eq] at hsrc
    exact hsrc.1.1
  unfold startMove
  simp only [hm, h8, hop, h112, h176]
  rw [if_neg (by decide), if_neg (by simpa using hsize)]
  unfold execMigrate
  rw [hs, hd, if_neg (by simp [hph]), if_neg (by simp [hm]), if_neg (by simp [hsrc, hdst]), if_neg hsd]
  rfl

/-- A command written whole into MOVECMD starts. -/
theorem execRegisterWrite_moveCmd {s : State} (hph : s.phase = 15) (c : BitVec 256) :
    execRegisterWrite 0x110000 (leBytes 32 c.toNat) s = .next (startMove { s with moveCmd := c }) := by
  have hall := regCells_moveCmd s c.toNat (n := 32) (Nat.le_refl _)
  rw [putBytes_all s.moveCmd.isLt c.isLt, BitVec.ofNat_toNat, BitVec.setWidth_eq] at hall
  unfold execRegisterWrite
  rw [if_neg (by simp [hph])]
  extract_lets t
  have ht : t = { s with moveCmd := c } := hall
  rw [if_pos ⟨rfl, by rw [leBytes_length]; decide⟩, ht]

theorem execLoaddb_not_ready {s : State} (h : s.phase ≠ 15) (a : BitVec 64) : execLoaddb a s = .next s := by
  unfold execLoaddb
  rw [if_pos (by simpa using h)]

/-- R501: the RESULT of a load request is stored and vector 69 raised. -/
theorem loaddb_answers {a : BitVec 64} {s s1 t t1 : State} {bs : List Byte} {r : Nat} (hph : s.phase = 15) (hreq : hubPhys s a.toNat 64 = .ok bs s1)
    (hload : loadRequest (BitVec.ofNat 512 (leNat bs)) s = .ok r t) (hready : physReady t [a.toNat + 32] = .ok () t1) :
    exec (.loaddb a) s = .next ((hubStore t [(a.toNat + 32, BitVec.ofNat 8 r)]).raiseMsi 69) := by
  change execLoaddb a s = _
  unfold execLoaddb
  rw [if_neg (by simp [hph]), hreq]
  dsimp only
  rw [hload]
  dsimp only
  rw [hready]

/-- R465: HEVBASE takes a ring size of 0 or of 6 to 15. -/
theorem hevbase_sets {v : BitVec 64} {s : State} (hph : s.phase = 15) (hlog : fld v 4 0 = 0 ∨ (6 ≤ fld v 4 0 ∧ fld v 4 0 ≤ 15)) :
    exec (.hevbase v) s = .next { s with hevBase := BitVec.ofNat 64 (fld v 63 12 * 4096 + fld v 4 0), hevWr := 0, hevRd := 0 } := by
  refine if_pos ?_
  simpa [hph] using hlog

theorem hevbase_ignored {v : BitVec 64} {s : State} (h : s.phase ≠ 15 ∨ (1 ≤ fld v 4 0 ∧ fld v 4 0 ≤ 5) ∨ 16 ≤ fld v 4 0) : exec (.hevbase v) s = .next s := by
  refine if_neg fun hc => ?_
  simp only [Bool.and_eq_true, Bool.or_eq_true, decide_eq_true_eq, beq_iff_eq] at hc
  obtain ⟨hph, hlog⟩ := hc
  obtain h | h | h := h
  · exact h hph
  · omega
  · omega

theorem fld_ringBase (v : BitVec 64) :
    fld (BitVec.ofNat 64 (fld v 63 12 * 4096 + fld v 4 0)) 63 12 = fld v 63 12 ∧ fld (BitVec.ofNat 64 (fld v 63 12 * 4096 + fld v 4 0)) 4 0 = fld v 4 0 := by
  have hv := v.isLt
  unfold fld
  rw [BitVec.toNat_ofNat]
  omega

theorem loadRequest_inactive {r : BitVec 512} {s : State} (h : (s.context (fld r 233 224)).st ≠ .active) : loadRequest r s = .ok 1 s := by
  unfold loadRequest
  exact if_pos (by simpa using h)

theorem loadRequest_malformed {r : BitVec 512} {s : State} (h : (s.context (fld r 233 224)).st = .active) (hr : fld r 511 264 ≠ 0 ∨ fld r 191 128 % 65536 ≠ 0) :
    loadRequest r s = .ok 2 s := by
  have hb : (r.extractLsb' 128 64).toNat = fld r 191 128 := by simp [fld, Nat.shiftRight_eq_div_pow]
  unfold loadRequest
  extract_lets ctx base
  rw [if_neg (by simp [ctx, h])]
  refine if_pos ?_
  rw [hb]
  simpa using hr

end Sys2Proof.Machine

namespace Sys2Proof
open Machine

theorem hevbase_clause (v : BitVec 64) (s : State) : let log := fld v 4 0
    (s.phase ≠ 15 ∨ (1 ≤ log ∧ log ≤ 5) ∨ 16 ≤ log → exec (.hevbase v) s = .next s) ∧
    (s.phase = 15 → log = 0 ∨ (6 ≤ log ∧ log ≤ 15) → ∃ t, exec (.hevbase v) s = .next t ∧ fld t.hevBase 63 12 = fld v 63 12 ∧ fld t.hevBase 4 0 = log ∧
      t.hevWr = 0 ∧ t.hevRd = 0 ∧ t.hevSeq = s.hevSeq ∧ t.mem = s.mem) :=
  ⟨hevbase_ignored, fun hph hlog => ⟨_, hevbase_sets hph hlog, (fld_ringBase v).1, (fld_ringBase v).2, rfl, rfl, rfl, rfl⟩⟩

theorem registerWrite_other (s : State) {off : Nat} (h : off < 0x110000 ∨ 0x170020 ≤ off) (x : Byte) : exec (.registerWrite off [x]) s = .next s := by
  change execRegisterWrite off [x] s = _
  by_cases hph : s.phase = 15
  · rw [execRegisterWrite_byte hph, regByte_other h]
  · exact execRegisterWrite_not_ready hph off [x]

/-- R419: a command written whole into MOVECMD starts or is rejected. -/
theorem moveCmd_clause {s : State} {c : BitVec 256} (h : s.phase = 15) (hm : s.move.state = 0) :
    let started (t : State) := exec (.registerWrite 0x110000 (leBytes 32 c.toNat)) s = .next t ∧ t.mem = s.mem
    ((fld c 63 8 ≠ 0 ∨ fld c 3 0 = 0 ∨ 3 < fld c 3 0) → ∃ t, started t ∧ t.move = { s.move with result := 2 } ∧ t.msix = s.msix) ∧
    (fld c 63 8 = 0 → fld c 3 0 = 1 → fld c 127 112 = 0 → fld c 255 176 = 0 → pageOk (fld c 7 4) (fld c 111 64) = true →
      pageOk (fld c 7 4) (fld c 175 128) = true → fld c 111 64 ≠ fld c 175 128 → ∃ t, started t ∧ t.msix = s.msix ++ [64] ∧
        t.move = { state := 1, op := 1, size := moveSize (fld c 7 4), src := fld c 111 64, dst := fld c 175 128 }) := by
  have hw : exec (.registerWrite 0x110000 (leBytes 32 c.toNat)) s = .next (startMove { s with moveCmd := c }) := execRegisterWrite_moveCmd h c
  refine ⟨fun hbad => ?_, fun h8 hop h112 h176 hsrc hdst hne => ?_⟩
  · rw [startMove_malformed (s := { s with moveCmd := c }) hm hbad] at hw
    exact ⟨_, ⟨hw, rfl⟩, rfl, rfl⟩
  · rw [startMove_migrate (s := { s with moveCmd := c }) h hm h8 hop h112 h176 hsrc hdst hne] at hw
    exact ⟨_, ⟨hw, rfl⟩, rfl, rfl⟩

theorem loaddb_failed {a : BitVec 64} {s : State} (h : s.phase = 15) (hreq : hubPhys s a.toNat 64 = .fail) : exec (.loaddb a) s = .next s := by
  change execLoaddb a s = _
  unfold execLoaddb
  rw [if_neg (by simp [h]), hreq]
  rfl

theorem State.rdByte_raiseMsi (s : State) (v pa : Nat) : (s.raiseMsi v).rdByte pa = s.rdByte pa := rfl

/-- LOADDB's result as it is read back. -/
theorem loaddb_clause {a : BitVec 64} {s s1 t t1 : State} {bs : List Byte} {r : Nat} (hph : s.phase = 15) (hreq : hubPhys s a.toNat 64 = .ok bs s1)
    (hload : loadRequest (BitVec.ofNat 512 (leNat bs)) s = .ok r t) (hready : physReady t [a.toNat + 32] = .ok () t1) :
    ∃ u, exec (.loaddb a) s = .next u ∧ u.msix = t.msix ++ [69] ∧
      (t.forward = [] → SMap.wf (0 : Byte) t.mem = true → t.poisonedAt (a.toNat + 32) = false → u.rdByte (a.toNat + 32) = BitVec.ofNat 8 r ∧
        ∀ pa, pa ≠ a.toNat + 32 → u.rdByte pa = t.rdByte pa) := by
  refine ⟨_, loaddb_answers hph hreq hload hready, ?_, fun hf hw hp => ?_⟩
  · rw [State.raiseMsi_msix, (keepsRoute_hubStore t _).msix]
  · have hcells : ∀ c ∈ [(a.toNat + 32, BitVec.ofNat 8 r)], t.poisonedAt (c.1 / 64 * 64) = false := by
      intro c hc
      obtain rfl := List.mem_singleton.mp hc
      exact (State.poisonedAt_block hf _).trans hp
    have hread (pa : Nat) := State.rdByte_hubStore hcells hf hw pa
    refine ⟨?_, fun pa hpa => ?_⟩
    · rw [State.rdByte_raiseMsi, hread]
      simp [lastCell]
    · rw [State.rdByte_raiseMsi, hread]
      simp [lastCell, hpa.symm]

/-! ### The two bytes of LOST -/

theorem bit_and_not (l : BitVec 16) (n : Nat) {i : Nat} (hi : i < 16) : bit (l &&& ~~~(BitVec.ofNat 16 n)) i = (bit l i && !n.testBit i) := by
  simp only [bit, BitVec.getLsbD_and, BitVec.getLsbD_not, BitVec.getLsbD_ofNat, hi, decide_true, Bool.true_and]

theorem testBit_high (x : Byte) (i : Nat) : (x.toNat * 256 ^ 1).testBit (8 + i) = bit x i := by
  rw [show x.toNat * 256 ^ 1 = x.toNat <<< 8 by rw [Nat.shiftLeft_eq, Nat.pow_one], Nat.testBit_shiftLeft, Nat.add_sub_cancel_left, BitVec.testBit_toNat]
  simp [bit]

theorem testBit_low (x : Byte) {i : Nat} (hi : i < 8) : (x.toNat * 256 ^ 1).testBit i = false := by
  rw [show x.toNat * 256 ^ 1 = x.toNat <<< 8 by rw [Nat.shiftLeft_eq, Nat.pow_one], Nat.testBit_shiftLeft]
  simp [hi]

theorem testBit_first (x : Byte) (i : Nat) : (x.toNat * 256 ^ 0).testBit i = bit x i := by
  rw [Nat.pow_zero, Nat.mul_one, BitVec.testBit_toNat, bit]

theorem bit_of_ge (x : Byte) (i : Nat) : bit x (8 + i) = false := BitVec.getLsbD_of_ge x _ (by omega)

theorem registers_clause (s : State) (x : Byte) (h : s.phase = 15) :
    (∃ t, exec (.registerWrite 0x160602 [x]) s = .next t ∧ ∀ i, i < 8 → bit t.lost i = (bit s.lost i && !bit x i) ∧ bit t.lost (8 + i) = bit s.lost (8 + i)) ∧
    (∃ t, exec (.registerWrite 0x160603 [x]) s = .next t ∧ ∀ i, i < 8 → bit t.lost (8 + i) = (bit s.lost (8 + i) && !bit x i) ∧ bit t.lost i = bit s.lost i) ∧
    ∀ n, n < 2 → x ≠ 0 → ∃ t, exec (.registerWrite (0x170004 + 16 * n) [x]) s = .next t ∧ (t.site n).proterr = 0 ∧ (t.site n).st = (s.site n).st := by
  have hw (off : Nat) : exec (.registerWrite off [x]) s = .next (regByte s off x) := execRegisterWrite_byte h off x
  refine ⟨⟨_, hw _, fun i hi => ?_⟩, ⟨_, hw _, fun i hi => ?_⟩, fun n hn hx => ⟨_, hw _, ?_⟩⟩
  · have e := regByte_lost (s := s) (i := 0) (by decide) x
    rw [show regByte s 0x160602 x = _ from e]
    dsimp only
    rw [bit_and_not _ _ (by omega), bit_and_not _ _ (by omega), testBit_first, testBit_first, bit_of_ge]
    simp
  · have e := regByte_lost (s := s) (i := 1) (by decide) x
    rw [show regByte s 0x160603 x = _ from e]
    dsimp only
    rw [bit_and_not _ _ (by omega), bit_and_not _ _ (by omega), testBit_high, testBit_low x hi]
    simp
  · rw [regByte_proterr hn hx]
    unfold State.site State.updSite SMap.getD
    rw [SMap.find?_insert_self]
    exact ⟨rfl, rfl⟩

/-- Settles O56: each clause is one lemma about an access. -/
theorem hostAccesses : Obligations.HostAccesses := by
  unfold Obligations.HostAccesses
  refine ⟨hevbase_clause, ?_, ?_, ?_, ?_, ?_, ?_, ?_, ?_, ?_, ?_, registers_clause, ?_, ?_, ?_, ?_, ?_, ?_, ?_, ?_, ?_⟩
  · intro pa d n off s h
    rw [exec_hostDataWrite, exec_hostDataRead, exec_hostDescriptorWrite]
    exact ⟨hostAccess_not_ready h, hostAccess_not_ready h, hostAccess_not_ready h, execRegisterWrite_not_ready h off d, execLoaddb_not_ready h⟩
  · intro pa d n off s h hq
    rw [exec_hostDataWrite, exec_hostDataRead, exec_hostDescriptorWrite]
    exact ⟨⟨_, hostAccess_behind h hq, rfl, rfl⟩, ⟨_, hostAccess_behind h hq, rfl, rfl, rfl⟩, ⟨_, hostAccess_behind h hq, rfl, rfl, rfl⟩⟩
  · intro pa d s h hq cells hr
    rw [exec_hostDataWrite]
    exact hostAccess_waits h hq hr
  · exact fun pa d s s1 h hq hf hw hd hr => hostDataWrite_stores h hq hf hw hd hr
  · exact fun s cs c hc => mem_hostCells hc
  · exact fun pa n s s1 h hq hr => hostDataRead_answers h hq hr
  · exact fun s f a hf hp => hostByte_of_flistad hf hp
  · intro b x y s s1 h hq hf hw hfl hp hr
    have hb : (2 * b + 1) / 2 = b := by omega
    obtain ⟨t, et, dt, nt, mt⟩ := hostDescriptorWrite_one h hq hf hw hfl hp hr (off := 2 * b) (data := [x, y]) (by simp [hb, List.eraseDups_cons])
    obtain ⟨u, eu, du, -, mu⟩ := hostDescriptorWrite_one h hq hf hw hfl hp hr (off := 2 * b) (data := [x]) (by simp [List.eraseDups_cons])
    obtain ⟨w, ew, dw, -, mw⟩ := hostDescriptorWrite_one h hq hf hw hfl hp hr (off := 2 * b + 1) (data := [y]) (by simp [hb, List.eraseDups_cons])
    exact ⟨⟨t, et, dt.trans (descPuts_pair s b x y), nt, mt⟩, ⟨u, eu, du.trans (descPuts_first s b x), mu⟩, ⟨w, ew, dw.trans (descPuts_second s b y), mw⟩⟩
  · exact fun s b => ⟨bar4Byte_even s b, bar4Byte_odd s b⟩
  · exact fun d off b => ⟨fun h => descPut_even h b, fun h => descPut_odd h b⟩
  · intro s v h hv
    refine ⟨_, execRegisterWrite_num h (by decide), ?_⟩
    rw [regCells_expCount s v (Nat.le_refl _), putBytes_all s.expCount.isLt hv]
    exact ⟨by simpa using hv, rfl, rfl⟩
  · intro s v h hv
    refine ⟨_, execRegisterWrite_num h (by decide), ?_⟩
    rw [regCells_hevRd s v (Nat.le_refl _), putBytes_all s.hevRd.isLt hv]
    exact ⟨by simpa using hv, rfl, rfl⟩
  · intro s i e h hi hw
    obtain ⟨-, hself, hne, hmem⟩ := regCells_exports hi hw e.toNat (Nat.le_refl 32)
    refine ⟨_, execRegisterWrite_num h (by omega), hself.trans ?_, hne, hmem⟩
    rw [putBytes_all (SMap.getD 0 s.exports i).isLt e.isLt, BitVec.ofNat_toNat, BitVec.setWidth_eq]
  · exact fun s c h hm => moveCmd_clause h hm
  · exact fun s off x hoff => registerWrite_other s hoff x
  · exact fun ctx nonce s => ⟨_, rfl, rfl, rfl, rfl⟩
  · exact fun a s s1 t t1 bs r h hreq hload hready => loaddb_clause h hreq hload hready
  · exact fun a s h hreq => loaddb_failed h hreq
  · exact fun r s => ⟨loadRequest_inactive, loadRequest_malformed⟩

end Sys2Proof
end

-- ==== Sys2Proof/Proofs/LostGroups.lean ====
/-!
# Groups that are gone stay gone

`Lost stat ord gone s` says that DIESTAT is `stat`, that under `ord` the groups are listed in order, and that no group has a number in `gone`.
Nothing that the loss of a die runs through, retried accesses and packets included, makes a group or changes DIESTAT; one lemma per function of the
model says so, in the model's order.
-/
section
namespace Sys2Proof
open Machine

/-! ### Maps whose keys stay -/

theorem Machine.SMap.find?_mapVals {α : Type} (f : Nat × α → α) (m : SMap α) (i : Nat) :
    SMap.find? (m.map fun p => (p.1, f p)) i = (m.find? i).map fun v => f (i, v) := by
  induction m with
  | nil => rfl
  | cons p m ih =>
    obtain ⟨k, w⟩ := p
    by_cases hk : k = i
    · simp [SMap.find?, hk]
    · simp [SMap.find?, hk, ih]

theorem Machine.SMap.rising_mapVals {α : Type} (f : Nat × α → α) {m : SMap α} (h : m.rising = true) : SMap.rising (m.map fun p => (p.1, f p)) = true := by
  induction m with
  | nil => rfl
  | cons p m ih =>
    cases m with
    | nil => rfl
    | cons q m =>
      simp only [SMap.rising, List.map_cons, Bool.and_eq_true] at h ih ⊢
      exact ⟨h.1, ih h.2⟩

theorem Machine.SMap.find?_erase_of_none {α : Type} {m : SMap α} {i : Nat} (k : Nat) (h : m.find? i = none) : (m.erase k).find? i = none := by
  induction m with
  | nil => rfl
  | cons p m ih =>
    obtain ⟨j, v⟩ := p
    have hj : j ≠ i := fun e => by simp [SMap.find?, e] at h
    simp only [SMap.find?, hj, if_false] at h
    unfold SMap.erase
    split
    · exact h
    · simpa [SMap.find?, hj] using ih h

/-- DIESTAT, whether the groups are listed in order, and numbers of which no group has any. -/
def Lost (stat : BitVec 8) (ord : Prop) (gone : Nat → Prop) (s : State) : Prop :=
  s.diestat = stat ∧ (ord → s.groups.rising = true) ∧ ∀ n, gone n → s.groups.find? n = none

section
variable {stat : BitVec 8} {ord : Prop} {gone : Nat → Prop}

theorem Lost.diestat {s : State} (h : Lost stat ord gone s) : s.diestat = stat := h.1

theorem Lost.rising {s : State} (h : Lost stat ord gone s) (ho : ord) : s.groups.rising = true := h.2.1 ho

theorem Lost.group_none {s : State} (h : Lost stat ord gone s) {n : Nat} (hn : gone n) : s.groups.find? n = none := h.2.2 n hn

theorem Lost.snd {α : Type} {p : α × State} {a : α} {t : State} (k : Lost stat ord gone p.2) (e : p = (a, t)) : Lost stat ord gone t := by
  subst e
  exact k

theorem Lost.congr {s t : State} (h : Lost stat ord gone s) (h1 : t.groups = s.groups) (h2 : t.diestat = s.diestat) : Lost stat ord gone t :=
  ⟨h2.trans h.diestat, fun ho => by rw [h1]; exact h.rising ho, by rw [h1]; exact h.2.2⟩

theorem Lost.eraseGroup {s t : State} (h : Lost stat ord gone s) {k : Nat} (h1 : t.groups = s.groups.erase k) (h2 : t.diestat = s.diestat) :
    Lost stat ord (fun n => (ord ∧ n = k) ∨ gone n) t := by
  refine ⟨h2.trans h.diestat, fun ho => by rw [h1]; exact SMap.rising_erase _ (h.rising ho), fun n hn => ?_⟩
  rw [h1]
  obtain ⟨ho, rfl⟩ | hn := hn
  · exact SMap.find?_erase_self _ (h.rising ho)
  · exact SMap.find?_erase_of_none _ (h.group_none hn)

/-- Groups whose entries change under the same numbers. -/
theorem Lost.mapGroups {s t : State} (h : Lost stat ord gone s) {f : Nat × Machine.Group → Machine.Group}
    (h1 : t.groups = s.groups.map fun p => (p.1, f p)) (h2 : t.diestat = s.diestat) : Lost stat ord gone t :=
  ⟨h2.trans h.diestat, fun ho => by rw [h1]; exact SMap.rising_mapVals f (h.rising ho),
    fun n hn => by rw [h1, SMap.find?_mapVals, h.group_none hn]; rfl⟩

theorem Lost.updGroup {s : State} {g : Nat} {f : Machine.Group → Machine.Group} (h : Lost stat ord gone s) : Lost stat ord gone (s.updGroup g f) := by
  unfold State.updGroup
  cases e : s.groups.find? g with
  | none => exact h.congr rfl rfl
  | some x =>
    refine ⟨h.diestat, fun ho => SMap.rising_insert _ _ (h.rising ho), fun n hn => ?_⟩
    have hne : n ≠ g := by
      rintro rfl
      have := h.group_none hn
      rw [e] at this
      cases this
    exact (SMap.find?_insert_ne _ _ hne).trans (h.group_none hn)

theorem Lost.loseResv {s : State} {blk : Nat} (h : Lost stat ord gone s) : Lost stat ord gone (s.loseResv blk) := by
  unfold State.loseResv
  split
  · exact h.mapGroups rfl rfl
  · exact h

theorem Lost.state {r : Leaving} (h : r.Keeps (Lost stat ord gone)) : Lost stat ord gone r.state := h

/-! ### Machine/Ops -/

theorem Lost.updCluster {s : State} {c : Nat} {f : Cluster → Cluster} (h : Lost stat ord gone s) : Lost stat ord gone (s.updCluster c f) := h

theorem Lost.mapThreads {s : State} {g : Nat} {f : Thread → Thread} (h : Lost stat ord gone s) : Lost stat ord gone (s.mapThreads g f) :=
  .updGroup h

theorem Lost.updCore {s : State} {core : Nat} {f : Core → Core} (h : Lost stat ord gone s) : Lost stat ord gone (s.updCore core f) := h

theorem Lost.note {s : State} {code core n : Nat} {owner : Option Nat} (h : Lost stat ord gone s) : Lost stat ord gone (s.note code core n owner) :=
  keeps_ite h h

theorem Lost.noteL1 {s : State} {code core n : Nat} (h : Lost stat ord gone s) : Lost stat ord gone (s.noteL1 code core n) :=
  .note h

theorem Lost.groupFault {g : Nat} {f : FaultRec} {s : State} (h : Lost stat ord gone s) : Lost stat ord gone (groupFault g f s) :=
  .updGroup h

theorem Lost.takeFaultAt {tid slot : Nat} {f : Flt} {s : State} (h : Lost stat ord gone s) : Lost stat ord gone (takeFaultAt tid slot f s) := by
  unfold Machine.takeFaultAt
  extract_lets +onlyGivenNames r t
  extract_lets +onlyGivenNames s1
  have h1 : Lost stat ord gone s1 := by
    unfold s1
    split
    · exact .updGroup h
    · exact h
    · exact h
    · exact h
  exact h1

/-! ### Machine/Mem -/

theorem Lost.wrCells {s : State} {cs : List (Nat × Byte)} (h : Lost stat ord gone s) : Lost stat ord gone (s.wrCells cs) :=
  keeps_foldl h fun _ _ h1 => h1

theorem Lost.setDesc {s : State} {pa : Nat} {d : BitVec 16} (h : Lost stat ord gone s) : Lost stat ord gone (s.setDesc pa d) :=
  keeps_ite h h

theorem Lost.touch {s : State} {ctx pa : Nat} (h : Lost stat ord gone s) : Lost stat ord gone (s.touch ctx pa) := by
  unfold State.touch
  split
  · exact keeps_ite h h
  · exact h

theorem Lost.setPoison {s : State} {blk : Nat} (h : Lost stat ord gone s) : Lost stat ord gone (s.setPoison blk) :=
  keeps_ite h h

theorem Lost.setCarry {s : State} {cs : List (Nat × Byte)} {p : Option (BitVec 24)} (h : Lost stat ord gone s) : Lost stat ord gone (s.setCarry cs p) := h

theorem Lost.winPut {s : State} {place : Nat} {cs : List (Nat × Byte)} {da : DescAct} (h : Lost stat ord gone s) : Lost stat ord gone (s.winPut place cs da)
    := by
  unfold State.winPut
  split
  · exact keeps_ite (.updGroup h) h
  · exact h

theorem Lost.homePut {s : State} {place : Nat} {cs : List (Nat × Byte)} {da : DescAct} (h : Lost stat ord gone s) : Lost stat ord gone (s.homePut place cs da)
    := by
  unfold State.homePut
  split
  · exact h
  · extract_lets +onlyGivenNames s1 s2 s3
    have h1 : Lost stat ord gone s1 := keeps_ite h h
    have h2 : Lost stat ord gone s2 := keeps_ite h1 h1
    have h3 : Lost stat ord gone s3 := .wrCells (.winPut h2)
    split
    · exact .setDesc h3
    · exact .setDesc h3
    · exact h3

theorem Lost.homeWrite {s : State} {place : Nat} {cs : List (Nat × Byte)} {da : DescAct} {pts : Option (BitVec 24)} (h : Lost stat ord gone s) :
    Lost stat ord gone (s.homeWrite place cs da pts) :=
  keeps_ite h (.homePut (keeps_ite h (.setCarry (.loseResv h))))

/-! ### Machine/Claims -/

theorem Lost.issueVer {s : State} {t : BitVec 24} (h : Lost stat ord gone s) : Lost stat ord gone (s.issueVer t).2 := h

theorem Lost.updFrag {s : State} {id : Nat} {f : Frag → Frag} (h : Lost stat ord gone s) : Lost stat ord gone (s.updFrag id f) := h

theorem Lost.l1Drop {s : State} {core ctx pa : Nat} (h : Lost stat ord gone s) : Lost stat ord gone (s.l1Drop core ctx pa) :=
  keeps_ite h h

theorem Lost.l1Inval {s : State} {core ctx : Nat} {p : L1Sec → Bool} (h : Lost stat ord gone s) : Lost stat ord gone (s.l1Inval core ctx p) :=
  keeps_foldl h fun _ _ h1 => h1

theorem Lost.l1Acquire {s : State} {core ctx scope : Nat} (h : Lost stat ord gone s) : Lost stat ord gone (s.l1Acquire core ctx scope) :=
  keeps_ite h (.updCluster (.noteL1 (.l1Inval h)))

theorem Lost.writeBack {s : State} {cl : Nat} {blocks : List Nat} (h : Lost stat ord gone s) : Lost stat ord gone (s.writeBack cl blocks) :=
  .updCluster (keeps_foldl h fun _ _ h1 => .homePut h1)

theorem Lost.endHolder {s : State} {fid : Nat} (h : Lost stat ord gone s) : Lost stat ord gone (s.endHolder fid) := by
  unfold State.endHolder
  split
  · extract_lets +onlyGivenNames s1
    have h1 : Lost stat ord gone s1 := by
      unfold s1
      split
      · exact .updCluster (.writeBack h)
      · exact h
      · exact h
    exact h1
  · exact h

theorem Lost.recallHolder {s : State} {fid : Nat} (h : Lost stat ord gone s) : Lost stat ord gone (s.recallHolder fid) := by
  unfold State.recallHolder
  split
  · exact keeps_foldl (.endHolder h) fun s1 _ h1 => .loseResv h1
  · exact h

theorem Lost.visit {s : State} {fid : Nat} (h : Lost stat ord gone s) : Lost stat ord gone (s.visit fid) := by
  unfold State.visit
  split
  · split
    · extract_lets +onlyGivenNames t
      split
      rename_i s1 e1
      have h1 := Lost.snd h e1
      exact h1
    · exact h
  · exact h

theorem Lost.visitAt {s : State} {pa : Nat} (h : Lost stat ord gone s) : Lost stat ord gone (s.visitAt pa) := by
  unfold State.visitAt
  split
  · exact .visit h
  · exact h

theorem Lost.setClock {s : State} {c : Clock} {t : BitVec 24} (h : Lost stat ord gone s) : Lost stat ord gone (s.setClock c t) := by
  unfold State.setClock
  split
  · exact h
  · exact h
  · exact h

theorem Lost.plainLoad {s : State} {c : Clock} {pa : Nat} (h : Lost stat ord gone s) : Lost stat ord gone (s.plainLoad c pa) := by
  unfold State.plainLoad
  extract_lets +onlyGivenNames s1
  have h1 : Lost stat ord gone s1 := .visitAt h
  split
  · exact .setClock h1
  · exact h1

theorem Lost.plainStore {s : State} {c : Clock} {pa : Nat} (h : Lost stat ord gone s) : Lost stat ord gone (s.plainStore c pa) := by
  unfold State.plainStore
  extract_lets +onlyGivenNames s1
  have h1 : Lost stat ord gone s1 := .visitAt h
  split
  · extract_lets +onlyGivenNames t
    split
    rename_i s2 e1
    have h2 := Lost.snd (.issueVer (.setClock h1)) e1
    exact h2
  · exact h1

/-! ### Machine/Translate -/

theorem Lost.walkAcquire {s : State} {fs : List TlbEntry} (h : Lost stat ord gone s) : Lost stat ord gone (s.walkAcquire fs) := by
  unfold State.walkAcquire
  extract_lets +onlyGivenNames reads s1
  have h1 : Lost stat ord gone s1 := keeps_foldl h fun s2 _ h1 => .visitAt (.touch h1)
  split
  · exact h1
  · extract_lets +onlyGivenNames cl seen s2
    have h2 : Lost stat ord gone s2 := keeps_ite (.l1Acquire h1) h1
    clear_value seen
    split
    · exact .setClock h2
    · exact h2

theorem Lost.tlbFill {s : State} {fs : List TlbEntry} (h : Lost stat ord gone s) : Lost stat ord gone (s.tlbFill fs) :=
  keeps_foldl (.walkAcquire h) fun _ _ h1 => h1

/-! ### Machine/Channel -/

theorem Lost.storeBlock {s : State} {core ctx place : Nat} {cs : List (Nat × Byte)} {da : DescAct} {pts : Option (BitVec 24)} (h : Lost stat ord gone s) :
    Lost stat ord gone (s.storeBlock core ctx place cs da pts) := by
  unfold State.storeBlock
  extract_lets +onlyGivenNames s1
  have h1 : Lost stat ord gone s1 := keeps_ite (.touch h) h
  split
  · extract_lets +onlyGivenNames s2 s3
    have h2 : Lost stat ord gone s2 := by
      unfold s2
      split
      · exact h1
      · exact h1
    have h3 : Lost stat ord gone s3 := .setCarry (.loseResv h2)
    exact h3
  · exact .homeWrite (.plainStore h1)

theorem Lost.atomAt {s : State} {core ctx pa op : Nat} {ty : Ty} {c e : Nat} {pts : Option (BitVec 24)} (h : Lost stat ord gone s) : Lost stat ord gone
    (s.atomAt core ctx pa op ty c e pts).2 :=
  .storeBlock h

theorem Lost.endResv {s : State} {gid tid : Nat} (h : Lost stat ord gone s) : Lost stat ord gone (s.endResv gid tid) :=
  .updGroup h

theorem Lost.performPay {s : State} {p : Packet} (h : Lost stat ord gone s) : Lost stat ord gone (s.performPay p).2 := by
  unfold State.performPay
  split
  · exact keeps_ite_snd h (.storeBlock h)
  · exact .atomAt h
  · exact keeps_ite_snd (.endResv (.storeBlock h)) (.endResv h)
  · exact h

theorem Lost.updAny {s : State} {gid : Nat} {f : Machine.Group → Machine.Group} (h : Lost stat ord gone s) : Lost stat ord gone (s.updAny gid f) :=
  keeps_ite (.updGroup h) (keeps_ite h h)

theorem Lost.setPairs {s : State} {gid : Nat} {f : List Pair → List Pair} (h : Lost stat ord gone s) : Lost stat ord gone (s.setPairs gid f) :=
  keeps_ite (.updAny h) (keeps_ite h h)

theorem Lost.setJoins {s : State} {gid : Nat} {f : List (Nat × Nat × List Nat) → List (Nat × Nat × List Nat)} (h : Lost stat ord gone s) : Lost stat ord gone
    (s.setJoins gid f) :=
  keeps_ite (.updAny h) (keeps_ite h h)

theorem Lost.sendFlit {s : State} {port : Option Nat} (h : Lost stat ord gone s) : Lost stat ord gone (s.sendFlit port) := by
  unfold State.sendFlit
  split
  · exact h
  · exact h

theorem Lost.sendMsg {s : State} {m : FabMsg} (h : Lost stat ord gone s) : Lost stat ord gone (s.sendMsg m) :=
  .sendFlit h

theorem Lost.freePair {s : State} {gid ch : Nat} {dest : Dest} (h : Lost stat ord gone s) : Lost stat ord gone (s.freePair gid ch dest) := by
  unfold State.freePair
  split
  · exact h
  · split
    · exact h
    · extract_lets +onlyGivenNames s1 rest s2
      have h1 : Lost stat ord gone s1 := .setPairs h
      have h2 : Lost stat ord gone s2 := h1
      split
      · exact keeps_ite h2 (.sendMsg h2)
      · exact h2

theorem Lost.ackPacket {s : State} {id : Nat} (h : Lost stat ord gone s) : Lost stat ord gone (s.ackPacket id) := by
  unfold State.ackPacket
  split
  · exact h
  · exact .freePair (.setJoins h)

/-! ### Machine/Settle -/

theorem Lost.completeGbar {s : State} {gang : Nat} (h : Lost stat ord gone s) : Lost stat ord gone (s.completeGbar gang) := by
  unfold State.completeGbar
  split
  · exact h
  · exact keeps_ite h (keeps_foldl (keeps_foldl h fun s1 _ h1 => .setClock (.l1Acquire h1)) fun s1 _ h1 => .updGroup h1)

/-! ### Machine/Engines -/

theorem Lost.frameWord {s : State} {gid wid reg cmd : Nat} {v : BitVec 64} (h : Lost stat ord gone s) : Lost stat ord gone (s.frameWord gid wid reg cmd v) :=
    by
  unfold State.frameWord
  split
  · exact h
  · split
    · extract_lets +onlyGivenNames pa s1
      have h1 : Lost stat ord gone s1 := by
        unfold s1
        split
        · exact .recallHolder h
        · exact h
      exact .homeWrite (.plainStore h1)
    · exact h

theorem Lost.writeStatus {s : State} {gid wid reg cmd : Nat} {v : BitVec 64} (h : Lost stat ord gone s) : Lost stat ord gone (s.writeStatus gid wid reg cmd v)
    :=
  keeps_ite (.updGroup (.frameWord h)) (.congr (.frameWord h) rfl rfl)

theorem Lost.postEvent {s : State} {cl kind code source : Nat} {value : BitVec 64} (h : Lost stat ord gone s) : Lost stat ord gone
    (s.postEvent cl kind code source value) := h

theorem Lost.sealDone {s : State} {cl : Nat} (h : Lost stat ord gone s) : Lost stat ord gone (s.sealDone cl) := by
  unfold State.sealDone
  refine keeps_foldl h ?_
  intro s1 a1 h1
  split
  · split
    rename_i s2 e1
    have h2 := Lost.snd h1 e1
    exact h2
  · exact h1

theorem Lost.dropMma {s : State} {cl id : Nat} (h : Lost stat ord gone s) : Lost stat ord gone (s.dropMma cl id) :=
  .sealDone h

theorem Lost.endCopy {s : State} {cl : Nat} {c : CopyCmd} {code : Nat} {disc : Bool} (h : Lost stat ord gone s) : Lost stat ord gone (s.endCopy cl c code disc) := by
  unfold State.endCopy
  extract_lets w s1 s2 s3 s4 s5
  have h1 : Lost stat ord gone s1 := keeps_ite (.writeStatus h) h
  have h3 : Lost stat ord gone s3 := .updCluster (.writeStatus h1)
  have h4 : Lost stat ord gone s4 := keeps_ite (.postEvent h3) h3
  have h5 : Lost stat ord gone s5 := keeps_ite (.updGroup h4) h4
  exact keeps_ite (keeps_foldl h5 fun _ _ ht => .dropMma ht) h4

theorem Lost.updInbound {s : State} {t : Nat} {f : Nat → Nat} (h : Lost stat ord gone s) : Lost stat ord gone (s.updInbound t f) := by
  unfold State.updInbound
  split
  · exact .updGroup h
  · exact h

theorem Lost.finishCopy {s : State} {cl : Nat} {c : CopyCmd} {code : Nat} {disc : Bool} (h : Lost stat ord gone s) : Lost stat ord gone
    (s.finishCopy cl c code disc) := by
  unfold State.finishCopy
  extract_lets +onlyGivenNames s1
  have h1 : Lost stat ord gone s1 := by
    unfold s1
    split
    · exact .updInbound h
    · exact h
  exact .endCopy h1

theorem Lost.endEpi {s : State} {cl : Nat} {c : EpiCmd} {code bytes : Nat} {disc : Bool} (h : Lost stat ord gone s) : Lost stat ord gone
    (s.endEpi cl c code bytes disc) :=
  .updCluster (.writeStatus h)

theorem Lost.updSite {s : State} {n : Nat} {f : Site → Site} (h : Lost stat ord gone s) : Lost stat ord gone (s.updSite n f) := h

theorem Lost.siteSend {s : State} {n : Nat} {p : BitVec 512} (h : Lost stat ord gone s) : Lost stat ord gone (s.siteSend n p) := h

theorem Lost.endGuest {s : State} {site : Nat} {c : GuestCmd} {code bytes : Nat} {disc : Bool} (h : Lost stat ord gone s) : Lost stat ord gone
    (s.endGuest site c code bytes disc) :=
  .updSite (.writeStatus h)

/-! ### Machine/Handle -/

theorem Lost.visitHandle {s : State} {h : Handle} (hs : Lost stat ord gone s) : Lost stat ord gone (s.visitHandle h) :=
  keeps_foldl hs fun _ _ h1 => .visit h1

/-! ### Machine/Records -/

theorem Lost.wantPass {s : State} {die part : Nat} (h : Lost stat ord gone s) : Lost stat ord gone (s.wantPass die part) := h

theorem Lost.endReserves {s : State} {p : Reserve → Bool} (h : Lost stat ord gone s) : Lost stat ord gone (s.endReserves p) :=
  keeps_foldl h fun _ _ h1 => h1

theorem Lost.closeTask {s : State} {l : Option Nat} {killed : Bool} {pts : BitVec 24} (h : Lost stat ord gone s) : Lost stat ord gone
    (s.closeTask l killed pts) := by
  unfold State.closeTask
  split
  · exact keeps_ite h h
  · exact h

/-- A group that is freed is gone. -/
theorem Lost.freeGroup {s : State} {g : Machine.Group} (h : Lost stat ord gone s) : Lost stat ord (fun n => (ord ∧ n = g.gid) ∨ gone n) (s.freeGroup g) := by
  unfold State.freeGroup
  extract_lets cl fab old s1 s2 s3 freed
  have h1 : Lost stat ord (fun n => (ord ∧ n = g.gid) ∨ gone n) s1 := h.eraseGroup rfl rfl
  clear_value s1
  have h2 : Lost stat ord (fun n => (ord ∧ n = g.gid) ∨ gone n) s2 := .wrCells (.wantPass h1)
  clear_value s2
  have h3 : Lost stat ord (fun n => (ord ∧ n = g.gid) ∨ gone n) s3 := .updCore h2
  exact .updCluster h3

theorem Lost.leaveGang {s : State} {g : Group} {killed : Bool} (h : Lost stat ord gone s) : (s.leaveGang g killed).Keeps (Lost stat ord gone) := by
  unfold State.leaveGang
  split
  · exact h
  · split
    · exact h
    · exact h

/-! ### Machine/Hub -/

theorem Lost.hubBlock {s : State} {pa : Nat} {cs : List (Nat × Byte)} {da : DescAct} (h : Lost stat ord gone s) : Lost stat ord gone (s.hubBlock pa cs da) :=
    by
  unfold State.hubBlock
  extract_lets +onlyGivenNames s1
  have h1 : Lost stat ord gone s1 := .storeBlock h
  split
  · exact h1
  · exact h1

theorem Lost.hubStore {s : State} {cells : List (Nat × Byte)} (h : Lost stat ord gone s) : Lost stat ord gone (hubStore s cells) :=
  keeps_foldl h fun _ _ h1 => .hubBlock h1

theorem Lost.enqueue {s : State} {q : Queued} (h : Lost stat ord gone s) : Lost stat ord gone (s.enqueue q) :=
  keeps_ite h h

/-! ### Machine/Ingress -/

theorem Lost.exportAt {s : State} {src x size acc : Nat} (h : Lost stat ord gone s) : (exportAt s src x size acc).Keeps (Lost stat ord gone) := by
  unfold Machine.exportAt
  split
  · trivial
  · extract_lets +onlyGivenNames ctx va allowed
    split
    · trivial
    · split
      · trivial
      · trivial
      · trivial
      · split
        · trivial
        · split
          · trivial
          · split
            · trivial
            · split
              · trivial
              · exact Lost.touch (.tlbFill h)

theorem Lost.exportAll {src acc : Nat} {x1 : List (Nat × Nat)} {x2 : State} (h : Lost stat ord gone x2) : (exportAll src acc x1 x2).Keeps (Lost stat ord gone)
    := by
  induction x1 generalizing x2 with
  | nil => exact h
  | cons a as ih =>
    unfold Machine.exportAll
    split
    · rename_i s1 e1
      have h1 := keeps_of_eq (Lost.exportAt h) e1
      split
      · rename_i s2 e2
        have h2 := keeps_of_eq (ih h1) e2
        exact h2
      · exact ih h1
    · trivial
    · trivial
    · trivial

theorem Lost.putPieces {da : DescAct} {x1 : List (Nat × Nat)} {x2 : List (Option Byte)} {x3 : State} (h : Lost stat ord gone x3) : Lost stat ord gone
    (putPieces da x1 x2 x3) := by
  induction x1 generalizing x2 x3 with
  | nil => exact h
  | cons a as ih =>
    unfold Machine.putPieces
    exact ih (.hubBlock h)

theorem Lost.fabPerform {p : FabPacket} {s : State} (h : Lost stat ord gone s) : (fabPerform p s).Keeps (Lost stat ord gone) := by
  unfold Machine.fabPerform
  extract_lets +onlyGivenNames refuse
  have h1 : refuse.Keeps (Lost stat ord gone) := h
  split
  · split
    · exact h1
    · split
      · rename_i s1 e1
        have h2 := keeps_of_eq (Lost.exportAll h) e1
        exact h2
      · exact h1
      · trivial
      · trivial
  · split
    · exact h1
    · split
      · rename_i s1 e1
        have h2 := keeps_of_eq (Lost.exportAll h) e1
        exact Lost.putPieces h2
      · exact h1
      · trivial
      · trivial
  · extract_lets +onlyGivenNames t
    split
    · exact h1
    · split
      · rename_i s1 e1
        have h2 := keeps_of_eq (Lost.exportAt h) e1
        exact keeps_ite h1 (Lost.atomAt h2)
      · exact h1
      · trivial
      · trivial

theorem Lost.ingressDo {k : PairKey} {p : FabPacket} {s : State} (h : Lost stat ord gone s) : (ingressDo k p s).Keeps (Lost stat ord gone) := by
  unfold Machine.ingressDo
  extract_lets +onlyGivenNames next
  have h1 : ∀ (t : State), Lost stat ord gone t → Lost stat ord gone (next t) := fun s1 h1 => h1
  split
  · rename_i s1 e1
    have h2 := keeps_of_eq (Lost.fabPerform h) e1
    exact keeps_ite h (h1 _ h2)
  · rename_i s1 e1
    have h2 := keeps_of_eq (Lost.fabPerform h) e1
    exact h1 _ h2
  · exact Lost.enqueue h
  · exact Lost.enqueue h

theorem Lost.ingressDrain {k : PairKey} {x1 : Nat} {x2 : State} (h : Lost stat ord gone x2) : Lost stat ord gone (ingressDrain k x1 x2).2 := by
  induction x1 generalizing x2 with
  | zero => exact h
  | succ n ih =>
    unfold Machine.ingressDrain
    split
    · exact h
    · split
      · exact h
      · extract_lets +onlyGivenNames drop r
        have h1 : ∀ (t : State), Lost stat ord gone t → Lost stat ord gone (drop t) := fun s1 h1 => h1
        have h2 : r.Keeps (Lost stat ord gone) := by
          unfold r
          split
          · split
            · rename_i s1 e1
              have h2 := keeps_of_eq (Lost.fabPerform h) e1
              exact h2
            · exact h
            · exact h
          · split
            · rename_i s1 e1
              have h2 := keeps_of_eq (Lost.ingressDo h) e1
              exact h2
            · exact Lost.ingressDo h
        clear_value r
        split
        · exact h2
        · exact ih (h1 _ h2)

theorem Lost.ingressHold {k : PairKey} {p : FabPacket} {s : State} (h : Lost stat ord gone s) : Lost stat ord gone (ingressHold k p s).2 :=
  keeps_ite_snd h h

theorem Lost.ingressRead {k : PairKey} {tag : BitVec 64} {p : FabPacket} {s : State} (h : Lost stat ord gone s) : Lost stat ord gone (ingressRead k tag p s).2
    := by
  unfold Machine.ingressRead
  extract_lets +onlyGivenNames s1 hold
  have h1 : Lost stat ord gone s1 := h
  split
  · exact .ingressHold h1
  · split
    · rename_i s2 e1
      have h2 := keeps_of_eq (Lost.fabPerform h1) e1
      exact h2
    · exact .enqueue h1
    · exact .enqueue h1

theorem Lost.ingressRun {k : PairKey} {tag : BitVec 64} {s : State} (h : Lost stat ord gone s) : OptKeeps (Lost stat ord gone) (ingressRun k tag s) := by
  unfold Machine.ingressRun
  split
  · exact h
  · split
    · exact keeps_ite h h
    · exact keeps_ite trivial h

theorem Lost.ingressOp {k : PairKey} {tag : BitVec 64} {p : FabPacket} {s : State} (h : Lost stat ord gone s) : Lost stat ord gone (ingressOp k tag p s).2 :=
    by
  unfold Machine.ingressOp
  split
  · exact h
  · rename_i s1 e1
    have h1 := keeps_of_eq (Lost.ingressRun h) e1
    split
    · exact h1
    · split
      · exact h1
      · extract_lets +onlyGivenNames s2 d
        have h2 : Lost stat ord gone s2 := h1
        split
        · split
          · rename_i s3 e2
            have h3 := keeps_of_eq (Lost.ingressDo h2) e2
            exact h3
          · rename_i s3 e2
            have h3 := keeps_of_eq (Lost.ingressDo h2) e2
            exact .ingressDrain h3
        · split
          · exact keeps_ite_snd h2 (.ingressHold h2)
          · split
            · exact h2
            · exact h2

theorem Lost.ingress {p : FabPacket} {s : State} (h : Lost stat ord gone s) : Lost stat ord gone (ingress p s).2 := by
  unfold Machine.ingress
  split
  · split
    · rename_i s1 e1
      have h1 := keeps_of_eq (Lost.fabPerform h) e1
      exact h1
    · exact .enqueue h
    · exact .enqueue h
  · exact keeps_ite_snd (.ingressRead h) (.ingressOp h)

/-! ### Machine/Respond -/

theorem Lost.answerPart {s : State} {p : Packet} {f : LoadPart → LoadPart} (h : Lost stat ord gone s) : Lost stat ord gone (s.answerPart p f) := by
  unfold State.answerPart
  split
  · exact h
  · exact h

theorem Lost.failPacket {s : State} {p : Packet} (h : Lost stat ord gone s) : Lost stat ord gone (s.failPacket p) := by
  unfold State.failPacket
  split
  · exact .mapThreads h
  · exact .answerPart h

/-! ### Machine/Guest -/

theorem Lost.deliverGuest {p : Packet} {site : Nat} {pkt : BitVec 512} {s : State} (h : Lost stat ord gone s) : Lost stat ord gone (deliverGuest p site pkt s)
    :=
  .updSite (.siteSend (keeps_ite h h))

theorem Lost.poisonBlock {s : State} {b : Nat} (h : Lost stat ord gone s) : Lost stat ord gone (s.poisonBlock b) :=
  .note (.setPoison h)

theorem Lost.fenceSite {n : Nat} {s : State} (h : Lost stat ord gone s) : Lost stat ord gone (fenceSite n s) := by
  unfold Machine.fenceSite
  extract_lets +onlyGivenNames x s1 held s2 s3 here s4 s5
  have h1 : Lost stat ord gone s1 := h
  have h2 : Lost stat ord gone s2 := keeps_foldl h1 fun s6 _ h2 => .updFrag (keeps_foldl h2 fun s7 _ h3 => .loseResv (.poisonBlock h3))
  have h3 : Lost stat ord gone s3 := keeps_foldl h2 fun s6 _ h3 => .endGuest h3
  have h4 : Lost stat ord gone s4 := h3
  have h5 : Lost stat ord gone s5 := keeps_foldl h4 fun s6 _ h5 => .ackPacket (keeps_ite h5 (.failPacket h5))
  exact h5

theorem Lost.guestPacket {site op : Nat} {p : BitVec 512} {s : State} {k : Site → State} (h : Lost stat ord gone s)
    (hk : ∀ (a : Site), Lost stat ord gone (k a)) : (guestPacket site op p s k).Keeps (Lost stat ord gone) :=
  keeps_ite h (keeps_ite h (hk _))

theorem Lost.execXlateReq {site : Nat} {pkt : BitVec 512} {s : State} (h : Lost stat ord gone s) : (execXlateReq site pkt s).Keeps (Lost stat ord gone) := by
  unfold Machine.execXlateReq
  refine Lost.guestPacket h ?_
  intro a1
  extract_lets +onlyGivenNames va acc ctx answer
  have h1 : ∀ (s : State), Lost stat ord gone s → ∀ (status payload : Nat), Lost stat ord gone (answer s status payload) := fun s1 h1 _ _ => h1
  split
  · exact h1 _ h _ _
  · split
    · exact h1 _ h _ _
    · split
      · exact .enqueue h
      · exact .enqueue h
      · exact h1 _ h _ _
      · split
        · exact keeps_ite (h1 _ h _ _) (.updSite (h1 _ h _ _))
        · exact h1 _ h _ _

theorem Lost.dropGuestClaims {site ctx : Nat} {fs : List Frag} {s : State} (h : Lost stat ord gone s) : Lost stat ord gone (dropGuestClaims site ctx fs s) :=
  .updSite (keeps_foldl h fun _ _ h1 => .endHolder h1)

theorem Lost.grantGuest {site ctx lease : Nat} {write : Bool} {pts0 : BitVec 24} {fs : List Frag} {s : State} (h : Lost stat ord gone s) : Lost stat ord gone
    (grantGuest site ctx lease write pts0 fs s) := by
  unfold Machine.grantGuest
  extract_lets +onlyGivenNames p0 fs1 t s1
  have h1 : Lost stat ord gone s1 := h
  refine keeps_foldl h1 ?_
  intro s2 a1 h2
  split
  rename_i s3 e1
  have h3 := Lost.snd (keeps_ite_snd h2 h2) e1
  exact h3

theorem Lost.execClaimReq {site : Nat} {pkt : BitVec 512} {s : State} (h : Lost stat ord gone s) : (execClaimReq site pkt s).Keeps (Lost stat ord gone) := by
  unfold Machine.execClaimReq
  refine Lost.guestPacket h fun x => ?_
  extract_lets +onlyGivenNames ctx kind answer
  have ha : ∀ t ver status, Lost stat ord gone t → Lost stat ord gone (answer t ver status) := fun _ _ _ ht => ht
  split
  · exact ha _ _ _ h
  · extract_lets s1 fs s2 more held s3 s4
    have h1 : Lost stat ord gone s1 := .visitHandle h
    have h2 : Lost stat ord gone s2 := .dropGuestClaims h1
    have h4 : Lost stat ord gone s4 := keeps_foldl (Lost.grantGuest h1) fun _ _ ht => .touch ht
    have hq : Lost stat ord gone (s1.enqueue (.claimReq site pkt)) := .enqueue h1
    have hr : ∀ fs : List Frag, Lost stat ord gone (fs.foldl (fun s f => s.askRecall f.id) (s1.enqueue (.claimReq site pkt))) :=
      fun _ => keeps_foldl hq fun _ _ ht => ht
    clear_value answer s1 s2 s4
    refine keeps_ite (P := Lost stat ord gone) (ha _ _ _ h2) (keeps_ite (ha _ _ _ h1) (keeps_ite (ha _ _ _ h1) (keeps_ite hq ?_)))
    exact keeps_ite (hr _) (ha _ _ _ h4)

theorem Lost.execGuestRequest {site ctx pa : Nat} {acc : GuestAcc} {s : State} (h : Lost stat ord gone s) : (execGuestRequest site ctx pa acc s).Keeps
    (Lost stat ord gone) := by
  unfold Machine.execGuestRequest
  extract_lets +onlyGivenNames x n k
  split
  · exact keeps_ite h h
  · split
    · exact h
    · extract_lets +onlyGivenNames ok
      split
      · exact Lost.fenceSite h
      · extract_lets +onlyGivenNames b passes
        split
        · exact h
        · split
          · exact Lost.enqueue h
          · split
            · exact Lost.enqueue h
            · extract_lets +onlyGivenNames own s1 s2
              have h1 : Lost stat ord gone s1 := .touch h
              have h2 : Lost stat ord gone s2 := by
                unfold s2
                split
                · split
                  · exact h1
                  · exact h1
                · exact h1
              split
              · exact Lost.updSite (keeps_ite h2 (.plainLoad h2))
              · exact Lost.homeWrite (keeps_ite h2 (.plainStore h2))

/-! ### Machine/Park -/

theorem Lost.kAlarm {s : State} {ctx part : Nat} (h : Lost stat ord gone s) : Lost stat ord gone (s.kAlarm ctx part) :=
  keeps_ite h h

theorem Lost.retryFrames {s : State} {ctx : Nat} (h : Lost stat ord gone s) : Lost stat ord gone (s.retryFrames ctx) :=
  h.mapGroups rfl rfl

theorem Lost.endFrame {s : State} {g : Machine.Group} (h : Lost stat ord gone s) : Lost stat ord gone (s.endFrame g) := by
  unfold State.endFrame
  split
  · exact .retryFrames h
  · exact h

/-- So is a group that GKILL ends. -/
theorem Lost.killAct {s : State} {g : Group} (h : Lost stat ord gone s) :
    Lost stat ord (fun n => (ord ∧ n = g.gid) ∨ gone n) (killAct s g) := by
  unfold Machine.killAct
  extract_lets cl s1 s2 s3 s4 l s5 s6
  have h2 : Lost stat ord gone s2 := by
    refine keeps_foldl (.endFrame h) fun t c ht => ?_
    split
    · exact .updInbound ht
    · exact ht
  have h3 : Lost stat ord gone s3 := .updCluster h2
  have h4 : Lost stat ord gone s4 := h3.congr rfl rfl
  have h5 : Lost stat ord (fun n => (ord ∧ n = g.gid) ∨ gone n) s5 := .freeGroup (.state (.leaveGang h4))
  have h6 : Lost stat ord (fun n => (ord ∧ n = g.gid) ∨ gone n) s6 := by
    unfold s6
    split
    · exact .completeGbar h5
    · exact h5
  exact keeps_ite (.closeTask h6) h6

/-! ### Machine/Network -/

theorem Lost.performPacket {p : Packet} {s : State} (h : Lost stat ord gone s) : Lost stat ord gone (performPacket p s).2 := by
  unfold Machine.performPacket
  extract_lets +onlyGivenNames mark lost
  have h1 : ∀ (s : State), Lost stat ord gone s → Lost stat ord gone (mark s) := fun s1 h1 => h1
  split
  · exact h1 _ (.failPacket h)
  · split
    · exact h1 _ (.deliverGuest h)
    · split
      · exact .enqueue h
      · exact h
      · extract_lets +onlyGivenNames seen s1
        have h2 : Lost stat ord gone s1 := by
          unfold s1
          split
          · exact keeps_ite h h
          · exact h
        exact h1 _ (.answerPart (keeps_ite (.l1Drop (.performPay h2)) (.performPay h2)))

theorem Lost.bumpExpected {s : State} {p : Packet} (h : Lost stat ord gone s) : Lost stat ord gone (s.bumpExpected p) :=
  .setPairs h

theorem Lost.portDrain {p : Packet} {x1 : Nat} {x2 : State} (h : Lost stat ord gone x2) : Lost stat ord gone (portDrain p x1 x2) := by
  induction x1 generalizing x2 with
  | zero => exact h
  | succ n ih =>
    unfold Machine.portDrain
    split
    · exact h
    · split
      · rename_i s1 e1
        have h1 := Lost.snd (.performPacket h) e1
        exact ih (.bumpExpected h1)
      · rename_i s1 e1
        have h1 := Lost.snd (.performPacket h) e1
        exact h1

theorem Lost.atPort {p : Packet} {s : State} (h : Lost stat ord gone s) : Lost stat ord gone (atPort p s) := by
  unfold Machine.atPort
  split
  · split
    · exact h
    · split
      · rename_i s1 e1
        have h1 := Lost.snd (.performPacket h) e1
        exact .bumpExpected h1
      · rename_i s1 e1
        have h1 := Lost.snd (.performPacket h) e1
        exact h1
  · extract_lets +onlyGivenNames d
    split
    · split
      · rename_i s1 e1
        have h1 := Lost.snd (.performPacket h) e1
        exact .portDrain (.bumpExpected h1)
      · rename_i s1 e1
        have h1 := Lost.snd (.performPacket h) e1
        exact h1
    · exact keeps_ite (keeps_ite h h) h

theorem Lost.applyReply {m : FabMsg} {s : State} (h : Lost stat ord gone s) : Lost stat ord gone (applyReply m s) := by
  unfold Machine.applyReply
  extract_lets +onlyGivenNames own
  split
  · exact .sendMsg h
  · split
    · exact h
    · split
      · exact h
      · extract_lets +onlyGivenNames past
        have h1 : ∀ (s : State), Lost stat ord gone s → Lost stat ord gone (past s) := fun s1 h1 => .ackPacket h1
        split
        · exact h
        · exact h1 _ (.answerPart h)
        · exact h1 _ (.failPacket h)
        · exact h1 _ h

theorem Lost.applyReplies {ms : List FabMsg} {s : State} (h : Lost stat ord gone s) : Lost stat ord gone (applyReplies ms s) :=
  keeps_foldl h fun _ _ h1 => .applyReply h1

theorem Lost.retryPacket {id : Nat} {s : State} (h : Lost stat ord gone s) : Lost stat ord gone (retryPacket id s) := by
  unfold Machine.retryPacket
  split
  · exact keeps_ite h (.atPort h)
  · exact h

theorem Lost.retryIngress {s : State} (h : Lost stat ord gone s) : Lost stat ord gone s.retryIngress :=
  keeps_foldl h fun _ _ h1 => .applyReplies (.ingressDrain h1)

/-! ### Machine/Fabric -/

theorem Lost.endRemote {gid : Nat} {ps : List Packet} {s : State} (h : Lost stat ord gone s) : Lost stat ord gone (endRemote gid ps s) := by
  unfold Machine.endRemote
  extract_lets +onlyGivenNames cl c cells hit s1
  have h1 : Lost stat ord gone s1 := keeps_foldl h fun s2 _ h1 => .finishCopy h1
  refine keeps_foldl h1 fun s2 _ h2 => .endEpi ?_
  split
  · exact h2
  · exact h2

/-! ### Machine/Aperture -/

theorem Lost.hostAccess {q : Queued} {pas : List Nat} {s : State} {f : State → State} (h : Lost stat ord gone s)
    (hf : ∀ (a : State), Lost stat ord gone a → Lost stat ord gone (f a)) : (hostAccess q pas s f).Keeps (Lost stat ord gone) := by
  unfold Machine.hostAccess
  split
  · exact h
  · split
    · exact h
    · split
      · exact hf _ h
      · exact h
      · exact h

theorem Lost.execHostDataWrite {pa : Nat} {data : List Byte} {s : State} (h : Lost stat ord gone s) : (execHostDataWrite pa data s).Keeps (Lost stat ord gone)
    := by
  unfold Machine.execHostDataWrite
  exact Lost.hostAccess h (fun s1 h1 => .hubStore h1)

theorem Lost.execHostDataRead {pa n : Nat} {s : State} (h : Lost stat ord gone s) : (execHostDataRead pa n s).Keeps (Lost stat ord gone) := by
  unfold Machine.execHostDataRead
  refine Lost.hostAccess h ?_
  intro s1 h1
  split
  rename_i s2 e1
  have h2 := Lost.snd h1 e1
  exact h2

theorem Lost.execHostDescriptorWrite {off : Nat} {data : List Byte} {s : State} (h : Lost stat ord gone s) : (execHostDescriptorWrite off data s).Keeps
    (Lost stat ord gone) := by
  unfold Machine.execHostDescriptorWrite
  exact Lost.hostAccess h (fun s1 h1 => keeps_foldl h1 fun s2 _ h2 => .hubBlock h2)

/-! ### Machine/Moves -/

theorem Lost.outState {s : State} {x1 : Out} (h : Lost stat ord gone s) (hx1 : x1.Keeps (Lost stat ord gone)) : Lost stat ord gone (outState s x1) := by
  unfold Machine.outState
  split
  · exact hx1
  · exact h

theorem Lost.requeue {q : Queued} {s : State} (h : Lost stat ord gone s) : Lost stat ord gone (requeue q s) := by
  unfold Machine.requeue
  split
  · exact .retryPacket h
  · exact .applyReplies (.ingress h)
  · exact .outState h (Lost.execGuestRequest h)
  · exact .outState h (Lost.execClaimReq h)
  · exact .outState h (Lost.execXlateReq h)
  · exact .outState h (Lost.execHostDataWrite h)
  · exact .outState h (Lost.execHostDataRead h)
  · exact .outState h (Lost.execHostDescriptorWrite h)

theorem Lost.replay {s : State} (h : Lost stat ord gone s) : Lost stat ord gone s.replay :=
  .retryIngress (keeps_foldl h fun _ _ h1 => .requeue h1)

/-! ### Machine/Device -/

theorem Lost.loseClaims {die : Nat} {s : State} (h : Lost stat ord gone s) : Lost stat ord gone (loseClaims die s) :=
  keeps_foldl h fun _ _ h1 => .updFrag (keeps_foldl h1 fun _ _ h2 => .loseResv (.poisonBlock h2))

theorem Lost.holdLaunches {die : Nat} {s : State} (h : Lost stat ord gone s) : Lost stat ord gone (holdLaunches die s) := h

theorem Lost.endLaunches {die : Nat} {s : State} (h : Lost stat ord gone s) : Lost stat ord gone (endLaunches die s) :=
  .congr (.endReserves h) rfl rfl

theorem Lost.lossEntry {s : State} {ctx : Nat} (h : Lost stat ord gone s) : Lost stat ord gone (s.lossEntry ctx) :=
  .kAlarm h

theorem Lost.trapContexts {die : Nat} {s : State} (h : Lost stat ord gone s) : Lost stat ord gone (trapContexts die s) :=
  keeps_foldl (.congr (keeps_foldl h fun _ _ h1 => .groupFault h1) rfl rfl) fun _ _ h1 => .lossEntry h1

theorem Lost.dropPacket {s : State} {p : Packet} (h : Lost stat ord gone s) : Lost stat ord gone (dropPacket s p) := by
  unfold Machine.dropPacket
  extract_lets +onlyGivenNames hit s1
  have h1 : Lost stat ord gone s1 := by
    unfold s1
    clear_value hit
    split
    · exact h
    · exact .takeFaultAt h
  exact .ackPacket h1

theorem Lost.losePackets {die : Nat} {s : State} (h : Lost stat ord gone s) : Lost stat ord gone (losePackets die s) := by
  unfold Machine.losePackets
  split
  rename_i keep s1 e1
  have h1 : Lost stat ord gone s1 := by
    refine Lost.snd (keeps_foldl_snd h fun r p hr => ?_) e1
    split
    · exact hr
    · split
      · exact hr
      · exact keeps_ite_snd hr hr
      · exact hr
  exact h1.congr rfl rfl

theorem Lost.dropTraffic {die : Nat} {s : State} (h : Lost stat ord gone s) : Lost stat ord gone (dropTraffic die s) :=
  keeps_foldl (keeps_foldl h fun _ _ h1 => .endRemote h1) fun _ _ h1 => .dropPacket h1

theorem Lost.loseMove {die : Nat} {s : State} (h : Lost stat ord gone s) : Lost stat ord gone (loseMove die s) :=
  keeps_ite (.replay h) h

end

end Sys2Proof
end

-- ==== Sys2Proof/Proofs/DieLoss.lean ====
/-!
# The loss of a die (R162, R436 to R440)
-/
section
namespace Sys2Proof.Machine
open Sys2Proof

/-! ### Its write claims -/

theorem find?_updFirst_frags (l : List Frag) (i id : Nat) {f : Frag → Frag} (hf : ∀ x, (f x).id = x.id) :
    (updFirst (fun x => x.id == i) f l).find? (fun x => x.id == id) =
      if i = id then (l.find? fun x => x.id == id).map f else l.find? fun x => x.id == id := by
  by_cases hi : i = id
  · subst hi
    rw [if_pos rfl]
    exact updFirst_find? _ f (fun x hx => by simpa [hf] using hx) l
  · rw [if_neg hi]
    induction l with
    | nil => rfl
    | cons x l ih =>
      unfold updFirst
      by_cases hx : x.id = i
      · simp [hx, hi, hf]
      · by_cases hid : x.id = id
        · rw [if_neg (by simpa using hx)]
          simp [hid]
        · rw [if_neg (by simpa using hx)]
          simpa [hid] using ih

/-- What the loss of its holder's die makes of a fragment's blocks. -/
def poisonFrag (s : State) (f : Frag) : State := f.blocks.foldl (fun s b => (s.poisonBlock b).loseResv b) s

/-- What the loss makes of the fragment. -/
def dropClaim (f : Frag) : Frag := { f with holder := none, recalled := false }

/-- Fragments and memory are as they were. -/
structure SameFrags (s t : State) : Prop where
  frags : t.frags = s.frags := by rfl
  mem : t.mem = s.mem := by rfl

theorem sameFrags_poisonBlock (s : State) (b : Nat) : SameFrags s (s.poisonBlock b) := by
  unfold State.poisonBlock State.note State.setPoison
  split
  · split
    · exact {}
    · exact {}
  · split
    · exact {}
    · exact {}

theorem sameFrags_loseResv (s : State) (b : Nat) : SameFrags s (s.loseResv b) := by
  unfold State.loseResv
  split
  · exact {}
  · exact {}

theorem sameFrags_poisonFrag (s : State) (f : Frag) : SameFrags s (poisonFrag s f) := by
  have h (l : List Nat) (s : State) : SameFrags s (l.foldl (fun s b => (s.poisonBlock b).loseResv b) s) := by
    induction l generalizing s with
    | nil => exact {}
    | cons b l ih =>
      have h1 := sameFrags_poisonBlock s b
      have h2 := sameFrags_loseResv (s.poisonBlock b) b
      have h3 := ih ((s.poisonBlock b).loseResv b)
      exact ⟨h3.frags.trans (h2.frags.trans h1.frags), h3.mem.trans (h2.mem.trans h1.mem)⟩
  exact h f.blocks s

/-- The claims of `l`, lost one after another. -/
def dropClaims (l : List Frag) (s : State) : State := l.foldl (fun s f => (poisonFrag s f).updFrag f.id dropClaim) s

/-- A fragment whose write claim a cluster of the die holds. -/
def heldOn (die : Nat) (f : Frag) : Bool := f.holder.any fun h => match h.1 with
  | .cluster c => c / 24 == die
  | .guest _ => false

theorem loseClaims_eq (die : Nat) (s : State) : loseClaims die s = dropClaims (s.frags.filter (heldOn die)) s := rfl

theorem dropClaims_mem (l : List Frag) (s : State) : (dropClaims l s).mem = s.mem := by
  induction l generalizing s with
  | nil => rfl
  | cons f l ih => exact (ih _).trans (sameFrags_poisonFrag s f).mem

/-- A fragment whose claim has gone, or is among those that go, ends without a holder. -/
theorem dropClaims_holder {l : List Frag} {s : State} {id : Nat} {f : Frag} (hf : s.frags.find? (fun f => f.id == id) = some f)
    (h : f.holder = none ∨ ∃ g ∈ l, g.id = id) : ∃ f', (dropClaims l s).frags.find? (fun f => f.id == id) = some f' ∧ f'.holder = none := by
  induction l generalizing s f with
  | nil => exact ⟨f, hf, h.resolve_right fun ⟨g, hg, _⟩ => by simp at hg⟩
  | cons g l ih =>
    have hstep : ((poisonFrag s g).updFrag g.id dropClaim).frags.find? (fun f => f.id == id) = if g.id = id then some (dropClaim f) else some f := by
      rw [State.updFrag_frags, find?_updFirst_frags _ _ _ (f := dropClaim) (fun _ => rfl), (sameFrags_poisonFrag s g).frags, hf]
      rfl
    by_cases hg : g.id = id
    · rw [if_pos hg] at hstep
      exact ih hstep (.inl rfl)
    · rw [if_neg hg] at hstep
      refine ih hstep (h.imp_right fun ⟨x, hx, e⟩ => ⟨x, (List.mem_cons.mp hx).resolve_left fun c => hg (c ▸ e), e⟩)

theorem loseClaims_holder {die id c ctx : Nat} {s : State} {f : Frag} (hf : s.frags.find? (fun f => f.id == id) = some f)
    (hh : f.holder = some (.cluster c, ctx)) (hc : c / 24 = die) :
    ∃ f', (loseClaims die s).frags.find? (fun f => f.id == id) = some f' ∧ f'.holder = none := by
  have hid : f.id = id := by simpa using List.find?_some hf
  have hmem : f ∈ s.frags.filter (heldOn die) := List.mem_filter.mpr ⟨List.mem_of_find?_eq_some hf, by simp [heldOn, hh, hc]⟩
  rw [loseClaims_eq]
  exact dropClaims_holder hf (.inr ⟨f, hmem, hid⟩)

theorem loseClaims_mem (die : Nat) (s : State) : (loseClaims die s).mem = s.mem := by
  rw [loseClaims_eq]
  exact dropClaims_mem _ s

/-! ### Its groups -/

/-- Every group is listed under its own number. -/
def GidsAgree (s : State) : Prop := ∀ n g, s.group? n = some g → g.gid = n

theorem SMap.mem_of_find? {α : Type} {m : SMap α} {i : Nat} {v : α} (h : m.find? i = some v) : (i, v) ∈ m := by
  induction m with
  | nil => simp [SMap.find?] at h
  | cons p m ih =>
    obtain ⟨k, w⟩ := p
    by_cases hk : k = i
    · simp only [SMap.find?, hk, if_true, Option.some.injEq] at h
      simp [hk, h]
    · simp only [SMap.find?, hk, if_false] at h
      exact List.mem_cons_of_mem _ (ih h)

theorem GidsAgree.poisonBlock {s : State} (h : GidsAgree s) (b : Nat) : GidsAgree (s.poisonBlock b) := by
  unfold State.poisonBlock State.note State.setPoison
  exact keeps_ite (keeps_ite h h) (keeps_ite (P := GidsAgree) h h)

theorem GidsAgree.loseResv {s : State} (h : GidsAgree s) (b : Nat) : GidsAgree (s.loseResv b) := by
  unfold State.loseResv
  split
  · intro n g hg
    unfold State.group? at hg
    dsimp only at hg
    rw [SMap.find?_mapVals] at hg
    obtain ⟨x, hx, rfl⟩ := Option.map_eq_some_iff.mp hg
    exact h n x hx
  · exact h

theorem GidsAgree.loseClaims {s : State} (h : GidsAgree s) (die : Nat) : GidsAgree (loseClaims die s) :=
  keeps_foldl h fun _ _ hs => keeps_foldl (P := GidsAgree) hs fun _ b ht => GidsAgree.loseResv (GidsAgree.poisonBlock ht b) b

theorem Lost.weaken {stat : BitVec 8} {ord : Prop} {gone less : Nat → Prop} {s : State} (h : Lost stat ord gone s) (hl : ∀ n, less n → gone n) :
    Lost stat ord less s :=
  ⟨h.diestat, h.rising, fun _ hn => h.group_none (hl _ hn)⟩

theorem Lost.killActs {stat : BitVec 8} {ord : Prop} {gone : Nat → Prop} {s : State} (gs : List Group) (h : Lost stat ord gone s) :
    Lost stat ord (fun n => (ord ∧ ∃ g ∈ gs, g.gid = n) ∨ gone n) (gs.foldl killAct s) := by
  induction gs generalizing gone s with
  | nil => exact Lost.weaken h fun n hn => hn.resolve_left fun ⟨_, g, hg, _⟩ => by simp at hg
  | cons g gs ih =>
    refine Lost.weaken (ih (Lost.killAct h)) fun n hn => ?_
    obtain ⟨ho, x, hx, rfl⟩ | hn := hn
    · obtain rfl | hx := List.mem_cons.mp hx
      · exact .inr (.inl ⟨ho, rfl⟩)
      · exact .inl ⟨ho, x, hx, rfl⟩
    · exact .inr (.inr hn)

/-- After the groups of a die are lost none of its numbers names one. -/
theorem Lost.loseGroups {die : Nat} {ord : Prop} {s : State} (hr : ord → s.groups.rising = true) (hg : ord → GidsAgree s) :
    Lost s.diestat ord (fun n => ord ∧ n < 131072 ∧ gidDie n = die) (loseGroups die s) := by
  unfold Machine.loseGroups
  extract_lets gs s1
  have h1 : Lost s.diestat ord (fun n => s.group? n = none) s1 := ⟨rfl, hr, fun _ hn => hn⟩
  refine Lost.weaken (Lost.killActs gs h1) fun n ⟨ho, hn, hd⟩ => ?_
  cases e : s.group? n with
  | none => exact .inr rfl
  | some g =>
    have hon : gidOn die n = true := by simp [gidOn, hn, hd]
    have hmem : g ∈ gs := List.mem_map.mpr ⟨(n, g), List.mem_filter.mpr ⟨SMap.mem_of_find? e, hon⟩, rfl⟩
    exact .inl ⟨ho, g, hmem, hg ho n g e⟩

/-! ### A die that HUB declares lost -/

theorem loseDie_ignored {die : Nat} {s : State} (h : 8 ≤ die ∨ s.dieLost die = true ∨ s.phase ≠ 15) : loseDie die s = s := by
  unfold loseDie
  exact if_pos (by simpa [or_assoc] using h)

theorem loseDie_lost {die : Nat} {ord : Prop} {s : State} (hd : die < 8) (hl : s.dieLost die = false) (hp : s.phase = 15)
    (hr : ord → s.groups.rising = true) (hg : ord → GidsAgree s) :
    Lost (s.diestat ||| (1#8 <<< die)) ord (fun n => ord ∧ n < 131072 ∧ gidDie n = die) (loseDie die s) := by
  unfold loseDie
  rw [if_neg (by simp [hd, hl, hp])]
  extract_lets s1 s2 s3
  have h1 : Lost (s.diestat ||| (1#8 <<< die)) ord (fun _ => False) s1 := ⟨rfl, hr, fun _ hn => hn.elim⟩
  have hc : Lost (s.diestat ||| (1#8 <<< die)) ord (fun _ => False) (holdLaunches die (loseClaims die s1)) := .holdLaunches (.loseClaims h1)
  have hgc : ord → GidsAgree (holdLaunches die (loseClaims die s1)) := fun ho => GidsAgree.loseClaims (s := s1) (hg ho) die
  have h2 : Lost (s.diestat ||| (1#8 <<< die)) ord (fun n => ord ∧ n < 131072 ∧ gidDie n = die) s2 := by
    have hgr := Lost.loseGroups (die := die) hc.rising hgc
    rw [hc.diestat] at hgr
    exact .endLaunches hgr
  have h3 : Lost (s.diestat ||| (1#8 <<< die)) ord (fun n => ord ∧ n < 131072 ∧ gidDie n = die) s3 := h2
  exact .loseMove (.dropTraffic (.losePackets (.trapContexts h3)))

theorem dieLost_of_diestat {s t : State} {die : Nat} (hd : die < 8) (h : t.diestat = s.diestat ||| (1#8 <<< die)) : t.dieLost die = true := by
  unfold State.dieLost bit
  rw [h]
  simp [hd]

end Sys2Proof.Machine
end

-- ==== Sys2Proof/Proofs/DeviceEvents.lean ====
/-!
# Lost dies, memory errors, device reset and throttling (O59)
-/
section
namespace Sys2Proof.Machine
open Sys2Proof

/-! ### Errors of memory (R490) -/

theorem State.mem_setPoison {s : State} {b c : Nat} : c ∈ (s.setPoison b).poison ↔ c = b ∨ c ∈ s.poison := by
  unfold State.setPoison
  split
  · rename_i h
    have hb : b ∈ s.poison := List.contains_iff_mem.mp h
    exact ⟨.inr, fun hc => hc.elim (fun e => e ▸ hb) id⟩
  · simp [or_comm]

theorem State.setPoison_eq (s : State) (b : Nat) : s.setPoison b = { s with poison := (s.setPoison b).poison } := by
  unfold State.setPoison
  split
  · rfl
  · rfl

/-- A block that is poisoned changes the list of poison and counts an event. -/
theorem State.poisonBlock_eq (s : State) (b : Nat) :
    s.poisonBlock b = { s with poison := (s.setPoison b).poison, evs := (s.poisonBlock b).evs } := by
  unfold State.poisonBlock
  rw [State.note_eq, State.setPoison_eq]

theorem State.mem_poisonBlock {s : State} {b c : Nat} : c ∈ (s.poisonBlock b).poison ↔ c = b ∨ c ∈ s.poison := by
  rw [State.poisonBlock_eq]
  exact State.mem_setPoison

theorem memoryError (s : State) {b : Nat} (h : isFlistad (b * 64) = true) :
    exec (.uncorrectableError (.memory b)) s = .next (s.poisonBlock b) := if_pos h

theorem memoryError_elsewhere (s : State) {b : Nat} (h : isFlistad (b * 64) = false) : exec (.uncorrectableError (.memory b)) s = .next s :=
  if_neg (by simp [h])

/-! ### Errors of scratch and of a group's registers (R490) -/

theorem scratchError {s : State} {gid b : Nat} {g : Group} (hg : s.group? gid = some g) (hb : b * 64 < g.scr.size) :
    exec (.uncorrectableError (.scratch gid b)) s = .next (poisonScratch s g b) := by
  change execUncorrectableError (.scratch gid b) s = _
  unfold execUncorrectableError
  dsimp only
  rw [hg]
  exact if_pos hb

/-- A group with a block of its scratch poisoned. -/
def Group.poisonScr (b : Nat) (g : Group) : Group :=
  { g with scr := { g.scr with poison := if g.scr.poison.contains b then g.scr.poison else g.scr.poison ++ [b] } }

theorem Group.mem_poisonScr (b : Nat) (g : Group) : b ∈ (g.poisonScr b).scr.poison := by
  unfold Group.poisonScr
  dsimp only
  split
  · exact List.contains_iff_mem.mp ‹_›
  · simp

theorem poisonScratch_group? (s : State) (g : Group) (b gid : Nat) :
    (poisonScratch s g b).group? gid = (s.updGroup g.gid (Group.poisonScr b)).group? gid := by
  unfold poisonScratch State.group?
  extract_lets s1 s2
  have h2 : s2.groups = s1.groups := by
    unfold s2
    split
    · rw [State.poisonBlock_eq]
    · rfl
  rw [State.note_eq]
  dsimp only
  rw [h2]
  rfl

theorem scratchError_clause {gid b : Nat} {s : State} {g : Group} (hg : s.group? gid = some g) (e : g.gid = gid) (hb : b * 64 < g.scr.size) :
    ∃ t g', exec (.uncorrectableError (.scratch gid b)) s = .next t ∧ t.group? gid = some g' ∧ b ∈ g'.scr.poison ∧ g'.threads = g.threads := by
  subst e
  have ht : (poisonScratch s g b).group? g.gid = some (g.poisonScr b) := by
    rw [poisonScratch_group?, State.group?_updGroup_self, hg]
    rfl
  exact ⟨_, _, scratchError hg hb, ht, g.mem_poisonScr b, rfl⟩

theorem groupError_none {gid b : Nat} {s : State} (h : s.group? gid = none) :
    exec (.uncorrectableError (.scratch gid b)) s = .next s ∧ exec (.uncorrectableError (.register gid)) s = .next s := by
  constructor
  · change execUncorrectableError (.scratch gid b) s = _
    unfold execUncorrectableError
    dsimp only
    rw [h]
  · change execUncorrectableError (.register gid) s = _
    unfold execUncorrectableError
    dsimp only
    rw [h]

theorem registerError {s : State} {gid : Nat} {g : Group} (hg : s.group? gid = some g) :
    exec (.uncorrectableError (.register gid)) s = .next (killWithEntry s g) := by
  change execUncorrectableError (.register gid) s = _
  unfold execUncorrectableError
  dsimp only
  rw [hg]

/-! ### What ending a group leaves of the outstanding loads -/

/-- The loads that are outstanding. -/
def LoadsAre (l : List OutLoad) (s : State) : Prop := s.loads = l

section
variable {l : List OutLoad} {s : State}

theorem LoadsAre.endFrame (h : LoadsAre l s) (g : Group) : LoadsAre l (s.endFrame g) := by
  unfold State.endFrame
  split
  · exact h
  · exact h

theorem LoadsAre.updInbound (h : LoadsAre l s) (t : Nat) (f : Nat → Nat) : LoadsAre l (s.updInbound t f) := by
  unfold State.updInbound
  split
  · exact h
  · exact h

theorem LoadsAre.leaveGang (h : LoadsAre l s) (g : Group) (killed : Bool) : LoadsAre l (s.leaveGang g killed).state := by
  unfold State.leaveGang
  split
  · exact h
  · split
    · exact h
    · exact h

theorem LoadsAre.wrCells (h : LoadsAre l s) (cs : List (Nat × Byte)) : LoadsAre l (s.wrCells cs) := by
  rw [State.wrCells_eq]
  exact h

theorem LoadsAre.wantPass (h : LoadsAre l s) (die part : Nat) : LoadsAre l (s.wantPass die part) := h

theorem LoadsAre.updCluster (h : LoadsAre l s) (c : Nat) (f : Cluster → Cluster) : LoadsAre l (s.updCluster c f) := h

theorem LoadsAre.updCore (h : LoadsAre l s) (c : Nat) (f : Core → Core) : LoadsAre l (s.updCore c f) := h

theorem LoadsAre.freeGroup (h : LoadsAre l s) (g : Group) : LoadsAre l (s.freeGroup g) := by
  unfold State.freeGroup
  extract_lets cl fab old s1 s2 s3 freed
  have h1 : LoadsAre l s1 := h
  clear_value s1
  have h2 : LoadsAre l s2 := (h1.wantPass _ _).wrCells _
  clear_value s2
  have h3 : LoadsAre l s3 := h2.updCore _ _
  exact h3.updCluster _ _

theorem LoadsAre.note (h : LoadsAre l s) (code core n : Nat) (owner : Option Nat) : LoadsAre l (s.note code core n owner) := by
  rw [State.note_eq]
  exact h

theorem LoadsAre.l1Inval (h : LoadsAre l s) (core ctx : Nat) (p : L1Sec → Bool) : LoadsAre l (s.l1Inval core ctx p) :=
  keeps_foldl h fun _ _ ht => ht

theorem LoadsAre.l1Acquire (h : LoadsAre l s) (core ctx scope : Nat) : LoadsAre l (s.l1Acquire core ctx scope) := by
  unfold State.l1Acquire
  extract_lets p lines
  have h1 : LoadsAre l ((s.l1Inval core ctx p).noteL1 0x22 core lines.length) := (h.l1Inval core ctx p).note _ _ _ _
  exact keeps_ite h (h1.updCluster _ _)

theorem LoadsAre.setClock (h : LoadsAre l s) (c : Clock) (t : BitVec 24) : LoadsAre l (s.setClock c t) := by
  cases c with
  | cluster cl => exact h
  | guest n => exact h
  | dir => exact h

theorem LoadsAre.completeGbar (h : LoadsAre l s) (gang : Nat) : LoadsAre l (s.completeGbar gang) := by
  unfold State.completeGbar
  split
  · exact h
  · extract_lets gids groups live top s1
    have h1 : LoadsAre l s1 := keeps_foldl h fun t g ht => LoadsAre.setClock (LoadsAre.l1Acquire ht _ _ _) _ _
    exact keeps_ite h (keeps_foldl h1 fun _ _ ht => ht)

theorem LoadsAre.closeTask (h : LoadsAre l s) (x : Option Nat) (killed : Bool) (pts : BitVec 24) : LoadsAre l (s.closeTask x killed pts) := by
  unfold State.closeTask
  split
  · exact keeps_ite h h
  · exact h

theorem LoadsAre.killAct (h : LoadsAre l s) (g : Group) : LoadsAre l (killAct s g) := by
  unfold Machine.killAct
  extract_lets cl s1 s2 s3 s4 r s5 s6
  have h2 : LoadsAre l s2 := by
    refine keeps_foldl (h.endFrame g) fun t c ht => ?_
    split
    · exact ht.updInbound _ _
    · exact ht
  have h4 : LoadsAre l s4 := h2
  have h5 : LoadsAre l s5 := (h4.leaveGang g true).freeGroup g
  have h6 : LoadsAre l s6 := by
    unfold s6
    split
    · exact h5.completeGbar _
    · exact h5
  exact keeps_ite (h6.closeTask _ _ _) h6

end

/-! ### A group that is ended with an entry (R490) -/

/-- What goes with the group: its outstanding loads and its fault entries. -/
def dropOwn (s : State) (g : Group) : State :=
  { s.draw.2 with
    loads := s.loads.filter fun l => l.gid != g.gid
    parts := s.parts.map fun p => (p.1, { p.2 with svc := p.2.svc.filter fun e => !(e.kind == 1 && e.gid == g.gid) }) }

/-- The entry that says so; its AGENT is a free value. -/
def poisonEntry (s : State) (g : Group) : SvcEntry :=
  { kind := 2, arg := BitVec.ofNat 64 (cPoison.toNat + (Config.freeWord s.free).toNat % 16 * 256), frame := 0, reqno := 0, service := 0, ctx := g.ctx,
    gid := g.gid, wid := 0 }

theorem killWithEntry_eq (s : State) (g : Group) :
    killWithEntry s g = ((killAct (dropOwn s g) g).service g.part (poisonEntry s g)).kAlarm g.ctx g.part := rfl

theorem poisonEntry_code (s : State) (g : Group) : (poisonEntry s g).arg.toNat % 256 = cPoison.toNat := by
  change (BitVec.ofNat 64 (14 + (Config.freeWord s.free).toNat % 16 * 256)).toNat % 256 = 14
  rw [BitVec.toNat_ofNat]
  omega

theorem State.kAlarm_eq (s : State) (ctx part : Nat) : s.kAlarm ctx part = { s with msix := (s.kAlarm ctx part).msix } := by
  unfold State.kAlarm
  split
  · rfl
  · rfl

theorem State.kAlarm_group? (s : State) (ctx part n : Nat) : (s.kAlarm ctx part).group? n = s.group? n := by rw [State.kAlarm_eq]; rfl

theorem State.kAlarm_part (s : State) (ctx part n : Nat) : (s.kAlarm ctx part).part n = s.part n := by rw [State.kAlarm_eq]; rfl

theorem State.kAlarm_loads (s : State) (ctx part : Nat) : (s.kAlarm ctx part).loads = s.loads := by rw [State.kAlarm_eq]

theorem State.service_group? (s : State) (part : Nat) (e : SvcEntry) (n : Nat) : (s.service part e).group? n = s.group? n := rfl

theorem State.service_loads (s : State) (part : Nat) (e : SvcEntry) : (s.service part e).loads = s.loads := rfl

theorem State.mem_service (s : State) (part : Nat) (e : SvcEntry) : e ∈ ((s.service part e).part part).svc := by
  unfold State.service State.updPart
  rw [State.part, SMap.getD, SMap.find?_insert_self]
  simp

theorem registerError_clause {gid : Nat} {s : State} {g : Group} (hg : s.group? gid = some g) (e : g.gid = gid) (hr : s.groups.rising = true) :
    ∃ t e, exec (.uncorrectableError (.register gid)) s = .next t ∧ t.group? gid = none ∧ e ∈ (t.part g.part).svc ∧ e.kind = 2 ∧ e.frame = 0 ∧
      e.gid = gid ∧ e.ctx = g.ctx ∧ e.arg.toNat % 256 = cPoison.toNat ∧ ∀ l ∈ t.loads, l.gid ≠ gid := by
  have h1 : Lost s.diestat True (fun _ => False) (dropOwn s g) := ⟨rfl, fun _ => hr, fun _ hn => hn.elim⟩
  have hgone : (killAct (dropOwn s g) g).group? gid = none := (Lost.killAct h1).group_none (.inl ⟨trivial, e.symm⟩)
  have h2 : LoadsAre (dropOwn s g).loads (dropOwn s g) := rfl
  have hloads : (killAct (dropOwn s g) g).loads = (dropOwn s g).loads := h2.killAct g
  refine ⟨killWithEntry s g, poisonEntry s g, registerError hg, ?_, ?_, rfl, rfl, e, rfl, poisonEntry_code s g, ?_⟩
  · rw [killWithEntry_eq, State.kAlarm_group?, State.service_group?, hgone]
  · rw [killWithEntry_eq, State.kAlarm_part]
    exact State.mem_service _ _ _
  · rw [killWithEntry_eq, State.kAlarm_loads, State.service_loads, hloads]
    intro l hl
    have hne := (List.mem_filter.mp hl).2
    rw [e] at hne
    simpa using hne

/-! ### Errors of a cached line (R490) -/

/-- A cluster without what it caches of a block. -/
def Cluster.dropBlock (b : Nat) (c : Cluster) : Cluster :=
  { c with held := c.held.filter (fun h => h.blk != b), cores := c.cores.map fun k => { k with l1 := k.l1.filter fun x => x.blk != b } }

theorem lineError {cl : Nat} (s : State) (b : Nat) (h : cl < 192) : exec (.uncorrectableError (.dirtyLine cl b)) s =
    if (s.cluster cl).held.any fun h => h.blk == b then .next ((s.updCluster cl (Cluster.dropBlock b)).poisonBlock b)
    else .next (s.updCluster cl (Cluster.dropBlock b)) :=
  if_neg (by omega)

theorem Cluster.dropBlock_clean (b : Nat) (c : Cluster) :
    (∀ h ∈ (c.dropBlock b).held, h.blk ≠ b) ∧ ∀ k ∈ (c.dropBlock b).cores, ∀ x ∈ k.l1, x.blk ≠ b := by
  constructor
  · intro h hh
    simpa using (List.mem_filter.mp hh).2
  · intro k hk x hx
    obtain ⟨k0, -, rfl⟩ := List.mem_map.mp hk
    simpa using (List.mem_filter.mp hx).2

theorem lineError_clause {cl b : Nat} {s : State} (h : cl < 192) :
    ∃ t, exec (.uncorrectableError (.dirtyLine cl b)) s = .next t ∧ (∀ h ∈ (t.cluster cl).held, h.blk ≠ b) ∧
      (∀ k ∈ (t.cluster cl).cores, ∀ x ∈ k.l1, x.blk ≠ b) ∧ ((∃ h ∈ (s.cluster cl).held, h.blk = b) → b ∈ t.poison) ∧
      ((∀ h ∈ (s.cluster cl).held, h.blk ≠ b) → t.poison = s.poison) ∧ t.mem = s.mem := by
  have hclean := Cluster.dropBlock_clean b (s.cluster cl)
  rw [← State.cluster_updCluster_self s cl (Cluster.dropBlock b)] at hclean
  rw [lineError s b h]
  split
  · rename_i hany
    obtain ⟨x, hx, e⟩ := List.any_eq_true.mp hany
    have hcl : ((s.updCluster cl (Cluster.dropBlock b)).poisonBlock b).cluster cl = (s.updCluster cl (Cluster.dropBlock b)).cluster cl := by
      rw [State.poisonBlock_eq]
      rfl
    refine ⟨_, rfl, hcl ▸ hclean.1, hcl ▸ hclean.2, fun _ => State.mem_poisonBlock.mpr (.inl rfl), fun hn => absurd (by simpa using e) (hn x hx), ?_⟩
    rw [State.poisonBlock_eq]
    rfl
  · rename_i hany
    refine ⟨_, rfl, hclean.1, hclean.2, fun ⟨x, hx, e⟩ => ?_, fun _ => rfl, rfl⟩
    exact absurd (List.any_eq_true.mpr ⟨x, hx, by simpa using e⟩) hany

/-! ### Trapped contexts (R438) -/

theorem endLaunches_queue {die : Nat} {s : State} {q : QRec} (h : q ∈ (endLaunches die s).queue) : s.trapped die q.ctx = false ∧ q.seam / 16 ≠ die := by
  have hq := (List.mem_filter.mp h).2
  simpa using hq

theorem endLaunches_launches {die : Nat} {s : State} {l : Launch} (h : l ∈ (endLaunches die s).launches) (ht : s.trapped die l.ctx = true) :
    l.status.isSome = true := by
  obtain ⟨k, -, rfl⟩ := List.mem_map.mp h
  split at ht
  · rename_i hs
    rw [if_pos hs]
    simpa [ht] using hs
  · rename_i hs
    rw [if_neg hs]
    rfl

/-! ### Counts, clocks and clusters (R3, R490, R504) -/

theorem patrolScrub_clause (die n : Nat) (s : State) :
    (8 ≤ die ∨ n = 0 → exec (.patrolScrub die n) s = .next s) ∧
    (die < 8 → n ≠ 0 → ∃ t e, exec (.patrolScrub die n) s = .next t ∧ t.evs = s.evs ++ [e] ∧ e.code = 0x80 ∧ e.n = n ∧ e.core = 96 * die ∧
      e.owner = none ∧ t.mem = s.mem ∧ t.poison = s.poison) := by
  change (_ → execPatrolScrub die n s = _) ∧ (_ → _ → ∃ t e, execPatrolScrub die n s = .next t ∧ _)
  unfold execPatrolScrub State.note
  refine ⟨fun h => ?_, fun hd hn => ?_⟩
  · split
    · rw [if_pos (h.resolve_left (by omega))]
    · rfl
  · rw [if_pos hd, if_neg hn]
    exact ⟨_, _, rfl, rfl, rfl, rfl, rfl, rfl, rfl, rfl⟩

theorem powerThrottle_clause (die period : Nat) (s : State) :
    (8 ≤ die ∨ period = 0 → exec (.powerThrottle die period) s = .next s) ∧
    (die < 8 → 0 < period → ∃ t, exec (.powerThrottle die period) s = .next t ∧ t.cyclesOf die = s.cyclesOf die ∧ t.cycleLen die = period ∧
      ∀ d, d ≠ die → t.cyclesOf d = s.cyclesOf d) := by
  refine ⟨fun h => if_pos (by simpa using h), fun hd hp => ⟨_, if_neg (by simp [hd, hp.ne']), ?_, ?_, fun d hne => ?_⟩⟩
  · unfold State.cyclesOf
    dsimp only
    rw [SMap.find?_insert_self]
    simp
  · unfold State.cycleLen
    dsimp only
    rw [SMap.find?_insert_self]
  · unfold State.cyclesOf
    dsimp only
    rw [SMap.find?_insert_ne _ _ hne]

theorem clusterFailure_clause (cl : Nat) (s : State) :
    (192 ≤ cl ∨ cl ∈ s.fenced → exec (.clusterFailure cl) s = .next s) ∧
    (cl < 192 → cl ∉ s.fenced → ∃ t, exec (.clusterFailure cl) s = .next t ∧ t.fenced = s.fenced ++ [cl] ∧ (t.cluster cl).smp = none ∧
      t.groups = s.groups ∧ ∀ d, d ≠ cl → t.cluster d = s.cluster d) := by
  refine ⟨fun h => if_pos (by simpa using h), fun hc hf => ⟨_, if_neg (by simp [hf, hc]), rfl, ?_, rfl, fun d hne => ?_⟩⟩
  · rw [State.cluster_updCluster_self]
  · exact State.cluster_updCluster_ne _ _ hne

theorem samplePoint_clause (cl : Nat) (s : State) :
    ((s.cluster cl).smp = none → exec (.samplePoint cl) s = .next s) ∧
    (∀ u, (s.cluster cl).smp = some u → s.cyclesOf (cl / 24) < u.nextAt → exec (.samplePoint cl) s = .next s) ∧
    (∀ u, (s.cluster cl).smp = some u → u.nextAt ≤ s.cyclesOf (cl / 24) → (s.part (s.partOfCluster cl)).st ≠ .running →
      ∃ t, exec (.samplePoint cl) s = .next t ∧ (t.cluster cl).smp = some { u with nextAt := u.nextAt + fld u.img 87 64 } ∧ t.mem = s.mem) := by
  change (_ → execSamplePoint cl s = _) ∧ (∀ u, _ → _ → execSamplePoint cl s = _) ∧ (∀ u, _ → _ → _ → ∃ t, execSamplePoint cl s = .next t ∧ _)
  unfold execSamplePoint
  refine ⟨fun h => ?_, fun u h hlt => ?_, fun u h hle hst => ?_⟩
  · rw [h]
  · rw [h]
    exact if_pos hlt
  · rw [h]
    dsimp only
    rw [if_neg (by omega), if_neg (by simpa using hst)]
    refine ⟨_, rfl, ?_, rfl⟩
    unfold State.setSmp
    rw [State.cluster_updCluster_self]

/-! ### Device reset and recovery (R499 to R502) -/

theorem accepts_eq {s : State} {image : List Byte} {v : BitVec 32} (h : s.accepts image = some v) : s.fuses.toNat ≤ v.toNat ∧ Config.firmwareOk image = some v := by
  obtain ⟨hok, hle⟩ := Option.filter_eq_some_iff.mp h
  exact ⟨by simpa using hle, hok⟩

theorem bringUp_fuses (s : State) (image : List Byte) (v : BitVec 32) : (s.bringUp image v).fuses.toNat = max s.fuses.toNat v.toNat := by
  have hs := s.fuses.isLt
  have hv := v.isLt
  change (BitVec.ofNat 64 (max s.fuses.toNat v.toNat)).toNat = _
  rw [BitVec.toNat_ofNat]
  omega

theorem deviceReset_boots {s : State} {v : BitVec 32} (h : s.accepts s.flash = some v) : exec .deviceReset s = .next (s.bringUp s.flash v) := by
  change execDeviceReset s = _
  unfold execDeviceReset
  rw [h]

theorem deviceReset_recovers {s : State} (h : s.accepts s.flash = none) :
    ∃ t, exec .deviceReset s = .next t ∧ t.phase = 2 ∧ t.recovery = true ∧ t.groups = [] ∧ t.ctxs = [] ∧ t.fuses = s.fuses ∧ t.flash = s.flash := by
  change ∃ t, execDeviceReset s = .next t ∧ _
  unfold execDeviceReset
  rw [h]
  exact ⟨_, rfl, rfl, rfl, rfl, rfl, rfl, rfl⟩

theorem recgo_ignored {image : List Byte} {s : State} (h : s.recovery = false ∨ s.accepts image = none) : exec (.recgo image) s = .next s := by
  change execRecgo image s = _
  unfold execRecgo
  split
  · rfl
  · rename_i hr
    rw [h.resolve_left (by simpa using hr)]

theorem recgo_boots {image : List Byte} {s : State} {v : BitVec 32} (hr : s.recovery = true) (h : s.accepts image = some v) :
    exec (.recgo image) s = .next (State.bringUp { s with flash := image } image v) := by
  change execRecgo image s = _
  unfold execRecgo
  rw [if_neg (by simp [hr]), h]

end Sys2Proof.Machine

namespace Sys2Proof
open Machine

theorem dieLoss_clause (die : Nat) (s : State) : ∀ i ∈ [Instr.planeLinkSilent die, .dieFault die],
    (8 ≤ die ∨ s.dieLost die = true ∨ s.phase ≠ 15 → exec i s = .next s) ∧
    (die < 8 → s.dieLost die = false → s.phase = 15 → ∃ t, exec i s = .next t ∧ t.diestat = s.diestat ||| (1#8 <<< die) ∧ t.dieLost die = true ∧
      (s.groups.rising = true → (∀ n g, s.group? n = some g → g.gid = n) → ∀ n, n < 131072 → gidDie n = die → t.group? n = none)) := by
  intro i hi
  have he : exec i s = .next (loseDie die s) := by
    rcases List.mem_cons.mp hi with rfl | hi
    · rfl
    · obtain rfl := List.mem_singleton.mp hi
      rfl
  refine ⟨fun h => he.trans (by rw [loseDie_ignored h]), fun hd hl hp => ?_⟩
  have hlost := loseDie_lost (ord := s.groups.rising = true ∧ GidsAgree s) hd hl hp And.left And.right
  exact ⟨_, he, hlost.diestat, dieLost_of_diestat hd hlost.diestat, fun hr hg n hn hnd => hlost.group_none ⟨⟨hr, hg⟩, hn, hnd⟩⟩

/-- Settles O59: each clause is one lemma about an event. -/
theorem deviceEvents : Obligations.DeviceEvents := by
  unfold Obligations.DeviceEvents
  refine ⟨dieLoss_clause, ?_, ?_, ?_, ?_, ?_, ?_, ?_, ?_, ?_, patrolScrub_clause, ?_, ?_, ?_, ?_, ?_, ?_, ?_, powerThrottle_clause, clusterFailure_clause,
    samplePoint_clause⟩
  · exact fun die s => ⟨fun id f c ctx hf hh hc => loseClaims_holder hf hh hc, loseClaims_mem die s⟩
  · exact fun die s q hq => endLaunches_queue hq
  · exact fun die s l hl ht => endLaunches_launches hl ht
  · exact fun b s h => memoryError_elsewhere s h
  · intro b s h
    refine ⟨_, memoryError s h, State.mem_poisonBlock.mpr (.inl rfl), fun c hc => State.mem_poisonBlock.trans (or_iff_right hc), ?_, ?_⟩
    · rw [State.poisonBlock_eq]
    · rw [State.poisonBlock_eq]
  · exact fun gid b s g hg e hb => scratchError_clause hg e hb
  · exact fun gid b s h => groupError_none h
  · exact fun gid s g hg e hr => registerError_clause hg e hr
  · exact fun cl b s h => lineError_clause h
  · exact fun s h => if_pos (by simpa using h)
  · exact fun s h => ⟨_, if_neg (by simp [h]), rfl, rfl, rfl, rfl, rfl, rfl, rfl⟩
  · exact fun s h => deviceReset_recovers h
  · exact fun s v h => ⟨_, deviceReset_boots h, rfl, rfl, rfl, rfl, rfl, rfl, bringUp_fuses s s.flash v, rfl⟩
  · exact fun image s h => recgo_ignored h
  · exact fun image s v hr h => ⟨_, recgo_boots hr h, rfl, rfl, rfl⟩
  · exact fun image s v h => accepts_eq h

end Sys2Proof
end
